-- ==== Sys2Proof/Word.lean ====
section
/-! DEFINITION. The word types of the JQ-8020 (R5, R9, R36, R272): bytes, 32-bit elements, 64-bit words, and the 32-bit
masks that hold one bit per logical thread. Bit-field helpers stand in `Decode.lean` and `Machine/Ops.lean`. -/
namespace Sys2Proof

/-- One byte of memory (R5). -/
abbrev Byte := BitVec 8

/-- One 32-bit element of a vector register (R272). -/
abbrev Word := BitVec 32

/-- One S register, instruction word or counter word (R272, R61, R362). -/
abbrev DWord := BitVec 64

/-- One bit for each of the 32 logical threads of a warp, thread 0 in bit 0 (R59). -/
abbrev Mask := BitVec 32

end Sys2Proof
end

