-- ==== Sys2Proof/Syntax.lean ====
section
/-! DEFINITION. The syntax of the machine: one constructor of `Instr` for each row of the table of operations and events.
The first 169 are instructions with the operands of their encodings (R66 to R103); the other 82 are events, whose arguments
say which agent, queue, page or request the event is about. Nothing here has a meaning. -/
namespace Sys2Proof

/-- The sixteen type codes of R70, in code order. -/
inductive Ty where
  | n8 | n16 | n32 | n64 | i8 | i16 | i32 | i64 | f64 | f32 | f16 | bf16 | f16x2 | bf16x2 | e4m3 | e5m2
deriving DecidableEq, Repr

/-- The rounding modes of R101 and R113. -/
inductive Rm where
  | rn | rz | rd | ru | rs
deriving DecidableEq, Repr

/-- The conditions of ICMP (R100). -/
inductive ICond where
  | eq | ne | lt | le | gt | ge
deriving DecidableEq, Repr

/-- The conditions of FCMP (R100, R148). -/
inductive FCond where
  | eq | ne | lt | le | gt | ge | un | ord
deriving DecidableEq, Repr

/-- The operations of VRED, VSCAN and VSEGRED (R100). -/
inductive RedOp where
  | add | min | max | and | or | xor
deriving DecidableEq, Repr

/-- The scopes of R71; `dflt` is code 0, the instruction's default. -/
inductive Scope where
  | dflt | warp | core | cluster | die | device | system
deriving DecidableEq, Repr

/-- The replacement hints of R71 and R188. -/
inductive Hint where
  | normal | evictFirst | evictLast
deriving DecidableEq, Repr

/-- The counter semantics SEM of R101 and R229; `dflt` is code 0. -/
inductive Sem where
  | dflt | acq | rel | ar
deriving DecidableEq, Repr

/-- The modes of FENCE (R101, R211). -/
inductive FenceMode where
  | acq | rel | ar
deriving DecidableEq, Repr

/-- The block formats of R101. -/
inductive Bfmt where
  | bfp8 | bfp6 | bfp4
deriving DecidableEq, Repr

/-- The index types of GATHER and SCATTER (R239). -/
inductive IdxTy where
  | n32 | i32 | n64
deriving DecidableEq, Repr

/-- The memories DRAIN names (R213). -/
inductive DrainMem where
  | scr | clu | glb | peer | all
deriving DecidableEq, Repr

/-- The KIND of a BRA or CALL (R216, R217). -/
inductive BrKind where
  | each | any | all
deriving DecidableEq, Repr

/-- An operand specifier of R74. -/
inductive Opnd where
  | v (n : Fin 320)
  | s (n : Fin 64)
  | c (k : Fin 64)
  | o (n : Fin 8)
  | l (n : Fin 4)
  | vz | vtid | vlane
deriving DecidableEq, Repr

/-- The head of an instruction word less its opcode (R66): STALL, SBW, PRED and PNEG. -/
structure Head where
  stall : Fin 16
  sbw : Fin 8
  pred : Fin 8
  pneg : Bool
deriving DecidableEq, Repr

/-- A predicate spec (R143, R164): P0 to P6, or 7 for PT, and the inversion. -/
structure PredSpec where
  p : Fin 8
  neg : Bool
deriving DecidableEq, Repr

/-- A cache level that an event names (R295). -/
inductive CacheLevel where
  | l1 | cc | llc
deriving DecidableEq, Repr

/-- A place that performs accesses (R187, R293, R299, R300): a global page's line under its ASID, a memory channel (an NC page,
addressed physically), an LCM page, the scratch of a block on one core of its cluster, or a peer module (255: the host). -/
inductive Place where
  | glob (asid : Nat)
  | nc
  | lcm (asid : Nat)
  | scr (block core : Nat)
  | peer (node : Nat)
deriving DecidableEq, Repr

/-- One byte's address at the place that holds it. -/
structure Loc where
  place : Place
  addr : Nat
deriving DecidableEq, Repr

/-- What an ACCESS_PERFORMED event performs (R381): a request of an instruction, a write-back of a line to its home (R302),
or a read or write of one byte of a copy (R241). -/
inductive AccRef where
  | req (acc i : Nat)
  | writeBack (cluster core : Nat) (asid vline : Nat)
  | copyRead (copy k : Nat)
  | copyWrite (copy k : Nat)
deriving DecidableEq, Repr

/-- A resume command, three words (R399). -/
structure ResumeCmd where
  w0 : BitVec 64
  w1 : BitVec 64
  w2 : BitVec 64
deriving DecidableEq, Repr

/-- Where an uncorrectable error lies (R429): of a saggar's shared state, the dirty line whose tag fails, if it is one; of a shelf, its switch, or the last
of its local injection ports (R413). -/
inductive EccSite where
  | cacheData (lvl : CacheLevel) (cluster core asid vline : Nat)
  | stackLine (pline : Nat)
  | scratchLine (block core line : Nat)
  | accSegment (cluster core seg : Nat)
  | cleanTag (lvl : CacheLevel) (cluster core asid vline : Nat)
  | tlbEntry (asid va : Nat)
  | counterWord (loc : Loc)
  | warpState (w : Nat)
  | contextState (ctx : Nat) (inTrapLog : Bool)
  | shared (saggar : Nat) (line : Option (CacheLevel × Nat × Nat × Nat × Nat))
  | shelfSwitch (shelf : Nat) (saggar : Option Nat)
  | injectionPorts (shelf : Nat)
  | ioDie
deriving DecidableEq, Repr

/-- What an inbound level counter operation does (R204): it sets a level, raises one, or reads one, raw or as its estimate. -/
inductive InLc where
  | init | raise | raw | est
deriving DecidableEq, Repr

/-- The operation an inbound request carries (R421, R422). -/
inductive InOp where
  | load | store | add | min | max | and | or | xor | exch | cas | lc (k : InLc)
  | ctrInit (ext : Bool) | ctrAdd | ctrWait | ctrArv | ctrRead | ctrKill | ctrFree
deriving DecidableEq, Repr

/-- The place of an inbound write in an ordered flow of its source (R420): the flow, the number of its copy, whether it is the last write of that
copy, and the inbound port it arrives at. -/
structure InFlow where
  id : Nat
  seq : Nat
  last : Bool
  port : Nat
deriving DecidableEq, Repr

/-- A flow as an event names it: one of this module's own, by its index, or one of a peer that ends here. -/
inductive FlowRef where
  | own (i : Nat)
  | inbound (node id : Nat)
deriving DecidableEq, Repr

/-- An inbound request of a peer or the host (R421), with up to the 128 bytes of a sector. -/
structure InReq where
  node : Nat
  flow : Option InFlow
  op : InOp
  ty : Ty
  paddr : Nat
  size : Nat
  data : BitVec 1024
  cmp : BitVec 64
deriving DecidableEq, Repr

/-- A bounds table entry (R354) as it is written. -/
structure BoundsVal where
  base : BitVec 64
  top : BitVec 64
  low : BitVec 32
  high : BitVec 32
  action : Fin 4
deriving DecidableEq, Repr

/-- A firmware image (R441): its 16-bit security version, the bytes of its first stage and of the stages that this starts (R439), and its
signature. -/
structure FwImage where
  version : BitVec 16
  body : List Byte
  sig : List Byte
  stages : List (List Byte) := []
deriving DecidableEq, Repr

/-- A log descriptor of R332 as it is written. -/
structure LogVal where
  base : BitVec 64
  prodctr : BitVec 64
  cons : BitVec 64
  logn : Nat
deriving DecidableEq, Repr

/-- The logs of a context (R332, R402) and the module's inbound log (R425). -/
inductive LogKind where
  | queue | copy | trap | inbound
deriving DecidableEq, Repr

/-- What a host mailbox message asks of the control cores (R428, R366, R399, R309), and the keys of link IDE (R442). -/
inductive HostMsg where
  | submit (ctx q : Nat) (pkt : List Byte) (addr : BitVec 64)
  | ctrAdd (ctx : Nat) (va : BitVec 64) (inc : BitVec 64)
  | resume (cmd : ResumeCmd)
  | readLog (ctx : Nat) (log : LogKind)
  | clearHold (ctx q : Nat)
  | ideKey (stream : Nat) (key : List Byte)
deriving DecidableEq, Repr

/-- What a CONTROL_WRITE writes: a register or table field that has no row of its own (R276, R289, R324, R332, R343, R421, R30,
R287, R417, R305). -/
inductive CtlWrite where
  | newContext (asid : BitVec 16) (root : BitVec 64) (saggar : Nat) (func : Nat)
  | cxctl (ctx : Nat) (v : BitVec 64)
  | ctxEntry (ctx : Nat) (root btbase bpbase : BitVec 64) (saggar : Nat)
  | queueDesc (ctx q : Nat) (valid hold : Bool) (logdepth : Nat)
  | logDesc (ctx : Nat) (log : LogKind) (v : LogVal)
  | unresolvable (ctx : Nat) (va : BitVec 64) (yes : Bool)
  | zeroEvents (ctx : Nat)
  | wcr (w : Nat) (v : BitVec 64)
  | lpc (w t : Nat) (v : BitVec 64)
  | sreg (w n : Nat) (v : BitVec 64)
  | preg (w n : Nat) (v : BitVec 32)
  | slot (w r p : Nat) (v : BitVec 32)
  | tag (w r : Nat) (v : BitVec 16)
  | tableEntry (w m t : Nat) (e : Option (Fin 32))
  | tableMeta (w m : Nat) (inj : Bool) (ref : Nat)
  | draw (w t : Nat) (v : BitVec 64)
  | lease (w : Nat) (v : BitVec 64)
  | fault (w n : Nat) (v : BitVec 64)
  | lslot (w n p : Nat) (v : BitVec 32)
  | resumePoint (w : Nat) (hi lo : BitVec 64)
  | word (va : BitVec 64) (ctx : Nat) (v : BitVec 64)
  | inWindow (i : Nat) (w0 w1 : BitVec 64)
  | binding (i : Nat) (node asid q : Nat) (ctx tq : Nat)
  | unbind (i : Nat)
  | node (n : Nat)
  | powerLimit (watts : Nat)
  | sbCount (w i n : Nat)
  | keptWait (w k : Nat) (addr target : BitVec 64)
  | keptDrain (w : Nat) (ms : List DrainMem)
  | yieldLeft (w n : Nat)
  | lmap (w n t : Nat) (p : Option (Fin 32))
  | bar2 (bytes : Nat)
deriving DecidableEq, Repr

/-- One row of the table of operations and events each. -/
inductive Instr where
  | iadd (h : Head) (ty : Ty) (sat : Bool) (d a b : Opnd)
  | iaddImm (h : Head) (ty : Ty) (sat : Bool) (d a : Opnd) (imm : BitVec 18)
  | isub (h : Head) (ty : Ty) (sat : Bool) (d a b : Opnd)
  | isubImm (h : Head) (ty : Ty) (sat : Bool) (d a : Opnd) (imm : BitVec 18)
  | imul (h : Head) (ty : Ty) (d a b : Opnd)
  | imulImm (h : Head) (ty : Ty) (d a : Opnd) (imm : BitVec 18)
  | imulhi (h : Head) (ty : Ty) (d a b : Opnd)
  | imad (h : Head) (ty : Ty) (d a b c : Opnd)
  | imadw (h : Head) (ty : Ty) (d a b c : Opnd)
  | imin (h : Head) (ty : Ty) (d a b : Opnd)
  | imax (h : Head) (ty : Ty) (d a b : Opnd)
  | iabs (h : Head) (ty : Ty) (sat : Bool) (d a : Opnd)
  | ineg (h : Head) (ty : Ty) (sat : Bool) (d a : Opnd)
  | iclamp (h : Head) (ty : Ty) (d a b c : Opnd)
  | lea (h : Head) (ty : Ty) (sh : Fin 8) (d a b : Opnd)
  | and (h : Head) (ty : Ty) (d a b : Opnd)
  | andImm (h : Head) (ty : Ty) (d a : Opnd) (imm : BitVec 18)
  | or (h : Head) (ty : Ty) (d a b : Opnd)
  | orImm (h : Head) (ty : Ty) (d a : Opnd) (imm : BitVec 18)
  | xor (h : Head) (ty : Ty) (d a b : Opnd)
  | xorImm (h : Head) (ty : Ty) (d a : Opnd) (imm : BitVec 18)
  | andn (h : Head) (ty : Ty) (d a b : Opnd)
  | andnImm (h : Head) (ty : Ty) (d a : Opnd) (imm : BitVec 18)
  | not (h : Head) (ty : Ty) (d a : Opnd)
  | shl (h : Head) (ty : Ty) (d a b : Opnd)
  | shlImm (h : Head) (ty : Ty) (d a : Opnd) (imm : BitVec 18)
  | shr (h : Head) (ty : Ty) (d a b : Opnd)
  | shrImm (h : Head) (ty : Ty) (d a : Opnd) (imm : BitVec 18)
  | sar (h : Head) (ty : Ty) (d a b : Opnd)
  | sarImm (h : Head) (ty : Ty) (d a : Opnd) (imm : BitVec 18)
  | rotl (h : Head) (ty : Ty) (d a b : Opnd)
  | rotlImm (h : Head) (ty : Ty) (d a : Opnd) (imm : BitVec 18)
  | bfx (h : Head) (ty : Ty) (d a b : Opnd)
  | bfxImm (h : Head) (ty : Ty) (d a : Opnd) (imm : BitVec 18)
  | bfi (h : Head) (ty : Ty) (d a b c : Opnd)
  | bfiImm (h : Head) (ty : Ty) (d a : Opnd) (imm : BitVec 18)
  | clz (h : Head) (ty : Ty) (d a : Opnd)
  | popc (h : Head) (ty : Ty) (d a : Opnd)
  | brev (h : Head) (ty : Ty) (d a : Opnd)
  | icmp (h : Head) (ty : Ty) (cond : ICond) (pd : Fin 7) (a b : Opnd)
  | icmpImm (h : Head) (ty : Ty) (cond : ICond) (pd : Fin 7) (a : Opnd) (imm : BitVec 18)
  | sel (h : Head) (ty : Ty) (d a b : Opnd) (ps : PredSpec)
  | mov (h : Head) (ty : Ty) (d a : Opnd)
  | movi (h : Head) (ty : Ty) (d : Opnd) (imm : BitVec 32)
  | movh (h : Head) (d : Opnd) (imm : BitVec 32)
  | i2i (h : Head) (dty sty : Ty) (sat : Bool) (d a : Opnd)
  | fadd (h : Head) (ty : Ty) (rm : Rm) (d a b : Opnd)
  | faddImm (h : Head) (ty : Ty) (rm : Rm) (d a : Opnd) (imm : BitVec 18)
  | fsub (h : Head) (ty : Ty) (rm : Rm) (d a b : Opnd)
  | fmul (h : Head) (ty : Ty) (rm : Rm) (d a b : Opnd)
  | fmulImm (h : Head) (ty : Ty) (rm : Rm) (d a : Opnd) (imm : BitVec 18)
  | ffma (h : Head) (ty : Ty) (rm : Rm) (d a b c : Opnd)
  | fmin (h : Head) (ty : Ty) (d a b : Opnd)
  | fminImm (h : Head) (ty : Ty) (d a : Opnd) (imm : BitVec 18)
  | fmax (h : Head) (ty : Ty) (d a b : Opnd)
  | fmaxImm (h : Head) (ty : Ty) (d a : Opnd) (imm : BitVec 18)
  | fcmp (h : Head) (ty : Ty) (cond : FCond) (pd : Fin 7) (a b : Opnd)
  | fcmpImm (h : Head) (ty : Ty) (cond : FCond) (pd : Fin 7) (a : Opnd) (imm : BitVec 18)
  | fclass (h : Head) (ty : Ty) (d a : Opnd)
  | frcp (h : Head) (ty : Ty) (d a : Opnd)
  | frsq (h : Head) (ty : Ty) (d a : Opnd)
  | fsqrt (h : Head) (ty : Ty) (d a : Opnd)
  | fexp2 (h : Head) (ty : Ty) (d a : Opnd)
  | flog2 (h : Head) (ty : Ty) (d a : Opnd)
  | fsin (h : Head) (ty : Ty) (d a : Opnd)
  | fcos (h : Head) (ty : Ty) (d a : Opnd)
  | fdiv (h : Head) (ty : Ty) (rm : Rm) (d a b : Opnd)
  | frnd (h : Head) (ty : Ty) (rm : Rm) (d a : Opnd)
  | f2f (h : Head) (dty sty : Ty) (sat : Bool) (rm : Rm) (d a : Opnd)
  | f2i (h : Head) (dty sty : Ty) (sat : Bool) (rm : Rm) (d a : Opnd)
  | i2f (h : Head) (dty sty : Ty) (rm : Rm) (d a : Opnd)
  | fdot2 (h : Head) (ty : Ty) (rm : Rm) (d a b c : Opnd)
  | bcvt (h : Head) (fmt : Bfmt) (rm : Rm) (d a : Opnd)
  | bdot (h : Head) (fmt : Bfmt) (d a b c : Opnd)
  | bunp (h : Head) (fmt : Bfmt) (d a : Opnd)
  | rand (h : Head) (ty : Ty) (d : Opnd)
  | vxor (h : Head) (d a : Opnd) (k : Fin 32)
  | vrot (h : Head) (g : Fin 8) (d a : Opnd) (k : Fin 32)
  | vrev (h : Head) (g : Fin 8) (d a : Opnd) (k : Fin 32)
  | vbcast (h : Head) (g : Fin 8) (d a : Opnd) (k : Fin 32)
  | vshuf (h : Head) (d a b : Opnd)
  | vtrn (h : Head) (g : Fin 8) (d a : Opnd)
  | vcompact (h : Head) (d a : Opnd) (ps : PredSpec) (sc : Option (Fin 64))
  | vexpand (h : Head) (d a : Opnd) (ps : PredSpec)
  | vfire (h : Head) (d a : Opnd)
  | vmaprd (h : Head) (form : Bool) (d a : Opnd)
  | vfirst (h : Head) (ty : Ty) (d a : Opnd)
  | vballot (h : Head) (d : Opnd) (ps : PredSpec)
  | vany (h : Head) (pd : Fin 7) (ps : PredSpec)
  | vall (h : Head) (pd : Fin 7) (ps : PredSpec)
  | vmatch (h : Head) (ty : Ty) (d a : Opnd)
  | vactive (h : Head) (d : Opnd)
  | vred (h : Head) (ty : Ty) (op : RedOp) (d a : Opnd)
  | vscan (h : Head) (ty : Ty) (op : RedOp) (excl : Bool) (d a : Opnd)
  | vsegred (h : Head) (ty : Ty) (op : RedOp) (d a : Opnd) (ps : PredSpec)
  | vsort (h : Head) (ty : Ty) (asc move : Bool) (d a : Opnd) (ci : Option (Fin 320))
  | vtopk (h : Head) (ty : Ty) (asc : Bool) (d a k : Opnd) (ci : Fin 320)
  | vtopkMulti (h : Head) (ty : Ty) (asc : Bool) (m : Fin 8) (d a k : Opnd) (ci : Fin 320)
  | vbin (h : Head) (sn : Fin 64) (d a : Opnd) (ps : PredSpec) (nb : Opnd)
  | ld (h : Head) (ty : Ty) (sc : Scope) (hint : Hint) (d base : Opnd) (off : BitVec 18)
  | ldIdx (h : Head) (ty : Ty) (sc : Scope) (hint : Hint) (d base idx : Opnd) (sh : Fin 4) (disp : BitVec 7)
  | st (h : Head) (ty : Ty) (sc : Scope) (hint : Hint) (data base : Opnd) (off : BitVec 18)
  | stIdx (h : Head) (ty : Ty) (sc : Scope) (hint : Hint) (data base idx : Opnd) (sh : Fin 4) (disp : BitVec 7)
  | ldx (h : Head) (ty : Ty) (nreg : Fin 8) (sc : Scope) (hint : Hint) (d base : Opnd) (off : BitVec 15)
  | stx (h : Head) (ty : Ty) (nreg : Fin 8) (sc : Scope) (hint : Hint) (data base : Opnd) (off : BitVec 15)
  | ldrec (h : Head) (fmt : Bfmt) (sc : Scope) (hint : Hint) (d base : Opnd) (off : BitVec 18)
  | ststash (h : Head) (ty : Ty) (sc : Scope) (hint : Hint) (data base : Opnd) (off : BitVec 18)
  | prefetch (h : Head) (sc : Scope) (hint : Hint) (base : Opnd) (off : BitVec 18)
  | prefetchIdx (h : Head) (sc : Scope) (hint : Hint) (base idx : Opnd) (sh : Fin 4) (disp : BitVec 7)
  | cflush (h : Head) (sc : Scope) (hint : Hint) (base : Opnd) (off : BitVec 18)
  | cinv (h : Head) (sc : Scope) (hint : Hint) (base : Opnd) (off : BitVec 18)
  | cdemote (h : Head) (sc : Scope) (base : Opnd) (off : BitVec 18)
  | atomAdd (h : Head) (ty : Ty) (sc : Scope) (hint : Hint) (d a b : Opnd) (cb : Option (Fin 64))
  | atomMin (h : Head) (ty : Ty) (sc : Scope) (hint : Hint) (d a b : Opnd) (cb : Option (Fin 64))
  | atomMax (h : Head) (ty : Ty) (sc : Scope) (hint : Hint) (d a b : Opnd) (cb : Option (Fin 64))
  | atomAnd (h : Head) (ty : Ty) (sc : Scope) (hint : Hint) (d a b : Opnd) (cb : Option (Fin 64))
  | atomOr (h : Head) (ty : Ty) (sc : Scope) (hint : Hint) (d a b : Opnd) (cb : Option (Fin 64))
  | atomXor (h : Head) (ty : Ty) (sc : Scope) (hint : Hint) (d a b : Opnd) (cb : Option (Fin 64))
  | atomExch (h : Head) (ty : Ty) (sc : Scope) (hint : Hint) (d a b : Opnd) (cb : Option (Fin 64))
  | atomcas (h : Head) (ty : Ty) (sc : Scope) (hint : Hint) (d a b c : Opnd)
  | redAdd (h : Head) (ty : Ty) (sc : Scope) (hint : Hint) (a b : Opnd) (cb : Option (Fin 64))
  | redMin (h : Head) (ty : Ty) (sc : Scope) (hint : Hint) (a b : Opnd) (cb : Option (Fin 64))
  | redMax (h : Head) (ty : Ty) (sc : Scope) (hint : Hint) (a b : Opnd) (cb : Option (Fin 64))
  | redAnd (h : Head) (ty : Ty) (sc : Scope) (hint : Hint) (a b : Opnd) (cb : Option (Fin 64))
  | redOr (h : Head) (ty : Ty) (sc : Scope) (hint : Hint) (a b : Opnd) (cb : Option (Fin 64))
  | redXor (h : Head) (ty : Ty) (sc : Scope) (hint : Hint) (a b : Opnd) (cb : Option (Fin 64))
  | scadd (h : Head) (ty : Ty) (sc : Scope) (a b : Opnd) (cb : Option (Fin 64))
  | lcadd (h : Head) (sc : Scope) (a b : Opnd) (cb : Option (Fin 64))
  | lcrd (h : Head) (d base : Opnd) (off : BitVec 18)
  | lcrdRaw (h : Head) (d base : Opnd) (off : BitVec 18)
  | lcmrg (h : Head) (sc : Scope) (a b : Opnd) (cb : Option (Fin 64))
  | lcinit (h : Head) (data base : Opnd) (off : BitVec 18)
  | fence (h : Head) (sc : Scope) (mode : FenceMode)
  | fenceop (h : Head)
  | drain (h : Head) (mem : DrainMem)
  | leaseDecl (h : Head) (gran : Fin 256)
  | leaseMeas (h : Head) (gran : Fin 256)
  | ctrinit (h : Head) (sc : Scope) (sem : Sem) (ext : Bool) (a b : Opnd) (cb : Option (Fin 64))
  | ctradd (h : Head) (sc : Scope) (sem : Sem) (d : Option Opnd) (a b : Opnd) (cb : Option (Fin 64))
  | ctraddImm (h : Head) (sc : Scope) (sem : Sem) (d : Option Opnd) (a : Opnd) (imm : BitVec 18)
  | ctrwait (h : Head) (sc : Scope) (sem : Sem) (pd : Fin 7) (a b : Opnd)
  | ctrwaitImm (h : Head) (sc : Scope) (sem : Sem) (pd : Fin 7) (a : Opnd) (imm : BitVec 18)
  | ctrarv (h : Head) (sc : Scope) (sem : Sem) (pd : Fin 7) (a b : Opnd)
  | ctrrd (h : Head) (sc : Scope) (sem : Sem) (d a : Opnd) (cb : Option (Fin 64))
  | ctrkill (h : Head) (sc : Scope) (sem : Sem) (a : Opnd) (cb : Option (Fin 64))
  | ctrkillFree (h : Head) (sc : Scope) (sem : Sem) (a : Opnd) (cb : Option (Fin 64))
  | copy (h : Head) (sc : Scope) (ord : Bool) (bucket : Byte) (hint : Hint) (a : Fin 64)
  | bcopy (h : Head) (sc : Scope) (ord : Bool) (bucket : Byte) (hint : Hint) (parts : Fin 128) (coll : Fin 16) (a : Fin 64)
  | gather (h : Head) (sc : Scope) (ord : Bool) (bucket : Byte) (hint : Hint) (idx : IdxTy) (a : Fin 64)
  | scatter (h : Head) (sc : Scope) (ord : Bool) (bucket : Byte) (hint : Hint) (idx : IdxTy) (a : Fin 64)
  | unpack (h : Head) (sc : Scope) (ord : Bool) (bucket : Byte) (hint : Hint) (fmt : Bfmt) (a : Fin 64)
  | mma (h : Head) (a : Fin 64)
  | maccrd (h : Head) (ty : Ty) (d a : Opnd)
  | maccwr (h : Head) (ty : Ty) (a b : Opnd)
  | maccz (h : Head) (first : Fin 16) (count : Fin 32)
  | bra (h : Head) (u : Bool) (kind : BrKind) (cond : PredSpec) (off : BitVec 32)
  | call (h : Head) (u : Bool) (kind : BrKind) (cond : PredSpec) (off : BitVec 32)
  | brx (h : Head) (u : Bool) (a : Opnd)
  | ret (h : Head) (u : Bool) (a : Opnd)
  | exit (h : Head)
  | join (h : Head)
  | yield (h : Head) (n : BitVec 16)
  | nop (h : Head)
  | launch (h : Head) (d a : Fin 64) (q : Fin 16)
  | trap (h : Head) (imm : BitVec 32)
  | brk (h : Head) (imm : BitVec 32)
  | rdsr (h : Head) (d : Opnd) (num : Fin 1024)
  | wrsr (h : Head) (num : Fin 1024) (a : Opnd)
  | rdtime (h : Head) (d : Fin 64)
  | clauseStart (w : Nat)
  | clauseFetchResolved (w : Nat)
  | issueWaitEnd (w : Nat)
  | resultWriteback (acc : Nat)
  | ownershipGrant (cluster core asid vline : Nat)
  | lineFill (lvl : CacheLevel) (cluster core asid vline : Nat) (victim : Option (Nat × Nat))
  | pageWalk (asid va : Nat)
  | runaheadStop (w : Nat)
  | pageBatchResolved (w : Nat)
  | recall (asid va level : Nat) (pte : BitVec 64)
  | mapPage (asid va level : Nat) (pte : BitVec 64)
  | migrationStart (asid va frame : Nat)
  | migrationPull (asid va : Nat)
  | packetSubmit (ctx q : Nat) (pkt : List Byte) (addr : BitVec 64)
  | packetAccept (ctx q : Nat)
  | launchStart (ctx q : Nat)
  | signal (ctx q : Nat)
  | seed (ctx q : Nat)
  | packetForward (ctx q : Nat)
  | forwardReceive (node asid q : Nat) (pkt : List Byte)
  | forwardAnswer (ctx q : Nat) (held : Bool) (reason : Nat)
  | gangPlace (launch cluster : Nat) (seats : List (List Nat))
  | placementStarve (launch : Nat)
  | recordRead (launch : Nat)
  | blockFinish (block : Nat)
  | sliceBoundary (cluster core : Nat)
  | leaseWindowEnd (cluster core : Nat)
  | yieldExpire (w : Nat)
  | counterWake (w : Nat)
  | counterPoll (w : Nat)
  | requestPerform (acc i : Nat)
  | fenceComplete (w : Nat)
  | copyStart (cluster core : Nat)
  | copySourceReadDone (copy : Nat)
  | copyComplete (copy : Nat)
  | copyFail (copy : Nat)
  | copyPageResolved (copy : Nat)
  | mmaStart (cluster core : Nat)
  | mmaBandCommit (cluster core : Nat)
  | mmaRestart (cluster core : Nat)
  | mmaFail (cluster core : Nat)
  | ticketRelease (launch : Nat)
  | cone (ctx : Nat)
  | resumeRetry (cmd : ResumeCmd)
  | resumeSkip (cmd : ResumeCmd)
  | resumeDiverge (cmd : ResumeCmd)
  | resumeKill (cmd : ResumeCmd)
  | preempt (gang : Nat)
  | restore (gang cluster : Nat) (seats : List (List Nat))
  | contextSwitch (ctx : Nat)
  | eccError (site : EccSite)
  | saggarReset (saggar cause : Nat) (deadClusters deadSlices deadChannels : List (Nat × Nat))
  | shelfHeartbeatTimeout (shelf : Nat)
  | routeChange (node : Nat) (entry : BitVec 24)
  | flitReplay (port : Nat) (again : Bool)
  | inboundRequest (r : InReq)
  | remote (acc reason : Nat)
  | peerAnswer (acc : Nat) (vals : List (BitVec 64))
  | rtimeout (acc : Nat)
  | flowbroken (flow : FlowRef)
  | flowSkip (flow : FlowRef)
  | windowRecall (i : Nat)
  | mailboxMessage (m : HostMsg)
  | flr (func : Nat)
  | ptpLock (time : BitVec 64)
  | firmwareUpdate (img : FwImage)
  | attestationReport (nonce : List Byte)
  | lcbaseWrite (ctx i : Nat) (v : BitVec 64)
  | boundsEntryWrite (ctx table entry : Nat) (v : BoundsVal)
  | boundsHitClear (ctx table entry : Nat)
  | partitionWrite (mode : Nat)
  | controlWrite (c : CtlWrite)
  | accessPerformed (r : AccRef)
  | restack
  | restackSwitch
  | restackOverrun
  | throttleStep
  | throttleRaise
  | thermalThrottle
  | thermalTrip
  | moduleReset
  | fullService
deriving DecidableEq, Repr

end Sys2Proof
end

