-- ==== Sys2Proof/WellFormed.lean ====
section
/-! DEFINITION. Which terms of `Instr` are words of the machine: the part of R103 that a word alone decides (types, selectors,
rounding modes, scopes, operand kinds and ranges). What depends on the clause, the warp's allotment or a tag is judged when the
word is reached (`Machine/Issue.lean`). Events are always well formed: their guards are judged when they occur. -/
namespace Sys2Proof

/-- The width in bits of one value of a type (R105, R106); a paired type is a 32-bit element. -/
def Ty.width : Ty → Nat
  | .n8 | .i8 | .e4m3 | .e5m2 => 8
  | .n16 | .i16 | .f16 | .bf16 => 16
  | .n32 | .i32 | .f32 | .f16x2 | .bf16x2 => 32
  | .n64 | .i64 | .f64 => 64

/-- The size in bytes of a memory access of a type (R182). -/
def Ty.bytes (t : Ty) : Nat := t.width / 8

/-- A 64-bit type fills an even/odd pair (R76). -/
def Ty.wide (t : Ty) : Bool := t.width == 64

/-- The integer types, codes 0x0 to 0x7 (R105). -/
def Ty.isInt : Ty → Bool
  | .n8 | .n16 | .n32 | .n64 | .i8 | .i16 | .i32 | .i64 => true
  | .f64 | .f32 | .f16 | .bf16 | .f16x2 | .bf16x2 | .e4m3 | .e5m2 => false

/-- The signed integer types. -/
def Ty.signed : Ty → Bool
  | .i8 | .i16 | .i32 | .i64 => true
  | .n8 | .n16 | .n32 | .n64 | .f64 | .f32 | .f16 | .bf16 | .f16x2 | .bf16x2 | .e4m3 | .e5m2 => false

/-- .I32, .N32, .I64 and .N64 (R134, R140, R176, R200). -/
def Ty.int32or64 (t : Ty) : Bool := t == .i32 || t == .n32 || t == .i64 || t == .n64

/-- The paired types (R112). -/
def Ty.paired (t : Ty) : Bool := t == .f16x2 || t == .bf16x2

/-- The six types of R146. -/
def Ty.arith6 (t : Ty) : Bool := t == .f64 || t == .f32 || t == .f16 || t == .bf16 || t.paired

/-- .F64, .F32, .F16 and .BF16 (R148, R150). -/
def Ty.float4 (t : Ty) : Bool := t == .f64 || t == .f32 || t == .f16 || t == .bf16

/-- The scalar floating-point types (R149, R152). -/
def Ty.scalarFloat (t : Ty) : Bool := t.float4 || t == .e4m3 || t == .e5m2

/-- .N32 and .N64. -/
def Ty.n32or64 (t : Ty) : Bool := t == .n32 || t == .n64

/-- The key types of VSORT and VTOPK (R177). -/
def Ty.sortKey (t : Ty) : Bool :=
  t == .i8 || t == .i16 || t == .i32 || t == .n8 || t == .n16 || t == .n32 || t == .f32 || t == .f16 || t == .bf16 ||
  t == .e4m3 || t == .e5m2

namespace Opnd

/-- An S register. -/
def isS : Opnd → Bool
  | .s _ => true
  | .v _ | .c _ | .o _ | .l _ | .vz | .vtid | .vlane => false

/-- A V register. -/
def isV : Opnd → Bool
  | .v _ => true
  | .s _ | .c _ | .o _ | .l _ | .vz | .vtid | .vlane => false

/-- A V or O register; an even one where the operand is 64 bits wide (R76). -/
def isVO (wide : Bool) : Opnd → Bool
  | .v n => !wide || n.val % 2 == 0
  | .o n => !wide || n.val % 2 == 0
  | .s _ | .c _ | .l _ | .vz | .vtid | .vlane => false

/-- A V, O or L register (the L positions of R163); an L operand has no 64-bit position (R77). -/
def isVOL (wide : Bool) : Opnd → Bool
  | .l _ => !wide
  | .v n => !wide || n.val % 2 == 0
  | .o n => !wide || n.val % 2 == 0
  | .s _ | .c _ | .vz | .vtid | .vlane => false

/-- An S register or a short constant: the sources an S destination admits (R75, R131). -/
def isSC : Opnd → Bool
  | .s _ | .c _ => true
  | .v _ | .o _ | .l _ | .vz | .vtid | .vlane => false

/-- A source operand of any kind (R74, R76, R77). -/
def src (wide : Bool) : Opnd → Bool
  | .l _ => !wide
  | .v n => !wide || n.val % 2 == 0
  | .o n => !wide || n.val % 2 == 0
  | .s _ | .c _ | .vz | .vtid | .vlane => true

/-- A mapped or broadcast source: every kind but the generated ones (R48, R163, R181). -/
def mappedOrBroadcast (wide : Bool) (x : Opnd) : Bool := x.src wide && x != .vtid && x != .vlane

/-- A V, O or S register or a short constant: the data of a store (R181), of MACCWR (R268) and of CTRINIT (R227). -/
def storeData (wide : Bool) (x : Opnd) : Bool := x.isVO wide || x.isSC

/-- An S or V register: an address register (R71, R96, R228). -/
def addrReg (x : Opnd) : Bool := x.isS || x.isV

/-- A destination: a V, O or S register (R74, R76). -/
def dst (wide : Bool) (x : Opnd) : Bool := x.isVO wide || x.isS

/-- A short constant from lo to hi, or an S register (R178 to R180, R233). -/
def countArg (lo hi : Nat) : Opnd → Bool
  | .c k => lo ≤ k.val && k.val ≤ hi
  | .s _ => true
  | .v _ | .o _ | .l _ | .vz | .vtid | .vlane => false

end Opnd

/-- A destination with its sources: an S destination admits only S registers and short constants (R75). -/
def dstOk (wide : Bool) (d : Opnd) (srcs : List Opnd) : Bool :=
  d.dst wide && (!d.isS || srcs.all Opnd.isSC)

/-- RS needs a type other than .F64 and a V or O destination (R114). -/
def rsOk (ty : Ty) (rm : Rm) (d : Opnd) : Bool := rm != .rs || (ty != .f64 && !d.isS)

/-- SBW = 7 and PRED = 7 with PNEG = 1 are reserved (R67). -/
def Head.ok (h : Head) : Bool := h.sbw.val != 7 && !(h.pred.val == 7 && h.pneg)

/-- The special register numbers the table of R224 assigns. -/
def srAssigned (n : Nat) : Bool :=
  n ≤ 0x012 || (0x018 ≤ n && n ≤ 0x01F) || (0x020 ≤ n && n ≤ 0x023) || (0x040 ≤ n && n ≤ 0x05F) || (0x080 ≤ n && n ≤ 0x087)

/-- The special registers with a field WRSR writes (R223, R224): WCR and the LCBASE registers. -/
def srWritable (n : Nat) : Bool := n == 0x000 || (0x018 ≤ n && n ≤ 0x01F)

/-- An address base in C goes with a V address register (R96, R228). -/
def baseOk (a : Opnd) (cb : Option (Fin 64)) : Bool := cb.isNone || a.isV

/-- The types of ATOM and RED (R200). -/
def atomAddTy (t : Ty) : Bool := t.int32or64 || t == .f32 || t == .f64 || t.paired
/-- The types of the MIN and MAX atomics, and of SCADD (R200, R203). -/
def atomMinTy (t : Ty) : Bool := t.int32or64 || t == .f32 || t == .f64

/-- The types of VRED, VSCAN and VSEGRED by operation (R176). -/
def redTy (t : Ty) (op : RedOp) : Bool :=
  t.int32or64 || (t.float4 && (op == .add || op == .min || op == .max))

/-- The operands of a returning atomic. -/
def atomOk (ty : Ty) (d a b : Opnd) (cb : Option (Fin 64)) : Bool :=
  d.isVO ty.wide && a.addrReg && b.mappedOrBroadcast ty.wide && baseOk a cb

/-- The operands of an atomic that returns nothing. -/
def redOk (ty : Ty) (a b : Opnd) (cb : Option (Fin 64)) : Bool :=
  a.addrReg && b.mappedOrBroadcast ty.wide && baseOk a cb

/-- LDX and STX: NREG below 7, a 4-byte or 8-byte type, registers all V or all O (R97, R190). -/
def ldxOk (ty : Ty) (nreg : Fin 8) (d base : Opnd) : Bool :=
  nreg.val != 7 && (ty.bytes == 4 || (ty.bytes == 8 && nreg.val % 2 == 0)) && base.addrReg && d.isVO ty.wide &&
  match d with
  | .v n => n.val + nreg.val + 1 < 320
  | .o n => n.val + nreg.val + 1 < 8
  | .s _ | .c _ | .l _ | .vz | .vtid | .vlane => false

/-- The registers from a V register to the one k further on are V registers. -/
def vSpan (x : Opnd) (k : Nat) : Bool :=
  match x with
  | .v n => n.val + k < 320
  | .s _ | .c _ | .o _ | .l _ | .vz | .vtid | .vlane => false

/-- The number of a V register. -/
def Opnd.vnum : Opnd → Nat
  | .v n => n.val
  | .s _ | .c _ | .o _ | .l _ | .vz | .vtid | .vlane => 0

/-- An increment or an initial value of a counter instruction with its address register (R227). -/
def ctrData (a b : Opnd) : Bool := b.storeData true && (!a.isS || b.isSC)

/-- The destination of CTRADD or CTRRD: S only with an S address (R75, R227). -/
def ctrDst (d a : Opnd) : Bool := d.dst true && (!d.isS || a.isS)

/-- The part of R103 that the word alone decides. -/
def Instr.wf : Instr → Bool
  | .iadd h ty _ d a b | .isub h ty _ d a b | .imul h ty d a b | .imin h ty d a b | .imax h ty d a b | .and h ty d a b
  | .or h ty d a b | .xor h ty d a b | .andn h ty d a b | .shl h ty d a b | .shr h ty d a b | .sar h ty d a b
  | .rotl h ty d a b =>
    h.ok && ty.isInt && a.src ty.wide && b.src ty.wide && dstOk ty.wide d [a, b]
  | .iaddImm h ty _ d a _ | .isubImm h ty _ d a _ | .imulImm h ty d a _ | .andImm h ty d a _ | .orImm h ty d a _
  | .xorImm h ty d a _ | .andnImm h ty d a _ | .shlImm h ty d a _ | .shrImm h ty d a _ | .sarImm h ty d a _
  | .rotlImm h ty d a _ | .iabs h ty _ d a | .ineg h ty _ d a | .not h ty d a | .clz h ty d a | .popc h ty d a
  | .brev h ty d a =>
    h.ok && ty.isInt && a.src ty.wide && dstOk ty.wide d [a]
  | .imulhi h ty d a b | .bfx h ty d a b =>
    h.ok && ty.int32or64 && a.src ty.wide && b.src ty.wide && dstOk ty.wide d [a, b]
  | .imad h ty d a b c | .iclamp h ty d a b c =>
    h.ok && ty.isInt && a.src ty.wide && b.src ty.wide && c.src ty.wide && dstOk ty.wide d [a, b, c]
  | .imadw h ty d a b c =>
    h.ok && (ty == .i32 || ty == .n32) && a.src false && b.src false && c.src true && dstOk true d [a, b, c]
  | .lea h ty _ d a b =>
    h.ok && ty.int32or64 && a.src true && b.src ty.wide && dstOk true d [a, b]
  | .bfxImm h ty d a imm | .bfiImm h ty d a imm =>
    h.ok && ty.int32or64 && a.src ty.wide && dstOk ty.wide d [a] && imm.toNat < 2 ^ 16
  | .bfi h ty d a b c =>
    h.ok && ty.int32or64 && a.src ty.wide && b.src ty.wide && c.src ty.wide && dstOk ty.wide d [a, b, c]
  | .icmp h ty _ _ a b => h.ok && ty.isInt && a.src ty.wide && b.src ty.wide
  | .icmpImm h ty _ _ a _ => h.ok && ty.isInt && a.src ty.wide
  | .sel h ty d a b _ => h.ok && ty.n32or64 && a.src ty.wide && b.src ty.wide && dstOk ty.wide d [a, b]
  | .mov h ty d a => h.ok && ty.n32or64 && a.src ty.wide && dstOk ty.wide d [a]
  | .movi h ty d _ =>
    h.ok && (ty == .n32 || ty == .i32 || ty == .f32 || ty == .n64 || ty == .i64) && d.dst ty.wide
  | .movh h d _ => h.ok && d.dst true
  | .i2i h dty sty _ d a => h.ok && dty.isInt && sty.isInt && a.src sty.wide && dstOk dty.wide d [a]
  | .fadd h ty rm d a b | .fsub h ty rm d a b | .fmul h ty rm d a b =>
    h.ok && ty.arith6 && rsOk ty rm d && a.src ty.wide && b.src ty.wide && dstOk ty.wide d [a, b]
  | .faddImm h ty rm d a _ | .fmulImm h ty rm d a _ =>
    h.ok && ty.arith6 && rsOk ty rm d && a.src ty.wide && dstOk ty.wide d [a]
  | .ffma h ty rm d a b c =>
    h.ok && ty.arith6 && rsOk ty rm d && a.src ty.wide && b.src ty.wide && c.src ty.wide && dstOk ty.wide d [a, b, c]
  | .fmin h ty d a b | .fmax h ty d a b => h.ok && ty.arith6 && a.src ty.wide && b.src ty.wide && dstOk ty.wide d [a, b]
  | .fminImm h ty d a _ | .fmaxImm h ty d a _ => h.ok && ty.arith6 && a.src ty.wide && dstOk ty.wide d [a]
  | .fcmp h ty _ _ a b => h.ok && ty.float4 && a.src ty.wide && b.src ty.wide
  | .fcmpImm h ty _ _ a _ => h.ok && ty.float4 && a.src ty.wide
  | .fclass h ty d a => h.ok && ty.scalarFloat && a.src ty.wide && dstOk false d [a]
  | .frcp h ty d a | .frsq h ty d a | .fsqrt h ty d a => h.ok && ty.float4 && a.src ty.wide && dstOk ty.wide d [a]
  | .fexp2 h ty d a | .flog2 h ty d a | .fsin h ty d a | .fcos h ty d a =>
    h.ok && (ty == .f32 || ty == .f16 || ty == .bf16) && a.src false && dstOk false d [a]
  | .fdiv h ty rm d a b =>
    h.ok && ty.float4 && rm != .rs && a.src ty.wide && b.src ty.wide && dstOk ty.wide d [a, b]
  | .frnd h ty rm d a => h.ok && ty.arith6 && rm != .rs && a.src ty.wide && dstOk ty.wide d [a]
  | .f2f h dty sty _ rm d a =>
    h.ok && dty.scalarFloat && sty.scalarFloat && (rm != .rs || !d.isS) && a.src sty.wide && dstOk dty.wide d [a]
  | .f2i h dty sty _ rm d a =>
    h.ok && dty.isInt && sty.scalarFloat && rm != .rs && a.src sty.wide && dstOk dty.wide d [a]
  | .i2f h dty sty rm d a =>
    h.ok && dty.scalarFloat && sty.isInt && rm != .rs && a.src sty.wide && dstOk dty.wide d [a]
  | .fdot2 h ty rm d a b c =>
    h.ok && ty.paired && rsOk .f32 rm d && a.src false && b.src false && c.src false && dstOk false d [a, b, c]
  | .bcvt h _ _ d a | .bunp h _ d a => h.ok && d.isVO false && a.src false
  | .bdot h _ d a b c => h.ok && d.isVO false && a.src false && b.src false && c.src false
  | .rand h ty d => h.ok && (ty == .n32 || ty == .n64 || ty == .f32) && d.isVO ty.wide
  | .vxor h d a _ => h.ok && d.isVO false && a.isVOL false
  | .vrot h g d a k | .vrev h g d a k | .vbcast h g d a k =>
    h.ok && g.val ≤ 5 && k.val < 2 ^ g.val && d.isVO false && a.isVOL false
  | .vshuf h d a b => h.ok && d.isVO false && a.isVOL false && b.mappedOrBroadcast false
  | .vtrn h g d a =>
    h.ok && 1 ≤ g.val && g.val ≤ 3 && vSpan d (2 ^ g.val - 1) && vSpan a (2 ^ g.val - 1) &&
    (d == a || d.vnum + 2 ^ g.val ≤ a.vnum || a.vnum + 2 ^ g.val ≤ d.vnum)
  | .vcompact h d a _ _ | .vexpand h d a _ => h.ok && d.isVO false && a.isVOL false
  | .vfire h d a => h.ok && d.isVO false && a.isVO false
  | .vmaprd h form d a => h.ok && (if form then d.isS && a.isVO false else d.isVO false && a.isVOL false)
  | .vfirst h ty d a => h.ok && ty.n32or64 && d.isS && a.isVOL ty.wide
  | .vballot h d _ => h.ok && d.isS
  | .vany h _ _ | .vall h _ _ => h.ok
  | .vmatch h ty d a => h.ok && ty.n32or64 && d.isVO false && a.isVOL ty.wide
  | .vactive h d => h.ok && d.isS
  | .vred h ty op d a => h.ok && redTy ty op && d.dst ty.wide && a.isVOL ty.wide
  | .vscan h ty op _ d a | .vsegred h ty op d a _ => h.ok && redTy ty op && d.isVO ty.wide && a.isVOL ty.wide
  | .vsort h ty _ _ d a ci =>
    h.ok && ty.sortKey && d.isVO false && a.isVOL false && (match ci with | none => true | some c => d != .v c)
  | .vtopk h ty _ d a k ci => h.ok && ty.sortKey && d.isVO false && a.isVOL false && k.countArg 1 32 && d != .v ci
  | .vtopkMulti h ty _ m d a k ci =>
    h.ok && ty.sortKey && m.val != 7 && d.isV && d.isVO true && ci.val % 2 == 0 && d != .v ci && vSpan a (m.val + 1) &&
    k.countArg 1 63
  | .vbin h sn d a _ nb => h.ok && sn.val % 2 == 0 && vSpan d 2 && a.isVOL false && nb.countArg 1 63
  | .ld h ty _ _ d base _ => h.ok && base.addrReg && d.dst ty.wide && (!d.isS || base.isS)
  | .ldIdx h ty _ _ d base idx _ _ => h.ok && base.isS && idx.isV && d.isVO ty.wide
  | .st h ty _ _ data base _ => h.ok && base.addrReg && data.storeData ty.wide
  | .stIdx h ty _ _ data base idx _ _ => h.ok && base.isS && idx.isV && data.storeData ty.wide
  | .ldx h ty nreg _ _ d base _ | .stx h ty nreg _ _ d base _ => h.ok && ldxOk ty nreg d base
  | .ldrec h _ _ _ d base _ => h.ok && d.isVO false && base.isS
  | .ststash h ty _ _ data base _ =>
    h.ok && (ty == .n16 || ty == .i16 || ty == .f16 || ty == .bf16 || ty == .n32 || ty == .i32 || ty == .f32) &&
    vSpan data 31 && base.isS
  | .prefetch h _ _ base _ => h.ok && h.sbw.val == 0 && base.addrReg
  | .prefetchIdx h _ _ base idx _ _ => h.ok && h.sbw.val == 0 && base.isS && idx.isV
  | .cflush h _ _ base _ | .cinv h _ _ base _ | .cdemote h _ base _ => h.ok && base.addrReg
  | .atomAdd h ty _ _ d a b cb => h.ok && atomAddTy ty && atomOk ty d a b cb
  | .atomMin h ty _ _ d a b cb | .atomMax h ty _ _ d a b cb => h.ok && atomMinTy ty && atomOk ty d a b cb
  | .atomAnd h ty _ _ d a b cb | .atomOr h ty _ _ d a b cb | .atomXor h ty _ _ d a b cb =>
    h.ok && ty.int32or64 && atomOk ty d a b cb
  | .atomExch h ty _ _ d a b cb => h.ok && ty.n32or64 && atomOk ty d a b cb
  | .atomcas h ty _ _ d a b c => h.ok && ty.n32or64 && atomOk ty d a b none && c.mappedOrBroadcast ty.wide
  | .redAdd h ty _ _ a b cb => h.ok && atomAddTy ty && redOk ty a b cb
  | .redMin h ty _ _ a b cb | .redMax h ty _ _ a b cb => h.ok && atomMinTy ty && redOk ty a b cb
  | .redAnd h ty _ _ a b cb | .redOr h ty _ _ a b cb | .redXor h ty _ _ a b cb => h.ok && ty.int32or64 && redOk ty a b cb
  | .scadd h ty sc a b cb =>
    h.ok && atomMinTy ty && (sc == .dflt || sc == .core || sc == .cluster) && redOk ty a b cb
  | .lcadd h sc a b cb =>
    h.ok && (sc == .dflt || sc == .die || sc == .device || sc == .system) && redOk .f32 a b cb
  | .lcmrg h _ a b cb => h.ok && redOk .n32 a b cb
  | .lcrd h d base _ | .lcrdRaw h d base _ => h.ok && d.isVO false && base.addrReg
  | .lcinit h data base _ => h.ok && data.storeData false && base.addrReg
  | .fence h sc _ => h.ok && sc != .dflt
  | .fenceop h | .drain h _ => h.ok
  | .leaseDecl h gran | .leaseMeas h gran => h.ok && gran.val ≤ 192
  | .ctrinit h _ _ _ a b cb => h.ok && a.addrReg && ctrData a b && baseOk a cb
  | .ctradd h _ _ d a b cb =>
    h.ok && a.addrReg && ctrData a b && baseOk a cb &&
    (match d with | none => true | some x => x != .v 0 && ctrDst x a)
  | .ctraddImm h _ _ d a _ =>
    h.ok && a.addrReg && (match d with | none => true | some x => x != .v 0 && ctrDst x a)
  | .ctrwait h _ _ _ a b => h.ok && a.isS && b.isSC
  | .ctrwaitImm h _ _ _ a _ => h.ok && a.isS
  | .ctrarv h _ _ _ a b => h.ok && a.isS && b.countArg 1 63
  | .ctrrd h _ _ d a cb => h.ok && a.addrReg && ctrDst d a && baseOk a cb
  | .ctrkill h _ _ a cb | .ctrkillFree h _ _ a cb => h.ok && a.addrReg && baseOk a cb
  | .copy h _ _ _ _ a | .gather h _ _ _ _ _ a | .scatter h _ _ _ _ _ a | .unpack h _ _ _ _ _ a => h.ok && a.val ≤ 58
  | .bcopy h _ _ _ _ parts _ a => h.ok && a.val ≤ 58 && 1 ≤ parts.val && parts.val ≤ 96
  | .mma h _ => h.ok
  | .maccrd h ty d a => h.ok && (ty == .f32 || ty == .i32 || ty == .f16 || ty == .bf16) && d.isVO false && a.isSC
  | .maccwr h ty a b => h.ok && (ty == .f32 || ty == .i32 || ty == .f16 || ty == .bf16) && a.isSC && b.storeData false
  | .maccz h first count => h.ok && 1 ≤ count.val && first.val + count.val ≤ 16
  | .bra h _ _ cond _ | .call h _ _ cond _ => h.ok && !(cond.p.val == 7 && cond.neg)
  | .brx h _ a | .ret h _ a => h.ok && (a.isVO true || a.isS)
  | .exit h | .join h | .nop h => h.ok
  | .yield h _ => h.ok
  | .launch h _ _ _ => h.ok
  | .trap h _ | .brk h _ => h.ok
  | .rdsr h d num => h.ok && d.dst true && srAssigned num.val
  | .wrsr h num a => h.ok && srWritable num.val && a.isSC
  | .rdtime h _ => h.ok
  | .clauseStart _ | .clauseFetchResolved _ | .issueWaitEnd _ | .resultWriteback _ | .ownershipGrant .. | .lineFill ..
  | .pageWalk .. | .runaheadStop _ | .pageBatchResolved _ | .recall .. | .mapPage .. | .migrationStart ..
  | .migrationPull .. | .packetSubmit .. | .packetAccept .. | .launchStart .. | .signal .. | .seed .. | .packetForward ..
  | .forwardReceive .. | .forwardAnswer .. | .gangPlace .. | .placementStarve _ | .recordRead _ | .blockFinish _
  | .sliceBoundary .. | .leaseWindowEnd .. | .yieldExpire _ | .counterWake _ | .counterPoll _ | .requestPerform ..
  | .fenceComplete _ | .copyStart .. | .copySourceReadDone _ | .copyComplete _ | .copyFail _ | .copyPageResolved _
  | .mmaStart .. | .mmaBandCommit .. | .mmaRestart .. | .mmaFail .. | .ticketRelease _ | .cone _ | .resumeRetry _
  | .resumeSkip _ | .resumeDiverge _ | .resumeKill _ | .preempt _ | .restore .. | .contextSwitch _ | .eccError _
  | .saggarReset .. | .shelfHeartbeatTimeout _ | .restack | .restackSwitch | .restackOverrun | .routeChange ..
  | .flitReplay .. | .inboundRequest _ | .remote .. | .peerAnswer .. | .rtimeout _ | .flowbroken _ | .flowSkip _
  | .windowRecall _ | .mailboxMessage _ | .flr _ | .ptpLock _ | .throttleStep | .throttleRaise | .thermalThrottle
  | .thermalTrip | .moduleReset | .firmwareUpdate _ | .attestationReport _ | .lcbaseWrite .. | .boundsEntryWrite ..
  | .boundsHitClear .. | .partitionWrite _ | .controlWrite _ | .accessPerformed _ | .fullService => true

/-- The head of an instruction word (R66); an event has none. -/
def Instr.head? : Instr → Option Head
  | .iadd h .. | .iaddImm h .. | .isub h .. | .isubImm h .. | .imul h .. | .imulImm h .. | .imulhi h .. | .imad h ..
  | .imadw h .. | .imin h .. | .imax h .. | .iabs h .. | .ineg h .. | .iclamp h .. | .lea h .. | .and h ..
  | .andImm h .. | .or h .. | .orImm h .. | .xor h .. | .xorImm h .. | .andn h .. | .andnImm h .. | .not h ..
  | .shl h .. | .shlImm h .. | .shr h .. | .shrImm h .. | .sar h .. | .sarImm h .. | .rotl h .. | .rotlImm h ..
  | .bfx h .. | .bfxImm h .. | .bfi h .. | .bfiImm h .. | .clz h .. | .popc h .. | .brev h .. | .icmp h ..
  | .icmpImm h .. | .sel h .. | .mov h .. | .movi h .. | .movh h .. | .i2i h .. | .fadd h .. | .faddImm h ..
  | .fsub h .. | .fmul h .. | .fmulImm h .. | .ffma h .. | .fmin h .. | .fminImm h .. | .fmax h .. | .fmaxImm h ..
  | .fcmp h .. | .fcmpImm h .. | .fclass h .. | .frcp h .. | .frsq h .. | .fsqrt h .. | .fexp2 h .. | .flog2 h ..
  | .fsin h .. | .fcos h .. | .fdiv h .. | .frnd h .. | .f2f h .. | .f2i h .. | .i2f h .. | .fdot2 h .. | .bcvt h ..
  | .bdot h .. | .bunp h .. | .rand h .. | .vxor h .. | .vrot h .. | .vrev h .. | .vbcast h .. | .vshuf h ..
  | .vtrn h .. | .vcompact h .. | .vexpand h .. | .vfire h .. | .vmaprd h .. | .vfirst h .. | .vballot h ..
  | .vany h .. | .vall h .. | .vmatch h .. | .vactive h .. | .vred h .. | .vscan h .. | .vsegred h .. | .vsort h ..
  | .vtopk h .. | .vtopkMulti h .. | .vbin h .. | .ld h .. | .ldIdx h .. | .st h .. | .stIdx h .. | .ldx h ..
  | .stx h .. | .ldrec h .. | .ststash h .. | .prefetch h .. | .prefetchIdx h .. | .cflush h .. | .cinv h ..
  | .cdemote h .. | .atomAdd h .. | .atomMin h .. | .atomMax h .. | .atomAnd h .. | .atomOr h .. | .atomXor h ..
  | .atomExch h .. | .atomcas h .. | .redAdd h .. | .redMin h .. | .redMax h .. | .redAnd h .. | .redOr h ..
  | .redXor h .. | .scadd h .. | .lcadd h .. | .lcrd h .. | .lcrdRaw h .. | .lcmrg h .. | .lcinit h .. | .fence h ..
  | .fenceop h | .drain h .. | .leaseDecl h .. | .leaseMeas h .. | .ctrinit h .. | .ctradd h .. | .ctraddImm h ..
  | .ctrwait h .. | .ctrwaitImm h .. | .ctrarv h .. | .ctrrd h .. | .ctrkill h .. | .ctrkillFree h .. | .copy h ..
  | .bcopy h .. | .gather h .. | .scatter h .. | .unpack h .. | .mma h .. | .maccrd h .. | .maccwr h .. | .maccz h ..
  | .bra h .. | .call h .. | .brx h .. | .ret h .. | .exit h | .join h | .yield h .. | .nop h | .launch h ..
  | .trap h .. | .brk h .. | .rdsr h .. | .wrsr h .. | .rdtime h .. => some h
  | .clauseStart .. | .clauseFetchResolved .. | .issueWaitEnd .. | .resultWriteback .. | .ownershipGrant ..
  | .lineFill .. | .pageWalk .. | .runaheadStop .. | .pageBatchResolved .. | .recall .. | .mapPage ..
  | .migrationStart .. | .migrationPull .. | .packetSubmit .. | .packetAccept .. | .launchStart .. | .signal ..
  | .seed .. | .packetForward .. | .forwardReceive .. | .forwardAnswer .. | .gangPlace .. | .placementStarve ..
  | .recordRead .. | .blockFinish .. | .sliceBoundary .. | .leaseWindowEnd .. | .yieldExpire .. | .counterWake ..
  | .counterPoll .. | .requestPerform .. | .fenceComplete .. | .copyStart .. | .copySourceReadDone ..
  | .copyComplete .. | .copyFail .. | .copyPageResolved .. | .mmaStart .. | .mmaBandCommit .. | .mmaRestart ..
  | .mmaFail .. | .ticketRelease .. | .cone .. | .resumeRetry .. | .resumeSkip .. | .resumeDiverge ..
  | .resumeKill .. | .preempt .. | .restore .. | .contextSwitch .. | .eccError .. | .saggarReset ..
  | .shelfHeartbeatTimeout .. | .restack | .restackSwitch | .restackOverrun | .routeChange .. | .flitReplay ..
  | .inboundRequest .. | .remote .. | .peerAnswer .. | .rtimeout .. | .flowbroken .. | .flowSkip ..
  | .windowRecall .. | .mailboxMessage .. | .flr .. | .ptpLock .. | .throttleStep | .throttleRaise | .thermalThrottle
  | .thermalTrip | .moduleReset | .firmwareUpdate .. | .attestationReport .. | .lcbaseWrite .. | .boundsEntryWrite ..
  | .boundsHitClear .. | .partitionWrite .. | .controlWrite .. | .accessPerformed .. | .fullService => none

/-- The rows of the table that are instruction words, the rest being events. -/
def Instr.isWord (i : Instr) : Bool := i.head?.isSome

end Sys2Proof
end

