-- ==== Sys2Proof/Machine/Float.lean ====
section
/-! DEFINITION. Floating-point numbers (chapter 05): the formats of R106 to R108, exact values as a sign, a magnitude and a power of
two, and the one rounding of R113 to R116. A finite value is never approximated before it is rounded. -/
namespace Sys2Proof.Machine

/-- A floating-point format (R106): fraction bits, width, bias, and whether the all-ones exponent is a normal one (E4M3, R107). -/
structure FFmt where
  f : Nat
  w : Nat
  bias : Nat
  e4m3 : Bool
deriving DecidableEq, Repr

/-- R106. A paired type has the format of its halves (R112); an integer type has none, and reads as .F32. -/
def fmtOf : Ty → FFmt
  | .f64 => ⟨52, 64, 1023, false⟩
  | .f16 | .f16x2 => ⟨10, 16, 15, false⟩
  | .bf16 | .bf16x2 => ⟨7, 16, 127, false⟩
  | .e4m3 => ⟨3, 8, 7, true⟩
  | .e5m2 => ⟨2, 8, 15, false⟩
  | .f32 | .n8 | .n16 | .n32 | .n64 | .i8 | .i16 | .i32 | .i64 => ⟨23, 32, 127, false⟩

namespace FFmt

/-- The encoding with exponent field e and fraction F, sign 0. -/
def enc (k : FFmt) (e frac : Nat) : Nat := e * 2 ^ k.f + frac

/-- The all-ones exponent field. -/
def emax (k : FFmt) : Nat := 2 ^ (k.w - 1 - k.f) - 1

/-- +infinity (R108); E4M3 has none. -/
def inf (k : FFmt) : Nat := k.enc k.emax 0

/-- The canonical NaN (R108). -/
def nan (k : FFmt) : Nat := if k.e4m3 then 0x7F else k.enc k.emax (2 ^ (k.f - 1))

/-- The largest finite encoding, sign 0 (R106, R107). -/
def maxFin (k : FFmt) : Nat := if k.e4m3 then 0x7E else k.inf - 1

/-- The sign bit. -/
def signBit (k : FFmt) : Nat := 2 ^ (k.w - 1)

/-- The power of two of the last fraction bit of a subnormal (R107). -/
def qmin (k : FFmt) : Int := 1 - (k.bias : Int) - (k.f : Int)

/-- The power of two of the last fraction bit in the largest binade (R115). -/
def qmax (k : FFmt) : Int := ((if k.e4m3 then k.emax else k.emax - 1 : Nat) : Int) - (k.bias : Int) - (k.f : Int)

end FFmt

/-- A value: NaN, an infinity, or a finite number, (-1)^neg times mag times 2^exp, a little more in magnitude when sticky (by less
than 2^exp). Zeros have mag = 0. -/
inductive FVal where
  | nan
  | inf (neg : Bool)
  | fin (neg : Bool) (mag : Nat) (exp : Int) (sticky : Bool)
deriving DecidableEq, Repr

/-- The value an encoding has (R107). -/
def fdec (ty : Ty) (bits : Nat) : FVal :=
  let k := fmtOf ty
  let x := bits % 2 ^ k.w
  let neg := x / k.signBit == 1
  let e := x % k.signBit / 2 ^ k.f
  let frac := x % 2 ^ k.f
  if k.e4m3 then
    if x % k.signBit = 0x7F then .nan
    else if e = 0 then .fin neg frac k.qmin false
    else .fin neg (2 ^ k.f + frac) (k.qmin + e - 1) false
  else if e = k.emax then (if frac = 0 then .inf neg else .nan)
  else if e = 0 then .fin neg frac k.qmin false
  else .fin neg (2 ^ k.f + frac) (k.qmin + e - 1) false

/-- The rounding and saturation of one result: the mode, the 32-bit draw of RS (R115), and SAT (R116). -/
structure Rnd where
  rm : Rm := .rn
  draw : Nat := 0
  sat : Bool := false
deriving DecidableEq, Repr

/-- What a magnitude above the largest finite value becomes (R116). -/
def overflow (k : FFmt) (r : Rnd) (neg : Bool) : Nat :=
  let s := if neg then k.signBit else 0
  let big := if k.e4m3 then k.nan else k.inf + s
  if r.sat then k.maxFin + s
  else match r.rm with
    | .rn | .rs => big
    | .rz => k.maxFin + s
    | .rd => if neg then big else k.maxFin
    | .ru => if neg then k.maxFin + s else big

/-- The upper neighbour in magnitude is chosen (R113, R115): q is the lower one in units of 2^d of the remainder rem. -/
def roundsUp (r : Rnd) (neg : Bool) (q rem d : Nat) (sticky : Bool) : Bool :=
  let inexact := rem != 0 || sticky
  match r.rm with
  | .rn => 2 * rem > 2 ^ d || (2 * rem == 2 ^ d && d != 0 && (sticky || q % 2 == 1))
  | .rz => false
  | .rd => neg && inexact
  | .ru => !neg && inexact
  | .rs => rem * 2 ^ 32 > r.draw * 2 ^ d

/-- Encode a value in a format, rounding once (R113 to R116). A finite value keeps its sign where it rounds to zero (R111). -/
def fenc (ty : Ty) (r : Rnd) (v : FVal) : Nat :=
  let k := fmtOf ty
  match v with
  | .nan => k.nan
  | .inf neg =>
    let s := if neg then k.signBit else 0
    if r.sat then k.maxFin + s else if k.e4m3 then k.nan else k.inf + s
  | .fin neg m0 e0 sticky =>
    let s := if neg then k.signBit else 0
    if m0 = 0 && !sticky then s
    else
      -- two guard bits below a sticky magnitude, so that its remainder is never a false tie
      let m := if sticky then m0 * 4 else m0
      let e := if sticky then e0 - 2 else e0
      let top : Int := (Nat.log2 m : Int) + e
      let q := max k.qmin (min (top - k.f) k.qmax)
      let (n, rem, d) := if q ≤ e then (m <<< (e - q).toNat, 0, 0)
        else (m >>> (q - e).toNat, m % 2 ^ (q - e).toNat, (q - e).toNat)
      let n := if roundsUp r neg n rem d sticky then n + 1 else n
      let x := (q - k.qmin).toNat * 2 ^ k.f + n
      if x > k.maxFin then overflow k r neg else x + s

/-! ### Exact arithmetic -/

/-- A finite exact value as a signed magnitude over 2^e. -/
def signed (neg : Bool) (m : Nat) : Int := if neg then -(m : Int) else (m : Int)

/-- The exact sum of finite values, each a sign, a magnitude and an exponent; a zero sum has the sign of R111: that of its terms where
all have it, else + (− under RD). -/
def fsum (rm : Rm) (xs : List (Bool × Nat × Int)) : FVal :=
  let e := xs.foldl (fun e x => if x.2.1 = 0 then e else min e x.2.2) (xs.foldl (fun e x => max e x.2.2) 0)
  let t := xs.foldl (fun a x => if x.2.1 = 0 then a else a + signed x.1 (x.2.1 <<< (x.2.2 - e).toNat)) 0
  if t = 0 then
    let neg := match xs with
      | [] => false
      | x :: _ => if xs.all (fun y => y.2.1 == 0 && y.1 == x.1) then x.1 else rm == .rd
    .fin neg 0 0 false
  else .fin (t < 0) t.natAbs e false

/-- The sum of values (R109, R111): NaN for a NaN or infinities of both signs, else an infinity, else the exact sum. -/
def faddv (rm : Rm) (xs : List FVal) : FVal :=
  let isNan := xs.any (fun x => x == .nan)
  let pos := xs.any (fun x => x == .inf false)
  let neg := xs.any (fun x => x == .inf true)
  if isNan || (pos && neg) then .nan
  else if pos then .inf false
  else if neg then .inf true
  else fsum rm (xs.filterMap (fun x => match x with
    | .fin n m e _ => some (n, m, e)
    | .nan | .inf _ => none))

/-- The exact product (R120): zero times infinity is NaN. -/
def fmulv : FVal → FVal → FVal
  | .nan, _ => .nan
  | .inf _, .nan => .nan
  | .fin _ _ _ _, .nan => .nan
  | .inf a, .inf b => .inf (a != b)
  | .inf a, .fin b m _ _ => if m = 0 then .nan else .inf (a != b)
  | .fin a m _ _, .inf b => if m = 0 then .nan else .inf (a != b)
  | .fin a m e _, .fin b n g _ => .fin (a != b) (m * n) (e + g) false

/-- Change the sign of a value. -/
def fnegv : FVal → FVal
  | .nan => .nan
  | .inf n => .inf !n
  | .fin n m e s => .fin (!n) m e s

/-- The exact quotient, cut with a sticky rest (R120). -/
def fdivv : FVal → FVal → FVal
  | .nan, _ => .nan
  | .inf _, .nan => .nan
  | .fin _ _ _ _, .nan => .nan
  | .inf _, .inf _ => .nan
  | .inf a, .fin b _ _ _ => .inf (a != b)
  | .fin a _ _ _, .inf b => .fin (a != b) 0 0 false
  | .fin a m e _, .fin b n g _ =>
    if n = 0 then (if m = 0 then .nan else .inf (a != b))
    else if m = 0 then .fin (a != b) 0 0 false
    else
      let p := m <<< 192
      .fin (a != b) (p / n) (e - g - 192) (p % n != 0)

/-- The largest r below 2^n with r * r at most x: an integer square root, bit by bit. -/
def isqrt : Nat → Nat → Nat → Nat
  | 0, _, r => r
  | n + 1, x, r => let r' := r + 2 ^ n; isqrt n x (if r' * r' ≤ x then r' else r)

/-- The square root of R120. -/
def fsqrtv : FVal → FVal
  | .nan => .nan
  | .inf n => if n then .nan else .inf false
  | .fin n m e _ =>
    if m = 0 then .fin n 0 0 false
    else if n then .nan
    else
      let e' := if e % 2 = 0 then e - 160 else e - 161
      let x := m <<< (e - e').toNat
      let r := isqrt 128 x 0
      .fin false r (e' / 2) (r * r != x)

/-- The reciprocal square root of R120. -/
def frsqv : FVal → FVal
  | .nan => .nan
  | .inf n => if n then .nan else .fin false 0 0 false
  | .fin n m e _ =>
    if m = 0 then .inf n
    else if n then .nan
    else
      let m' := if e % 2 = 0 then m else m * 2
      let e' := if e % 2 = 0 then e else e - 1
      let y := (1 <<< 256) / m'
      let r := isqrt 129 y 0
      .fin false r (-128 - e' / 2) (r * r * m' != 1 <<< 256)

/-- Two values compared as real numbers; `none` where either is NaN (R111). -/
def fcmpv (a b : FVal) : Option Ordering :=
  match a, b with
  | .nan, _ => none
  | .inf _, .nan => none
  | .fin _ _ _ _, .nan => none
  | .inf n, .inf m => some (if n == m then .eq else if n then .lt else .gt)
  | .inf n, .fin _ _ _ _ => some (if n then .lt else .gt)
  | .fin _ _ _ _, .inf n => some (if n then .gt else .lt)
  | .fin a m e _, .fin b n g _ =>
    let q := if m = 0 then g else if n = 0 then e else min e g
    let x := if m = 0 then 0 else signed a (m <<< (e - q).toNat)
    let y := if n = 0 then 0 else signed b (n <<< (g - q).toNat)
    some (compare x y)

/-- The sign of a value that is a zero. -/
def fzeroSign : FVal → Option Bool
  | .fin n m _ _ => if m = 0 then some n else none
  | .nan | .inf _ => none

/-- The first of two non-NaN values is below the second, -0 below +0 (the order of FMIN and FMAX, R111). -/
def fltZ (a b : FVal) : Bool :=
  match fcmpv a b with
  | some .lt => true
  | some .eq => fzeroSign a == some true && fzeroSign b == some false
  | some .gt | none => false

/-- A value rounded to an integer under RMODE (R118, R151): its sign and magnitude. -/
def froundInt (r : Rnd) (neg : Bool) (m : Nat) (e : Int) : Nat :=
  if 0 ≤ e then m <<< e.toNat
  else
    let d := (-e).toNat
    let q := m >>> d
    if roundsUp r neg q (m % 2 ^ d) d false then q + 1 else q

/-- An integer as a value. -/
def fofInt (z : Int) : FVal := .fin (z < 0) z.natAbs 0 false

/-! ### The operations on encodings -/

/-- FADD and FSUB (R146). -/
def fadd (ty : Ty) (r : Rnd) (a b : Nat) : Nat := fenc ty r (faddv r.rm [fdec ty a, fdec ty b])
/-- FSUB (R146). -/
def fsub (ty : Ty) (r : Rnd) (a b : Nat) : Nat := fenc ty r (faddv r.rm [fdec ty a, fnegv (fdec ty b)])
/-- FMUL (R146). -/
def fmul (ty : Ty) (r : Rnd) (a b : Nat) : Nat := fenc ty r (fmulv (fdec ty a) (fdec ty b))
/-- FFMA (R146, R120). -/
def ffma (ty : Ty) (r : Rnd) (a b c : Nat) : Nat :=
  fenc ty r (faddv r.rm [fmulv (fdec ty a) (fdec ty b), fdec ty c])
/-- FDIV (R120, R150). -/
def fdiv (ty : Ty) (r : Rnd) (a b : Nat) : Nat := fenc ty r (fdivv (fdec ty a) (fdec ty b))

/-- FMIN (R147): the bits of the operand it returns are kept. -/
def fmin (ty : Ty) (a b : Nat) : Nat :=
  let k := fmtOf ty
  let x := fdec ty a
  let y := fdec ty b
  if x == .nan && y == .nan then k.nan
  else if x == .nan then b % 2 ^ k.w
  else if y == .nan then a % 2 ^ k.w
  else if fltZ y x then b % 2 ^ k.w else a % 2 ^ k.w

/-- FMAX (R147). -/
def fmax (ty : Ty) (a b : Nat) : Nat :=
  let k := fmtOf ty
  let x := fdec ty a
  let y := fdec ty b
  if x == .nan && y == .nan then k.nan
  else if x == .nan then b % 2 ^ k.w
  else if y == .nan then a % 2 ^ k.w
  else if fltZ x y then b % 2 ^ k.w else a % 2 ^ k.w

/-- FCLASS (R149): the bit number of the class. -/
def fclass (ty : Ty) (a : Nat) : Nat :=
  let k := fmtOf ty
  let neg := a % 2 ^ k.w / k.signBit == 1
  let sub := a % k.signBit < 2 ^ k.f
  match fdec ty a with
  | .nan => if neg then 9 else 8
  | .inf n => if n then 0 else 7
  | .fin n m _ _ =>
    if m = 0 then (if n then 3 else 4)
    else if n then (if sub then 2 else 1)
    else (if sub then 5 else 6)

/-- FRND (R151): a value that rounds to zero keeps its sign. -/
def frnd (ty : Ty) (rm : Rm) (a : Nat) : Nat :=
  match fdec ty a with
  | .nan => (fmtOf ty).nan
  | .inf n => fenc ty {} (.inf n)
  | .fin n m e _ => fenc ty {} (.fin n (froundInt { rm := rm } n m e) 0 false)

/-- F2F (R117, R115, R116). -/
def f2f (dty sty : Ty) (r : Rnd) (a : Nat) : Nat := fenc dty r (fdec sty a)

/-- F2I (R118): the integer before it is written at its width. -/
def f2i (lo hi : Int) (sty : Ty) (rm : Rm) (sat : Bool) (a : Nat) : Int :=
  match fdec sty a with
  | .nan => 0
  | .inf n => if sat then (if n then lo else hi) else 0
  | .fin n m e _ =>
    let z := signed n (froundInt { rm := rm } n m e)
    if lo ≤ z && z ≤ hi then z
    else if sat then (if z < lo then lo else hi)
    else z

/-- FDOT2 (R153). -/
def fdot2 (ty : Ty) (r : Rnd) (a b c : Nat) : Nat :=
  let h := fun (x : Nat) (i : Nat) => fdec ty (x / 2 ^ (16 * i))
  fenc .f32 r (faddv r.rm [fmulv (h a 0) (h b 0), fmulv (h a 1) (h b 1), fdec .f32 c])

/-- A short constant in a floating-point position (R75): its exact value, nearest even for E4M3 and E5M2. -/
def fconst (ty : Ty) (k : Nat) : Nat :=
  let x := fenc ty {} (fofInt k)
  if ty.paired then x + 2 ^ 16 * x else x

end Sys2Proof.Machine
end

