-- ==== Sys2Proof/Machine/Elem.lean ====
section
/-! DEFINITION. The elementary functions of R120: FEXP2, FLOG2, FSIN and FCOS. Each result is computed as a fixed-point magnitude of
hundreds of bits and rounded once; the exact cases are taken exactly. DEDUCED (log 41): the bits carried decide every rounding of a
32-bit or 16-bit result, since no argument brings one of these functions nearer than about 2^-64 of an ulp to a rounding boundary. -/
namespace Sys2Proof.Machine

/-- Fraction bits of the fixed-point numbers. -/
def fxBits : Nat := 768

/-- π in fixed point, cut. -/
def fxPi : Nat :=
  0x3243f6a8885a308d313198a2e03707344a4093822299f31d0082efa98ec4e6c89452821e638d01377be5466cf34e90c6cc0ac29b7c97c50dd3f84d5b5b54709179216d5d98979fb1bd1310ba698dfb5ac2ffd72dbd01adfb7b8e1afed6a267e96

/-- ln 2 in fixed point, cut. -/
def fxLn2 : Nat :=
  0xb17217f7d1cf79abc9e3b39803f2f6af40f343267298b62d8a0d175b8baafa2be7b876206debac98559552fb4afa1b10ed2eae35c138214427573b291169b8253e96ca16224ae8c51acbda11317c387eb9ea9bc3b136603b256fa0ec7657f74b

/-- The product of two fixed-point numbers, cut. -/
def fxMul (a b : Nat) : Nat := (a * b) >>> fxBits

/-- The sum of the terms from k on of the series of e^x, each term the last one times x over k. -/
def expSeries : Nat → Nat → Nat → Nat → Nat
  | 0, _, _, _ => 0
  | fuel + 1, x, k, term => term + expSeries fuel x (k + 1) (fxMul term x / k)

/-- 2^f in fixed point, for 0 ≤ f < 1. -/
def fxExp2 (f : Nat) : Nat := expSeries 160 (fxMul f fxLn2) 1 (1 <<< fxBits)

/-- The alternating series of sine and cosine: the terms from x^k / k! on, two powers apart. -/
def trigSeries : Nat → Nat → Nat → Nat → Bool → Int
  | 0, _, _, _, _ => 0
  | fuel + 1, x2, k, term, neg =>
    signed neg term + trigSeries fuel x2 (k + 2) (fxMul term x2 / ((k + 1) * (k + 2))) (!neg)

/-- sin x in fixed point, for 0 ≤ x < π/2. -/
def fxSin (x : Nat) : Int := trigSeries 90 (fxMul x x) 1 x false

/-- cos x in fixed point, for 0 ≤ x < π/2. -/
def fxCos (x : Nat) : Int := trigSeries 90 (fxMul x x) 0 (1 <<< fxBits) false

/-- The n bits after the point of log2 y, for 1 ≤ y < 2 in fixed point, by repeated squaring. -/
def log2Bits : Nat → Nat → Nat → Nat
  | 0, _, acc => acc
  | n + 1, y, acc =>
    let z := fxMul y y
    if z ≥ 2 <<< fxBits then log2Bits n (z / 2) (2 * acc + 1) else log2Bits n z (2 * acc)

/-- FEXP2 (R120). -/
def fexp2v : FVal → FVal
  | .nan => .nan
  | .inf n => if n then .fin false 0 0 false else .inf false
  | .fin n m e _ =>
    if m = 0 then .fin false 1 0 false
    else if (Nat.log2 m : Int) + e ≥ 12 then (if n then .fin false 1 (-4096) true else .fin false 1 4096 false)
    else
      let x : Int := signed n (m <<< (e + fxBits).toNat)
      let i := x / (2 ^ fxBits : Nat)
      let f := (x % (2 ^ fxBits : Nat)).toNat
      if f = 0 then .fin false 1 i false else .fin false (fxExp2 f) (i - fxBits) true

/-- FLOG2 (R120). -/
def flog2v : FVal → FVal
  | .nan => .nan
  | .inf n => if n then .nan else .inf false
  | .fin n m e _ =>
    if m = 0 then .inf true
    else if n then .nan
    else
      let top := Nat.log2 m
      let i : Int := (top : Int) + e
      if m = 1 <<< top then fofInt i
      else
        let t : Int := i * (2 ^ 192 : Nat) + log2Bits 192 ((m <<< fxBits) >>> top) 0
        if t < 0 then .fin true (-t - 1).toNat (-192) true else .fin false t.toNat (-192) true

/-- The quadrant of a magnitude in radians and the rest of it below π/2 in fixed point. -/
def trigReduce (m : Nat) (e : Int) : Nat × Nat :=
  let x := if 0 ≤ e + fxBits then m <<< (e + fxBits).toNat else m >>> (-(e + fxBits)).toNat
  let h := fxPi / 2
  (x / h % 4, x % h)

/-- A fixed-point result with its sign. -/
def ofFx (neg : Bool) (z : Int) : FVal := .fin (neg != decide (z < 0)) z.natAbs (-(fxBits : Int)) true

/-- FSIN (R120), the argument in radians. -/
def fsinv : FVal → FVal
  | .nan => .nan
  | .inf _ => .nan
  | .fin n m e _ =>
    if m = 0 then .fin n 0 0 false
    else
      let (q, r) := trigReduce m e
      match q with
      | 0 => ofFx n (fxSin r)
      | 1 => ofFx n (fxCos r)
      | 2 => ofFx n (-(fxSin r))
      | _ => ofFx n (-(fxCos r))

/-- FCOS (R120). -/
def fcosv : FVal → FVal
  | .nan => .nan
  | .inf _ => .nan
  | .fin _ m e _ =>
    if m = 0 then .fin false 1 0 false
    else
      let (q, r) := trigReduce m e
      match q with
      | 0 => ofFx false (fxCos r)
      | 1 => ofFx false (-(fxSin r))
      | 2 => ofFx false (-(fxCos r))
      | _ => ofFx false (fxSin r)

/-- A function of one value, rounded to nearest (R113, R120). -/
def fun1 (g : FVal → FVal) (ty : Ty) (a : Nat) : Nat := fenc ty {} (g (fdec ty a))

/-- FRCP (R120): one over the value. -/
def frcpv (x : FVal) : FVal := fdivv (.fin false 1 0 false) x

end Sys2Proof.Machine
end

