-- ==== Sys2Proof/Config.lean ====
section
/-! DEFINITION. The values the spec leaves open, as opaque constants. None has a body, so nothing in a proof can say what
one is; a statement that mentions one holds whatever it is. -/
namespace Sys2Proof.Config

/-- DESIGN CHOICE (log 2). The free values: every value the manual calls undefined (R8, R84, R270, R282, R300, R431) is
`freeBits` applied to a fresh value of the state's counter `freeCtr`. -/
opaque freeBits : Nat → BitVec 64

/-- UNVERIFIED (log 40). The XMSS-SHAKE256_20_256 verification of a firmware image (R441): the scheme stands in NIST SP 800-208,
not in this manual. It answers whether the signature on the image's bytes is good under the fused root key. -/
opaque xmssVerify : List Byte → List Byte → Bool

/-- UNVERIFIED (log 40). The XMSS signature the attestation key makes over a report with a one-time index (R442). -/
opaque xmssSign : Nat → List Byte → List Byte

/-- DESIGN CHOICE (log 46). The die whose stacks hold a physical frame of 64 KiB: the manual places the frames of a saggar in the stacks of
its dies (R296), and gives no map of physical addresses to dies. -/
opaque frameDie : Nat → Fin 4

/-- DESIGN CHOICE (log 78). The first-stage firmware that the flash holds before any update (R439, R441), which the manual does not give. -/
opaque factoryBody : List Byte

/-- DESIGN CHOICE (log 78). The later stages of that firmware (R439). -/
opaque factoryStages : List (List Byte)

/-- DESIGN CHOICE (log 78). The signature of that firmware (R441). -/
opaque factorySig : List Byte

/-- DESIGN CHOICE (log 78). The security version of that firmware (R441). -/
opaque factoryVersion : BitVec 16

/-- DESIGN CHOICE (log 49). The serial number of the module (R442), which the manual does not give. -/
opaque serial : List Byte

end Sys2Proof.Config
end

