-- ==== Sys2Proof/Decode.lean ====
section
/-! DEFINITION. Instruction words: the encoder, written from the formats of R66 to R71 and the opcode tables of R91 to R102, and
the decoder. A word is read by field position, and is an instruction when the term read is well formed and encodes to the word
itself: so every reserved bit, every reserved code and every unused field is checked in one place (R69, R103). -/
namespace Sys2Proof

/-! ### Codes of the fields -/

/-- R70. -/
def Ty.code : Ty → Nat
  | .n8 => 0 | .n16 => 1 | .n32 => 2 | .n64 => 3 | .i8 => 4 | .i16 => 5 | .i32 => 6 | .i64 => 7
  | .f64 => 8 | .f32 => 9 | .f16 => 10 | .bf16 => 11 | .f16x2 => 12 | .bf16x2 => 13 | .e4m3 => 14 | .e5m2 => 15

/-- R70. -/
def Ty.ofCode : Nat → Ty
  | 0 => .n8 | 1 => .n16 | 2 => .n32 | 3 => .n64 | 4 => .i8 | 5 => .i16 | 6 => .i32 | 7 => .i64
  | 8 => .f64 | 9 => .f32 | 10 => .f16 | 11 => .bf16 | 12 => .f16x2 | 13 => .bf16x2 | 14 => .e4m3 | _ => .e5m2

/-- R101. -/
def Rm.code : Rm → Nat
  | .rn => 0 | .rz => 1 | .rd => 2 | .ru => 3 | .rs => 4

/-- R101. -/
def Rm.ofCode : Nat → Rm
  | 0 => .rn | 1 => .rz | 2 => .rd | 3 => .ru | _ => .rs

/-- R100. -/
def ICond.code : ICond → Nat
  | .eq => 0 | .ne => 1 | .lt => 2 | .le => 3 | .gt => 4 | .ge => 5

/-- R100. -/
def ICond.ofCode : Nat → ICond
  | 0 => .eq | 1 => .ne | 2 => .lt | 3 => .le | 4 => .gt | _ => .ge

/-- R100. -/
def FCond.code : FCond → Nat
  | .eq => 0 | .ne => 1 | .lt => 2 | .le => 3 | .gt => 4 | .ge => 5 | .un => 6 | .ord => 7

/-- R100. -/
def FCond.ofCode : Nat → FCond
  | 0 => .eq | 1 => .ne | 2 => .lt | 3 => .le | 4 => .gt | 5 => .ge | 6 => .un | _ => .ord

/-- R100. -/
def RedOp.code : RedOp → Nat
  | .add => 0 | .min => 1 | .max => 2 | .and => 3 | .or => 4 | .xor => 5

/-- R100. -/
def RedOp.ofCode : Nat → RedOp
  | 0 => .add | 1 => .min | 2 => .max | 3 => .and | 4 => .or | _ => .xor

/-- R71. -/
def Scope.code : Scope → Nat
  | .dflt => 0 | .warp => 1 | .core => 2 | .cluster => 3 | .die => 4 | .device => 5 | .system => 6

/-- R71. -/
def Scope.ofCode : Nat → Scope
  | 0 => .dflt | 1 => .warp | 2 => .core | 3 => .cluster | 4 => .die | 5 => .device | _ => .system

/-- R71. -/
def Hint.code : Hint → Nat
  | .normal => 0 | .evictFirst => 1 | .evictLast => 2

/-- R71. -/
def Hint.ofCode : Nat → Hint
  | 0 => .normal | 1 => .evictFirst | _ => .evictLast

/-- R101. -/
def Sem.code : Sem → Nat
  | .dflt => 0 | .acq => 1 | .rel => 2 | .ar => 3

/-- R101. -/
def Sem.ofCode : Nat → Sem
  | 0 => .dflt | 1 => .acq | 2 => .rel | _ => .ar

/-- R101. -/
def FenceMode.code : FenceMode → Nat
  | .acq => 1 | .rel => 2 | .ar => 3

/-- R101. -/
def FenceMode.ofCode : Nat → FenceMode
  | 1 => .acq | 2 => .rel | _ => .ar

/-- R101. -/
def Bfmt.code : Bfmt → Nat
  | .bfp8 => 0 | .bfp6 => 1 | .bfp4 => 2

/-- R101. -/
def Bfmt.ofCode : Nat → Bfmt
  | 0 => .bfp8 | 1 => .bfp6 | _ => .bfp4

/-- R239. -/
def IdxTy.code : IdxTy → Nat
  | .n32 => 0 | .i32 => 1 | .n64 => 2

/-- R239. -/
def IdxTy.ofCode : Nat → IdxTy
  | 0 => .n32 | 1 => .i32 | _ => .n64

/-- R213. -/
def DrainMem.code : DrainMem → Nat
  | .scr => 0 | .clu => 1 | .glb => 2 | .peer => 3 | .all => 4

/-- R213. -/
def DrainMem.ofCode : Nat → DrainMem
  | 0 => .scr | 1 => .clu | 2 => .glb | 3 => .peer | _ => .all

/-- R216. -/
def BrKind.code : BrKind → Nat
  | .each => 0 | .any => 1 | .all => 2

/-- R216. -/
def BrKind.ofCode : Nat → BrKind
  | 0 => .each | 1 => .any | _ => .all

/-- The 9-bit operand specifiers of R74. -/
def Opnd.code : Opnd → Nat
  | .v n => n.val
  | .s n => 0x140 + n.val
  | .c k => 0x180 + k.val
  | .o n => 0x1C0 + n.val
  | .l n => 0x1E0 + n.val
  | .vz => 0x1F0
  | .vtid => 0x1F1
  | .vlane => 0x1F2

/-- R74. A reserved specifier is read as some operand, whose own specifier then differs from it. -/
def Opnd.ofCode (x : Nat) : Opnd :=
  if x < 0x140 then .v (Fin.ofNat 320 x)
  else if x < 0x180 then .s (Fin.ofNat 64 (x - 0x140))
  else if x < 0x1C0 then .c (Fin.ofNat 64 (x - 0x180))
  else if x < 0x1E0 then .o (Fin.ofNat 8 (x - 0x1C0))
  else if x < 0x1F0 then .l (Fin.ofNat 4 (x - 0x1E0))
  else if x = 0x1F0 then .vz
  else if x = 0x1F1 then .vtid
  else .vlane

/-- A predicate spec in an operand field (R143, R164). -/
def PredSpec.code (p : PredSpec) : Nat := p.p.val + 8 * p.neg.toNat

/-- R143, R164. -/
def PredSpec.ofCode (x : Nat) : PredSpec := ⟨Fin.ofNat 8 x, x / 8 % 2 == 1⟩

/-- An S register that a field may name, 0x000 for none (R96, R170, R228). -/
def optS : Option (Fin 64) → Nat
  | none => 0
  | some s => 0x140 + s.val

/-- The S register a specifier names. -/
def sNum (x : Nat) : Fin 64 := Fin.ofNat 64 (x - 0x140)

/-- R96, R170, R228. -/
def optSNum (x : Nat) : Option (Fin 64) := if x = 0 then none else some (sNum x)

/-- The index register of VSORT in C, 0x000 for none (R177). -/
def optV : Option (Fin 320) → Nat
  | none => 0
  | some v => v.val

/-- The D of CTRADD, 0x000 for no return (R227). -/
def optO : Option Opnd → Nat
  | none => 0
  | some x => x.code

/-- R227. -/
def optOpnd (x : Nat) : Option Opnd := if x = 0 then none else some (.ofCode x)

/-! ### Fields of a word -/

/-- Fields, each a width and a value, laid from bit 0 upward. -/
def pack : List (Nat × Nat) → Nat
  | [] => 0
  | (n, v) :: r => v % 2 ^ n + 2 ^ n * pack r

/-- Bits lo to lo + n - 1 of a word. -/
def fld (w lo n : Nat) : Nat := w / 2 ^ lo % 2 ^ n

/-- One bit of a word. -/
def bit (w lo : Nat) : Bool := fld w lo 1 == 1

/-- The head of R66, from bit 45 up. -/
def headFields (h : Head) (op : Nat) : List (Nat × Nat) :=
  [(1, h.pneg.toNat), (3, h.pred.val), (3, h.sbw.val), (4, h.stall.val), (8, op)]

/-- R66. -/
def headOf (w : Nat) : Head :=
  { stall := Fin.ofNat 16 (fld w 52 4), sbw := Fin.ofNat 8 (fld w 49 3), pred := Fin.ofNat 8 (fld w 46 3), pneg := bit w 45 }

/-- Format FA of R68. -/
def fa (h : Head) (op d a b c : Nat) (mod : List (Nat × Nat)) : List (Nat × Nat) :=
  mod ++ [(9, c), (9, b), (9, a), (9, d)] ++ headFields h op

/-- Formats FB and FM of R68. -/
def fb (h : Head) (op d a imm : Nat) (mod : List (Nat × Nat)) : List (Nat × Nat) :=
  mod ++ [(18, imm), (9, a), (9, d)] ++ headFields h op

/-- Format FMX of R68. -/
def fmx (h : Head) (op d base idx sh disp : Nat) (mod : List (Nat × Nat)) : List (Nat × Nat) :=
  mod ++ [(7, disp), (2, sh), (9, idx), (9, base), (9, d)] ++ headFields h op

/-- Format FC of R68. -/
def fc (h : Head) (op d imm mod : Nat) : List (Nat × Nat) :=
  [(4, mod), (32, imm), (9, d)] ++ headFields h op

/-- Format FJ of R68. -/
def fj (h : Head) (op u kind : Nat) (cond : PredSpec) (off : Nat) : List (Nat × Nat) :=
  [(32, off), (6, 0), (1, cond.neg.toNat), (3, cond.p.val), (2, kind), (1, u)] ++ headFields h op

/-- Format FX of R68. -/
def fx (h : Head) (op d a : Nat) (sys : List (Nat × Nat)) : List (Nat × Nat) :=
  sys ++ [(9, a), (9, d)] ++ headFields h op

/-- The fields of an instruction's word, from bit 0 up (R91 to R102 and each instruction's own rule). An event has no word. -/
def Instr.fields : Instr → List (Nat × Nat)
  | .iadd h ty sat d a b => fa h 0x00 d.code a.code b.code 0 [(4, ty.code), (3, 0), (1, sat.toNat), (1, 0)]
  | .iaddImm h ty sat d a imm => fb h 0x01 d.code a.code imm.toNat [(4, ty.code), (3, 0), (1, sat.toNat), (1, 0)]
  | .isub h ty sat d a b => fa h 0x02 d.code a.code b.code 0 [(4, ty.code), (3, 0), (1, sat.toNat), (1, 0)]
  | .isubImm h ty sat d a imm => fb h 0x03 d.code a.code imm.toNat [(4, ty.code), (3, 0), (1, sat.toNat), (1, 0)]
  | .imul h ty d a b => fa h 0x04 d.code a.code b.code 0 [(4, ty.code), (5, 0)]
  | .imulImm h ty d a imm => fb h 0x1A d.code a.code imm.toNat [(4, ty.code), (5, 0)]
  | .imulhi h ty d a b => fa h 0x05 d.code a.code b.code 0 [(4, ty.code), (5, 0)]
  | .imad h ty d a b c => fa h 0x06 d.code a.code b.code c.code [(4, ty.code), (5, 0)]
  | .imadw h ty d a b c => fa h 0x07 d.code a.code b.code c.code [(4, ty.code), (5, 0)]
  | .imin h ty d a b => fa h 0x08 d.code a.code b.code 0 [(4, ty.code), (1, 0), (4, 0)]
  | .imax h ty d a b => fa h 0x08 d.code a.code b.code 0 [(4, ty.code), (1, 1), (4, 0)]
  | .iabs h ty sat d a => fa h 0x09 d.code a.code 0 0 [(4, ty.code), (1, 0), (2, 0), (1, sat.toNat), (1, 0)]
  | .ineg h ty sat d a => fa h 0x09 d.code a.code 0 0 [(4, ty.code), (1, 1), (2, 0), (1, sat.toNat), (1, 0)]
  | .iclamp h ty d a b c => fa h 0x0A d.code a.code b.code c.code [(4, ty.code), (5, 0)]
  | .lea h ty sh d a b => fa h 0x0B d.code a.code b.code 0 [(4, ty.code), (3, sh.val), (2, 0)]
  | .and h ty d a b => fa h 0x0C d.code a.code b.code 0 [(4, ty.code), (3, 0), (2, 0)]
  | .andImm h ty d a imm => fb h 0x0D d.code a.code imm.toNat [(4, ty.code), (3, 0), (2, 0)]
  | .or h ty d a b => fa h 0x0C d.code a.code b.code 0 [(4, ty.code), (3, 1), (2, 0)]
  | .orImm h ty d a imm => fb h 0x0D d.code a.code imm.toNat [(4, ty.code), (3, 1), (2, 0)]
  | .xor h ty d a b => fa h 0x0C d.code a.code b.code 0 [(4, ty.code), (3, 2), (2, 0)]
  | .xorImm h ty d a imm => fb h 0x0D d.code a.code imm.toNat [(4, ty.code), (3, 2), (2, 0)]
  | .andn h ty d a b => fa h 0x0C d.code a.code b.code 0 [(4, ty.code), (3, 3), (2, 0)]
  | .andnImm h ty d a imm => fb h 0x0D d.code a.code imm.toNat [(4, ty.code), (3, 3), (2, 0)]
  | .not h ty d a => fa h 0x0C d.code a.code 0 0 [(4, ty.code), (3, 4), (2, 0)]
  | .shl h ty d a b => fa h 0x0E d.code a.code b.code 0 [(4, ty.code), (3, 0), (2, 0)]
  | .shlImm h ty d a imm => fb h 0x0F d.code a.code imm.toNat [(4, ty.code), (3, 0), (2, 0)]
  | .shr h ty d a b => fa h 0x0E d.code a.code b.code 0 [(4, ty.code), (3, 1), (2, 0)]
  | .shrImm h ty d a imm => fb h 0x0F d.code a.code imm.toNat [(4, ty.code), (3, 1), (2, 0)]
  | .sar h ty d a b => fa h 0x0E d.code a.code b.code 0 [(4, ty.code), (3, 2), (2, 0)]
  | .sarImm h ty d a imm => fb h 0x0F d.code a.code imm.toNat [(4, ty.code), (3, 2), (2, 0)]
  | .rotl h ty d a b => fa h 0x0E d.code a.code b.code 0 [(4, ty.code), (3, 3), (2, 0)]
  | .rotlImm h ty d a imm => fb h 0x0F d.code a.code imm.toNat [(4, ty.code), (3, 3), (2, 0)]
  | .bfx h ty d a b => fa h 0x10 d.code a.code b.code 0 [(4, ty.code), (5, 0)]
  | .bfxImm h ty d a imm => fb h 0x12 d.code a.code imm.toNat [(4, ty.code), (5, 0)]
  | .bfi h ty d a b c => fa h 0x11 d.code a.code b.code c.code [(4, ty.code), (5, 0)]
  | .bfiImm h ty d a imm => fb h 0x13 d.code a.code imm.toNat [(4, ty.code), (5, 0)]
  | .clz h ty d a => fa h 0x14 d.code a.code 0 0 [(4, ty.code), (2, 0), (3, 0)]
  | .popc h ty d a => fa h 0x14 d.code a.code 0 0 [(4, ty.code), (2, 1), (3, 0)]
  | .brev h ty d a => fa h 0x14 d.code a.code 0 0 [(4, ty.code), (2, 2), (3, 0)]
  | .icmp h ty cond pd a b => fa h 0x15 pd.val a.code b.code 0 [(4, ty.code), (4, cond.code), (1, 0)]
  | .icmpImm h ty cond pd a imm => fb h 0x16 pd.val a.code imm.toNat [(4, ty.code), (4, cond.code), (1, 0)]
  | .sel h ty d a b ps => fa h 0x17 d.code a.code b.code ps.code [(4, ty.code), (5, 0)]
  | .mov h ty d a => fa h 0x18 d.code a.code 0 0 [(4, ty.code), (5, 0)]
  | .movi h ty d imm => fc h 0x1E d.code imm.toNat ty.code
  | .movh h d imm => fc h 0x1D d.code imm.toNat 3
  | .i2i h dty sty sat d a => fa h 0x19 d.code a.code 0 0 [(4, dty.code), (4, sty.code), (1, sat.toNat)]
  | .fadd h ty rm d a b => fa h 0x20 d.code a.code b.code 0 [(4, ty.code), (3, rm.code), (2, 0)]
  | .faddImm h ty rm d a imm => fb h 0x2E d.code a.code imm.toNat [(4, ty.code), (3, rm.code), (2, 0)]
  | .fsub h ty rm d a b => fa h 0x21 d.code a.code b.code 0 [(4, ty.code), (3, rm.code), (2, 0)]
  | .fmul h ty rm d a b => fa h 0x22 d.code a.code b.code 0 [(4, ty.code), (3, rm.code), (2, 0)]
  | .fmulImm h ty rm d a imm => fb h 0x2F d.code a.code imm.toNat [(4, ty.code), (3, rm.code), (2, 0)]
  | .ffma h ty rm d a b c => fa h 0x23 d.code a.code b.code c.code [(4, ty.code), (3, rm.code), (2, 0)]
  | .fmin h ty d a b => fa h 0x24 d.code a.code b.code 0 [(4, ty.code), (1, 0), (4, 0)]
  | .fminImm h ty d a imm => fb h 0x30 d.code a.code imm.toNat [(4, ty.code), (1, 0), (4, 0)]
  | .fmax h ty d a b => fa h 0x24 d.code a.code b.code 0 [(4, ty.code), (1, 1), (4, 0)]
  | .fmaxImm h ty d a imm => fb h 0x30 d.code a.code imm.toNat [(4, ty.code), (1, 1), (4, 0)]
  | .fcmp h ty cond pd a b => fa h 0x25 pd.val a.code b.code 0 [(4, ty.code), (4, cond.code), (1, 0)]
  | .fcmpImm h ty cond pd a imm => fb h 0x31 pd.val a.code imm.toNat [(4, ty.code), (4, cond.code), (1, 0)]
  | .fclass h ty d a => fa h 0x26 d.code a.code 0 0 [(4, ty.code), (5, 0)]
  | .frcp h ty d a => fa h 0x27 d.code a.code 0 0 [(4, ty.code), (4, 0), (1, 0)]
  | .frsq h ty d a => fa h 0x27 d.code a.code 0 0 [(4, ty.code), (4, 1), (1, 0)]
  | .fsqrt h ty d a => fa h 0x27 d.code a.code 0 0 [(4, ty.code), (4, 2), (1, 0)]
  | .fexp2 h ty d a => fa h 0x27 d.code a.code 0 0 [(4, ty.code), (4, 3), (1, 0)]
  | .flog2 h ty d a => fa h 0x27 d.code a.code 0 0 [(4, ty.code), (4, 4), (1, 0)]
  | .fsin h ty d a => fa h 0x27 d.code a.code 0 0 [(4, ty.code), (4, 5), (1, 0)]
  | .fcos h ty d a => fa h 0x27 d.code a.code 0 0 [(4, ty.code), (4, 6), (1, 0)]
  | .fdiv h ty rm d a b => fa h 0x28 d.code a.code b.code 0 [(4, ty.code), (3, rm.code), (2, 0)]
  | .frnd h ty rm d a => fa h 0x29 d.code a.code 0 rm.code [(4, ty.code), (5, 0)]
  | .f2f h dty sty sat rm d a => fa h 0x2A d.code a.code 0 rm.code [(4, dty.code), (4, sty.code), (1, sat.toNat)]
  | .f2i h dty sty sat rm d a => fa h 0x2B d.code a.code 0 rm.code [(4, dty.code), (4, sty.code), (1, sat.toNat)]
  | .i2f h dty sty rm d a => fa h 0x2C d.code a.code 0 rm.code [(4, dty.code), (4, sty.code), (1, 0)]
  | .fdot2 h ty rm d a b c => fa h 0x2D d.code a.code b.code c.code [(4, ty.code), (3, rm.code), (2, 0)]
  | .bcvt h fmt rm d a => fa h 0x40 d.code a.code 0 0 [(2, fmt.code), (2, 0), (3, rm.code), (2, 0)]
  | .bdot h fmt d a b c => fa h 0x41 d.code a.code b.code c.code [(2, fmt.code), (7, 0)]
  | .bunp h fmt d a => fa h 0x42 d.code a.code 0 0 [(2, fmt.code), (7, 0)]
  | .rand h ty d => fa h 0x48 d.code 0 0 0 [(4, ty.code), (5, 0)]
  | .vxor h d a k => fb h 0x50 d.code a.code k.val [(9, 0)]
  | .vrot h g d a k => fb h 0x51 d.code a.code (k.val + 32 * g.val) [(9, 0)]
  | .vrev h g d a k => fb h 0x52 d.code a.code (k.val + 32 * g.val) [(9, 0)]
  | .vbcast h g d a k => fb h 0x53 d.code a.code (k.val + 32 * g.val) [(9, 0)]
  | .vshuf h d a b => fa h 0x54 d.code a.code b.code 0 [(9, 0)]
  | .vtrn h g d a => fa h 0x55 d.code a.code 0 0 [(3, g.val), (6, 0)]
  | .vcompact h d a ps sc => fa h 0x56 d.code a.code ps.code (optS sc) [(9, 0)]
  | .vexpand h d a ps => fa h 0x57 d.code a.code ps.code 0 [(9, 0)]
  | .vfire h d a => fa h 0x58 d.code a.code 0 0 [(9, 0)]
  | .vmaprd h form d a => fa h 0x59 d.code a.code 0 0 [(4, 0), (1, form.toNat), (4, 0)]
  | .vfirst h ty d a => fa h 0x5A d.code a.code 0 0 [(4, ty.code), (5, 0)]
  | .vballot h d ps => fa h 0x5B d.code ps.code 0 0 [(9, 0)]
  | .vany h pd ps => fa h 0x5C pd.val ps.code 0 0 [(4, 0), (1, 0), (4, 0)]
  | .vall h pd ps => fa h 0x5C pd.val ps.code 0 0 [(4, 0), (1, 1), (4, 0)]
  | .vmatch h ty d a => fa h 0x5D d.code a.code 0 0 [(4, ty.code), (5, 0)]
  | .vactive h d => fa h 0x5E d.code 0 0 0 [(9, 0)]
  | .vred h ty op d a => fa h 0x60 d.code a.code 0 0 [(4, ty.code), (4, op.code), (1, 0)]
  | .vscan h ty op excl d a => fa h 0x61 d.code a.code 0 0 [(4, ty.code), (4, op.code), (1, excl.toNat)]
  | .vsegred h ty op d a ps => fa h 0x62 d.code a.code ps.code 0 [(4, ty.code), (4, op.code), (1, 0)]
  | .vsort h ty asc move d a ci => fa h 0x63 d.code a.code 0 (optV ci) [(4, ty.code), (1, asc.toNat), (1, move.toNat), (1, ci.isSome.toNat), (2, 0)]
  | .vtopk h ty asc d a k ci => fa h 0x64 d.code a.code k.code ci.val [(4, ty.code), (1, asc.toNat), (4, 0)]
  | .vtopkMulti h ty asc m d a k ci => fa h 0x65 d.code a.code k.code ci.val [(4, ty.code), (3, m.val), (1, asc.toNat), (1, 0)]
  | .vbin h sn d a ps nb => fa h 0x66 d.code a.code ps.code nb.code [(6, sn.val), (3, 0)]
  | .ld h ty sc hint d base off => fb h 0x70 d.code base.code off.toNat [(4, ty.code), (2, hint.code), (3, sc.code)]
  | .ldIdx h ty sc hint d base idx sh disp => fmx h 0x71 d.code base.code idx.code sh.val disp.toNat [(4, ty.code), (2, hint.code), (3, sc.code)]
  | .st h ty sc hint data base off => fb h 0x72 data.code base.code off.toNat [(4, ty.code), (2, hint.code), (3, sc.code)]
  | .stIdx h ty sc hint data base idx sh disp => fmx h 0x73 data.code base.code idx.code sh.val disp.toNat [(4, ty.code), (2, hint.code), (3, sc.code)]
  | .ldx h ty nreg sc hint d base off => fx h 0x74 d.code base.code [(15, off.toNat), (4, ty.code), (2, hint.code), (3, sc.code), (3, nreg.val)]
  | .stx h ty nreg sc hint data base off => fx h 0x75 data.code base.code [(15, off.toNat), (4, ty.code), (2, hint.code), (3, sc.code), (3, nreg.val)]
  | .ldrec h fmt sc hint d base off => fb h 0x78 d.code base.code off.toNat [(2, fmt.code), (2, 0), (2, hint.code), (3, sc.code)]
  | .ststash h ty sc hint data base off => fb h 0x79 data.code base.code off.toNat [(4, ty.code), (2, hint.code), (3, sc.code)]
  | .prefetch h sc hint base off => fb h 0x7A 0 base.code off.toNat [(4, 0), (2, hint.code), (3, sc.code)]
  | .prefetchIdx h sc hint base idx sh disp => fmx h 0x7B 0 base.code idx.code sh.val disp.toNat [(4, 0), (2, hint.code), (3, sc.code)]
  | .cflush h sc hint base off => fb h 0x7C 0 base.code off.toNat [(4, 0), (2, hint.code), (3, sc.code)]
  | .cinv h sc hint base off => fb h 0x7D 0 base.code off.toNat [(4, 0), (2, hint.code), (3, sc.code)]
  | .cdemote h sc base off => fb h 0x7E 0 base.code off.toNat [(6, 0), (3, sc.code)]
  | .atomAdd h ty sc hint d a b cb => fa h 0x80 d.code a.code b.code (optS cb) [(4, ty.code), (2, hint.code), (3, sc.code)]
  | .atomMin h ty sc hint d a b cb => fa h 0x81 d.code a.code b.code (optS cb) [(4, ty.code), (2, hint.code), (3, sc.code)]
  | .atomMax h ty sc hint d a b cb => fa h 0x82 d.code a.code b.code (optS cb) [(4, ty.code), (2, hint.code), (3, sc.code)]
  | .atomAnd h ty sc hint d a b cb => fa h 0x83 d.code a.code b.code (optS cb) [(4, ty.code), (2, hint.code), (3, sc.code)]
  | .atomOr h ty sc hint d a b cb => fa h 0x84 d.code a.code b.code (optS cb) [(4, ty.code), (2, hint.code), (3, sc.code)]
  | .atomXor h ty sc hint d a b cb => fa h 0x85 d.code a.code b.code (optS cb) [(4, ty.code), (2, hint.code), (3, sc.code)]
  | .atomExch h ty sc hint d a b cb => fa h 0x86 d.code a.code b.code (optS cb) [(4, ty.code), (2, hint.code), (3, sc.code)]
  | .atomcas h ty sc hint d a b c => fa h 0x87 d.code a.code b.code c.code [(4, ty.code), (2, hint.code), (3, sc.code)]
  | .redAdd h ty sc hint a b cb => fa h 0x88 0 a.code b.code (optS cb) [(4, ty.code), (2, hint.code), (3, sc.code)]
  | .redMin h ty sc hint a b cb => fa h 0x89 0 a.code b.code (optS cb) [(4, ty.code), (2, hint.code), (3, sc.code)]
  | .redMax h ty sc hint a b cb => fa h 0x8A 0 a.code b.code (optS cb) [(4, ty.code), (2, hint.code), (3, sc.code)]
  | .redAnd h ty sc hint a b cb => fa h 0x8B 0 a.code b.code (optS cb) [(4, ty.code), (2, hint.code), (3, sc.code)]
  | .redOr h ty sc hint a b cb => fa h 0x8C 0 a.code b.code (optS cb) [(4, ty.code), (2, hint.code), (3, sc.code)]
  | .redXor h ty sc hint a b cb => fa h 0x8D 0 a.code b.code (optS cb) [(4, ty.code), (2, hint.code), (3, sc.code)]
  | .scadd h ty sc a b cb => fa h 0x8E 0 a.code b.code (optS cb) [(4, ty.code), (2, 0), (3, sc.code)]
  | .lcadd h sc a b cb => fa h 0x90 0 a.code b.code (optS cb) [(4, 9), (2, 0), (3, sc.code)]
  | .lcrd h d base off => fb h 0x91 d.code base.code off.toNat [(4, 9), (5, 0)]
  | .lcrdRaw h d base off => fb h 0x92 d.code base.code off.toNat [(4, 2), (5, 0)]
  | .lcmrg h sc a b cb => fa h 0x93 0 a.code b.code (optS cb) [(4, 2), (2, 0), (3, sc.code)]
  | .lcinit h data base off => fb h 0x94 data.code base.code off.toNat [(9, 0)]
  | .fence h sc mode => fx h 0xA8 0 0 [(22, 0), (2, mode.code), (3, sc.code)]
  | .fenceop h => fx h 0xA9 0 0 [(27, 0)]
  | .drain h mem => fx h 0xAA 0 0 [(24, 0), (3, mem.code)]
  | .leaseDecl h gran => fx h 0xE0 0 0 [(8, gran.val), (18, 0), (1, 0)]
  | .leaseMeas h gran => fx h 0xE0 0 0 [(8, gran.val), (18, 0), (1, 1)]
  | .ctrinit h sc sem ext a b cb => fa h 0xA0 0 a.code b.code (optS cb) [(3, 0), (1, ext.toNat), (2, sem.code), (3, sc.code)]
  | .ctradd h sc sem d a b cb => fa h 0xA1 (optO d) a.code b.code (optS cb) [(4, 0), (2, sem.code), (3, sc.code)]
  | .ctraddImm h sc sem d a imm => fb h 0xA2 (optO d) a.code imm.toNat [(4, 0), (2, sem.code), (3, sc.code)]
  | .ctrwait h sc sem pd a b => fa h 0xA3 pd.val a.code b.code 0 [(4, 0), (2, sem.code), (3, sc.code)]
  | .ctrwaitImm h sc sem pd a imm => fb h 0xA4 pd.val a.code imm.toNat [(4, 0), (2, sem.code), (3, sc.code)]
  | .ctrarv h sc sem pd a b => fa h 0xA5 pd.val a.code b.code 0 [(4, 0), (2, sem.code), (3, sc.code)]
  | .ctrrd h sc sem d a cb => fa h 0xA6 d.code a.code 0 (optS cb) [(4, 0), (2, sem.code), (3, sc.code)]
  | .ctrkill h sc sem a cb => fa h 0xA7 0 a.code 0 (optS cb) [(4, 0), (2, sem.code), (3, sc.code)]
  | .ctrkillFree h sc sem a cb => fa h 0xA7 0 a.code 385 (optS cb) [(4, 0), (2, sem.code), (3, sc.code)]
  | .copy h sc ord bucket hint a => fx h 0xB0 0 (0x140 + a.val) [(13, 0), (2, hint.code), (8, bucket.toNat), (1, ord.toNat), (3, sc.code)]
  | .bcopy h sc ord bucket hint parts coll a => fx h 0xB1 0 (0x140 + a.val) [(2, 0), (4, coll.val), (7, parts.val), (2, hint.code), (8, bucket.toNat), (1, ord.toNat), (3, sc.code)]
  | .gather h sc ord bucket hint idx a => fx h 0xB2 0 (0x140 + a.val) [(2, idx.code), (11, 0), (2, hint.code), (8, bucket.toNat), (1, ord.toNat), (3, sc.code)]
  | .scatter h sc ord bucket hint idx a => fx h 0xB3 0 (0x140 + a.val) [(2, idx.code), (11, 0), (2, hint.code), (8, bucket.toNat), (1, ord.toNat), (3, sc.code)]
  | .unpack h sc ord bucket hint fmt a => fx h 0xB4 0 (0x140 + a.val) [(2, fmt.code), (11, 0), (2, hint.code), (8, bucket.toNat), (1, ord.toNat), (3, sc.code)]
  | .mma h a => fx h 0xC0 0 (0x140 + a.val) [(27, 0)]
  | .maccrd h ty d a => fa h 0xC1 d.code a.code 0 0 [(4, ty.code), (5, 0)]
  | .maccwr h ty a b => fa h 0xC2 0 a.code b.code 0 [(4, ty.code), (5, 0)]
  | .maccz h first count => fx h 0xC3 0 0 [(4, first.val), (5, count.val), (18, 0)]
  | .bra h u kind cond off => fj h 0xD0 u.toNat kind.code cond off.toNat
  | .call h u kind cond off => fj h 0xD2 u.toNat kind.code cond off.toNat
  | .brx h u a => fx h 0xD1 0 a.code [(26, 0), (1, u.toNat)]
  | .ret h u a => fx h 0xD3 0 a.code [(26, 0), (1, u.toNat)]
  | .exit h => fx h 0xD4 0 0 [(27, 0)]
  | .join h => fx h 0xD5 0 0 [(27, 0)]
  | .yield h n => fx h 0xD8 0 0 [(16, n.toNat), (11, 0)]
  | .nop h => fx h 0xD9 0 0 [(27, 0)]
  | .launch h d a q => fx h 0xDA (0x140 + d.val) (0x140 + a.val) [(4, q.val), (23, 0)]
  | .trap h imm => fc h 0xDB 0 imm.toNat 0
  | .brk h imm => fc h 0xDC 0 imm.toNat 0
  | .rdsr h d num => fx h 0xDD d.code 0 [(10, num.val), (17, 0)]
  | .wrsr h num a => fx h 0xDE 0 a.code [(10, num.val), (17, 0)]
  | .rdtime h d => fx h 0xDF (0x140 + d.val) 0 [(27, 0)]
  | .clauseStart .. | .clauseFetchResolved .. | .issueWaitEnd .. | .resultWriteback .. | .ownershipGrant ..
  | .lineFill .. | .pageWalk .. | .runaheadStop .. | .pageBatchResolved .. | .recall .. | .mapPage ..
  | .migrationStart .. | .migrationPull .. | .packetSubmit .. | .packetAccept .. | .launchStart .. | .signal ..
  | .seed .. | .packetForward .. | .forwardReceive .. | .forwardAnswer .. | .gangPlace .. | .placementStarve ..
  | .recordRead .. | .blockFinish .. | .sliceBoundary .. | .leaseWindowEnd .. | .yieldExpire .. | .counterWake ..
  | .counterPoll .. | .requestPerform .. | .fenceComplete .. | .copyStart .. | .copySourceReadDone ..
  | .copyComplete .. | .copyFail .. | .copyPageResolved .. | .mmaStart .. | .mmaBandCommit .. | .mmaRestart ..
  | .mmaFail .. | .ticketRelease .. | .cone .. | .resumeRetry .. | .resumeSkip .. | .resumeDiverge ..
  | .resumeKill .. | .preempt .. | .restore .. | .contextSwitch .. | .eccError .. | .saggarReset ..
  | .shelfHeartbeatTimeout .. | .restack | .restackSwitch | .restackOverrun | .routeChange .. | .flitReplay ..
  | .inboundRequest .. | .remote .. | .peerAnswer .. | .rtimeout .. | .flowbroken .. | .flowSkip ..
  | .windowRecall .. | .mailboxMessage .. | .flr .. | .ptpLock .. | .throttleStep | .throttleRaise | .thermalThrottle
  | .thermalTrip | .moduleReset | .firmwareUpdate .. | .attestationReport .. | .lcbaseWrite .. | .boundsEntryWrite ..
  | .boundsHitClear .. | .partitionWrite .. | .controlWrite .. | .accessPerformed .. | .fullService => []

/-- The word of an instruction. -/
def encode (i : Instr) : DWord := BitVec.ofNat 64 (pack i.fields)

/-! ### Reading a word -/

/-- The word of opcodes 0x00 to 0x1F of R93, its reserved bits unchecked. -/
def parseInt (op w : Nat) : Option Instr :=
  match op with
  | 0x00 => some (.iadd (headOf w) (.ofCode (fld w 0 4)) (bit w 7) (.ofCode (fld w 36 9)) (.ofCode (fld w 27 9)) (.ofCode (fld w 18 9)))
  | 0x01 => some (.iaddImm (headOf w) (.ofCode (fld w 0 4)) (bit w 7) (.ofCode (fld w 36 9)) (.ofCode (fld w 27 9)) (BitVec.ofNat 18 (fld w 9 18)))
  | 0x02 => some (.isub (headOf w) (.ofCode (fld w 0 4)) (bit w 7) (.ofCode (fld w 36 9)) (.ofCode (fld w 27 9)) (.ofCode (fld w 18 9)))
  | 0x03 => some (.isubImm (headOf w) (.ofCode (fld w 0 4)) (bit w 7) (.ofCode (fld w 36 9)) (.ofCode (fld w 27 9)) (BitVec.ofNat 18 (fld w 9 18)))
  | 0x04 => some (.imul (headOf w) (.ofCode (fld w 0 4)) (.ofCode (fld w 36 9)) (.ofCode (fld w 27 9)) (.ofCode (fld w 18 9)))
  | 0x05 => some (.imulhi (headOf w) (.ofCode (fld w 0 4)) (.ofCode (fld w 36 9)) (.ofCode (fld w 27 9)) (.ofCode (fld w 18 9)))
  | 0x06 => some (.imad (headOf w) (.ofCode (fld w 0 4)) (.ofCode (fld w 36 9)) (.ofCode (fld w 27 9)) (.ofCode (fld w 18 9)) (.ofCode (fld w 9 9)))
  | 0x07 => some (.imadw (headOf w) (.ofCode (fld w 0 4)) (.ofCode (fld w 36 9)) (.ofCode (fld w 27 9)) (.ofCode (fld w 18 9)) (.ofCode (fld w 9 9)))
  | 0x08 => match fld w 4 1 with
    | 0 => some (.imin (headOf w) (.ofCode (fld w 0 4)) (.ofCode (fld w 36 9)) (.ofCode (fld w 27 9)) (.ofCode (fld w 18 9)))
    | _ => some (.imax (headOf w) (.ofCode (fld w 0 4)) (.ofCode (fld w 36 9)) (.ofCode (fld w 27 9)) (.ofCode (fld w 18 9)))
  | 0x09 => match fld w 4 1 with
    | 0 => some (.iabs (headOf w) (.ofCode (fld w 0 4)) (bit w 7) (.ofCode (fld w 36 9)) (.ofCode (fld w 27 9)))
    | _ => some (.ineg (headOf w) (.ofCode (fld w 0 4)) (bit w 7) (.ofCode (fld w 36 9)) (.ofCode (fld w 27 9)))
  | 0x0A => some (.iclamp (headOf w) (.ofCode (fld w 0 4)) (.ofCode (fld w 36 9)) (.ofCode (fld w 27 9)) (.ofCode (fld w 18 9)) (.ofCode (fld w 9 9)))
  | 0x0B => some (.lea (headOf w) (.ofCode (fld w 0 4)) (Fin.ofNat 8 (fld w 4 3)) (.ofCode (fld w 36 9)) (.ofCode (fld w 27 9)) (.ofCode (fld w 18 9)))
  | 0x0C => match fld w 4 3 with
    | 0 => some (.and (headOf w) (.ofCode (fld w 0 4)) (.ofCode (fld w 36 9)) (.ofCode (fld w 27 9)) (.ofCode (fld w 18 9)))
    | 1 => some (.or (headOf w) (.ofCode (fld w 0 4)) (.ofCode (fld w 36 9)) (.ofCode (fld w 27 9)) (.ofCode (fld w 18 9)))
    | 2 => some (.xor (headOf w) (.ofCode (fld w 0 4)) (.ofCode (fld w 36 9)) (.ofCode (fld w 27 9)) (.ofCode (fld w 18 9)))
    | 3 => some (.andn (headOf w) (.ofCode (fld w 0 4)) (.ofCode (fld w 36 9)) (.ofCode (fld w 27 9)) (.ofCode (fld w 18 9)))
    | _ => some (.not (headOf w) (.ofCode (fld w 0 4)) (.ofCode (fld w 36 9)) (.ofCode (fld w 27 9)))
  | 0x0D => match fld w 4 3 with
    | 0 => some (.andImm (headOf w) (.ofCode (fld w 0 4)) (.ofCode (fld w 36 9)) (.ofCode (fld w 27 9)) (BitVec.ofNat 18 (fld w 9 18)))
    | 1 => some (.orImm (headOf w) (.ofCode (fld w 0 4)) (.ofCode (fld w 36 9)) (.ofCode (fld w 27 9)) (BitVec.ofNat 18 (fld w 9 18)))
    | 2 => some (.xorImm (headOf w) (.ofCode (fld w 0 4)) (.ofCode (fld w 36 9)) (.ofCode (fld w 27 9)) (BitVec.ofNat 18 (fld w 9 18)))
    | _ => some (.andnImm (headOf w) (.ofCode (fld w 0 4)) (.ofCode (fld w 36 9)) (.ofCode (fld w 27 9)) (BitVec.ofNat 18 (fld w 9 18)))
  | 0x0E => match fld w 4 3 with
    | 0 => some (.shl (headOf w) (.ofCode (fld w 0 4)) (.ofCode (fld w 36 9)) (.ofCode (fld w 27 9)) (.ofCode (fld w 18 9)))
    | 1 => some (.shr (headOf w) (.ofCode (fld w 0 4)) (.ofCode (fld w 36 9)) (.ofCode (fld w 27 9)) (.ofCode (fld w 18 9)))
    | 2 => some (.sar (headOf w) (.ofCode (fld w 0 4)) (.ofCode (fld w 36 9)) (.ofCode (fld w 27 9)) (.ofCode (fld w 18 9)))
    | _ => some (.rotl (headOf w) (.ofCode (fld w 0 4)) (.ofCode (fld w 36 9)) (.ofCode (fld w 27 9)) (.ofCode (fld w 18 9)))
  | 0x0F => match fld w 4 3 with
    | 0 => some (.shlImm (headOf w) (.ofCode (fld w 0 4)) (.ofCode (fld w 36 9)) (.ofCode (fld w 27 9)) (BitVec.ofNat 18 (fld w 9 18)))
    | 1 => some (.shrImm (headOf w) (.ofCode (fld w 0 4)) (.ofCode (fld w 36 9)) (.ofCode (fld w 27 9)) (BitVec.ofNat 18 (fld w 9 18)))
    | 2 => some (.sarImm (headOf w) (.ofCode (fld w 0 4)) (.ofCode (fld w 36 9)) (.ofCode (fld w 27 9)) (BitVec.ofNat 18 (fld w 9 18)))
    | _ => some (.rotlImm (headOf w) (.ofCode (fld w 0 4)) (.ofCode (fld w 36 9)) (.ofCode (fld w 27 9)) (BitVec.ofNat 18 (fld w 9 18)))
  | 0x10 => some (.bfx (headOf w) (.ofCode (fld w 0 4)) (.ofCode (fld w 36 9)) (.ofCode (fld w 27 9)) (.ofCode (fld w 18 9)))
  | 0x11 => some (.bfi (headOf w) (.ofCode (fld w 0 4)) (.ofCode (fld w 36 9)) (.ofCode (fld w 27 9)) (.ofCode (fld w 18 9)) (.ofCode (fld w 9 9)))
  | 0x12 => some (.bfxImm (headOf w) (.ofCode (fld w 0 4)) (.ofCode (fld w 36 9)) (.ofCode (fld w 27 9)) (BitVec.ofNat 18 (fld w 9 18)))
  | 0x13 => some (.bfiImm (headOf w) (.ofCode (fld w 0 4)) (.ofCode (fld w 36 9)) (.ofCode (fld w 27 9)) (BitVec.ofNat 18 (fld w 9 18)))
  | 0x14 => match fld w 4 2 with
    | 0 => some (.clz (headOf w) (.ofCode (fld w 0 4)) (.ofCode (fld w 36 9)) (.ofCode (fld w 27 9)))
    | 1 => some (.popc (headOf w) (.ofCode (fld w 0 4)) (.ofCode (fld w 36 9)) (.ofCode (fld w 27 9)))
    | _ => some (.brev (headOf w) (.ofCode (fld w 0 4)) (.ofCode (fld w 36 9)) (.ofCode (fld w 27 9)))
  | 0x15 => some (.icmp (headOf w) (.ofCode (fld w 0 4)) (.ofCode (fld w 4 4)) (Fin.ofNat 7 (fld w 36 9)) (.ofCode (fld w 27 9)) (.ofCode (fld w 18 9)))
  | 0x16 => some (.icmpImm (headOf w) (.ofCode (fld w 0 4)) (.ofCode (fld w 4 4)) (Fin.ofNat 7 (fld w 36 9)) (.ofCode (fld w 27 9)) (BitVec.ofNat 18 (fld w 9 18)))
  | 0x17 => some (.sel (headOf w) (.ofCode (fld w 0 4)) (.ofCode (fld w 36 9)) (.ofCode (fld w 27 9)) (.ofCode (fld w 18 9)) (.ofCode (fld w 9 9)))
  | 0x18 => some (.mov (headOf w) (.ofCode (fld w 0 4)) (.ofCode (fld w 36 9)) (.ofCode (fld w 27 9)))
  | 0x19 => some (.i2i (headOf w) (.ofCode (fld w 0 4)) (.ofCode (fld w 4 4)) (bit w 8) (.ofCode (fld w 36 9)) (.ofCode (fld w 27 9)))
  | 0x1A => some (.imulImm (headOf w) (.ofCode (fld w 0 4)) (.ofCode (fld w 36 9)) (.ofCode (fld w 27 9)) (BitVec.ofNat 18 (fld w 9 18)))
  | 0x1D => some (.movh (headOf w) (.ofCode (fld w 36 9)) (BitVec.ofNat 32 (fld w 4 32)))
  | 0x1E => some (.movi (headOf w) (.ofCode (fld w 0 4)) (.ofCode (fld w 36 9)) (BitVec.ofNat 32 (fld w 4 32)))
  | _ => none

/-- The word of opcodes 0x20 to 0x4F of R93, its reserved bits unchecked. -/
def parseFloat (op w : Nat) : Option Instr :=
  match op with
  | 0x20 => some (.fadd (headOf w) (.ofCode (fld w 0 4)) (.ofCode (fld w 4 3)) (.ofCode (fld w 36 9)) (.ofCode (fld w 27 9)) (.ofCode (fld w 18 9)))
  | 0x21 => some (.fsub (headOf w) (.ofCode (fld w 0 4)) (.ofCode (fld w 4 3)) (.ofCode (fld w 36 9)) (.ofCode (fld w 27 9)) (.ofCode (fld w 18 9)))
  | 0x22 => some (.fmul (headOf w) (.ofCode (fld w 0 4)) (.ofCode (fld w 4 3)) (.ofCode (fld w 36 9)) (.ofCode (fld w 27 9)) (.ofCode (fld w 18 9)))
  | 0x23 => some (.ffma (headOf w) (.ofCode (fld w 0 4)) (.ofCode (fld w 4 3)) (.ofCode (fld w 36 9)) (.ofCode (fld w 27 9)) (.ofCode (fld w 18 9)) (.ofCode (fld w 9 9)))
  | 0x24 => match fld w 4 1 with
    | 0 => some (.fmin (headOf w) (.ofCode (fld w 0 4)) (.ofCode (fld w 36 9)) (.ofCode (fld w 27 9)) (.ofCode (fld w 18 9)))
    | _ => some (.fmax (headOf w) (.ofCode (fld w 0 4)) (.ofCode (fld w 36 9)) (.ofCode (fld w 27 9)) (.ofCode (fld w 18 9)))
  | 0x25 => some (.fcmp (headOf w) (.ofCode (fld w 0 4)) (.ofCode (fld w 4 4)) (Fin.ofNat 7 (fld w 36 9)) (.ofCode (fld w 27 9)) (.ofCode (fld w 18 9)))
  | 0x26 => some (.fclass (headOf w) (.ofCode (fld w 0 4)) (.ofCode (fld w 36 9)) (.ofCode (fld w 27 9)))
  | 0x27 => match fld w 4 4 with
    | 0 => some (.frcp (headOf w) (.ofCode (fld w 0 4)) (.ofCode (fld w 36 9)) (.ofCode (fld w 27 9)))
    | 1 => some (.frsq (headOf w) (.ofCode (fld w 0 4)) (.ofCode (fld w 36 9)) (.ofCode (fld w 27 9)))
    | 2 => some (.fsqrt (headOf w) (.ofCode (fld w 0 4)) (.ofCode (fld w 36 9)) (.ofCode (fld w 27 9)))
    | 3 => some (.fexp2 (headOf w) (.ofCode (fld w 0 4)) (.ofCode (fld w 36 9)) (.ofCode (fld w 27 9)))
    | 4 => some (.flog2 (headOf w) (.ofCode (fld w 0 4)) (.ofCode (fld w 36 9)) (.ofCode (fld w 27 9)))
    | 5 => some (.fsin (headOf w) (.ofCode (fld w 0 4)) (.ofCode (fld w 36 9)) (.ofCode (fld w 27 9)))
    | _ => some (.fcos (headOf w) (.ofCode (fld w 0 4)) (.ofCode (fld w 36 9)) (.ofCode (fld w 27 9)))
  | 0x28 => some (.fdiv (headOf w) (.ofCode (fld w 0 4)) (.ofCode (fld w 4 3)) (.ofCode (fld w 36 9)) (.ofCode (fld w 27 9)) (.ofCode (fld w 18 9)))
  | 0x29 => some (.frnd (headOf w) (.ofCode (fld w 0 4)) (.ofCode (fld w 9 9)) (.ofCode (fld w 36 9)) (.ofCode (fld w 27 9)))
  | 0x2A => some (.f2f (headOf w) (.ofCode (fld w 0 4)) (.ofCode (fld w 4 4)) (bit w 8) (.ofCode (fld w 9 9)) (.ofCode (fld w 36 9)) (.ofCode (fld w 27 9)))
  | 0x2B => some (.f2i (headOf w) (.ofCode (fld w 0 4)) (.ofCode (fld w 4 4)) (bit w 8) (.ofCode (fld w 9 9)) (.ofCode (fld w 36 9)) (.ofCode (fld w 27 9)))
  | 0x2C => some (.i2f (headOf w) (.ofCode (fld w 0 4)) (.ofCode (fld w 4 4)) (.ofCode (fld w 9 9)) (.ofCode (fld w 36 9)) (.ofCode (fld w 27 9)))
  | 0x2D => some (.fdot2 (headOf w) (.ofCode (fld w 0 4)) (.ofCode (fld w 4 3)) (.ofCode (fld w 36 9)) (.ofCode (fld w 27 9)) (.ofCode (fld w 18 9)) (.ofCode (fld w 9 9)))
  | 0x2E => some (.faddImm (headOf w) (.ofCode (fld w 0 4)) (.ofCode (fld w 4 3)) (.ofCode (fld w 36 9)) (.ofCode (fld w 27 9)) (BitVec.ofNat 18 (fld w 9 18)))
  | 0x2F => some (.fmulImm (headOf w) (.ofCode (fld w 0 4)) (.ofCode (fld w 4 3)) (.ofCode (fld w 36 9)) (.ofCode (fld w 27 9)) (BitVec.ofNat 18 (fld w 9 18)))
  | 0x30 => match fld w 4 1 with
    | 0 => some (.fminImm (headOf w) (.ofCode (fld w 0 4)) (.ofCode (fld w 36 9)) (.ofCode (fld w 27 9)) (BitVec.ofNat 18 (fld w 9 18)))
    | _ => some (.fmaxImm (headOf w) (.ofCode (fld w 0 4)) (.ofCode (fld w 36 9)) (.ofCode (fld w 27 9)) (BitVec.ofNat 18 (fld w 9 18)))
  | 0x31 => some (.fcmpImm (headOf w) (.ofCode (fld w 0 4)) (.ofCode (fld w 4 4)) (Fin.ofNat 7 (fld w 36 9)) (.ofCode (fld w 27 9)) (BitVec.ofNat 18 (fld w 9 18)))
  | 0x40 => some (.bcvt (headOf w) (.ofCode (fld w 0 2)) (.ofCode (fld w 4 3)) (.ofCode (fld w 36 9)) (.ofCode (fld w 27 9)))
  | 0x41 => some (.bdot (headOf w) (.ofCode (fld w 0 2)) (.ofCode (fld w 36 9)) (.ofCode (fld w 27 9)) (.ofCode (fld w 18 9)) (.ofCode (fld w 9 9)))
  | 0x42 => some (.bunp (headOf w) (.ofCode (fld w 0 2)) (.ofCode (fld w 36 9)) (.ofCode (fld w 27 9)))
  | 0x48 => some (.rand (headOf w) (.ofCode (fld w 0 4)) (.ofCode (fld w 36 9)))
  | _ => none

/-- The word of opcodes 0x50 to 0x6F of R94, its reserved bits unchecked. -/
def parseLane (op w : Nat) : Option Instr :=
  match op with
  | 0x50 => some (.vxor (headOf w) (.ofCode (fld w 36 9)) (.ofCode (fld w 27 9)) (Fin.ofNat 32 (fld w 9 5)))
  | 0x51 => some (.vrot (headOf w) (Fin.ofNat 8 (fld w 14 3)) (.ofCode (fld w 36 9)) (.ofCode (fld w 27 9)) (Fin.ofNat 32 (fld w 9 5)))
  | 0x52 => some (.vrev (headOf w) (Fin.ofNat 8 (fld w 14 3)) (.ofCode (fld w 36 9)) (.ofCode (fld w 27 9)) (Fin.ofNat 32 (fld w 9 5)))
  | 0x53 => some (.vbcast (headOf w) (Fin.ofNat 8 (fld w 14 3)) (.ofCode (fld w 36 9)) (.ofCode (fld w 27 9)) (Fin.ofNat 32 (fld w 9 5)))
  | 0x54 => some (.vshuf (headOf w) (.ofCode (fld w 36 9)) (.ofCode (fld w 27 9)) (.ofCode (fld w 18 9)))
  | 0x55 => some (.vtrn (headOf w) (Fin.ofNat 8 (fld w 0 3)) (.ofCode (fld w 36 9)) (.ofCode (fld w 27 9)))
  | 0x56 => some (.vcompact (headOf w) (.ofCode (fld w 36 9)) (.ofCode (fld w 27 9)) (.ofCode (fld w 18 9)) (optSNum (fld w 9 9)))
  | 0x57 => some (.vexpand (headOf w) (.ofCode (fld w 36 9)) (.ofCode (fld w 27 9)) (.ofCode (fld w 18 9)))
  | 0x58 => some (.vfire (headOf w) (.ofCode (fld w 36 9)) (.ofCode (fld w 27 9)))
  | 0x59 => some (.vmaprd (headOf w) (bit w 4) (.ofCode (fld w 36 9)) (.ofCode (fld w 27 9)))
  | 0x5A => some (.vfirst (headOf w) (.ofCode (fld w 0 4)) (.ofCode (fld w 36 9)) (.ofCode (fld w 27 9)))
  | 0x5B => some (.vballot (headOf w) (.ofCode (fld w 36 9)) (.ofCode (fld w 27 9)))
  | 0x5C => match fld w 4 1 with
    | 0 => some (.vany (headOf w) (Fin.ofNat 7 (fld w 36 9)) (.ofCode (fld w 27 9)))
    | _ => some (.vall (headOf w) (Fin.ofNat 7 (fld w 36 9)) (.ofCode (fld w 27 9)))
  | 0x5D => some (.vmatch (headOf w) (.ofCode (fld w 0 4)) (.ofCode (fld w 36 9)) (.ofCode (fld w 27 9)))
  | 0x5E => some (.vactive (headOf w) (.ofCode (fld w 36 9)))
  | 0x60 => some (.vred (headOf w) (.ofCode (fld w 0 4)) (.ofCode (fld w 4 4)) (.ofCode (fld w 36 9)) (.ofCode (fld w 27 9)))
  | 0x61 => some (.vscan (headOf w) (.ofCode (fld w 0 4)) (.ofCode (fld w 4 4)) (bit w 8) (.ofCode (fld w 36 9)) (.ofCode (fld w 27 9)))
  | 0x62 => some (.vsegred (headOf w) (.ofCode (fld w 0 4)) (.ofCode (fld w 4 4)) (.ofCode (fld w 36 9)) (.ofCode (fld w 27 9)) (.ofCode (fld w 18 9)))
  | 0x63 => some (.vsort (headOf w) (.ofCode (fld w 0 4)) (bit w 4) (bit w 5) (.ofCode (fld w 36 9)) (.ofCode (fld w 27 9)) (if bit w 6 then some (Fin.ofNat 320 (fld w 9 9)) else none))
  | 0x64 => some (.vtopk (headOf w) (.ofCode (fld w 0 4)) (bit w 4) (.ofCode (fld w 36 9)) (.ofCode (fld w 27 9)) (.ofCode (fld w 18 9)) (Fin.ofNat 320 (fld w 9 9)))
  | 0x65 => some (.vtopkMulti (headOf w) (.ofCode (fld w 0 4)) (bit w 7) (Fin.ofNat 8 (fld w 4 3)) (.ofCode (fld w 36 9)) (.ofCode (fld w 27 9)) (.ofCode (fld w 18 9)) (Fin.ofNat 320 (fld w 9 9)))
  | 0x66 => some (.vbin (headOf w) (Fin.ofNat 64 (fld w 0 6)) (.ofCode (fld w 36 9)) (.ofCode (fld w 27 9)) (.ofCode (fld w 18 9)) (.ofCode (fld w 9 9)))
  | _ => none

/-- The word of opcodes 0x70 to 0x9F of R95, its reserved bits unchecked. -/
def parseMem (op w : Nat) : Option Instr :=
  match op with
  | 0x70 => some (.ld (headOf w) (.ofCode (fld w 0 4)) (.ofCode (fld w 6 3)) (.ofCode (fld w 4 2)) (.ofCode (fld w 36 9)) (.ofCode (fld w 27 9)) (BitVec.ofNat 18 (fld w 9 18)))
  | 0x71 => some (.ldIdx (headOf w) (.ofCode (fld w 0 4)) (.ofCode (fld w 6 3)) (.ofCode (fld w 4 2)) (.ofCode (fld w 36 9)) (.ofCode (fld w 27 9)) (.ofCode (fld w 18 9)) (Fin.ofNat 4 (fld w 16 2)) (BitVec.ofNat 7 (fld w 9 7)))
  | 0x72 => some (.st (headOf w) (.ofCode (fld w 0 4)) (.ofCode (fld w 6 3)) (.ofCode (fld w 4 2)) (.ofCode (fld w 36 9)) (.ofCode (fld w 27 9)) (BitVec.ofNat 18 (fld w 9 18)))
  | 0x73 => some (.stIdx (headOf w) (.ofCode (fld w 0 4)) (.ofCode (fld w 6 3)) (.ofCode (fld w 4 2)) (.ofCode (fld w 36 9)) (.ofCode (fld w 27 9)) (.ofCode (fld w 18 9)) (Fin.ofNat 4 (fld w 16 2)) (BitVec.ofNat 7 (fld w 9 7)))
  | 0x74 => some (.ldx (headOf w) (.ofCode (fld w 15 4)) (Fin.ofNat 8 (fld w 24 3)) (.ofCode (fld w 21 3)) (.ofCode (fld w 19 2)) (.ofCode (fld w 36 9)) (.ofCode (fld w 27 9)) (BitVec.ofNat 15 (fld w 0 15)))
  | 0x75 => some (.stx (headOf w) (.ofCode (fld w 15 4)) (Fin.ofNat 8 (fld w 24 3)) (.ofCode (fld w 21 3)) (.ofCode (fld w 19 2)) (.ofCode (fld w 36 9)) (.ofCode (fld w 27 9)) (BitVec.ofNat 15 (fld w 0 15)))
  | 0x78 => some (.ldrec (headOf w) (.ofCode (fld w 0 2)) (.ofCode (fld w 6 3)) (.ofCode (fld w 4 2)) (.ofCode (fld w 36 9)) (.ofCode (fld w 27 9)) (BitVec.ofNat 18 (fld w 9 18)))
  | 0x79 => some (.ststash (headOf w) (.ofCode (fld w 0 4)) (.ofCode (fld w 6 3)) (.ofCode (fld w 4 2)) (.ofCode (fld w 36 9)) (.ofCode (fld w 27 9)) (BitVec.ofNat 18 (fld w 9 18)))
  | 0x7A => some (.prefetch (headOf w) (.ofCode (fld w 6 3)) (.ofCode (fld w 4 2)) (.ofCode (fld w 27 9)) (BitVec.ofNat 18 (fld w 9 18)))
  | 0x7B => some (.prefetchIdx (headOf w) (.ofCode (fld w 6 3)) (.ofCode (fld w 4 2)) (.ofCode (fld w 27 9)) (.ofCode (fld w 18 9)) (Fin.ofNat 4 (fld w 16 2)) (BitVec.ofNat 7 (fld w 9 7)))
  | 0x7C => some (.cflush (headOf w) (.ofCode (fld w 6 3)) (.ofCode (fld w 4 2)) (.ofCode (fld w 27 9)) (BitVec.ofNat 18 (fld w 9 18)))
  | 0x7D => some (.cinv (headOf w) (.ofCode (fld w 6 3)) (.ofCode (fld w 4 2)) (.ofCode (fld w 27 9)) (BitVec.ofNat 18 (fld w 9 18)))
  | 0x7E => some (.cdemote (headOf w) (.ofCode (fld w 6 3)) (.ofCode (fld w 27 9)) (BitVec.ofNat 18 (fld w 9 18)))
  | 0x80 => some (.atomAdd (headOf w) (.ofCode (fld w 0 4)) (.ofCode (fld w 6 3)) (.ofCode (fld w 4 2)) (.ofCode (fld w 36 9)) (.ofCode (fld w 27 9)) (.ofCode (fld w 18 9)) (optSNum (fld w 9 9)))
  | 0x81 => some (.atomMin (headOf w) (.ofCode (fld w 0 4)) (.ofCode (fld w 6 3)) (.ofCode (fld w 4 2)) (.ofCode (fld w 36 9)) (.ofCode (fld w 27 9)) (.ofCode (fld w 18 9)) (optSNum (fld w 9 9)))
  | 0x82 => some (.atomMax (headOf w) (.ofCode (fld w 0 4)) (.ofCode (fld w 6 3)) (.ofCode (fld w 4 2)) (.ofCode (fld w 36 9)) (.ofCode (fld w 27 9)) (.ofCode (fld w 18 9)) (optSNum (fld w 9 9)))
  | 0x83 => some (.atomAnd (headOf w) (.ofCode (fld w 0 4)) (.ofCode (fld w 6 3)) (.ofCode (fld w 4 2)) (.ofCode (fld w 36 9)) (.ofCode (fld w 27 9)) (.ofCode (fld w 18 9)) (optSNum (fld w 9 9)))
  | 0x84 => some (.atomOr (headOf w) (.ofCode (fld w 0 4)) (.ofCode (fld w 6 3)) (.ofCode (fld w 4 2)) (.ofCode (fld w 36 9)) (.ofCode (fld w 27 9)) (.ofCode (fld w 18 9)) (optSNum (fld w 9 9)))
  | 0x85 => some (.atomXor (headOf w) (.ofCode (fld w 0 4)) (.ofCode (fld w 6 3)) (.ofCode (fld w 4 2)) (.ofCode (fld w 36 9)) (.ofCode (fld w 27 9)) (.ofCode (fld w 18 9)) (optSNum (fld w 9 9)))
  | 0x86 => some (.atomExch (headOf w) (.ofCode (fld w 0 4)) (.ofCode (fld w 6 3)) (.ofCode (fld w 4 2)) (.ofCode (fld w 36 9)) (.ofCode (fld w 27 9)) (.ofCode (fld w 18 9)) (optSNum (fld w 9 9)))
  | 0x87 => some (.atomcas (headOf w) (.ofCode (fld w 0 4)) (.ofCode (fld w 6 3)) (.ofCode (fld w 4 2)) (.ofCode (fld w 36 9)) (.ofCode (fld w 27 9)) (.ofCode (fld w 18 9)) (.ofCode (fld w 9 9)))
  | 0x88 => some (.redAdd (headOf w) (.ofCode (fld w 0 4)) (.ofCode (fld w 6 3)) (.ofCode (fld w 4 2)) (.ofCode (fld w 27 9)) (.ofCode (fld w 18 9)) (optSNum (fld w 9 9)))
  | 0x89 => some (.redMin (headOf w) (.ofCode (fld w 0 4)) (.ofCode (fld w 6 3)) (.ofCode (fld w 4 2)) (.ofCode (fld w 27 9)) (.ofCode (fld w 18 9)) (optSNum (fld w 9 9)))
  | 0x8A => some (.redMax (headOf w) (.ofCode (fld w 0 4)) (.ofCode (fld w 6 3)) (.ofCode (fld w 4 2)) (.ofCode (fld w 27 9)) (.ofCode (fld w 18 9)) (optSNum (fld w 9 9)))
  | 0x8B => some (.redAnd (headOf w) (.ofCode (fld w 0 4)) (.ofCode (fld w 6 3)) (.ofCode (fld w 4 2)) (.ofCode (fld w 27 9)) (.ofCode (fld w 18 9)) (optSNum (fld w 9 9)))
  | 0x8C => some (.redOr (headOf w) (.ofCode (fld w 0 4)) (.ofCode (fld w 6 3)) (.ofCode (fld w 4 2)) (.ofCode (fld w 27 9)) (.ofCode (fld w 18 9)) (optSNum (fld w 9 9)))
  | 0x8D => some (.redXor (headOf w) (.ofCode (fld w 0 4)) (.ofCode (fld w 6 3)) (.ofCode (fld w 4 2)) (.ofCode (fld w 27 9)) (.ofCode (fld w 18 9)) (optSNum (fld w 9 9)))
  | 0x8E => some (.scadd (headOf w) (.ofCode (fld w 0 4)) (.ofCode (fld w 6 3)) (.ofCode (fld w 27 9)) (.ofCode (fld w 18 9)) (optSNum (fld w 9 9)))
  | 0x90 => some (.lcadd (headOf w) (.ofCode (fld w 6 3)) (.ofCode (fld w 27 9)) (.ofCode (fld w 18 9)) (optSNum (fld w 9 9)))
  | 0x91 => some (.lcrd (headOf w) (.ofCode (fld w 36 9)) (.ofCode (fld w 27 9)) (BitVec.ofNat 18 (fld w 9 18)))
  | 0x92 => some (.lcrdRaw (headOf w) (.ofCode (fld w 36 9)) (.ofCode (fld w 27 9)) (BitVec.ofNat 18 (fld w 9 18)))
  | 0x93 => some (.lcmrg (headOf w) (.ofCode (fld w 6 3)) (.ofCode (fld w 27 9)) (.ofCode (fld w 18 9)) (optSNum (fld w 9 9)))
  | 0x94 => some (.lcinit (headOf w) (.ofCode (fld w 36 9)) (.ofCode (fld w 27 9)) (BitVec.ofNat 18 (fld w 9 18)))
  | _ => none

/-- The word of opcodes 0xA0 to 0xCF of R98, its reserved bits unchecked. -/
def parseSync (op w : Nat) : Option Instr :=
  match op with
  | 0xA0 => some (.ctrinit (headOf w) (.ofCode (fld w 6 3)) (.ofCode (fld w 4 2)) (bit w 3) (.ofCode (fld w 27 9)) (.ofCode (fld w 18 9)) (optSNum (fld w 9 9)))
  | 0xA1 => some (.ctradd (headOf w) (.ofCode (fld w 6 3)) (.ofCode (fld w 4 2)) (optOpnd (fld w 36 9)) (.ofCode (fld w 27 9)) (.ofCode (fld w 18 9)) (optSNum (fld w 9 9)))
  | 0xA2 => some (.ctraddImm (headOf w) (.ofCode (fld w 6 3)) (.ofCode (fld w 4 2)) (optOpnd (fld w 36 9)) (.ofCode (fld w 27 9)) (BitVec.ofNat 18 (fld w 9 18)))
  | 0xA3 => some (.ctrwait (headOf w) (.ofCode (fld w 6 3)) (.ofCode (fld w 4 2)) (Fin.ofNat 7 (fld w 36 9)) (.ofCode (fld w 27 9)) (.ofCode (fld w 18 9)))
  | 0xA4 => some (.ctrwaitImm (headOf w) (.ofCode (fld w 6 3)) (.ofCode (fld w 4 2)) (Fin.ofNat 7 (fld w 36 9)) (.ofCode (fld w 27 9)) (BitVec.ofNat 18 (fld w 9 18)))
  | 0xA5 => some (.ctrarv (headOf w) (.ofCode (fld w 6 3)) (.ofCode (fld w 4 2)) (Fin.ofNat 7 (fld w 36 9)) (.ofCode (fld w 27 9)) (.ofCode (fld w 18 9)))
  | 0xA6 => some (.ctrrd (headOf w) (.ofCode (fld w 6 3)) (.ofCode (fld w 4 2)) (.ofCode (fld w 36 9)) (.ofCode (fld w 27 9)) (optSNum (fld w 9 9)))
  | 0xA7 => match fld w 18 9 with
    | 0 => some (.ctrkill (headOf w) (.ofCode (fld w 6 3)) (.ofCode (fld w 4 2)) (.ofCode (fld w 27 9)) (optSNum (fld w 9 9)))
    | _ => some (.ctrkillFree (headOf w) (.ofCode (fld w 6 3)) (.ofCode (fld w 4 2)) (.ofCode (fld w 27 9)) (optSNum (fld w 9 9)))
  | 0xA8 => some (.fence (headOf w) (.ofCode (fld w 24 3)) (.ofCode (fld w 22 2)))
  | 0xA9 => some (.fenceop (headOf w))
  | 0xAA => some (.drain (headOf w) (.ofCode (fld w 24 3)))
  | 0xB0 => some (.copy (headOf w) (.ofCode (fld w 24 3)) (bit w 23) (BitVec.ofNat 8 (fld w 15 8)) (.ofCode (fld w 13 2)) (sNum (fld w 27 9)))
  | 0xB1 => some (.bcopy (headOf w) (.ofCode (fld w 24 3)) (bit w 23) (BitVec.ofNat 8 (fld w 15 8)) (.ofCode (fld w 13 2)) (Fin.ofNat 128 (fld w 6 7)) (Fin.ofNat 16 (fld w 2 4)) (sNum (fld w 27 9)))
  | 0xB2 => some (.gather (headOf w) (.ofCode (fld w 24 3)) (bit w 23) (BitVec.ofNat 8 (fld w 15 8)) (.ofCode (fld w 13 2)) (.ofCode (fld w 0 2)) (sNum (fld w 27 9)))
  | 0xB3 => some (.scatter (headOf w) (.ofCode (fld w 24 3)) (bit w 23) (BitVec.ofNat 8 (fld w 15 8)) (.ofCode (fld w 13 2)) (.ofCode (fld w 0 2)) (sNum (fld w 27 9)))
  | 0xB4 => some (.unpack (headOf w) (.ofCode (fld w 24 3)) (bit w 23) (BitVec.ofNat 8 (fld w 15 8)) (.ofCode (fld w 13 2)) (.ofCode (fld w 0 2)) (sNum (fld w 27 9)))
  | 0xC0 => some (.mma (headOf w) (sNum (fld w 27 9)))
  | 0xC1 => some (.maccrd (headOf w) (.ofCode (fld w 0 4)) (.ofCode (fld w 36 9)) (.ofCode (fld w 27 9)))
  | 0xC2 => some (.maccwr (headOf w) (.ofCode (fld w 0 4)) (.ofCode (fld w 27 9)) (.ofCode (fld w 18 9)))
  | 0xC3 => some (.maccz (headOf w) (Fin.ofNat 16 (fld w 0 4)) (Fin.ofNat 32 (fld w 4 5)))
  | _ => none

/-- The word of opcodes 0xD0 to 0xFF of R99, its reserved bits unchecked. -/
def parseCtl (op w : Nat) : Option Instr :=
  match op with
  | 0xD0 => some (.bra (headOf w) (bit w 44) (.ofCode (fld w 42 2)) ⟨Fin.ofNat 8 (fld w 39 3), bit w 38⟩ (BitVec.ofNat 32 (fld w 0 32)))
  | 0xD1 => some (.brx (headOf w) (bit w 26) (.ofCode (fld w 27 9)))
  | 0xD2 => some (.call (headOf w) (bit w 44) (.ofCode (fld w 42 2)) ⟨Fin.ofNat 8 (fld w 39 3), bit w 38⟩ (BitVec.ofNat 32 (fld w 0 32)))
  | 0xD3 => some (.ret (headOf w) (bit w 26) (.ofCode (fld w 27 9)))
  | 0xD4 => some (.exit (headOf w))
  | 0xD5 => some (.join (headOf w))
  | 0xD8 => some (.yield (headOf w) (BitVec.ofNat 16 (fld w 0 16)))
  | 0xD9 => some (.nop (headOf w))
  | 0xDA => some (.launch (headOf w) (sNum (fld w 36 9)) (sNum (fld w 27 9)) (Fin.ofNat 16 (fld w 0 4)))
  | 0xDB => some (.trap (headOf w) (BitVec.ofNat 32 (fld w 4 32)))
  | 0xDC => some (.brk (headOf w) (BitVec.ofNat 32 (fld w 4 32)))
  | 0xDD => some (.rdsr (headOf w) (.ofCode (fld w 36 9)) (Fin.ofNat 1024 (fld w 0 10)))
  | 0xDE => some (.wrsr (headOf w) (Fin.ofNat 1024 (fld w 0 10)) (.ofCode (fld w 27 9)))
  | 0xDF => some (.rdtime (headOf w) (sNum (fld w 36 9)))
  | 0xE0 => match fld w 26 1 with
    | 0 => some (.leaseDecl (headOf w) (Fin.ofNat 256 (fld w 0 8)))
    | _ => some (.leaseMeas (headOf w) (Fin.ofNat 256 (fld w 0 8)))
  | _ => none

/-- The term a word's fields spell, its reserved bits unchecked; none where its opcode is unassigned (R91). -/
def parse (w : Nat) : Option Instr :=
  let op := fld w 56 8
  if op < 0x20 then parseInt op w
  else if op < 0x50 then parseFloat op w
  else if op < 0x70 then parseLane op w
  else if op < 0xA0 then parseMem op w
  else if op < 0xD0 then parseSync op w
  else parseCtl op w

/-- What the decoder makes of a word: an instruction, or the reason the word is none (R103). -/
inductive Decoded where
  | instr (i : Instr)
  /-- No table lists the opcode. -/
  | unassignedOpcode (op : Nat)
  /-- A type, operand, count or head field holds a value that the instruction does not accept. -/
  | notAccepted (i : Instr)
  /-- A bit that must be 0 is 1, or a field holds a reserved code. -/
  | reservedBits
deriving DecidableEq, Repr

/-- The decoder of R91 to R103. -/
def decode (w : DWord) : Decoded :=
  match parse w.toNat with
  | none => .unassignedOpcode (fld w.toNat 56 8)
  | some i => if encode i != w then .reservedBits else if i.wf then .instr i else .notAccepted i

/-- The instruction a word holds, if it holds one. -/
def decodeWord (w : DWord) : Option Instr :=
  match decode w with
  | .instr i => some i
  | .unassignedOpcode _ | .notAccepted _ | .reservedBits => none

/-! ### Words in memory -/

/-- Little-endian bytes to a number (R5). -/
def leNat : List Byte → Nat
  | [] => 0
  | b :: r => b.toNat + 256 * leNat r

/-- The n low bytes of a number, least significant first (R5). -/
def leBytes : Nat → Nat → List Byte
  | 0, _ => []
  | n + 1, x => BitVec.ofNat 8 x :: leBytes n (x / 256)

/-- One instruction word from the front of a list of bytes, with the bytes after it (R61). -/
def decodeBytes (bs : List Byte) : Option (Instr × List Byte) :=
  if bs.length < 8 then none
  else (decodeWord (BitVec.ofNat 64 (leNat (bs.take 8)))).map (fun i => (i, bs.drop 8))

/-- The instruction read from a word whose low nbits bits are w, the bits above them 0. -/
def decodeTableWord (nbits w : Nat) : Option Instr :=
  (decodeBytes (leBytes 8 (w % 2 ^ nbits))).map Prod.fst

end Sys2Proof
end

