-- ==== Sys2Proof/Machine/IntArith.lean ====
section
/-! DEFINITION. The integer operations of chapter 06 on values held in 64 bits: an operand is read at the type's width, and a result
is extended from that width as R105 says. -/
namespace Sys2Proof.Machine

/-- The number an operand holds at a type's width (R105). -/
def ival (ty : Ty) (x : DWord) : Int :=
  let n := x.toNat % 2 ^ ty.width
  if ty.signed && n ≥ 2 ^ (ty.width - 1) then (n : Int) - 2 ^ ty.width else n

/-- A number written at a type's width: its low bits, extended to 32 bits by signedness (R105); a 32-bit element is
zero-extended to 64 (R76). -/
def iput (ty : Ty) (z : Int) : DWord :=
  let n := (z % (2 ^ ty.width : Int)).toNat
  if ty.width < 32 && ty.signed && n ≥ 2 ^ (ty.width - 1) then BitVec.ofNat 64 (n + 2 ^ 32 - 2 ^ ty.width)
  else BitVec.ofNat 64 n

/-- The least number of an integer type (R105). -/
def imin (ty : Ty) : Int := if ty.signed then -(2 ^ (ty.width - 1) : Int) else 0

/-- The greatest number of an integer type (R105). -/
def imax (ty : Ty) : Int := if ty.signed then (2 ^ (ty.width - 1) : Int) - 1 else (2 ^ ty.width : Int) - 1

/-- A number clamped to the range of a type (R135). -/
def iclampTo (ty : Ty) (z : Int) : Int := if z < imin ty then imin ty else if z > imax ty then imax ty else z

/-- A result wrapped, or clamped with SAT (R134, R135). -/
def ires (ty : Ty) (sat : Bool) (z : Int) : DWord := iput ty (if sat then iclampTo ty z else z)

/-- The low bits of an operand, unsigned. -/
def ubits (ty : Ty) (x : DWord) : Nat := x.toNat % 2 ^ ty.width

/-- A bit pattern written at a type's width. -/
def uput (ty : Ty) (n : Nat) : DWord := iput ty n

/-- IMULHI (R134): bits 2w - 1 to w of the product. -/
def mulhi (ty : Ty) (a b : DWord) : DWord := iput ty ((ival ty a * ival ty b) / (2 ^ ty.width : Int))

/-- IABS (R136): the magnitude of an .I type, which for the least number wraps to itself. -/
def iabs (ty : Ty) (sat : Bool) (a : DWord) : DWord := ires ty sat (if ival ty a < 0 then -(ival ty a) else ival ty a)

/-- LEA (R137). -/
def lea (ty : Ty) (sh : Nat) (a b : DWord) : DWord := a + BitVec.ofInt 64 (ival ty b * (2 ^ sh : Int))

/-- The shift amount of R139: the low min(w, 32) bits of the operand. -/
def shamt (ty : Ty) (b : DWord) : Nat := b.toNat % 2 ^ (min ty.width 32)

/-- SHL (R139). -/
def shl (ty : Ty) (a b : DWord) : DWord :=
  if shamt ty b ≥ ty.width then 0 else uput ty (ubits ty a <<< shamt ty b)

/-- SHR (R139). -/
def shr (ty : Ty) (a b : DWord) : DWord :=
  if shamt ty b ≥ ty.width then 0 else uput ty (ubits ty a >>> shamt ty b)

/-- SAR (R139): filled with bit w - 1 whatever the signedness of the type. -/
def sar (ty : Ty) (a b : DWord) : DWord :=
  let n := ubits ty a
  let z : Int := if n ≥ 2 ^ (ty.width - 1) then (n : Int) - 2 ^ ty.width else n
  iput ty (z / (2 ^ (min (shamt ty b) ty.width) : Int))

/-- ROTL (R139). -/
def rotl (ty : Ty) (a b : DWord) : DWord :=
  let n := shamt ty b % ty.width
  uput ty ((ubits ty a <<< n) ||| (ubits ty a >>> (ty.width - n)))

/-- BFX (R140). -/
def bfx (ty : Ty) (a : DWord) (pos len : Nat) : DWord :=
  if len = 0 then 0
  else
    let l := min len ty.width
    let f := (ival ty a / (2 ^ pos : Int)) % (2 ^ l : Int)
    iput ty (if ty.signed && f ≥ (2 ^ (l - 1) : Int) then f - 2 ^ l else f)

/-- BFI (R140). -/
def bfi (ty : Ty) (a base : DWord) (pos len : Nat) : DWord :=
  if pos ≥ ty.width then uput ty (ubits ty base)
  else
    let m := (2 ^ (min len (ty.width - pos)) - 1) <<< pos
    let b := ubits ty base
    uput ty ((b &&& (2 ^ ty.width - 1 - m)) ||| ((ubits ty a <<< pos) &&& m))

/-- CLZ (R141). -/
def clz (ty : Ty) (a : DWord) : DWord :=
  let n := ubits ty a
  uput ty (if n = 0 then ty.width else ty.width - 1 - Nat.log2 n)

/-- POPC (R141). -/
def popc (ty : Ty) (a : DWord) : DWord :=
  uput ty ((List.range ty.width).filter (fun i => (ubits ty a).testBit i)).length

/-- BREV (R141). -/
def brev (ty : Ty) (a : DWord) : DWord :=
  uput ty ((List.range ty.width).foldl (fun r i => 2 * r + (if (ubits ty a).testBit i then 1 else 0)) 0)

/-- The condition of ICMP (R142). -/
def icond (c : ICond) (a b : Int) : Bool :=
  match c with
  | .eq => a == b
  | .ne => a != b
  | .lt => a < b
  | .le => a ≤ b
  | .gt => a > b
  | .ge => a ≥ b

/-- I2I (R119). -/
def i2i (dty sty : Ty) (sat : Bool) (a : DWord) : DWord := ires dty sat (ival sty a)

end Sys2Proof.Machine
end

