-- ==== Sys2Proof/Machine/Flags.lean ====
section
/-! DEFINITION. The outcomes an instruction leaves as single bits: the conditions of compares (R100, R142, R148), predicate specs
(R143, R164), and the flags of a counter word (R227). The device keeps no arithmetic flags (R109). -/
namespace Sys2Proof.Machine

/-- The condition of FCMP (R148). -/
def fcond (c : FCond) (ty : Ty) (a b : Nat) : Bool :=
  match c, fcmpv (fdec ty a) (fdec ty b) with
  | .eq, o => o == some .eq
  | .ne, o => o != some .eq
  | .lt, o => o == some .lt
  | .le, o => o == some .lt || o == some .eq
  | .gt, o => o == some .gt
  | .ge, o => o == some .gt || o == some .eq
  | .un, o => o == none
  | .ord, o => o != none

/-- ICMP at a type's width (R142). -/
def icmpBit (c : ICond) (ty : Ty) (a b : DWord) : Bool := icond c (ival ty a) (ival ty b)

/-! ### Counter words (R227): the value in bits 61 to 0, ERR in bit 62, RETIRED in bit 63 -/

/-- ERR. -/
def ctrErr (w : DWord) : Bool := w.getLsbD 62
/-- RETIRED. -/
def ctrRetired (w : DWord) : Bool := w.getLsbD 63
/-- The value. -/
def ctrValue (w : DWord) : Nat := w.toNat % 2 ^ 62
/-- A counter word from its parts. -/
def ctrWord (v : Nat) (err ret : Bool) : DWord :=
  BitVec.ofNat 64 (v % 2 ^ 62 + (if err then 2 ^ 62 else 0) + (if ret then 2 ^ 63 else 0))

/-- The word after an add of an increment, whose bit 62 sets ERR; a sum above 2^62 - 1 sticks there and sets ERR (R231). -/
def ctrPlus (w inc : DWord) : DWord :=
  let sum := ctrValue w + ctrValue inc
  let past := decide (sum > 2 ^ 62 - 1)
  ctrWord (if past then 2 ^ 62 - 1 else sum) (ctrErr w || ctrErr inc || past) (ctrRetired w)

/-- A wait for a target has ended: the value reached it, or ERR or RETIRED is set (R232). -/
def ctrReached (w target : DWord) : Bool := ctrErr w || ctrRetired w || decide (target.toNat ≤ ctrValue w)

/-- The target a CTRARV waits for: the next multiple of n above the old value v, n = 0 acting as 1 (R233). -/
def arvTarget (v : Nat) (n : DWord) : DWord :=
  let k := if n.toNat = 0 then 1 else n.toNat
  BitVec.ofNat 64 (min (2 ^ 64 - 1) ((v / k + 1) * k))

end Sys2Proof.Machine
end

