-- ==== Sys2Proof/Machine/Warp.lean ====
section
/-! DEFINITION. The registers of a warp as plain data (R14, R36 to R40, R272, R277 to R283): slots and map tags, the map table
file, the L file, scalar and predicate registers, the lane program counters, the scoreboards and the draw counts, and the clause a
warp is in. -/
namespace Sys2Proof.Machine

/-- A map of 32 threads: the slot of each, `none` for VOID (R36). -/
abbrev LMap := List (Option (Fin 32))

/-- A V or O register: 32 slots and its map tag (R36, R37). -/
structure VReg where
  slots : List Word
  tag : BitVec 16
deriving DecidableEq, Repr

/-- One table of the map table file (R40). -/
structure MapTable where
  ents : LMap
  inj : Bool
  ref : Nat
deriving DecidableEq, Repr

/-- One entry of the L file (R40, R77): the copied register, its resolved map, the class, G and K it was written with (a TABLE
tag's index is kept as 0), whether it is the result of an S destination, the encoded time from which it is readable, and whether
run-ahead poisoned it (R307). -/
structure LEntry where
  scalar : Bool
  slots : List Word
  map : LMap
  tag : BitVec 16
  ready : Nat
  poison : Bool := false
deriving DecidableEq, Repr

/-- The STATE of a lane program counter (R14). -/
inductive LaneState where
  | run | due | joined | exited
deriving DecidableEq, Repr

/-- One entry of LPC (R14). -/
structure Lpc where
  st : LaneState
  age : Nat
  waddr : BitVec 54
deriving DecidableEq, Repr

/-- A register a result or a source stands in. -/
inductive Reg where
  | v (n : Nat) | o (n : Nat) | s (n : Nat) | p (n : Nat)
deriving DecidableEq, Repr

/-- A destination of a variable-latency instruction whose result is not yet known to be written (R83): the register, the
scoreboard that counts it, the access that writes it, and the threads it writes that nothing has written since. -/
structure Outst where
  reg : Reg
  sb : Option (Fin 6)
  acc : Nat
  mask : Mask
deriving DecidableEq, Repr

/-- What a trap says (R283, R284), before the warp's position is added. -/
structure TrapInfo where
  code : BitVec 8
  mask : Mask
  reason : BitVec 8 := 0
  lowv : Bool := false
  lowest : Nat := 0
  addr : DWord := 0
  imm : BitVec 32 := 0
deriving DecidableEq, Repr

/-- A wait of CTRWAIT or CTRARV (R232, R233): the counter's address, the value waited for, the predicate and the threads it is
written for, whether the wait releases and acquires, and at which scope (R229), the number of accesses issued before it, and the instruction's
major opcode (R334). -/
structure CtrWait where
  addr : DWord
  target : DWord
  pd : Fin 7
  mask : Mask
  rel : Bool
  acq : Bool
  scope : Scope
  before : Nat := 0
  opc : Nat := 0
deriving DecidableEq, Repr

/-- The clause a warp is in (R61 to R85): its header address, class and words; the issue set; the number of instructions done;
the encoded time at which the next instruction may start; the registers that hold fixed-latency results with the times from which
they are readable and the threads they stand for; the L file, latest first. -/
structure Clause where
  addr : DWord
  cls : Nat
  yld : Bool
  words : List DWord
  iset : Mask
  idx : Nat
  start : Nat
  pend : List (Reg × Nat × Mask)
  lfile : List (Option LEntry)
deriving DecidableEq, Repr

/-- What is left to do when an instruction has been accepted (R79 to R85): its head, the extra clk it owes, its fixed latency, the
registers it writes, D first, and others with latencies of their own, the threads it writes for, the threads whose WADDR it has set,
whether each thread of the issue set advances its draw count, the results still to come, the registers it overwrites before their time
(R84), whether an access or a copy takes its scoreboard count down later (R82), whether run-ahead poisons what it writes (R307),
and the trap it raises once it is done (R222). -/
structure Finish where
  head : Head
  extra : Nat := 0
  lat : Option Nat := none
  writes : List Reg := []
  also : List (Reg × Nat) := []
  wrote : Mask := BitVec.allOnes 32
  moved : Mask := 0
  draws : Bool := false
  outst : List Outst := []
  early : List Reg := []
  accsBefore : Nat := 0
  counted : Bool := false
  poison : Bool := false
  trap : Option TrapInfo := none
deriving DecidableEq, Repr

/-- What an instruction waits for before its first clk (R80, R246, R261, R353, R287): room in a scoreboard, in the core's copy queue or its
matrix queue, or among the lines its block may stage; or, to read an event counter, the warp's own events. -/
inductive IssueWait where
  | sb (i : Fin 6) | copies | mmas | stage | count (ev : Nat)
deriving DecidableEq, Repr

/-- What holds a warp at a clause boundary or before an instruction: nothing; counters (each with whether it holds a wait-table entry, R232,
R237); a DRAIN (R213); the interval of a YIELD (R221); pages of a batch (R305); the single page of its fetch (R64); a fence, or
an instruction that waits before its first clk for a scoreboard or a queue (R80); an access that is not yet accepted (R185, R204,
R210); the add of a CTRARV (R233); and the end of run-ahead (R308). -/
inductive Hold where
  | none
  | counter (ws : List (CtrWait × Bool))
  | drain (ms : List DrainMem)
  | yield (until_ : Nat)
  | batch
  | fetch (page : Nat)
  | fence (scope : Scope) (mode : FenceMode)
  | issue (why : IssueWait)
  | accept (acc : Nat)
  | arrive (acc : Nat)
  | stop
deriving DecidableEq, Repr

/-- The states of R396: waiting, ready, active or trapped; a warp that has ended (R220); and one whose gang is saved, which may have been
TRAPPED (R406, R407). -/
inductive WarpState where
  | waiting | ready | active | trapped | ended | saved (trapped : Bool)
deriving DecidableEq, Repr

/-- The resume point of a trapped warp (R398). -/
structure Resume where
  iset : Mask
  done : Bool
  head : Bool
  index : Nat
  caddr : BitVec 54
deriving DecidableEq, Repr

/-- A warp's architectural registers (R272). -/
structure Regs where
  v : List VReg
  o : List VReg
  s : List DWord
  p : List Mask
  mt : List MapTable
  lpc : List Lpc
  sb : List Nat
  draws : List DWord
deriving DecidableEq, Repr

/-- A register right after the warp starts (R272). -/
def VReg.zero : VReg := { slots := List.replicate 32 0, tag := 0 }

/-- A free table (R40). -/
def MapTable.free : MapTable := { ents := (List.finRange 32).map some, inj := true, ref := 0 }

/-- The registers of a warp when it starts (R15, R272): the allotment and the role's entry address. -/
def Regs.start (allot : Nat) (entry : DWord) : Regs :=
  { v := List.replicate allot .zero
    o := List.replicate 8 .zero
    s := List.replicate 64 0
    p := List.replicate 7 0
    mt := List.replicate 16 .free
    lpc := List.replicate 32 { st := .run, age := 0, waddr := entry.extractLsb' 3 54 }
    sb := List.replicate 6 0
    draws := List.replicate 32 0 }

end Sys2Proof.Machine
end

