-- ==== Sys2Proof/Machine/Lanes.lean ====
section
/-! DEFINITION. Lane maps (chapter 02): tags and the maps they describe, the map table file, composition, firing, and the anchor
rule by which an instruction's sources meet and its destination is written. All functions act on a warp's registers alone. -/
namespace Sys2Proof.Machine

/-- The threads of a warp, in thread order. -/
def threads : List Nat := List.range 32

/-- Thread t is in a mask. -/
def inMask (m : Mask) (t : Nat) : Bool := m.getLsbD t

/-- The mask of the threads that satisfy a test. -/
def maskOf (p : Nat → Bool) : Mask :=
  threads.foldl (fun m t => if p t then m ||| (1#32 <<< t) else m) 0

/-- Every thread of the warp. -/
def fullMask : Mask := BitVec.allOnes 32

/-- The lowest thread of a mask, 0 when it is empty. -/
def lowestOf (m : Mask) : Nat := (threads.find? (inMask m)).getD 0

/-- The number of threads in a mask. -/
def countOf (m : Mask) : Nat := (threads.filter (inMask m)).length

/-- The entry of thread t. -/
def LMap.at (m : LMap) (t : Nat) : Option (Fin 32) := m.getD t none

/-- The map given by a function of the thread. -/
def LMap.ofFn (f : Nat → Option (Fin 32)) : LMap := threads.map f

/-- The identity map. -/
def LMap.ident : LMap := .ofFn (fun t => some (Fin.ofNat 32 t))

/-- The map that is VOID for every thread. -/
def LMap.void : LMap := .ofFn (fun _ => none)

/-! ### Tags (R37 to R39) -/

/-- CLASS of a tag (R37): 0 IDENT, 1 XOR, 2 ROT, 3 BCAST, 4 REV, 5 TABLE, 6 VOID. -/
def tagClass (t : BitVec 16) : Nat := t.toNat / 8192
/-- G of a tag (R37). -/
def tagG (t : BitVec 16) : Nat := t.toNat / 1024 % 8
/-- K of a tag (R37). -/
def tagK (t : BitVec 16) : Nat := t.toNat / 32 % 32
/-- TIX of a tag (R37). -/
def tagTix (t : BitVec 16) : Nat := t.toNat % 32

/-- A tag from its fields (R37). -/
def mkTag (cls g k tix : Nat) : BitVec 16 := BitVec.ofNat 16 (cls * 8192 + g * 1024 + k * 32 + tix)

/-- The bit length of a number below 32: the G of an XOR tag (R38). -/
def bitLen5 (k : Nat) : Nat :=
  if k = 0 then 0 else if k < 2 then 1 else if k < 4 then 2 else if k < 8 then 3 else if k < 16 then 4 else 5

/-- The constraints of R38. -/
def tagOk (t : BitVec 16) : Bool :=
  let g := tagG t
  let k := tagK t
  match tagClass t with
  | 0 => t == 0
  | 1 => 1 ≤ k && g == bitLen5 k && tagTix t == 0
  | 2 => 1 ≤ g && g ≤ 5 && 1 ≤ k && k < 2 ^ g && tagTix t == 0
  | 3 => 1 ≤ g && g ≤ 5 && k < 2 ^ g && tagTix t == 0
  | 4 => 1 ≤ g && g ≤ 5 && k < 2 ^ g && !(g == 1 && k == 0) && tagTix t == 0
  | 5 => g == 0 && k == 0 && tagTix t ≤ 15
  | 6 => g == 0 && k == 0 && tagTix t == 0
  | _ => false

/-- The slot a pattern class gives thread t (R38). -/
def patAt (cls g k t : Nat) : Nat :=
  let low := t % 2 ^ g
  let base := t - low
  match cls with
  | 1 => t ^^^ k
  | 2 => base + (low + k) % 2 ^ g
  | 3 => base + k
  | 4 => base + (k + 2 ^ g - low) % 2 ^ g
  | _ => t

/-- The map a tag describes under a table file (R38). DESIGN CHOICE (log 86): the reserved class 7, which only a restore can write, describes
the identity where a tag is used without being read. -/
def tagMap (mt : List MapTable) (t : BitVec 16) : LMap :=
  match tagClass t with
  | 5 => (mt.getD (tagTix t) .free).ents
  | 6 => .void
  | c => .ofFn (fun i => some (Fin.ofNat 32 (patAt c (tagG t) (tagK t) i)))

/-- No two of the threads of a set hold the same slot (R49). -/
def LMap.injOn (m : LMap) (s : Mask) : Bool :=
  threads.all (fun t => threads.all (fun u =>
    !(t < u && inMask s t && inMask s u && (m.at t).isSome && m.at t == m.at u)))

/-- A map whose tag needs no table (R39): the identity and the all-VOID map. -/
def canonTag (m : LMap) : Option (BitVec 16) :=
  if m == .ident then some (mkTag 0 0 0 0)
  else if threads.all (fun t => (m.at t).isNone) then some (mkTag 6 0 0 0)
  else none

/-! ### Registers -/

/-- A V or O register of the warp. -/
def Regs.vreg (r : Regs) : Reg → VReg
  | .v n => r.v.getD n .zero
  | .o n => r.o.getD n .zero
  | .s _ | .p _ => .zero

/-- Replace a V or O register. -/
def Regs.setVreg (r : Regs) (x : Reg) (y : VReg) : Regs :=
  match x with
  | .v n => { r with v := r.v.set n y }
  | .o n => { r with o := r.o.set n y }
  | .s _ | .p _ => r

/-- The register after it: the odd half of a pair (R76). -/
def Reg.succ : Reg → Reg
  | .v n => .v (n + 1)
  | .o n => .o (n + 1)
  | .s n => .s (n + 1)
  | .p n => .p n

/-- The V, O or S register an operand names. -/
def opndReg? : Opnd → Option Reg
  | .v n => some (.v n.val)
  | .o n => some (.o n.val)
  | .s n => some (.s n.val)
  | .c _ | .l _ | .vz | .vtid | .vlane => none

/-- The registers of an operand: the pair of a 64-bit V or O operand (R76). -/
def opndRegs (wide : Bool) (x : Opnd) : List Reg :=
  match opndReg? x with
  | none => []
  | some (.s n) => [.s n]
  | some g => if wide then [g, g.succ] else [g]

/-- The map of a V or O register. -/
def Regs.map (r : Regs) (x : Reg) : LMap := tagMap r.mt (r.vreg x).tag

/-- Thread t's element of a register, `none` where it is VOID (R36). -/
def Regs.elem (r : Regs) (x : Reg) (t : Nat) : Option Word :=
  ((r.map x).at t).map (fun p => (r.vreg x).slots.getD p.val 0)

/-! ### Firing (R45, R46) -/

/-- The slots after a fire: slot t holds what map entry t names (R45). -/
def fireSlots (slots : List Word) (m : LMap) : List Word :=
  threads.map (fun t => match m.at t with
    | some p => slots.getD p.val 0
    | none => slots.getD t 0)

/-- The map after a fire (R45). -/
def fireMap (m : LMap) : LMap := .ofFn (fun t => (m.at t).map (fun _ => Fin.ofNat 32 t))

/-- The slots a fire moves (R45). -/
def fireMoves (m : LMap) : Nat := (threads.filter (fun t => match m.at t with
  | some p => p.val != t
  | none => false)).length

/-- The clk an auto-fire or a VFIRE of a register costs (R46, R173). -/
def fireCost (m : LMap) : Nat := if fireMoves m = 0 then 0 else 2 + (fireMoves m + 7) / 8

/-! ### Writing tags (R41) -/

/-- What writing through the lane maps did: the registers, the extra clk owed, and what the event counters LANEMOVE and AUTOFIRE
count (R56, R286). -/
structure LaneRes where
  regs : Regs
  extra : Nat := 0
  lanemove : Nat := 0
  autofire : Nat := 0
deriving DecidableEq, Repr

/-- Change the REF of the table a tag names. -/
def refTag (mt : List MapTable) (t : BitVec 16) (f : Nat → Nat) : List MapTable :=
  if tagClass t == 5 then
    mt.modify (tagTix t) (fun e => { e with ref := f e.ref })
  else mt

/-- Step 3 of R41 for each register a result overwrites. -/
def releaseTags (r : Regs) (ds : List Reg) : Regs :=
  { r with mt := ds.foldl (fun mt d => refTag mt (r.vreg d).tag (· - 1)) r.mt }

/-- Give each of the registers a tag, counting the references of its table (R41 step 4, R55). -/
def giveTag (r : Regs) (ds : List Reg) (t : BitVec 16) : Regs :=
  let r := { r with mt := ds.foldl (fun mt _ => refTag mt t (· + 1)) r.mt }
  ds.foldl (fun r d => r.setVreg d { r.vreg d with tag := t }) r

/-- The lowest-numbered free table (R41). -/
def freeTable (mt : List MapTable) : Option Nat := (List.range 16).find? (fun k => (mt.getD k .free).ref == 0)

/-- Write the map of a result into the registers it is written to (R41, R46, R47): by reference where a tag is given, in canonical
form where that needs no table, else in a new table; with no table free, the result auto-fires, and where the fired map would still
need one, the threads whose entries would be VOID trap. DESIGN CHOICE (log 84): a pair auto-fires as two registers, each with its cost and
its count. -/
def writeMap (r : Regs) (ds : List Reg) (m : LMap) (byRef : Option (BitVec 16)) : Except Mask LaneRes :=
  let r := releaseTags r ds
  match byRef with
  | some t => .ok { regs := giveTag r ds t }
  | none =>
    match canonTag m with
    | some t => .ok { regs := giveTag r ds t }
    | none =>
      match freeTable r.mt with
      | some k =>
        let r := { r with mt := r.mt.set k { ents := m, inj := m.injOn fullMask, ref := 0 } }
        .ok { regs := giveTag r ds (mkTag 5 0 0 k) }
      | none =>
        let m' := fireMap m
        match canonTag m' with
        | none => .error (maskOf (fun t => (m'.at t).isNone))
        | some t =>
          let r := ds.foldl (fun r d => r.setVreg d { r.vreg d with slots := fireSlots (r.vreg d).slots m }) r
          .ok { regs := giveTag r ds t, extra := ds.length * fireCost m, autofire := ds.length }

/-! ### Composition (R44) -/

/-- The pattern tag of a pattern edit, in the classes of R38 and canonical under R39. -/
def canonPat (cls g k : Nat) : BitVec 16 :=
  if g = 0 || (cls = 1 && k = 0) || (cls = 2 && k = 0) || (cls = 4 && g = 1 && k = 0) then mkTag 0 0 0 0
  else mkTag cls (if cls = 1 then bitLen5 k else g) k 0

/-- R44: the tag of m composed with a pattern, `none` where it is a TABLE (case 11). -/
def composeTag (m p : BitVec 16) : Option (BitVec 16) :=
  let cm := tagClass m
  let cp := tagClass p
  let gm := tagG m
  let gp := tagG p
  let km := tagK m
  let kp := tagK p
  let n := 2 ^ gp
  let isPat := fun (c : Nat) => c = 1 || c = 2 || c = 3 || c = 4
  if cp = 0 then some m
  else if cm = 0 then some p
  else if cm = 6 || cp = 6 then some (mkTag 6 0 0 0)
  else if cm = 1 && cp = 1 then some (canonPat 1 5 (km ^^^ kp))
  else if cm = 2 && cp = 2 && gm = gp then some (canonPat 2 gp ((km + kp) % n))
  else if cm = 4 && cp = 4 && gm = gp then some (canonPat 2 gp ((km + n - kp) % n))
  else if cm = 2 && cp = 4 && gm = gp then some (canonPat 4 gp ((km + kp) % n))
  else if cm = 4 && cp = 2 && gm = gp then some (canonPat 4 gp ((km + n - kp) % n))
  else if cp = 3 && isPat cm && gm ≤ gp then some (canonPat 3 gp (patAt cm gm km kp))
  else if cm = 3 && isPat cp && gp ≤ gm then some (canonPat 3 gm km)
  else none

/-! ### Sources (R48) -/

/-- A source as an instruction meets it: the value of each thread (`none` for VOID); its maps (two for a pair, none for a broadcast
or generated source); the tag a result may take with the map, absent for an L entry of class TABLE (R40); whether it is injective
(R49); and whether it is generated, VLANE among them. -/
structure Src where
  vals : List (Option DWord)
  maps : List LMap
  tag : Option (BitVec 16)
  inj : Bool
  gen : Bool
  lane : Bool
deriving DecidableEq, Repr

/-- One value for every thread (R48). -/
def Src.bcast (v : DWord) : Src :=
  { vals := threads.map (fun _ => some v), maps := [], tag := none, inj := false, gen := false, lane := false }

/-- A source that has a map of its own. -/
def Src.mapped (x : Src) : Bool := !x.maps.isEmpty

/-- The map of a source, of the even register for a pair (R55). -/
def Src.map (x : Src) : LMap := x.maps.headD .ident

/-- The value of thread t, where it has one. -/
def Src.at (x : Src) (t : Nat) : Option DWord := x.vals.getD t none

/-- R49, with the INJ bit of a TABLE (R40). -/
def tagInj (mt : List MapTable) (t : BitVec 16) : Bool :=
  match tagClass t with
  | 3 => false
  | 5 => (mt.getD (tagTix t) .free).inj
  | _ => true

/-- A V or O register, or a pair of them, as a source. -/
def srcReg (r : Regs) (x : Reg) (wide : Bool) : Src :=
  let lo := r.map x
  let hi := r.map x.succ
  { vals := threads.map (fun t =>
      if wide then
        match r.elem x t, r.elem x.succ t with
        | some a, some b => some (b ++ a)
        | _, _ => none
      else (r.elem x t).map (fun a => a.setWidth 64))
    maps := if wide then [lo, hi] else [lo]
    tag := some (r.vreg x).tag
    inj := tagInj r.mt (r.vreg x).tag
    gen := false
    lane := false }

/-- An L entry as a source (R40, R77). -/
def srcL (e : LEntry) : Src :=
  if e.scalar then .bcast ((e.slots.getD 0 0).setWidth 64)
  else
    { vals := threads.map (fun t => (e.map.at t).map (fun p => (e.slots.getD p.val 0).setWidth 64))
      maps := [e.map]
      tag := if tagClass e.tag = 5 then none else some e.tag
      inj := if tagClass e.tag = 5 then e.map.injOn fullMask else tagInj [] e.tag
      gen := false
      lane := false }

/-- The thread numbers, VTID (R48). -/
def srcTid (lane : Bool) : Src :=
  { vals := threads.map (fun t => some (BitVec.ofNat 64 t)), maps := [], tag := none, inj := false, gen := true, lane := lane }

/-- Some mapped source is VOID for a thread. DEDUCED (log 85): every mapped source an instruction names counts as read for each active thread,
both operands of SEL among them. -/
def srcVoid (srcs : List Src) (t : Nat) : Bool := srcs.any (fun x => x.mapped && (x.at t).isNone)

/-- A map disagrees with the anchor on a set of threads (R49). -/
def disagrees (m anchor : LMap) (s : Mask) : Bool :=
  threads.any (fun t => inMask s t && (m.at t).isSome && (anchor.at t).isSome && m.at t != anchor.at t)

/-- The 32-bit registers the sources move to meet an anchor (R51, R55). -/
def sourceMoves (srcs : List Src) (anchor : LMap) (s : Mask) : Nat :=
  (srcs.map (fun x => (x.maps.filter (fun m => disagrees m anchor s)).length)).sum

/-- The values of thread t, VLANE read as the slot of the result (R48). -/
def argsAt (srcs : List Src) (anchor : LMap) (t : Nat) : List DWord :=
  srcs.map (fun x => if x.lane then BitVec.ofNat 64 (((anchor.at t).map Fin.val).getD t) else (x.at t).getD 0)

/-! ### The anchor rule (R50 to R55) -/

/-- Where results are computed: the slot of each thread, the tag a result with the anchor's own map may take, whether the
destination is fired first (R52), and the destination's entries for the threads that are not written. -/
structure Anchor where
  slots : LMap
  byRef : Option (BitVec 16)
  fire : Bool
  keep : LMap
deriving DecidableEq, Repr

/-- Step 1 of R51 over a set of threads: the first mapped source that is injective there, else IDENT. -/
def pickAnchor (srcs : List Src) (ok : Src → Bool) : LMap × Option (BitVec 16) :=
  match srcs.find? (fun x => x.mapped && ok x) with
  | some x => (x.map, x.tag)
  | none => (.ident, some (mkTag 0 0 0 0))

/-- R50, R51, R130 and R165 on a full warp. -/
def fullAnchor (srcs : List Src) : Anchor :=
  let vec := srcs.filter (fun x => x.mapped || x.gen)
  let (m, t) := match vec with
    | [x] => if x.mapped then (x.map, x.tag) else (.ident, some (mkTag 0 0 0 0))
    | _ => pickAnchor srcs Src.inj
  { slots := m, byRef := t, fire := false, keep := m }

/-- The destination is clean on the active threads (R52). -/
def cleanOn (d : LMap) (s : Mask) : Bool :=
  threads.all (fun t => !inMask s t ||
    ((d.at t).isSome && threads.all (fun u => u == t || d.at u != d.at t)))

/-- The entries of the registers of a destination together: a pair's element is VOID where either half is. -/
def pairMap (r : Regs) (ds : List Reg) : LMap :=
  .ofFn (fun t => if ds.all (fun d => ((r.map d).at t).isSome) then (r.map (ds.headD (.v 0))).at t else none)

/-- R52 on a partial warp: the destination anchors, fired first where it is not clean. DEDUCED (log 83): a pair whose halves have different
maps is fired too, since inactive threads keep their elements (R52) under the one tag that both halves receive (R55). DEDUCED (log 111): a destination that is
fired first receives its tag as R45 and R46 give it, with a table allocated anew, also where its final entries equal its old ones. -/
def partAnchor (r : Regs) (ds : List Reg) (act : Mask) : Anchor :=
  let d := ds.headD (.v 0)
  let dm := r.map d
  let fire := !(cleanOn dm act && ds.all (fun g => r.map g == dm))
  let dm' := if fire then fireMap (pairMap r ds) else dm
  { slots := .ofFn (fun t => some ((dm'.at t).getD (Fin.ofNat 32 t)))
    byRef := if fire then none else some (r.vreg d).tag
    fire := fire
    keep := dm' }

/-- The anchor of an instruction with a V or O destination, a register or a pair. -/
def anchorOf (r : Regs) (ds : List Reg) (act : Mask) (srcs : List Src) : Anchor :=
  if act == fullMask then fullAnchor srcs else partAnchor r ds act

/-- Fire the registers of a destination before it is written (R46, R52), each at its cost (log 84). -/
def fireDst (r : Regs) (ds : List Reg) : LaneRes :=
  { regs := ds.foldl (fun r' d => r'.setVreg d { r'.vreg d with slots := fireSlots (r.vreg d).slots (r.map d) }) r
    extra := (ds.map (fun d => fireCost (r.map d))).sum
    autofire := ds.length }

/-- Write one element, of the pair for a 64-bit result, into a slot (R55, R76). -/
def writeSlot (r : Regs) (ds : List Reg) (p : Nat) (x : DWord) : Regs :=
  match ds with
  | [] => r
  | [d] => r.setVreg d { r.vreg d with slots := (r.vreg d).slots.set p (x.setWidth 32) }
  | d :: e :: _ =>
    let r := r.setVreg d { r.vreg d with slots := (r.vreg d).slots.set p (x.setWidth 32) }
    r.setVreg e { r.vreg e with slots := (r.vreg e).slots.set p (x.extractLsb' 32 32) }

/-- Write results into the registers of a destination at an anchor (R130, R51 to R53, R55): the slots of the threads that have one,
the entries VOID where an active thread has none, and the tag. -/
def writeAt (r : Regs) (ds : List Reg) (act : Mask) (an : Anchor) (res : Nat → Option DWord) : Except Mask LaneRes :=
  let f := if an.fire then fireDst r ds else { regs := r }
  let r1 := threads.foldl (fun r t =>
    if inMask act t then
      match res t, an.slots.at t with
      | some x, some p => writeSlot r ds p.val x
      | _, _ => r
    else r) f.regs
  let m : LMap := .ofFn (fun t =>
    if inMask act t then (if (res t).isSome then an.slots.at t else none) else an.keep.at t)
  (writeMap r1 ds m (if m == an.keep then an.byRef else none)).map (fun w =>
    { w with extra := w.extra + f.extra, autofire := w.autofire + f.autofire })

/-- Compute and write a V or O destination under the anchor rule: f gives thread t's result from its arguments. DEDUCED (log 111): a destination that is
fired first and is also a source (as in a BFI of the FB form, R140) is read through its map before the fire (R41), and is charged a move where that map
disagrees with the anchor (R52). -/
def laneCompute (r : Regs) (ds : List Reg) (act : Mask) (srcs : List Src) (f : Nat → List DWord → DWord) :
    Except Mask LaneRes :=
  match ds with
  | [] => .ok { regs := r }
  | _ :: _ =>
    let an := anchorOf r ds act srcs
    let moves := sourceMoves srcs an.slots act
    (writeAt r ds act an (fun t =>
      if srcVoid srcs t || (an.slots.at t).isNone then none else some (f t (argsAt srcs an.slots t)))).map (fun w =>
        { w with extra := w.extra + moves, lanemove := w.lanemove + moves })

/-- The anchor of an instruction with a predicate destination (R54): step 1 of R51 over the active threads. -/
def predAnchor (act : Mask) (srcs : List Src) : LMap :=
  (pickAnchor srcs (fun x => x.map.injOn act)).1

end Sys2Proof.Machine
end

