-- ==== Sys2Proof/Machine/State.lean ====
section
/-! DEFINITION. The state of a module as plain data: memory and its hidden bits, caches, warps, blocks, gangs, launches, contexts,
engines, fabric, time and service state; the reasons a step can stop; and the module right after reset. Addresses are natural
numbers: a byte of a stack by its physical address, a byte of scratch and an LCM level at keys above every physical address
(`scrKey`, `lcmKey` in `Ops.lean`). -/
namespace Sys2Proof.Machine

/-- Memory: (address, byte) pairs, addresses strictly rising, no entry 0 (log 3: an unlisted byte reads 0). -/
abbrev Memory := List Host.Cell

/-- What the tag of a byte of a cached line says (R301): absent, clean, dirty, or written and not yet granted. -/
inductive LSt where
  | invalid | clean | dirty | pending
deriving DecidableEq, Repr

/-- A byte of a cached line. -/
structure LByte where
  v : Byte
  st : LSt
deriving DecidableEq, Repr

/-- A cached line (R295, R297, R298): its context's ASID, its virtual line number, its bytes, its read, write and execute
permissions, its replacement class (0 normal, 1 evict-first, 2 evict-last), whether a refused write-back holds it (R303), and whether
it is poisoned (R430). -/
structure Line where
  asid : Nat
  vline : Nat
  bytes : List LByte
  r : Bool
  w : Bool
  x : Bool
  cls : Nat
  held : Bool
  poison : Bool
deriving DecidableEq, Repr

/-- A warp of a block (R24, R335, R336): where it runs, its registers and everything its execution holds. `begun` says that it has started its
first clause (R276); `loadF` and `lostMax` are its context's LOADF and LOSTMAX as its last clause boundary found them (R290). `yielded` says
that its last clause carried YLD or held a YIELD; `stalled` names the registers that its STALL trap was about (R397); `pipe` is the pipe its clause holds (R80, R341), and `candAt` the clk since which its
clause has been a candidate for one. -/
structure Warp where
  block : Nat
  core : Nat
  role : Nat
  roleWarp : Nat
  blockWarp : Nat
  kind : Nat
  begun : Bool
  loadF : Nat
  lostMax : Nat
  regs : Regs
  wcr : DWord
  nextWcr : Option DWord
  nextSat : List Nat
  lastTime : DWord
  lease : DWord
  nextLease : Option (BitVec 9)
  fault : List DWord
  state : WarpState
  resume : Resume
  clause : Option Clause
  hold : Hold
  pending : Option Finish
  pendWait : List CtrWait
  pendDrain : List DrainMem
  pendYield : Option Nat
  wakeAt : Nat
  yielded : Bool
  pipe : Option Nat
  candAt : Option Nat
  outst : List Outst
  readyAt : Nat
  loadAt : Nat
  touched : List Nat
  victims : List Nat
  shrunk : Bool
  issued : Bool
  wback : Option DWord
  ahead : Bool
  aheadCount : Nat
  poisoned : List Reg
  stalled : List Reg := []
  batch : List Nat
  observed : List (Nat × Nat × Nat)
deriving DecidableEq, Repr

/-- A warp's state as run-ahead checkpointed it (R306), and how many accesses there had been (R309). -/
structure Checkpoint where
  warp : Nat
  regs : Regs
  clause : Option Clause
  outst : List Outst
  accs : Nat
deriving DecidableEq, Repr

/-- A slice waiting in a BCOPY collector (R243). -/
structure Slice where
  coll : Nat
  copy : Nat
deriving DecidableEq, Repr

/-- A block (R11, R288): its launch, gang and index, the cores it occupies, and what its record gives it (R34). -/
structure Block where
  launch : Nat
  gang : Nat
  ix : Nat
  cores : List Nat
  ragmask : BitVec 32
  group : BitVec 16
  rowbase : BitVec 32
  rflags : BitVec 8
  paramptr : DWord
  slices : List Slice
  finished : Bool
  failed : Bool
deriving DecidableEq, Repr

/-- A gang (R12, R13, R404, R406): its index, cluster, whether it is placed, being stopped for a save, saved, saved with an
error in its image (R433) or gone, how often it has been relaunched (R432), and the clk of the relaunch that made it (R433). -/
structure Gang where
  launch : Nat
  ix : Nat
  cluster : Nat
  placed : Bool
  stopping : Bool
  saved : Bool
  damaged : Bool
  killed : Bool
  relaunches : Nat
  againAt : Option Nat := none
deriving DecidableEq, Repr

/-- An entry of an ownership table (R349): the lines of its range, how many each block owns, and the owner of the first. -/
structure OwnEntry where
  base : DWord
  lines : Nat
  per : Nat
  first : Nat
deriving DecidableEq, Repr

/-- An accepted launch (R29 to R34, R349, R353): its packet, number and seed; what of it has been placed; its ownership table; the
ticket unit's NEXT, and the block, if it is NEXT, whose staged items have been released before its end. -/
structure Launch where
  ctx : Nat
  queue : Nat
  pkt : List Byte
  ix : Nat
  seed : BitVec 128
  startedAt : Nat
  started : Bool
  finished : Bool
  failed : Bool
  nextGang : Nat
  records : List (List Byte × Nat)
  recordsRead : Nat
  recordsEnd : Bool
  excessLogged : Bool
  blocksDone : Nat
  own : List OwnEntry
  next : Nat
  early : Option Nat
  stalled : Bool
  starvedAt : Nat
deriving DecidableEq, Repr

/-- A packet in a queue, with the address it was read from (R324, R333), whether it has been accepted, and its launch (R326). -/
structure QPkt where
  bytes : List Byte
  addr : DWord
  accepted : Bool
  launch : Option Nat
deriving DecidableEq, Repr

/-- A launch queue (R324). -/
structure Queue where
  valid : Bool
  hold : Bool
  logDepth : Nat
  pkts : List QPkt
  starts : Nat
  forwarding : Bool
deriving DecidableEq, Repr

/-- A fault log descriptor (R332): what the control complex writes, the count of entries produced and dropped; and whether an error has taken the log
itself (R434). -/
structure Log where
  base : DWord
  prodctr : DWord
  cons : DWord
  logn : Nat
  produced : Nat
  dropped : Nat
  lossDue : Bool
  gone : Bool
deriving DecidableEq, Repr

/-- A bounds table entry with its HIT bit (R354). -/
structure BoundsEntry where
  base : DWord
  top : DWord
  low : BitVec 32
  high : BitVec 32
  action : Fin 4
  hit : Bool
deriving DecidableEq, Repr

/-- Events counted in the last 2,048 clk (R287): when, which counter, by which warp, and how many. -/
structure Counted where
  at_ : Nat
  ev : Nat
  by_ : Option Nat
  n : Nat
deriving DecidableEq, Repr

/-- A context (R281, R286, R289, R343); `acceptedAt` is the clk of its last acceptance of a packet, and the queue (R359). -/
structure Ctx where
  live : Bool
  cxctl : DWord
  root : DWord
  btbase : DWord
  bpbase : DWord
  saggar : Nat
  func : Nat
  lcbase : List DWord
  events : List DWord
  recent : List Counted
  seeds : List (BitVec 128)
  queues : List Queue
  qlog : Log
  clog : Log
  tlog : Log
  unresolvable : List Nat
  nextLaunch : Nat
  acceptedAt : Nat × Nat
  cone : Nat
  switchedOut : Bool
deriving DecidableEq, Repr

/-- What an access does. -/
inductive AccOp where
  | load | loadRec (fmt : Bfmt) | store | prefetch | cflush | cinv | cdemote
  | add | min | max | and | or | xor | exch | cas
  | lcadd | lcmrg | lcrd | lcrdRaw | lcinit
  | ctrInit (ext : Bool) | ctrAdd | ctrArv | ctrRead | ctrKill | ctrFree
  | fenceop | launch (q : Fin 16)
  | macc
deriving DecidableEq, Repr

/-- One request of an access (R201, R376): the thread, the virtual address, the place it goes to, the size, the data and the compare
value (for an LC operation its draw word), and the register a loaded element goes to (the index in `dregs`); the register a stored element
comes from (the index in `srcs`) and the byte of it; whether it has been performed, its answer, and whether it was dropped (R228). -/
structure Req where
  thread : Nat
  va : DWord
  loc : Loc
  size : Nat
  data : DWord
  cmp : DWord := 0
  dst : Nat := 0
  src : Option (Nat × Nat) := none
  done : Bool := false
  res : DWord := 0
  dropped : Bool := false
deriving DecidableEq, Repr

/-- The accesses of one instruction of a warp, in the order in which the instructions were issued (R184, R376): the threads that receive
its result (each its own request's, or all the first request's), the registers it writes with the slots of its threads in each, its
scoreboard, the source registers it has yet to read, the registers of its result that were overwritten, with the threads (R84), whether its result
has been written (R82), the major opcode of a counter operation (R334), whether it is one access of the whole warp (R67), and, while it is not
accepted, the bounds entries it sets HIT of (R355) and the items it stages (R351). -/
structure Access where
  warp : Nat
  op : AccOp
  ty : Ty
  scope : Scope
  hint : Hint
  sem : Sem := .dflt
  reqs : List Req
  mask : Mask
  once : Bool := false
  dregs : List Reg := []
  slots : List LMap := []
  sb : Option (Fin 6)
  srcs : List Reg := []
  clob : List (Reg × Mask) := []
  wb : Bool := false
  block : Nat
  issuedAt : Nat
  wait : Option CtrWait := none
  opc : Nat := 0
  whole : Bool := false
  hits : List Nat := []
  tickets : Nat := 0
deriving DecidableEq, Repr

/-- The life of a copy (R243, R246, R247, R407): a slice of a generation, queued, running, and ended by completing or failing. -/
inductive CopyState where
  | slice | queued | running | done | failed
deriving DecidableEq, Repr

/-- The kinds of copy (R239). -/
inductive CopyKind where
  | copy | bcopy (parts coll : Nat) | gather (ix : IdxTy) | scatter (ix : IdxTy) | unpack (fmt : Bfmt)
deriving DecidableEq, Repr

/-- A copy: its issuer, its descriptor (R240), and how far it is. A BCOPY generation is the list of its slices. `rels` and `vis` say which
of its two adds have been made (R242); `ixs` are the indices read (R241), `reads` the bytes read, `done` the bytes written; `passed` counts
the later starts it was passed over by (R331), `after` the accesses issued before it (R248), `staged` says that it has been counted as a
staged item (R351), and `seq` is its number in its ordered flow (R420). -/
structure Copy where
  warp : Nat
  kind : CopyKind
  scope : Scope
  ord : Bool
  bucket : Byte
  hint : Hint
  desc : List DWord
  gen : List Nat := []
  state : CopyState
  rels : Bool := false
  vis : Bool := false
  ixs : List (Nat × DWord) := []
  reads : List (Nat × Byte) := []
  done : List Nat := []
  waitPage : Option Nat := none
  passed : Nat := 0
  staged : Bool := false
  seq : Nat := 0
  after : Nat
deriving DecidableEq, Repr

/-- An MMA in an engine's queue with its copy of the parameter block (R252, R261); `after` counts the accesses issued before it (R212). -/
structure Mma where
  warp : Nat
  thread : Nat
  addr : DWord
  blk : List Byte
  running : Bool := false
  after : Nat
deriving DecidableEq, Repr

/-- A core: its L1, its accumulator store as (word index, word) with zeros left out (R249), the words left undefined by R270, the block
that claims it, its engine's queue, its progress registers, the context its copy port served last (R331), the load limit of a shrink
(R340), and the clk of its last slice boundary and of its last window's end (R338, R337). -/
structure Core where
  cluster : Nat
  core : Nat
  l1 : List Line
  acc : List (Nat × Word)
  undef : List Nat
  claim : Option Nat
  mmaq : List Mma
  prog : List DWord
  served : Nat
  loadLimit : Option Nat
  slicedAt : Nat
  windowAt : Nat
deriving DecidableEq, Repr

/-- What is saved of one core of a block (R265, R406): the core it stood on, its accumulator store, its engine's queue and its progress
registers. -/
structure CoreImage where
  block : Nat
  core : Nat
  acc : List (Nat × Word)
  undef : List Nat
  mmaq : List Mma
  prog : List DWord
  poison : List Nat
deriving DecidableEq, Repr

/-- A cluster's cache (R295). -/
structure Cluster where
  cluster : Nat
  lines : List Line
deriving DecidableEq, Repr

/-- A counter tag with its external bit (R362). -/
structure CtrTag where
  loc : Loc
  ext : Bool
deriving DecidableEq, Repr

/-- The levels of a region that a change of its base register left undefined (R282): the base register, the free value its levels count
from, and the ranges written since. -/
structure LcUndef where
  asid : Nat
  lcb : Nat
  seed : Nat
  known : List (Nat × Nat)
deriving DecidableEq, Repr

/-- An LCM page, whose lines stand pinned in their home slices (R297, R313): its place, its base register, and whether it is placed for 8-bit
counters. -/
structure Pinned where
  asid : Nat
  va : Nat
  size : Nat
  lcb : Nat
  wide : Bool
deriving DecidableEq, Repr

/-- Channels that a saggar reset found dead (R435): the dies of the saggar, the number of channels that lines were spread over, and the dead
ones by their place. The lines that stood on them are poisoned. -/
structure ChanLoss where
  dies : List Nat
  live : Nat
  dead : List Nat
deriving DecidableEq, Repr

/-- A page being migrated (R311): the old frame, the new frame, and the lines already pulled. -/
structure Migration where
  asid : Nat
  va : Nat
  size : Nat
  old : Nat
  new : Nat
  valid : List Nat
deriving DecidableEq, Repr

/-- An entry of a translation cache (R304): its station, by 4 × die + index, and what it holds. -/
structure TlbEntry where
  station : Nat
  asid : Nat
  va : Nat
  size : Nat
  pte : DWord
deriving DecidableEq, Repr

/-- A page whose frame lies in the stacks, as its entry maps it (R300, R345). -/
structure Mapped where
  asid : Nat
  va : Nat
  size : Nat
  frame : Nat
  attr : Nat
  w : Bool
deriving DecidableEq, Repr

/-- A recall that waits for the end of its page's migration (R312). -/
structure HeldRecall where
  asid : Nat
  va : Nat
  level : Nat
  pte : DWord
deriving DecidableEq, Repr

/-- The partition configuration (R360): MODE, the MODE to come and the dies reset since it was written (R361), the units whose live bits are 0, each by its die and its number there, and SAGOK. -/
structure Partition where
  mode : Nat
  nextMode : Option Nat
  resetDies : List Nat
  deadClusters : List (Nat × Nat)
  deadSlices : List (Nat × Nat)
  deadChannels : List (Nat × Nat)
  inService : List Bool
deriving DecidableEq, Repr

/-- An entry of the launch binding table (R30). -/
structure Binding where
  node : Nat
  asid : Nat
  q : Nat
  ctx : Nat
  tq : Nat
deriving DecidableEq, Repr

/-- An ordered flow of copies into a memory of one kind, a peer's by its node (R246, R420): the numbers given out and done with, and the
copies that hold numbers not done with, in order. -/
structure Flow where
  warp : Nat
  mem : Nat
  seqSent : Nat
  seqDone : Nat
  held : List Nat
deriving DecidableEq, Repr

/-- The reorder buffer of an inbound port for one ordered flow of a peer (R420): the number of the copy being performed, and the writes held,
each with the clk of its arrival. -/
structure InOrder where
  node : Nat
  id : Nat
  next : Option Nat
  held : List (InReq × Nat)
deriving DecidableEq, Repr

/-- An add of the scheduler or a control core that waits for the page of its word (R32, R305, R366). -/
structure DueAdd where
  ctx : Nat
  lix : Nat
  va : DWord
  inc : DWord
deriving DecidableEq, Repr

/-- A wait of a peer's warp on a word of this module, as the port holds its watch (R367, R368): the node, the word, and the value waited for. -/
structure InWatch where
  node : Nat
  loc : Loc
  target : DWord
deriving DecidableEq, Repr

/-- A record the module reports to the outside: a trap log, a reset report, a measurement, an answer to a mailbox. -/
structure Report where
  kind : Nat
  fields : List Nat
deriving DecidableEq, Repr

/-- What the next step does (log 1): an event of the table, the next instruction of a warp, or the passing of time. -/
inductive Turn where
  | event (i : Instr)
  | issue (w : Nat)
  | tick (clks ns : Nat)
deriving DecidableEq, Repr

/-- The module. `poison` lists poisoned lines of memory; a line that `losses` poisons and a whole write has made good again is in `sound`
(R430, R435). `drainAt` is the clk at which a restack stopped injection (R413); `routesTo` is the route table that its switch brings (R419),
`deadPorts` the shelves whose local injection ports have all failed. `resetAt` names the saggars that have been reset, each with the clk of
its last reset (R435). `bar2` is the size of the host's window (R428), and `ideKeys` holds the keys of the IDE streams by their number (R442).
`powerAt` is the clk from which the 10 ms of R443 count. `slew` is by how much device time is still ahead of the disciplined time (R374), in
1/5,000 ns. `justSet` names the status bits that have been set at this clk (R282, R355). `agenda` and `cur` (log 1) and `freeCtr` (log 2) are
the model's own. -/
structure State where
  mem : Memory
  tags : List CtrTag
  lcUndef : List LcUndef
  poison : List Nat
  losses : List ChanLoss
  sound : List Nat
  pinned : List Pinned
  llc : List Line
  clusters : List Cluster
  cores : List Core
  ctxs : List Ctx
  launches : List Launch
  gangs : List Gang
  blocks : List Block
  warps : List Warp
  checkpoints : List Checkpoint
  accs : List Access
  copies : List Copy
  images : List CoreImage
  tlb : List TlbEntry
  frames : List Mapped
  migrations : List Migration
  recalls : List HeldRecall
  flows : List Flow
  inFlows : List InOrder
  inWatches : List InWatch
  dueAdds : List DueAdd
  clk : Nat
  time : DWord
  locked : Bool
  slew : Nat
  justSet : List Nat
  epoch : Nat
  liveShelves : BitVec 8
  drainShelf : Bool
  restackTo : Option (BitVec 8)
  routesTo : Option (List (BitVec 24))
  restackAt : Nat
  drainAt : Nat
  partition : Partition
  resetAt : List (Nat × Nat)
  routes : List (BitVec 24)
  inWindows : List (DWord × DWord)
  bindings : List (Option Binding)
  replays : List Nat
  deadLinks : List Nat
  deadPorts : List Nat
  bar2 : Nat
  ideKeys : List (Nat × List Byte)
  inLog : Log
  lastServed : List (Nat × Nat)
  node : Nat
  throt : Bool
  powerLimit : Nat
  powerStep : Nat
  powerAt : Nat
  powered : Bool
  bootDone : Bool
  fullService : Bool
  banks : List (Option FwImage)
  bootBank : Nat
  nextBank : Nat
  fuse : Nat
  attestIx : Nat
  measurements : List (List Byte)
  heldCmds : List ResumeCmd
  reports : List Report
  agenda : List Turn
  cur : Nat
  freeCtr : Nat
deriving DecidableEq, Repr

/-- A reason the machine stops with no next state. -/
inductive Fault where
  /-- Raised by the meaning of an instruction word where no warp stands in a clause: there is no thread for it to act on. The device
  has no such step, so stopping is safe. -/
  | noWarp
deriving DecidableEq, Repr

/-- A reason the model gives an instruction no meaning. -/
inductive Refusal where
  /-- Raised by the dispatcher for a mnemonic that has no meaning yet; safe, since nothing follows from it. -/
  | notModelled (mnemonic : String)
deriving DecidableEq, Repr

/-- A log descriptor at reset (R332; DESIGN CHOICE, log 7). -/
def Log.zero : Log := { base := 0, prodctr := 0, cons := 0, logn := 0, produced := 0, dropped := 0, lossDue := false, gone := false }

/-- The whole device as one saggar with every unit live (DESIGN CHOICE, log 8). -/
def Partition.whole : Partition :=
  { mode := 0, nextMode := none, resetDies := [], deadClusters := [], deadSlices := [], deadChannels := [], inService := [true, false, false, false] }

/-- The module right after reset: no context, launch, gang, block or warp (R434, R439), device time 0 (R374), every shelf live
(R357), the power registers of R443, and the values of logs 1, 2, 3, 7 and 8 for what the spec gives none. -/
def State.reset : State :=
  { mem := [], tags := [], lcUndef := [], poison := [], losses := [], sound := [], pinned := [], llc := [], clusters := [], cores := []
    ctxs := [], launches := [], gangs := [], blocks := [], warps := [], checkpoints := [], accs := [], copies := [], images := []
    tlb := [], frames := [], migrations := [], recalls := [], flows := [], inFlows := [], inWatches := [], dueAdds := []
    clk := 0, time := 0, locked := false, slew := 0, justSet := []
    epoch := 0, liveShelves := 0xFF, drainShelf := false, restackTo := none, routesTo := none, restackAt := 0, drainAt := 0
    partition := .whole, resetAt := []
    routes := List.replicate 255 0
    inWindows := List.replicate 256 (0, 0)
    bindings := List.replicate 256 none
    replays := List.replicate 24 0, deadLinks := [], deadPorts := [], bar2 := 2 ^ 38, ideKeys := []
    inLog := .zero
    lastServed := []
    node := 0
    throt := false, powerLimit := 2400, powerStep := 8, powerAt := 0, powered := true
    bootDone := true, fullService := true
    banks := [none, none], bootBank := 0, nextBank := 0, fuse := 0, attestIx := 0, measurements := []
    heldCmds := [], reports := []
    agenda := [], cur := 0, freeCtr := 0 }

end Sys2Proof.Machine
end

