-- ==== Sys2Proof/Machine/Units.lean ====
section
/-! DEFINITION. Memory in canonical form, the units of the state by number, free values, event counters, trap codes, addresses,
page walks, and the form of a fault record. -/
namespace Sys2Proof.Machine

/-! ### Memory -/

/-- The canonical form: addresses strictly rising, no byte 0 listed. -/
def Memory.wf : Memory → Bool
  | [] => true
  | [(_, b)] => b != 0
  | (a, b) :: (c, d) :: r => a < c && b != 0 && Memory.wf ((c, d) :: r)

/-- The byte at an address; an unlisted one reads 0 (R294 for scratch, R313 for levels; log 3 for a stack). -/
def Memory.read : Memory → Nat → Byte
  | [], _ => 0
  | (a, b) :: r, x => if x = a then b else if x < a then 0 else Memory.read r x

/-- Write one byte, keeping the canonical form. -/
def Memory.write : Memory → Nat → Byte → Memory
  | [], x, v => if v = 0 then [] else [(x, v)]
  | (a, b) :: r, x, v =>
    if x = a then (if v = 0 then r else (a, v) :: r)
    else if x < a then (if v = 0 then (a, b) :: r else (x, v) :: (a, b) :: r)
    else (a, b) :: Memory.write r x v

/-- The bytes at n addresses from one on. -/
def Memory.readN (m : Memory) (a n : Nat) : List Byte := (List.range n).map (fun i => m.read (a + i))

/-- Write bytes at an address and the ones after it. -/
def Memory.writeN (m : Memory) (a : Nat) : List Byte → Memory
  | [] => m
  | b :: r => Memory.writeN (m.write a b) (a + 1) r

/-- The key of a byte of a block's scratch on one core (R293). -/
def scrKey (block core off : Nat) : Nat := 2 ^ 64 + (block * 8 + core) * 2 ^ 20 + off

/-- The key of the level of a counter of an LCM page (R313): one byte for each virtual address. -/
def lcmKey (asid va : Nat) : Nat := 2 ^ 80 + asid * 2 ^ 57 + va

/-- The LCM page of an address holds 8-bit counters: pages hold their lines at the width at which they are placed (R297, R313). -/
def State.lcmWide (s : State) (asid va : Nat) : Bool :=
  (s.pinned.find? (fun p => p.asid == asid && p.va ≤ va && va < p.va + p.size)).all Pinned.wide

/-- The line of an LCM page's counter (R313): 128 counters of 8 bits or 256 of 4. -/
def State.lcmLine (s : State) (asid va : Nat) : Nat := if s.lcmWide asid va then va / 128 else va / 256

/-- The key of the line of an LCM page's counter for its poison (R430). -/
def State.lcmPoison (s : State) (asid va : Nat) : Nat :=
  lcmKey asid (if s.lcmWide asid va then va else va / 256 * 256) / 128

/-! ### Units by number -/

/-- Replace an element of a list by its function. -/
def upd (l : List α) (i : Nat) (f : α → α) : List α := l.modify i f

/-- A warp. -/
def State.warp? (s : State) (w : Nat) : Option Warp := s.warps[w]?

/-- Change a warp. -/
def State.modWarp (s : State) (w : Nat) (f : Warp → Warp) : State := { s with warps := upd s.warps w f }

/-- Change a block. -/
def State.modBlock (s : State) (b : Nat) (f : Block → Block) : State := { s with blocks := upd s.blocks b f }

/-- Change a gang. -/
def State.modGang (s : State) (g : Nat) (f : Gang → Gang) : State := { s with gangs := upd s.gangs g f }

/-- Change a launch. -/
def State.modLaunch (s : State) (l : Nat) (f : Launch → Launch) : State := { s with launches := upd s.launches l f }

/-- Change a context. -/
def State.modCtx (s : State) (c : Nat) (f : Ctx → Ctx) : State := { s with ctxs := upd s.ctxs c f }

/-- Change an access. -/
def State.modAcc (s : State) (a : Nat) (f : Access → Access) : State := { s with accs := upd s.accs a f }

/-- Change a copy. -/
def State.modCopy (s : State) (c : Nat) (f : Copy → Copy) : State := { s with copies := upd s.copies c f }

/-- A core as it stands before anything has used it. -/
def Core.fresh (cl c : Nat) : Core :=
  { cluster := cl, core := c, l1 := [], acc := [], undef := [], claim := none, mmaq := [], prog := List.replicate 16 0, served := 0
    loadLimit := none, slicedAt := 0, windowAt := 0 }

/-- A core of a cluster. -/
def State.core (s : State) (cl c : Nat) : Core :=
  (s.cores.find? (fun x => x.cluster == cl && x.core == c)).getD (.fresh cl c)

/-- Change a core of a cluster. -/
def State.modCore (s : State) (cl c : Nat) (f : Core → Core) : State :=
  if s.cores.any (fun x => x.cluster == cl && x.core == c) then
    { s with cores := s.cores.map (fun x => if x.cluster == cl && x.core == c then f x else x) }
  else { s with cores := s.cores ++ [f (.fresh cl c)] }

/-- The lines of a cluster cache. -/
def State.ccLines (s : State) (cl : Nat) : List Line :=
  ((s.clusters.find? (fun x => x.cluster == cl)).map Cluster.lines).getD []

/-- Change the lines of a cluster cache. -/
def State.modCC (s : State) (cl : Nat) (f : List Line → List Line) : State :=
  if s.clusters.any (fun x => x.cluster == cl) then
    { s with clusters := s.clusters.map (fun x => if x.cluster == cl then { x with lines := f x.lines } else x) }
  else { s with clusters := s.clusters ++ [{ cluster := cl, lines := f [] }] }

/-- The block of a warp. -/
def State.blockOf (s : State) (w : Nat) : Option Block := (s.warp? w).bind (fun x => s.blocks[x.block]?)

/-- The launch of a block. -/
def State.launchOfBlock (s : State) (b : Nat) : Option Launch := (s.blocks[b]?).bind (fun x => s.launches[x.launch]?)

/-- The launch of a warp. -/
def State.launchOf (s : State) (w : Nat) : Option Launch := (s.warp? w).bind (fun x => s.launchOfBlock x.block)

/-- The context of a warp. -/
def State.ctxIx (s : State) (w : Nat) : Nat := ((s.launchOf w).map Launch.ctx).getD 0

/-- The cluster a block's gang is placed on. -/
def State.clusterOfBlock (s : State) (b : Nat) : Nat :=
  (((s.blocks[b]?).bind (fun x => s.gangs[x.gang]?)).map Gang.cluster).getD 0

/-- The cluster a warp runs on. -/
def State.clusterOf (s : State) (w : Nat) : Nat := ((s.warp? w).map (fun x => s.clusterOfBlock x.block)).getD 0

/-- The core of a warp, with its cluster. -/
def State.seat (s : State) (w : Nat) : Nat × Nat := (s.clusterOf w, ((s.warp? w).map Warp.core).getD 0)

/-- The gang of a warp. -/
def State.gangOf (s : State) (w : Nat) : Option Nat := (s.blockOf w).map Block.gang

/-- The gang of a warp is saved (R406): nothing of it acts. -/
def State.savedWarp (s : State) (w : Nat) : Bool := ((s.gangOf w).bind (fun g => s.gangs[g]?)).any Gang.saved

/-- The gang of a warp is being stopped for a save (R405): no clause of it starts. -/
def State.stoppingWarp (s : State) (w : Nat) : Bool := ((s.gangOf w).bind (fun g => s.gangs[g]?)).any Gang.stopping

/-- The ASID of a context (R289). -/
def Ctx.asid (c : Ctx) : Nat := c.cxctl.toNat % 2 ^ 16

/-- The ASID of a context by number. -/
def State.asid (s : State) (c : Nat) : Nat := ((s.ctxs[c]?).map Ctx.asid).getD 0

/-- The context with an ASID. -/
def State.ctxOfAsid (s : State) (a : Nat) : Option Nat := s.ctxs.findIdx? (fun c => c.live && c.asid == a)

/-! ### Free values and event counters -/

/-- A fresh run of n free values (log 2): the first one's number, and the state that has spent them. -/
def State.fresh (s : State) (n : Nat) : Nat × State := (s.freeCtr, { s with freeCtr := s.freeCtr + n })

/-- Add to one of the eight event counters of a context, modulo 2^64 (R286), for a warp or for another agent. -/
def State.bump (s : State) (ctx ev n : Nat) (by_ : Option Nat := none) : State :=
  if n = 0 then s
  else s.modCtx ctx (fun c => { c with
    events := upd c.events ev (fun x => x + BitVec.ofNat 64 n)
    recent := { at_ := s.clk, ev := ev, by_ := by_, n := n } :: c.recent })

/-- LANEMOVE (R224). -/
def evLaneMove : Nat := 0
/-- AUTOFIRE (R224). -/
def evAutoFire : Nat := 1
/-- LEASESHRINK (R224). -/
def evLeaseShrink : Nat := 2
/-- VICTIMHIT (R224). -/
def evVictimHit : Nat := 3
/-- RUNAHEAD (R224). -/
def evRunAhead : Nat := 4
/-- SHELFSTALL (R224). -/
def evShelfStall : Nat := 5
/-- TICKETWAIT (R224). -/
def evTicketWait : Nat := 6
/-- LCSAT (R224). -/
def evLcSat : Nat := 7

/-! ### Trap codes (R397) -/

/-- ILLEGAL. -/
def codeIllegal : BitVec 8 := 0x01
/-- CLAUSE. -/
def codeClause : BitVec 8 := 0x02
/-- UNIFORM. -/
def codeUniform : BitVec 8 := 0x03
/-- STALL. -/
def codeStall : BitVec 8 := 0x04
/-- CLASS. -/
def codeClass : BitVec 8 := 0x05
/-- PAGE. -/
def codePage : BitVec 8 := 0x10
/-- PROT. -/
def codeProt : BitVec 8 := 0x11
/-- ALIGN. -/
def codeAlign : BitVec 8 := 0x12
/-- VOIDOP. -/
def codeVoidop : BitVec 8 := 0x13
/-- CTRSTORE. -/
def codeCtrstore : BitVec 8 := 0x14
/-- CTRSTATE. -/
def codeCtrstate : BitVec 8 := 0x15
/-- BOUNDS. -/
def codeBounds : BitVec 8 := 0x16
/-- REMOTE. -/
def codeRemote : BitVec 8 := 0x17
/-- RTIMEOUT. -/
def codeRtimeout : BitVec 8 := 0x18
/-- WBACK. -/
def codeWback : BitVec 8 := 0x19
/-- LCM. -/
def codeLcm : BitVec 8 := 0x1A
/-- TRAPI. -/
def codeTrapi : BitVec 8 := 0x20
/-- BRK. -/
def codeBrk : BitVec 8 := 0x21
/-- STEP. -/
def codeStep : BitVec 8 := 0x22
/-- ECCKILL. -/
def codeEcckill : BitVec 8 := 0x30
/-- CONE. -/
def codeCone : BitVec 8 := 0x31

/-! ### Addresses and page walks -/

/-- A canonical address (R292). -/
def canonical (a : DWord) : Bool := a.extractLsb' 57 7 == (if a.getLsbD 56 then 0x7F else 0#7)

/-- The base W of the own scratchpad window (R292). -/
def winBase : Nat := 0xFF80000000000000

/-- The regions of R292, an offset with the windows. -/
inductive Region where
  | global | peer | own (off : Nat) | cluster (slot off : Nat) | reserved
deriving DecidableEq, Repr

/-- The region of a canonical address (R292). -/
def regionOf (va : Nat) : Region :=
  if va < 2 ^ 56 then .global
  else if va < 0xFF00000000000000 then .reserved
  else if va < winBase then .peer
  else if va < winBase + 0x50000 then .own (va - winBase)
  else if winBase + 0x100000 ≤ va && va < winBase + 0x380000 then
    .cluster ((va - winBase - 0x100000) / 0x50000) ((va - winBase - 0x100000) % 0x50000)
  else .reserved

/-- A little-endian 64-bit word of memory by key. -/
def read64 (m : Memory) (a : Nat) : DWord := BitVec.ofNat 64 (leNat (m.readN a 8))

/-- A translation (R345): permissions, attribute (0 normal, 1 LCM, 2 NC, 3 peer), base register, node, the physical address of the
byte, and the page it lies in. -/
structure Trans where
  r : Bool
  w : Bool
  x : Bool
  attr : Nat
  lcb : Nat
  node : Nat
  phys : Nat
  page : Nat
  size : Nat
  mig : Bool
deriving DecidableEq, Repr

/-- What a walk answers (R346). -/
inductive Walk where
  | ok (t : Trans)
  | prot
  | absent
deriving DecidableEq, Repr

/-- The index of a level of the page tables (R344). -/
def ptIndex (va level : Nat) : Nat :=
  match level with
  | 0 => va / 2 ^ 48 % 512
  | 1 => va / 2 ^ 39 % 512
  | 2 => va / 2 ^ 30 % 512
  | 3 => va / 2 ^ 21 % 512
  | _ => va / 2 ^ 16 % 32

/-- The bytes a leaf of a level maps (R344). -/
def leafSize (level : Nat) : Nat := if level = 2 then 2 ^ 30 else if level = 3 then 2 ^ 21 else 2 ^ 16

/-- The checks of R346 on a valid leaf, and its translation. -/
def leafTrans (va level : Nat) (e : DWord) : Walk :=
  let sz := leafSize level
  let frame := e.toNat / 2 ^ 16 % 2 ^ 36 * 2 ^ 16
  let attr := e.toNat / 32 % 4
  let node := e.toNat / 2 ^ 52 % 256
  let peer := decide (2 ^ 56 ≤ va % 2 ^ 57)
  let bad := frame % sz != 0 || e.extractLsb' 60 4 != 0 || e.extractLsb' 12 4 != 0 || e.getLsbD 7 ||
    (attr != 1 && e.extractLsb' 8 3 != 0) || (attr != 3 && node != 0) || (attr == 3) != peer ||
    (attr == 1 && (level == 2 || e.getLsbD 4 || frame != 0))
  if bad then .prot
  else .ok { r := e.getLsbD 2, w := e.getLsbD 3, x := e.getLsbD 4, attr := attr, lcb := e.toNat / 256 % 8, node := node
             phys := frame + va % sz, page := va % 2 ^ 57 / sz * sz, size := sz, mig := e.getLsbD 11 }

/-- A walk from a table of a level on (R346). -/
def walkFrom (m : Memory) (va : Nat) : Nat → Nat → Nat → Walk
  | 0, _, _ => .prot
  | fuel + 1, level, table =>
    let e := read64 m (table + 8 * ptIndex va level)
    if !e.getLsbD 0 then .absent
    else if e.getLsbD 1 then (if level < 2 then .prot else leafTrans va level e)
    else if level ≥ 4 || e.extractLsb' 2 10 &&& 0x3F8 != 0 || e.extractLsb' 52 12 != 0 then .prot
    else walkFrom m va fuel (level + 1) (e.toNat / 2 ^ 12 % 2 ^ 40 * 2 ^ 12)

/-! ### Homes and stations (R296, R304, R360) -/

/-- The fold of R296 of a key of 50 bits among n units, by its place in ascending order. -/
def homeFold (x n : Nat) : Nat := (x % 2 ^ 16 ^^^ x / 2 ^ 16 % 2 ^ 16 ^^^ x / 2 ^ 32 % 2 ^ 16 ^^^ x / 2 ^ 48 % 4) % n

/-- The key of a line for its home (R296), a virtual line number with the ASID. -/
def homeKey (asid vline : Nat) : Nat := vline % 2 ^ 50 ^^^ (asid * 2 ^ 34 % 2 ^ 50)

/-- The home slice of R296 among n live slices, by its place in ascending order. -/
def homeSlice (asid vline n : Nat) : Nat :=
  homeFold (homeKey asid vline) n

/-- The LLC set of R296. -/
def homeSet (asid vline : Nat) : Nat :=
  let x := homeKey asid vline
  x % 1024 ^^^ x / 2 ^ 10 % 1024 ^^^ x / 2 ^ 20 % 1024 ^^^ x / 2 ^ 30 % 1024 ^^^ x / 2 ^ 40 % 1024

/-- The saggar of a die (R360). -/
def Partition.saggarOf (p : Partition) (die : Nat) : Nat := if p.mode = 0 then 0 else if p.mode = 1 then die / 2 else die

/-- The dies of a saggar. -/
def Partition.dies (p : Partition) (saggar : Nat) : List Nat := (List.range 4).filter (fun d => p.saggarOf d == saggar)

/-- A saggar is in service (R360). -/
def Partition.serves (p : Partition) (saggar : Nat) : Bool := p.inService.getD saggar false

/-- The live slices of a saggar, each by its die and its number there, in ascending order (R296, R360): 96 a die, but those whose bits are
0. -/
def State.slices (s : State) (saggar : Nat) : List (Nat × Nat) :=
  ((s.partition.dies saggar).flatMap (fun d => (List.range 96).map (fun i => (d, i)))).filter (fun u => !s.partition.deadSlices.contains u)

/-- The number of live slices of a saggar. -/
def State.liveSlices (s : State) (saggar : Nat) : Nat :=
  let p := s.partition
  96 * (p.dies saggar).length - (p.deadSlices.filter (fun u => p.saggarOf u.1 == saggar)).length

/-- The live slice, by its die and its number there, at a place among a saggar's (R296). -/
def State.sliceAt (s : State) (saggar k : Nat) : Option (Nat × Nat) := (s.slices saggar)[k]?

/-- The saggar of an address space. -/
def State.saggarOfAsid (s : State) (asid : Nat) : Nat := (((s.ctxOfAsid asid).bind (fun c => s.ctxs[c]?)).map Ctx.saggar).getD 0

/-- The home of a line (R296): the saggar, the slice by its place among its live ones, and the set. -/
def State.homeOf (s : State) (asid vline : Nat) : Nat × Nat × Nat :=
  let g := s.saggarOfAsid asid
  (g, homeSlice asid vline (s.liveSlices g), homeSet asid vline)

/-- The index of a station on its die: the XOR of the 2-bit fields of VA[56:21] (R304). -/
def stationOf (va : Nat) : Nat := (List.range 18).foldl (fun x i => x ^^^ va / 2 ^ (21 + 2 * i) % 4) 0

/-- The die of a cluster: 64 clusters stand on each. -/
def dieOfCluster (cl : Nat) : Nat := cl / 64

/-- The dies on which gangs of an address space run. -/
def State.diesRunning (s : State) (asid : Nat) : List Nat :=
  ((s.gangs.filter (fun g => g.placed && !g.saved && !g.killed && ((s.launches[g.launch]?).map (fun l => s.asid l.ctx)) == some asid)).map
    (fun g => dieOfCluster g.cluster)).eraseDups

/-- The stations that translate an address (R304), by 4 × die + index: on the die of the line's home slice; for the peer region on the dies of the
cores that can issue an access to it, or, where nothing of the context runs, on the saggar's lowest die (log 90). -/
def State.stationsAt (s : State) (asid va : Nat) : List Nat :=
  let (g, k, _) := s.homeOf asid (s.lcmLine asid va)
  let low := ((s.partition.dies g).head?).getD 0
  let dies := if va < 2 ^ 56 then [((s.sliceAt g k).map Prod.fst).getD low]
    else if (s.diesRunning asid).isEmpty then [low] else s.diesRunning asid
  dies.map (fun d => 4 * d + stationOf va)

/-- The first station that translates an address. -/
def State.stationAt (s : State) (asid va : Nat) : Nat := (s.stationsAt asid va).headD 0

/-! ### Shelves (R357, R411, R418, R419) -/

/-- The key of a request to a memory channel (R411): its physical line. -/
def channelKey (phys : Nat) : Nat := phys / 128 % 2 ^ 45

/-- The key of a request to a peer module or the host (R411). -/
def peerKey (node frame : Nat) : Nat := frame / 128 % 2 ^ 50 ^^^ (node * 2 ^ 34 % 2 ^ 50)

/-- H of a key (R411): 13 bits. -/
def shelfHash (x : Nat) : Nat := x % 2 ^ 13 ^^^ x / 2 ^ 13 % 2 ^ 13 ^^^ x / 2 ^ 26 % 2 ^ 13 ^^^ x / 2 ^ 39 % 2 ^ 11

/-- The live shelves, ascending (R357). -/
def State.shelves (s : State) : List Nat := (List.range 8).filter (fun k => s.liveShelves.getLsbD k)

/-- The link port of a shelf's route to a node, if the route is valid (R418). -/
def State.routePort (s : State) (node shelf : Nat) : Option Nat :=
  let e := (s.routes.getD node 0).toNat / 2 ^ (3 * shelf) % 8
  if 4 ≤ e && e != 7 then some (3 * shelf + e % 4) else none

/-- The eligible set of a request (R411, R419): the live shelves, and for another node those with a valid route to it. The host
is no node of the route table: every live shelf reaches it (log 94). -/
def State.eligible (s : State) (node : Option Nat) : List Nat :=
  match node with
  | none | some 255 => s.shelves
  | some n => s.shelves.filter (fun k => (s.routePort n k).isSome)

/-- The shelf of a request by its key (R357, R411): the (H mod n)-th of its eligible set. -/
def State.shelfOf (s : State) (node : Option Nat) (x : Nat) : Option Nat :=
  let e := s.eligible node
  e[shelfHash x % e.length]?

/-- The shelf that carries a request to a memory channel (R411): a fill, a write-back, an access to an NC page, a walk, or a pull of a migration. -/
def State.channelShelf (s : State) (phys : Nat) : Option Nat := s.shelfOf none (channelKey phys)

/-- The shelf that carries a request to a place (R411): none for a scratchpad, and for a node that no live route reaches. -/
def State.requestShelf (s : State) (l : Loc) : Option Nat :=
  match l.place with
  | .glob a | .lcm a => s.shelfOf none (homeKey a (l.addr / 128))
  | .nc => s.channelShelf l.addr
  | .peer n => s.shelfOf (some n) (peerKey n l.addr)
  | .scr _ _ => none

/-- A live route reaches a node (R419); reduced service has no link (R440). -/
def State.routed (s : State) (node : Nat) : Bool := s.fullService && node < 255 && !(s.eligible (some node)).isEmpty

/-- The physical address of the live-shelf table (log 45). -/
def shelfTable : Nat := 2 ^ 51

/-- The virtual address at which the control complex maps the live-shelf table into every context and which it reports (R357, log 45): the last
page of the global region. -/
def shelfVa : Nat := 2 ^ 56 - 2 ^ 16

/-- The mapping of the live-shelf table (R357). -/
def shelfTrans (va : Nat) : Trans :=
  { r := true, w := false, x := false, attr := 2, lcb := 0, node := 0, phys := shelfTable + va % 2 ^ 16, page := shelfVa, size := 2 ^ 16, mig := false }

/-- The translation of a virtual address in a context (R304, R344 to R346): the station's cached entry, else a walk. -/
def State.translate (s : State) (ctx va : Nat) : Walk :=
  match s.ctxs[ctx]? with
  | none => .absent
  | some c =>
    let v := va % 2 ^ 57
    if v / 2 ^ 16 = shelfVa / 2 ^ 16 then .ok (shelfTrans v)
    else match s.tlb.find? (fun t => t.asid == c.asid && t.va ≤ v && v < t.va + t.size && (s.stationsAt c.asid v).contains t.station) with
    | some t => leafTrans va (if t.size = 2 ^ 30 then 2 else if t.size = 2 ^ 21 then 3 else 4) t.pte
    | none => walkFrom s.mem v 5 0 (c.root.toNat / 2 ^ 12 % 2 ^ 40 * 2 ^ 12)

/-- The page that a fault on an address waits for: 64 KiB, the smallest. -/
def pageOf (va : Nat) : Nat := va / 2 ^ 16

/-- The control complex can resolve a fault at an address (R305): system software has not declared its page unresolvable. -/
def State.resolvable (s : State) (ctx va : Nat) : Bool :=
  match s.ctxs[ctx]? with
  | none => false
  | some c => !c.unresolvable.contains (pageOf va)

/-! ### Fault records and the resume point -/

/-- FAULT0 to FAULT3 of a trap (R283): the position, what the trap says, and the software tag. -/
def faultRecord (t : TrapInfo) (index : Nat) (caddr : DWord) (wtag : BitVec 8) : List DWord :=
  [ BitVec.ofNat 64 (index % 16 * 2 ^ 54 + caddr.toNat / 8 % 2 ^ 54),
    BitVec.ofNat 64 (t.reason.toNat * 2 ^ 48 + (if t.lowv then 2 ^ 45 + t.lowest % 32 * 2 ^ 40 else 0) +
      t.code.toNat * 2 ^ 32 + t.mask.toNat),
    t.addr,
    BitVec.ofNat 64 (wtag.toNat * 2 ^ 32 + t.imm.toNat) ]

/-- WCR.TAG (R277). -/
def wcrTag (w : DWord) : BitVec 8 := w.extractLsb' 8 8
/-- WCR.STEP (R277). -/
def wcrStep (w : DWord) : Bool := w.getLsbD 1
/-- WCR.CHK (R277). -/
def wcrChk (w : DWord) : Bool := w.getLsbD 0

end Sys2Proof.Machine
end

