-- ==== Sys2Proof/Machine/Load.lean ====
section
/-! DEFINITION. The load of a core (R335 to R341): who is in it, its limit, and how it changes. -/
namespace Sys2Proof.Machine

/-! ### Launch packets (R26, R27) -/

/-- The little-endian 64-bit word of a packet or a block at an offset. -/
def word64 (p : List Byte) (off : Nat) : DWord := BitVec.ofNat 64 (leNat ((p.drop off).take 8))

/-- Bits of a word, lo upward. -/
def bitsOf (x : DWord) (lo n : Nat) : Nat := x.toNat / 2 ^ lo % 2 ^ n

/-- The scratch bytes per core of a packet (R26): 0, 64, 128, 192, 256 or 320 KiB. -/
def pktScratch (p : List Byte) : Nat := bitsOf (word64 p 0x20) 35 3 * 65536

/-- WARPS of a role (R22). -/
def pktWarps (p : List Byte) (role : Nat) : Nat := bitsOf (word64 p (0x60 + 16 * role + 8)) 8 7

/-- The total of WARPS over the roles (R28, R160). -/
def pktTotalWarps (p : List Byte) : Nat := ((List.range 4).map (pktWarps p)).sum

/-- DET of a packet (R27). -/
def pktDet (p : List Byte) : Bool := (word64 p 0).getLsbD 57

/-- DET of the launch of a block. -/
def State.detOf (s : State) (b : Nat) : Bool := ((s.launchOfBlock b).map (fun l => pktDet l.pkt)).getD false

/-- The scratch bytes of a block on each of its cores (R294). -/
def State.scratchOf (s : State) (b : Nat) : Nat := ((s.launchOfBlock b).map (fun l => pktScratch l.pkt)).getD 0

/-! ### Orders -/

/-- Lists of numbers in the order of their first difference. -/
def lexLe : List Nat → List Nat → Bool
  | [], _ => true
  | _, [] => false
  | a :: as, b :: bs => a < b || (a == b && lexLe as bs)

/-- Put an element where its key stands. -/
def insertBy (x : List Nat × α) : List (List Nat × α) → List (List Nat × α)
  | [] => [x]
  | y :: r => if lexLe x.1 y.1 then x :: y :: r else y :: insertBy x r

/-- Elements in the order of their keys. -/
def sortBy (key : α → List Nat) (l : List α) : List α := (l.foldr (fun x r => insertBy (key x, x) r) []).map Prod.snd

/-! ### Members and limits -/

/-- A warp is resident on a core: it has not ended and its gang is not saved (R335). -/
def Warp.resident (x : Warp) : Bool := x.state != .ended && x.state != .saved false && x.state != .saved true

/-- A warp can issue: it is in the load, or in a clause that it had begun when it left the load (R338, R342: a clause already running ends). -/
def Warp.runs (x : Warp) : Bool := x.state == .active || (x.state == .ready && x.pipe.isSome)

/-- The resident warps of a core. -/
def State.warpsOn (s : State) (cl core : Nat) : List (Nat × Warp) :=
  (s.warps.zipIdx.map (fun (x, i) => (i, x))).filter (fun (i, x) => x.core == core && x.resident && s.clusterOf i == cl)

/-- The blocks that hold room on a core (R11). -/
def State.blocksOn (s : State) (cl core : Nat) : List Nat :=
  (List.range s.blocks.length).filter (fun b =>
    match s.blocks[b]? with
    | none => false
    | some x =>
      !x.finished && x.cores.contains core &&
        (match s.gangs[x.gang]? with
          | none => false
          | some g => g.cluster == cl && g.placed && !g.saved && !g.killed))

/-- The scratchpad bytes of a core (R11). -/
def State.scratchOn (s : State) (cl core : Nat) : Nat := ((s.blocksOn cl core).map s.scratchOf).sum

/-- LOADF of a context (R289). -/
def Ctx.loadF (c : Ctx) : Nat := bitsOf c.cxctl 32 5

/-- LOSTMAX of a context (R289). -/
def Ctx.lostMax (c : Ctx) : Nat := bitsOf c.cxctl 40 8

/-- GRAN of a LEASE register (R279). -/
def leaseGran (l : DWord) : Nat := bitsOf l 0 8

/-- The lease limit of a core (R336, R340), by the smallest LOADF of its warps' contexts (R290). -/
def State.leaseLimit (s : State) (cl core : Nat) : Nat :=
  match (s.core cl core).loadLimit with
  | some n => n
  | none =>
    let c := s.scratchOn cl core / 1024
    let f := (s.warpsOn cl core).foldl (fun m (_, x) => min m x.loadF) 31
    (384 - c) / 2 * f / 16

/-- The age order of R338: earlier placed, then lower BLOCKWARP, BLOCKIX and LAUNCHIX. -/
def State.ageKey (s : State) (i : Nat) (x : Warp) : List Nat :=
  [x.loadAt, x.blockWarp, ((s.blocks[x.block]?).map Block.ix).getD 0, ((s.launchOf i).map Launch.ix).getD 0, i]

/-- The members of a core's load, oldest first. -/
def State.members (s : State) (cl core : Nat) : List (Nat × Warp) :=
  sortBy (fun p => s.ageKey p.1 p.2) ((s.warpsOn cl core).filter (fun p => p.2.state == .active))

/-- The READY warps of a core, longest READY first, oldest first on a tie (c1 then c3 of R338). -/
def State.readyOn (s : State) (cl core : Nat) : List (Nat × Warp) :=
  sortBy (fun p => p.2.readyAt :: s.ageKey p.1 p.2) ((s.warpsOn cl core).filter (fun p => p.2.state == .ready))

/-- The charge of warps. -/
def charges (ws : List (Nat × Warp)) : Nat := (ws.map (fun p => leaseGran p.2.lease)).sum

/-- Take candidates in order while they fit; into an empty load the first enters whatever its lease (R338, R339). -/
def takeFitting (limit : Nat) : List (Nat × Warp) → List (Nat × Warp) → List (Nat × Warp)
  | inn, [] => inn
  | inn, c :: cs =>
    if inn.isEmpty || charges inn + leaseGran c.2.lease ≤ limit then takeFitting limit (inn ++ [c]) cs else takeFitting limit inn cs

/-- Warps enter the load as they fit (R339). -/
def State.fillLoad (s : State) (cl core : Nat) : State :=
  (takeFitting (s.leaseLimit cl core) (s.members cl core) (s.readyOn cl core)).foldl
    (fun s p => s.modWarp p.1 (fun x => if x.state == .ready then { x with state := .active } else x)) s

/-- The cores that blocks occupy. -/
def State.coresOf (s : State) (bs : List Nat) : List Nat := (bs.flatMap (fun b => ((s.blocks[b]?).map Block.cores).getD [])).eraseDups

/-- Warps enter the loads of cores of a cluster. -/
def State.fillCores (s : State) (cl : Nat) (cores : List Nat) : State := cores.foldl (fun s c => s.fillLoad cl c) s

/-- Warps enter the load of a warp's core. -/
def State.fillLoadAt (s : State) (w : Nat) : State :=
  match s.warp? w with
  | none => s
  | some x => s.fillLoad (s.clusterOf w) x.core

/-- A warp becomes READY (R335), and enters the load if it fits (R339). -/
def State.ready (s : State) (w : Nat) : State :=
  (s.modWarp w (fun x => { x with state := .ready, readyAt := s.clk })).fillLoadAt w

/-- The load is formed again (R338). -/
def State.reform (s : State) (cl core : Nat) : State :=
  let old := s.members cl core
  let r := s.readyOn cl core
  let c1 := r.filter (fun p => p.2.readyAt + 16384 ≤ s.clk)
  let c3 := r.filter (fun p => s.clk < p.2.readyAt + 16384)
  let inn := (takeFitting (s.leaseLimit cl core) [] (c1 ++ old ++ c3)).map Prod.fst
  { s with warps := s.warps.zipIdx.map (fun (x, i) =>
      if inn.contains i then { x with state := .active }
      else if old.any (fun p => p.1 == i) then { x with state := .ready, readyAt := s.clk }
      else x) }

/-- A shrink of the load (R340): the youngest member leaves, and until the end of the window no other enters. -/
def State.shrink (s : State) (w : Nat) : State :=
  match s.warp? w with
  | none => s
  | some x =>
    let cl := s.clusterOf w
    let ms := s.members cl x.core
    match ms.reverse with
    | [] | [_] => s
    | y :: _ =>
      let left := charges (ms.filter (fun p => p.1 != y.1))
      let s := s.modWarp w (fun x => { x with shrunk := true })
      let s := s.modWarp y.1 (fun x => { x with state := .ready, readyAt := s.clk })
      (s.modCore cl x.core (fun c => { c with loadLimit := some left })).bump (s.ctxIx w) evLeaseShrink 1 (some w)

/-- The clause boundary of a member whose LEASE instruction raised its charge beyond the limit (R339), and the charge that a lower lease
frees. -/
def State.releaseCharge (s : State) (w old : Nat) : State :=
  match s.warp? w with
  | none => s
  | some x =>
    let cl := s.clusterOf w
    let new := leaseGran x.lease
    if x.state == .active && old < new && s.leaseLimit cl x.core < charges (s.members cl x.core) then s.ready w
    else if new < old then s.fillLoadAt w
    else s

end Sys2Proof.Machine
end

