-- ==== Sys2Proof/Machine/MemSys.lean ====
section
/-! DEFINITION. The memory system of a context (chapters 12 and 17): lines in the L1s, the cluster caches and the LLC and the room they
take, what a near and a far access reads and writes, ownership and its recall, write-backs, and lost locality. -/
namespace Sys2Proof.Machine

/-! ### Lines -/

/-- A line of a cache's list. -/
def findLine (ls : List Line) (asid vline : Nat) : Option Line := ls.find? (fun l => l.asid == asid && l.vline == vline)

/-- Change a line, if it is there. -/
def modLine (ls : List Line) (asid vline : Nat) (f : Line → Line) : List Line :=
  ls.map (fun l => if l.asid == asid && l.vline == vline then f l else l)

/-- Drop a line. -/
def dropLine (ls : List Line) (asid vline : Nat) : List Line :=
  ls.filter (fun l => !(l.asid == asid && l.vline == vline))

/-- Put a line first: lists stand in the order of last use (R297). -/
def putLine (ls : List Line) (l : Line) : List Line := l :: dropLine ls l.asid l.vline

/-- The class of a line after a hint (R188): evict-last is sticky. -/
def raiseClass (c : Nat) : Hint → Nat
  | .normal => c
  | .evictFirst => if c = 2 then 2 else 1
  | .evictLast => 2

/-- Touch a line with a hint (R188): it is the last used, and its class is raised. -/
def touchLine (ls : List Line) (asid vline : Nat) (h : Hint) : List Line :=
  match findLine ls asid vline with
  | none => ls
  | some l => putLine ls { l with cls := raiseClass l.cls h }

/-- The hint that gives a line its class. -/
def classHint (c : Nat) : Hint := if c = 1 then .evictFirst else if c = 2 then .evictLast else .normal

/-- The class of a newly filled line under a hint (R188). -/
def hintClass (h : Hint) : Nat := raiseClass 0 h

/-- A byte of a line. -/
def Line.byte (l : Line) (i : Nat) : LByte := l.bytes.getD i { v := 0, st := .invalid }

/-- A line holds a byte that its level below does not have. -/
def Line.dirty (l : Line) : Bool := l.bytes.any (fun b => b.st == .dirty)

/-- A line holds a byte that is not yet granted (R301). -/
def Line.pending (l : Line) : Bool := l.bytes.any (fun b => b.st == .pending)

/-- A line with no byte but its pending ones: what an invalidation leaves of it (R301). -/
def Line.stripped (l : Line) : Line :=
  { l with bytes := l.bytes.map (fun b => if b.st == .pending then b else { b with st := .invalid }) }

/-- The bytes of a line with its dirty ones clean. -/
def Line.cleaned (l : Line) : Line :=
  { l with bytes := l.bytes.map (fun b => if b.st == .dirty then { b with st := .clean } else b), held := false }

/-- A copy of a line as a fill takes it (R298): its bytes clean, its permissions those of the line it is filled from, its class the
hint's. -/
def Line.copied (l : Line) (h : Hint) : Line :=
  { l with bytes := l.bytes.map (fun b => { b with st := .clean }), cls := hintClass h, held := false }

/-- The victim R297 takes from lines in the order of last use: evict-first, then normal, then evict-last, the least recently used. A line
that is held, or whose bytes wait for a grant, is none. -/
def victimOf (ls : List Line) : Option Line :=
  let old := (ls.filter (fun l => !l.held && !l.pending)).reverse
  (old.find? (fun l => l.cls == 1)).orElse (fun _ => (old.find? (fun l => l.cls == 0)).orElse (fun _ => old.find? (fun l => l.cls == 2)))

/-- Make room in a set (R297): victims are evicted one after another until a way is free. An eviction that is refused holds its line
(R303), and the next victim is taken. -/
def makeRoom (set : State → List Line) (ways : Nat) (evict : Line → State → State) : Nat → State → State
  | 0, s => s
  | fuel + 1, s =>
    if (set s).length < ways then s
    else
      match victimOf (set s) with
      | none => s
      | some v => makeRoom set ways evict fuel (evict v s)

/-- The permissions and the attribute an access meets at an address (R298, R299). -/
structure Perm where
  r : Bool
  w : Bool
  x : Bool
  attr : Nat
  lcb : Nat
  node : Nat
  phys : Nat
deriving DecidableEq, Repr

/-- What an access to a global or peer address meets: a line of the L1, the cluster cache or the LLC, which decides (R298, R299: of a normal
page), else the translation. -/
def State.perm (s : State) (ctx cl core va : Nat) : Except Walk Perm :=
  let a := s.asid ctx
  let ln := va % 2 ^ 57 / 128
  let hit := if va < 2 ^ 56 then
      (findLine (s.core cl core).l1 a ln).orElse (fun _ => (findLine (s.ccLines cl) a ln).orElse (fun _ => findLine s.llc a ln))
    else none
  match hit with
  | some l => .ok { r := l.r, w := l.w, x := l.x, attr := 0, lcb := 0, node := 0, phys := 0 }
  | none =>
    match s.translate ctx va with
    | .ok t => .ok { r := t.r, w := t.w, x := t.x, attr := t.attr, lcb := t.lcb, node := t.node, phys := t.phys }
    | e => .error e

/-! ### Page table entries (R344, R345) -/

/-- The physical address of the entry of a level that a virtual address selects, where the tables above it stand. -/
def entryAt (m : Memory) (va level : Nat) : Nat → Nat → Nat → Option Nat
  | 0, _, _ => none
  | fuel + 1, l, table =>
    let a := table + 8 * ptIndex va l
    if l = level then some a
    else
      let e := read64 m a
      if e.getLsbD 0 && !e.getLsbD 1 && l < 4 then entryAt m va level fuel (l + 1) (e.toNat / 2 ^ 12 % 2 ^ 40 * 2 ^ 12) else none

/-- The root table of a context. -/
def Ctx.rootAt (c : Ctx) : Nat := c.root.toNat / 2 ^ 12 % 2 ^ 40 * 2 ^ 12

/-- The entry of a level for a virtual address of an address space: its physical address and value. -/
def State.pteAt (s : State) (asid va level : Nat) : Option (Nat × DWord) :=
  match (s.ctxOfAsid asid).bind (fun c => s.ctxs[c]?) with
  | none => none
  | some c => (entryAt s.mem (va % 2 ^ 57) level 5 0 c.rootAt).map (fun a => (a, read64 s.mem a))

/-- Write an entry. -/
def State.writePte (s : State) (at_ : Nat) (pte : DWord) : State := { s with mem := s.mem.writeN at_ (leBytes 8 pte.toNat) }

/-- The stations drop the entries of a range. -/
def State.dropTlb (s : State) (asid va size : Nat) : State :=
  { s with tlb := s.tlb.filter (fun t => !(t.asid == asid && t.va < va + size && va < t.va + t.size)) }

/-- A migration ends when every line of its page is valid (R348): MIG is cleared and the record is freed. -/
def State.endMigration (s : State) (asid va : Nat) : State :=
  match s.migrations.find? (fun g => g.asid == asid && g.va == va) with
  | none => s
  | some g =>
    if g.valid.length < g.size / 128 then s
    else
      let s := { s with migrations := s.migrations.filter (fun h => !(h.asid == asid && h.va == va)) }
      match s.pteAt asid va (if g.size = 2 ^ 21 then 3 else 4) with
      | none => s
      | some (at_, e) => (s.writePte at_ (e &&& ~~~0x800#64)).dropTlb asid va g.size

/-! ### Writable aliases (R8, R300) -/

/-- A byte of a stack lies in a page that is mapped twice, once at least as a normal page and once at least writable (R300). -/
def State.aliased (s : State) (phys : Nat) : Bool :=
  let ms := s.frames.filter (fun m => m.frame ≤ phys && phys < m.frame + m.size)
  1 < ms.length && ms.any (fun m => m.attr == 0) && ms.any Mapped.w

/-- The stack byte of a normal page's byte, by the mappings that stand. -/
def State.frameByte (s : State) (asid va : Nat) : Option Nat :=
  (s.frames.find? (fun m => m.asid == asid && m.attr == 0 && m.va ≤ va && va < m.va + m.size)).map (fun m => m.frame + (va - m.va))

/-- An undefined byte (R8, R300): a free value for each address and each clk (log 2). -/
def State.freeByte (s : State) (asid va : Nat) : Byte :=
  (Config.freeBits (2 ^ 200 + (asid * 2 ^ 57 + va) * 2 ^ 64 + s.clk)).extractLsb' 0 8

/-- A byte of a normal page as a read finds it: undefined where the page has a writable alias (R300). -/
def State.orFree (s : State) (asid va : Nat) (b : Byte) : Byte :=
  if (s.frameByte asid va).any s.aliased then s.freeByte asid va else b

/-! ### The home of a line: the LLC and the stacks behind it -/

/-- The translation of a normal page's byte, `none` where it is not mapped or its page is not normal. -/
def State.stackOf (s : State) (asid va : Nat) : Option Trans :=
  match s.ctxOfAsid asid with
  | none => none
  | some c =>
    match s.translate c va with
    | .ok t => if t.attr == 0 then some t else none
    | .prot | .absent => none

/-- The physical address of a byte of a normal page. -/
def State.physOf (s : State) (asid va : Nat) : Option Nat := (s.stackOf asid va).map Trans.phys

/-- A line of a stack stood on a channel that was lost (R296, R435). -/
def ChanLoss.hits (c : ChanLoss) (k : Nat) : Bool :=
  k < 2 ^ 44 && c.dies.contains (Config.frameDie (k / 512)).val && c.dead.contains (homeFold k c.live)

/-- A line of memory is poisoned (R430). -/
def State.poisonLine (s : State) (k : Nat) : Bool := s.poison.contains k || (!s.sound.contains k && s.losses.any (fun c => c.hits k))

/-- Poison a line of memory, or make it good. -/
def State.setPoison (s : State) (k : Nat) (b : Bool) : State :=
  { s with
    poison := s.poison.filter (fun q => q != k) ++ (if b then [k] else [])
    sound := if !b && s.losses.any (fun c => c.hits k) then k :: s.sound.filter (fun q => q != k) else s.sound }

/-- The stack byte of a line that a migration has not pulled yet lies in the old frame (R311). -/
def State.stackKey (s : State) (phys : Nat) : Nat :=
  match s.migrations.find? (fun g => g.new ≤ phys && phys < g.new + g.size) with
  | none => phys
  | some g => if g.valid.contains ((phys - g.new) / 128) then phys else phys - g.new + g.old

/-- Pull the line of a byte into the new frame of a migrating page (R311); with the last line its migration ends (R348). -/
def State.pull (s : State) (phys : Nat) : State :=
  match s.migrations.find? (fun g => g.new ≤ phys && phys < g.new + g.size) with
  | none => s
  | some g =>
    let i := (phys - g.new) / 128
    if g.valid.contains i then s
    else
      let s : State := { s.setPoison (g.new / 128 + i) (s.poisonLine (g.old / 128 + i)) with
        mem := s.mem.writeN (g.new + 128 * i) (s.mem.readN (g.old + 128 * i) 128)
        migrations := s.migrations.map (fun h =>
          if h.asid == g.asid && h.va == g.va then { h with valid := i :: h.valid } else h) }
      s.endMigration g.asid g.va

/-- The line of a normal page as its stack holds it (R298), for a fill under a hint. -/
def State.stackLine (s : State) (asid vline : Nat) (h : Hint) (t : Trans) : Line :=
  { asid := asid, vline := vline
    bytes := (List.range 128).map (fun i => { v := s.mem.read (s.stackKey (t.phys + i)), st := .clean })
    r := t.r, w := t.w, x := t.x, cls := hintClass h, held := false
    poison := s.poisonLine (s.stackKey t.phys / 128) }

/-- A byte of a normal page at its home (R382): the LLC's copy, else the stack's. -/
def State.homeRead (s : State) (asid va : Nat) : Byte :=
  s.orFree asid va (match findLine s.llc asid (va / 128) with
    | some l => (l.byte (va % 128)).v
    | none =>
      match s.physOf asid va with
      | some p => s.mem.read (s.stackKey p)
      | none => 0)

/-- Write the dirty bytes of a line of a page to the stack (R302, R311). -/
def State.stackTake (s : State) (l : Line) (p : Nat) : State :=
  let s := s.pull p
  { s.setPoison (p / 128) l.poison with
    mem := (List.range 128).foldl (fun m i => if (l.byte i).st == .dirty then m.write (p + i) (l.byte i).v else m) s.mem }

/-- Write a line's dirty bytes to the stack and mark them clean (R302). A page that may not be written, or is not mapped, refuses them
(R303): the answer says whether they were taken. -/
def State.llcClean (s : State) (asid vline : Nat) : State × Bool :=
  match findLine s.llc asid vline with
  | none => (s, true)
  | some l =>
    if !l.dirty then (s, true)
    else
      match if l.w then s.physOf asid (vline * 128) else none with
      | none => (s, false)
      | some p =>
        let s := s.stackTake l p
        ({ s with llc := modLine s.llc asid vline Line.cleaned }, true)

/-- The home slice and set of each line of an LCM page, among n live slices. -/
def Pinned.lines (p : Pinned) (n : Nat) : List (Nat × Nat) :=
  (List.range (p.size / (if p.wide then 128 else 256))).map (fun i =>
    let k := p.va / (if p.wide then 128 else 256) + i
    (homeSlice p.asid k n, homeSet p.asid k))

/-- A line shares a home slice and set, of one saggar, with another. -/
def State.sameHome (s : State) (a : Line) (asid vline : Nat) : Bool := s.homeOf a.asid a.vline == s.homeOf asid vline

/-- The LLC lines of the home set of a line. -/
def State.llcSet (s : State) (asid vline : Nat) : List Line := s.llc.filter (fun l => s.sameHome l asid vline)

/-- The ways of the home set of a line that normal lines may take (R297, R314): 16, less those that pinned LCM lines occupy. -/
def State.llcWays (s : State) (asid vline : Nat) : Nat :=
  let (g, k, i) := s.homeOf asid vline
  16 - ((s.pinned.filter (fun p => s.saggarOfAsid p.asid == g)).map (fun p => (p.lines (s.liveSlices g)).count (k, i))).sum

/-- Evict an LLC line (R302): its dirty bytes go to the stack; one that is refused stays, held (R303). -/
def State.llcEvict (v : Line) (s : State) : State :=
  let (s, ok) := s.llcClean v.asid v.vline
  { s with llc := if ok then dropLine s.llc v.asid v.vline else modLine s.llc v.asid v.vline (fun l => { l with held := true }) }

/-- Make room in the set of a line at its home (R297). -/
def State.llcRoom (s : State) (asid vline : Nat) : State :=
  makeRoom (fun s => s.llcSet asid vline) (s.llcWays asid vline) State.llcEvict ((s.llcSet asid vline).length + 1) s

/-- Fill a line into the LLC from its stack (R295 to R298), if it is not there. Where no way of its set can be freed, it is not filled: its
accesses are performed at the stack (log 91). -/
def State.llcFill (s : State) (asid vline : Nat) (h : Hint) : State :=
  match findLine s.llc asid vline with
  | some _ => { s with llc := touchLine s.llc asid vline h }
  | none =>
    match s.stackOf asid (vline * 128) with
    | none => s
    | some t =>
      let s := s.llcRoom asid vline
      if (s.llcSet asid vline).length < s.llcWays asid vline then
        let s := s.pull t.phys
        { s with llc := putLine s.llc (s.stackLine asid vline h t) }
      else s

/-- The line at its home: the LLC's, or as the stack holds it. -/
def State.homeLine (s : State) (asid vline : Nat) : Option Line :=
  (findLine s.llc asid vline).orElse (fun _ => (s.stackOf asid (vline * 128)).map (s.stackLine asid vline .normal))

/-- Write a byte of a normal page at its home. -/
def State.homeWrite (s : State) (asid va : Nat) (v : Byte) : State :=
  let s := s.llcFill asid (va / 128) .normal
  match findLine s.llc asid (va / 128), s.physOf asid va with
  | none, some p =>
    let s := s.pull p
    { s with mem := s.mem.write p v }
  | _, _ => { s with llc := modLine s.llc asid (va / 128) (fun l => { l with bytes := l.bytes.set (va % 128) { v := v, st := .dirty } }) }

/-! ### Write-backs and ownership within a cluster -/

/-- Every byte of a line is its own: nothing of the copy below it is left (R430). -/
def Line.whole (l : Line) : Bool := l.bytes.all (fun b => b.st == .dirty || b.st == .pending)

/-- The poison of a line laid over the copy below it (R430). -/
def Line.poisonOver (l c : Line) : Bool := if l.whole then l.poison else c.poison || l.poison

/-- Lay the dirty bytes of a line over another copy of it (R295, R302), with its poison. -/
def mergeDirty (l c : Line) : Line :=
  { c with
    bytes := (List.range 128).map (fun i => if (l.byte i).st == .dirty then l.byte i else c.byte i)
    poison := l.poisonOver c }

/-- Lay the dirty bytes of a line over the home's copy (R302). A home copy without write permission refuses them (R303): the answer says
whether they were taken. -/
def State.homeTake (s : State) (l : Line) : State × Bool :=
  if !l.dirty then (s, true)
  else
    let s := s.llcFill l.asid l.vline .normal
    match findLine s.llc l.asid l.vline, s.stackOf l.asid (l.vline * 128) with
    | some h, _ => if h.w then ({ s with llc := modLine s.llc l.asid l.vline (mergeDirty l) }, true) else (s, false)
    | none, some t => if t.w then (s.stackTake (mergeDirty l (s.stackLine l.asid l.vline .normal t)) t.phys, true) else (s, false)
    | none, none => (s, false)

/-- The L1s of a cluster that hold a line. -/
def State.l1Copies (s : State) (cl asid vline : Nat) : List Line :=
  (s.cores.filter (fun c => c.cluster == cl)).filterMap (fun c => findLine c.l1 asid vline)

/-- Take the dirty bytes of one core's L1 line into the cluster cache, leaving the L1 line clean. A cluster cache's copy without write
permission refuses them (R303): the answer says whether they were taken. -/
def State.l1ToCC (s : State) (cl core asid vline : Nat) : State × Bool :=
  match findLine (s.core cl core).l1 asid vline with
  | none => (s, true)
  | some l =>
    if !l.dirty then (s, true)
    else
      let clean := fun (s : State) => s.modCore cl core (fun c => { c with l1 := modLine c.l1 asid vline Line.cleaned })
      match findLine (s.ccLines cl) asid vline with
      | some c => if c.w then (clean (s.modCC cl (fun ls => modLine ls asid vline (mergeDirty l))), true) else (s, false)
      | none =>
        let (s, ok) := s.homeTake l
        (if ok then clean s else s, ok)

/-- Take the dirty bytes of cores' L1 lines into the cluster cache. -/
def takeL1s (cl asid vline : Nat) : List Nat → State → State × Bool
  | [], s => (s, true)
  | c :: cs, s =>
    let (s, a) := s.l1ToCC cl c asid vline
    let (s, b) := takeL1s cl asid vline cs s
    (s, a && b)

/-- Write a line's dirty bytes from a cluster's caches back to its home, as a release, CFLUSH or CINV forces it (R199, R211). The answer says
whether no write-back was refused (R214, R303); a line that is refused stays dirty, and no longer held. DEDUCED (log 113): stored bytes that still wait for
their ownership grant (R301) are no dirty data yet, and stay. -/
def State.flushLine (s : State) (cl asid vline : Nat) : State × Bool :=
  let (s, up) := takeL1s cl asid vline (List.range 8) s
  let free := fun (s : State) => s.modCC cl (fun ls => modLine ls asid vline (fun l => { l with held := false }))
  match findLine (s.ccLines cl) asid vline with
  | none => (s, up)
  | some l =>
    let (s, ok) := s.homeTake l
    (if ok then s.modCC cl (fun ls => modLine ls asid vline Line.cleaned) else free s, up && ok)

/-- The clean bytes of a cluster's line are read anew from the home (R202, R385, R387), with the poison of the line there (R430). -/
def State.refreshCC (s : State) (cl asid vline : Nat) : State :=
  let bad := (s.homeLine asid vline).any Line.poison
  s.modCC cl (fun ls => modLine ls asid vline (fun l =>
    { l with
      bytes := l.bytes.zipIdx.map (fun (b, i) => if b.st == .dirty then b else { b with v := s.homeRead asid (128 * vline + i) })
      poison := if l.whole then l.poison else (l.dirty && l.poison) || bad }))

/-- Invalidate a cluster's copies of a line but for what is dirty or waits for a grant. The cluster cache keeps a line that one of its L1s
still holds (R295), with its clean bytes read anew. -/
def State.invalLine (s : State) (cl asid vline : Nat) : State :=
  let here := fun (l : Line) => l.asid == asid && l.vline == vline
  let give := fun (l : Line) => if here l && !l.dirty then l.stripped else l
  let s : State := { s with cores := s.cores.map (fun c =>
    if c.cluster == cl then { c with l1 := (c.l1.filter (fun l => !here l || l.dirty || l.pending)).map give } else c) }
  if (s.l1Copies cl asid vline).isEmpty && !((findLine (s.ccLines cl) asid vline).any Line.dirty) then
    s.modCC cl (fun ls => dropLine ls asid vline)
  else s.refreshCC cl asid vline

/-- Evict a line of a cluster cache (R295, R302): it leaves the L1s too, and its dirty bytes go home; one that is refused stays, held
(R303). -/
def State.ccEvict (cl : Nat) (v : Line) (s : State) : State :=
  let (s, ok) := s.flushLine cl v.asid v.vline
  if ok then s.invalLine cl v.asid v.vline
  else s.modCC cl (fun ls => modLine ls v.asid v.vline (fun l => { l with held := true }))

/-- The lines of a cluster cache's set. One whose bytes wait for a grant in an L1 stands as held: it cannot leave. -/
def State.ccSet (s : State) (cl vline : Nat) : List Line :=
  ((s.ccLines cl).filter (fun l => l.vline % 512 == vline % 512)).map (fun l =>
    { l with held := l.held || (s.l1Copies cl l.asid l.vline).any Line.pending })

/-- Make room in a set of a cluster cache (R297). -/
def State.ccRoom (s : State) (cl vline : Nat) : State :=
  makeRoom (fun s => s.ccSet cl vline) 16 (State.ccEvict cl) ((s.ccSet cl vline).length + 1) s

/-- Fill a line into a cluster cache from its home (R298), if it is not there and a way of its set can be freed. -/
def State.ccFill (s : State) (cl asid vline : Nat) (h : Hint) : State :=
  match findLine (s.ccLines cl) asid vline with
  | some _ => s.modCC cl (fun ls => touchLine ls asid vline h)
  | none =>
    let s := (s.ccRoom cl vline).llcFill asid vline h
    match s.homeLine asid vline with
    | none => s
    | some l => if (s.ccSet cl vline).length < 16 then s.modCC cl (fun ls => putLine ls (l.copied h)) else s

/-- The clusters whose caches hold a dirty copy of a line. -/
def State.owners (s : State) (asid vline : Nat) : List Nat :=
  ((s.clusters.filter (fun c => (findLine c.lines asid vline).any Line.dirty)).map Cluster.cluster ++
   (s.cores.filter (fun c => (findLine c.l1 asid vline).any Line.dirty)).map Core.cluster).eraseDups

/-- Recall ownership of a line from clusters (R187): dirty bytes go home and those clusters' copies are dropped. -/
def State.recall (s : State) (asid vline : Nat) (cls : List Nat) : State :=
  cls.foldl (fun s cl => ((s.flushLine cl asid vline).1).invalLine cl asid vline) s

/-- Recall every cluster's ownership of a line (R187). -/
def State.recallOwners (s : State) (asid vline : Nat) : State := s.recall asid vline (s.owners asid vline)

/-- The other L1s of a cluster give up the dirty bytes of a line that a core misses (R301, R382). -/
def State.clusterSync (s : State) (cl core asid vline : Nat) : State :=
  (takeL1s cl asid vline ((List.range 8).filter (fun c => c != core)) s).1

/-! ### Lost locality (R337, R340) -/

/-- A line with its ASID as one number. -/
def lineKey (asid vline : Nat) : Nat := asid * 2 ^ 50 + vline

/-- LOST of a LEASE register (R279). -/
def leaseLost (l : DWord) : Nat := bitsOf l 32 16

/-- A miss of a warp that matches one of its victim tags (R337): it is counted, and the load shrinks when LOST passes LOSTMAX (R340). -/
def State.victimHit (s : State) (w asid vline : Nat) : State :=
  match s.warp? w with
  | none => s
  | some x =>
    if x.victims.contains (lineKey asid vline) then
      let lost := min (leaseLost x.lease + 1) 65535
      let s := s.modWarp w (fun x => { x with
        victims := x.victims.erase (lineKey asid vline)
        lease := (x.lease &&& ~~~0xFFFF00000000#64) ||| BitVec.ofNat 64 (lost * 2 ^ 32) })
      let s := s.bump (s.ctxIx w) evVictimHit 1 (some w)
      if leaseLost x.lease = x.lostMax && lost = x.lostMax + 1 && x.state == .active && !x.shrunk then s.shrink w else s
    else s

/-- The newest of 32 victim tags (R337). -/
def pushTag (v : List Nat) (k : Nat) : List Nat := (v.erase k ++ [k]).drop ((v.erase k).length + 1 - 32)

/-- Change every warp of a core. -/
def State.modWarpsOn (s : State) (cl core : Nat) (f : Warp → Warp) : State :=
  { s with warps := s.warps.zipIdx.map (fun (x, i) => if x.core == core && s.clusterOf i == cl then f x else x) }

/-! ### The L1s (R295, R297, R301) -/

/-- The ways of a core's L1 (R295, R11). -/
def State.l1Ways (s : State) (cl core : Nat) : Nat := (384 - s.scratchOn cl core / 1024) / 16

/-- The lines of a set of a core's L1. -/
def State.l1Set (s : State) (cl core vline : Nat) : List Line := (s.core cl core).l1.filter (fun l => l.vline % 128 == vline % 128)

/-- Evict a line of an L1 for a fill (R302): its dirty bytes go to the cluster cache, and its address enters the victim tags of the warps
whose touch bit it carries (R337). One that is refused stays, held (R303). -/
def State.l1Evict (cl core : Nat) (v : Line) (s : State) : State :=
  let (s, ok) := s.l1ToCC cl core v.asid v.vline
  let k := lineKey v.asid v.vline
  if ok then
    (s.modCore cl core (fun c => { c with l1 := dropLine c.l1 v.asid v.vline })).modWarpsOn cl core (fun x =>
      if x.resident && x.touched.contains k then { x with victims := pushTag x.victims k } else x)
  else s.modCore cl core (fun c => { c with l1 := modLine c.l1 v.asid v.vline (fun l => { l with held := true }) })

/-- Make room in a set of an L1 (R297). -/
def State.l1Room (s : State) (cl core vline : Nat) : State :=
  makeRoom (fun s => s.l1Set cl core vline) (s.l1Ways cl core) (State.l1Evict cl core) ((s.l1Set cl core vline).length + 1) s

/-- Put a line into a core's L1. One that was not there carries no touch bit (R337). -/
def State.l1Put (s : State) (cl core : Nat) (l : Line) : State :=
  let k := lineKey l.asid l.vline
  let s := if (findLine (s.core cl core).l1 l.asid l.vline).isSome then s
    else s.modWarpsOn cl core (fun x => { x with touched := x.touched.filter (fun q => q != k) })
  s.modCore cl core (fun c => { c with l1 := putLine c.l1 l })

/-- Bring a line into a core's L1 through the cluster cache (R187, R295, R299), if it is not there and a way can be freed: with the cluster
cache's bytes, or, for a store, with none. -/
def State.l1Fill (s : State) (cl core asid vline : Nat) (h : Hint) (empty : Bool) : State :=
  match findLine (s.core cl core).l1 asid vline with
  | some _ => s.modCore cl core (fun c => { c with l1 := touchLine c.l1 asid vline h })
  | none =>
    let s := ((s.clusterSync cl core asid vline).ccFill cl asid vline h).l1Room cl core vline
    match findLine (s.ccLines cl) asid vline with
    | none => s
    | some l =>
      if (s.l1Set cl core vline).length < s.l1Ways cl core then
        s.l1Put cl core (if empty then (l.copied h).stripped else l.copied h)
      else s

/-- A line stands in a core's L1. -/
def State.inL1 (s : State) (cl core asid vline : Nat) : Bool := (findLine (s.core cl core).l1 asid vline).isSome

/-- A near access of a warp brings its line into the core's L1, and the line carries the warp's touch bit (R337). -/
def State.nearFill (s : State) (w cl core asid vline : Nat) (h : Hint) (empty : Bool) : State :=
  let s := s.l1Fill cl core asid vline h empty
  let k := lineKey asid vline
  if s.inL1 cl core asid vline then
    s.modWarp w (fun x => if x.touched.contains k then x else { x with touched := k :: x.touched })
  else s

/-- A near access that counts: a miss may meet a victim tag (R337). -/
def State.nearOpen (s : State) (w cl core asid vline : Nat) (h : Hint) (empty : Bool) : State :=
  (if s.inL1 cl core asid vline then s else s.victimHit w asid vline).nearFill w cl core asid vline h empty

/-- The pending bytes of a line in a core's L1 wait for their grant (R301). -/
def State.pendingAt (s : State) (cl core asid vline : Nat) : Bool := ((findLine (s.core cl core).l1 asid vline).map Line.pending).getD false

/-- Grant a core ownership of a line that its L1 holds (R301): the cluster's other L1s give up their copies, and the line's bytes come from the
cluster cache with the core's own laid over them. The access that asks for it brings its hint (R188). -/
def State.grant (s : State) (cl core asid vline : Nat) (h : Hint) : State :=
  let s := (s.clusterSync cl core asid vline).ccFill cl asid vline h
  let here := fun (l : Line) => l.asid == asid && l.vline == vline
  let give := fun (l : Line) => if here l && !l.dirty then l.stripped else l
  let s : State := { s with cores := s.cores.map (fun c =>
    if c.cluster == cl && c.core != core then
      { c with l1 := (c.l1.filter (fun l => !here l || l.dirty || l.pending)).map give } else c) }
  match findLine (s.ccLines cl) asid vline, findLine (s.core cl core).l1 asid vline with
  | some c, some own =>
    s.l1Put cl core
      { c with
        bytes := (List.range 128).map (fun i =>
          let b := own.byte i
          if b.st == .pending || b.st == .dirty then { b with st := .dirty } else { c.byte i with st := .clean })
        cls := raiseClass own.cls h, held := own.held, poison := own.poisonOver c }
  | _, _ => s

/-! ### Near and far accesses to normal pages -/

/-- A byte as a near read returns it (R382): the L1's copy, else the cluster cache's, else the home's. -/
def State.nearRead (s : State) (cl core asid va : Nat) : Byte :=
  let i := va % 128
  let below := fun (_ : Unit) =>
    match findLine (s.ccLines cl) asid (va / 128) with
    | some l => (l.byte i).v
    | none => s.homeRead asid va
  s.orFree asid va (match (findLine (s.core cl core).l1 asid (va / 128)).map (fun l => l.byte i) with
    | some b => if b.st != .invalid then b.v else below ()
    | none => below ())

/-- A near store of one byte into a line of the issuing core's L1: it stands there at once, pending its grant (R301). -/
def State.nearWrite (s : State) (cl core asid va : Nat) (v : Byte) : State :=
  s.modCore cl core (fun c => { c with l1 := modLine c.l1 asid (va / 128) (fun l =>
    { l with bytes := l.bytes.set (va % 128) { v := v, st := .pending } }) })

/-- The copies of the issuing core and its cluster cache, which a far access with a hint touches in place (R187, R188). -/
def State.touchCopies (s : State) (cl core asid vline : Nat) (h : Hint) : State :=
  (s.modCC cl (fun ls => touchLine ls asid vline h)).modCore cl core (fun c => { c with l1 := touchLine c.l1 asid vline h })

/-- A far store of one byte: at the home, and in place in the copies of the issuing core and its cluster, over pending bytes of the
core's own (R187, R379, R381). -/
def State.farWrite (s : State) (cl core asid va : Nat) (v : Byte) : State :=
  let s := (s.clusterSync cl core asid (va / 128)).homeWrite asid va v
  let set := fun (own : Bool) (l : Line) => { l with bytes := l.bytes.modify (va % 128) (fun b =>
    if b.st == .invalid || (b.st == .pending && !own) then b else { v := v, st := .clean }) }
  let s := s.modCC cl (fun ls => modLine ls asid (va / 128) (set true))
  { s with cores := s.cores.map (fun c =>
      if c.cluster == cl then { c with l1 := modLine c.l1 asid (va / 128) (set (c.core == core)) } else c) }

end Sys2Proof.Machine
end

