-- ==== Sys2Proof/Machine/Ops.lean ====
section
/-! DEFINITION. The operations that instructions and events share: where an address lies, bytes and counter words at their place, what
engines and control cores add to counters, the fault logs, and taking a trap. -/
namespace Sys2Proof.Machine

/-! ### Where an address lies (R292, R293, R299) -/

/-- Reading and writing allowed, of a window. -/
def Perm.window : Perm := { r := true, w := true, x := false, attr := 2, lcb := 0, node := 0, phys := 0 }

/-- The blocks of a gang that hold scratch on a core, in ascending block index (R293). -/
def State.gangOn (s : State) (g core : Nat) : List Nat :=
  (List.range s.blocks.length).filter (fun b =>
    match s.blocks[b]? with
    | none => false
    | some x => x.gang == g && x.cores.contains core && s.scratchOf b > 0)

/-- The byte of a cluster window slot (R293): the block whose share holds the offset, and the byte of its scratch. -/
def slotByte (size : Nat → Nat) : List Nat → Nat → Option (Nat × Nat)
  | [], _ => none
  | b :: r, off => if off < size b then some (b, off) else slotByte size r (off - size b)

/-- Where a warp's access to a canonical address goes, with the permissions it meets there. -/
def State.resolve (s : State) (w : Nat) (va : DWord) : Except Walk (Perm × Loc) :=
  match s.warp? w with
  | none => .error .prot
  | some x =>
    match regionOf va.toNat with
    | .reserved => .error .prot
    | .own off =>
      if off < s.scratchOf x.block then .ok (.window, { place := .scr x.block x.core, addr := off }) else .error .prot
    | .cluster slot off =>
      match s.blocks[x.block]? with
      | none => .error .prot
      | some b =>
        match slotByte s.scratchOf (s.gangOn b.gang slot) off with
        | some (c, o) =>
          if ((s.blocks[c]?).map Block.finished).getD true then .error .prot
          else .ok (.window, { place := .scr c slot, addr := o })
        | none => .error .prot
    | .global | .peer =>
      (s.perm (s.ctxIx w) (s.clusterOf w) x.core va.toNat).map (fun p =>
        let a := s.asid (s.ctxIx w)
        (p, match p.attr with
          | 0 => { place := .glob a, addr := va.toNat % 2 ^ 57 }
          | 1 => { place := .lcm a, addr := va.toNat % 2 ^ 57 }
          | 2 => { place := .nc, addr := p.phys }
          | _ => { place := .peer p.node, addr := p.phys }))

/-- Where an address of a context lies for the control cores and the scheduler, which have no windows. -/
def State.ctxLoc (s : State) (ctx : Nat) (va : DWord) : Option Loc :=
  if !canonical va then none
  else
    match regionOf va.toNat with
    | .global | .peer =>
      match s.translate ctx va.toNat with
      | .ok t =>
        let a := s.asid ctx
        some (match t.attr with
          | 0 => { place := .glob a, addr := va.toNat % 2 ^ 57 }
          | 1 => { place := .lcm a, addr := va.toNat % 2 ^ 57 }
          | 2 => { place := .nc, addr := t.phys }
          | _ => { place := .peer t.node, addr := t.phys })
      | .prot | .absent => none
    | .own _ | .cluster _ _ | .reserved => none

/-- A request to a place can be put on its shelf (R413): a restack stops injection, but not the crossbar to a scratchpad. -/
def State.injects (s : State) (l : Loc) : Bool :=
  !s.drainShelf || (match l.place with
    | .scr _ _ => true
    | .glob _ | .nc | .lcm _ | .peer _ => false)

/-! ### Bytes at their place (R187, R293, R300) -/

/-- The live-shelf table as programs read it (R357). -/
def State.shelfWord (s : State) : DWord :=
  BitVec.ofNat 64 (s.epoch % 2 ^ 16 * 2 ^ 32 + (if s.drainShelf then 2 ^ 16 else 0) +
    ((List.range 8).filter (fun k => s.liveShelves.getLsbD k)).length * 2 ^ 8 + s.liveShelves.toNat)

/-- A byte at a physical address: of the live-shelf table, or of a stack. -/
def State.physRead (s : State) (p : Nat) : Byte :=
  if shelfTable ≤ p && p < shelfTable + 8 then s.shelfWord.extractLsb' (8 * (p - shelfTable)) 8
  else if s.aliased p then s.freeByte (2 ^ 16) p
  else s.mem.read (s.stackKey p)

/-- A byte at the place that holds it, i bytes on. A peer's bytes are its own module's. -/
def State.placeRead (s : State) (l : Loc) (i : Nat) : Byte :=
  match l.place with
  | .glob a => s.homeRead a (l.addr + i)
  | .nc => s.physRead (l.addr + i)
  | .lcm a => s.mem.read (lcmKey a (l.addr + i))
  | .scr b c => s.mem.read (scrKey b c (l.addr + i))
  | .peer _ => 0

/-- Write a byte at the place that holds it. -/
def State.placeWrite (s : State) (l : Loc) (i : Nat) (v : Byte) : State :=
  match l.place with
  | .glob a => s.homeWrite a (l.addr + i) v
  | .nc =>
    let s := s.pull (l.addr + i)
    { s with mem := s.mem.write (l.addr + i) v }
  | .lcm a => { s with mem := s.mem.write (lcmKey a (l.addr + i)) v }
  | .scr b c => { s with mem := s.mem.write (scrKey b c (l.addr + i)) v }
  | .peer _ => s

/-- n bytes at their place, as a number. -/
def State.placeVal (s : State) (l : Loc) (n : Nat) : DWord :=
  BitVec.ofNat 64 (leNat ((List.range n).map (fun i => s.placeRead l i)))

/-- Write the low n bytes of a value at their place. -/
def State.placePut (s : State) (l : Loc) (n : Nat) (v : DWord) : State :=
  (List.range n).foldl (fun s i => s.placeWrite l i (v.extractLsb' (8 * i) 8)) s

/-- A line that is read from memory is pulled first, where its page migrates (R311): of an NC page, or of a normal page where the LLC does not hold
it. -/
def State.pullAt (s : State) (l : Loc) : State :=
  match l.place with
  | .nc => s.pull l.addr
  | .glob a =>
    match findLine s.llc a (l.addr / 128), s.physOf a l.addr with
    | none, some p => s.pull p
    | _, _ => s
  | .lcm _ | .scr _ _ | .peer _ => s

/-- Make ready for an atomic at the home (R187): every cluster's ownership of the line is recalled, and the issuing cluster keeps no
copy of it. -/
def State.homeReady (s : State) (cl : Option Nat) (l : Loc) : State :=
  match l.place with
  | .glob a =>
    let s := s.recallOwners a (l.addr / 128)
    match cl with
    | some c => s.invalLine c a (l.addr / 128)
    | none => s
  | .nc | .lcm _ | .scr _ _ | .peer _ => s.pullAt l

/-! ### Counter words (R362 to R366) -/

/-- The tag of the word at a place. -/
def State.ctrTag (s : State) (l : Loc) : Option CtrTag := s.tags.find? (fun t => t.loc == l)

/-- Some byte of n at a place lies in a tagged word (R184). -/
def State.tagHit (s : State) (l : Loc) (n : Nat) : Bool :=
  s.tags.any (fun t => t.loc.place == l.place && t.loc.addr < l.addr + n && l.addr < t.loc.addr + 8)

/-- Tag a word (R227, R362). -/
def State.tagWord (s : State) (l : Loc) (ext : Bool) : State :=
  { s with tags := { loc := l, ext := ext } :: s.tags.filter (fun t => t.loc != l) }

/-- Discard the tag of a word. -/
def State.untag (s : State) (l : Loc) : State := { s with tags := s.tags.filter (fun t => t.loc != l) }

/-- The word of a counter at its home. -/
def State.ctrWordAt (s : State) (l : Loc) : DWord := s.placeVal l 8

/-- Some warp, of this module or a peer, waits on a counter word: it holds a reference (R368). -/
def State.referenced (s : State) (l : Loc) : Bool :=
  s.inWatches.any (fun w => w.loc == l) || (List.range s.warps.length).any (fun w =>
    match s.warp? w with
    | none => false
    | some x =>
      match x.hold with
      | .counter cs => cs.any (fun c =>
          match s.resolve w c.1.addr with
          | .ok (_, l') => l' == l
          | .error _ => false)
      | .none | .drain _ | .yield _ | .batch | .fetch _ | .fence _ _ | .issue _ | .accept _ | .arrive _ | .stop => false)

/-- The end of an engine's, the scheduler's or a control core's add (R236, R366): it is made; the word is untagged or retired, and it is
dropped; or a peer refuses it with a reason of R424, or gives no answer (R204). -/
inductive AddEnd where
  | made | dropped | remote (reason : Nat) | silent
deriving DecidableEq, Repr

/-- The reason of R334 for an add that was not made, with the NACK reason. -/
def AddEnd.reason : AddEnd → Option (Nat × Nat)
  | .made => none
  | .dropped => some (0x43, 0)
  | .remote k => some (codeRemote.toNat, k)
  | .silent => some (codeRtimeout.toNat, 0)

/-- A reason with which the host, or a peer, refuses a request (R424, R427), as a free value picks it: HOSTERR is the host's, FLOWBROKEN is for
flows, and NOROUTE arises at this module. -/
def nackOf (node free : Nat) : Nat := if node = 255 then 0x0C else [1, 2, 3, 4, 5, 6, 7, 8, 0x0A].getD (free % 9) 1

/-- How a peer answers an add (R204, R236, R424), a free value (log 2): it is made, dropped, refused, or not answered. -/
def peerAdd (node : Nat) (free : BitVec 64) : AddEnd :=
  match free.toNat % 4 with
  | 0 => .made
  | 1 => .dropped
  | 2 => .remote (nackOf node (free.toNat / 4))
  | _ => .silent

/-- An add by an engine, the scheduler or a control core (R366). One to the host, which takes no counter operation (R427), or to a node that no
live route reaches (R419) is refused here; one to a peer is made there, and carries this module's node number (R417). -/
def State.ctrUpdate (s : State) (l : Loc) (inc : DWord) : State × AddEnd :=
  match l.place with
  | .peer n =>
    if n = 255 then (s, .remote 0x01)
    else if !s.routed n then (s, .remote 0x0B)
    else
      let (k, s) := s.fresh 1
      ({ s with reports := s.reports ++ [{ kind := 0, fields := [n, l.addr, inc.toNat, s.node] }] }, peerAdd n (Config.freeBits k))
  | .glob _ | .nc | .lcm _ | .scr _ _ =>
    match s.ctrTag l with
    | none => (s, .dropped)
    | some _ =>
      let s := s.homeReady none l
      let old := s.ctrWordAt l
      if ctrRetired old then (s, .dropped) else (s.placePut l 8 (ctrPlus old inc), .made)

/-- The increment that sets ERR and adds n (R231). -/
def errInc (n : Nat) : DWord := BitVec.ofNat 64 (2 ^ 62 + n)

/-! ### The fault logs (R332, R402) -/

/-- A log of a context, or the module's inbound log. -/
def State.logAt (s : State) (ctx : Nat) (k : LogKind) : Log :=
  match k with
  | .inbound => s.inLog
  | .queue => ((s.ctxs[ctx]?).map Ctx.qlog).getD .zero
  | .copy => ((s.ctxs[ctx]?).map Ctx.clog).getD .zero
  | .trap => ((s.ctxs[ctx]?).map Ctx.tlog).getD .zero

/-- Change a log. -/
def State.modLog (s : State) (ctx : Nat) (k : LogKind) (f : Log → Log) : State :=
  match k with
  | .inbound => { s with inLog := f s.inLog }
  | .queue => s.modCtx ctx (fun c => { c with qlog := f c.qlog })
  | .copy => s.modCtx ctx (fun c => { c with clog := f c.clog })
  | .trap => s.modCtx ctx (fun c => { c with tlog := f c.tlog })

/-- The size of an entry (R333, R334, R402, R425). -/
def logSize : LogKind → Nat
  | .queue => 32
  | .copy => 128
  | .trap => 64
  | .inbound => 32

/-- The bytes of words, little-endian. -/
def wordBytes (ws : List DWord) : List Byte := ws.flatMap (fun w => leBytes 8 w.toNat)

/-- Write bytes at an address of a context, at their places; a byte that is not mapped is lost. -/
def State.ccWrite (s : State) (ctx : Nat) (va : DWord) : List Byte → State
  | [] => s
  | b :: r =>
    let s := match s.ctxLoc ctx va with
      | some l => (s.homeReady none l).placeWrite l 0 b
      | none => s
    State.ccWrite s ctx (va + 1) r

/-- Where an address of a log lies: one of a context's log in its memory, one of the module's inbound log at its frame. -/
def State.logLoc (s : State) (ctx : Nat) (k : LogKind) (va : DWord) : Option Loc :=
  match k with
  | .inbound => if va.toNat < 2 ^ 57 then some { place := .nc, addr := va.toNat } else none
  | .queue | .copy | .trap => s.ctxLoc ctx va

/-- Write bytes of a log at their places. -/
def State.logWrite (s : State) (ctx : Nat) (k : LogKind) (va : DWord) (bs : List Byte) : State :=
  match k with
  | .inbound => (bs.zipIdx).foldl (fun s x => s.placeWrite { place := .nc, addr := va.toNat + x.2 } 0 x.1) s
  | .queue | .copy | .trap => s.ccWrite ctx va bs

/-- Write one entry of a log (R332): WHAT without its LOSS bit, then the other words. A full ring drops the entry. The answer is how the add to its
PRODCTR ended. -/
def State.putEntry (s : State) (ctx : Nat) (k : LogKind) (what : Nat) (rest : List DWord) : State × AddEnd :=
  let g := s.logAt ctx k
  let val := fun (a : DWord) => ((s.logLoc ctx k a).map (fun l => s.placeVal l 8)).getD 0
  let used := (ctrValue (val g.prodctr) + 2 ^ 64 - (val g.cons).toNat) % 2 ^ 64
  if g.gone then (s, .made)
  else if used = 2 ^ g.logn then
    (s.modLog ctx k (fun g => { g with dropped := min (g.dropped + 1) (2 ^ 32 - 1), lossDue := true }), .made)
  else
    let at_ := g.base + BitVec.ofNat 64 (g.produced % 2 ^ g.logn * logSize k)
    let w0 := BitVec.ofNat 64 (what + (if g.lossDue then 2 ^ 63 else 0))
    let s := s.logWrite ctx k at_ (wordBytes (w0 :: rest))
    let (s, e) := match s.logLoc ctx k g.prodctr with
      | some l => s.ctrUpdate l 1
      | none => (s, .dropped)
    (s.modLog ctx k (fun g => { g with produced := g.produced + 1, lossDue := false }), e)

/-- A copy fault log entry for an add of a control core or the scheduler that was not made (R236, R334). -/
def State.lostAdd (s : State) (ctx lix : Nat) (va : DWord) (reason nack : Nat) : State :=
  (s.putEntry ctx .copy (reason * 2 ^ 32 + nack * 2 ^ 12) ([BitVec.ofNat 64 lix, 0, va, s.time] ++ List.replicate 11 0)).1

/-- Write one entry of a log. An add to the PRODCTR of a context's queue or trap log that is not made is logged in its copy fault log (R236, R366); that
of the copy fault log itself, and of the module's inbound log, is logged nowhere (log 13). -/
def State.logEntry (s : State) (ctx : Nat) (k : LogKind) (what : Nat) (rest : List DWord) : State :=
  let va := (s.logAt ctx k).prodctr
  let (s, e) := s.putEntry ctx k what rest
  match k, e.reason with
  | .queue, some (r, nack) | .trap, some (r, nack) => s.lostAdd ctx (2 ^ 64 - 1) va r nack
  | _, _ => s

/-- A trap log entry (R402): SRC, CODE, the warp of the block, the launch and the block, and DATA. -/
def State.trapEntry (s : State) (ctx src : Nat) (code : BitVec 8) (blockWarp lix bix : Nat) (data : List DWord) : State :=
  s.logEntry ctx .trap (src * 2 ^ 48 + code.toNat * 2 ^ 40 + blockWarp * 2 ^ 25)
    ([BitVec.ofNat 64 lix, BitVec.ofNat 64 bix, s.time] ++ data)

/-- The LAUNCHIX of a warp. -/
def State.launchNo (s : State) (w : Nat) : Nat := ((s.launchOf w).map Launch.ix).getD 0

/-- The BLOCKIX of a warp. -/
def State.blockNo (s : State) (w : Nat) : Nat := ((s.blockOf w).map Block.ix).getD 0

/-- A copy fault log entry (R334): OP, REASON, the elected thread of an MMA, the NACK reason, ITEM and DESC. -/
def State.copyEntry (s : State) (w op reason thread nack : Nat) (item : DWord) (desc : List DWord) : State :=
  s.logEntry (s.ctxIx w) .copy
    (op * 2 ^ 40 + reason * 2 ^ 32 + ((s.warp? w).map Warp.blockWarp).getD 0 * 2 ^ 25 + thread * 2 ^ 20 + nack * 2 ^ 12)
    ([BitVec.ofNat 64 (s.launchNo w), BitVec.ofNat 64 (s.blockNo w), item, s.time] ++
      (desc ++ List.replicate 6 0).take 6 ++ List.replicate 5 0)

/-- The reason DROPPED of R334. -/
def dropReason : Nat := 0x43

/-- An address of the cluster window that lies in the scratch of a block that has ended (R293, R365). -/
def State.endedScratch (s : State) (w : Nat) (va : DWord) : Bool :=
  match s.blockOf w, regionOf va.toNat with
  | some b, .cluster slot off =>
    (match slotByte s.scratchOf (s.gangOn b.gang slot) off with
      | some (c, _) => ((s.blocks[c]?).map Block.finished).getD false
      | none => false)
  | _, _ => false

/-- A fault of a counter address that an engine uses (R247, R264), as a trap code. In the scratch of a block that has ended there is no
word, and no fault (R365). -/
def State.ctrFault (s : State) (w : Nat) (ctr : DWord) : Option Nat :=
  if ctr.extractLsb' 0 3 != 0 then some codeAlign.toNat
  else if !canonical ctr then some codeProt.toNat
  else
    match s.resolve w ctr with
    | .error .absent => some codePage.toNat
    | .error _ => if s.endedScratch w ctr then none else some codeProt.toNat
    | .ok (p, l) =>
      match l.place with
      | .lcm _ => some codeLcm.toNat
      | .glob _ | .nc | .scr _ _ | .peer _ => if p.r && p.w then none else some codeProt.toNat

/-- An engine's add to a counter that a warp named (R236, R366), of an MMA with its elected thread: one whose address faults is logged (R247),
and so is one that is not made. -/
def State.engineAdd (s : State) (w op : Nat) (ctr inc : DWord) (desc : List DWord) (thread : Nat := 0) : State :=
  match s.ctrFault w ctr, s.resolve w ctr with
  | some r, _ => s.copyEntry w op r thread 0 ctr desc
  | none, .ok (_, l) =>
    let (s, e) := s.ctrUpdate l inc
    match e.reason with
    | none => s
    | some (r, nack) => s.copyEntry w op r thread nack ctr desc
  | none, .error _ => s.copyEntry w op dropReason thread 0 ctr desc

/-- A counter that an engine names can be reached, or never will be: its page is not one to wait for (R247). -/
def State.ctrReady (s : State) (w : Nat) (ctr : DWord) : Bool :=
  ctr == 0 || s.ctrFault w ctr != some codePage.toNat || !s.resolvable (s.ctxIx w) ctr.toNat

/-! ### The memories copies write (R213, R246) -/

/-- The memory of an address: 0 scratchpad, 1 cluster memory, 2 global memory, 3 a peer window, 4 none. -/
def memOf (va : DWord) : Nat :=
  match regionOf va.toNat with
  | .own _ => 0
  | .cluster _ _ => 1
  | .global => 2
  | .peer => 3
  | .reserved => 4

/-- The memory of a copy's destination. -/
def Copy.mem (c : Copy) : Nat := memOf (c.desc.getD 1 0)

/-- The memories a copy writes (R213): an UNPACK has a second destination, its scale tile (R245). -/
def Copy.mems (c : Copy) : List Nat :=
  match c.kind with
  | .unpack _ => [c.mem, memOf (c.desc.getD 2 0)]
  | .copy | .bcopy _ _ | .gather _ | .scatter _ => [c.mem]

/-- A DRAIN names a copy's memory (R213). -/
def drains (m : DrainMem) (mem : Nat) : Bool :=
  match m with
  | .scr => mem == 0
  | .clu => mem == 1
  | .glb => mem == 2
  | .peer => mem == 3
  | .all => true

/-- A copy or a slice of a warp has not ended. A generation is waited for through its slices (R213). -/
def Copy.open_ (c : Copy) : Bool := c.gen.isEmpty && (c.state == .slice || c.state == .queued || c.state == .running)

/-- The copies a DRAIN of a warp names have ended (R213). -/
def State.drainMet (s : State) (w : Nat) (m : DrainMem) : Bool := s.copies.all (fun c => c.warp != w || !c.open_ || !c.mems.any (drains m))

/-! ### Taking a trap, and returning from one (R395 to R400) -/

/-- A forced write-back of a line has trapped: its copies are no longer held from replacement (R303). -/
def State.freeHeld (s : State) (asid vline : Nat) : State :=
  let free := fun (ls : List Line) => modLine ls asid vline (fun l => { l with held := false })
  { s with
    cores := s.cores.map (fun c => { c with l1 := free c.l1 })
    clusters := s.clusters.map (fun c => { c with lines := free c.lines })
    llc := free s.llc }

/-- R395: the fault record and the resume point are written, the warp is TRAPPED, and its context's trap log receives an entry. -/
def State.takeTrap (s : State) (w : Nat) (t : TrapInfo) (iset : Mask) (caddr : DWord) (index : Nat) (done head : Bool) : State :=
  match s.warp? w with
  | none => s
  | some x =>
    let rec_ := faultRecord t index caddr (wcrTag x.wcr)
    let s := if t.code == codeWback then s.freeHeld (s.asid (s.ctxIx w)) (t.addr.toNat % 2 ^ 57 / 128) else s
    let s := s.modWarp w (fun x => { x with
      fault := rec_
      state := .trapped
      hold := .none
      pending := none
      pipe := none
      resume := { iset := iset, done := done, head := head, index := if head then 0 else index,
                  caddr := caddr.extractLsb' 3 54 } })
    (s.fillLoadAt w).trapEntry (s.ctxIx w) 1 t.code x.blockWarp (s.launchNo w) (s.blockNo w) rec_

/-- A trap of the instruction a warp's clause stands at (R85): it takes no effect. -/
def State.trapHere (s : State) (w : Nat) (t : TrapInfo) : State :=
  match (s.warp? w).bind Warp.clause with
  | none => s
  | some c => s.takeTrap w t c.iset c.addr c.idx false false

/-- Return from a trap (R400): the warp is ready to issue again, from its clause as it stands. The resume point and the fault record stand
(R285, R398). -/
def State.untrap (s : State) (w : Nat) : State := s.ready w

end Sys2Proof.Machine
end

