-- ==== Sys2Proof/Machine/Operands.lean ====
section
/-! DEFINITION. What an instruction sees when it issues, and every operand form of R72 to R77: registers through their maps, pairs, short
constants by type, immediates, L entries, the generated operands, predicates and draws. -/
namespace Sys2Proof.Machine

/-- An instruction as it issues: the machine, the warp and its clause, the threads it acts on (R67), the registers and L entries it
reads (with undefined values in place of what an untimely read would meet, R84), and the draw words of its threads (R115). -/
structure Env where
  s : State
  w : Nat
  x : Warp
  c : Clause
  act : Mask
  regs : Regs
  l : List (Option LEntry)

/-! ### Draws (R115, R159, R160) -/

/-- mix of R160. -/
def mix (key count : DWord) : DWord :=
  let z := key + count * 0x9E3779B97F4A7C15#64
  let z := (z ^^^ (z >>> 30)) * 0xBF58476D1CE4E5B9#64
  let z := (z ^^^ (z >>> 27)) * 0x94D049BB133111EB#64
  z ^^^ (z >>> 31)

/-- The RAND key of R160. -/
def randKey (seed : BitVec 128) (blockIx totalWarps blockWarp t : Nat) : DWord :=
  let g := BitVec.ofNat 64 (blockIx * 32 * totalWarps + 32 * blockWarp + t)
  seed.extractLsb' 0 64 ^^^ (seed.extractLsb' 64 64).rotateLeft 17 ^^^ g * 0xD1B54A32D192ED03#64

/-- The draw word of thread t: of its key and its count before the advance (R115, R161). -/
def Env.draw (e : Env) (t : Nat) : DWord :=
  let l := e.s.launchOf e.w
  mix (randKey ((l.map Launch.seed).getD 0) (e.s.blockNo e.w) ((l.map (fun l => pktTotalWarps l.pkt)).getD 0) e.x.blockWarp t)
    (e.regs.draws.getD t 0)

/-- The rounding of thread t's element; element 1 of a paired type takes the upper half of the draw word (R115). -/
def Env.rnd (e : Env) (rm : Rm) (t half : Nat) : Rnd :=
  if rm == .rs then { rm := rm, draw := (e.draw t).toNat / 2 ^ (32 * half) % 2 ^ 32 } else { rm := rm }

/-! ### Operand forms -/

/-- A short constant in a position of a type (R75, R182). -/
def constVal (ty : Ty) (k : Nat) : DWord := BitVec.ofNat 64 (if ty.isInt then k else fconst ty k)

/-- An immediate of an integer use (R72). -/
def immInt (imm : BitVec 18) : Src := .bcast (imm.signExtend 64)

/-- An immediate of a floating-point use (R72, R88): bits [31:14] of an FP32 value, converted with RN. -/
def immFloat (ty : Ty) (imm : BitVec 18) : Src :=
  let x := f2f ty .f32 {} (imm.toNat * 2 ^ 14)
  .bcast (BitVec.ofNat 64 (if ty.paired then x + 2 ^ 16 * x else x))

/-- An L entry that is unreadable reads as undefined elements (R77, R84), here from free value n on (log 2). -/
def freeL (n : Nat) : LEntry :=
  { scalar := false, slots := threads.map (fun t => (Config.freeBits (n + t)).setWidth 32), map := .ident, tag := 0, ready := 0 }

/-- The L entry n as the instruction sees it. -/
def Env.lent (e : Env) (n : Fin 4) : LEntry := (e.l.getD n.val none).getD (freeL 0)

/-- An operand of a type as a source (R48, R74 to R77). -/
def Env.src (e : Env) (ty : Ty) (x : Opnd) : Src :=
  match x with
  | .v n => srcReg e.regs (.v n.val) ty.wide
  | .o n => srcReg e.regs (.o n.val) ty.wide
  | .s n =>
    let v := e.regs.s.getD n.val 0
    .bcast (if ty.wide then v else (v.setWidth 32).setWidth 64)
  | .c k => .bcast (constVal ty k.val)
  | .l n => srcL (e.lent n)
  | .vz => .bcast 0
  | .vtid => srcTid false
  | .vlane => srcTid true

/-- The value of an S register, a short constant, or any broadcast operand. -/
def Env.scalar (e : Env) (ty : Ty) (x : Opnd) : DWord := ((e.src ty x).at 0).getD 0

/-- A register as a map-reading position sees it (R42, R77, R163): its slots, its map, its tag where a result may take the map by
reference, and whether the map is injective. -/
structure View where
  slots : List Word
  map : LMap
  tag : Option (BitVec 16)
  cls : BitVec 16
  inj : Bool
deriving DecidableEq, Repr

/-- A V, O or L operand of a map-reading position; an L entry of an S result stands as an IDENT register (R77). -/
def Env.view (e : Env) (x : Opnd) : View :=
  match x with
  | .l n =>
    let l := e.lent n
    if l.scalar then
      { slots := List.replicate 32 (l.slots.getD 0 0), map := .ident, tag := some 0, cls := 0, inj := true }
    else
      { slots := l.slots, map := l.map, tag := if tagClass l.tag = 5 then none else some l.tag, cls := l.tag
        inj := if tagClass l.tag = 5 then l.map.injOn fullMask else tagInj [] l.tag }
  | .v _ | .s _ | .c _ | .o _ | .vz | .vtid | .vlane =>
    let g := (opndReg? x).getD (.v 0)
    let r := e.regs.vreg g
    { slots := r.slots, map := e.regs.map g, tag := some r.tag, cls := r.tag, inj := tagInj e.regs.mt r.tag }

/-- The element of thread t in a view. -/
def View.elem (v : View) (t : Nat) : Option Word := (v.map.at t).map (fun p => v.slots.getD p.val 0)

/-- An L position of a 32-bit or 64-bit operand as a source: an L entry of an S result is an IDENT register there (R77, R163). -/
def Env.lsrc (e : Env) (ty : Ty) (x : Opnd) : Src :=
  match x with
  | .l n =>
    if (e.lent n).scalar then
      { vals := threads.map (fun _ => some (((e.lent n).slots.getD 0 0).setWidth 64)), maps := [.ident], tag := some 0, inj := true
        gen := false, lane := false }
    else srcL (e.lent n)
  | .v _ | .s _ | .c _ | .o _ | .vz | .vtid | .vlane => e.src ty x

/-- A predicate register's bits; 7 is PT (R67, R274). -/
def predMask (r : Regs) (p : Nat) : Mask := if p = 7 then fullMask else r.p.getD p 0

/-- A predicate spec (R143, R164). -/
def predSpec (r : Regs) (p : PredSpec) : Mask := predMask r p.p.val ^^^ (if p.neg then fullMask else 0)

/-- The predicate registers a spec reads. -/
def predReads (p : PredSpec) : List Reg := if p.p.val = 7 then [] else [.p p.p.val]

/-- The registers operands of given widths read. -/
def readRegs (xs : List (Ty × Opnd)) : List Reg := xs.flatMap (fun x => opndRegs x.1.wide x.2)

/-- The L entries operands read. -/
def readLs (xs : List (Ty × Opnd)) : List (Fin 4) := xs.filterMap (fun x =>
  match x.2 with
  | .l n => some n
  | .v _ | .s _ | .c _ | .o _ | .vz | .vtid | .vlane => none)

/-- Every source is broadcast: the class of R91, and one comparison (R132). -/
def allBroadcast (xs : List Opnd) : Bool := xs.all (fun x =>
  match x with
  | .s _ | .c _ | .vz => true
  | .v _ | .o _ | .l _ | .vtid | .vlane => false)

/-- The class of an instruction of the arithmetic groups (R91): SCL for an S destination, else VEC. -/
def arithClass (d : Opnd) : Nat := if d.isS then 1 else 0

end Sys2Proof.Machine
end

