-- ==== Sys2Proof/Machine/Issue.lean ====
section
/-! DEFINITION. The issue of an instruction of a clause (R65 to R85, R103, R410): what every meaning shares. A meaning gives what issue
judges of its word and what the instruction does; `issue` judges the word, the times of its reads and its waits, runs it, and
does what follows every instruction. -/
namespace Sys2Proof.Machine

/-- What issue judges of an instruction word: its head; its clause class, or none where any class accepts it; whether it is of the branch
group; the registers and L entries it reads and the registers it writes; whether it acts with no acting thread; its fixed latency;
whether it advances draw counts (R159); whether it is a memory instruction, which run-ahead treats on its own (R307); and whether it
rewrites all 32 threads of what it writes (R169, R173, R179). -/
structure Need where
  head : Head
  cls : Option Nat := none
  branch : Bool := false
  reads : List Reg := []
  ls : List (Fin 4) := []
  writes : List Reg := []
  also : List (Reg × Nat) := []
  always : Bool := false
  lat : Option Nat := none
  draws : Bool := false
  memory : Bool := false
  whole : Bool := false
deriving DecidableEq, Repr

/-- What an instruction does when its word and its times have passed: it traps with no effect; it is done; it holds its warp until it is
accepted; or it has not issued. -/
inductive Res where
  | trap (t : TrapInfo)
  | done (s : State) (f : Finish)
  | held (s : State) (f : Finish) (h : Hold)
  | stay (s : State)

/-! ### Times (R79 to R84) -/

/-- A result of the register is not timely at an encoded time (R83). DEDUCED (log 87): a read is judged for the register as a whole, whichever
of its threads the result is for. -/
def Warp.late (x : Warp) (start : Nat) (pend : List (Reg × Nat × Mask)) (g : Reg) : Bool :=
  x.outst.any (fun o => o.reg == g) || pend.any (fun p => p.1 == g && start < p.2.1)

/-- The threads of a result in a register that a write of the threads of a mask leaves standing. -/
def outlives (g : Reg) (m : Mask) (written : List Reg) (act : Mask) : Mask :=
  if written.contains g then (match g with | .s _ => 0 | .v _ | .o _ | .p _ => m &&& ~~~act) else m

/-- A register is the destination of an outstanding result, or a source an outstanding access has yet to read (R83). A result that a
scoreboard counts is outstanding until a WAIT names the scoreboard, so that the check never depends on how long an access takes (R84); and one that a
STALL trap was about stays so for the instruction that is executed again (R397, R400). -/
def State.unwritten (s : State) (w : Nat) (g : Reg) : Bool :=
  ((s.warp? w).map (fun x => x.stalled.contains g || x.outst.any (fun o => o.reg == g && o.sb.isSome))).getD false ||
    s.accs.any (fun a => a.warp == w && !a.wb && (a.dregs.contains g || a.srcs.contains g))

/-- An L entry can be read at an encoded time (R77). -/
def lReadable (l : List (Option LEntry)) (start : Nat) (n : Fin 4) : Bool :=
  match l.getD n.val none with
  | some e => e.ready ≤ start
  | none => false

/-- Put undefined values, from free value n on, in place of what registers hold (R84, log 2). -/
def spoil (n : Nat) : List Reg → Regs → Regs
  | [], r => r
  | g :: gs, r =>
    let word := fun (i : Nat) => (Config.freeBits (n + i)).setWidth 32
    let r' := match g with
      | .v _ | .o _ => r.setVreg g { r.vreg g with slots := threads.map word }
      | .s k => { r with s := r.s.set k (Config.freeBits n) }
      | .p k => { r with p := r.p.set k (word 0) }
    spoil (n + 32) gs r'

/-- The slots of a register whose read was untimely, once the instruction has written the threads of a mask: they keep what they received,
every other thread its element, and a slot that no thread has what it held. -/
def mendSlots (old r : Regs) (g : Reg) (m : Mask) : List Word :=
  let map := r.map g
  threads.map (fun p =>
    let has := fun (t : Nat) => (map.at t).map Fin.val == some p
    if threads.any (fun t => inMask m t && has t) then (r.vreg g).slots.getD p 0
    else ((threads.find? has).bind (old.elem g)).getD ((old.vreg g).slots.getD p 0))

/-- Registers whose reads were untimely hold what they did before, but for what the instruction wrote for the threads of a mask (R84,
R275). -/
def unspoil (old : Regs) (writes : List Reg) (act : Mask) : List Reg → Regs → Regs
  | [], r => r
  | g :: gs, r =>
    let m := if writes.contains g then act else 0
    let r' := match g with
      | .v _ | .o _ => r.setVreg g { r.vreg g with slots := mendSlots old r g m }
      | .s k => if writes.contains g then r else { r with s := r.s.set k (old.s.getD k 0) }
      | .p k => { r with p := r.p.set k ((r.p.getD k 0 &&& m) ||| (old.p.getD k 0 &&& ~~~m)) }
    unspoil old writes act gs r'

/-- An instruction has overwritten registers before their time (R84): the accesses that were to write them then end in either result. -/
def State.clobber (s : State) (w : Nat) (gs : List Reg) (act : Mask) (before : Nat) : State :=
  if gs.isEmpty then s
  else
    { s with accs := s.accs.zipIdx.map (fun (a, k) =>
        if a.warp == w && !a.wb && k < before then
          { a with clob := a.clob ++ (gs.filter a.dregs.contains).map (fun g => (g, act)) }
        else a) }

/-- What a register holds for a thread, as a store of a type reads it. -/
def storedWord (r : Regs) (ty : Ty) (g : Reg) (t : Nat) : Option DWord :=
  match g with
  | .s n => some (r.s.getD n 0)
  | .p _ => none
  | .v _ | .o _ => (srcReg r g ty.wide).at t

/-- Registers have been written while accesses issued earlier have yet to read them: the data of each may be the old or the new value, as a
free value says (R84, log 2). DEDUCED (log 88): the value of a bounds check stands. -/
def State.reread (s : State) (w : Nat) (gs : List Reg) (before : Nat) : State :=
  match s.warp? w with
  | none => s
  | some x =>
    let hit := fun (a : Access) (k : Nat) => a.warp == w && !a.wb && k < before && gs.any a.srcs.contains
    if s.accs.zipIdx.all (fun (a, k) => !hit a k) then s
    else
      let (n, s) := s.fresh (2 ^ 13 * s.accs.length)
      { s with accs := s.accs.zipIdx.map (fun (a, k) =>
          if hit a k then
            { a with reqs := a.reqs.zipIdx.map (fun (r, i) =>
                match r.src.bind (fun q => (a.srcs[q.1]?).map (fun g => (g, q.2))) with
                | none => r
                | some (g, off) =>
                  if r.done || !(gs.contains g || (a.ty.wide && gs.contains g.succ)) || !(Config.freeBits (n + 2 ^ 13 * k + i)).getLsbD 0 then r
                  else { r with data := ((storedWord x.regs a.ty g r.thread).map (fun (v : DWord) => v >>> (8 * off))).getD r.data }) }
          else a) }

/-! ### Legality (R39, R65, R75, R103) -/

/-- A V register lies at or above the allotment (R75). -/
def beyond (r : Regs) (g : Reg) : Bool :=
  match g with
  | .v n => r.v.length ≤ n
  | .o n => 8 ≤ n
  | .s _ | .p _ => false

/-- A V or O register carries a tag that breaks R38 (R39). -/
def badTag (r : Regs) (g : Reg) : Bool :=
  match g with
  | .v _ | .o _ => !tagOk (r.vreg g).tag
  | .s _ | .p _ => false

/-- The word is not an instruction where it stands. -/
def illegalHere (d : Need) (x : Warp) (c : Clause) : Bool :=
  (match d.cls with | none => false | some k => k != c.cls) || (d.branch && c.idx + 1 != c.words.length) ||
  (d.reads ++ d.writes ++ d.also.map Prod.fst).any (beyond x.regs) || d.reads.any (badTag x.regs)

/-! ### What follows an instruction -/

/-- Change a scoreboard's count. -/
def Warp.sbAdd (x : Warp) (i : Nat) (f : Nat → Nat) : Warp := { x with regs := { x.regs with sb := x.regs.sb.modify i f } }

/-- The scoreboard an SBW names (R66). -/
def sbOf (h : Head) : Option (Fin 6) :=
  if h.sbw.val = 0 then none else some (Fin.ofNat 6 (h.sbw.val - 1))

/-- Every thread of the warp has exited. -/
def Warp.allExited (x : Warp) : Bool := x.regs.lpc.all (fun e => e.st == .exited)

/-- The wait-table entries that a warp's block has left on its core (R26, R237). -/
def State.waitEntries (s : State) (w : Nat) : Nat :=
  match s.warp? w with
  | none => 0
  | some x =>
    let n := ((s.launchOf w).map (fun l => bitsOf (word64 l.pkt 0x20) 38 7)).getD 0
    let used := (s.warps.map (fun y =>
      match y.hold with
      | .counter ws => if y.block == x.block && y.core == x.core then (ws.filter Prod.snd).length else 0
      | .none | .drain _ | .yield _ | .batch | .fetch _ | .fence _ _ | .issue _ | .accept _ | .arrive _ | .stop => 0)).sum
    n - used

/-- The first add of a CTRARV of a warp that has yet to be performed (R233). -/
def State.openArrival (s : State) (w : Nat) : Option Nat :=
  s.accs.findIdx? (fun a => a.warp == w && a.op == .ctrArv && a.reqs.any (fun r => !r.done))

/-- What holds a warp between clauses (R213, R221, R232, R233): adds of CTRARV to come, waits, drains, the interval of a YIELD, in this
order. A wait or a drain takes the warp out of the load (R19). -/
def State.settleHold (s : State) (w : Nat) : State :=
  match s.warp? w with
  | none => s
  | some x =>
    match s.openArrival w with
    | some a => (s.modWarp w (fun x => { x with hold := .arrive a, state := .waiting })).fillLoadAt w
    | none =>
      if !x.pendWait.isEmpty then
        let n := s.waitEntries w
        (s.modWarp w (fun x => { x with
          hold := .counter (x.pendWait.zipIdx.map (fun (c, i) => (c, decide (i < n)))), pendWait := [], state := .waiting })).fillLoadAt w
      else if !(x.pendDrain.all (s.drainMet w)) then
        (s.modWarp w (fun x => { x with hold := .drain x.pendDrain, pendDrain := [], state := .waiting })).fillLoadAt w
      else if s.clk < x.wakeAt then s.modWarp w (fun x => { x with hold := .yield x.wakeAt, pendDrain := [] })
      else s.modWarp w (fun x => { x with hold := .none, pendDrain := [] })

/-- At its clause boundary a warp meets its context's LOADF and LOSTMAX (R290). -/
def State.meetLoad (s : State) (w : Nat) : State :=
  match s.ctxs[s.ctxIx w]? with
  | none => s
  | some c => s.modWarp w (fun x => { x with loadF := c.loadF, lostMax := c.lostMax })

/-- A clause boundary (R215, R220, R221, R232): a written LEASE takes effect; the warp ends when every thread has exited; else the waits
of the finished clause begin. In run-ahead nothing is left to issue, and it stops (R308). -/
def State.boundary (s : State) (w : Nat) : State :=
  match s.warp? w with
  | none => s
  | some x =>
    let old := leaseGran x.lease
    let lease := match x.nextLease with
      | none => x.lease
      | some v => (x.lease &&& ~~~0x1FF#64) ||| v.setWidth 64
    if x.allExited && x.ahead then s.modWarp w (fun x => { x with hold := .stop })
    else if x.allExited then
      (s.modWarp w (fun x => { x with
        lease := lease, nextLease := none, clause := none, pipe := none
        state := .ended, hold := .none, pendWait := [], pendDrain := [], pendYield := none, victims := [], touched := [] })).fillLoadAt w
    else
      (((s.meetLoad w).modWarp w (fun x => { x with
        lease := lease, nextLease := none, clause := none, pipe := none, pendYield := none
        wakeAt := (x.pendYield.map (s.clk + ·)).getD x.wakeAt
        yielded := x.yielded || x.pendYield.isSome })).releaseCharge w old).settleHold w

/-- The L entry of a result (R40, R77). -/
def lEntryOf (r : Regs) (f : Finish) (end_ : Nat) : Option LEntry :=
  match f.lat, f.writes with
  | some lat, g :: _ =>
    match g with
    | .v _ | .o _ =>
      let t := (r.vreg g).tag
      some { scalar := false, slots := (r.vreg g).slots, map := r.map g, ready := end_ + lat, poison := f.poison
             tag := if tagClass t = 5 then mkTag 5 0 0 0 else t }
    | .s n =>
      some { scalar := true, slots := [(r.s.getD n 0).setWidth 32], map := .ident, tag := 0, ready := end_ + lat, poison := f.poison }
    | .p _ => none
  | _, _ => none

/-- The warp that an accepted instruction of a clause leaves (R17, R79 to R82, R159, R410). -/
def Warp.completed (x : Warp) (c : Clause) (f : Finish) : Warp :=
  let end_ := c.start + f.extra + 1
  let r := x.regs
  let l := (lEntryOf r f end_ :: c.lfile).take 4
  let all := f.writes ++ f.also.map Prod.fst
  let written := all ++ f.outst.map Outst.reg
  let pend := (c.pend.map (fun p => (p.1, p.2.1, outlives p.1 p.2.2 written f.wrote))).filter (fun p => p.2.2 != 0) ++
    (match f.lat with | some n => f.writes.map (fun g => (g, end_ + n, f.wrote)) | none => []) ++
    f.also.map (fun p => (p.1, end_ + p.2, f.wrote))
  let last := c.idx + 1 == c.words.length
  let next := (c.addr.extractLsb' 3 54) + BitVec.ofNat 54 (c.words.length + 1)
  { x with
    regs := { r with
      draws := if f.draws then r.draws.zipIdx.map (fun (n, t) => if inMask c.iset t then n + 1 else n) else r.draws
      lpc := if last then r.lpc.zipIdx.map (fun (e, t) => if inMask c.iset t && !inMask f.moved t then { e with waddr := next } else e)
        else r.lpc
      sb := match sbOf f.head with
        | some i => if f.counted then r.sb.modify i.val (· + 1) else r.sb
        | none => r.sb }
    outst := (x.outst.map (fun o => { o with mask := outlives o.reg o.mask written f.wrote })).filter (fun o => o.mask != 0) ++
      f.outst.map (fun o => { o with mask := f.wrote })
    poisoned := x.poisoned.filter (fun g => !all.contains g) ++ (if f.poison then all else [])
    hold := .none
    pending := none
    stalled := []
    aheadCount := x.aheadCount + (if x.ahead then 1 else 0)
    yielded := x.yielded || (last && c.yld)
    clause := if last then none else
      some { c with idx := c.idx + 1, start := end_ + f.head.stall.val, pend := pend, lfile := l } }

/-- What an accepted instruction leaves, and the trap it raises after it (R85, R410), or the clause boundary after the last word. -/
def State.complete (s : State) (w : Nat) (f : Finish) : State :=
  match s.warp? w with
  | none => s
  | some x =>
    match x.clause with
    | none => s
    | some c =>
      let early := if x.ahead then [] else f.early
      let s := ((s.modWarp w (fun _ => x.completed c f)).clobber w early f.wrote f.accsBefore).reread w
        (early.filter (f.writes ++ f.also.map Prod.fst).contains) f.accsBefore
      if let some t := f.trap then s.takeTrap w t c.iset c.addr c.idx true false
      else if wcrStep x.wcr && !x.ahead then s.takeTrap w { code := codeStep, mask := c.iset } c.iset c.addr c.idx true false
      else if c.idx + 1 == c.words.length then s.boundary w
      else s

/-- Raise a trap at the instruction that issues; run-ahead stops there instead (R308). -/
def State.raiseHere (s : State) (w : Nat) (t : TrapInfo) : State :=
  if ((s.warp? w).map Warp.ahead).getD false then s.modWarp w (fun x => { x with hold := .stop })
  else s.trapHere w t

/-- Run-ahead poisons what a fixed-latency instruction reads (R307). -/
def poisonedRead (d : Need) (x : Warp) (c : Clause) : Bool :=
  d.reads.any x.poisoned.contains || (d.head.pred.val != 7 && x.poisoned.contains (.p d.head.pred.val)) ||
  d.ls.any (fun n => ((c.lfile.getD n.val none).map LEntry.poison).getD false)

/-- What the issue of an instruction knows of it when it ends: the threads it writes for, the registers whose reads were untimely, and those
it overwrites before their time (R83, R84). -/
structure Issued where
  act : Mask
  late : List Reg := []
  early : List Reg := []
deriving DecidableEq, Repr

/-- The end of an issue. -/
def State.settle (s : State) (w : Nat) (old : Regs) (k : Issued) (r : Res) : State :=
  let back := fun (s : State) (f : Finish) =>
    s.modWarp w (fun x => { x with regs := unspoil old (f.writes ++ f.also.map Prod.fst) k.act k.late x.regs })
  let note := fun (f : Finish) => { f with wrote := k.act, early := k.early, accsBefore := s.accs.length }
  match r with
  | .trap t => s.raiseHere w t
  | .done s' f => (back s' f).complete w (note f)
  | .held s' f h => (back s' f).modWarp w (fun x => { x with pending := some (note f), hold := h })
  | .stay s' => s'

/-- The issue of the instruction a warp's clause stands at. -/
def issue (d : Need) (body : Env → Res) (s : State) : Host.Outcome State Fault Refusal :=
  let w := s.cur
  match s.warp? w with
  | none => .fault .noWarp
  | some x =>
    match x.clause with
    | none => .fault .noWarp
    | some c =>
      if !x.runs || c.words.length ≤ c.idx then .fault .noWarp
      else if x.hold != .none then .next s
      else if illegalHere d x c then .next (s.raiseHere w { code := codeIllegal, mask := c.iset })
      else if x.ahead && (256 < x.aheadCount || 3 ≤ c.cls || wcrStep x.wcr || 33 ≤ x.batch.length) then .next (s.modWarp w (fun x => { x with hold := .stop }))
      else if x.ahead && !d.memory && poisonedRead d x c then
        if d.branch then .next (s.modWarp w (fun x => { x with hold := .stop }))
        else
          .next (s.complete w
            { head := d.head, lat := d.lat, writes := d.writes, also := d.also, draws := d.draws, poison := true })
      else
        let lateP := d.head.pred.val != 7 && !d.always && x.late c.start c.pend (.p d.head.pred.val)
        let late := (d.reads.filter (x.late c.start c.pend)) ++ (if lateP then [Reg.p d.head.pred.val] else [])
        let early := (d.writes ++ d.also.map Prod.fst).filter (s.unwritten w)
        let badL := d.ls.any (fun n => !lReadable c.lfile c.start n)
        let (n, s1) := if late.isEmpty && !badL then (s.freeCtr, s) else s.fresh (32 * (late.length + 1))
        let r := spoil n late x.regs
        let act := if d.always then c.iset else
          c.iset &&& (predMask r d.head.pred.val ^^^ (if d.head.pneg then fullMask else 0))
        let stalls := wcrChk x.wcr && (lateP || (act != 0 && (!late.isEmpty || !early.isEmpty || badL)))
        if stalls then
          .next ((s.modWarp w (fun x => { x with stalled := if x.ahead then [] else early })).raiseHere w
            { code := codeStall, mask := if lateP then c.iset else act })
        else if let some i := (sbOf d.head).filter (fun i => x.regs.sb.getD i.val 0 == 63) then
          .next (s.modWarp w (fun x => { x with hold := .issue (.sb i) }))
        else if act == 0 then
          let lost := x.ahead && d.head.pred.val != 7 && x.poisoned.contains (.p d.head.pred.val)
          .next (s.complete w { head := d.head, writes := if lost then d.writes else [], draws := d.draws, poison := lost })
        else
          let l := c.lfile.map (fun e => match e with
            | some v => if v.ready ≤ c.start then some v else some (freeL (n + 32 * late.length))
            | none => some (freeL (n + 32 * late.length)))
          let l := (l ++ List.replicate 4 (some (freeL (n + 32 * late.length)))).take 4
          .next (s1.settle w x.regs
            { act := if d.whole then fullMask else act, late := late, early := if x.ahead then [] else early }
            (body { s := s1, w := w, x := x, c := c, act := act, regs := r, l := l }))

/-! ### Register instructions -/

/-- The registers an instruction leaves, and the lane events it counts (R56, R286). -/
def Env.put (e : Env) (l : LaneRes) : State :=
  let ctx := e.s.ctxIx e.w
  let s := e.s.modWarp e.w (fun x => { x with regs := l.regs })
  if e.x.ahead then s else (s.bump ctx evLaneMove l.lanemove (some e.w)).bump ctx evAutoFire l.autofire (some e.w)

/-- The result of an instruction on registers alone: done, or the VOIDOP of R47. DEDUCED (log 112): that VOIDOP, which is raised for a destination's table,
is also raised by the block-format instructions, of which R158 says that none raises VOIDOP for what it reads. -/
def Env.lanes (e : Env) (d : Need) (r : Except Mask LaneRes) (extra : Nat := 0) : Res :=
  match r with
  | .error m => .trap { code := codeVoidop, mask := m }
  | .ok l => .done (e.put l)
      { head := d.head, extra := l.extra + extra, lat := d.lat, writes := d.writes, also := d.also, draws := d.draws }

/-- Write an S register (R131). -/
def Env.putS (e : Env) (d : Need) (n : Nat) (v : DWord) : Res :=
  e.lanes d (.ok { regs := { e.regs with s := e.regs.s.set n v } })

/-- Write a predicate's bits of the active threads (R132, R274). -/
def writePred (r : Regs) (p : Nat) (act : Mask) (f : Nat → Bool) : Regs :=
  let new := maskOf (fun t => if inMask act t then f t else inMask (r.p.getD p 0) t)
  { r with p := r.p.set p new }

/-- An instruction that computes a V, O or S destination from sources, thread by thread (R130, R131). -/
def Env.compute (e : Env) (d : Need) (dst : Opnd) (wide : Bool) (srcs : List Src) (f : Nat → List DWord → DWord) : Res :=
  match dst with
  | .s n => e.putS d n.val (f (lowestOf e.act) (srcs.map (fun x => (x.at 0).getD 0)))
  | .v _ | .o _ | .c _ | .l _ | .vz | .vtid | .vlane =>
    e.lanes d (laneCompute e.regs (opndRegs wide dst) e.act srcs f)

/-- An instruction that writes a predicate from sources (R54, R132): a VOID element of an active thread raises VOIDOP. -/
def Env.compare (e : Env) (d : Need) (p : Nat) (srcs : List Src) (f : List DWord → Bool) : Res :=
  let void := maskOf (fun t => inMask e.act t && srcVoid srcs t)
  if void != 0 then .trap { code := codeVoidop, mask := void }
  else
    let an := predAnchor e.act srcs
    let moves := sourceMoves srcs an e.act
    e.lanes d (.ok { regs := writePred e.regs p e.act (fun t => f (argsAt srcs an t)), extra := moves, lanemove := moves })

end Sys2Proof.Machine
end

