-- ==== Sys2Proof/Machine/CopyInstr.lean ====
section
/-! DEFINITION. The copy instructions as they issue (R239 to R246): the descriptor is read, and the copy takes its place in the queue of
the core's port or in its block's collector. -/
namespace Sys2Proof.Machine

/-- The six registers of a descriptor (R239). -/
def descRegs (a : Fin 64) : List Reg := (List.range 6).map (fun i => .s (a.val + i))

/-- A copy holds an entry of the port's queue (R246). -/
def Copy.inPort (c : Copy) : Bool := c.state == .queued || c.state == .running

/-- The entries of the copy port of a warp's core. -/
def State.portEntries (s : State) (w : Nat) : Nat :=
  (s.copies.filter (fun c => c.inPort && !s.savedWarp c.warp && s.clusterOf c.warp == s.clusterOf w &&
    (s.warp? c.warp).map Warp.core == (s.warp? w).map Warp.core)).length

/-- A copy of an instruction (R239). -/
def Env.newCopy (e : Env) (kind : CopyKind) (sc : Scope) (ord : Bool) (bucket : Byte) (hint : Hint) (a : Fin 64) (st : CopyState) : Copy :=
  { warp := e.w, kind := kind, scope := sc, ord := ord, bucket := bucket, hint := hint
    desc := (List.range 6).map (fun i => e.regs.s.getD (a.val + i) 0), state := st, after := e.s.accs.length }

/-- The flow that an ordered copy belongs to (R246, R420): its warp's, into its destination's memory, and of a peer window into its node's. -/
def State.flowMem (s : State) (c : Copy) : Nat :=
  if c.mem != 3 then c.mem
  else match s.resolve c.warp (c.desc.getD 1 0) with
    | .ok (_, l) => (match l.place with | .peer n => 3 + n | .glob _ | .nc | .lcm _ | .scr _ _ => 3 + 256)
    | .error _ => 3 + 256

/-- An ordered copy takes the next number of its flow (R420). -/
def State.joinFlow (s : State) (c : Copy) (i : Nat) : State :=
  if !c.ord then s
  else
    let m := s.flowMem c
    let n := ((s.flows.find? (fun f => f.warp == c.warp && f.mem == m)).map Flow.seqSent).getD 0
    let s := s.modCopy i (fun c => { c with seq := n })
    if s.flows.any (fun f => f.warp == c.warp && f.mem == m) then
      { s with flows := s.flows.map (fun f =>
          if f.warp == c.warp && f.mem == m then { f with seqSent := (f.seqSent + 1) % 2 ^ 16, held := f.held ++ [i] } else f) }
    else { s with flows := s.flows ++ [{ warp := c.warp, mem := m, seqSent := 1, seqDone := 0, held := [i] }] }

/-- A copy instruction other than BCOPY: it waits for an entry of the queue, and leaves its copy there (R246). -/
def copyInstr (h : Head) (kind : CopyKind) (sc : Scope) (ord : Bool) (bucket : Byte) (hint : Hint) (a : Fin 64) (s : State) :
    Host.Outcome State Fault Refusal :=
  issue { head := h, cls := some 3, reads := descRegs a } (fun e =>
    if 64 ≤ e.s.portEntries e.w then .stay (e.s.modWarp e.w (fun x => { x with hold := .issue .copies }))
    else
      let c := e.newCopy kind sc ord bucket hint a .queued
      let s' : State := { e.s with copies := e.s.copies ++ [c] }
      .done (s'.joinFlow c e.s.copies.length) { head := h }) s

/-- COPY (R239, R241). -/
def execCopy (h : Head) (sc : Scope) (ord : Bool) (bucket : Byte) (hint : Hint) (a : Fin 64) (s : State) :
    Host.Outcome State Fault Refusal := copyInstr h .copy sc ord bucket hint a s

/-- GATHER (R239, R241). -/
def execGather (h : Head) (sc : Scope) (ord : Bool) (bucket : Byte) (hint : Hint) (idx : IdxTy) (a : Fin 64) (s : State) :
    Host.Outcome State Fault Refusal := copyInstr h (.gather idx) sc ord bucket hint a s

/-- SCATTER (R239, R241). -/
def execScatter (h : Head) (sc : Scope) (ord : Bool) (bucket : Byte) (hint : Hint) (idx : IdxTy) (a : Fin 64) (s : State) :
    Host.Outcome State Fault Refusal := copyInstr h (.scatter idx) sc ord bucket hint a s

/-- UNPACK (R239, R241). -/
def execUnpack (h : Head) (sc : Scope) (ord : Bool) (bucket : Byte) (hint : Hint) (fmt : Bfmt) (a : Fin 64) (s : State) :
    Host.Outcome State Fault Refusal := copyInstr h (.unpack fmt) sc ord bucket hint a s

/-- PARTS of a slice. -/
def Copy.parts (c : Copy) : Nat :=
  match c.kind with
  | .bcopy p _ => p
  | .copy | .gather _ | .scatter _ | .unpack _ => 1

/-- The slices that wait in a collector of a block (R243). -/
def State.collected (s : State) (b coll : Nat) : List Nat :=
  ((s.blocks[b]?).map (fun x => (x.slices.filter (fun y => y.coll == coll)).map Slice.copy)).getD []

/-- BCOPY (R243): a slice waits in its block's collector, and the last slice of a generation enters the whole into the copy queue, from whose core
it runs. An ordered slice belongs to its own warp's flow (R246). DESIGN CHOICE (log 114): where the slices of a generation disagree on PARTS, the first
one's counts. -/
def execBcopy (h : Head) (sc : Scope) (ord : Bool) (bucket : Byte) (hint : Hint) (parts : Fin 128) (coll : Fin 16) (a : Fin 64)
    (s : State) : Host.Outcome State Fault Refusal :=
  issue { head := h, cls := some 3, reads := descRegs a } (fun e =>
    let b := e.x.block
    let before := e.s.collected b coll.val
    let n := e.s.copies.length
    let slice := e.newCopy (.bcopy parts.val coll.val) sc ord bucket hint a .slice
    let need := ((before.head?.bind (fun i => e.s.copies[i]?)).map Copy.parts).getD parts.val
    if before.length + 1 < need then
      let s' : State := { e.s with copies := e.s.copies ++ [slice] }
      .done ((s'.joinFlow slice n).modBlock b (fun x => { x with slices := x.slices ++ [{ coll := coll.val, copy := n }] })) { head := h }
    else if 64 ≤ e.s.portEntries e.w then .stay (e.s.modWarp e.w (fun x => { x with hold := .issue .copies }))
    else
      let first := (before.head?.bind (fun i => e.s.copies[i]?)).getD slice
      let whole : Copy := { first with warp := e.w, gen := before ++ [n], state := .queued, after := e.s.accs.length }
      let s' : State := { e.s with copies := e.s.copies ++ [slice, whole] }
      .done ((s'.joinFlow slice n).modBlock b (fun x => { x with slices := x.slices.filter (fun y => y.coll != coll.val) }))
        { head := h }) s

end Sys2Proof.Machine
end

