-- ==== Sys2Proof/Machine/IntInstr.lean ====
section
/-! DEFINITION. The integer, logic, compare and move instructions (R130 to R145). -/
namespace Sys2Proof.Machine

/-- The i-th argument of a thread. -/
def arg (l : List DWord) (i : Nat) : DWord := l.getD i 0

/-- What issue judges of an arithmetic instruction: its class (R91), its operands, and its latency, 3 with an S destination (R133). -/
def aluNeed (h : Head) (lat : Nat) (wide : Bool) (d : Opnd) (xs : List (Ty × Opnd)) (draws : Bool := false) : Need :=
  { head := h, cls := some (arithClass d), reads := readRegs xs, ls := readLs xs, writes := opndRegs wide d
    lat := some (if d.isS then 3 else lat), draws := draws }

/-- An arithmetic instruction with a V, O or S destination (R130, R131): its operands with their types, an immediate source, and the
result of a thread. -/
def alu (h : Head) (lat : Nat) (wide : Bool) (d : Opnd) (xs : List (Ty × Opnd)) (imm : List Src)
    (f : Env → Nat → List DWord → DWord) (s : State) (draws : Bool := false) : Host.Outcome State Fault Refusal :=
  let n := aluNeed h lat wide d xs draws
  issue n (fun e => e.compute n d wide (xs.map (fun x => e.src x.1 x.2) ++ imm) (f e)) s

/-- An integer instruction: latency 4, every operand of one type. -/
def intAlu (h : Head) (ty : Ty) (d : Opnd) (xs : List Opnd) (imm : List Src) (f : List DWord → DWord) (s : State) :
    Host.Outcome State Fault Refusal :=
  alu h 4 ty.wide d (xs.map (fun x => (ty, x))) imm (fun _ _ l => f l) s

/-- A compare: it writes a predicate, of class SCL where every source is broadcast (R91, R132). -/
def cmpAlu (h : Head) (lat : Nat) (ty : Ty) (pd : Fin 7) (xs : List Opnd) (imm : List Src) (f : List DWord → Bool) (s : State) :
    Host.Outcome State Fault Refusal :=
  let ys := xs.map (fun x => (ty, x))
  let n : Need := { head := h, cls := some (if allBroadcast xs then 1 else 0), reads := readRegs ys, ls := readLs ys
                    writes := [.p pd.val], lat := some lat }
  issue n (fun e => e.compare n pd.val (ys.map (fun x => e.src x.1 x.2) ++ imm) f) s

/-- IADD (R134, R135). -/
def execIadd (h : Head) (ty : Ty) (sat : Bool) (d a b : Opnd) (s : State) : Host.Outcome State Fault Refusal :=
  intAlu h ty d [a, b] [] (fun l => ires ty sat (ival ty (arg l 0) + ival ty (arg l 1))) s

/-- IADD with an immediate (R134, R135, R72). -/
def execIaddImm (h : Head) (ty : Ty) (sat : Bool) (d a : Opnd) (imm : BitVec 18) (s : State) : Host.Outcome State Fault Refusal :=
  intAlu h ty d [a] [immInt imm] (fun l => ires ty sat (ival ty (arg l 0) + ival ty (arg l 1))) s

/-- ISUB (R134, R135). -/
def execIsub (h : Head) (ty : Ty) (sat : Bool) (d a b : Opnd) (s : State) : Host.Outcome State Fault Refusal :=
  intAlu h ty d [a, b] [] (fun l => ires ty sat (ival ty (arg l 0) - ival ty (arg l 1))) s

/-- ISUB with an immediate (R134, R135, R72). -/
def execIsubImm (h : Head) (ty : Ty) (sat : Bool) (d a : Opnd) (imm : BitVec 18) (s : State) : Host.Outcome State Fault Refusal :=
  intAlu h ty d [a] [immInt imm] (fun l => ires ty sat (ival ty (arg l 0) - ival ty (arg l 1))) s

/-- IMUL (R134). -/
def execImul (h : Head) (ty : Ty) (d a b : Opnd) (s : State) : Host.Outcome State Fault Refusal :=
  intAlu h ty d [a, b] [] (fun l => iput ty (ival ty (arg l 0) * ival ty (arg l 1))) s

/-- IMUL with an immediate (R134, R72). -/
def execImulImm (h : Head) (ty : Ty) (d a : Opnd) (imm : BitVec 18) (s : State) : Host.Outcome State Fault Refusal :=
  intAlu h ty d [a] [immInt imm] (fun l => iput ty (ival ty (arg l 0) * ival ty (arg l 1))) s

/-- IMULHI (R134). -/
def execImulhi (h : Head) (ty : Ty) (d a b : Opnd) (s : State) : Host.Outcome State Fault Refusal :=
  intAlu h ty d [a, b] [] (fun l => mulhi ty (arg l 0) (arg l 1)) s

/-- IMAD (R134). -/
def execImad (h : Head) (ty : Ty) (d a b c : Opnd) (s : State) : Host.Outcome State Fault Refusal :=
  intAlu h ty d [a, b, c] [] (fun l => iput ty (ival ty (arg l 0) * ival ty (arg l 1) + ival ty (arg l 2))) s

/-- IMADW (R134): 32-bit factors by the signedness of the type, and a 64-bit addend and result. -/
def execImadw (h : Head) (ty : Ty) (d a b c : Opnd) (s : State) : Host.Outcome State Fault Refusal :=
  alu h 4 true d [(ty, a), (ty, b), (.n64, c)] [] (fun _ _ l => BitVec.ofInt 64 (ival ty (arg l 0) * ival ty (arg l 1)) + (arg l 2)) s

/-- IMIN (R136). -/
def execImin (h : Head) (ty : Ty) (d a b : Opnd) (s : State) : Host.Outcome State Fault Refusal :=
  intAlu h ty d [a, b] [] (fun l => iput ty (min (ival ty (arg l 0)) (ival ty (arg l 1)))) s

/-- IMAX (R136). -/
def execImax (h : Head) (ty : Ty) (d a b : Opnd) (s : State) : Host.Outcome State Fault Refusal :=
  intAlu h ty d [a, b] [] (fun l => iput ty (max (ival ty (arg l 0)) (ival ty (arg l 1)))) s

/-- IABS (R135, R136). -/
def execIabs (h : Head) (ty : Ty) (sat : Bool) (d a : Opnd) (s : State) : Host.Outcome State Fault Refusal :=
  intAlu h ty d [a] [] (fun l => iabs ty sat (arg l 0)) s

/-- INEG (R135, R136). -/
def execIneg (h : Head) (ty : Ty) (sat : Bool) (d a : Opnd) (s : State) : Host.Outcome State Fault Refusal :=
  intAlu h ty d [a] [] (fun l => ires ty sat (-(ival ty (arg l 0)))) s

/-- ICLAMP (R136). -/
def execIclamp (h : Head) (ty : Ty) (d a b c : Opnd) (s : State) : Host.Outcome State Fault Refusal :=
  intAlu h ty d [a, b, c] [] (fun l => iput ty (min (max (ival ty (arg l 0)) (ival ty (arg l 1))) (ival ty (arg l 2)))) s

/-- LEA (R137): D and A are 64-bit, and the type is B's. -/
def execLea (h : Head) (ty : Ty) (sh : Fin 8) (d a b : Opnd) (s : State) : Host.Outcome State Fault Refusal :=
  alu h 4 true d [(.n64, a), (ty, b)] [] (fun _ _ l => lea ty sh.val (arg l 0) (arg l 1)) s

/-- AND (R138). -/
def execAnd (h : Head) (ty : Ty) (d a b : Opnd) (s : State) : Host.Outcome State Fault Refusal :=
  intAlu h ty d [a, b] [] (fun l => uput ty (ubits ty (arg l 0) &&& ubits ty (arg l 1))) s

/-- AND with an immediate (R138, R72). -/
def execAndImm (h : Head) (ty : Ty) (d a : Opnd) (imm : BitVec 18) (s : State) : Host.Outcome State Fault Refusal :=
  intAlu h ty d [a] [immInt imm] (fun l => uput ty (ubits ty (arg l 0) &&& ubits ty (arg l 1))) s

/-- OR (R138). -/
def execOr (h : Head) (ty : Ty) (d a b : Opnd) (s : State) : Host.Outcome State Fault Refusal :=
  intAlu h ty d [a, b] [] (fun l => uput ty (ubits ty (arg l 0) ||| ubits ty (arg l 1))) s

/-- OR with an immediate (R138, R72). -/
def execOrImm (h : Head) (ty : Ty) (d a : Opnd) (imm : BitVec 18) (s : State) : Host.Outcome State Fault Refusal :=
  intAlu h ty d [a] [immInt imm] (fun l => uput ty (ubits ty (arg l 0) ||| ubits ty (arg l 1))) s

/-- XOR (R138). -/
def execXor (h : Head) (ty : Ty) (d a b : Opnd) (s : State) : Host.Outcome State Fault Refusal :=
  intAlu h ty d [a, b] [] (fun l => uput ty (ubits ty (arg l 0) ^^^ ubits ty (arg l 1))) s

/-- XOR with an immediate (R138, R72). -/
def execXorImm (h : Head) (ty : Ty) (d a : Opnd) (imm : BitVec 18) (s : State) : Host.Outcome State Fault Refusal :=
  intAlu h ty d [a] [immInt imm] (fun l => uput ty (ubits ty (arg l 0) ^^^ ubits ty (arg l 1))) s

/-- ANDN (R138). -/
def execAndn (h : Head) (ty : Ty) (d a b : Opnd) (s : State) : Host.Outcome State Fault Refusal :=
  intAlu h ty d [a, b] [] (fun l => uput ty (ubits ty (arg l 0) &&& (2 ^ ty.width - 1 - ubits ty (arg l 1)))) s

/-- ANDN with an immediate (R138, R72). -/
def execAndnImm (h : Head) (ty : Ty) (d a : Opnd) (imm : BitVec 18) (s : State) : Host.Outcome State Fault Refusal :=
  intAlu h ty d [a] [immInt imm] (fun l => uput ty (ubits ty (arg l 0) &&& (2 ^ ty.width - 1 - ubits ty (arg l 1)))) s

/-- NOT (R138). -/
def execNot (h : Head) (ty : Ty) (d a : Opnd) (s : State) : Host.Outcome State Fault Refusal :=
  intAlu h ty d [a] [] (fun l => uput ty (2 ^ ty.width - 1 - ubits ty (arg l 0))) s

/-- SHL (R139). -/
def execShl (h : Head) (ty : Ty) (d a b : Opnd) (s : State) : Host.Outcome State Fault Refusal :=
  intAlu h ty d [a, b] [] (fun l => shl ty (arg l 0) (arg l 1)) s

/-- SHL with an immediate (R139, R72). -/
def execShlImm (h : Head) (ty : Ty) (d a : Opnd) (imm : BitVec 18) (s : State) : Host.Outcome State Fault Refusal :=
  intAlu h ty d [a] [immInt imm] (fun l => shl ty (arg l 0) (arg l 1)) s

/-- SHR (R139). -/
def execShr (h : Head) (ty : Ty) (d a b : Opnd) (s : State) : Host.Outcome State Fault Refusal :=
  intAlu h ty d [a, b] [] (fun l => shr ty (arg l 0) (arg l 1)) s

/-- SHR with an immediate (R139, R72). -/
def execShrImm (h : Head) (ty : Ty) (d a : Opnd) (imm : BitVec 18) (s : State) : Host.Outcome State Fault Refusal :=
  intAlu h ty d [a] [immInt imm] (fun l => shr ty (arg l 0) (arg l 1)) s

/-- SAR (R139). -/
def execSar (h : Head) (ty : Ty) (d a b : Opnd) (s : State) : Host.Outcome State Fault Refusal :=
  intAlu h ty d [a, b] [] (fun l => sar ty (arg l 0) (arg l 1)) s

/-- SAR with an immediate (R139, R72). -/
def execSarImm (h : Head) (ty : Ty) (d a : Opnd) (imm : BitVec 18) (s : State) : Host.Outcome State Fault Refusal :=
  intAlu h ty d [a] [immInt imm] (fun l => sar ty (arg l 0) (arg l 1)) s

/-- ROTL (R139). -/
def execRotl (h : Head) (ty : Ty) (d a b : Opnd) (s : State) : Host.Outcome State Fault Refusal :=
  intAlu h ty d [a, b] [] (fun l => rotl ty (arg l 0) (arg l 1)) s

/-- ROTL with an immediate (R139, R72). -/
def execRotlImm (h : Head) (ty : Ty) (d a : Opnd) (imm : BitVec 18) (s : State) : Host.Outcome State Fault Refusal :=
  intAlu h ty d [a] [immInt imm] (fun l => rotl ty (arg l 0) (arg l 1)) s

/-- BFX (R140). -/
def execBfx (h : Head) (ty : Ty) (d a b : Opnd) (s : State) : Host.Outcome State Fault Refusal :=
  intAlu h ty d [a, b] [] (fun l => bfx ty (arg l 0) (bitsOf (arg l 1) 0 8) (bitsOf (arg l 1) 8 8)) s

/-- BFX with an immediate (R140, R72). -/
def execBfxImm (h : Head) (ty : Ty) (d a : Opnd) (imm : BitVec 18) (s : State) : Host.Outcome State Fault Refusal :=
  intAlu h ty d [a] [immInt imm] (fun l => bfx ty (arg l 0) (bitsOf (arg l 1) 0 8) (bitsOf (arg l 1) 8 8)) s

/-- BFI (R140). -/
def execBfi (h : Head) (ty : Ty) (d a b c : Opnd) (s : State) : Host.Outcome State Fault Refusal :=
  intAlu h ty d [a, b, c] [] (fun l => bfi ty (arg l 0) (arg l 2) (bitsOf (arg l 1) 0 8) (bitsOf (arg l 1) 8 8)) s

/-- BFI with an immediate (R140): the base is the old value of D, read as a source. -/
def execBfiImm (h : Head) (ty : Ty) (d a : Opnd) (imm : BitVec 18) (s : State) : Host.Outcome State Fault Refusal :=
  intAlu h ty d [a, d] [immInt imm] (fun l => bfi ty (arg l 0) (arg l 1) (bitsOf (arg l 2) 0 8) (bitsOf (arg l 2) 8 8)) s

/-- CLZ (R141). -/
def execClz (h : Head) (ty : Ty) (d a : Opnd) (s : State) : Host.Outcome State Fault Refusal :=
  intAlu h ty d [a] [] (fun l => clz ty (arg l 0)) s

/-- POPC (R141). -/
def execPopc (h : Head) (ty : Ty) (d a : Opnd) (s : State) : Host.Outcome State Fault Refusal :=
  intAlu h ty d [a] [] (fun l => popc ty (arg l 0)) s

/-- BREV (R141). -/
def execBrev (h : Head) (ty : Ty) (d a : Opnd) (s : State) : Host.Outcome State Fault Refusal :=
  intAlu h ty d [a] [] (fun l => brev ty (arg l 0)) s

/-- ICMP (R142). -/
def execIcmp (h : Head) (ty : Ty) (cond : ICond) (pd : Fin 7) (a b : Opnd) (s : State) : Host.Outcome State Fault Refusal :=
  cmpAlu h 4 ty pd [a, b] [] (fun l => icmpBit cond ty (arg l 0) (arg l 1)) s

/-- ICMP with an immediate (R142, R72). -/
def execIcmpImm (h : Head) (ty : Ty) (cond : ICond) (pd : Fin 7) (a : Opnd) (imm : BitVec 18) (s : State) : Host.Outcome State Fault Refusal :=
  cmpAlu h 4 ty pd [a] [immInt imm] (fun l => icmpBit cond ty (arg l 0) (arg l 1)) s

/-- SEL (R143): A where the selecting predicate is true and B elsewhere; with an S destination, by the lowest active thread. -/
def execSel (h : Head) (ty : Ty) (d a b : Opnd) (ps : PredSpec) (s : State) : Host.Outcome State Fault Refusal :=
  let xs := [(ty, a), (ty, b)]
  let n0 := aluNeed h 4 ty.wide d xs
  let n := { n0 with reads := n0.reads ++ predReads ps }
  issue n (fun e => e.compute n d ty.wide (xs.map (fun x => e.src x.1 x.2))
    (fun t l => if inMask (predSpec e.regs ps) t then arg l 0 else arg l 1)) s

/-- MOV (R144). -/
def execMov (h : Head) (ty : Ty) (d a : Opnd) (s : State) : Host.Outcome State Fault Refusal :=
  intAlu h ty d [a] [] (fun l => arg l 0) s

/-- MOVI (R144): .I64 sign-extends the immediate. -/
def execMovi (h : Head) (ty : Ty) (d : Opnd) (imm : BitVec 32) (s : State) : Host.Outcome State Fault Refusal :=
  intAlu h ty d [] [] (fun _ => if ty == .i64 then imm.signExtend 64 else imm.setWidth 64) s

/-- MOVH (R144): the high half; D is read as a 64-bit source. -/
def execMovh (h : Head) (d : Opnd) (imm : BitVec 32) (s : State) : Host.Outcome State Fault Refusal :=
  intAlu h .n64 d [d] [] (fun l => imm ++ (arg l 0).setWidth 32) s

/-- I2I (R119, R145). -/
def execI2i (h : Head) (dty sty : Ty) (sat : Bool) (d a : Opnd) (s : State) : Host.Outcome State Fault Refusal :=
  alu h 4 dty.wide d [(sty, a)] [] (fun _ _ l => i2i dty sty sat (arg l 0)) s

end Sys2Proof.Machine
end

