-- ==== Sys2Proof/Machine/FloatInstr.lean ====
section
/-! DEFINITION. The floating-point instructions (R146 to R153) and RAND (R161). -/
namespace Sys2Proof.Machine

/-- An operation on encodings, on each half of a paired type with its own rounding (R112, R115). -/
def halves (e : Env) (ty : Ty) (rm : Rm) (t : Nat) (f : Rnd → List Nat → Nat) (l : List DWord) : DWord :=
  let ns := l.map BitVec.toNat
  if ty.paired then
    BitVec.ofNat 64 (f (e.rnd rm t 0) (ns.map (· % 2 ^ 16)) % 2 ^ 16 + 2 ^ 16 * (f (e.rnd rm t 1) (ns.map (· / 2 ^ 16 % 2 ^ 16)) % 2 ^ 16))
  else BitVec.ofNat 64 (f (e.rnd rm t 0) ns)

/-- The latency of R133: 8 where an operand or the result is .F64. -/
def floatLat (tys : List Ty) : Nat := if tys.contains .f64 then 8 else 5

/-- A floating-point instruction of one type under a rounding mode; RS advances draw counts (R115). -/
def floatAlu (h : Head) (lat : Nat) (ty : Ty) (rm : Rm) (d : Opnd) (xs : List Opnd) (imm : List Src)
    (f : Rnd → List Nat → Nat) (s : State) : Host.Outcome State Fault Refusal :=
  alu h lat ty.wide d (xs.map (fun x => (ty, x))) imm (fun e t l => halves e ty rm t f l) s (rm == .rs)

/-- The i-th encoding. -/
def enc (l : List Nat) (i : Nat) : Nat := l.getD i 0

/-- FADD (R146). -/
def execFadd (h : Head) (ty : Ty) (rm : Rm) (d a b : Opnd) (s : State) : Host.Outcome State Fault Refusal :=
  floatAlu h (floatLat [ty]) ty rm d [a, b] [] (fun r l => fadd ty r (enc l 0) (enc l 1)) s

/-- FADD with an immediate (R146, R72). -/
def execFaddImm (h : Head) (ty : Ty) (rm : Rm) (d a : Opnd) (imm : BitVec 18) (s : State) :
    Host.Outcome State Fault Refusal :=
  floatAlu h (floatLat [ty]) ty rm d [a] [immFloat ty imm] (fun r l => fadd ty r (enc l 0) (enc l 1)) s

/-- FSUB (R146). -/
def execFsub (h : Head) (ty : Ty) (rm : Rm) (d a b : Opnd) (s : State) : Host.Outcome State Fault Refusal :=
  floatAlu h (floatLat [ty]) ty rm d [a, b] [] (fun r l => fsub ty r (enc l 0) (enc l 1)) s

/-- FMUL (R146). -/
def execFmul (h : Head) (ty : Ty) (rm : Rm) (d a b : Opnd) (s : State) : Host.Outcome State Fault Refusal :=
  floatAlu h (floatLat [ty]) ty rm d [a, b] [] (fun r l => fmul ty r (enc l 0) (enc l 1)) s

/-- FMUL with an immediate (R146, R72). -/
def execFmulImm (h : Head) (ty : Ty) (rm : Rm) (d a : Opnd) (imm : BitVec 18) (s : State) :
    Host.Outcome State Fault Refusal :=
  floatAlu h (floatLat [ty]) ty rm d [a] [immFloat ty imm] (fun r l => fmul ty r (enc l 0) (enc l 1)) s

/-- FFMA (R146): one rounding. -/
def execFfma (h : Head) (ty : Ty) (rm : Rm) (d a b c : Opnd) (s : State) : Host.Outcome State Fault Refusal :=
  floatAlu h (floatLat [ty]) ty rm d [a, b, c] [] (fun r l => ffma ty r (enc l 0) (enc l 1) (enc l 2)) s

/-- FMIN (R147). -/
def execFmin (h : Head) (ty : Ty) (d a b : Opnd) (s : State) : Host.Outcome State Fault Refusal :=
  floatAlu h (floatLat [ty]) ty .rn d [a, b] [] (fun _ l => fmin ty (enc l 0) (enc l 1)) s

/-- FMIN with an immediate (R147, R72). -/
def execFminImm (h : Head) (ty : Ty) (d a : Opnd) (imm : BitVec 18) (s : State) : Host.Outcome State Fault Refusal :=
  floatAlu h (floatLat [ty]) ty .rn d [a] [immFloat ty imm] (fun _ l => fmin ty (enc l 0) (enc l 1)) s

/-- FMAX (R147). -/
def execFmax (h : Head) (ty : Ty) (d a b : Opnd) (s : State) : Host.Outcome State Fault Refusal :=
  floatAlu h (floatLat [ty]) ty .rn d [a, b] [] (fun _ l => fmax ty (enc l 0) (enc l 1)) s

/-- FMAX with an immediate (R147, R72). -/
def execFmaxImm (h : Head) (ty : Ty) (d a : Opnd) (imm : BitVec 18) (s : State) : Host.Outcome State Fault Refusal :=
  floatAlu h (floatLat [ty]) ty .rn d [a] [immFloat ty imm] (fun _ l => fmax ty (enc l 0) (enc l 1)) s

/-- FCMP (R148). -/
def execFcmp (h : Head) (ty : Ty) (cond : FCond) (pd : Fin 7) (a b : Opnd) (s : State) : Host.Outcome State Fault Refusal :=
  cmpAlu h (floatLat [ty]) ty pd [a, b] [] (fun l => fcond cond ty (arg l 0).toNat (arg l 1).toNat) s

/-- FCMP with an immediate (R148, R72). -/
def execFcmpImm (h : Head) (ty : Ty) (cond : FCond) (pd : Fin 7) (a : Opnd) (imm : BitVec 18) (s : State) :
    Host.Outcome State Fault Refusal :=
  cmpAlu h (floatLat [ty]) ty pd [a] [immFloat ty imm] (fun l => fcond cond ty (arg l 0).toNat (arg l 1).toNat) s

/-- FCLASS (R149): one bit of a 32-bit word. -/
def execFclass (h : Head) (ty : Ty) (d a : Opnd) (s : State) : Host.Outcome State Fault Refusal :=
  alu h (floatLat [ty]) false d [(ty, a)] [] (fun _ _ l => BitVec.ofNat 64 (2 ^ fclass ty (arg l 0).toNat)) s

/-- A function of opcode 0x27 (R120, R150): latency 12, rounded with RN. -/
def funAlu (h : Head) (ty : Ty) (d a : Opnd) (g : FVal → FVal) (s : State) : Host.Outcome State Fault Refusal :=
  floatAlu h 12 ty .rn d [a] [] (fun _ l => fun1 g ty (enc l 0)) s

/-- FRCP (R120, R150). -/
def execFrcp (h : Head) (ty : Ty) (d a : Opnd) (s : State) : Host.Outcome State Fault Refusal := funAlu h ty d a frcpv s
/-- FRSQ (R120, R150). -/
def execFrsq (h : Head) (ty : Ty) (d a : Opnd) (s : State) : Host.Outcome State Fault Refusal := funAlu h ty d a frsqv s
/-- FSQRT (R120, R150). -/
def execFsqrt (h : Head) (ty : Ty) (d a : Opnd) (s : State) : Host.Outcome State Fault Refusal := funAlu h ty d a fsqrtv s
/-- FEXP2 (R120, R150; log 41). -/
def execFexp2 (h : Head) (ty : Ty) (d a : Opnd) (s : State) : Host.Outcome State Fault Refusal := funAlu h ty d a fexp2v s
/-- FLOG2 (R120, R150; log 41). -/
def execFlog2 (h : Head) (ty : Ty) (d a : Opnd) (s : State) : Host.Outcome State Fault Refusal := funAlu h ty d a flog2v s
/-- FSIN (R120, R150; log 41). -/
def execFsin (h : Head) (ty : Ty) (d a : Opnd) (s : State) : Host.Outcome State Fault Refusal := funAlu h ty d a fsinv s
/-- FCOS (R120, R150; log 41). -/
def execFcos (h : Head) (ty : Ty) (d a : Opnd) (s : State) : Host.Outcome State Fault Refusal := funAlu h ty d a fcosv s

/-- FDIV (R120, R150). -/
def execFdiv (h : Head) (ty : Ty) (rm : Rm) (d a b : Opnd) (s : State) : Host.Outcome State Fault Refusal :=
  floatAlu h 12 ty rm d [a, b] [] (fun r l => fdiv ty r (enc l 0) (enc l 1)) s

/-- FRND (R151). -/
def execFrnd (h : Head) (ty : Ty) (rm : Rm) (d a : Opnd) (s : State) : Host.Outcome State Fault Refusal :=
  floatAlu h (floatLat [ty]) ty rm d [a] [] (fun _ l => frnd ty rm (enc l 0)) s

/-- F2F (R117, R152): RS consumes a draw even where the conversion is exact. -/
def execF2f (h : Head) (dty sty : Ty) (sat : Bool) (rm : Rm) (d a : Opnd) (s : State) : Host.Outcome State Fault Refusal :=
  alu h (floatLat [dty, sty]) dty.wide d [(sty, a)] []
    (fun e t l => BitVec.ofNat 64 (f2f dty sty { e.rnd rm t 0 with sat := sat } (arg l 0).toNat)) s (rm == .rs)

/-- F2I (R118, R152). -/
def execF2i (h : Head) (dty sty : Ty) (sat : Bool) (rm : Rm) (d a : Opnd) (s : State) : Host.Outcome State Fault Refusal :=
  alu h (floatLat [sty]) dty.wide d [(sty, a)] []
    (fun _ _ l => iput dty (f2i (imin dty) (imax dty) sty rm sat (arg l 0).toNat)) s

/-- I2F (R119, R152). -/
def execI2f (h : Head) (dty sty : Ty) (rm : Rm) (d a : Opnd) (s : State) : Host.Outcome State Fault Refusal :=
  alu h (floatLat [dty]) dty.wide d [(sty, a)] []
    (fun _ _ l => BitVec.ofNat 64 (fenc dty { rm := rm } (fofInt (ival sty (arg l 0))))) s

/-- FDOT2 (R153): a paired type's products and an FP32 addend, rounded once to FP32. -/
def execFdot2 (h : Head) (ty : Ty) (rm : Rm) (d a b c : Opnd) (s : State) : Host.Outcome State Fault Refusal :=
  alu h 5 false d [(ty, a), (ty, b), (.f32, c)] []
    (fun e t l => BitVec.ofNat 64 (fdot2 ty (e.rnd rm t 0) (arg l 0).toNat (arg l 1).toNat (arg l 2).toNat)) s (rm == .rs)

/-- RAND (R161): each thread of the issue set advances its count, and the active ones take their draw. -/
def execRand (h : Head) (ty : Ty) (d : Opnd) (s : State) : Host.Outcome State Fault Refusal :=
  alu h 4 ty.wide d [] []
    (fun e t _ =>
      let z := e.draw t
      match ty with
      | .n64 => z
      | .f32 => BitVec.ofNat 64 (fenc .f32 {} (.fin false (z.toNat / 2 ^ 40) (-24) false))
      | .n8 | .n16 | .n32 | .i8 | .i16 | .i32 | .i64 | .f64 | .f16 | .bf16 | .f16x2 | .bf16x2 | .e4m3 | .e5m2 =>
        (z.setWidth 32).setWidth 64) s true

end Sys2Proof.Machine
end

