-- ==== Sys2Proof/Machine/BlockInstr.lean ====
section
/-! DEFINITION. Block floating point (R121 to R124) and the instructions that treat a register as one record (R154 to R158). A record is
one little-endian number: SCALE, then 32 mantissas. -/
namespace Sys2Proof.Machine

/-- Mantissa bits of a block format (R121). -/
def bfpBits : Bfmt → Nat
  | .bfp8 => 8
  | .bfp6 => 6
  | .bfp4 => 4

/-- Bytes of a record (R121). -/
def bfpBytes (f : Bfmt) : Nat := 1 + 4 * bfpBits f

/-- Words of a record image (R154). -/
def bfpWords (f : Bfmt) : Nat := (bfpBytes f + 3) / 4

/-- Element i of a record at an effective width w (R122, R123): a NaN block gives NaN. -/
def bfpElem (f : Bfmt) (w : Nat) (rec_ i : Nat) : FVal :=
  let n := bfpBits f
  let sc := rec_ % 256
  if sc = 255 then .nan
  else
    let m := rec_ / 2 ^ (8 + n * i) % 2 ^ n
    let z : Int := (if m ≥ 2 ^ (n - 1) then (m : Int) - 2 ^ n else m) / 2 ^ (n - w)
    .fin (z < 0) z.natAbs ((sc : Int) - 127 - ((w : Int) - 1)) false

/-- The scale of a block of finite values (R124): from the exponents of their leading bits. -/
def bfpScale (xs : List FVal) : Nat :=
  let top := xs.foldl (fun a x => match x with
    | .fin _ m e _ => if m = 0 then a else max a (some ((Nat.log2 m : Int) + e))
    | .nan | .inf _ => a) none
  match top with
  | none => 0
  | some t => (min (max (t + 128) 0) 254).toNat

/-- Encode a block (R124); thread i rounds under its own draw. -/
def bfpEncode (f : Bfmt) (r : Nat → Rnd) (xs : List FVal) : Nat :=
  let n := bfpBits f
  if xs.any (fun x => match x with | .nan | .inf _ => true | .fin _ _ _ _ => false) then 255
  else
    let sc := bfpScale xs
    xs.zipIdx.foldl (fun a (x, i) =>
      match x with
      | .fin neg m e _ =>
        let z := signed neg (froundInt (r i) neg m (e + n - 1 - ((sc : Int) - 127)))
        let z := min (max z (-(2 ^ (n - 1) : Int))) (2 ^ (n - 1) - 1)
        a + (z % (2 ^ n : Int)).toNat * 2 ^ (8 + n * i)
      | .nan | .inf _ => a) sc

/-- The record whose image a source holds (R154, R156): a VOID word reads as 0. -/
def recordOf (f : Bfmt) (x : Src) : Nat :=
  (List.range (bfpWords f)).foldl (fun a j => a + (((x.at j).getD 0).toNat % 2 ^ 32) * 2 ^ (32 * j)) 0 % 2 ^ (8 * bfpBytes f)

/-- Word t of a record image (R154). -/
def imageWord (rec_ t : Nat) : DWord := BitVec.ofNat 64 (rec_ / 2 ^ (32 * t) % 2 ^ 32)

/-- What issue judges of a block-format instruction. -/
def blockNeed (h : Head) (d : Opnd) (xs : List Opnd) (draws : Bool) : Need :=
  aluNeed h 6 false d (xs.map (fun x => (Ty.f32, x))) draws

/-- BCVT (R155): no source takes part in the anchor rule. DEDUCED (log 112): VLANE as the A of BCVT, or as A or B of BUNP and BDOT, is then the thread
number, as R48 gives it where there is no slot. -/
def execBcvt (h : Head) (fmt : Bfmt) (rm : Rm) (d a : Opnd) (s : State) : Host.Outcome State Fault Refusal :=
  let n := blockNeed h d [a] (rm == .rs)
  issue n (fun e =>
    let x := e.src .f32 a
    let xs := threads.map (fun t => if inMask e.act t then fdec .f32 (((x.at t).getD 0).toNat) else .fin false 0 0 false)
    let rec_ := bfpEncode fmt (fun i => e.rnd rm i 0) xs
    e.compute n d false [] (fun t _ => imageWord rec_ t)) s

/-- BDOT (R157): C alone takes part in the anchor rule. -/
def execBdot (h : Head) (fmt : Bfmt) (d a b c : Opnd) (s : State) : Host.Outcome State Fault Refusal :=
  let n := blockNeed h d [a, b, c] false
  issue n (fun e =>
    let ra := recordOf fmt (e.src .f32 a)
    let rb := recordOf fmt (e.src .f32 b)
    let k := bfpBits fmt
    let sum := faddv .rn ((List.range 32).map (fun i => fmulv (bfpElem fmt k ra i) (bfpElem fmt k rb i)))
    let sum := match sum with
      | .fin neg m ex st => .fin (neg && m != 0) m ex st
      | .nan | .inf _ => sum
    e.compute n d false [e.src .f32 c] (fun _ l => BitVec.ofNat 64 (fenc .f32 {} (faddv .rn [sum, fdec .f32 (arg l 0).toNat])))) s

/-- BUNP (R156). DEDUCED (log 112): a record image stands in a floating-point position, so that a short constant there is read as FP32 (R75), for BDOT too. -/
def execBunp (h : Head) (fmt : Bfmt) (d a : Opnd) (s : State) : Host.Outcome State Fault Refusal :=
  let n := blockNeed h d [a] false
  issue n (fun e =>
    let rec_ := recordOf fmt (e.src .f32 a)
    e.compute n d false [] (fun t _ => BitVec.ofNat 64 (fenc .f32 {} (bfpElem fmt (bfpBits fmt) rec_ t)))) s

end Sys2Proof.Machine
end

