-- ==== Sys2Proof/Machine/MemAccess.lean ====
section
/-! DEFINITION. What memory, atomic, LC and counter instructions share: addresses (R71, R96), the checks of acceptance (R184), run-ahead
(R306, R307), the destinations of loads (R186), and the record an accepted instruction leaves. -/
namespace Sys2Proof.Machine

/-! ### Addresses (R71, R96) -/

/-- ext32: a 32-bit element as an address. -/
def ext32 (e : DWord) : DWord :=
  if e.getLsbD 31 then BitVec.ofNat 64 (winBase + e.toNat % 2 ^ 31) else (e.setWidth 32).setWidth 64

/-- The forms of an address: [base + offset], [base + index × 2^sh + disp], and the register of an FA word, with an S base or none. -/
inductive AddrForm where
  | off (base : Opnd) (off : DWord)
  | idx (base idx : Opnd) (sh : Nat) (disp : DWord)
  | reg (a : Opnd) (cb : Option (Fin 64))
deriving DecidableEq, Repr

/-- The registers an address is formed from. -/
def AddrForm.regs : AddrForm → List Reg
  | .off b _ => opndRegs false b
  | .idx b i _ _ => opndRegs false b ++ opndRegs false i
  | .reg a cb => opndRegs false a ++ (match cb with | some c => [.s c.val] | none => [])

/-- The address an S register or an element of a V register gives. -/
def Env.baseAddr (e : Env) (x : Opnd) (t : Nat) : Option DWord :=
  match x with
  | .s n => some (e.regs.s.getD n.val 0)
  | .v _ | .c _ | .o _ | .l _ | .vz | .vtid | .vlane => ((e.src .n32 x).at t).map ext32

/-- The address of thread t; none where the element is VOID (R57). -/
def Env.addr (e : Env) (f : AddrForm) (t : Nat) : Option DWord :=
  match f with
  | .off b o => (e.baseAddr b t).map (· + o)
  | .idx b i sh d => ((e.src .n32 i).at t).map (fun v => (e.baseAddr b t).getD 0 + v * BitVec.ofNat 64 (2 ^ sh) + d)
  | .reg a none => e.baseAddr a t
  | .reg a (some c) => ((e.src .n32 a).at t).map (fun v => e.regs.s.getD c.val 0 + v)

/-- The active threads, ascending. -/
def Env.acts (e : Env) : List Nat := threads.filter (inMask e.act)

/-! ### Acceptance (R184) -/

/-- What a request needs of the place it goes to: a read, a write, a read-modify-write, an SCADD, an LC operation (with the level it
names), or a counter operation. -/
inductive Want where
  | read | write | rmw | scadd
  | lc (level : Option Nat)
  | ctr (op : AccOp)
deriving DecidableEq, Repr

/-- The outcome of the checks on one request: its permissions and place; a trap with its rank in R184, code and reason; or a page that is
absent and can be resolved. -/
inductive Judge where
  | ok (p : Perm) (l : Loc)
  | bad (rank : Nat) (code reason : BitVec 8)
  | absent
deriving DecidableEq, Repr

/-- LCBASE i of a warp's context. -/
def State.lcbase (s : State) (ctx i : Nat) : DWord := ((s.ctxs[ctx]?).map (fun c => c.lcbase.getD i 0)).getD 0

/-- LCBASE.VALID (R281). -/
def lcValid (b : DWord) : Bool := b.getLsbD 9
/-- LCBASE.POLICY: trap (R281). -/
def lcTrap (b : DWord) : Bool := b.getLsbD 8
/-- LCBASE.K (R281). -/
def lcK (b : DWord) : Nat := bitsOf b 4 3
/-- Lmax of a base register (R205). -/
def lcMax (b : DWord) : Nat := if b.getLsbD 0 then 255 else 15

/-- The state of a counter word refuses an operation at acceptance, with its reason (R236). -/
def State.ctrRefuses (s : State) (l : Loc) (op : AccOp) : Option (BitVec 8) :=
  let init := match op with | .ctrInit _ => true | _ => false
  match s.ctrTag l with
  | none => if init || op == .ctrRead then none else some 0
  | some _ =>
    if !ctrRetired (s.ctrWordAt l) then (if init || op == .ctrFree then some 1 else none)
    else if (init || op == .ctrFree) && s.referenced l then some 2 else none

/-- Steps 3 to 6 of R184 for one request. -/
def State.judge (s : State) (w : Nat) (k : Want) (va : DWord) (size : Nat) : Judge :=
  let ctx := s.ctxIx w
  if !canonical va then .bad 30 codeProt 0
  else
    match s.resolve w va with
    | .ok (p, l) =>
      let prot : Bool := match k with
        | .read => !p.r
        | .write => !p.w
        | .rmw | .lc _ | .ctr _ => !(p.r && p.w)
        | .scadd => false
      match k, l.place with
      | .lc lvl, .lcm _ =>
        let b := s.lcbase ctx p.lcb
        if !lcValid b then .bad 40 codeLcm 4
        else if (lvl.map (fun v => decide (lcMax b < v))).getD false then .bad 40 codeLcm 3
        else if prot then .bad 50 codeProt 0
        else .ok p l
      | .lc _, .peer _ => if prot then .bad 50 codeProt 0 else .ok p l
      | .lc _, .glob _ | .lc _, .nc | .lc _, .scr _ _ => .bad 40 codeLcm 0
      | .read, _ => if prot then .bad 50 codeProt 0 else .ok p l
      | .write, .lcm _ | .rmw, .lcm _ | .scadd, .lcm _ | .ctr _, .lcm _ => .bad 40 codeLcm 1
      | .scadd, .glob _ | .scadd, .nc | .scadd, .peer _ => .bad 50 codeProt 0
      | .write, .glob _ | .write, .nc | .write, .scr _ _ | .write, .peer _
      | .rmw, .glob _ | .rmw, .nc | .rmw, .scr _ _ | .rmw, .peer _ | .scadd, .scr _ _ =>
        if prot then .bad 50 codeProt 0 else if s.tagHit l size then .bad 60 codeCtrstore 0 else .ok p l
      | .ctr _, .peer _ => if prot then .bad 50 codeProt 0 else .ok p l
      | .ctr op, .glob _ | .ctr op, .nc | .ctr op, .scr _ _ =>
        if prot then .bad 50 codeProt 0
        else match s.ctrRefuses l op with
          | some r => .bad 60 codeCtrstate r
          | none => .ok p l
    | .error e =>
      let outside := regionOf va.toNat != .global && regionOf va.toNat != .peer
      match k, outside, e with
      | .lc _, true, _ => .bad 40 codeLcm 0
      | .scadd, _, _ => .bad 50 codeProt 0
      | _, _, .absent => if s.resolvable ctx va.toNat then .absent else .bad 52 codePage 0
      | _, _, _ => .bad 50 codeProt 0

/-- One request an instruction would make: the thread (and others that share it), the address its record names, the address and size,
what it needs, and what has been judged of it before: that it is misaligned, and the bounds entry it breaks (R194). -/
structure Ask where
  thread : Nat
  also : Mask := 0
  addr : DWord
  va : DWord
  size : Nat
  want : Want
  misaligned : Bool := false
  bounds : Option Nat := none
  data : DWord := 0
  cmp : DWord := 0
  dst : Nat := 0
  src : Option (Nat × Nat) := none
deriving DecidableEq, Repr

/-- All steps of R184 but VOIDOP for one request; R204 follows at the target. -/
def State.verdict (s : State) (w : Nat) (q : Ask) : Judge :=
  if q.misaligned then .bad 20 codeAlign 0
  else
    match s.judge w q.want q.va q.size, q.bounds with
    | .ok _ _, some n => .bad 70 codeBounds (BitVec.ofNat 8 n)
    | j, _ => j

/-- What acceptance decides for an instruction. -/
inductive Accept where
  | go (places : List (Perm × Loc))
  | trap (t : TrapInfo)
  | absent (pages : List Nat)
deriving DecidableEq, Repr

/-- The rank of a judgement in R184; PROT comes before an absent page, and that before PAGE (R306). -/
def Judge.rank : Judge → Nat
  | .ok _ _ => 100
  | .bad k _ _ => k
  | .absent => 51

/-- R184: the first kind of trap in order, with every thread that meets it; `whole` where the access is made once for all the active
threads (R67, R191, R228). -/
def State.accept (s : State) (w : Nat) (act : Mask) (whole : Bool) (qs : List Ask) : Accept :=
  let vs := qs.map (fun q => (q, s.verdict w q))
  let rank := vs.foldl (fun r v => min r v.2.rank) 100
  let hits := vs.filter (fun v => v.2.rank == rank)
  if rank = 100 then
    .go (vs.filterMap (fun v => match v.2 with | .ok p l => some (p, l) | .bad _ _ _ | .absent => none))
  else if rank = 51 then .absent ((hits.map (fun v => pageOf v.1.va.toNat)).eraseDups)
  else
    match hits.head? with
    | some (q, .bad _ code reason) =>
      .trap { code := code, reason := reason, addr := q.addr, lowv := true
              lowest := if whole then lowestOf act else q.thread
              mask := if whole then act else maskOf (fun t => hits.any (fun v => v.1.thread == t || inMask v.1.also t)) }
    | some (_, .ok _ _) | some (_, .absent) | none => .go []

/-! ### Bounds checking (R194, R354, R355) -/

/-- The bounds table a launch selects (R27). -/
def State.boundsOf (s : State) (w : Nat) : Option Nat :=
  match s.launchOf w with
  | none => none
  | some l => let b := bitsOf (word64 l.pkt 0) 52 3; if b = 0 then none else some (b - 1)

/-- The first entry of a table that covers an address (R194, R354). -/
def coverEntry (es : List BoundsEntry) (va : DWord) : Option (Nat × BoundsEntry) :=
  (es.zipIdx.find? (fun x => x.1.action != 0 && x.1.base.toNat ≤ va.toNat && va.toNat < x.1.top.toNat)).map (fun x => (x.2, x.1))

/-- The outcome of the check of one element: its value, and the entry that acts; the flag says that the entry traps. -/
structure Bound where
  value : Nat
  entry : Option Nat
  traps : Bool
deriving DecidableEq, Repr

/-- Check one element of a type that is not paired at its address (R194). -/
def checkOne (es : List BoundsEntry) (va : DWord) (ty : Ty) (v : Nat) : Bound :=
  match coverEntry es va with
  | none => { value := v, entry := none, traps := false }
  | some (n, b) =>
    let x := fdec ty v
    let above := fcmpv x (fdec .f32 b.high.toNat) == some .gt
    let under := fcmpv x (fdec .f32 b.low.toNat) == some .lt
    if !(above || under || x == .nan) then { value := v, entry := none, traps := false }
    else if b.action == 3 then { value := v, entry := some n, traps := true }
    else if b.action == 1 then { value := v, entry := some n, traps := false }
    else { value := if above then f2f ty .f32 { rm := .rd } b.high.toNat else f2f ty .f32 { rm := .ru } b.low.toNat
           entry := some n, traps := false }

/-- Check one element of any type; each half of a paired type at its own address (R194). -/
def checkElem (es : List BoundsEntry) (va : DWord) (ty : Ty) (v : Nat) : List Bound :=
  if ty.isInt then [{ value := v, entry := none, traps := false }]
  else if ty.paired then
    let one : Ty := if ty == .f16x2 then .f16 else .bf16
    [checkOne es va one (v % 2 ^ 16), checkOne es (va + 2) one (v / 2 ^ 16)]
  else [checkOne es va ty v]

/-- The value after the check. -/
def boundValue : List Bound → Nat
  | [a, b] => a.value + 2 ^ 16 * b.value
  | a :: _ => a.value
  | [] => 0

/-- The entry whose TRAP action the check meets. -/
def boundTrap (bs : List Bound) : Option Nat := ((bs.find? Bound.traps).bind Bound.entry)

/-- The physical address of an entry of a context's bounds table (R343, R354). -/
def State.boundsAt (s : State) (ctx table entry : Nat) : Nat :=
  ((s.ctxs[ctx]?).map (fun c => c.btbase.toNat)).getD 0 + 1024 * table + 32 * entry

/-- An entry of a bounds table as memory holds it (R354). -/
def boundsEntry (m : Memory) (a : Nat) : BoundsEntry :=
  { base := read64 m a, top := read64 m (a + 8), low := (read64 m (a + 16)).setWidth 32, high := (read64 m (a + 16)).extractLsb' 32 32
    action := Fin.ofNat 4 (m.read (a + 24)).toNat, hit := (m.read (a + 28)).getLsbD 0 }

/-- The entries a store of a warp is checked against. -/
def State.boundsEntries (s : State) (w : Nat) : List BoundsEntry :=
  match s.boundsOf w with
  | none => []
  | some k => (List.range 32).map (fun i => boundsEntry s.mem (s.boundsAt (s.ctxIx w) k i))

/-- The key of an entry's HIT bit among the bits set at a clk. -/
def hitKey (a : Nat) : Nat := 2 ^ 16 + a

/-- Set HIT of the entry at an address (R355). -/
def State.setHit (s : State) (a : Nat) : State :=
  { s with mem := s.mem.write (a + 28) (s.mem.read (a + 28) ||| 1), justSet := hitKey a :: s.justSet }

/-- Set HIT of entries of the warp's table (R355). -/
def State.setHits (s : State) (w : Nat) (ns : List Nat) : State :=
  match s.boundsOf w with
  | none => s
  | some k => ns.foldl (fun s n => s.setHit (s.boundsAt (s.ctxIx w) k n)) s

/-! ### Deterministic launches (R349 to R353, R320, R393) -/

/-- The owner of a line in a launch (R349): a PRIVATE line's block; none where it is SHARED. -/
def ownerOf (own : List OwnEntry) (line : Nat) : Option Nat :=
  (own.find? (fun o => o.base.toNat / 128 ≤ line && line < o.base.toNat / 128 + o.lines)).map
    (fun o => o.first + (line - o.base.toNat / 128) / o.per)

/-- An operation that writes memory or a level. -/
def AccOp.writes : AccOp → Bool
  | .store | .add | .min | .max | .and | .or | .xor | .exch | .cas | .lcadd | .lcmrg | .lcinit => true
  | .load | .loadRec _ | .prefetch | .cflush | .cinv | .cdemote | .lcrd | .lcrdRaw | .ctrInit _ | .ctrAdd | .ctrArv | .ctrRead
  | .ctrKill | .ctrFree | .fenceop | .launch _ | .macc => false

/-- An operation on a level counter. -/
def AccOp.isLc : AccOp → Bool
  | .lcadd | .lcmrg | .lcinit | .lcrd | .lcrdRaw => true
  | .load | .loadRec _ | .store | .add | .min | .max | .and | .or | .xor | .exch | .cas | .prefetch | .cflush | .cinv | .cdemote
  | .ctrInit _ | .ctrAdd | .ctrArv | .ctrRead | .ctrKill | .ctrFree | .fenceop | .launch _ | .macc => false

/-- An operation of R200. -/
def AccOp.isAtomic : AccOp → Bool
  | .add | .min | .max | .and | .or | .xor | .exch | .cas => true
  | .load | .loadRec _ | .store | .lcadd | .lcmrg | .lcinit | .lcrd | .lcrdRaw | .prefetch | .cflush | .cinv | .cdemote
  | .ctrInit _ | .ctrAdd | .ctrArv | .ctrRead | .ctrKill | .ctrFree | .fenceop | .launch _ | .macc => false

/-- A counter operation. -/
def AccOp.isCtr : AccOp → Bool
  | .ctrInit _ | .ctrAdd | .ctrArv | .ctrRead | .ctrKill | .ctrFree => true
  | .load | .loadRec _ | .store | .add | .min | .max | .and | .or | .xor | .exch | .cas | .lcadd | .lcmrg | .lcinit | .lcrd
  | .lcrdRaw | .prefetch | .cflush | .cinv | .cdemote | .fenceop | .launch _ | .macc => false

/-- A read that only reads. -/
def AccOp.isRead : AccOp → Bool
  | .load | .loadRec _ | .lcrd | .lcrdRaw | .launch _ => true
  | .store | .add | .min | .max | .and | .or | .xor | .exch | .cas | .lcadd | .lcmrg | .lcinit | .prefetch | .cflush | .cinv
  | .cdemote | .ctrInit _ | .ctrAdd | .ctrArv | .ctrRead | .ctrKill | .ctrFree | .fenceop | .macc => false

/-- A read-modify-write (R376). -/
def AccOp.isRmw (o : AccOp) : Bool := o.isAtomic || o.isCtr || (o.isLc && !o.isRead)

/-- A memory access in the sense of R376. -/
def AccOp.isAccess (o : AccOp) : Bool := o.isRead || o.isRmw || o == .store

/-- A line is not the own one of a block in its deterministic launch (R350, R393). -/
def State.foreign (s : State) (b : Nat) (l : Loc) (va : DWord) : Bool :=
  match s.launchOfBlock b, s.blocks[b]? with
  | some n, some k =>
    pktDet n.pkt && (match l.place with
      | .glob _ | .nc => ownerOf n.own (va.toNat / 128) != some k.ix
      | .lcm _ => true
      | .scr _ _ | .peer _ => false)
  | _, _ => false

/-- The staged items of a block have been released before its end (R353). -/
def State.direct (s : State) (b : Nat) : Bool :=
  match s.launchOfBlock b, s.blocks[b]? with
  | some n, some k => n.early == some k.ix
  | _, _ => false

/-- The ticket unit stages a write (R351). -/
def State.stages (s : State) (b : Nat) (op : AccOp) (l : Loc) (va : DWord) : Bool :=
  op.writes && s.foreign b l va && !s.direct b

/-- A request that the ticket unit keeps until its block's release, and that returns nothing: other accesses of its block do not wait for
it (R351, R352). -/
def State.parked (s : State) (a : Access) (r : Req) : Bool := a.dregs.isEmpty && s.stages a.block a.op r.loc r.va

/-- The ticket unit holds a read until NEXT reaches its block (R393, R320). -/
def State.heldRead (s : State) (b : Nat) (op : AccOp) (l : Loc) (va : DWord) : Bool := op.isRead && s.foreign b l va

/-- NEXT has reached a block (R351). -/
def State.nextReached (s : State) (b : Nat) : Bool :=
  match s.launchOfBlock b, s.blocks[b]? with
  | some n, some k => k.ix ≤ n.next
  | _, _ => true

/-- The line of a request that the ticket unit counts (R353): 128 bytes, or the 256 counters of a line of 4-bit counters (R313). -/
def State.ticketLine (s : State) (l : Loc) (va : DWord) : Place × Nat :=
  (l.place, match l.place with
    | .lcm a => s.lcmLine a l.addr
    | .glob _ | .nc | .scr _ _ | .peer _ => va.toNat / 128)

/-- The lines a block has staged and not released (R353). -/
def State.stagedLines (s : State) (b : Nat) : List (Place × Nat) :=
  (s.accs.flatMap (fun a =>
    if a.block != b then []
    else (a.reqs.filter (fun r => !r.done && s.stages b a.op r.loc r.va)).map (fun r => s.ticketLine r.loc r.va))).eraseDups

/-! ### The destination of a load (R186) -/

/-- Prepare a register or pair for results that come later: the tag, and the fire where one is owed. The answer names the slots of the
active threads. -/
def prepDst (r : Regs) (ds : List Reg) (act : Mask) : Except Mask (LaneRes × LMap) :=
  match ds with
  | [] => .ok ({ regs := r }, .ident)
  | _ :: _ =>
    let an := anchorOf r ds act []
    let f := if an.fire then fireDst r ds else { regs := r }
    let m : LMap := .ofFn (fun t => if inMask act t then an.slots.at t else an.keep.at t)
    (writeMap f.regs ds m (if m == an.keep then an.byRef else none)).map (fun w =>
      ({ w with extra := w.extra + f.extra, autofire := w.autofire + f.autofire }, an.slots))

/-- Prepare several, one after another. -/
def prepAll : List (List Reg) → Mask → Regs → Except Mask (LaneRes × List LMap)
  | [], _, r => .ok ({ regs := r }, [])
  | g :: gs, act, r =>
    match prepDst r g act with
    | .error m => .error m
    | .ok (a, m) =>
      match prepAll gs act a.regs with
      | .error e => .error e
      | .ok (b, ms) =>
        .ok ({ regs := b.regs, extra := a.extra + b.extra, lanemove := a.lanemove + b.lanemove, autofire := a.autofire + b.autofire },
          (List.replicate g.length m) ++ ms)

/-! ### What a read returns (R187, R382) -/

/-- A scope code is near (R379). -/
def scopeNear : Scope → Bool
  | .dflt | .warp | .core | .cluster => true
  | .die | .device | .system => false

/-- A scope holds whole dies (R211). -/
def scopeWide : Scope → Bool
  | .die | .device | .system => true
  | .dflt | .warp | .core | .cluster => false

/-- n bytes of a place, as a near or far read of a core returns them. -/
def State.readPlace (s : State) (cl core : Nat) (near : Bool) (l : Loc) (n : Nat) : DWord :=
  match l.place with
  | .glob a =>
    if near then BitVec.ofNat 64 (leNat ((List.range n).map (fun i => s.nearRead cl core a (l.addr + i)))) else s.placeVal l n
  | .nc | .lcm _ | .scr _ _ | .peer _ => s.placeVal l n

/-- Bring the line of a warp's read near: the fill of a near read that misses (R187, R295), which carries the warp's touch bit (R337). -/
def State.readFill (s : State) (w cl core : Nat) (near : Bool) (l : Loc) (h : Hint) : State :=
  match l.place with
  | .glob a => if near then s.nearFill w cl core a (l.addr / 128) h false else s.llcFill a (l.addr / 128) h
  | .nc | .lcm _ | .scr _ _ | .peer _ => s.pullAt l

/-! ### What releases and acquires do at DIE scope or wider (R211, R383) -/

/-- The lines of a context that a cluster's caches hold dirty. -/
def State.dirtyLines (s : State) (cl asid : Nat) : List Nat :=
  ((((s.ccLines cl) ++ (s.cores.filter (fun c => c.cluster == cl)).flatMap Core.l1).filter
    (fun l => l.asid == asid && l.dirty)).map Line.vline).eraseDups

/-- Write lines back to their homes; the first that is refused is named (R214). -/
def flushAll (cl asid : Nat) : List Nat → State → State × Option Nat
  | [], s => (s, none)
  | ln :: ls, s =>
    let (s, ok) := s.flushLine cl asid ln
    let (s, r) := flushAll cl asid ls s
    (s, if ok then r else some ln)

/-- The write-backs of a release of a warp. -/
def State.release (s : State) (w : Nat) (sc : Scope) : State × Option Nat :=
  if scopeWide sc then
    let a := s.asid (s.ctxIx w)
    flushAll (s.clusterOf w) a (s.dirtyLines (s.clusterOf w) a) s
  else (s, none)

/-- Take the clean lines of a context out of a cluster cache. Of a line that is dirty in part, or that an L1 of the cluster still holds
(R295), the clean bytes are read anew (R385). -/
def State.acquireCC (s : State) (cl asid : Nat) : State :=
  let stays := fun (l : Line) => l.dirty || !(s.l1Copies cl asid l.vline).isEmpty
  let lines := ((s.ccLines cl).filter (fun l => l.asid == asid && stays l)).map Line.vline
  let s := s.modCC cl (fun ls => ls.filter (fun l => l.asid != asid || stays l))
  lines.foldl (fun s ln => s.refreshCC cl asid ln) s

/-- Take the clean bytes of a context out of a core's L1. Dirty bytes that the cluster cache refuses stay (R303). -/
def State.acquireL1 (s : State) (cl core asid : Nat) : State :=
  let lines := ((s.core cl core).l1.filter (fun l => l.asid == asid && l.dirty)).map Line.vline
  let s := lines.foldl (fun s ln => (s.l1ToCC cl core asid ln).1) s
  s.modCore cl core (fun c => { c with l1 := c.l1.filterMap (fun l =>
    if l.asid != asid || l.dirty then some l else if l.pending then some l.stripped else none) })

/-- The invalidations of an acquire of a warp. -/
def State.acquire (s : State) (w : Nat) (sc : Scope) : State :=
  if scopeWide sc then
    let a := s.asid (s.ctxIx w)
    let cl := s.clusterOf w
    let core := ((s.warp? w).map Warp.core).getD 0
    (s.acquireL1 cl core a).acquireCC cl a
  else s

/-- PREFETCH of the line of an address into a scope's levels (R198): dropped where it is not of the global region, or not of a normal page that may
be read. Into the L1 it is a near access of its warp (R337); one of a run-ahead counts no event (R287). -/
def State.prefetch (s : State) (w : Nat) (sc : Scope) (h : Hint) (va : DWord) (ahead : Bool) : State :=
  let c := s.ctxIx w
  let cl := s.clusterOf w
  let core := ((s.warp? w).map Warp.core).getD 0
  let ok := canonical va && regionOf va.toNat == .global && (match s.perm c cl core va.toNat with
    | .ok p => p.r && p.attr == 0
    | .error _ => false)
  let k := s.asid c
  let ln := va.toNat % 2 ^ 57 / 128
  if !ok then s
  else if scopeWide sc then s.llcFill k ln h
  else if sc == .cluster then s.ccFill cl k ln h
  else if ahead then s.nearFill w cl core k ln h false
  else s.nearOpen w cl core k ln h false

/-! ### Values in registers (R182) -/

/-- A loaded value in the form a register receives (R182, R131). -/
def loadForm (ty : Ty) (v : DWord) : DWord := iput ty (v.toNat : Int)

/-! ### Run-ahead (R306, R307) -/

/-- Pages join a batch (R307): each once, the faulting page and at most 32 others. -/
def joinBatch (batch pages : List Nat) : List Nat := (batch ++ pages).eraseDups.take 33

/-- Run-ahead begins at the instruction (R306): the checkpoint is taken before it. -/
def State.startAhead (s : State) (w : Nat) (old : Regs) (pages : List Nat) : State :=
  match s.warp? w with
  | none => s
  | some x =>
    let cp : Checkpoint := { warp := w, regs := old, clause := x.clause, outst := x.outst, accs := s.accs.length }
    let s := { s with checkpoints := cp :: s.checkpoints.filter (fun c => c.warp != w) }
    (s.modWarp w (fun x => { x with ahead := true, aheadCount := 0, poisoned := [], batch := joinBatch [] pages })).bump
      (s.ctxIx w) evRunAhead 1 (some w)

/-! ### An access -/

/-- What a memory instruction asks for. `groups` are the destination registers, a pair together; `addrRegs` and `dataRegs` the registers
addresses and data are read from; `voidA` and `voidD` the active threads with a VOID address or VOID data (R57); `hits` the bounds
entries that act. -/
structure MemOp where
  op : AccOp
  ty : Ty
  scope : Scope
  hint : Hint := .normal
  sem : Sem := .dflt
  asks : List Ask
  groups : List (List Reg) := []
  once : Bool := false
  whole : Bool := false
  voidA : Mask := 0
  voidD : Mask := 0
  addrRegs : List Reg
  dataRegs : List Reg := []
  hits : List Nat := []
  wait : Option CtrWait := none
  opc : Nat := 0
deriving DecidableEq, Repr

/-- The record an accepted instruction leaves. -/
def MemOp.access (m : MemOp) (e : Env) (h : Head) (places : List (Perm × Loc)) (slots : List LMap) : Access :=
  { warp := e.w, op := m.op, ty := m.ty, scope := m.scope, hint := m.hint, sem := m.sem
    reqs := (m.asks.zip places).map (fun (q, p) =>
      { thread := q.thread, va := q.va, loc := p.2, size := q.size, data := q.data, cmp := q.cmp, dst := q.dst, src := q.src })
    mask := e.act, once := m.once, dregs := m.groups.flatten, slots := slots, sb := sbOf h
    srcs := if m.groups.isEmpty then m.dataRegs else []
    block := e.x.block, issuedAt := e.s.clk, wait := m.wait, opc := m.opc, whole := m.whole }

/-- The finish of an instruction whose results come later. -/
def MemOp.finish (m : MemOp) (d : Need) (acc extra : Nat) : Finish :=
  { head := d.head, extra := extra, draws := d.draws, counted := true
    outst := m.groups.flatten.map (fun g => { reg := g, sb := sbOf d.head, acc := acc, mask := fullMask }) }

/-- What of an instruction is not accepted at its issue (R204, R210): a request to a peer, an LC request to a region with the trap
policy outside deterministic launches (R321), a write-back it forces (R199). -/
def State.awaits (s : State) (e : Env) (m : MemOp) (places : List (Perm × Loc)) : Bool :=
  m.op == .cflush || m.op == .cinv ||
  places.any (fun p => match p.2.place with
    | .peer _ => true
    | .lcm _ => m.op.isLc && m.op.writes && m.op != .lcinit && lcTrap (s.lcbase (s.ctxIx e.w) p.1.lcb) && !s.detOf e.x.block
    | .glob _ | .nc | .scr _ _ => false)

/-- Mark the lines a warp has written or read while their bytes wait for a grant (R211, R392). -/
def Warp.observe (x : Warp) (core asid vline : Nat) : Warp :=
  if x.observed.contains (core, asid, vline) then x else { x with observed := (core, asid, vline) :: x.observed }

/-- The element of a run-ahead load (R307). -/
def MemOp.aheadValue (m : MemOp) (s : State) (e : Env) (q : Ask) (p : Perm × Loc) : DWord :=
  let v := s.readPlace (s.clusterOf e.w) e.x.core (scopeNear m.scope) p.2 q.size
  match m.op with
  | .lcrd =>
    let b := s.lcbase (s.ctxIx e.w) p.1.lcb
    let P := 2 ^ lcK b + 1
    BitVec.ofNat 64 (fenc .f32 {} (.fin false (P ^ v.toNat - 2 ^ (lcK b * v.toNat)) (lcK b - lcK b * v.toNat : Int) false))
  | _ => loadForm m.ty v

/-- Write a result of a group to its threads at their slots (R186). -/
def putGroup (r : Regs) (ds : List Reg) (slots : LMap) (act : Mask) (val : Nat → DWord) : Regs :=
  threads.foldl (fun r t =>
    match inMask act t, slots.at t with
    | true, some p => writeSlot r ds p.val (val t)
    | _, _ => r) r

/-- Write results to all the groups of a destination: `val k t` is the value of the group that starts at register index k, for thread t.
An S register is written once. -/
def putGroups (r : Regs) (act : Mask) (slots : List LMap) (val : Nat → Nat → DWord) : List (List Reg) → Nat → Regs
  | [], _ => r
  | g :: gs, k =>
    let r' := match g with
      | [.s n] => { r with s := r.s.set n (val k (lowestOf act)) }
      | _ => putGroup r g (slots.getD k .ident) act (val k)
    putGroups r' act slots val gs (k + g.length)

/-- The prepared registers of an instruction's destinations; S registers need nothing. -/
def MemOp.prep (m : MemOp) (e : Env) : Except Mask (LaneRes × List LMap) :=
  match m.groups with
  | [[.s _]] => .ok ({ regs := e.regs }, [.ident])
  | gs => prepAll gs e.act e.regs

/-- A memory instruction in run-ahead (R307). -/
def Env.ahead (e : Env) (d : Need) (m : MemOp) : Res :=
  let regs := m.groups.flatten
  let poison : Finish := { head := d.head, writes := regs, poison := true, draws := d.draws }
  let lost := d.head.pred.val != 7 && e.x.poisoned.contains (.p d.head.pred.val)
  if lost || m.addrRegs.any e.x.poisoned.contains || m.op == .cflush || m.op == .cinv || m.op == .cdemote then .done e.s poison
  else if m.op == .prefetch && m.voidA == 0 then .done (m.asks.foldl (fun s q => s.prefetch e.w m.scope m.hint q.va true) e.s) poison
  else
    let dataBad := m.dataRegs.any e.x.poisoned.contains
    if m.voidA != 0 || (!dataBad && m.voidD != 0) then .stay (e.s.modWarp e.w (fun x => { x with hold := .stop }))
    else
      match e.s.accept e.w e.act m.whole (m.asks.map (fun q => if dataBad then { q with bounds := none } else q)) with
      | .trap _ => .stay (e.s.modWarp e.w (fun x => { x with hold := .stop }))
      | .absent pages =>
        let batch := joinBatch e.x.batch pages
        if 33 ≤ batch.length then .stay (e.s.modWarp e.w (fun x => { x with batch := batch, hold := .stop }))
        else .done (e.s.modWarp e.w (fun x => { x with batch := batch })) poison
      | .go places =>
        let ops := places.all (fun p => match p.2.place with
          | .nc | .peer _ => false
          | .glob _ | .lcm _ | .scr _ _ => true)
        if !(m.op.isRead && ops) then .done e.s poison
        else
          match m.prep e with
          | .error _ => .stay (e.s.modWarp e.w (fun x => { x with hold := .stop }))
          | .ok (lr, slots) =>
            let cl := e.s.clusterOf e.w
            let s := (m.asks.zip places).foldl (fun s (_, p) => s.readFill e.w cl e.x.core (scopeNear m.scope) p.2 m.hint) e.s
            let vals := (m.asks.zip places).map (fun (q, p) => (q.thread, q.dst, m.aheadValue s e q p))
            let rec_ := (m.asks.zip places).zipIdx.foldl (fun n ((q, p), i) =>
              n + (s.readPlace cl e.x.core (scopeNear m.scope) p.2 q.size).toNat * 2 ^ (8 * i)) 0
            let val := fun (k t : Nat) => match m.op with
              | .loadRec _ => imageWord rec_ t
              | _ => ((vals.find? (fun v => (m.once || v.1 == t) && v.2.1 == k)).map (fun v => v.2.2)).getD 0
            let r := putGroups lr.regs e.act slots val m.groups 0
            .done (s.modWarp e.w (fun x => { x with regs := r }))
              { m.finish d e.s.accs.length lr.extra with counted := false }

/-- The issue of a memory instruction: VOIDOP, the checks of R184, run-ahead, and what an accepted instruction leaves. -/
def Env.access (e : Env) (d : Need) (m : MemOp) : Res :=
  if e.x.ahead then e.ahead d m
  else if m.voidA ||| m.voidD != 0 then .trap { code := codeVoidop, mask := m.voidA ||| m.voidD }
  else
    match e.s.accept e.w e.act m.whole m.asks with
    | .trap t => .trap t
    | .absent pages =>
      .done (e.s.startAhead e.w e.x.regs pages) { head := d.head, writes := m.groups.flatten, poison := true, draws := d.draws }
    | .go places =>
      let s := e.s
      let b := e.x.block
      let staged := (m.asks.zip places).filter (fun (q, p) => e.s.stages b m.op p.2 q.va)
      let have_ := e.s.stagedLines b
      let lines := (staged.map (fun (q, p) => s.ticketLine p.2 q.va)).eraseDups.filter (fun x => !have_.contains x)
      if !staged.isEmpty && !lines.isEmpty && 16384 < have_.length + lines.length then
        .stay (e.s.modWarp e.w (fun x => { x with hold := .issue .stage }))
      else
        match m.prep e with
        | .error v => .trap { code := codeVoidop, mask := v }
        | .ok (lr, slots) =>
          let items := (staged.map (fun (q, p) => (q.thread, s.ticketLine p.2 q.va))).eraseDups.length
          let n := e.s.accs.length
          if e.s.awaits e m places then
            .held { e.s with accs := e.s.accs ++ [{ m.access e d.head places [] with hits := m.hits, tickets := items }] }
              (m.finish d n 0) (.accept n)
          else
            let s := (e.s.setHits e.w m.hits).bump (e.s.ctxIx e.w) evTicketWait items (some e.w)
            let s := { s with accs := s.accs ++ [m.access e d.head places slots] }
            let s := ((s.modWarp e.w (fun x => { x with regs := lr.regs })).bump (s.ctxIx e.w) evLaneMove lr.lanemove (some e.w)).bump
              (s.ctxIx e.w) evAutoFire lr.autofire (some e.w)
            .done s (m.finish d n lr.extra)

end Sys2Proof.Machine
end

