-- ==== Sys2Proof/Machine/MemInstr.lean ====
section
/-! DEFINITION. The memory, atomic, level counter, fence, drain and lease instructions (R181 to R215). -/
namespace Sys2Proof.Machine

/-- What issue judges of an instruction of class MEM: its address and data operands and its destination registers. -/
def memNeed (h : Head) (f : AddrForm) (data : List (Ty × Opnd)) (groups : List (List Reg)) (draws : Bool := false) : Need :=
  { head := h, cls := some 2, reads := f.regs ++ readRegs data, ls := readLs data, writes := groups.flatten, draws := draws
    memory := true }

/-- The active threads whose address is VOID. -/
def Env.voidAddr (e : Env) (f : AddrForm) : Mask := maskOf (fun t => inMask e.act t && (e.addr f t).isNone)

/-- The active threads whose element of a source is VOID. -/
def Env.voidData (e : Env) (xs : List Src) : Mask := maskOf (fun t => inMask e.act t && srcVoid xs t)

/-- The address of a thread that has one. -/
def Env.at_ (e : Env) (f : AddrForm) (t : Nat) : DWord := (e.addr f t).getD 0

/-- An address form with an 18-bit offset. -/
def off18 (base : Opnd) (off : BitVec 18) : AddrForm := .off base (off.signExtend 64)

/-- An indexed address form. -/
def idxForm (base idx : Opnd) (sh : Fin 4) (disp : BitVec 7) : AddrForm := .idx base idx sh.val (disp.signExtend 64)

/-- An address is not a multiple of an alignment (R183). -/
def unaligned (a : DWord) (n : Nat) : Bool := a.toNat % n != 0

/-! ### Loads (R189 to R191) -/

/-- A load of one element per active thread, or once into an S register (R189). -/
def loadInstr (h : Head) (ty : Ty) (sc : Scope) (hint : Hint) (d : Opnd) (f : AddrForm) (s : State) : Host.Outcome State Fault Refusal :=
  let groups := [opndRegs ty.wide d]
  let n := memNeed h f [] groups
  issue n (fun e => e.access n
    { op := .load, ty := ty, scope := sc, hint := hint, groups := groups, once := d.isS, whole := d.isS
      voidA := e.voidAddr f, addrRegs := f.regs
      asks := (if d.isS then [lowestOf e.act] else e.acts).map (fun t =>
        let a := e.at_ f t
        { thread := t, addr := a, va := a, size := ty.bytes, want := .read, misaligned := unaligned a ty.bytes }) }) s

/-- LD (R189). -/
def execLd (h : Head) (ty : Ty) (sc : Scope) (hint : Hint) (d base : Opnd) (off : BitVec 18) (s : State) :
    Host.Outcome State Fault Refusal := loadInstr h ty sc hint d (off18 base off) s

/-- LD in the indexed form (R189). -/
def execLdIdx (h : Head) (ty : Ty) (sc : Scope) (hint : Hint) (d base idx : Opnd) (sh : Fin 4) (disp : BitVec 7) (s : State) :
    Host.Outcome State Fault Refusal := loadInstr h ty sc hint d (idxForm base idx sh disp) s

/-- n registers from one on. -/
def regRun : Reg → Nat → List Reg
  | _, 0 => []
  | g, n + 1 => g :: regRun g.succ n

/-- The registers of an LDX or STX, pairs together for an 8-byte type (R190). -/
def spanGroups (ty : Ty) (x : Opnd) (n : Nat) : List (List Reg) :=
  let g := (opndReg? x).getD (.v 0)
  let rs := regRun g n
  if ty.wide then (List.range (n / 2)).map (fun i => (rs.drop (2 * i)).take 2) else rs.map (fun r => [r])

/-- The alignment of the span of n registers (R190). -/
def spanAlign (ty : Ty) (n : Nat) : Nat :=
  let p := if 4 * n % 16 = 0 then 16 else if 4 * n % 8 = 0 then 8 else 4
  max p ty.bytes

/-- LDX (R190). -/
def execLdx (h : Head) (ty : Ty) (nreg : Fin 8) (sc : Scope) (hint : Hint) (d base : Opnd) (off : BitVec 15) (s : State) :
    Host.Outcome State Fault Refusal :=
  let f : AddrForm := .off base (off.signExtend 64)
  let k := nreg.val + 2
  let groups := spanGroups ty d k
  let n := memNeed h f [] groups
  issue n (fun e => e.access n
    { op := .load, ty := ty, scope := sc, hint := hint, groups := groups, voidA := e.voidAddr f, addrRegs := f.regs
      asks := e.acts.flatMap (fun t =>
        let a := e.at_ f t
        (List.range groups.length).map (fun i =>
          { thread := t, addr := a, va := a + BitVec.ofNat 64 (i * ty.bytes), size := ty.bytes, want := .read
            misaligned := unaligned a (spanAlign ty k), dst := i * (ty.bytes / 4) })) }) s

/-- LDREC (R191): one access of the record's bytes; thread j receives word j of its image. -/
def execLdrec (h : Head) (fmt : Bfmt) (sc : Scope) (hint : Hint) (d base : Opnd) (off : BitVec 18) (s : State) :
    Host.Outcome State Fault Refusal :=
  let f := off18 base off
  let groups := [opndRegs false d]
  let n := memNeed h f [] groups
  issue n (fun e =>
    let a := e.at_ f (lowestOf e.act)
    e.access n
      { op := .loadRec fmt, ty := .n32, scope := sc, hint := hint, groups := groups, once := true, whole := true
        voidA := e.voidAddr f, addrRegs := f.regs
        asks := (List.range (bfpBytes fmt)).map (fun i =>
          { thread := lowestOf e.act, addr := a, va := a + BitVec.ofNat 64 i, size := 1, want := .read }) }) s

/-! ### Stores (R192 to R195) -/

/-- What a store writes for one element, from source register `src`: its request after the bounds check (R194). -/
def storeAsk (es : List BoundsEntry) (ty : Ty) (t : Nat) (addr va : DWord) (mis : Bool) (v : DWord) (src : Nat := 0) : Ask × List Nat :=
  let bs := checkElem es va ty (v.toNat % 2 ^ ty.width)
  ({ thread := t, addr := addr, va := va, size := ty.bytes, want := .write, misaligned := mis, bounds := boundTrap bs, src := some (src, 0)
     data := BitVec.ofNat 64 (boundValue bs) },
   bs.filterMap Bound.entry)

/-- A store of one element per active thread (R192). -/
def storeInstr (h : Head) (ty : Ty) (sc : Scope) (hint : Hint) (data : Opnd) (f : AddrForm) (s : State) :
    Host.Outcome State Fault Refusal :=
  let n := memNeed h f [(ty, data)] []
  issue n (fun e =>
    let x := e.src ty data
    let es := e.s.boundsEntries e.w
    let qs := e.acts.map (fun t =>
      let a := e.at_ f t
      storeAsk es ty t a a (unaligned a ty.bytes) ((x.at t).getD 0))
    e.access n
      { op := .store, ty := ty, scope := sc, hint := hint, voidA := e.voidAddr f, voidD := e.voidData [x], addrRegs := f.regs
        dataRegs := opndRegs ty.wide data, asks := qs.map Prod.fst, hits := qs.flatMap Prod.snd }) s

/-- ST (R192). -/
def execSt (h : Head) (ty : Ty) (sc : Scope) (hint : Hint) (data base : Opnd) (off : BitVec 18) (s : State) :
    Host.Outcome State Fault Refusal := storeInstr h ty sc hint data (off18 base off) s

/-- ST in the indexed form (R192). -/
def execStIdx (h : Head) (ty : Ty) (sc : Scope) (hint : Hint) (data base idx : Opnd) (sh : Fin 4) (disp : BitVec 7) (s : State) :
    Host.Outcome State Fault Refusal := storeInstr h ty sc hint data (idxForm base idx sh disp) s

/-- STX (R192): the span of R190. -/
def execStx (h : Head) (ty : Ty) (nreg : Fin 8) (sc : Scope) (hint : Hint) (data base : Opnd) (off : BitVec 15) (s : State) :
    Host.Outcome State Fault Refusal :=
  let f : AddrForm := .off base (off.signExtend 64)
  let k := nreg.val + 2
  let groups := spanGroups ty data k
  let n : Need := { memNeed h f [] [] with reads := f.regs ++ groups.flatten }
  issue n (fun e =>
    let xs := groups.map (fun g => srcReg e.regs (g.headD (.v 0)) ty.wide)
    let es := e.s.boundsEntries e.w
    let qs := e.acts.flatMap (fun t =>
      let a := e.at_ f t
      xs.zipIdx.map (fun (x, i) =>
        storeAsk es ty t a (a + BitVec.ofNat 64 (i * ty.bytes)) (unaligned a (spanAlign ty k)) ((x.at t).getD 0)
          (i * (ty.bytes / 4))))
    e.access n
      { op := .store, ty := ty, scope := sc, hint := hint, voidA := e.voidAddr f, voidD := e.voidData xs, addrRegs := f.regs
        dataRegs := groups.flatten, asks := qs.map Prod.fst, hits := qs.flatMap Prod.snd }) s

/-- The bytes of one element of a tile, plain and transposed (R195): both hold the value that the checks at both addresses leave. -/
def tileAsks (es : List BoundsEntry) (ty : Ty) (p : DWord) (mis : Bool) (t i : Nat) (v : DWord) : List Ask × List Nat :=
  let n := ty.bytes
  let a := p + BitVec.ofNat 64 ((32 * i + t) * n)
  let b := p + BitVec.ofNat 64 (1024 * n + (32 * t + i) * n)
  let (qa, ha) := storeAsk es ty t (if mis then p else a) a mis v i
  let (qb, hb) := storeAsk es ty t (if mis then p else b) b mis qa.data i
  ((List.range n).flatMap (fun j => [qa, qb].map (fun q =>
      { q with va := q.va + BitVec.ofNat 64 j, size := 1, src := some (i, j), data := (qb.data.extractLsb' (8 * j) 8).setWidth 64 })), ha ++ hb)

/-- STSTASH (R195). -/
def execStstash (h : Head) (ty : Ty) (sc : Scope) (hint : Hint) (data base : Opnd) (off : BitVec 18) (s : State) :
    Host.Outcome State Fault Refusal :=
  let f := off18 base off
  let rs := regRun ((opndReg? data).getD (.v 0)) 32
  let n : Need := { memNeed h f [] [] with reads := f.regs ++ rs }
  issue n (fun e =>
    let p := e.at_ f 0
    let xs := rs.map (fun g => srcReg e.regs g false)
    let es := e.s.boundsEntries e.w
    let qs := e.acts.flatMap (fun t => xs.zipIdx.map (fun (x, i) =>
      tileAsks es ty p (unaligned p 128) t i ((x.at t).getD 0)))
    e.access n
      { op := .store, ty := ty, scope := sc, hint := hint, voidA := e.voidAddr f, voidD := e.voidData xs, addrRegs := f.regs
        dataRegs := rs, asks := qs.flatMap Prod.fst, hits := qs.flatMap Prod.snd }) s

/-! ### Prefetch and cache maintenance (R197 to R199) -/

/-- The distinct lines of the global region that the active threads name (R197). -/
def Env.lines (e : Env) (f : AddrForm) : List (Nat × DWord) :=
  e.acts.foldl (fun ls t =>
    let a := e.at_ f t
    if canonical a && regionOf a.toNat == .global && !ls.any (fun x => x.2.toNat / 128 == a.toNat / 128) then
      ls ++ [(t, a &&& ~~~0x7F#64)]
    else ls) []

/-- An instruction on lines: it leaves a request for each, and waits for them where a write-back may trap (R199). -/
def lineInstr (h : Head) (op : AccOp) (sc : Scope) (hint : Hint) (waits : Bool) (f : AddrForm) (s : State) :
    Host.Outcome State Fault Refusal :=
  let n := memNeed h f [] []
  issue n (fun e =>
    let lost := (h.pred.val != 7 && e.x.poisoned.contains (.p h.pred.val)) || f.regs.any e.x.poisoned.contains
    if e.x.ahead && lost then .done e.s { head := h }
    else if e.voidAddr f != 0 then
      if e.x.ahead then .stay (e.s.modWarp e.w (fun x => { x with hold := .stop }))
      else .trap { code := codeVoidop, mask := e.voidAddr f }
    else if e.x.ahead && op != .prefetch then .done e.s { head := h }
    else
      let ls := e.lines f
      if ls.isEmpty || (waits && !scopeWide sc) then .done e.s { head := h }
      else
        let a := e.s.asid (e.s.ctxIx e.w)
        let acc : Access :=
          { warp := e.w, op := op, ty := .n8, scope := sc, hint := hint
            reqs := ls.map (fun (t, va) => { thread := t, va := va, loc := { place := .glob a, addr := va.toNat }, size := 1, data := 0 })
            mask := e.act, sb := sbOf h, block := e.x.block, issuedAt := e.s.clk }
        let s' := { e.s with accs := e.s.accs ++ [acc] }
        if waits then .held s' { head := h, counted := true } (.accept e.s.accs.length) else .done s' { head := h, counted := true }) s

/-- PREFETCH (R198). -/
def execPrefetch (h : Head) (sc : Scope) (hint : Hint) (base : Opnd) (off : BitVec 18) (s : State) : Host.Outcome State Fault Refusal :=
  lineInstr h .prefetch sc hint false (off18 base off) s

/-- PREFETCH in the indexed form (R198). -/
def execPrefetchIdx (h : Head) (sc : Scope) (hint : Hint) (base idx : Opnd) (sh : Fin 4) (disp : BitVec 7) (s : State) :
    Host.Outcome State Fault Refusal := lineInstr h .prefetch sc hint false (idxForm base idx sh disp) s

/-- The default scope of cache maintenance is DEVICE (R199). -/
def maintScope (sc : Scope) : Scope := if sc == .dflt then .device else sc

/-- CFLUSH (R199). -/
def execCflush (h : Head) (sc : Scope) (hint : Hint) (base : Opnd) (off : BitVec 18) (s : State) : Host.Outcome State Fault Refusal :=
  lineInstr h .cflush (maintScope sc) hint true (off18 base off) s

/-- CINV (R199). -/
def execCinv (h : Head) (sc : Scope) (hint : Hint) (base : Opnd) (off : BitVec 18) (s : State) : Host.Outcome State Fault Refusal :=
  lineInstr h .cinv (maintScope sc) hint true (off18 base off) s

/-- CDEMOTE (R199). -/
def execCdemote (h : Head) (sc : Scope) (base : Opnd) (off : BitVec 18) (s : State) : Host.Outcome State Fault Refusal :=
  lineInstr h .cdemote (maintScope sc) .normal false (off18 base off) s

/-! ### Atomics (R200 to R203) -/

/-- Where an atomic executes: DEVICE by default (R187). -/
def atomScope (sc : Scope) : Scope := if sc == .dflt then .device else sc

/-- An atomic of one request per active thread, with or without a destination (R201). -/
def atomInstr (h : Head) (op : AccOp) (ty : Ty) (sc : Scope) (hint : Hint) (d : Option Opnd) (f : AddrForm) (b : Opnd) (c : Option Opnd)
    (s : State) : Host.Outcome State Fault Refusal :=
  let groups := match d with
    | some d => [opndRegs ty.wide d]
    | none => []
  let data := (ty, b) :: (match c with | some c => [(ty, c)] | none => [])
  let n := memNeed h f data groups
  issue n (fun e =>
    let x := e.src ty b
    let y := match c with
      | some c => e.src ty c
      | none => .bcast 0
    e.access n
      { op := op, ty := ty, scope := atomScope sc, hint := hint, groups := groups, voidA := e.voidAddr f, voidD := e.voidData [x, y]
        addrRegs := f.regs, dataRegs := readRegs data
        asks := e.acts.map (fun t =>
          let a := e.at_ f t
          { thread := t, addr := a, va := a, size := ty.bytes, want := .rmw, misaligned := unaligned a ty.bytes
            data := (x.at t).getD 0, cmp := (y.at t).getD 0, src := some (0, 0) }) }) s

/-- ATOM.ADD (R200, R201). -/
def execAtomAdd (h : Head) (ty : Ty) (sc : Scope) (hint : Hint) (d a b : Opnd) (cb : Option (Fin 64)) (s : State) :
    Host.Outcome State Fault Refusal := atomInstr h .add ty sc hint (some d) (.reg a cb) b none s
/-- ATOM.MIN (R200, R201). -/
def execAtomMin (h : Head) (ty : Ty) (sc : Scope) (hint : Hint) (d a b : Opnd) (cb : Option (Fin 64)) (s : State) :
    Host.Outcome State Fault Refusal := atomInstr h .min ty sc hint (some d) (.reg a cb) b none s
/-- ATOM.MAX (R200, R201). -/
def execAtomMax (h : Head) (ty : Ty) (sc : Scope) (hint : Hint) (d a b : Opnd) (cb : Option (Fin 64)) (s : State) :
    Host.Outcome State Fault Refusal := atomInstr h .max ty sc hint (some d) (.reg a cb) b none s
/-- ATOM.AND (R200, R201). -/
def execAtomAnd (h : Head) (ty : Ty) (sc : Scope) (hint : Hint) (d a b : Opnd) (cb : Option (Fin 64)) (s : State) :
    Host.Outcome State Fault Refusal := atomInstr h .and ty sc hint (some d) (.reg a cb) b none s
/-- ATOM.OR (R200, R201). -/
def execAtomOr (h : Head) (ty : Ty) (sc : Scope) (hint : Hint) (d a b : Opnd) (cb : Option (Fin 64)) (s : State) :
    Host.Outcome State Fault Refusal := atomInstr h .or ty sc hint (some d) (.reg a cb) b none s
/-- ATOM.XOR (R200, R201). -/
def execAtomXor (h : Head) (ty : Ty) (sc : Scope) (hint : Hint) (d a b : Opnd) (cb : Option (Fin 64)) (s : State) :
    Host.Outcome State Fault Refusal := atomInstr h .xor ty sc hint (some d) (.reg a cb) b none s
/-- ATOM.EXCH (R200, R201). -/
def execAtomExch (h : Head) (ty : Ty) (sc : Scope) (hint : Hint) (d a b : Opnd) (cb : Option (Fin 64)) (s : State) :
    Host.Outcome State Fault Refusal := atomInstr h .exch ty sc hint (some d) (.reg a cb) b none s
/-- ATOMCAS (R200, R201): a V address is always formed by ext32. -/
def execAtomcas (h : Head) (ty : Ty) (sc : Scope) (hint : Hint) (d a b c : Opnd) (s : State) : Host.Outcome State Fault Refusal :=
  atomInstr h .cas ty sc hint (some d) (.reg a none) b (some c) s
/-- RED.ADD (R200, R201). -/
def execRedAdd (h : Head) (ty : Ty) (sc : Scope) (hint : Hint) (a b : Opnd) (cb : Option (Fin 64)) (s : State) :
    Host.Outcome State Fault Refusal := atomInstr h .add ty sc hint none (.reg a cb) b none s
/-- RED.MIN (R200, R201). -/
def execRedMin (h : Head) (ty : Ty) (sc : Scope) (hint : Hint) (a b : Opnd) (cb : Option (Fin 64)) (s : State) :
    Host.Outcome State Fault Refusal := atomInstr h .min ty sc hint none (.reg a cb) b none s
/-- RED.MAX (R200, R201). -/
def execRedMax (h : Head) (ty : Ty) (sc : Scope) (hint : Hint) (a b : Opnd) (cb : Option (Fin 64)) (s : State) :
    Host.Outcome State Fault Refusal := atomInstr h .max ty sc hint none (.reg a cb) b none s
/-- RED.AND (R200, R201). -/
def execRedAnd (h : Head) (ty : Ty) (sc : Scope) (hint : Hint) (a b : Opnd) (cb : Option (Fin 64)) (s : State) :
    Host.Outcome State Fault Refusal := atomInstr h .and ty sc hint none (.reg a cb) b none s
/-- RED.OR (R200, R201). -/
def execRedOr (h : Head) (ty : Ty) (sc : Scope) (hint : Hint) (a b : Opnd) (cb : Option (Fin 64)) (s : State) :
    Host.Outcome State Fault Refusal := atomInstr h .or ty sc hint none (.reg a cb) b none s
/-- RED.XOR (R200, R201). -/
def execRedXor (h : Head) (ty : Ty) (sc : Scope) (hint : Hint) (a b : Opnd) (cb : Option (Fin 64)) (s : State) :
    Host.Outcome State Fault Refusal := atomInstr h .xor ty sc hint none (.reg a cb) b none s

/-- A sum of two elements of a type: integers wrap, floating point rounds with RN (R129, R200). -/
def addElem (ty : Ty) (a b : DWord) : DWord :=
  if ty.isInt then iput ty (ival ty a + ival ty b)
  else if ty.paired then
    let one : Ty := if ty == .f16x2 then .f16 else .bf16
    BitVec.ofNat 64 (fadd one {} (a.toNat % 2 ^ 16) (b.toNat % 2 ^ 16) +
      2 ^ 16 * fadd one {} (a.toNat / 2 ^ 16 % 2 ^ 16) (b.toNat / 2 ^ 16 % 2 ^ 16))
  else BitVec.ofNat 64 (fadd ty {} (a.toNat % 2 ^ ty.width) (b.toNat % 2 ^ ty.width))

/-- The groups of equal addresses, in the order of their lowest threads, with the sum of each (R203, R129). -/
def sumGroups (ty : Ty) (xs : List (Nat × DWord × DWord)) : List (Nat × Mask × DWord × DWord) :=
  xs.foldl (fun gs (t, a, v) =>
    if gs.any (fun g => g.2.2.1 == a) then
      gs.map (fun g => if g.2.2.1 == a then (g.1, g.2.1 ||| 1#32 <<< t, a, addElem ty g.2.2.2 v) else g)
    else gs ++ [(t, 1#32 <<< t, a, v)]) []

/-- SCADD (R203, R129). -/
def execScadd (h : Head) (ty : Ty) (sc : Scope) (a b : Opnd) (cb : Option (Fin 64)) (s : State) : Host.Outcome State Fault Refusal :=
  let f : AddrForm := .reg a cb
  let n := memNeed h f [(ty, b)] []
  issue n (fun e =>
    let x := e.src ty b
    let gs := sumGroups ty (e.acts.map (fun t => (t, e.at_ f t, (x.at t).getD 0)))
    e.access n
      { op := .add, ty := ty, scope := sc, voidA := e.voidAddr f, voidD := e.voidData [x], addrRegs := f.regs
        dataRegs := readRegs [(ty, b)]
        asks := gs.map (fun (t, m, va, v) =>
          { thread := t, also := m, addr := va, va := va, size := ty.bytes, want := .scadd, misaligned := unaligned va ty.bytes
            data := v }) }) s

/-! ### Level counters (R205 to R210) -/

/-- An add or a merge: one request per active thread, with the thread's draw (R206, R207). -/
def lcAddInstr (h : Head) (op : AccOp) (ty : Ty) (sc : Scope) (level : Bool) (f : AddrForm) (b : Opnd) (s : State) :
    Host.Outcome State Fault Refusal :=
  let n := memNeed h f [(ty, b)] [] true
  issue n (fun e =>
    let x := e.src ty b
    e.access n
      { op := op, ty := .n8, scope := atomScope sc, voidA := e.voidAddr f, voidD := e.voidData [x], addrRegs := f.regs
        dataRegs := readRegs [(ty, b)]
        asks := e.acts.map (fun t =>
          let a := e.at_ f t
          let v := (x.at t).getD 0
          { thread := t, addr := a, va := a, size := 1, want := .lc (if level then some (v.toNat % 256) else none), data := v
            cmp := e.draw t, src := some (0, 0) }) }) s

/-- LCADD (R206). -/
def execLcadd (h : Head) (sc : Scope) (a b : Opnd) (cb : Option (Fin 64)) (s : State) : Host.Outcome State Fault Refusal :=
  lcAddInstr h .lcadd .f32 sc false (.reg a cb) b s

/-- LCMRG (R207). -/
def execLcmrg (h : Head) (sc : Scope) (a b : Opnd) (cb : Option (Fin 64)) (s : State) : Host.Outcome State Fault Refusal :=
  lcAddInstr h .lcmrg .n32 sc true (.reg a cb) b s

/-- A read of counters (R208). -/
def lcReadInstr (h : Head) (op : AccOp) (d : Opnd) (f : AddrForm) (s : State) : Host.Outcome State Fault Refusal :=
  let groups := [opndRegs false d]
  let n := memNeed h f [] groups
  issue n (fun e => e.access n
    { op := op, ty := .n32, scope := .device, groups := groups, voidA := e.voidAddr f, addrRegs := f.regs
      asks := e.acts.map (fun t =>
        let a := e.at_ f t
        { thread := t, addr := a, va := a, size := 1, want := .lc none }) }) s

/-- LCRD (R208). -/
def execLcrd (h : Head) (d base : Opnd) (off : BitVec 18) (s : State) : Host.Outcome State Fault Refusal :=
  lcReadInstr h .lcrd d (off18 base off) s

/-- LCRD.RAW (R208). -/
def execLcrdRaw (h : Head) (d base : Opnd) (off : BitVec 18) (s : State) : Host.Outcome State Fault Refusal :=
  lcReadInstr h .lcrdRaw d (off18 base off) s

/-- LCINIT (R209). -/
def execLcinit (h : Head) (data base : Opnd) (off : BitVec 18) (s : State) : Host.Outcome State Fault Refusal :=
  let f := off18 base off
  let n := memNeed h f [(.n8, data)] []
  issue n (fun e =>
    let x := e.src .n8 data
    e.access n
      { op := .lcinit, ty := .n8, scope := .device, voidA := e.voidAddr f, voidD := e.voidData [x], addrRegs := f.regs
        dataRegs := opndRegs false data
        asks := e.acts.map (fun t =>
          let a := e.at_ f t
          let v := (x.at t).getD 0
          { thread := t, addr := a, va := a, size := 1, want := .lc (some (v.toNat % 256)), data := v, src := some (0, 0) }) }) s

/-! ### Fences, drains and leases (R211 to R215) -/

/-- FENCE (R211): the warp goes no further until it completes. -/
def execFence (h : Head) (sc : Scope) (mode : FenceMode) (s : State) : Host.Outcome State Fault Refusal :=
  issue { head := h, cls := some 5 } (fun e => .held e.s { head := h } (.fence sc mode)) s

/-- FENCEOP (R212): the MMAs of the core that are issued after it wait for it. -/
def execFenceop (h : Head) (s : State) : Host.Outcome State Fault Refusal :=
  issue { head := h, cls := some 5 } (fun e =>
    let acc : Access :=
      { warp := e.w, op := .fenceop, ty := .n8, scope := .cluster, hint := .normal, reqs := [], mask := e.act, sb := none
        block := e.x.block, issuedAt := e.s.clk }
    .done { e.s with accs := e.s.accs ++ [acc] } { head := h }) s

/-- DRAIN (R213): it waits from the end of its clause. -/
def execDrain (h : Head) (mem : DrainMem) (s : State) : Host.Outcome State Fault Refusal :=
  issue { head := h, cls := some 5 } (fun e =>
    .done (e.s.modWarp e.w (fun x => { x with pendDrain := x.pendDrain ++ [mem] })) { head := h }) s

/-- LEASE (R215): GRAN and MODE change at the next clause boundary. -/
def leaseInstr (h : Head) (v : BitVec 9) (s : State) : Host.Outcome State Fault Refusal :=
  issue { head := h, cls := some 6 } (fun e =>
    .done (e.s.modWarp e.w (fun x => { x with nextLease := some v })) { head := h }) s

/-- LEASE.DECL (R215). -/
def execLeaseDecl (h : Head) (gran : Fin 256) (s : State) : Host.Outcome State Fault Refusal := leaseInstr h (BitVec.ofNat 9 gran.val) s

/-- LEASE.MEAS (R215). -/
def execLeaseMeas (h : Head) (gran : Fin 256) (s : State) : Host.Outcome State Fault Refusal :=
  leaseInstr h (BitVec.ofNat 9 (256 + gran.val)) s

end Sys2Proof.Machine
end

