-- ==== Sys2Proof/Machine/CounterInstr.lean ====
section
/-! DEFINITION. The counter instructions (R227 to R238) and LAUNCH (R226). -/
namespace Sys2Proof.Machine

/-- The semantics of an operation: its default where SEM is 0 (R227). -/
def semOf (d sem : Sem) : Sem := if sem == .dflt then d else sem

/-- SEM releases (R229). -/
def semRel (m : Sem) : Bool := m == .rel || m == .ar

/-- SEM acquires (R229). -/
def semAcq (m : Sem) : Bool := m == .acq || m == .ar

/-- The scope of the synchronisation of a counter operation (R229): code 0 selects it from the word's memory, and WARP acts as CORE. -/
def ctrScope (sc : Scope) (va : DWord) : Scope :=
  match sc with
  | .dflt =>
    match regionOf va.toNat with
    | .own _ => .core
    | .cluster _ _ => .cluster
    | .peer => .system
    | .global | .reserved => .device
  | .warp => .core
  | .core => .core
  | .cluster => .cluster
  | .die => .die
  | .device => .device
  | .system => .system

/-- A line of the context that the cluster holds dirty and whose write-back would be refused (R214, R303). -/
def State.refusedLine (s : State) (cl asid : Nat) : Option Nat :=
  let dirty := ((s.ccLines cl) ++ (s.cores.filter (fun c => c.cluster == cl)).flatMap Core.l1).filter
    (fun l => l.asid == asid && l.dirty)
  (dirty.find? (fun l =>
    !l.w || ((findLine (s.ccLines cl) asid l.vline).map (fun c => !c.w)).getD false ||
      ((findLine s.llc asid l.vline).map (fun h => !h.w)).getD false)).map Line.vline

/-- A release at DIE scope or wider of an instruction that is then performed apart from the warp (R383, R214): the trap where a
write-back it forces is refused when it issues. -/
def Env.releaseTrap (e : Env) (rel : Bool) (sc : Scope) : Option TrapInfo :=
  if rel && scopeWide sc then
    (e.s.refusedLine (e.s.clusterOf e.w) (e.s.asid (e.s.ctxIx e.w))).map (fun ln =>
      { code := codeWback, mask := e.act, addr := BitVec.ofNat 64 (128 * ln) })
  else none

/-- The traps of R184, then those of the release. -/
def Env.releasing (e : Env) (rel : Bool) (sc : Scope) (r : Res) : Res :=
  match r, e.releaseTrap rel sc with
  | .trap t, _ => .trap t
  | _, some t => .trap t
  | r, none => r

/-- What issue judges of a counter instruction, of class SYN. -/
def ctrNeed (h : Head) (f : AddrForm) (data : List (Ty × Opnd)) (groups : List (List Reg)) : Need :=
  { memNeed h f data groups with cls := some 5, memory := false }

/-- The threads that make a request: the warp once with an S address, else each acting thread (R228). -/
def Env.makers (e : Env) (a : Opnd) : List Nat := if a.isS then [lowestOf e.act] else e.acts

/-- A counter instruction whose operation is performed at the word's home (R228): its increment or initial value is an operand or an
immediate. -/
def ctrInstr (h : Head) (opc : Nat) (op : AccOp) (sc : Scope) (sem : Sem) (d : Option Opnd) (a : Opnd) (cb : Option (Fin 64)) (b : Option Opnd)
    (imm : DWord) (s : State) : Host.Outcome State Fault Refusal :=
  let f : AddrForm := .reg a cb
  let groups := match d with
    | some d => [opndRegs true d]
    | none => []
  let data := match b with
    | some b => [(Ty.n64, b)]
    | none => []
  let n := ctrNeed h f data groups
  issue n (fun e =>
    let x := match b with
      | some b => e.src .n64 b
      | none => .bcast imm
    let asks := (e.makers a).map (fun t =>
      let va := e.at_ f t
      ({ thread := t, addr := va, va := va, size := 8, want := .ctr op, misaligned := unaligned va 8
         data := (x.at t).getD 0, src := some (0, 0) } : Ask))
    let wide := asks.any (fun q => scopeWide (ctrScope sc q.va))
    e.releasing (semRel sem) (if wide then .device else .core) (e.access n
      { op := op, opc := opc, ty := .n64, scope := sc, sem := sem, groups := groups, once := a.isS, whole := a.isS
        voidA := e.voidAddr f, voidD := e.voidData [x], addrRegs := f.regs, dataRegs := readRegs data, asks := asks })) s

/-- CTRINIT (R230). -/
def execCtrinit (h : Head) (sc : Scope) (sem : Sem) (ext : Bool) (a b : Opnd) (cb : Option (Fin 64)) (s : State) :
    Host.Outcome State Fault Refusal := ctrInstr h 0xA0 (.ctrInit ext) sc (semOf .rel sem) none a cb (some b) 0 s

/-- CTRADD (R231). -/
def execCtradd (h : Head) (sc : Scope) (sem : Sem) (d : Option Opnd) (a b : Opnd) (cb : Option (Fin 64)) (s : State) :
    Host.Outcome State Fault Refusal := ctrInstr h 0xA1 .ctrAdd sc (semOf .rel sem) d a cb (some b) 0 s

/-- CTRADD with an immediate (R231, R227). -/
def execCtraddImm (h : Head) (sc : Scope) (sem : Sem) (d : Option Opnd) (a : Opnd) (imm : BitVec 18) (s : State) :
    Host.Outcome State Fault Refusal := ctrInstr h 0xA2 .ctrAdd sc (semOf .rel sem) d a none none (imm.setWidth 64) s

/-- CTRRD (R234). -/
def execCtrrd (h : Head) (sc : Scope) (sem : Sem) (d a : Opnd) (cb : Option (Fin 64)) (s : State) :
    Host.Outcome State Fault Refusal := ctrInstr h 0xA6 .ctrRead sc (semOf .acq sem) (some d) a cb none 0 s

/-- CTRKILL (R235). -/
def execCtrkill (h : Head) (sc : Scope) (sem : Sem) (a : Opnd) (cb : Option (Fin 64)) (s : State) :
    Host.Outcome State Fault Refusal := ctrInstr h 0xA7 .ctrKill sc (semOf .rel sem) none a cb none 0 s

/-- CTRKILL that frees the word (R235). -/
def execCtrkillFree (h : Head) (sc : Scope) (sem : Sem) (a : Opnd) (cb : Option (Fin 64)) (s : State) :
    Host.Outcome State Fault Refusal := ctrInstr h 0xA7 .ctrFree sc (semOf .rel sem) none a cb none 0 s

/-! ### Waits (R232, R233) -/

/-- No store that a warp made or observed waits for its grant (R301, R381). -/
def State.allGranted (s : State) (w : Nat) : Bool :=
  ((s.warp? w).map (fun x => x.observed.all (fun o => !s.pendingAt (s.clusterOf w) o.1 o.2.1 o.2.2))).getD true

/-- Every access of a warp before position n has been performed, and at CLUSTER scope or wider every store it made or observed has been
granted (R211, R381, R392). -/
def State.performedAt (s : State) (w n : Nat) (sc : Scope) : Bool :=
  (s.accs.take n).all (fun a => a.warp != w || !a.op.isAccess || a.reqs.all (fun r => r.done || s.parked a r)) &&
  (sc == .core || sc == .warp || s.allGranted w)

/-- An operation of the warp on the word has yet to be performed. -/
def State.openOn (s : State) (w : Nat) (l : Loc) : Bool :=
  s.accs.any (fun a => a.warp == w && a.reqs.any (fun r => !r.done && r.loc == l))

/-- The end of a wait: its predicate's bits of the acting threads, and the acquire (R232, R229). -/
def Regs.endWait (r : Regs) (c : CtrWait) (flag : Bool) : Regs := writePred r c.pd.val c.mask (fun _ => flag)

/-- CTRWAIT (R232): a condition that holds at issue ends the wait at once; else the warp waits from the end of the clause. A word of a
peer is asked for first (R204). -/
def waitInstr (h : Head) (sc : Scope) (sem : Sem) (pd : Fin 7) (a : Opnd) (b : Option Opnd) (imm : DWord) (s : State) :
    Host.Outcome State Fault Refusal :=
  let f : AddrForm := .reg a none
  let data := match b with
    | some b => [(Ty.n64, b)]
    | none => []
  let n : Need := { ctrNeed h f data [] with writes := [.p pd.val] }
  issue n (fun e =>
    let va := e.at_ f 0
    let target := match b with
      | some b => e.scalar .n64 b
      | none => imm
    let c : CtrWait :=
      { addr := va, target := target, pd := pd, mask := e.act, acq := semAcq sem, rel := semRel sem, scope := ctrScope sc va
        before := e.s.accs.length, opc := if b.isSome then 0xA3 else 0xA4 }
    let q : Ask := { thread := lowestOf e.act, addr := va, va := va, size := 8, want := .ctr .ctrAdd, misaligned := unaligned va 8 }
    e.releasing (semRel sem) c.scope (match e.s.accept e.w e.act true [q] with
    | .trap t => .trap t
    | .absent pages => .done (e.s.startAhead e.w e.x.regs pages) { head := h, writes := [.p pd.val], poison := true }
    | .go places =>
      match places with
      | [] => .stay e.s
      | (p, l) :: _ =>
        match l.place with
        | .peer _ =>
          let m : MemOp := { op := .ctrRead, ty := .n64, scope := sc, sem := sem, asks := [q], once := true, whole := true
                             addrRegs := f.regs, wait := some c, opc := c.opc }
          .held { e.s with accs := e.s.accs ++ [m.access e h [(p, l)] []] } { head := h, counted := true } (.accept e.s.accs.length)
        | .glob _ | .nc | .lcm _ | .scr _ _ =>
          let v := e.s.ctrWordAt l
          if ctrReached v target && !e.s.openOn e.w l && (!c.rel || e.s.performedAt e.w e.s.accs.length c.scope) then
            let s := if c.rel then (e.s.release e.w c.scope).1 else e.s
            let s := if c.acq then s.acquire e.w c.scope else s
            .done (s.modWarp e.w (fun x => { x with regs := e.regs.endWait c (ctrErr v || ctrRetired v) }))
              { head := h, writes := [.p pd.val] }
          else .done (e.s.modWarp e.w (fun x => { x with pendWait := x.pendWait ++ [c] })) { head := h })) s

/-- CTRWAIT (R232). -/
def execCtrwait (h : Head) (sc : Scope) (sem : Sem) (pd : Fin 7) (a b : Opnd) (s : State) : Host.Outcome State Fault Refusal :=
  waitInstr h sc (semOf .acq sem) pd a (some b) 0 s

/-- CTRWAIT with an immediate (R232, R227). -/
def execCtrwaitImm (h : Head) (sc : Scope) (sem : Sem) (pd : Fin 7) (a : Opnd) (imm : BitVec 18) (s : State) :
    Host.Outcome State Fault Refusal := waitInstr h sc (semOf .acq sem) pd a none (imm.setWidth 64) s

/-- CTRARV (R233): it adds 1, and then the warp waits for the end of its generation. The wait's target is n until the add has
returned the old value. -/
def execCtrarv (h : Head) (sc : Scope) (sem : Sem) (pd : Fin 7) (a b : Opnd) (s : State) : Host.Outcome State Fault Refusal :=
  let f : AddrForm := .reg a none
  let m := semOf .ar sem
  let n : Need := { ctrNeed h f [(.n64, b)] [] with writes := [.p pd.val] }
  issue n (fun e =>
    let va := e.at_ f 0
    let c : CtrWait :=
      { addr := va, target := e.scalar .n64 b, pd := pd, mask := e.act, rel := false, acq := semAcq m, scope := ctrScope sc va
        opc := 0xA5 }
    e.releasing (semRel m) c.scope (e.access n
      { op := .ctrArv, opc := 0xA5, ty := .n64, scope := sc, sem := m, once := true, whole := true, addrRegs := f.regs
        dataRegs := readRegs [(.n64, b)], wait := some c
        asks := [{ thread := lowestOf e.act, addr := va, va := va, size := 8, want := .ctr .ctrArv, misaligned := unaligned va 8
                   data := 1 }] })) s

/-! ### LAUNCH (R226) -/

/-- LAUNCH (R226): after a release at DEVICE scope the packet is read as one access and queued; D receives the outcome. -/
def execLaunch (h : Head) (d a : Fin 64) (q : Fin 16) (s : State) : Host.Outcome State Fault Refusal :=
  let f : AddrForm := .off (.s a) 0
  let groups := [[Reg.s d.val]]
  let n : Need := { memNeed h f [] groups with cls := some 6, memory := false }
  issue n (fun e =>
    let va := e.at_ f 0
    e.releasing true .device (e.access n
      { op := .launch q, ty := .n64, scope := .device, sem := .rel, groups := groups, once := true, whole := true, addrRegs := f.regs
        asks := (List.range 20).map (fun i =>
          { thread := lowestOf e.act, addr := va, va := va + BitVec.ofNat 64 (8 * i), size := 8, want := .read
            misaligned := unaligned va 16 }) })) s

end Sys2Proof.Machine
end

