-- ==== Sys2Proof/Machine/Lifecycle.lean ====
section
/-! DEFINITION. The end of work: waits, the release of scratch (R365), blocks and launches (R32, R220), the kill of a gang (R432), the
cone (R372), and the end of a context (R434). -/
namespace Sys2Proof.Machine

/-! ### Waits (R232, R237) -/

/-- The outcome of a wait's check: not ended; ended with its predicate; or dropped, since its word is no counter any more (R228). -/
inductive WaitEnd where
  | open_ | ended (flag : Bool) | dropped
deriving DecidableEq, Repr

/-- A waiting warp's check of one word (R232). -/
def State.waitCheck (s : State) (w : Nat) (c : CtrWait) : WaitEnd :=
  match s.resolve w c.addr with
  | .error _ => .dropped
  | .ok (_, l) =>
    match l.place with
    | .peer _ => .open_
    | .glob _ | .nc | .lcm _ | .scr _ _ =>
      match s.ctrTag l with
      | none => .dropped
      | some _ =>
        let v := s.ctrWordAt l
        if ctrReached v c.target then .ended (ctrErr v || ctrRetired v) else .open_

/-- A warp's wait is over: the holds that follow it begin, or it becomes READY (R335). -/
def State.resumeHold (s : State) (w : Nat) : State :=
  let s := (s.modWarp w (fun x => { x with hold := .none })).settleHold w
  match s.warp? w with
  | none => s
  | some x =>
    match x.hold with
    | .counter _ | .drain _ | .arrive _ => s
    | .none | .yield _ | .batch | .fetch _ | .fence _ _ | .issue _ | .accept _ | .stop => s.ready w

/-- A refused write-back of a release that its instruction can no longer report is raised before the warp's next clause, as that of R386 is
(log 64). -/
def State.releaseLate (s : State) (w : Nat) (sc : Scope) : State :=
  let (s, bad) := s.release w sc
  match bad with
  | none => s
  | some ln => s.modWarp w (fun x => { x with wback := x.wback.orElse (fun _ => some (BitVec.ofNat 64 (128 * ln))) })

/-- End one wait of a warp: its predicate is written, and the release and the acquire of its SEM made (R229, R232, R383). -/
def State.endWait (s : State) (w : Nat) (c : CtrWait) (flag : Bool) : State :=
  let s := s.modWarp w (fun x => { x with regs := x.regs.endWait c flag })
  let s := if c.rel then s.releaseLate w c.scope else s
  if c.acq then s.acquire w c.scope else s

/-- What a wait releases has been performed at its scope (R229): the accesses issued before it. -/
def State.waitFree (s : State) (w : Nat) (c : CtrWait) : Bool :=
  !c.rel || (s.performedAt w c.before c.scope && !(s.drainShelf && scopeWide c.scope))

/-- Judge the waits of a warp in turn (R232); those that end leave the list. One that releases stays until what it releases has been performed
(R229). -/
def judgeWaits (w : Nat) (f : State → CtrWait → WaitEnd) : List (CtrWait × Bool) → State → State × List (CtrWait × Bool)
  | [], s => (s, [])
  | c :: cs, s =>
    match if s.waitFree w c.1 then f s c.1 else .open_ with
    | .open_ =>
      let (s, r) := judgeWaits w f cs s
      (s, c :: r)
    | .ended flag => judgeWaits w f cs (s.endWait w c.1 flag)
    | .dropped => judgeWaits w f cs ((s.endWait w c.1 true).copyEntry w c.1.opc dropReason 0 0 c.1.addr [])

/-- Judge the waits a warp is held by; when none is left, the warp goes on. -/
def State.endWaits (s : State) (w : Nat) (f : State → CtrWait → WaitEnd) : State :=
  match (s.warp? w).map Warp.hold with
  | some (.counter ws) =>
    if s.savedWarp w then s else
    let (s, r) := judgeWaits w f ws s
    if r.isEmpty then s.resumeHold w else s.modWarp w (fun x => { x with hold := .counter r })
  | _ => s

/-! ### Scratch and accumulator stores (R250, R365) -/

/-- A place is scratch of a block. -/
def ofBlock (p : Place) (b : Nat) : Bool :=
  match p with
  | .scr c _ => c == b
  | .glob _ | .nc | .lcm _ | .peer _ => false

/-- Set RETIRED on a tagged word (R235). -/
def State.retire (s : State) (l : Loc) : State :=
  let v := s.ctrWordAt l
  s.placePut l 8 (ctrWord (ctrValue v) (ctrErr v) true)

/-- Release the scratch of a block (R365): its tagged words are retired, every warp that waits on one wakes, and the words' tags go. -/
def State.releaseScratch (s : State) (b : Nat) : State :=
  let ls := (s.tags.filter (fun t => ofBlock t.loc.place b)).map CtrTag.loc
  let s := ls.foldl State.retire s
  let s := (List.range s.warps.length).foldl (fun s w => s.endWaits w (fun s c =>
    match s.resolve w c.addr with
    | .ok (_, l) => if ls.contains l then s.waitCheck w c else .open_
    | .error _ => .open_)) s
  { s with tags := s.tags.filter (fun t => !ofBlock t.loc.place b) }

/-- A change of the pool split (R11, R295): the bytes that wait for a grant receive it, the L1's dirty lines are written to the cluster cache,
and the L1 is invalidated but for what is refused (R303); the victim tags of the core's warps are cleared (R337). -/
def State.splitPool (s : State) (cl core : Nat) : State :=
  let s := ((s.core cl core).l1.filter Line.pending).foldl (fun s l => s.grant cl core l.asid l.vline .normal) s
  let s := ((s.core cl core).l1.filter Line.dirty).foldl (fun s l => (s.l1ToCC cl core l.asid l.vline).1) s
  let s := s.modCore cl core (fun c => { c with l1 := c.l1.filter (fun l => l.dirty || l.pending) })
  (s.warpsOn cl core).foldl (fun s p => s.modWarp p.1 (fun x => { x with victims := [] })) s

/-- The cores of a block change their pool split where its scratch size is not 0. A saved block stands on no core (R406). -/
def State.splitPools (s : State) (b : Nat) : State :=
  if s.scratchOf b = 0 || ((s.blocks[b]?).bind (fun x => s.gangs[x.gang]?)).any Gang.saved then s
  else (((s.blocks[b]?).map Block.cores).getD []).foldl (fun s c => s.splitPool (s.clusterOfBlock b) c) s

/-- A progress register that no running MMA holds: BUSY and WAITPG are 0 (R261, R262). -/
def freeProg (p : DWord) : DWord := p &&& 0x3FFFFFFFFFFFFFFF#64

/-- The claims of a block end (R250): the stores' contents and the engines' queues are lost, and their progress registers are freed. -/
def State.releaseClaims (s : State) (b : Nat) : State :=
  { s with
    images := s.images.filter (fun i => i.block != b)
    cores := s.cores.map (fun c => if c.claim == some b then { c with claim := none, acc := [], undef := [], mmaq := [], prog := c.prog.map freeProg } else c) }

/-! ### Launches (R32) -/

/-- The blocks of a launch that is not ragged (R26). -/
def pktBlocks (p : List Byte) : Nat := bitsOf (word64 p 0x20) 0 32

/-- RAGGED (R27). -/
def pktRagged (p : List Byte) : Bool := (word64 p 0).getLsbD 55

/-- RSAFE (R27). -/
def pktRsafe (p : List Byte) : Bool := (word64 p 0).getLsbD 56

/-- DONECTR (R26). -/
def pktDone (p : List Byte) : DWord := word64 p 0x50

/-- The page of an address of a context is absent, and the control complex can resolve it (R305). -/
def State.pageDue (s : State) (ctx : Nat) (va : DWord) : Bool :=
  canonical va && s.resolvable ctx va.toNat &&
    (match regionOf va.toNat with
      | .global | .peer => s.translate ctx va.toNat == .absent
      | .own _ | .cluster _ _ | .reserved => false)

/-- The scheduler's or a control core's add to a counter of a context, with release at SYSTEM scope (R32, R325, R366). It waits for a page that
can be resolved (R305); one that is not made is logged (R236, R323). DEDUCED (log 97): the scheduler's add asks no write permission of the page, which R184
asks of the instructions of warps. -/
def State.schedAdd (s : State) (ctx lix : Nat) (va inc : DWord) : State :=
  let lost := fun (s : State) (r nack : Nat) => s.lostAdd ctx lix va r nack
  if s.pageDue ctx va then { s with dueAdds := s.dueAdds ++ [{ ctx := ctx, lix := lix, va := va, inc := inc }] }
  else
    match s.ctxLoc ctx va with
    | none => lost s dropReason 0
    | some l =>
      let (s, e) := s.ctrUpdate l inc
      match e.reason with
      | none => s
      | some (r, nack) => lost s r nack

/-- The adds that wait for a page are made once it has come, or can no longer come (R305). -/
def State.settleAdds (s : State) : State :=
  s.dueAdds.foldl (fun s a => s.schedAdd a.ctx a.lix a.va a.inc) { s with dueAdds := [] }

/-- The single update of DONECTR, if the packet names one (R28, R32, R372). -/
def State.signalDone (s : State) (ctx lix : Nat) (pkt : List Byte) (failed : Bool) : State :=
  if pktDone pkt = 0 then s else s.schedAdd ctx lix (pktDone pkt) (if failed then errInc 1 else 1)

/-- All the blocks of a launch have finished (R32, R34). -/
def Launch.allDone (l : Launch) : Bool :=
  l.started && !l.finished &&
  (if pktRagged l.pkt then l.recordsEnd && l.records.isEmpty && l.blocksDone == l.recordsRead else l.blocksDone == pktBlocks l.pkt)

/-- A launch ends when every block has finished (R32). -/
def State.launchCheck (s : State) (l : Nat) : State :=
  match s.launches[l]? with
  | none => s
  | some x =>
    if x.allDone then (s.modLaunch l (fun x => { x with finished := true })).signalDone x.ctx x.ix x.pkt x.failed else s

/-- A launch that will run nothing more is finished by one update with ERR (R372, R434). -/
def State.launchFail (s : State) (l : Nat) : State :=
  match s.launches[l]? with
  | none => s
  | some x =>
    if x.finished then s
    else (s.modLaunch l (fun x => { x with finished := true, failed := true, started := true })).signalDone x.ctx x.ix x.pkt true

/-! ### Gangs (R432) -/

/-- The blocks of a gang that have not finished, ascending. -/
def State.blocksOf (s : State) (g : Nat) : List Nat :=
  (List.range s.blocks.length).filter (fun b => ((s.blocks[b]?).map (fun x => x.gang == g && !x.finished)).getD false)

/-- The warps of a block. -/
def State.warpsOf (s : State) (b : Nat) : List Nat :=
  (List.range s.warps.length).filter (fun w => ((s.warp? w).map (fun x => x.block == b)).getD false)

/-- Everything of an access that has not been performed is given up. -/
def Access.discard (a : Access) : Access :=
  { a with wb := true, reqs := a.reqs.map (fun r => if r.done then r else { r with done := true, dropped := true }) }

/-- A warp is stopped and discarded (R432). -/
def State.discardWarp (s : State) (w : Nat) : State :=
  let s : State := { s with
    accs := s.accs.map (fun a => if a.warp == w then a.discard else a)
    checkpoints := s.checkpoints.filter (fun c => c.warp != w)
    copies := s.copies.map (fun c =>
      if c.warp == w && (c.state == .queued || c.state == .running || c.state == .slice) then { c with state := .failed, waitPage := none }
      else c) }
  s.modWarp w (fun x => { x with
    state := .ended, clause := none, pipe := none, hold := .none, pending := none, pendWait := [], pendDrain := [], pendYield := none, outst := []
    ahead := false, batch := [], observed := [], victims := [], touched := [] })

/-- A block is done with: its warps, scratch, claims and slices are gone. -/
def State.discardBlock (s : State) (b : Nat) : State :=
  let s := (s.warpsOf b).foldl State.discardWarp s
  let s := (s.releaseScratch b).splitPools b
  (s.releaseClaims b).modBlock b (fun x => { x with finished := true, failed := true, slices := [] })

/-- The blocks of a gang, ascending: those placed with it; while a relaunched one waits for its place, those of the last placement (R432,
R433). -/
def State.gangBlocks (s : State) (g : Nat) : List Block :=
  match s.gangs[g]? with
  | none => []
  | some x =>
    let ran := (List.range g).reverse.find? (fun i => (s.gangs[i]?).any (fun h => h.launch == x.launch && h.ix == x.ix && h.placed))
    s.blocks.filter (fun b => some b.gang == if x.placed then some g else ran)

/-- Kill a gang (R432): with a code, and with a relaunch where one is made. A relaunched gang stands as a new one, with all the blocks of the gang
(R9), to be placed ahead of every other gang of its launch. A gang whose blocks have all finished is left as it is. -/
def State.killGang (s : State) (g : Nat) (code : BitVec 8) (relaunch : Bool) : State :=
  match s.gangs[g]? with
  | none => s
  | some x =>
    if x.killed then s
    else
      match s.launches[x.launch]? with
      | none => s
      | some l =>
        let bs := s.blocksOf g
        let all := s.gangBlocks g
        let ixs := all.map Block.ix
        let ran := (all.filter (fun b => b.gang == g && b.finished)).length
        if x.placed && bs.isEmpty then s.modGang g (fun x => { x with killed := true }) else
        let again := relaunch && pktRsafe l.pkt && x.relaunches < 3
        let at_ := s.clusterOfBlock (bs.headD 0)
        let cores := s.coresOf bs
        let s := bs.foldl State.discardBlock s
        let s := if x.saved then s else s.fillCores at_ cores
        let s := s.modGang g (fun x => { x with killed := true })
        let s := s.trapEntry l.ctx 2 code 0 l.ix (ixs.headD 0) [BitVec.ofNat 64 x.ix, if again then 1 else 0, 0, 0]
        if again then
          let s := s.modLaunch x.launch (fun l => { l with blocksDone := l.blocksDone - ran })
          { s with gangs := s.gangs ++ [{ launch := x.launch, ix := x.ix, cluster := 0, placed := false, stopping := false
                                          saved := false, damaged := false, killed := false
                                          relaunches := x.relaunches + 1, againAt := some s.clk }] }
        else
          let s := ixs.foldl (fun s i => s.trapEntry l.ctx 4 code 0 l.ix i [0, 0, 0, 0]) s
          let s := s.modLaunch x.launch (fun l => { l with failed := true, blocksDone := l.blocksDone + (all.length - ran) })
          s.launchCheck x.launch

/-- The gang of a warp that consumes poison is killed with ECCKILL (R430); in a gang that is being saved the save is lost with it
(R433). -/
def State.eccKill (s : State) (w : Nat) : State :=
  match s.gangOf w with
  | none => s
  | some g => s.killGang g codeEcckill true

/-! ### Contexts (R372, R434, R303) -/

/-- The gangs of a context that have not been killed and hold blocks that have not finished. -/
def State.gangsOfCtx (s : State) (c : Nat) : List Nat :=
  (List.range s.gangs.length).filter (fun g =>
    match s.gangs[g]? with
    | none => false
    | some x => !x.killed && ((s.launches[x.launch]?).map (fun l => l.ctx == c && !l.finished)).getD false)

/-- The launches of a context. -/
def State.launchesOf (s : State) (c : Nat) : List Nat :=
  (List.range s.launches.length).filter (fun l => ((s.launches[l]?).map (fun x => x.ctx == c)).getD false)

/-- Hold every queue of a context, kill its gangs without relaunch, and give each of its launches one update with ERR (R372, R434). The
packets that have not started go. -/
def State.stopCtx (s : State) (c : Nat) (code : BitVec 8) : State :=
  let s := s.modCtx c (fun x => { x with queues := x.queues.map (fun q => { q with hold := true }) })
  let ls := (s.launchesOf c).filter (fun l => ((s.launches[l]?).map (fun x => !x.finished)).getD false)
  let s : State := { s with launches := s.launches.zipIdx.map (fun (x, i) => if ls.contains i then { x with finished := true } else x) }
  let gs := (List.range s.gangs.length).filter (fun g =>
    match s.gangs[g]? with
    | none => false
    | some x => !x.killed && ls.contains x.launch)
  let s := gs.foldl (fun s g => s.killGang g code false) s
  let s := ls.foldl (fun s l =>
    match s.launches[l]? with
    | none => s
    | some x => (s.modLaunch l (fun x => { x with failed := true })).signalDone c x.ix x.pkt true) s
  s.modCtx c (fun x => { x with queues := x.queues.map (fun q => { q with pkts := q.pkts.filter (fun p => !p.accepted) }) })

/-- The lines of an address space leave every cache, and its translations every station. -/
def State.dropLines (s : State) (a : Nat) : State :=
  { s with
    llc := s.llc.filter (fun l => l.asid != a)
    clusters := s.clusters.map (fun k => { k with lines := k.lines.filter (fun l => l.asid != a) })
    cores := s.cores.map (fun k => { k with l1 := k.l1.filter (fun l => l.asid != a) })
    tlb := s.tlb.filter (fun t => t.asid != a) }

/-- The mappings of an address space go, with the hidden bits and levels of its pages (R303, R364, R368). So do the bits of an NC page's words that
another context maps (log 14). -/
def State.dropSpace (s : State) (a : Nat) : State :=
  let nc := s.frames.filter (fun m => m.attr == 2 && m.asid == a)
  let gone := fun (l : Loc) => match l.place with
    | .glob b | .lcm b => b == a
    | .nc => nc.any (fun m => m.frame ≤ l.addr && l.addr < m.frame + m.size)
    | .scr _ _ | .peer _ => false
  { s.dropLines a with
    frames := s.frames.filter (fun m => m.asid != a)
    tags := s.tags.filter (fun t => !gone t.loc)
    migrations := s.migrations.filter (fun m => m.asid != a)
    recalls := s.recalls.filter (fun m => m.asid != a)
    lcUndef := s.lcUndef.filter (fun u => u.asid != a)
    pinned := s.pinned.filter (fun p => p.asid != a)
    mem := s.mem.filter (fun m => !(lcmKey a 0 ≤ m.1 && m.1 < lcmKey (a + 1) 0))
    poison := s.poison.filter (fun q => !(lcmKey a 0 / 128 ≤ q && q < lcmKey (a + 1) 0 / 128)) }

/-- Destroy a context (R303, R434): its address space goes, and its ASID is free. -/
def State.destroyCtx (s : State) (c : Nat) : State :=
  match s.ctxs[c]? with
  | none => s
  | some x =>
    let s := s.dropSpace x.asid
    { s with dueAdds := s.dueAdds.filter (fun d => d.ctx != c), ctxs := upd s.ctxs c (fun x => { x with live := false }) }

/-- Destroying a context first writes its dirty lines back where their pages can be written (R303). -/
def State.writeBackCtx (s : State) (c : Nat) : State :=
  let a := s.asid c
  let s := (s.clusters.map Cluster.cluster ++ s.cores.map Core.cluster).eraseDups.foldl
    (fun s cl => (flushAll cl a (s.dirtyLines cl a) s).1) s
  ((s.llc.filter (fun l => l.asid == a)).map Line.vline).foldl (fun s ln => (s.llcClean a ln).1) s

/-- End a context (R434). -/
def State.endCtx (s : State) (c : Nat) : State :=
  let s := s.stopCtx c codeEcckill
  let s := (s.writeBackCtx c).destroyCtx c
  { s with reports := s.reports ++ [{ kind := 1, fields := [c] }] }

end Sys2Proof.Machine
end

