-- ==== Sys2Proof/Machine/MatrixInstr.lean ====
section
/-! DEFINITION. The instructions of the matrix group (R252, R267 to R270) and the accumulator store (R249, R251). -/
namespace Sys2Proof.Machine

/-! ### The accumulator store (R249, R270) -/

/-- The number of word (r, c) of a store: accumulator row r, column c (R249). -/
def accWord (row col : Nat) : Nat := 32 * row + col

/-- A word of the store; one not listed is 0. -/
def accRead (a : List (Nat × Word)) (k : Nat) : Word := ((a.find? (fun x => x.1 == k)).map Prod.snd).getD 0

/-- Write a word of the store, in the order of the words, no word 0 listed. -/
def accWrite : List (Nat × Word) → Nat → Word → List (Nat × Word)
  | [], k, v => if v = 0 then [] else [(k, v)]
  | (i, x) :: r, k, v =>
    if k = i then (if v = 0 then r else (i, v) :: r)
    else if k < i then (if v = 0 then (i, x) :: r else (k, v) :: (i, x) :: r)
    else (i, x) :: accWrite r k v

/-- Write words of the store. -/
def accWrites (a : List (Nat × Word)) (ws : List (Nat × Word)) : List (Nat × Word) := ws.foldl (fun a w => accWrite a w.1 w.2) a

/-- SHAPE of a parameter block (R256). -/
def mmaShape (b : List Byte) : DWord := word64 b 0x40
/-- MB (R256). -/
def mmaMB (b : List Byte) : Nat := bitsOf (mmaShape b) 0 8
/-- NB (R256). -/
def mmaNB (b : List Byte) : Nat := bitsOf (mmaShape b) 8 8
/-- KB (R256). -/
def mmaKB (b : List Byte) : Nat := bitsOf (mmaShape b) 16 16
/-- ACC (R256). -/
def mmaACC (b : List Byte) : Nat := bitsOf (mmaShape b) 32 4
/-- PROG (R256). -/
def mmaPROG (b : List Byte) : Nat := bitsOf (mmaShape b) 36 4

/-- A queued MMA names a segment (R270). -/
def Core.names (k : Core) (seg : Nat) : Bool :=
  k.mmaq.any (fun m => mmaACC m.blk ≤ seg && seg < mmaACC m.blk + mmaMB m.blk * mmaNB m.blk)

/-- The poison key of a segment of a core's store (R429, R430). -/
def accPoison (cl core seg : Nat) : Nat := 2 ^ 90 + (cl * 8 + core) * 16 + seg

/-- The running MMA names a segment and has committed its rows (R261). -/
def Core.committed (k : Core) (seg : Nat) : Bool :=
  k.mmaq.any (fun m => m.running && mmaACC m.blk ≤ seg &&
    seg < mmaACC m.blk + bitsOf (k.prog.getD (mmaPROG m.blk) 0) 40 8 / 32 * mmaNB m.blk)

/-- Write words of the own core's store. A word of a segment that an MMA names is undefined once both have acted (R270, log 2): at once where the MMA has
committed its rows; else it is as written until it does, which a failed one never does (R264). -/
def State.accPut (s : State) (cl core : Nat) (ws : List (Nat × Word)) : State :=
  let k := s.core cl core
  let open_ := ws.filter (fun w => k.names (w.1 / 1024))
  let (n, s) := if open_.isEmpty then (s.freeCtr, s) else s.fresh ws.length
  let vals := ws.zipIdx.map (fun (w, i) => if k.committed (w.1 / 1024) then (w.1, (Config.freeBits (n + i)).setWidth 32) else w)
  s.modCore cl core (fun k => { k with acc := accWrites k.acc vals, undef := (open_.map Prod.fst ++ k.undef).eraseDups })

/-! ### MMA (R252) -/

/-- A request of the core to a scratchpad has yet to be performed (R392). -/
def State.openScratch (s : State) (w : Nat) (p : Place) : Bool :=
  s.accs.any (fun a => s.clusterOf a.warp == s.clusterOf w && (s.warp? a.warp).map Warp.core == (s.warp? w).map Warp.core &&
    a.reqs.any (fun r => !r.done && r.loc.place == p))

/-- MMA (R252). -/
def execMma (h : Head) (a : Fin 64) (s : State) : Host.Outcome State Fault Refusal :=
  issue { head := h, cls := some 4, reads := [.s a.val] } (fun e =>
    let va := e.regs.s.getD a.val 0
    let t := lowestOf e.act
    let bad := fun (code : BitVec 8) =>
      Res.trap { code := code, mask := 1#32 <<< t, lowv := true, lowest := t, addr := va }
    if unaligned va then bad codeAlign
    else
      match regionOf va.toNat with
      | .own off =>
        if !canonical va || e.s.scratchOf e.x.block < off + 128 then bad codeProt
        else if 8 ≤ (e.s.core (e.s.clusterOf e.w) e.x.core).mmaq.length || e.s.openScratch e.w (.scr e.x.block e.x.core) then
          .stay (e.s.modWarp e.w (fun x => { x with hold := .issue .mmas }))
        else
          let blk := (List.range 128).map (fun i => e.s.mem.read (scrKey e.x.block e.x.core (off + i)))
          let m : Mma := { warp := e.w, thread := t, addr := va, blk := blk, after := e.s.accs.length }
          .done (e.s.modCore (e.s.clusterOf e.w) e.x.core (fun k => { k with mmaq := k.mmaq ++ [m] })) { head := h }
      | .global | .peer | .cluster _ _ | .reserved => bad codeProt) s
where
  /-- The block is not 128-byte aligned. -/
  unaligned (va : DWord) : Bool := va.extractLsb' 0 7 != 0

/-! ### Accumulator rows (R267 to R269) -/

/-- The accumulator row an operand names (R267). -/
def Env.accRow (e : Env) (a : Opnd) : Nat := (e.scalar .n64 a).toNat % 512

/-- MACCRD (R267): the row is read at issue and delivered later; an element of a segment that an MMA names is undefined (R270). A poisoned
segment is consumed (R430). -/
def execMaccrd (h : Head) (ty : Ty) (d a : Opnd) (s : State) : Host.Outcome State Fault Refusal :=
  let groups := [opndRegs false d]
  issue { head := h, cls := some 4, reads := opndRegs true a, writes := groups.flatten } (fun e =>
    match prepAll groups e.act e.regs with
    | .error m => .trap { code := codeVoidop, mask := m }
    | .ok (lr, slots) =>
      let k := e.s.core (e.s.clusterOf e.w) e.x.core
      let row := e.accRow a
      if e.s.poison.contains (accPoison (e.s.clusterOf e.w) e.x.core (row / 32)) then .stay (e.s.eccKill e.w)
      else
      let (n, s) := if k.names (row / 32) then e.s.fresh 32 else (e.s.freeCtr, e.s)
      let word := fun (t : Nat) =>
        if k.names (row / 32) then (Config.freeBits (n + t)).setWidth 32 else accRead k.acc (accWord row t)
      let val := fun (t : Nat) =>
        if ty == .f16 || ty == .bf16 then BitVec.ofNat 64 (f2f ty .f32 {} (word t).toNat) else (word t).setWidth 64
      let acc : Access :=
        { warp := e.w, op := .macc, ty := .n32, scope := .core, hint := .normal, mask := e.act, sb := sbOf h, block := e.x.block
          issuedAt := s.clk, dregs := groups.flatten, slots := slots
          reqs := (threads.filter (inMask e.act)).map (fun t =>
            { thread := t, va := 0, loc := { place := .nc, addr := 0 }, size := 4, data := 0, done := true, res := val t }) }
      let i := s.accs.length
      let s := { s with accs := s.accs ++ [acc] }
      let s := ((s.modWarp e.w (fun x => { x with regs := lr.regs })).bump (s.ctxIx e.w) evLaneMove lr.lanemove (some e.w)).bump
        (s.ctxIx e.w) evAutoFire lr.autofire (some e.w)
      .done s { head := h, extra := lr.extra, counted := true
                outst := groups.flatten.map (fun g => { reg := g, sb := sbOf h, acc := i, mask := fullMask }) }) s

/-- MACCWR (R268): performed at issue. -/
def execMaccwr (h : Head) (ty : Ty) (a b : Opnd) (s : State) : Host.Outcome State Fault Refusal :=
  issue { head := h, cls := some 4, reads := opndRegs true a ++ opndRegs false b, ls := readLs [(ty, b)] } (fun e =>
    let x := e.src ty b
    let void := maskOf (fun t => inMask e.act t && srcVoid [x] t)
    if void != 0 then .trap { code := codeVoidop, mask := void }
    else
      let conv := fun (v : Nat) => if ty == .f16 || ty == .bf16 then f2f .f32 ty {} (v % 2 ^ 16) else v % 2 ^ 32
      let ws := (threads.filter (inMask e.act)).map (fun t =>
        (accWord (e.accRow a) t, BitVec.ofNat 32 (conv ((x.at t).getD 0).toNat)))
      .done (e.s.accPut (e.s.clusterOf e.w) e.x.core ws) { head := h }) s

/-- MACCZ (R269): performed at issue. -/
def execMaccz (h : Head) (first : Fin 16) (count : Fin 32) (s : State) : Host.Outcome State Fault Refusal :=
  issue { head := h, cls := some 4 } (fun e =>
    let ws := (List.range (1024 * count.val)).map (fun i => (1024 * first.val + i, (0 : Word)))
    let gone := (List.range count.val).map (fun i => accPoison (e.s.clusterOf e.w) e.x.core (first.val + i))
    let s : State := { e.s with poison := e.s.poison.filter (fun q => !gone.contains q) }
    .done (s.accPut (e.s.clusterOf e.w) e.x.core ws) { head := h }) s

end Sys2Proof.Machine
end

