-- ==== Sys2Proof/Machine/Caches.lean ====
section
/-! DEFINITION. Poison (R430): what an access meets, and what makes a line good again. -/
namespace Sys2Proof.Machine

/-! ### Poison (R430) -/

/-- A byte of memory by key lies in a poisoned line. -/
def State.poisonKey (s : State) (k : Nat) : Bool := s.poisonLine (k / 128)

/-- A byte at its home is poisoned. -/
def State.homePoison (s : State) (asid va : Nat) : Bool :=
  match findLine s.llc asid (va / 128) with
  | some l => l.poison
  | none =>
    match s.physOf asid va with
    | some p => s.poisonKey (s.stackKey p)
    | none => false

/-- A byte that an access meets is poisoned: the line of the copy that the byte comes from is (R382). -/
def State.poisoned (s : State) (cl core : Nat) (near : Bool) (l : Loc) : Bool :=
  match l.place with
  | .glob a =>
    let here := if near then
        ((findLine (s.core cl core).l1 a (l.addr / 128)).filter (fun x => (x.byte (l.addr % 128)).st != .invalid)).orElse
          (fun _ => findLine (s.ccLines cl) a (l.addr / 128))
      else none
    match here with
    | some x => x.poison
    | none => s.homePoison a l.addr
  | .nc => s.poisonKey (s.stackKey l.addr)
  | .lcm a => s.poisonLine (s.lcmPoison a l.addr)
  | .scr b c => s.poisonKey (scrKey b c l.addr)
  | .peer _ => false

/-- The poison of a line that one store, copy or spill has written whole is cleared. -/
def State.clearPoison (s : State) (cl core : Nat) (near : Bool) (l : Loc) : State :=
  let drop := fun (s : State) (k : Nat) => s.setPoison (k / 128) false
  let clean := fun (x : Line) => { x with poison := false }
  match l.place with
  | .glob a =>
    if near then s.modCore cl core (fun c => { c with l1 := modLine c.l1 a (l.addr / 128) clean })
    else
      let s := { s with llc := modLine s.llc a (l.addr / 128) clean }
      let s := s.modCC cl (fun ls => modLine ls a (l.addr / 128) clean)
      s.modCore cl core (fun c => { c with l1 := modLine c.l1 a (l.addr / 128) clean })
  | .nc => drop s (s.stackKey l.addr)
  | .scr b c => drop s (scrKey b c l.addr)
  | .lcm _ | .peer _ => s

/-- Locations that one instruction has written cover the whole line of one of them. -/
def coversLine (ls : List (Loc × Nat)) (l : Loc) : Bool :=
  (List.range 128).all (fun i => ls.any (fun x =>
    x.1.place == l.place && x.1.addr ≤ l.addr / 128 * 128 + i && l.addr / 128 * 128 + i < x.1.addr + x.2))

end Sys2Proof.Machine
end

