-- ==== Sys2Proof/Machine/LevelCtr.lean ====
section
/-! DEFINITION. Level counters (R205 to R210, R282, R316): what a counter holds, its estimate, and what an add or a merge leaves. -/
namespace Sys2Proof.Machine

/-- The base register of the region a virtual address of an LCM page lies in, and its number (R205, R282). -/
def State.lcOf (s : State) (asid va : Nat) : DWord × Nat :=
  match s.ctxOfAsid asid with
  | none => (0, 0)
  | some c =>
    match s.translate c va with
    | .ok t => (s.lcbase c t.lcb, t.lcb)
    | .prot | .absent => (0, 0)

/-- The level a counter holds; one that a change of its base register left undefined is a free value (R282, log 2). -/
def State.levelAt (s : State) (asid va : Nat) : Nat :=
  let (b, n) := s.lcOf asid va
  match s.lcUndef.find? (fun u => u.asid == asid && u.lcb == n && !u.known.any (fun k => k.1 ≤ va && va < k.1 + k.2)) with
  | some u => (Config.freeBits (2 ^ 70 * (u.seed + 1) + va)).toNat % (lcMax b + 1)
  | none => (s.mem.read (lcmKey asid va)).toNat

/-- Write a level: it is defined from then on. -/
def State.setLevel (s : State) (asid va v : Nat) : State :=
  let n := (s.lcOf asid va).2
  { s with
    mem := s.mem.write (lcmKey asid va) (BitVec.ofNat 8 v)
    lcUndef := s.lcUndef.map (fun u => if u.asid == asid && u.lcb == n then { u with known := (va, 1) :: u.known } else u) }

/-- est(L) times 2^(257k + 149), an exact number for every level up to 256 (R205). -/
def estScaled (k l : Nat) : Nat := 2 ^ k * ((2 ^ k + 1) ^ l * 2 ^ (k * (257 - l)) - 2 ^ (257 * k)) * 2 ^ 149

/-- The level that T meets, from a level on, none where it lies above the last (R206). -/
def levelOf (k T last : Nat) : Nat → Nat → Option Nat
  | 0, _ => none
  | fuel + 1, l =>
    if last < l then none
    else if T < estScaled k (l + 1) then some l
    else levelOf k T last fuel (l + 1)

/-- The raise rule of R206: the new level for a scaled sum and a draw; none saturates (R210). -/
def raise (k last l T : Nat) (draw : DWord) : Option Nat :=
  match levelOf k T last 257 l with
  | none => none
  | some m =>
    let gap := estScaled k (m + 1) - estScaled k m
    let up := decide (draw.toNat % 2 ^ 32 * gap < (T - estScaled k m) * 2 ^ 32)
    let new := if up then m + 1 else m
    if last < new then none else some new

/-- An LCADD of an FP32 weight (R206): the level it leaves; none saturates. -/
def lcAddLevel (k last l : Nat) (w : Nat) (draw : DWord) : Option Nat :=
  match fdec .f32 w with
  | .nan => some l
  | .inf neg => if neg then some l else none
  | .fin neg m e _ =>
    if neg || m = 0 then some l
    else raise k last l (estScaled k l + m * 2 ^ (e + 149 + 257 * (k : Int)).toNat) draw

/-- An LCMRG of a raw level (R207). -/
def lcMergeLevel (k last l : Nat) (lb : Nat) (draw : DWord) : Option Nat :=
  raise k last l (estScaled k l + estScaled k lb) draw

/-- The level that a request would leave (R206, R207, R209); none saturates. -/
def lcOutcome (op : AccOp) (b : DWord) (l : Nat) (data draw : DWord) : Option Nat :=
  match op with
  | .lcadd => lcAddLevel (lcK b) (lcMax b) l (data.toNat % 2 ^ 32) draw
  | .lcmrg => lcMergeLevel (lcK b) (lcMax b) l (data.toNat % 256) draw
  | .lcinit => some (data.toNat % 256)
  | _ => some l

/-- What LCRD returns for a level (R208). -/
def lcEstimate (b : DWord) (l : Nat) : Nat :=
  let k := lcK b
  fenc .f32 {} (.fin false ((2 ^ k + 1) ^ l - 2 ^ (k * l)) ((k : Int) - k * l) false)

end Sys2Proof.Machine
end

