-- ==== Sys2Proof/Machine/Perform.lean ====
section
/-! DEFINITION. Accesses as they are performed (chapter 17): the order that holds them back (R379, R380, R392, R393), what each reads and
writes, and the results that return to registers. -/
namespace Sys2Proof.Machine

/-! ### What holds a request back -/

/-- Two requests share a byte. -/
def Req.meets (r q : Req) : Bool :=
  r.loc.place == q.loc.place && r.loc.addr < q.loc.addr + q.size && q.loc.addr < r.loc.addr + r.size

/-- A place in the caches' range: a global line. -/
def isGlob : Place → Bool
  | .glob _ => true
  | .nc | .lcm _ | .scr _ _ | .peer _ => false

/-- A place of a peer. -/
def isPeer : Place → Bool
  | .peer _ => true
  | .glob _ | .nc | .lcm _ | .scr _ _ => false

/-- The scratchpad of a place, by its core. -/
def padOf : Place → Option Nat
  | .scr _ c => some c
  | .glob _ | .nc | .lcm _ | .peer _ => none

/-- The rows of R379 in which a later access need not wait for an earlier one to the same byte. -/
def freeRow (a b : Access) (p : Place) : Bool :=
  isGlob p && !a.op.isRmw && !b.op.isRmw &&
    (if a.op == .store then scopeNear a.scope && b.op.isRead && !scopeNear b.scope
     else a.op.isRead && b.op.isRead && scopeNear a.scope != scopeNear b.scope)

/-- An earlier access of the same warp holds a later request back: an acquire (R229); a read or RMW before a write or RMW (R380); or the
same byte (R379). -/
def State.holdsBack (s : State) (a b : Access) (q : Req) : Bool :=
  let open_ := a.reqs.filter (fun r => !r.done && !s.parked a r)
  !open_.isEmpty &&
    ((a.op.isCtr && semAcq a.sem) ||
     ((a.op.isRead || a.op.isRmw) && (b.op == .store || b.op.isRmw)) ||
     open_.any (fun r => r.meets q && !freeRow a b q.loc.place))

/-- An access is a line operation (R197). -/
def AccOp.isLine : AccOp → Bool
  | .prefetch | .cflush | .cinv | .cdemote => true
  | .load | .loadRec _ | .store | .add | .min | .max | .and | .or | .xor | .exch | .cas | .lcadd | .lcmrg | .lcrd | .lcrdRaw | .lcinit
  | .ctrInit _ | .ctrAdd | .ctrArv | .ctrRead | .ctrKill | .ctrFree | .fenceop | .launch _ | .macc => false

/-- A request acts at the line's home and takes it there: a far RMW or a counter operation (R187, R387). -/
def atHome (a : Access) : Bool := a.op.isCtr || (a.op.isAtomic && !scopeNear a.scope)

/-- The ticket unit holds a request (R351, R352, R393): a staged write until it is released, an ATOM or ATOMCAS and a held read until NEXT
reaches its block. -/
def State.ticketHolds (s : State) (a : Access) (r : Req) : Bool :=
  if s.stages a.block a.op r.loc r.va then !(a.op.isAtomic && !a.dregs.isEmpty && s.nextReached a.block)
  else s.heldRead a.block a.op r.loc r.va && !s.nextReached a.block

/-- An LC instruction with the trap policy reserves the counter of a request (R210): other LC operations on it wait. -/
def State.reserved (s : State) (n : Nat) (a : Access) (r : Req) : Bool :=
  a.op.isLc && s.accs.zipIdx.any (fun (b, m) =>
    m != n && b.op.isLc && !b.op.isRead && ((s.warp? b.warp).map (fun x => x.hold == .accept m)).getD false &&
      b.reqs.any (fun q => q.done && q.loc == r.loc))

/-- A near store or atomic has a way of its core's L1 to stand in (R297, R301): one that is held from replacement is none. -/
def State.nearRoom (s : State) (cl core : Nat) (a : Access) (r : Req) : Bool :=
  match r.loc.place with
  | .glob k =>
    let ln := r.loc.addr / 128
    !(scopeNear a.scope && (a.op == .store || a.op.isAtomic)) || s.inL1 cl core k ln || (s.l1Fill cl core k ln a.hint true).inL1 cl core k ln
  | .nc | .lcm _ | .scr _ _ | .peer _ => true

/-- A write that the ticket unit no longer stages waits for the earlier such writes of its warp (R353). -/
def State.inTurn (s : State) (a : Access) (i : Nat) (r : Req) (own : List Access) : Bool :=
  !(s.direct a.block && a.op.writes && s.foreign a.block r.loc r.va) ||
    (own.all (fun b => b.reqs.all (fun q => q.done || !(b.op.writes && s.foreign b.block q.loc q.va))) && (a.reqs.take i).all Req.done)

/-- A request can be put on its shelf, or needs none (R413): during a restack one that was issued since the stop is performed only in a scratchpad or
in the core's own L1. -/
def State.onShelf (s : State) (cl core : Nat) (a : Access) (r : Req) : Bool :=
  s.injects r.loc || a.issuedAt < s.drainAt ||
    (match r.loc.place with
      | .glob k => scopeNear a.scope && s.inL1 cl core k (r.loc.addr / 128)
      | .nc | .lcm _ | .scr _ _ | .peer _ => false)

/-- Nothing that its own warp or its place does holds request i of access n back, but for what the ticket unit holds. -/
def State.readyNow (s : State) (n i : Nat) : Bool :=
  match s.accs[n]?, (s.accs[n]?).bind (fun a => a.reqs[i]?) with
  | some a, some r =>
    let cl := s.clusterOf a.warp
    let core := ((s.warp? a.warp).map Warp.core).getD 0
    let before := (s.accs.take n)
    let own := before.filter (fun b => b.warp == a.warp)
    let path := match padOf r.loc.place with
      | none => true
      | some c => before.all (fun b =>
          !(s.clusterOf b.warp == cl && ((s.warp? b.warp).map Warp.core).getD 0 == core) ||
            b.reqs.all (fun q => q.done || padOf q.loc.place != some c))
    let accept := match (s.warp? a.warp).map Warp.hold with
      | some (.accept m) => m != n || a.op.isLine || (a.op.isLc && a.op != .lcinit) || a.reqs.all (fun q => q.done || !isPeer q.loc.place)
      | _ => true
    let rel := (a.op.isCtr && semRel a.sem) || (match a.op with | .launch _ => true | _ => false)
    !r.done && !isPeer r.loc.place &&
    own.all (fun b => !s.holdsBack b a r) &&
    (a.reqs.take i).all (fun q => q.done || !q.meets r) &&
    path && accept && !s.reserved n a r && s.onShelf cl core a r &&
    (!rel || s.performedAt a.warp n (ctrScope a.scope r.va)) && s.inTurn a i r own && s.nearRoom cl core a r &&
    (!(atHome a && isGlob r.loc.place) || !s.pendingAt cl core (s.asid (s.ctxIx a.warp)) (r.loc.addr / 128))
  | _, _ => false

/-- A request is put on a shelf, not served by its own cluster (R411). -/
def shelved (a : Access) (r : Req) : Bool :=
  match r.loc.place with
  | .glob _ => !scopeNear a.scope
  | .nc | .lcm _ => true
  | .scr _ _ | .peer _ => false

/-- Request i of access n may be performed now, but for what the ticket unit holds. Requests that a core puts on the shelf of one line are performed in
the order of their instructions (R412): an earlier one that may go does so first. -/
def State.mayPerform (s : State) (n i : Nat) : Bool :=
  match s.accs[n]?, (s.accs[n]?).bind (fun a => a.reqs[i]?) with
  | some a, some r =>
    s.readyNow n i && (!shelved a r || (s.accs.take n).zipIdx.all (fun (b, m) =>
      s.seat b.warp != s.seat a.warp || b.reqs.zipIdx.all (fun (q, j) =>
        q.loc.place != r.loc.place || q.loc.addr / 128 != r.loc.addr / 128 || !shelved b q || s.ticketHolds b q || !s.readyNow m j)))
  | _, _ => false

/-! ### Plain accesses -/

/-- A warp's earlier near RMW of a byte that it now reads at the home has reached the home: an RMW is ordered in every row (R379). -/
def State.settleRmw (s : State) (n cl : Nat) (a : Access) (r : Req) : State :=
  match r.loc.place with
  | .glob k =>
    if !scopeNear a.scope && (s.accs.take n).any (fun b =>
        b.warp == a.warp && b.op.isAtomic && scopeNear b.scope && b.reqs.any (fun q => q.done && q.meets r)) then
      (s.flushLine cl k (r.loc.addr / 128)).1
    else s
  | .nc | .lcm _ | .scr _ _ | .peer _ => s

/-- The value of an element after an atomic (R200, R203). -/
def rmwValue (op : AccOp) (ty : Ty) (old data cmp : DWord) : DWord :=
  match op with
  | .add => addElem ty old data
  | .min => if ty.isInt then (if ival ty data < ival ty old then data else old) else BitVec.ofNat 64 (fmin ty old.toNat data.toNat)
  | .max => if ty.isInt then (if ival ty old < ival ty data then data else old) else BitVec.ofNat 64 (fmax ty old.toNat data.toNat)
  | .and => old &&& data
  | .or => old ||| data
  | .xor => old ^^^ data
  | .exch => data
  | .cas => if ubits ty old == ubits ty cmp then data else old
  | _ => old

/-- Exclusive ownership of a line for a near atomic (R187, R387): other clusters' ownership is recalled, and the issuing core's L1 holds
the line as the single order has it. -/
def State.ownNear (s : State) (cl core asid vline : Nat) (h : Hint) : State :=
  let s := s.recall asid vline ((s.owners asid vline).filter (fun c => c != cl))
  ((s.l1Fill cl core asid vline h false).refreshCC cl asid vline).grant cl core asid vline h

/-- Write n bytes of a core's own line, dirty. -/
def State.ownWrite (s : State) (cl core asid va n : Nat) (v : DWord) : State :=
  s.modCore cl core (fun c => { c with l1 := modLine c.l1 asid (va / 128) (fun l =>
    { l with bytes := l.bytes.zipIdx.map (fun (b, i) =>
        if va % 128 ≤ i && i < va % 128 + n then { v := v.extractLsb' (8 * (i - va % 128)) 8, st := .dirty } else b) }) })

/-- An RMW of n bytes at its place (R187, R201): the old value and the state. -/
def State.rmwAt (s : State) (cl core : Nat) (near : Bool) (h : Hint) (l : Loc) (n : Nat) (f : DWord → DWord) : DWord × State :=
  match l.place with
  | .glob a =>
    if near then
      let s := s.ownNear cl core a (l.addr / 128) h
      let old := s.readPlace cl core true l n
      (old, s.ownWrite cl core a l.addr n (f old))
    else
      let s := (s.homeReady (some cl) l).llcFill a (l.addr / 128) h
      let old := s.placeVal l n
      (old, s.placePut l n (f old))
  | .nc | .lcm _ | .scr _ _ | .peer _ =>
    let s := s.pullAt l
    let old := s.placeVal l n
    (old, s.placePut l n (f old))

/-- Write the bytes of a store at its place (R187, R192). -/
def State.storeAt (s : State) (w cl core : Nat) (near : Bool) (h : Hint) (l : Loc) (n : Nat) (v : DWord) : State :=
  match l.place with
  | .glob a =>
    if near then
      let s := s.nearOpen w cl core a (l.addr / 128) h true
      let s := (List.range n).foldl (fun s i => s.nearWrite cl core a (l.addr + i) (v.extractLsb' (8 * i) 8)) s
      s.modWarp w (fun x => x.observe core a (l.addr / 128))
    else
      let s := (s.llcFill a (l.addr / 128) h).touchCopies cl core a (l.addr / 128) h
      (List.range n).foldl (fun s i => s.farWrite cl core a (l.addr + i) (v.extractLsb' (8 * i) 8)) s
  | .nc | .lcm _ | .scr _ _ | .peer _ => s.placePut l n v

/-! ### Deterministic reads and releases (R351, R393) -/

/-- The staged writes of a block, in the order of R351 and R319: BLOCKWARP, issue order, then ascending threads. Those of an instruction that is
not accepted yet are not staged. -/
def State.stagedReqs (s : State) (b : Nat) : List (Nat × Nat) :=
  (sortBy (fun w => [((s.warp? w).map Warp.blockWarp).getD 0, w]) (s.warpsOf b)).flatMap (fun w =>
    (s.accs.zipIdx.filter (fun (a, n) => a.warp == w && a.dregs.isEmpty && (s.warp? w).map Warp.hold != some (.accept n))).flatMap (fun (a, n) =>
      (a.reqs.zipIdx.filter (fun (r, _) => !r.done && a.op.writes && s.foreign b r.loc r.va)).map (fun (_, i) => (n, i))))

/-- One staged store or RED, performed at DEVICE scope on a state. -/
def State.stagedWrite (s : State) (n i : Nat) : State :=
  match s.accs[n]?, (s.accs[n]?).bind (fun a => a.reqs[i]?) with
  | some a, some r =>
    let cl := s.clusterOf a.warp
    let core := ((s.warp? a.warp).map Warp.core).getD 0
    if a.op == .store then s.storeAt a.warp cl core false a.hint r.loc r.size r.data
    else (s.rmwAt cl core false a.hint r.loc r.size (fun o => rmwValue a.op a.ty o r.data r.cmp)).2
  | _, _ => s

/-- A read of a line that is not the block's own (R393): the newest bytes of its cluster, else the home's. -/
def State.detByte (s : State) (cl core : Nat) (l : Loc) (i : Nat) : Byte :=
  match l.place with
  | .glob a =>
    let va := l.addr + i
    let new := fun (x : Option Line) => (x.map (fun y => y.byte (va % 128))).filter (fun b => b.st == .dirty || b.st == .pending)
    match (new (findLine (s.core cl core).l1 a (va / 128))).orElse (fun _ => new (findLine (s.ccLines cl) a (va / 128))) with
    | some b => s.orFree a va b.v
    | none => s.homeRead a va
  | .nc | .lcm _ | .scr _ _ | .peer _ => s.placeRead l i

/-- A byte that such a read meets is poisoned: the line of the copy it comes from is. -/
def State.detPoisoned (s : State) (cl core : Nat) (l : Loc) : Bool :=
  match l.place with
  | .glob a =>
    let new := fun (x : Option Line) => x.filter (fun y => (y.byte (l.addr % 128)).st == .dirty || (y.byte (l.addr % 128)).st == .pending)
    match (new (findLine (s.core cl core).l1 a (l.addr / 128))).orElse (fun _ => new (findLine (s.ccLines cl) a (l.addr / 128))) with
    | some y => y.poison
    | none => s.homePoison a l.addr
  | .nc | .lcm _ | .scr _ _ | .peer _ => s.poisoned cl core false l

/-- The bytes of a held read, with the block's own staged bytes laid over them (R351, R393), but for those that the reading warp stages after
the read: access `upto` or later (R379). -/
def State.detRead (s : State) (b cl core w upto : Nat) (l : Loc) (n : Nat) : DWord :=
  let earlier := (s.stagedReqs b).filter (fun k => k.1 < upto || ((s.accs[k.1]?).map Access.warp).getD 0 != w)
  let s' := earlier.foldl (fun s k =>
    match (s.accs[k.1]?).bind (fun a => a.reqs[k.2]?) with
    | some r => if isGlob r.loc.place || r.loc.place == .nc then s.stagedWrite k.1 k.2 else s
    | none => s) s
  BitVec.ofNat 64 (leNat ((List.range n).map (s'.detByte cl core l)))

/-- What a read of a request of access n returns (R187, R205, R208, R382). -/
def State.readReq (s : State) (n : Nat) (a : Access) (r : Req) : DWord :=
  let cl := s.clusterOf a.warp
  let core := ((s.warp? a.warp).map Warp.core).getD 0
  match r.loc.place with
  | .lcm k =>
    let lv := (List.range r.size).map (fun i => BitVec.ofNat 8 (s.levelAt k (r.loc.addr + i)))
    let v := BitVec.ofNat 64 (leNat lv)
    (match a.op with
      | .lcrd => BitVec.ofNat 64 (lcEstimate (s.lcOf k r.loc.addr).1 v.toNat)
      | _ => v)
  | .glob _ | .nc | .scr _ _ | .peer _ =>
    if s.foreign a.block r.loc r.va then s.detRead a.block cl core a.warp n r.loc r.size
    else s.readPlace cl core (scopeNear a.scope) r.loc r.size

/-! ### Counter operations (R230 to R236) -/

/-- A counter operation at its place in the single order (R228, R236): what it returns, and whether it was dropped. -/
def State.ctrPerform (s : State) (cl : Option Nat) (op : AccOp) (l : Loc) (data : DWord) : DWord × Bool × State :=
  let s := s.homeReady cl l
  let v := s.ctrWordAt l
  let tagged := (s.ctrTag l).isSome
  let dead := ctrRetired v
  match op with
  | .ctrInit ext =>
    if tagged && (!dead || s.referenced l) then (v, true, s)
    else (v, false, (s.placePut l 8 (ctrWord (ctrValue data) false false)).tagWord l ext)
  | .ctrAdd | .ctrArv =>
    if !tagged then (v, true, s)
    else if dead then (v, false, s)
    else (v, false, s.placePut l 8 (ctrPlus v data))
  | .ctrKill => if !tagged then (v, true, s) else if dead then (v, false, s) else (v, false, s.retire l)
  | .ctrFree => if !tagged || !dead || s.referenced l then (v, true, s) else (v, false, s.untag l)
  | _ => (v, false, s)

/-! ### Results (R82, R186) -/

/-- Mark a request performed, with what it returned. -/
def State.reqDone (s : State) (n i : Nat) (v : DWord) (dropped : Bool) : State :=
  s.modAcc n (fun a => { a with reqs := a.reqs.modify i (fun r => { r with done := true, res := v, dropped := dropped }) })

/-- The registers of a destination, a pair together (R186). -/
def pairUp (wide : Bool) : List Reg → List (List Reg)
  | [] => []
  | [a] => [[a]]
  | a :: b :: r => if wide then [a, b] :: pairUp wide r else [a] :: pairUp wide (b :: r)

/-- The destination groups of an access: an S register stands alone. -/
def Access.groups (a : Access) : List (List Reg) := pairUp (a.ty.wide && !a.dregs.any (fun g => match g with | .s _ => true | _ => false)) a.dregs

/-- The value the group that starts at register k receives in thread t (R186, R190, R191). -/
def Access.value (a : Access) (k t : Nat) : DWord :=
  match a.op with
  | .loadRec _ => imageWord ((a.reqs.zipIdx.map (fun (r, i) => r.res.toNat * 2 ^ (8 * i))).sum) t
  | _ =>
    let v := ((a.reqs.find? (fun r => (a.once || r.thread == t) && r.dst == k)).map Req.res).getD 0
    match a.op with
    | .load => loadForm a.ty v
    | _ => v

/-- The results of an access in registers, but for what has been overwritten since (R84): threads that a later write to a register covers end
with either value, as a free value says (log 2). Where their elements lie is what the register's map says now. -/
def State.keepClobbered (s : State) (old : Regs) (a : Access) (r : Regs) : State × Regs :=
  if a.clob.isEmpty then (s, r)
  else
    let cs := a.clob.eraseDups
    let (n, s) := s.fresh cs.length
    let lost := fun (g : Reg) (t : Nat) => cs.zipIdx.any (fun (c, i) => c.1 == g && inMask c.2 t && (Config.freeBits (n + i)).getLsbD 0)
    (s, (cs.map Prod.fst).eraseDups.foldl (fun r g =>
      match g with
      | .v _ | .o _ =>
        let k := (a.dregs.findIdx? (fun x => x == g)).getD 0
        let wide := a.groups.any (fun gs => gs.length == 2 && gs.contains g)
        let val := fun (t : Nat) =>
          let v := a.value (if wide then k / 2 * 2 else k) t
          if wide && k % 2 = 1 then v.extractLsb' 32 32 else v.setWidth 32
        threads.foldl (fun r t =>
          match inMask a.mask t && !lost g t, (old.map g).at t with
          | true, some p => writeSlot r [g] p.val ((val t).setWidth 64)
          | _, _ => r) (r.setVreg g (old.vreg g))
      | .s k => if lost g (lowestOf a.mask) then { r with s := r.s.set k (old.s.getD k 0) } else r
      | .p k => if lost g (lowestOf a.mask) then { r with p := r.p.set k (old.p.getD k 0) } else r) r)

/-- The result of an access is written to its registers, and its scoreboard counts down (R82, R276). A warp that has ended drops it
(R220). Earlier accesses that have yet to read a register it overwrites read either value (R84). -/
def State.writeBack (s : State) (n : Nat) : State :=
  match s.accs[n]? with
  | none => s
  | some a =>
    let s := s.modAcc n (fun a => { a with wb := true, srcs := [] })
    match s.warp? a.warp with
    | none => s
    | some x =>
      if x.state == .ended then s
      else
        let write := fun (r : Regs) => putGroups r a.mask a.slots a.value a.groups 0
        let (s, r) := s.keepClobbered x.regs a (write x.regs)
        let down := fun (r : Regs) => match a.sb with
          | none => r
          | some b => { r with sb := r.sb.modify b.val (· - 1) }
        let s := s.modWarp a.warp (fun x => { x with regs := down r })
        let s := s.reread a.warp a.dregs n
        match s.checkpoints.find? (fun c => c.warp == a.warp && n < c.accs) with
        | none => s
        | some c =>
          let (s, r) := s.keepClobbered c.regs a (write c.regs)
          { s with checkpoints := s.checkpoints.map (fun c => if c.warp == a.warp then { c with regs := down r } else c) }

/-! ### Acceptance after issue (R185, R204, R210) -/

/-- What an accepted access counts and sets: the items it stages (R351), and HIT of bounds entries (R355). -/
def State.accepted (s : State) (n : Nat) (a : Access) : State :=
  let s := (s.setHits a.warp a.hits).bump (s.ctxIx a.warp) evTicketWait a.tickets (some a.warp)
  s.modAcc n (fun a => { a with hits := [], tickets := 0 })

/-- An access its warp waits for has been accepted: its destinations are made ready, and the instruction is done (R186). -/
def State.acceptHeld (s : State) (n : Nat) : State :=
  match s.accs[n]? with
  | none => s
  | some a =>
    let s := s.accepted n a
    match s.warp? a.warp with
    | none => s
    | some x =>
      match x.pending with
      | none => s
      | some f =>
        if x.hold != .accept n then s
        else
          match a.groups with
          | [[.s _]] | [] => s.complete a.warp f
          | gs =>
            match prepAll gs a.mask x.regs with
            | .error _ => s.complete a.warp f
            | .ok (lr, slots) =>
              let s := s.modAcc n (fun a => { a with slots := slots })
              let s := s.modWarp a.warp (fun x => { x with regs := lr.regs })
              let s := (s.bump (s.ctxIx a.warp) evLaneMove lr.lanemove (some a.warp)).bump (s.ctxIx a.warp) evAutoFire lr.autofire (some a.warp)
              s.complete a.warp { f with extra := lr.extra }

/-- An access that its warp waits for traps instead (R85): nothing more of it is performed. -/
def State.trapHeld (s : State) (n : Nat) (t : TrapInfo) : State :=
  match s.accs[n]? with
  | none => s
  | some a => (s.modAcc n Access.discard).trapHere a.warp t

/-- The wait that a counter operation of a warp ends in (R232, R233): the wait ends at once, or it is kept for the end of the clause. -/
def State.startWait (s : State) (n : Nat) (c : CtrWait) (v : DWord) (dropped : Bool) : State :=
  match s.accs[n]? with
  | none => s
  | some a =>
    let s := if dropped then s.endWait a.warp c true
      else if ctrReached v c.target then s.endWait a.warp c (ctrErr v || ctrRetired v)
      else s.modWarp a.warp (fun x => { x with pendWait := x.pendWait ++ [c] })
    match (s.warp? a.warp).map Warp.hold with
    | some (.arrive m) => if m = n then s.resumeHold a.warp else s
    | _ => s

/-! ### One request -/

/-- An access whose bytes are poisoned consumes the poison (R430); prefetches, maintenance, stores and counter operations do not. -/
def AccOp.consumes (o : AccOp) : Bool := o.isRead || o.isAtomic || (o.isLc && o != .lcinit)

/-- Perform a load, store, LC read, packet read or line operation (R187, R197 to R199, R381). -/
def State.performPlain (s : State) (n i : Nat) : State :=
  match s.accs[n]?, (s.accs[n]?).bind (fun a => a.reqs[i]?) with
  | some a, some r =>
    let w := a.warp
    let cl := s.clusterOf w
    let core := ((s.warp? w).map Warp.core).getD 0
    let near := scopeNear a.scope
    let bytes := (List.range r.size).map (fun j => { r.loc with addr := r.loc.addr + j })
    let foreign := a.op.isRead && s.foreign a.block r.loc r.va
    if a.op.consumes && bytes.any (if foreign then s.detPoisoned cl core else s.poisoned cl core near) then s.eccKill w
    else
      match a.op with
      | .store =>
        let s := (s.storeAt w cl core near a.hint r.loc r.size r.data).reqDone n i 0 false
        let done := ((s.accs[n]?).map (fun a => (a.reqs.filter Req.done).map (fun q => (q.loc, q.size)))).getD []
        if s.poisoned cl core near r.loc && coversLine done r.loc then s.clearPoison cl core near r.loc else s
      | .load | .loadRec _ | .lcrd | .lcrdRaw =>
        let seen : Bool := match r.loc.place with
          | .glob k => near && (List.range r.size).any (fun j =>
              ((findLine (s.core cl core).l1 k (r.loc.addr / 128)).map (fun l => (l.byte ((r.loc.addr + j) % 128)).st == .pending)).getD false)
          | .nc | .lcm _ | .scr _ _ | .peer _ => false
        let s := if foreign then
            match r.loc.place with
            | .glob k => (s.llcFill k (r.loc.addr / 128) a.hint).pullAt r.loc
            | .nc | .lcm _ | .scr _ _ | .peer _ => s.pullAt r.loc
          else
            let s := s.settleRmw n cl a r
            match r.loc.place with
            | .glob k => if near then s.nearOpen w cl core k (r.loc.addr / 128) a.hint false else s.llcFill k (r.loc.addr / 128) a.hint
            | .nc | .lcm _ | .scr _ _ | .peer _ => s.pullAt r.loc
        let v := s.readReq n a r
        let s := if seen then s.modWarp w (fun x => x.observe core (s.asid (s.ctxIx w)) (r.loc.addr / 128)) else s
        s.reqDone n i v false
      | .launch _ =>
        let s := s.releaseLate w .device
        a.reqs.zipIdx.foldl (fun s (r, i) =>
          let s := s.readFill w cl core near r.loc a.hint
          s.reqDone n i (s.readReq n a r) false) s
      | .prefetch =>
        (s.prefetch w a.scope a.hint r.va false).reqDone n i 0 false
      | .cdemote =>
        let k := s.asid (s.ctxIx w)
        let ln := r.loc.addr / 128
        let lower := fun (l : Line) => if l.cls == 2 then { l with cls := 0 } else l
        let s := s.modCC cl (fun ls => modLine ls k ln lower)
        let s : State := { s with
          cores := s.cores.map (fun c => if c.cluster == cl then { c with l1 := modLine c.l1 k ln lower } else c)
          llc := modLine s.llc k ln lower }
        s.reqDone n i 0 false
      | .cflush | .cinv =>
        let k := s.asid (s.ctxIx w)
        let ln := r.loc.addr / 128
        let (s, ok) := s.flushLine cl k ln
        if !ok then s.trapHeld n { code := codeWback, mask := a.mask, addr := BitVec.ofNat 64 (128 * ln) }
        else
          let (s, ok) := if a.scope == .system then s.llcClean k ln else (s, true)
          if !ok then s.trapHeld n { code := codeWback, mask := a.mask, addr := BitVec.ofNat 64 (128 * ln) }
          else
            let s := if a.op == .cinv then s.invalLine cl k ln else s
            let s : State := if a.op == .cinv && a.scope == .system then { s with llc := dropLine s.llc k ln } else s
            let s := s.reqDone n i 0 false
            if ((s.accs[n]?).map (fun a => a.reqs.all Req.done)).getD false then s.acceptHeld n else s
      | _ => s
  | _, _ => s

/-- The result of a LAUNCH once its packet has been read (R226, R324): 0 queued, 1 full, 2 no queue. A context that is gone has none. -/
def State.submit (s : State) (ctx q : Nat) (pkt : List Byte) (addr : DWord) : Nat × State :=
  match ((s.ctxs[ctx]?).filter Ctx.live).bind (fun c => c.queues[q]?) with
  | none => (2, s)
  | some d =>
    if !d.valid then (2, s)
    else if 2 ^ d.logDepth ≤ d.pkts.length then (1, s)
    else (0, s.modCtx ctx (fun c => { c with queues := c.queues.modify q (fun d =>
      { d with pkts := d.pkts ++ [{ bytes := pkt, addr := addr, accepted := false, launch := none }] }) }))

/-- The key of a base register's SAT bit among the bits set at a clk. -/
def satKey (ctx i : Nat) : Nat := 8 * ctx + i

/-- Saturation of a level under the stick policy (R210, R321). -/
def State.lcStick (s : State) (a : Access) (asid va : Nat) : State :=
  let (b, n) := s.lcOf asid va
  let c := s.ctxIx a.warp
  let s := (s.setLevel asid va (lcMax b)).bump c evLcSat 1 (some a.warp)
  let s := s.modCtx c (fun x => { x with lcbase := x.lcbase.modify n (· ||| 0x10000#64) })
  let s : State := { s with justSet := satKey c n :: s.justSet }
  if lcTrap b && s.detOf a.block then
    match s.blocks[a.block]? with
    | none => s
    | some k =>
      let s := s.modLaunch k.launch (fun l => { l with failed := true })
      s.logEntry c .queue (5 * 2 ^ 48 + ((s.launches[k.launch]?).map Launch.queue).getD 0 * 2 ^ 36)
        [BitVec.ofNat 64 (s.launchNo a.warp), BitVec.ofNat 64 k.ix, s.time]
  else s

/-- What a reserved request reports where it would saturate (R210): under the stick policy, which every deterministic launch has (R321), or under
the trap policy, by the POLICY that it met at its home (R282). -/
def lcSaturates (det : Bool) (b : DWord) : Nat := if lcTrap b && !det then 257 else 256

/-- An access that writes levels waits at its warp's instruction for its outcome (R210). -/
def State.lcHeld (s : State) (n : Nat) (a : Access) : Bool :=
  a.op != .lcinit && ((s.warp? a.warp).map (fun x => x.hold == .accept n)).getD false

/-- An LC request that writes (R206, R207, R209, R210). One of an instruction that is not accepted yet only reserves its counter: it keeps
the level it would leave. An accepted one takes effect, and saturates as under the stick policy whatever POLICY has become (log 92). -/
def State.performLc (s : State) (n i : Nat) (a : Access) (r : Req) : State :=
  match r.loc.place with
  | .lcm k =>
    let va := r.loc.addr
    let b := (s.lcOf k va).1
    let held := s.lcHeld n a
    let mine := if held then (a.reqs.take i).reverse.find? (fun q => q.done && q.loc == r.loc) else none
    let l := (mine.map (fun q => q.res.toNat)).getD (s.levelAt k va)
    let out := lcOutcome a.op b (min l (lcMax b)) r.data r.cmp
    if held then s.reqDone n i (BitVec.ofNat 64 (out.getD (lcSaturates (s.detOf a.block) b))) false
    else
      let s := match out with
        | some v => s.setLevel k va v
        | none => s.lcStick a k va
      s.reqDone n i 0 false
  | .glob _ | .nc | .scr _ _ | .peer _ => s

/-- The requests of an LC instruction to this module that would saturate under the trap policy (R210). -/
def Access.lcTraps (a : Access) : Mask :=
  maskOf (fun t => a.reqs.any (fun r => r.done && r.thread == t && !isPeer r.loc.place && r.res.toNat == 257))

/-- The reserved requests of an LC instruction commit in order (R210); those that the ticket unit keeps take effect at their release. -/
def State.lcCommit (s : State) (a : Access) : State :=
  (a.reqs.filter Req.done).foldl (fun s r =>
    match r.loc.place with
    | .lcm k => if r.res.toNat < 256 then s.setLevel k r.loc.addr r.res.toNat else s.lcStick a k r.loc.addr
    | .glob _ | .nc | .scr _ _ | .peer _ => s) s

/-- Every request of an access to this module has been performed, has reserved its counter, or is kept by the ticket unit. -/
def State.ownDone (s : State) (a : Access) : Bool := a.reqs.all (fun r => r.done || isPeer r.loc.place || s.parked a r)

/-- The second phase of R210: when every request of a held LC instruction to this module has reserved its counter, the instruction traps with the
threads that would saturate; without any, all commit once the peers that it names have answered too (R204). The draws of one that traps stay
(log 15). -/
def State.settleLc (s : State) (n : Nat) : State :=
  match s.accs[n]? with
  | none => s
  | some a =>
    let held := ((s.warp? a.warp).map (fun x => x.hold == .accept n)).getD false
    if !held || !a.op.isLc || !s.ownDone a then s
    else
      let sat := a.lcTraps
      if sat != 0 then
        s.trapHeld n { code := codeLcm, mask := sat, reason := 2, lowv := true, lowest := lowestOf sat
                       addr := ((a.reqs.find? (fun r => r.thread == lowestOf sat)).map Req.va).getD 0 }
      else if !a.reqs.all (fun r => r.done || s.parked a r) then s
      else
        let s := if s.lcHeld n a && a.op.writes then s.lcCommit a else s
        s.acceptHeld n

/-- Perform an atomic, LC or counter request (R202, R228). -/
def State.performRmw (s : State) (n i : Nat) : State :=
  match s.accs[n]?, (s.accs[n]?).bind (fun a => a.reqs[i]?) with
  | some a, some r =>
    let w := a.warp
    let cl := s.clusterOf w
    let core := ((s.warp? w).map Warp.core).getD 0
    let near := scopeNear a.scope && a.op.isAtomic
    let bytes := (List.range r.size).map (fun j => { r.loc with addr := r.loc.addr + j })
    if a.op.consumes && bytes.any (s.poisoned cl core near) then s.eccKill w
    else if a.op.isCtr then
      let s := if semRel a.sem then s.releaseLate w (ctrScope a.scope r.va) else s
      let (v, dropped, s) := s.ctrPerform (some cl) a.op r.loc r.data
      let s := s.reqDone n i v dropped
      let s := if dropped then s.copyEntry w a.opc dropReason 0 0 r.va [] else s
      let s := if semAcq a.sem && a.wait.isNone then s.acquire w (ctrScope a.scope r.va) else s
      match a.wait with
      | none => s
      | some c => s.startWait n { c with target := arvTarget (ctrValue v) c.target } (s.ctrWordAt r.loc) dropped
    else if a.op.isLc then (s.performLc n i a r).settleLc n
    else
      let s := match r.loc.place with
        | .glob k => if near then s.nearOpen w cl core k (r.loc.addr / 128) a.hint false else s
        | .nc | .lcm _ | .scr _ _ | .peer _ => s
      let (old, s) := s.rmwAt cl core near a.hint r.loc r.size (fun o => rmwValue a.op a.ty o r.data r.cmp)
      s.reqDone n i (loadForm a.ty old) false
  | _, _ => s

/-- The last request of a LAUNCH has been read: the packet is queued (R226). -/
def State.settleLaunch (s : State) (n : Nat) : State :=
  match s.accs[n]? with
  | none => s
  | some a =>
    match a.op with
    | .launch q =>
      if !a.reqs.all Req.done then s
      else
        let pkt := a.reqs.flatMap (fun r => leBytes 8 r.res.toNat)
        let (k, s) := s.submit (s.ctxIx a.warp) q.val pkt ((a.reqs.head?.map Req.va).getD 0)
        s.modAcc n (fun a => { a with reqs := a.reqs.modify 0 (fun r => { r with res := BitVec.ofNat 64 k }) })
    | _ => s

end Sys2Proof.Machine
end

