-- ==== Sys2Proof/Machine/AccessEvents.lean ====
section
/-! DEFINITION. The events of accesses: requests performed, results written, lines granted and filled, fences completed, and the ticket
unit's releases. An event whose condition does not hold does not occur: the state stays (log 1). -/
namespace Sys2Proof.Machine

/-- An event that occurs where its condition holds. -/
def when_ (c : Bool) (t s : State) : Host.Outcome State Fault Refusal := .next (if c then t else s)

/-- An ATOM or ATOMCAS that NEXT has reached releases its warp's earlier staged writes to its line first (R352). -/
def State.releaseBefore (s : State) (n i : Nat) : State :=
  match s.accs[n]?, (s.accs[n]?).bind (fun a => a.reqs[i]?) with
  | some a, some r =>
    if a.op.isAtomic && !a.dregs.isEmpty && s.stages a.block a.op r.loc r.va && s.nextReached a.block then
      (s.stagedReqs a.block).foldl (fun s k =>
        match s.accs[k.1]?, (s.accs[k.1]?).bind (fun b => b.reqs[k.2]?) with
        | some b, some q =>
          if b.warp == a.warp && k.1 < n && q.loc.place == r.loc.place && q.loc.addr / 128 == r.loc.addr / 128 && !b.op.isLc then
            (s.stagedWrite k.1 k.2).reqDone k.1 k.2 0 false
          else s
        | _, _ => s) s
    else s
  | _, _ => s

/-- REQUEST_PERFORM (R201, R202, R205, R228): an atomic, LC or counter request takes its place in the single order. -/
def execRequestPerform (n i : Nat) (s : State) : Host.Outcome State Fault Refusal :=
  match s.accs[n]?, (s.accs[n]?).bind (fun a => a.reqs[i]?) with
  | some a, some r =>
    if !(a.op.isAtomic || a.op.isCtr || (a.op.isLc && !a.op.isRead)) || s.ticketHolds a r then .next s
    else
      let s' := s.releaseBefore n i
      when_ (s'.mayPerform n i) (s'.performRmw n i) s
  | _, _ => .next s

/-- The write-back of an evicted line (R302): from an L1 into its cluster cache, or, of core 8, from the cluster cache to its home, but for a time in which a
restack has stopped injection (R413). A refused one keeps the line held (R303). -/
def State.evict (s : State) (cl core asid vline : Nat) : State :=
  if core < 8 then
    match (findLine (s.core cl core).l1 asid vline).filter (fun l => !l.pending && !l.held) with
    | none => s
    | some l => s.l1Evict cl core l
  else if s.drainShelf then s
  else
    match (findLine (s.ccLines cl) asid vline).filter (fun l => !l.held && !(s.l1Copies cl asid vline).any Line.pending) with
    | none => s
    | some l => s.ccEvict cl l

/-- A request of an instruction is performed, where nothing holds it back. -/
def State.performRef (s : State) (n i : Nat) : State :=
  match s.accs[n]?, (s.accs[n]?).bind (fun a => a.reqs[i]?) with
  | some a, some r =>
    if (a.op.isRead || a.op == .store || a.op.isLine) && !s.ticketHolds a r && s.mayPerform n i then
      ((s.performPlain n i).settleLaunch n).settleLc n
    else s
  | _, _ => s

/-- RESULT_WRITEBACK (R82, R186, R276): the result of an access is written, or the last source register of one without a result is
read. -/
def execResultWriteback (n : Nat) (s : State) : Host.Outcome State Fault Refusal :=
  match s.accs[n]? with
  | none => .next s
  | some a =>
    let held := ((s.warp? a.warp).map (fun x => x.hold == .accept n)).getD false
    when_ (!a.wb && !held && a.op != .fenceop && (a.dregs.isEmpty || a.reqs.all Req.done)) (s.writeBack n) s

/-- OWNERSHIP_GRANT (R301): a core's pending bytes of a line are laid over it. The request carries the class that the line has in the L1 (R188,
log 107). -/
def execOwnershipGrant (cl core asid vline : Nat) (s : State) : Host.Outcome State Fault Refusal :=
  if s.pendingAt cl core asid vline then
    let s' := s.grant cl core asid vline (classHint (((findLine (s.core cl core).l1 asid vline).map Line.cls).getD 0))
    if s'.pendingAt cl core asid vline then .next s
    else .next { s' with warps := s'.warps.zipIdx.map (fun (x, i) =>
      if s'.clusterOf i == cl then { x with observed := x.observed.filter (fun o => o != (core, asid, vline)) } else x) }
  else .next s

/-- A request that may be performed and reads or writes the line through a core's L1, or at its home: its warp, and its hint. -/
def State.wanted (s : State) (cl core asid vline : Nat) (near : Bool) : Option (Nat × Hint) :=
  (s.accs.zipIdx.find? (fun (a, n) =>
    s.clusterOf a.warp == cl && ((s.warp? a.warp).map Warp.core).getD 0 == core && (!near || scopeNear a.scope) &&
      a.reqs.zipIdx.any (fun (r, i) => r.loc.place == .glob asid && r.loc.addr / 128 == vline && s.mayPerform n i))).map
    (fun (a, _) => (a.warp, a.hint))

/-- LINE_FILL (R188, R297 to R299): the answer to a request that missed fills the line into a cache, with the request's hint. A line that it
names as victim is evicted for it, and others where room is still wanted. -/
def execLineFill (lvl : CacheLevel) (cl core asid vline : Nat) (victim : Option (Nat × Nat)) (s : State) :
    Host.Outcome State Fault Refusal :=
  match s.wanted cl core asid vline (lvl != .llc) with
  | none => .next s
  | some (w, h) =>
    let out := fun (k : Nat) => match victim with
      | some v => s.evict cl k v.1 v.2
      | none => s
    match lvl with
    | .l1 => when_ (!s.inL1 cl core asid vline) ((out core).nearOpen w cl core asid vline h false) s
    | .cc => when_ (findLine (s.ccLines cl) asid vline).isNone ((out 8).ccFill cl asid vline h) s
    | .llc =>
      when_ ((findLine s.llc asid vline).isNone && (s.physOf asid (128 * vline)).all (fun p => (s.channelShelf p).isSome)) (s.llcFill asid vline h) s

/-! ### Fences (R211, R212) -/

/-- The mode of a fence releases. -/
def fenceRel (m : FenceMode) : Bool := m == .rel || m == .ar
/-- The mode of a fence acquires. -/
def fenceAcq (m : FenceMode) : Bool := m == .acq || m == .ar

/-- The reads and RMWs of a warp have returned their values (R211). -/
def State.readsDone (s : State) (w : Nat) : Bool :=
  s.accs.all (fun a => a.warp != w || !(a.op.isRead || a.op.isRmw) || a.reqs.all (fun r => r.done || s.parked a r))

/-- What a fence waits for holds. -/
def State.fenceMet (s : State) (w : Nat) (sc : Scope) (m : FenceMode) : Bool :=
  (!fenceRel m || s.performedAt w s.accs.length sc) && (!fenceAcq m || s.readsDone w)

/-- The threads the instruction of a held warp acts on (R67). -/
def Warp.acting (x : Warp) : Mask :=
  match x.clause, x.pending with
  | some c, some f => c.iset &&& (predMask x.regs f.head.pred.val ^^^ (if f.head.pneg then fullMask else 0))
  | _, _ => 0

/-- FENCE_COMPLETE (R211, R212, R214): the fence a warp stands at completes, or traps WBACK; else its first open FENCEOP completes. Its write-backs
to the homes wait while a restack stops injection (R413). -/
def execFenceComplete (w : Nat) (s : State) : Host.Outcome State Fault Refusal :=
  match s.warp? w with
  | none => .next s
  | some x =>
    match x.hold, x.pending with
    | .fence sc m, some f =>
      if !s.fenceMet w sc m || (fenceRel m && scopeWide sc && s.drainShelf) then .next s
      else
        let (s, bad) := if fenceRel m then s.release w sc else (s, none)
        match bad with
        | some ln => .next (s.trapHere w { code := codeWback, mask := x.acting, addr := BitVec.ofNat 64 (128 * ln) })
        | none => .next ((if fenceAcq m then s.acquire w sc else s).complete w f)
    | _, _ =>
      match s.accs.zipIdx.find? (fun (a, _) => a.warp == w && a.op == .fenceop && !a.wb) with
      | none => .next s
      | some (_, n) =>
        let stores := (s.accs.take n).all (fun a => a.warp != w || a.op != .store || a.reqs.all (fun r => r.done || s.parked a r))
        when_ (stores && s.allGranted w) (s.modAcc n (fun a => { a with wb := true })) s

/-! ### The ends of blocks and the ticket unit (R220, R351 to R353) -/

/-- A copy has not ended. -/
def Copy.live (c : Copy) : Bool := c.state == .queued || c.state == .running

/-- A block has ended (R220): its warps have ended, what they issued has been performed but for what the ticket unit keeps, their lines
are granted, and their copies and MMAs have ended. -/
def State.blockEnded (s : State) (b : Nat) : Bool :=
  match s.blocks[b]? with
  | none => false
  | some x =>
    !x.finished && (s.warpsOf b).all (fun w =>
      ((s.warp? w).map (fun y => y.state == .ended)).getD true && s.allGranted w) &&
    s.accs.all (fun a => a.block != b || a.op == .fenceop || a.reqs.all (fun r => r.done || s.parked a r)) &&
    s.copies.all (fun c => ((s.warp? c.warp).map (fun y => y.block == b)).getD false == false || !c.live) &&
    s.cores.all (fun k => k.mmaq.all (fun m => ((s.warp? m.warp).map (fun y => y.block == b)).getD false == false))

/-- Release every staged item of a block in order (R351, R319). -/
def State.releaseStaged (s : State) (b : Nat) : State :=
  (s.stagedReqs b).foldl (fun s k =>
    match s.accs[k.1]?, (s.accs[k.1]?).bind (fun a => a.reqs[k.2]?) with
    | some a, some r => if a.op.isLc then s.performLc k.1 k.2 a r else (s.stagedWrite k.1 k.2).reqDone k.1 k.2 0 false
    | _, _ => s) s

/-- The lines of a context that a cluster's caches hold dirty go home (R386); a refused one stays dirty (R303), and the answer names it. -/
def State.performDevice (s : State) (b : Nat) : State × Option Nat :=
  let cl := s.clusterOfBlock b
  let a := s.asid (((s.launchOfBlock b).map Launch.ctx).getD 0)
  flushAll cl a (s.dirtyLines cl a) s

/-- A warp of a block waits for room among the staged lines (R353). -/
def State.stageWait (s : State) (b : Nat) : Bool :=
  (s.warpsOf b).any (fun w => ((s.warp? w).map (fun x => x.hold == .issue .stage)).getD false)

/-- The slices that wait in a block's collectors when it ends fail as orphans (R243): each counter they name receives one update with
ERR, and each slice its log entry. -/
def State.orphans (s : State) (b : Nat) : State :=
  (((s.blocks[b]?).map Block.slices).getD []).foldl (fun s y =>
    match s.copies[y.copy]? with
    | none => s
    | some c =>
      let ctrs := [c.desc.getD 4 0, c.desc.getD 5 0].filter (fun a => a != 0)
      let s := ctrs.foldl (fun s a => s.engineAdd c.warp 0xB1 a (errInc 0) c.desc) s
      (s.copyEntry c.warp 0xB1 0x42 0 0 0 c.desc).modCopy y.copy (fun c => { c with state := .failed })) s

/-- The counters that the slices left in a block's collectors name can be reached, or never will be (R247). -/
def State.orphansReady (s : State) (b : Nat) : Bool :=
  (((s.blocks[b]?).map Block.slices).getD []).all (fun y =>
    match s.copies[y.copy]? with
    | none => true
    | some c => s.ctrReady c.warp (c.desc.getD 4 0) && s.ctrReady c.warp (c.desc.getD 5 0))

/-- BLOCK_FINISH (R220, R32, R386): the block's writes are performed at DEVICE scope, its scratch and claims are released, and its launch
ends with its last block. It waits for the page of a counter that an orphan names (R247), and while a write-back is refused. -/
def execBlockFinish (b : Nat) (s : State) : Host.Outcome State Fault Refusal :=
  match s.blocks[b]? with
  | none => .next s
  | some x =>
    let det := s.detOf b
    let passed := ((s.launches[x.launch]?).map (fun l => decide (x.ix < l.next))).getD true
    if !s.blockEnded b || (det && !passed) || !s.orphansReady b then .next s
    else
      let (s, bad) := s.performDevice b
      if bad.isSome then .next s else
      let s := s.orphans b
      let s := ((s.releaseScratch b).splitPools b).releaseClaims b
      let s := s.modBlock b (fun x => { x with finished := true, slices := [] })
      .next ((s.modLaunch x.launch (fun l => { l with blocksDone := l.blocksDone + 1 })).launchCheck x.launch)

end Sys2Proof.Machine
end

