-- ==== Sys2Proof/Machine/Keccak.lean ====
section
/-! DEFINITION. The first 136 bytes of SHAKE256 of a message, which R31, R439 and R441 take from FIPS 202. Nothing here is
a table: the round constants come out of the standard's shift register and the rotations out of its walk over the lanes. -/
namespace Sys2Proof.Machine

/-- The 1,600 bits as five sheets of five lanes: `sponge[x][y]` is the standard's lane A[x, y]. -/
abbrev Sponge := List (List DWord)

/-- A lane, its coordinates taken modulo 5. -/
def spongeLane (a : Sponge) (x y : Nat) : DWord := (a.getD (x % 5) []).getD (y % 5) 0

/-- The sponge whose lane (x, y) is `f x y`. -/
def spongeOf (f : Nat → Nat → DWord) : Sponge := (List.range 5).map (fun x => (List.range 5).map (f x))

/-- One clock of the standard's register rc: x^8 + x^6 + x^5 + x^4 + 1, the output being bit 0. -/
def roundBit (r : Byte) : Byte := if r.msb then (r <<< 1) ^^^ 0x71 else r <<< 1

/-- Seven clocks of the register give bits 0, 1, 3, 7, 15, 31, 63 of one round constant; `j` of them are left, and the bit
taken next is 2^(7-j) - 1. -/
def roundBits : Nat → Byte → DWord → DWord × Byte
  | 0, r, rc => (rc, r)
  | j + 1, r, rc => roundBits j (roundBit r) (if r.getLsbD 0 then rc ||| BitVec.twoPow 64 (2 ^ (6 - j) - 1) else rc)

/-- How far ρ turns lane (x, y): the walk (1, 0), (x, y) ↦ (y, 2x + 3y) reaches it after t steps, and it turns by
(t+1)(t+2)/2. The walk never reaches lane (0, 0), which stays. -/
def turnOf (x y : Nat) : Nat → Nat → Nat → Nat
  | 0, _, _ => 0
  | n + 1, u, v => if u = x ∧ v = y then (24 - n) * (25 - n) / 2 % 64 else turnOf x y n v ((2 * u + 3 * v) % 5)

/-- θ, ρ and π: the lane that arrives at (x, y) comes from (x + 3y, x), mixed with the parities of its neighbour sheets. -/
def spongeLinear (a : Sponge) : Sponge :=
  let parity := a.map (fun sheet => sheet.foldl (· ^^^ ·) 0)
  let col := fun x => parity.getD (x % 5) 0
  spongeOf (fun x y =>
    let u := (x + 3 * y) % 5
    (spongeLane a u x ^^^ col (u + 4) ^^^ (col (u + 1)).rotateLeft 1).rotateLeft (turnOf u x 24 1 0))

/-- χ, and ι with its constant at lane (0, 0). -/
def spongeMix (a : Sponge) (rc : DWord) : Sponge :=
  spongeOf (fun x y =>
    let v := spongeLane a x y ^^^ (spongeLane a (x + 2) y &&& ~~~(spongeLane a (x + 1) y))
    if x + y = 0 then v ^^^ rc else v)

/-- The rounds of the permutation that are left, with the register that makes their constants. -/
def permute : Nat → Byte → Sponge → Sponge
  | 0, _, a => a
  | n + 1, r, a => let c := roundBits 7 r 0; permute n c.2 (spongeMix (spongeLinear a) c.1)

/-- XOR byte k of the rate into the sponge: bytes fill lane (x, y) at 8 · (x + 5y), low byte first. -/
def spongeXor (a : Sponge) (k : Nat) (b : Byte) : Sponge :=
  a.modify (k / 8 % 5) (·.modify (k / 40) (· ^^^ (b.setWidth 64 <<< (8 * (k % 8)))))

/-- Absorb a message from byte k of a block on, 136 bytes a block, close it with 1111 and 10*1, and permute. -/
def absorb : List Byte → Nat → Sponge → Sponge
  | [], k, a => permute 24 1 (spongeXor (spongeXor a k 0x1F) 135 0x80)
  | b :: m, k, a => if k = 135 then absorb m 0 (permute 24 1 (spongeXor a k b)) else absorb m (k + 1) (spongeXor a k b)

/-- The first n bytes, at most 136, of SHAKE256 of a message. -/
def shake256 (m : List Byte) (n : Nat) : List Byte :=
  let a := absorb m 0 (spongeOf (fun _ _ => 0))
  (List.range (min n 136)).map (fun k => (spongeLane a (k / 8 % 5) (k / 40)).extractLsb' (8 * (k % 8)) 8)

end Sys2Proof.Machine
end

