-- ==== Sys2Proof/Machine/LaneInstr.lean ====
section
/-! DEFINITION. The lane instructions (R163 to R180): map edits, transposition, selection, firing, map reads, warp queries, reductions
and scans, sorting, top-k and binning. -/
namespace Sys2Proof.Machine

/-- What issue judges of a lane instruction, of class VEC (R94): a V or O destination with a latency, operands, and other reads. -/
def laneNeed (h : Head) (lat : Nat) (writes : List Reg) (xs : List (Ty × Opnd)) (more : List Reg := []) : Need :=
  { head := h, cls := some 0, reads := readRegs xs ++ more, ls := readLs xs, writes := writes, lat := some lat }

/-- Several writes one after another (R166: their sources have been read before). -/
def seqWrites : List (Regs → Except Mask LaneRes) → Regs → Except Mask LaneRes
  | [], r => .ok { regs := r }
  | f :: fs, r =>
    match f r with
    | .error m => .error m
    | .ok a =>
      match seqWrites fs a.regs with
      | .error m => .error m
      | .ok b => .ok { regs := b.regs, extra := a.extra + b.extra, lanemove := a.lanemove + b.lanemove
                       autofire := a.autofire + b.autofire }

/-- Write all slots of a register, then its map (R42, R169). -/
def wholeWrite (d : Reg) (slots : List Word) (m : LMap) (byRef : Option (BitVec 16)) (r : Regs) : Except Mask LaneRes :=
  writeMap (r.setVreg d { r.vreg d with slots := slots }) [d] m byRef

/-- Write a result with no mapped source (R130): IDENT on a full warp, anchored under R52 on a partial one. -/
def plainWrite (ds : List Reg) (act : Mask) (res : Nat → Option DWord) (r : Regs) : Except Mask LaneRes :=
  match ds with
  | [] => .ok { regs := r }
  | _ :: _ => writeAt r ds act (anchorOf r ds act []) res

/-- Words written in slots 0 to 31 with tag IDENT (R177, R179, R180). -/
def identWrite (d : Reg) (f : Nat → Word) : Regs → Except Mask LaneRes := wholeWrite d (threads.map f) .ident (some 0)

/-- The register of a V or O operand. -/
def regOf (x : Opnd) : Reg := (opndReg? x).getD (.v 0)

/-! ### Pattern edits and VSHUF (R42 to R44, R167, R168) -/

/-- Give each thread the element of the thread p names (R42, R43), by the tag the pattern's class composes to where it has one (R44). -/
def remap (e : Env) (n : Need) (d : Opnd) (v : View) (p : Nat → Option Nat) (pt : Option (BitVec 16)) : Res :=
  if e.act == fullMask then
    let m : LMap := .ofFn (fun t => (p t).bind v.map.at)
    let byRef := match pt, v.tag with
      | some q, some t => composeTag t q
      | _, _ => none
    e.lanes n (wholeWrite (regOf d) v.slots m byRef e.regs)
  else
    e.lanes n ((plainWrite [regOf d] e.act (fun t => ((p t).bind v.elem).map (fun x => x.setWidth 64)) e.regs).map
      (fun l => { l with lanemove := l.lanemove + 1 })) 1

/-- A pattern edit (R167). -/
def patEdit (h : Head) (cls g k : Nat) (d a : Opnd) (s : State) : Host.Outcome State Fault Refusal :=
  let n := laneNeed h 2 [regOf d] [(.n32, a)]
  issue n (fun e => remap e n d (e.view a) (fun t => some (patAt cls g k t)) (some (canonPat cls g k))) s

/-- VXOR (R167). -/
def execVxor (h : Head) (d a : Opnd) (k : Fin 32) (s : State) : Host.Outcome State Fault Refusal := patEdit h 1 5 k.val d a s
/-- VROT (R167). -/
def execVrot (h : Head) (g : Fin 8) (d a : Opnd) (k : Fin 32) (s : State) : Host.Outcome State Fault Refusal :=
  patEdit h 2 g.val k.val d a s
/-- VREV (R167). -/
def execVrev (h : Head) (g : Fin 8) (d a : Opnd) (k : Fin 32) (s : State) : Host.Outcome State Fault Refusal :=
  patEdit h 4 g.val k.val d a s
/-- VBCAST (R167). -/
def execVbcast (h : Head) (g : Fin 8) (d a : Opnd) (k : Fin 32) (s : State) : Host.Outcome State Fault Refusal :=
  patEdit h 3 g.val k.val d a s

/-- VSHUF (R168): the index is read through its own map; no pattern class is recognised. -/
def execVshuf (h : Head) (d a b : Opnd) (s : State) : Host.Outcome State Fault Refusal :=
  let n := laneNeed h 2 [regOf d] [(.n32, a), (.n32, b)]
  issue n (fun e =>
    let ix := e.src .n32 b
    let p := fun (t : Nat) => (ix.at t).bind (fun v => let i := v.toNat % 2 ^ 32; if i < 32 then some i else none)
    remap e n d (e.view a) p none) s

/-! ### VTRN (R172) -/

/-- The consecutive registers from a V operand. -/
def vRun (x : Opnd) (n : Nat) : List Reg := (List.range n).map (fun i => Reg.v (x.vnum + i))

/-- The slots of row i of the groups of n threads are distinct over the registers (R172). -/
def laneLocal (maps : List LMap) (n : Nat) : Bool :=
  threads.all (fun u =>
    let xs := maps.filterMap (fun m => m.at u)
    decide xs.Nodup && n ≤ 8)

/-- VTRN (R172). -/
def execVtrn (h : Head) (g : Fin 8) (d a : Opnd) (s : State) : Host.Outcome State Fault Refusal :=
  let n := 2 ^ g.val
  let as := vRun a n
  let ds := vRun d n
  let nd : Need := { head := h, cls := some 0, reads := as, writes := ds, lat := some 2 }
  issue nd (fun e =>
    let maps := as.map e.regs.map
    let slots := as.map (fun x => (e.regs.vreg x).slots)
    let tags := as.map (fun x => (e.regs.vreg x).tag)
    let grp := fun (t : Nat) => t - t % n
    if e.act == fullMask && laneLocal maps n then
      let skew := tags.zipIdx.all (fun (t, j) => t == canonPat 2 g.val j)
      e.lanes nd (seqWrites (ds.zipIdx.map (fun (dst, i) => fun r =>
        let m : LMap := .ofFn (fun t => (maps.getD (t % n) .void).at (grp t + i))
        let r := threads.foldl (fun r t =>
          match m.at t with
          | some p => writeSlot r [dst] p.val (((slots.getD (t % n) []).getD p.val 0).setWidth 64)
          | none => r) r
        writeMap r [dst] m (if skew then some (canonPat 2 g.val i) else none))) e.regs)
    else
      let elem := fun (j t : Nat) => ((maps.getD j .void).at t).map (fun p => (slots.getD j []).getD p.val 0)
      let nd := { nd with lat := some 6 }
      e.lanes nd ((seqWrites (ds.zipIdx.map (fun (dst, i) =>
        plainWrite [dst] e.act (fun t => (elem (t % n) (grp t + i)).map (fun x => x.setWidth 64)))) e.regs).map
          (fun l => { l with lanemove := l.lanemove + n })) n) s

/-! ### Selection (R169, R170) -/

/-- The active threads a test selects, ascending. -/
def selThreads (act : Mask) (p : Nat → Bool) : List Nat := threads.filter (fun t => inMask act t && p t)

/-- The map that lists chosen threads' slots from thread 0 on, VOID beyond (R170, R177). -/
def selMap (m : LMap) (sel : List Nat) : LMap := .ofFn (fun i => (sel[i]?).bind m.at)

/-- VCOMPACT (R170). -/
def execVcompact (h : Head) (d a : Opnd) (ps : PredSpec) (sc : Option (Fin 64)) (s : State) :
    Host.Outcome State Fault Refusal :=
  let also := match sc with | some n => [(Reg.s n.val, 3)] | none => []
  let n := { laneNeed h 2 [regOf d] [(.n32, a)] (predReads ps) with also := also, whole := true }
  issue n (fun e =>
    let v := e.view a
    let sel := selThreads e.act (fun t => inMask (predSpec e.regs ps) t && (v.map.at t).isSome)
    let cnt := BitVec.ofNat 64 sel.length
    e.lanes n (seqWrites [wholeWrite (regOf d) v.slots (selMap v.map sel) none,
      fun r => .ok { regs := match sc with | some k => { r with s := r.s.set k.val cnt } | none => r }] e.regs)) s

/-- VEXPAND (R170). -/
def execVexpand (h : Head) (d a : Opnd) (ps : PredSpec) (s : State) : Host.Outcome State Fault Refusal :=
  let n := { laneNeed h 2 [regOf d] [(.n32, a)] (predReads ps) with whole := true }
  issue n (fun e =>
    let v := e.view a
    let sel := selThreads e.act (inMask (predSpec e.regs ps))
    e.lanes n (wholeWrite (regOf d) v.slots (.ofFn (fun t => (sel.idxOf? t).bind v.map.at)) none e.regs)) s

/-! ### Firing and map reads (R173, R174) -/

/-- Give a register the fired image of slots under a map (R173). -/
def fireInto (d : Reg) (slots : List Word) (m : LMap) (r : Regs) : Except Mask LaneRes :=
  (wholeWrite d (fireSlots slots m) (fireMap m) none r).map (fun l =>
    { l with extra := l.extra + fireCost m, lanemove := l.lanemove + (if fireMoves m = 0 then 0 else 1), autofire := 0 })

/-- VFIRE (R173). -/
def execVfire (h : Head) (d a : Opnd) (s : State) : Host.Outcome State Fault Refusal :=
  let n := { laneNeed h 6 [regOf d] [(.n32, a)] with whole := true }
  issue n (fun e => let v := e.view a; e.lanes n (fireInto (regOf d) v.slots v.map e.regs)) s

/-- VMAPRD (R174): map entries, or with an S destination the tag. -/
def execVmaprd (h : Head) (form : Bool) (d a : Opnd) (s : State) : Host.Outcome State Fault Refusal :=
  let n := laneNeed h (if form then 3 else 2) [regOf d] [(.n32, a)]
  issue n (fun e =>
    let v := e.view a
    match form, d with
    | true, .s k => e.putS n k.val (v.cls.setWidth 64)
    | _, _ => e.lanes n (plainWrite [regOf d] e.act (fun t => some (match v.map.at t with
        | some p => BitVec.ofNat 64 p.val
        | none => 32)) e.regs)) s

/-! ### Warp queries (R175) -/

/-- The S register of a destination. -/
def sNumOf : Opnd → Nat
  | .s n => n.val
  | .v _ | .c _ | .o _ | .l _ | .vz | .vtid | .vlane => 0

/-- VFIRST (R175). -/
def execVfirst (h : Head) (ty : Ty) (d a : Opnd) (s : State) : Host.Outcome State Fault Refusal :=
  let n := laneNeed h 3 [regOf d] [(ty, a)]
  issue n (fun e =>
    let t := lowestOf e.act
    match (e.lsrc ty a).at t with
    | some v => e.putS n (sNumOf d) v
    | none => .trap { code := codeVoidop, mask := maskOf (· == t) }) s

/-- VBALLOT (R175). -/
def execVballot (h : Head) (d : Opnd) (ps : PredSpec) (s : State) : Host.Outcome State Fault Refusal :=
  let n := laneNeed h 3 [regOf d] [] (predReads ps)
  issue n (fun e => e.putS n (sNumOf d) ((e.act &&& predSpec e.regs ps).setWidth 64)) s

/-- A query that writes one outcome to a predicate's active bits. -/
def voteAlu (h : Head) (pd : Fin 7) (ps : PredSpec) (f : Mask → Mask → Bool) (s : State) : Host.Outcome State Fault Refusal :=
  let n := laneNeed h 2 [.p pd.val] [] (predReads ps)
  issue n (fun e =>
    let hit := f (e.act &&& predSpec e.regs ps) e.act
    e.lanes n (.ok { regs := writePred e.regs pd.val e.act (fun _ => hit) })) s

/-- VANY (R175). -/
def execVany (h : Head) (pd : Fin 7) (ps : PredSpec) (s : State) : Host.Outcome State Fault Refusal :=
  voteAlu h pd ps (fun sel _ => sel != 0) s

/-- VALL (R175). -/
def execVall (h : Head) (pd : Fin 7) (ps : PredSpec) (s : State) : Host.Outcome State Fault Refusal :=
  voteAlu h pd ps (fun sel act => sel == act) s

/-- VMATCH (R175): equal elements, bit for bit at the type width. -/
def execVmatch (h : Head) (ty : Ty) (d a : Opnd) (s : State) : Host.Outcome State Fault Refusal :=
  let n := laneNeed h 6 [regOf d] [(ty, a)]
  issue n (fun e =>
    let x := e.lsrc ty a
    e.lanes n (laneCompute e.regs [regOf d] e.act [x] (fun t _ =>
      (maskOf (fun u => inMask e.act u && (x.at u).isSome && x.at u == x.at t)).setWidth 64))) s

/-- VACTIVE (R175). -/
def execVactive (h : Head) (d : Opnd) (s : State) : Host.Outcome State Fault Refusal :=
  let n := laneNeed h 3 [regOf d] []
  issue n (fun e => e.putS n (sNumOf d) (e.act.setWidth 64)) s

/-! ### Reductions and scans (R126 to R128, R176) -/

/-- One combination (R126). -/
def combine (ty : Ty) (op : RedOp) (a b : DWord) : DWord :=
  if ty.isInt then
    match op with
    | .add => iput ty (ival ty a + ival ty b)
    | .min => iput ty (min (ival ty a) (ival ty b))
    | .max => iput ty (max (ival ty a) (ival ty b))
    | .and => uput ty (ubits ty a &&& ubits ty b)
    | .or => uput ty (ubits ty a ||| ubits ty b)
    | .xor => uput ty (ubits ty a ^^^ ubits ty b)
  else
    match op with
    | .min => BitVec.ofNat 64 (fmin ty a.toNat b.toNat)
    | .max => BitVec.ofNat 64 (fmax ty a.toNat b.toNat)
    | .add | .and | .or | .xor => BitVec.ofNat 64 (fadd ty {} a.toNat b.toNat)

/-- Combine with ABSENT (R126). -/
def combine? (ty : Ty) (op : RedOp) : Option DWord → Option DWord → Option DWord
  | none, b => b
  | some a, none => some a
  | some a, some b => some (combine ty op a b)

/-- The identity of an operation (R127). -/
def redIdent (ty : Ty) (op : RedOp) : DWord :=
  if ty.isInt then
    match op with
    | .add | .or | .xor => 0
    | .and => uput ty (2 ^ ty.width - 1)
    | .min => iput ty (imax ty)
    | .max => iput ty (imin ty)
  else
    match op with
    | .min => BitVec.ofNat 64 (fenc ty {} (.inf false))
    | .max => BitVec.ofNat 64 (fenc ty {} (.inf true))
    | .add | .and | .or | .xor => 0

/-- The tree of R126. -/
def redTree (ty : Ty) (op : RedOp) (v : List (Option DWord)) : Option DWord :=
  (([1, 2, 4, 8, 16] : List Nat).foldl (fun (v : List (Option DWord)) s => threads.map (fun t =>
    if t % (2 * s) = 0 then combine? ty op (v.getD t none) (v.getD (t + s) none) else v.getD t none)) v).getD 0 none

/-- The inclusive scan of R127. -/
def scanTree (ty : Ty) (op : RedOp) (v : List (Option DWord)) : List (Option DWord) :=
  ([1, 2, 4, 8, 16] : List Nat).foldl (fun (w : List (Option DWord)) s => threads.map (fun t =>
    if s ≤ t then combine? ty op (w.getD (t - s) none) (w.getD t none) else w.getD t none)) v

/-- An element as a reduction takes it: the bits above a floating-point type's width are ignored (R106), and a NaN stands as the canonical
one, which is what the instruction writes of it (R109). -/
def redElem (ty : Ty) (v : DWord) : DWord :=
  if ty.isInt then v
  else if fdec ty (ubits ty v) == .nan then BitVec.ofNat 64 (fenc ty {} .nan) else BitVec.ofNat 64 (ubits ty v)

/-- The elements of the contributing threads (R176). -/
def contributing (ty : Ty) (act : Mask) (x : Src) : List (Option DWord) :=
  threads.map (fun t => if inMask act t then (x.at t).map (redElem ty) else none)

/-- VRED (R126, R176). -/
def execVred (h : Head) (ty : Ty) (op : RedOp) (d a : Opnd) (s : State) : Host.Outcome State Fault Refusal :=
  let n := laneNeed h (if d.isS then 3 else 6) (opndRegs ty.wide d) [(ty, a)]
  issue n (fun e =>
    let v := (redTree ty op (contributing ty e.act (e.lsrc ty a))).getD (redIdent ty op)
    match d with
    | .s k => e.putS n k.val v
    | .v _ | .c _ | .o _ | .l _ | .vz | .vtid | .vlane =>
      e.lanes n (plainWrite (opndRegs ty.wide d) e.act (fun _ => some v) e.regs)) s

/-- VSCAN (R127, R176). -/
def execVscan (h : Head) (ty : Ty) (op : RedOp) (excl : Bool) (d a : Opnd) (s : State) : Host.Outcome State Fault Refusal :=
  let n := laneNeed h 6 (opndRegs ty.wide d) [(ty, a)]
  issue n (fun e =>
    let x := e.lsrc ty a
    let w := scanTree ty op (contributing ty e.act x)
    e.lanes n (plainWrite (opndRegs ty.wide d) e.act (fun t =>
      if (x.at t).isNone then none
      else if !excl then w.getD t none
      else if t = 0 then some (redIdent ty op) else some ((w.getD (t - 1) none).getD (redIdent ty op))) e.regs)) s

/-- The first thread of t's segment (R176). -/
def segStart (open_ : Mask) (t : Nat) : Nat := ((List.range (t + 1)).reverse.find? (fun u => u == 0 || inMask open_ u)).getD 0

/-- VSEGRED (R128, R176). -/
def execVsegred (h : Head) (ty : Ty) (op : RedOp) (d a : Opnd) (ps : PredSpec) (s : State) : Host.Outcome State Fault Refusal :=
  let n := laneNeed h 6 (opndRegs ty.wide d) [(ty, a)] (predReads ps)
  issue n (fun e =>
    let x := e.lsrc ty a
    let c := contributing ty e.act x
    let o := predSpec e.regs ps
    e.lanes n (plainWrite (opndRegs ty.wide d) e.act (fun t =>
      if (x.at t).isNone then none
      else redTree ty op (threads.map (fun u => if segStart o u == segStart o t then c.getD u none else none))) e.regs)) s

/-! ### Sorting and selection by rank (R171, R177 to R180) -/

/-- A ranks below B (R171): NaN above all, zeros equal. -/
def rankLt (ty : Ty) (a b : DWord) : Bool :=
  if ty.isInt then ival ty a < ival ty b
  else
    let x := fdec ty a.toNat
    let y := fdec ty b.toNat
    if x == .nan then false else if y == .nan then true else fcmpv x y == some .lt

/-- Insert a candidate after those that come before it or tie with it. -/
def rankInsert (before : Nat → Nat → Bool) (x : Nat) : List Nat → List Nat
  | [] => [x]
  | y :: r => if before x y then x :: y :: r else y :: rankInsert before x r

/-- The candidates, given in ascending index, in the order of R171. -/
def rankOrder (ty : Ty) (asc : Bool) (key : Nat → DWord) (cand : List Nat) : List Nat :=
  cand.foldl (fun l x => rankInsert (fun a b => if asc then rankLt ty (key a) (key b) else rankLt ty (key b) (key a)) x l) []

/-- The winner at place i, or the word of an empty place. -/
def placeWord (sel : List Nat) (i : Nat) : Word :=
  match sel[i]? with
  | some t => BitVec.ofNat 32 t
  | none => 0xFFFFFFFF

/-- VSORT (R177). -/
def execVsort (h : Head) (ty : Ty) (asc move : Bool) (d a : Opnd) (ci : Option (Fin 320)) (s : State) :
    Host.Outcome State Fault Refusal :=
  let ws := match ci with | some c => [regOf d, Reg.v c.val] | none => [regOf d]
  let n := { laneNeed h (if move then 6 else 2) ws [(.n32, a)] with whole := true }
  issue n (fun e =>
    let v := e.view a
    let sel := rankOrder ty asc (fun t => ((v.elem t).getD 0).setWidth 64) (selThreads e.act (fun t => (v.map.at t).isSome))
    let m := selMap v.map sel
    e.lanes n (seqWrites [if move then fireInto (regOf d) v.slots m else wholeWrite (regOf d) v.slots m none,
      match ci with
      | some c => identWrite (.v c.val) (placeWord sel)
      | none => fun r => .ok { regs := r }] e.regs)) s

/-- A count operand: a short constant, or an S register cut at a bound (R178 to R180). -/
def countVal (e : Env) (cap : Nat) (x : Opnd) : Nat := min cap (e.scalar .n64 x).toNat

/-- VTOPK from one register (R178). -/
def execVtopk (h : Head) (ty : Ty) (asc : Bool) (d a k : Opnd) (ci : Fin 320) (s : State) : Host.Outcome State Fault Refusal :=
  let n := { laneNeed h 2 [regOf d, .v ci.val] [(.n32, a), (.n64, k)] with whole := true }
  issue n (fun e =>
    let v := e.view a
    let sel := (rankOrder ty asc (fun t => ((v.elem t).getD 0).setWidth 64)
      (selThreads e.act (fun t => (v.map.at t).isSome))).take (countVal e 32 k)
    e.lanes n (seqWrites [wholeWrite (regOf d) v.slots (selMap v.map sel) none, identWrite (.v ci.val) (placeWord sel)]
      e.regs)) s

/-- VTOPK from 2 to 8 registers (R179). A count of 0 makes all four outputs VOID. DEDUCED (log 56): the tags are written in the order D, D + 1, Ci,
Ci + 1. -/
def execVtopkMulti (h : Head) (ty : Ty) (asc : Bool) (m : Fin 8) (d a k : Opnd) (ci : Fin 320) (s : State) :
    Host.Outcome State Fault Refusal :=
  let cnt := m.val + 2
  let as := vRun a cnt
  let ds := vRun d 2
  let cs := [Reg.v ci.val, Reg.v (ci.val + 1)]
  let n := { laneNeed h 6 (ds ++ cs) [(.n64, k)] as with whole := true }
  issue n (fun e =>
    let elem := fun (i : Nat) => e.regs.elem (as.getD (i / 32) (.v 0)) (i % 32)
    let cand := (List.range (32 * cnt)).filter (fun i => inMask e.act (i % 32) && (elem i).isSome)
    let sel := (rankOrder ty asc (fun i => ((elem i).getD 0).setWidth 64) cand).take (countVal e 64 k)
    let half := fun (q : Nat) => (sel.drop (32 * q)).take 32
    let none_ := countVal e 64 k == 0
    let vals := fun (q : Nat) (r : Regs) =>
      let g := ds.getD q (.v 0)
      let old := (r.vreg g).slots
      wholeWrite g (threads.map (fun i => match (half q)[i]? with
        | some c => (elem c).getD 0
        | none => old.getD i 0))
        (.ofFn (fun i => if i < (half q).length then some (Fin.ofNat 32 i) else none)) none r
    let ixs := fun (q : Nat) (r : Regs) =>
      let g := cs.getD q (.v 0)
      if none_ then wholeWrite g (r.vreg g).slots .void none r else identWrite g (placeWord (half q)) r
    e.lanes n ((seqWrites [vals 0, vals 1, ixs 0, ixs 1] e.regs).map (fun l => { l with lanemove := l.lanemove + cnt })) cnt) s

/-- VBIN (R180). -/
def execVbin (h : Head) (sn : Fin 64) (d a : Opnd) (ps : PredSpec) (nb : Opnd) (s : State) : Host.Outcome State Fault Refusal :=
  let ds := vRun d 3
  let n := { laneNeed h 2 ds [(.n32, a), (.n64, nb)] (predReads ps) with
             also := [(Reg.s sn.val, 3), (Reg.s (sn.val + 1), 3)], whole := true }
  issue n (fun e =>
    let v := e.view a
    let key := fun (t : Nat) => ((v.elem t).getD 0).toNat
    let lim := countVal e 64 nb
    let sel := selThreads e.act (fun t => inMask (predSpec e.regs ps) t && (v.map.at t).isSome)
    let bin := rankOrder .n32 true (fun t => ((v.elem t).getD 0).setWidth 64) (sel.filter (fun t => key t < lim))
    let drop := sel.length - bin.length
    let start := fun (i : Nat) => ((List.range 32).find? (fun j => (bin[j]?).map key == (bin[i]?).map key)).getD 0
    let occ := bin.foldl (fun (a : DWord) t => a ||| (1#64 <<< key t)) 0
    let pops := (bin.map key).eraseDups.length
    let w1 := BitVec.ofNat 64 (pops + bin.length * 2 ^ 16 + drop * 2 ^ 32)
    e.lanes n (seqWrites [wholeWrite (ds.getD 0 (.v 0)) v.slots (selMap v.map bin) none,
      identWrite (ds.getD 1 (.v 0)) (placeWord bin),
      identWrite (ds.getD 2 (.v 0)) (fun i => if i < bin.length then BitVec.ofNat 32 (start i) else 0xFFFFFFFF),
      fun r => .ok { regs := { r with s := (r.s.set sn.val occ).set (sn.val + 1) w1 } }] e.regs)) s

end Sys2Proof.Machine
end

