-- ==== Sys2Proof/Machine/ControlInstr.lean ====
section
/-! DEFINITION. The branch group, YIELD, NOP, TRAP, BRK, and the special registers (R216 to R225). -/
namespace Sys2Proof.Machine

/-! ### Branches (R16 to R21, R216 to R220) -/

/-- The word after the clause a warp is in. -/
def Clause.after (c : Clause) : BitVec 54 := c.addr.extractLsb' 3 54 + BitVec.ofNat 54 (c.words.length + 1)

/-- The byte address of the word a clause stands at. -/
def Clause.wordAddr (c : Clause) : DWord := c.addr + BitVec.ofNat 64 (8 * (c.idx + 1))

/-- Set WADDR of threads. -/
def Regs.setWaddr (r : Regs) (m : Mask) (f : Nat → BitVec 54) : Regs :=
  { r with lpc := r.lpc.zipIdx.map (fun (e, t) => if inMask m t then { e with waddr := f t } else e) }

/-- Set STATE of threads. -/
def Regs.setLane (r : Regs) (m : Mask) (st : LaneState) : Regs :=
  { r with lpc := r.lpc.zipIdx.map (fun (e, t) => if inMask m t then { e with st := st } else e) }

/-- The acting threads whose outcome differs from that of the lowest of them (R21). -/
def dissent (act : Mask) (out : Nat → BitVec 54) : Mask :=
  maskOf (fun t => inMask act t && out t != out (lowestOf act))

/-- What issue judges of a branch: it stands last, in a clause of any class (R65). -/
def branchNeed (h : Head) (reads writes : List Reg) (lat : Option Nat) : Need :=
  { head := h, branch := true, reads := reads, writes := writes, lat := lat }

/-- A branch moves the acting threads to their outcomes, at 1 extra clk with U = 0 (R21). -/
def Env.branch (e : Env) (d : Need) (u : Bool) (out : Nat → BitVec 54) (l : LaneRes) : Res :=
  if u && dissent e.act out != 0 then .trap { code := codeUniform, mask := dissent e.act out }
  else
    .done (e.put { l with regs := l.regs.setWaddr e.act out })
      { head := d.head, extra := l.extra + (if u then 0 else 1), lat := d.lat, moved := e.act
        writes := if d.lat.isSome then d.writes else [] }

/-- The threads that take a BRA or CALL (R217). -/
def takers (act : Mask) (kind : BrKind) (c : Mask) : Mask :=
  match kind with
  | .each => act &&& c
  | .any => if act &&& c = 0 then 0 else act
  | .all => if act &&& ~~~c = 0 then act else 0

/-- The outcome of each thread of a BRA or CALL (R217, R73). -/
def Env.relTarget (e : Env) (take : Mask) (off : BitVec 32) (t : Nat) : BitVec 54 :=
  if inMask take t then (e.c.wordAddr + (off.signExtend 64) * 8).extractLsb' 3 54 else e.c.after

/-- BRA (R217). -/
def execBra (h : Head) (u : Bool) (kind : BrKind) (cond : PredSpec) (off : BitVec 32) (s : State) : Host.Outcome State Fault Refusal :=
  let n := branchNeed h (predReads cond) [] none
  issue n (fun e => e.branch n u (e.relTarget (takers e.act kind (predSpec e.regs cond)) off) { regs := e.regs }) s

/-- CALL (R218): the taking threads receive the return address in the pair V0 and V1. -/
def execCall (h : Head) (u : Bool) (kind : BrKind) (cond : PredSpec) (off : BitVec 32) (s : State) : Host.Outcome State Fault Refusal :=
  let link : List Reg := [.v 0, .v 1]
  let n := branchNeed h (predReads cond) link (some 4)
  issue n (fun e =>
    let take := takers e.act kind (predSpec e.regs cond)
    let out := e.relTarget take off
    if u && dissent e.act out != 0 then .trap { code := codeUniform, mask := dissent e.act out }
    else if take = 0 then e.branch { n with lat := none } u out { regs := e.regs }
    else
      match plainWrite link take (fun _ => some (e.c.wordAddr + 8)) e.regs with
      | .error m => .trap { code := codeVoidop, mask := m }
      | .ok l => e.branch n u out l) s

/-- BRX and RET (R219): each acting thread goes to the address in its element. -/
def indirect (h : Head) (u : Bool) (a : Opnd) (s : State) : Host.Outcome State Fault Refusal :=
  let n := branchNeed h (opndRegs true a) [] none
  issue n (fun e =>
    let x := e.src .n64 a
    let target := fun (t : Nat) => (x.at t).getD 0
    let void := maskOf (fun t => inMask e.act t && srcVoid [x] t)
    let mis := maskOf (fun t => inMask e.act t && (target t).extractLsb' 0 3 != 0)
    let non := maskOf (fun t => inMask e.act t && !canonical (target t))
    if void != 0 then .trap { code := codeVoidop, mask := void }
    else if mis != 0 then .trap { code := codeAlign, mask := mis, lowv := true, lowest := lowestOf mis, addr := target (lowestOf mis) }
    else if non != 0 then .trap { code := codeProt, mask := non, lowv := true, lowest := lowestOf non, addr := target (lowestOf non) }
    else e.branch n u (fun t => (target t).extractLsb' 3 54) { regs := e.regs }) s

/-- BRX (R219). -/
def execBrx (h : Head) (u : Bool) (a : Opnd) (s : State) : Host.Outcome State Fault Refusal := indirect h u a s

/-- RET (R219): as BRX in every visible way. -/
def execRet (h : Head) (u : Bool) (a : Opnd) (s : State) : Host.Outcome State Fault Refusal := indirect h u a s

/-- EXIT (R19, R220). -/
def execExit (h : Head) (s : State) : Host.Outcome State Fault Refusal :=
  issue (branchNeed h [] [] none) (fun e =>
    .done (e.s.modWarp e.w (fun x => { x with regs := e.regs.setLane e.act .exited })) { head := h }) s

/-- JOIN (R18). -/
def execJoin (h : Head) (s : State) : Host.Outcome State Fault Refusal :=
  issue (branchNeed h [] [] none) (fun e =>
    .done (e.s.modWarp e.w (fun x => { x with regs := e.regs.setLane e.act .joined })) { head := h }) s

/-! ### Yield, no-op, traps and breakpoints (R221, R222) -/

/-- YIELD (R221). -/
def execYield (h : Head) (n : BitVec 16) (s : State) : Host.Outcome State Fault Refusal :=
  issue { head := h, cls := some 6 } (fun e =>
    .done (e.s.modWarp e.w (fun x => { x with pendYield := some (max (x.pendYield.getD 0) n.toNat) })) { head := h }) s

/-- NOP (R221). -/
def execNop (h : Head) (s : State) : Host.Outcome State Fault Refusal :=
  issue { head := h } (fun e => .done e.s { head := h }) s

/-- TRAP (R222): it is done, and the warp is TRAPPED. -/
def execTrap (h : Head) (imm : BitVec 32) (s : State) : Host.Outcome State Fault Refusal :=
  issue { head := h, cls := some 6 } (fun e =>
    .done e.s { head := h, trap := some { code := codeTrapi, mask := e.act, imm := imm } }) s

/-- BRK (R222): it traps whatever the predicate holds. -/
def execBrk (h : Head) (imm : BitVec 32) (s : State) : Host.Outcome State Fault Refusal :=
  issue { head := h, always := true } (fun e => .trap { code := codeBrk, mask := e.c.iset, imm := imm }) s

/-! ### Special registers (R223 to R225) -/

/-- The STATE code of an LPC entry (R14). -/
def LaneState.code : LaneState → Nat
  | .run => 0
  | .due => 1
  | .joined => 2
  | .exited => 3

/-- An entry of LPC as it reads (R14). -/
def Lpc.word (l : Lpc) : DWord := BitVec.ofNat 64 (l.st.code * 2 ^ 62 + l.age % 256 * 2 ^ 54 + l.waddr.toNat)

/-- An event counter as a warp reads it (R287): of the events that other agents caused in the last 2,048 clk it may miss any, here as
many as a free value says (log 2). -/
def State.eventRead (s : State) (w k free : Nat) : DWord :=
  match s.ctxs[s.ctxIx w]? with
  | none => 0
  | some c =>
    let late := ((c.recent.filter (fun r => r.ev == k && r.by_ != some w && s.clk < r.at_ + 2048)).map Counted.n).sum
    c.events.getD k 0 - BitVec.ofNat 64 ((Config.freeBits free).toNat % (late + 1))

/-- A warp's own accesses that have been accepted may still count an event (R287): what the ticket unit keeps has not happened. -/
def State.mayCount (s : State) (w ev : Nat) : Bool :=
  s.accs.any (fun a => a.warp == w && a.reqs.any (fun r => !r.done && !s.stages a.block a.op r.loc r.va && !s.heldRead a.block a.op r.loc r.va &&
    ((ev == evLcSat && (a.op == .lcadd || a.op == .lcmrg)) ||
     (ev == evVictimHit && scopeNear a.scope && (match r.loc.place with
        | .glob _ => true
        | .nc | .lcm _ | .scr _ _ | .peer _ => false)))))

/-- Device time as a core reads it (R225): up to 20 ns behind the module's, never below what the warp has read. -/
def State.timeRead (s : State) (x : Warp) (free : Nat) : DWord :=
  let t := s.time.toNat - min s.time.toNat ((Config.freeBits free).toNat % 21)
  if x.lastTime.toNat ≤ t then BitVec.ofNat 64 t else x.lastTime

/-- The value of a special register (R224) for a warp, a free value at hand. -/
def State.srRead (s : State) (w : Nat) (n free : Nat) : DWord :=
  match s.warp? w, s.blockOf w, s.launchOf w with
  | some x, some b, some l =>
    if n = 0x000 then x.wcr
    else if n = 0x001 then x.lease
    else if n = 0x002 then b.ragmask.setWidth 64
    else if n = 0x003 then BitVec.ofNat 64 b.ix
    else if n = 0x004 then BitVec.ofNat 64 (((s.gangs[b.gang]?).map Gang.ix).getD 0)
    else if n = 0x005 then BitVec.ofNat 64 x.role
    else if n = 0x006 then BitVec.ofNat 64 x.roleWarp
    else if n = 0x007 then BitVec.ofNat 64 x.blockWarp
    else if n = 0x008 then BitVec.ofNat 64 l.ix
    else if n = 0x009 then BitVec.ofNat 64 (s.clusterOf w)
    else if n = 0x00A then BitVec.ofNat 64 x.core
    else if n = 0x00B then BitVec.ofNat 64 (b.cores.map (fun c => 2 ^ c)).sum
    else if n = 0x00C then b.group.setWidth 64
    else if n = 0x00D then b.rowbase.setWidth 64
    else if n = 0x00E then b.rflags.setWidth 64
    else if n = 0x00F then b.paramptr
    else if n = 0x010 then s.timeRead x free
    else if n = 0x011 then l.seed.extractLsb' 0 64
    else if n = 0x012 then l.seed.extractLsb' 64 64
    else if n < 0x018 then 0
    else if n < 0x020 then ((s.ctxs[l.ctx]?).map (fun c => c.lcbase.getD (n - 0x018) 0)).getD 0
    else if n < 0x024 then x.fault.getD (n - 0x020) 0
    else if n < 0x040 then 0
    else if n < 0x060 then ((x.regs.lpc[n - 0x040]?).map Lpc.word).getD 0
    else if n < 0x080 then 0
    else s.eventRead w (n - 0x080) free
  | _, _, _ => 0

/-- A read of a special register into a destination (R223). One of an event counter waits until what the warp had accepted before it has
counted (R287). -/
def readSr (h : Head) (d : Opnd) (num : Nat) (s : State) : Host.Outcome State Fault Refusal :=
  let n : Need :=
    { head := h, cls := some 6, writes := opndRegs true d, lat := some (if d.isS then 3 else 4) }
  issue n (fun e =>
    if 0x080 ≤ num && e.s.mayCount e.w (num - 0x080) then
      .stay (e.s.modWarp e.w (fun x => { x with hold := .issue (.count (num - 0x080)) }))
    else
    let (free, s) := if num = 0x010 || 0x080 ≤ num then e.s.fresh 1 else (e.s.freeCtr, e.s)
    let v := s.srRead e.w num free
    let s := if num = 0x010 then s.modWarp e.w (fun x => { x with lastTime := v }) else s
    let e := { e with s := s }
    match d with
    | .s k => e.putS n k.val v
    | .v _ | .o _ | .c _ | .l _ | .vz | .vtid | .vlane => e.lanes n (plainWrite (opndRegs true d) e.act (fun _ => some v) e.regs)) s

/-- RDSR (R223). -/
def execRdsr (h : Head) (d : Opnd) (num : Fin 1024) (s : State) : Host.Outcome State Fault Refusal := readSr h d num.val s

/-- RDTIME (R223, R225). -/
def execRdtime (h : Head) (d : Fin 64) (s : State) : Host.Outcome State Fault Refusal := readSr h (.s d) 0x010 s

/-- WRSR (R223, R277, R278, R281): the RW fields of WCR and SAT of a base register, from the start of the next clause. -/
def execWrsr (h : Head) (num : Fin 1024) (a : Opnd) (s : State) : Host.Outcome State Fault Refusal :=
  issue { head := h, cls := some 6, reads := opndRegs true a } (fun e =>
    let v := e.scalar .n64 a
    let s := e.s.modWarp e.w (fun x =>
      if num.val = 0 then { x with nextWcr := some (v &&& 0xFF03#64) }
      else if v.getLsbD 16 then { x with nextSat := (num.val - 0x018) :: x.nextSat }
      else x)
    .done s { head := h }) s

end Sys2Proof.Machine
end

