-- ==== Sys2Proof/Machine/Sched.lean ====
section
/-! DEFINITION. From ready warp to issue: the choice of threads and the fetch of a clause (R14 to R16, R61 to R65), what holds a warp and
what ends it, the load's boundaries (R338 to R340), and the end of run-ahead (R308 to R310). -/
namespace Sys2Proof.Machine

/-! ### The issue set (R15, R16) -/

/-- A thread is eligible (R15). -/
def Lpc.eligible (e : Lpc) : Bool := e.st == .run || e.st == .due

/-- The least of a list of numbers. -/
def leastOf (l : List Nat) : Nat := l.foldr min (l.headD 0)

/-- Release the threads parked lowest where nothing else can issue (R16). -/
def releaseParked (l : List Lpc) : List Lpc :=
  if l.any Lpc.eligible then l
  else
    let j := leastOf ((l.filter (fun e => e.st == .joined)).map (fun e => e.waddr.toNat))
    l.map (fun e => if e.st == .joined && e.waddr.toNat == j then { e with st := .run, age := 0 } else e)

/-- The PC that the next clause is taken from: the oldest due thread's, else the lowest (R16). -/
def choosePc (l : List Lpc) : Nat :=
  let due := l.filter (fun e => e.st == .due)
  let age := due.foldl (fun m e => max m e.age) 0
  match due.find? (fun e => e.age == age) with
  | some e => e.waddr.toNat
  | none => leastOf ((l.filter Lpc.eligible).map (fun e => e.waddr.toNat))

/-- One issue for a thread: it is in the issue set, or passed over (R16). -/
def Lpc.issue (e : Lpc) (pc : Nat) : Lpc :=
  if !e.eligible then e
  else if e.waddr.toNat = pc then { e with st := .run, age := 0 }
  else if e.st == .run && e.age = 255 then { e with st := .due, age := 0 }
  else { e with age := min (e.age + 1) 255 }

/-- The choice of R16: the issue set, its PC as a word address, and the entries it leaves. -/
def selectThreads (l : List Lpc) : Mask × Nat × List Lpc :=
  let l := releaseParked l
  let pc := choosePc l
  (maskOf (fun t => ((l[t]?).map (fun e => e.eligible && e.waddr.toNat == pc)).getD false), pc, l.map (fun e => e.issue pc))

/-- The byte address of a word address (R14, R292). -/
def wordAddress (pc : Nat) : DWord := ((BitVec.ofNat 54 pc).signExtend 61 ++ 0#3 : BitVec 64)

/-! ### The fetch (R61 to R64) -/

/-- What the fetch of one word answers: its bits; poison; a page to wait for; or a refusal. -/
inductive Fetched where
  | word (v : DWord)
  | poison
  | absent (page : Nat)
  | refused
deriving DecidableEq, Repr

/-- Fetch a word (R64): from normal and NC pages that may be executed. -/
def State.fetchWord (s : State) (w : Nat) (va : DWord) : Fetched :=
  if !canonical va then .refused
  else
    match s.resolve w va with
    | .error .absent => if s.resolvable (s.ctxIx w) va.toNat then .absent (pageOf va.toNat) else .refused
    | .error _ => .refused
    | .ok (p, l) =>
      match l.place with
      | .glob _ | .nc =>
        if !p.x then .refused
        else if (List.range 8).any (fun i => s.poisoned 0 0 false { l with addr := l.addr + i }) then .poison
        else .word (s.placeVal l 8)
      | .lcm _ | .scr _ _ | .peer _ => .refused

/-- What a clause is once it is fetched: its header, with the words that follow it. -/
inductive FetchedClause where
  | clause (header : DWord) (words : List DWord)
  | bad (reason : BitVec 8)
  | poison
  | absent (page : Nat)
deriving DecidableEq, Repr

/-- COUNT of a header (R62): the number of instructions. -/
def headerCount (h : DWord) : Nat := bitsOf h 52 4 + 1
/-- CLASS of a header. -/
def headerClass (h : DWord) : Nat := bitsOf h 56 4
/-- WAIT of a header. -/
def headerWait (h : DWord) : Nat := bitsOf h 46 6
/-- YLD of a header. -/
def headerYld (h : DWord) : Bool := h.getLsbD 45

/-- The checks of R63, with the reasons of R284. -/
def headerFault (h : DWord) : Option (BitVec 8) :=
  if bitsOf h 60 4 != 0xA then some 0
  else if 7 ≤ headerClass h then some 1
  else if bitsOf h 0 45 != 0 then some 2
  else none

/-- Fetch the words of a clause in turn. -/
def State.fetchWords (s : State) (w : Nat) (va : DWord) : Nat → List DWord → FetchedClause
  | 0, ws => .clause 0 ws
  | n + 1, ws =>
    match s.fetchWord w va with
    | .word v => State.fetchWords s w (va + 8) n (ws ++ [v])
    | .poison => .poison
    | .absent p => .absent p
    | .refused => .bad 3

/-- Fetch and check a clause. -/
def State.fetchClause (s : State) (w : Nat) (va : DWord) : FetchedClause :=
  match s.fetchWord w va with
  | .poison => .poison
  | .absent p => .absent p
  | .refused => .bad 3
  | .word h =>
    match headerFault h with
    | some r => .bad r
    | none =>
      match s.fetchWords w (va + 8) (headerCount h) [] with
      | .clause _ ws => .clause h ws
      | e => e

/-- The classes a role kind may run (R23). -/
def kindRuns (kind cls : Nat) : Bool :=
  match kind with
  | 0 => cls == 0 || cls == 1 || cls == 2 || cls == 5 || cls == 6
  | 1 => cls == 1 || cls == 3 || cls == 5 || cls == 6
  | 2 => cls == 1 || cls == 4 || cls == 5 || cls == 6
  | _ => true

/-! ### The start of a clause -/

/-- What WRSR wrote in an earlier clause takes effect (R278, R281, R282). A SAT bit that an operation sets on the same clk stays 1. -/
def State.applyWrites (s : State) (w : Nat) : State :=
  match s.warp? w with
  | none => s
  | some x =>
    let c := s.ctxIx w
    let s := s.modCtx c (fun d => { d with
      lcbase := (x.nextSat.filter (fun k => !s.justSet.contains (satKey c k))).foldl (fun l k => l.modify k (fun v => v &&& ~~~0x10000#64)) d.lcbase })
    s.modWarp w (fun x => { x with wcr := x.nextWcr.getD x.wcr, nextWcr := none, nextSat := [] })

/-- A trap at the head of a clause (R85, R398). -/
def State.headTrap (s : State) (w : Nat) (code reason : BitVec 8) (iset : Mask) (addr : DWord) : State :=
  s.takeTrap w { code := code, reason := reason, mask := iset, addr := if code == codeClause then addr else 0 } iset addr 0 false true

/-- The scoreboards that a WAIT names are clear (R62). -/
def waitMet (x : Warp) (wait : Nat) : Bool :=
  (List.range 6).all (fun i => wait / 2 ^ i % 2 = 0 || x.regs.sb.getD i 0 == 0)

/-! ### The pipes (R80, R341) -/

/-- The pipes that run a clause class: two vector pipes, the scalar pipe, the memory pipe, copy port issue and matrix engine issue. -/
def pipesOf (cls : Nat) : List Nat :=
  match cls with
  | 0 => [0, 1]
  | 2 => [3]
  | 3 => [4]
  | 4 => [5]
  | _ => [2]

/-- The pipe of a core that a clause of a class would hold: the first that no warp's clause holds. -/
def State.freePipe (s : State) (cl core cls : Nat) : Option Nat :=
  let held := (s.warpsOn cl core).filterMap (fun p => p.2.pipe)
  (pipesOf cls).find? (fun k => !held.contains k)

/-- The class of the clause for which a member of the load is a candidate (R341): its next clause, fetched and with its WAIT met, or what is
left of a clause that a trap or a page wait broke off, which ends in a gang that is being stopped too (R405). DESIGN CHOICE (log 89): a clause is
fetched as soon as it is the warp's next. -/
def State.candidate (s : State) (w : Nat) (x : Warp) : Option Nat :=
  if !(x.state == .active && x.hold == .none && x.pipe.isNone) then none
  else
    match x.clause with
    | some c => if c.idx < c.words.length then some c.cls else none
    | none =>
      if x.wback.isSome || x.allExited || s.stoppingWarp w then none
      else
        match s.fetchClause w (wordAddress (selectThreads x.regs.lpc).2.1) with
        | .clause h _ => if kindRuns x.kind (headerClass h) && waitMet x (headerWait h) then some (headerClass h) else none
        | .poison | .absent _ | .bad _ => none

/-- The rank of a candidate (R341): one that has waited 1,024 clk first, one whose last clause yielded last, and else the oldest. -/
def State.pipeRank (s : State) (w : Nat) (x : Warp) : List Nat :=
  (if x.candAt.any (fun t => t + 1024 ≤ s.clk) then 0 else if x.yielded then 2 else 1) :: s.ageKey w x

/-- A candidate of a class stands first among those of its core for the same pipes. -/
def State.firstFor (s : State) (w : Nat) (x : Warp) (cls : Nat) : Bool :=
  (s.members (s.clusterOf w) x.core).all (fun p =>
    p.1 == w || lexLe (s.pipeRank w x) (s.pipeRank p.1 p.2) || ((s.candidate p.1 p.2).map pipesOf) != some (pipesOf cls))

/-- The pipe that a warp's clause of a class starts on now, if it does. -/
def State.pipeFor (s : State) (w : Nat) (x : Warp) (cls : Nat) : Option Nat :=
  if s.firstFor w x cls then s.freePipe (s.clusterOf w) x.core cls else none

/-- What is left of a warp's clause takes a pipe where it stands first for a free one (R80, R341, R400). -/
def State.takePipe (s : State) (w : Nat) : State :=
  match s.warp? w with
  | none => s
  | some x =>
    match x.pipe, s.candidate w x with
    | none, some cls => s.modWarp w (fun y => { y with pipe := s.pipeFor w x cls, candAt := none })
    | _, _ => s

/-- As time passes, the clk from which each member's clause has been a candidate is kept (R341). -/
def State.noteCandidates (s : State) : State :=
  { s with warps := s.warps.zipIdx.map (fun (x, w) =>
      { x with candAt := if (s.candidate w x).isSome then some (x.candAt.getD s.clk) else none }) }

/-- The lines that the fetch of n words reads from memory are pulled, where their page migrates (R311). -/
def State.fetchPull (s : State) (w : Nat) (va : DWord) (n : Nat) : State :=
  (List.range n).foldl (fun s i =>
    match s.resolve w (va + BitVec.ofNat 64 (8 * i)) with
    | .ok (_, l) => s.pullAt l
    | .error _ => s) s

/-- Start the clause that the issue set of a warp stands at, on the pipe that is free for it. Results counted by a scoreboard that its WAIT
names are timely from here on (R83). DEDUCED (log 54): a selection that ends in a trap at the head stands, so AGE and STATE count it, and RETRY
selects again (R400). -/
def State.startClause (s : State) (w : Nat) (x : Warp) : State :=
  let (iset, pc, lpc) := selectThreads x.regs.lpc
  let va := wordAddress pc
  let chosen := fun (s : State) => s.modWarp w (fun x => { x with begun := true, regs := { x.regs with lpc := lpc } })
  let stop := fun (s : State) => s.modWarp w (fun x => { x with hold := .stop })
  if let some ln := x.wback then
    (s.modWarp w (fun x => { x with wback := none })).takeTrap w { code := codeWback, mask := iset, addr := ln } iset va 0 false true
  else match s.fetchClause w va with
  | .poison => if x.ahead then stop s else s.eccKill w
  | .absent p => if x.ahead then stop s else s.modWarp w (fun x => { x with hold := .fetch p })
  | .bad r => if x.ahead then stop s else (chosen (s.applyWrites w)).headTrap w codeClause r iset va
  | .clause h ws =>
    let cls := headerClass h
    if x.ahead && (3 ≤ cls || !kindRuns x.kind cls) then stop s
    else if !kindRuns x.kind cls then (chosen (s.applyWrites w)).headTrap w codeClass 0 iset va
    else if !waitMet x (headerWait h) then s
    else if (s.pipeFor w x cls).isNone then s
    else
      (chosen ((s.fetchPull w va (ws.length + 1)).applyWrites w)).modWarp w (fun x => { x with
        clause := some { addr := va, cls := cls, yld := headerYld h, words := ws, iset := iset, idx := 0, start := 0, pend := [], lfile := [] }
        outst := x.outst.filter (fun o => match o.sb with | some i => headerWait h / 2 ^ i.val % 2 = 0 | none => true)
        pipe := s.pipeFor w x cls
        candAt := none
        yielded := false
        issued := x.issued || !x.ahead })

/-- CLAUSE_START (R16, R61 to R65, R341): a member of the load that stands between clauses takes its next one. One whose threads the control
complex has all made EXITED ends there (R15). -/
def execClauseStart (w : Nat) (s : State) : Host.Outcome State Fault Refusal :=
  match s.warp? w with
  | none => .next s
  | some x => when_ (x.state == .active && x.clause.isNone && x.hold == .none && x.pipe.isNone && !s.stoppingWarp w)
      (if x.allExited then s.boundary w else s.startClause w x) s

/-- A page is there, or is known not to be. -/
def State.pageKnown (s : State) (ctx page : Nat) : Bool :=
  match s.translate ctx (page * 2 ^ 16) with
  | .absent => !s.resolvable ctx (page * 2 ^ 16)
  | .ok _ | .prot => true

/-- CLAUSE_FETCH_RESOLVED (R64): the page of a fetch has come, or has been declared unresolvable; the fetch is made again. -/
def execClauseFetchResolved (w : Nat) (s : State) : Host.Outcome State Fault Refusal :=
  match (s.warp? w).map Warp.hold with
  | some (.fetch p) => when_ (s.pageKnown (s.ctxIx w) p) (s.modWarp w (fun x => { x with hold := .none })) s
  | _ => .next s

/-- ISSUE_WAIT_END (R80, R246, R261, R287, R353): what an instruction waits for before its first clk is there. -/
def execIssueWaitEnd (w : Nat) (s : State) : Host.Outcome State Fault Refusal :=
  match s.warp? w with
  | none => .next s
  | some x =>
    match x.hold with
    | .issue why =>
      let ok := match why with
        | .sb i => decide (x.regs.sb.getD i.val 0 < 63)
        | .copies => decide (s.portEntries w < 64)
        | .mmas => decide ((s.core (s.clusterOf w) x.core).mmaq.length < 8)
        | .stage => s.direct x.block
        | .count k => !s.mayCount w k
      when_ ok (s.modWarp w (fun x => { x with hold := .none })) s
    | .none | .counter _ | .drain _ | .yield _ | .batch | .fetch _ | .fence _ _ | .accept _ | .arrive _ | .stop => .next s

/-- YIELD_EXPIRE (R221): the interval has passed. -/
def execYieldExpire (w : Nat) (s : State) : Host.Outcome State Fault Refusal :=
  match (s.warp? w).map Warp.hold with
  | some (.yield t) => when_ (decide (t ≤ s.clk) && !s.savedWarp w) (s.modWarp w (fun x => { x with hold := .none })) s
  | _ => .next s

/-! ### The load's boundaries (R280, R337 to R340) -/

/-- A core's slice ends at this clk, and its load has not been formed again (R338). -/
def State.sliceDue (s : State) (cl core : Nat) : Bool := s.clk % 1024 == 0 && (s.core cl core).slicedAt != s.clk

/-- The end of a slice (R338). -/
def State.sliceEnd (s : State) (cl core : Nat) : State := (s.reform cl core).modCore cl core (fun c => { c with slicedAt := s.clk })

/-- A turn that ends a slice or a window, or passes no time. -/
def Turn.closes (t : Turn) : Bool :=
  match t with
  | .event (.sliceBoundary _ _) | .event (.leaseWindowEnd _ _) | .tick 0 _ => true
  | _ => false

/-- Nothing else of this clk is left to happen (R339): before time passes, the agenda names boundaries at most. -/
def State.clkOver (s : State) : Bool :=
  match s.agenda.dropWhile Turn.closes with
  | [] | .tick _ _ :: _ => true
  | .event _ :: _ | .issue _ :: _ => false

/-- SLICE_BOUNDARY (R338), once at its clk, after everything else of it (R339). -/
def execSliceBoundary (cl core : Nat) (s : State) : Host.Outcome State Fault Refusal :=
  when_ (s.sliceDue cl core && s.clkOver) (s.sliceEnd cl core) s

/-- A warp's measurement at the end of a window in which it issued (R280), by the lines of its core's L1 that carry its touch bit. -/
def Warp.measure (l1 : List Line) (x : Warp) : Warp :=
  if !x.issued then { x with touched := [], shrunk := false }
  else
    let n := min (l1.filter (fun l => x.touched.contains (lineKey l.asid l.vline))).length 3072
    let gran := if x.lease.getLsbD 8 then min ((n + 15) / 16) 192 else leaseGran x.lease
    { x with
      lease := BitVec.ofNat 64 (n * 2 ^ 16 + (if x.lease.getLsbD 8 then 256 else 0) + gran)
      touched := [], shrunk := false, issued := false }

/-- A core's window ends at this clk, and has not been taken (R337). -/
def State.windowDue (s : State) (cl core : Nat) : Bool := s.clk % 4096 == 0 && (s.core cl core).windowAt != s.clk

/-- The end of a window (R280, R337, R340): the warps are measured, and the load is formed again with the limit of R336. -/
def State.windowEnd (s : State) (cl core : Nat) : State :=
  let s := (s.warpsOn cl core).foldl (fun s p => s.modWarp p.1 (Warp.measure (s.core cl core).l1)) s
  ((s.modCore cl core (fun c => { c with loadLimit := none })).sliceEnd cl core).modCore cl core (fun c => { c with windowAt := s.clk })

/-- LEASE_WINDOW_END, once at its clk, after everything else of it (R339). -/
def execLeaseWindowEnd (cl core : Nat) (s : State) : Host.Outcome State Fault Refusal :=
  when_ (s.windowDue cl core && s.clkOver) (s.windowEnd cl core) s

/-- The boundaries that fall on this clk and have not been taken, after everything else of the clk (R339). -/
def State.takeBoundaries (s : State) (seats : List (Nat × Nat)) : State :=
  seats.foldl (fun s p =>
    let s := if s.windowDue p.1 p.2 then s.windowEnd p.1 p.2 else s
    if s.sliceDue p.1 p.2 then s.sliceEnd p.1 p.2 else s) s

/-- A core has taken the boundary of this clk: the clk is over. -/
def State.boundaryTaken (s : State) : Bool :=
  s.clk % 1024 == 0 && s.clk != 0 && s.cores.any (fun c => c.slicedAt == s.clk || c.windowAt == s.clk)

/-- The seats of resident warps: their clusters and cores. -/
def State.seats (s : State) : List (Nat × Nat) :=
  ((s.warps.zipIdx.filter (fun (x, _) => x.resident)).map (fun (x, i) => (s.clusterOf i, x.core))).eraseDups

/-! ### Waking (R232, R237) -/

/-- COUNTER_WAKE (R232): each word a warp waits for is checked. The answer of a peer's module ends a wait with the flags it sends, which are
free values (log 2). -/
def execCounterWake (w : Nat) (s : State) : Host.Outcome State Fault Refusal :=
  let (n, s1) := s.fresh 1
  .next (s1.endWaits w (fun s c =>
    match s.resolve w c.addr with
    | .ok (_, l) => if isPeer l.place then .ended ((Config.freeBits n).getLsbD 0) else s.waitCheck w c
    | .error _ => s.waitCheck w c))

/-- COUNTER_POLL (R237): a warp that holds no entry of the wait table checks its counter. -/
def execCounterPoll (w : Nat) (s : State) : Host.Outcome State Fault Refusal :=
  match (s.warp? w).map Warp.hold with
  | some (.counter ws) =>
    let polled := (ws.filter (fun c => !c.2)).map Prod.fst
    .next (s.endWaits w (fun s c => if polled.contains c then s.waitCheck w c else .open_))
  | _ => .next s

/-! ### The end of run-ahead (R308 to R310) -/

/-- RUNAHEAD_STOP (R309): the warp returns to its checkpoint, and waits for the pages of its batch. -/
def State.rollBack (s : State) (w : Nat) : State :=
  match s.checkpoints.find? (fun c => c.warp == w) with
  | none => s
  | some c =>
    let s : State := { s with checkpoints := s.checkpoints.filter (fun c => c.warp != w) }
    (s.modWarp w (fun x => { x with
      regs := c.regs
      pipe := none
      clause := c.clause
      outst := c.outst
      pending := none
      ahead := false
      aheadCount := 0
      poisoned := []
      hold := .batch
      state := .waiting })).fillLoadAt w

/-- RUNAHEAD_STOP (R308, R309). -/
def execRunaheadStop (w : Nat) (s : State) : Host.Outcome State Fault Refusal :=
  match s.warp? w with
  | none => .next s
  | some x => when_ (x.ahead && x.hold == .stop) (s.rollBack w) s

/-- PAGE_BATCH_RESOLVED (R309, R310): every page of the batch has come or has been declared unresolvable. -/
def execPageBatchResolved (w : Nat) (s : State) : Host.Outcome State Fault Refusal :=
  match s.warp? w with
  | none => .next s
  | some x =>
    when_ (x.hold == .batch && !s.savedWarp w && x.batch.all (s.pageKnown (s.ctxIx w)))
      ((s.modWarp w (fun x => { x with hold := .none, batch := [] })).ready w) s

end Sys2Proof.Machine
end

