-- ==== Sys2Proof/Machine/Copies.lean ====
section
/-! DEFINITION. Copies as they run (R239 to R248, R331, R351 to R353, R389, R393, R420): the bytes a copy moves, what it waits for, its counters,
and how it fails. -/
namespace Sys2Proof.Machine

/-! ### The bytes of a copy (R240, R241) -/

/-- The major opcode of a copy (R334). -/
def CopyKind.opc : CopyKind → Nat
  | .copy => 0xB0
  | .bcopy _ _ => 0xB1
  | .gather _ => 0xB2
  | .scatter _ => 0xB3
  | .unpack _ => 0xB4

/-- A register of a copy's descriptor. -/
def Copy.d (c : Copy) (i : Nat) : DWord := c.desc.getD i 0

/-- The bytes of a BFP record but its SCALE byte (R121). -/
def mantBytes : Bfmt → Nat
  | .bfp8 => 32
  | .bfp6 => 24
  | .bfp4 => 16

/-- The bytes of an index (R239). -/
def idxBytes : IdxTy → Nat
  | .n32 | .i32 => 4
  | .n64 => 8

/-- The index type of a GATHER or SCATTER. -/
def Copy.idx (c : Copy) : Option IdxTy :=
  match c.kind with
  | .gather t | .scatter t => some t
  | .copy | .bcopy _ _ | .unpack _ => none

/-- The items of a GATHER or SCATTER: their indices are read first. -/
def Copy.indexCount (c : Copy) : Nat := if c.idx.isSome then bitsOf (c.d 3) 0 32 else 0

/-- The byte count N of one copy or slice (R240). -/
def Copy.ownCount (c : Copy) : Nat :=
  match c.kind with
  | .copy | .bcopy _ _ => (bitsOf (c.d 2) 32 16 + 1) * bitsOf (c.d 2) 0 32
  | .gather _ | .scatter _ => bitsOf (c.d 3) 0 32 * bitsOf (c.d 3) 32 16
  | .unpack f => bitsOf (c.d 3) 0 32 * (1 + mantBytes f)

/-- The source and destination addresses of byte k, once its item's index is known (R241). -/
def Copy.addrs (c : Copy) (k : Nat) : Option (DWord × DWord) :=
  let at_ := fun (base : DWord) (off : Nat) => base + BitVec.ofNat 64 off
  match c.kind with
  | .copy | .bcopy _ _ =>
    let row := k / bitsOf (c.d 2) 0 32
    let i := k % bitsOf (c.d 2) 0 32
    some (at_ (c.d 0) (row * bitsOf (c.d 3) 0 32 + i), at_ (c.d 1) (row * bitsOf (c.d 3) 32 32 + i))
  | .gather _ =>
    let es := bitsOf (c.d 3) 32 16
    (c.ixs.find? (fun x => x.1 == k / es)).map (fun x =>
      (at_ (c.d 0 + x.2 * BitVec.ofNat 64 es) (k % es), at_ (c.d 1) k))
  | .scatter _ =>
    let es := bitsOf (c.d 3) 32 16
    (c.ixs.find? (fun x => x.1 == k / es)).map (fun x =>
      (at_ (c.d 0) k, at_ (c.d 1 + x.2 * BitVec.ofNat 64 es) (k % es)))
  | .unpack f =>
    let n := 1 + mantBytes f
    let i := k % n
    some (at_ (c.d 0) k, if i = 0 then at_ (c.d 2) (k / n) else at_ (c.d 1) (k / n * (n - 1) + i - 1))

/-- The slices of a copy: its own one, or those of its generation with their numbers (R243). -/
def State.slicesOf (s : State) (i : Nat) (c : Copy) : List (Nat × Copy) :=
  if c.gen.isEmpty then [(i, c)] else c.gen.filterMap (fun j => (s.copies[j]?).map (fun x => (j, x)))

/-- N of a copy or a generation. -/
def State.copyCount (s : State) (i : Nat) (c : Copy) : Nat := ((s.slicesOf i c).map (fun x => x.2.ownCount)).sum

/-- The slice that byte k of a copy lies in, and the byte's number there. -/
def itemAt : List (Nat × Copy) → Nat → Option (Copy × Nat)
  | [], _ => none
  | (_, c) :: r, k => if k < c.ownCount then some (c, k) else itemAt r (k - c.ownCount)

/-- The number, among all copies, of the slice that byte k of a copy lies in. -/
def sliceNo : List (Nat × Copy) → Nat → Option Nat
  | [], _ => none
  | (j, c) :: r, k => if k < c.ownCount then some j else sliceNo r (k - c.ownCount)

/-- Every byte of a slice of a copy has been written. -/
def sliceDone (ss : List (Nat × Copy)) (done : List Nat) (j n : Nat) : Bool :=
  (List.range n).all (fun k => sliceNo ss k != some j || done.contains k)

/-- The number of the item that a fault log names for a byte (R334): the byte's offset, or its item's or record's index. -/
def Copy.item (c : Copy) (k : Nat) : Nat :=
  match c.kind with
  | .copy | .bcopy _ _ => k
  | .gather _ | .scatter _ => k / bitsOf (c.d 3) 32 16
  | .unpack f => k / (1 + mantBytes f)

/-! ### What a copy's bytes meet (R244 to R247) -/

/-- An address lies in the own scratchpad window or the cluster window. -/
def inWindow (va : DWord) : Bool :=
  match regionOf va.toNat with
  | .own _ | .cluster _ _ => true
  | .global | .peer | .reserved => false

/-- What an engine's access meets: that of its warp, and, at a peer that no live route reaches, NOROUTE (R419, R424). -/
def State.engineJudge (s : State) (w : Nat) (k : Want) (va : DWord) (n : Nat) : Judge :=
  match s.judge w k va n with
  | .ok p l =>
    (match l.place with
      | .peer m => if m = 255 || s.routed m then .ok p l else .bad 80 codeRemote 0x0B
      | .glob _ | .nc | .lcm _ | .scr _ _ => .ok p l)
  | j => j

/-- What the read of a byte meets. -/
def State.copyReads (s : State) (c : Copy) (va : DWord) : Judge :=
  let near := match c.kind with
    | .scatter _ => true
    | .copy | .bcopy _ _ | .gather _ | .unpack _ => false
  if near && !inWindow va then .bad 50 codeProt 0 else s.engineJudge c.warp .read va 1

/-- What the write of a byte meets: that a GATHER or UNPACK writes outside the windows comes after the checks of LCM pages (R184, R322). -/
def State.copyWrites (s : State) (c : Copy) (va : DWord) : Judge :=
  let near := match c.kind with
    | .gather _ | .unpack _ => true
    | .copy | .bcopy _ _ | .scatter _ => false
  let j := s.engineJudge c.warp .write va 1
  if near && !inWindow va && 50 ≤ j.rank then .bad 50 codeProt 0 else j

/-- The address of index j. -/
def Copy.indexAddr (c : Copy) (t : IdxTy) (j : Nat) : DWord := c.d 2 + BitVec.ofNat 64 (j * idxBytes t)

/-- What the read of index j meets. -/
def State.indexReads (s : State) (c : Copy) (j : Nat) : Judge :=
  match c.idx with
  | some t => s.engineJudge c.warp .read (c.indexAddr t j) (idxBytes t)
  | none => .bad 50 codeProt 0

/-- A descriptor breaks its layout (R240, R247). -/
def Copy.descBad (c : Copy) : Bool :=
  match c.kind with
  | .copy | .bcopy _ _ => bitsOf (c.d 2) 48 16 != 0
  | .gather _ | .scatter _ => bitsOf (c.d 3) 48 16 != 0 || bitsOf (c.d 3) 32 16 == 0
  | .unpack _ => bitsOf (c.d 3) 32 32 != 0

/-- Two slices of a generation agree (R243). -/
def Copy.agrees (a b : Copy) : Bool :=
  a.parts == b.parts && a.scope == b.scope && a.ord == b.ord && a.bucket == b.bucket && a.d 4 == b.d 4 && a.d 5 == b.d 5

/-- Why a copy fails before any byte: MISMATCH, DESC or ALIGN, with the slice that does (R243 to R245, R334). -/
def State.copyStatic (s : State) (i : Nat) (c : Copy) : Option (Nat × Copy) :=
  let ss := (s.slicesOf i c).map Prod.snd
  let c0 := ss.headD c
  if ss.any (fun x => !x.agrees c0) then some (0x41, c0)
  else
    match ss.find? Copy.descBad with
    | some x => some (0x40, x)
    | none =>
      let mis := match c.kind with
        | .gather t | .scatter t => (c.d 2).toNat % idxBytes t != 0
        | .unpack _ => (c.d 2).toNat % 64 != 0
        | .copy | .bcopy _ _ => false
      if mis then some (codeAlign.toNat, c) else none

/-- The fault of a judgement, as a reason of R334. -/
def Judge.reason : Judge → Option Nat
  | .bad _ c _ => some c.toNat
  | .ok _ _ | .absent => none

/-- The page that a judgement waits for. -/
def Judge.isAbsent : Judge → Bool
  | .absent => true
  | .ok _ _ | .bad _ _ _ => false

/-- Why a running copy fails (R247): the reason, the item and the slice; the lowest byte that faults is named. -/
def State.copyFault (s : State) (i : Nat) (c : Copy) : Option (Nat × Nat × Copy) :=
  match s.copyStatic i c with
  | some (r, x) => some (r, 0, x)
  | none =>
    match (List.range c.indexCount).find? (fun j => !c.ixs.any (fun x => x.1 == j) && (s.indexReads c j).reason.isSome) with
    | some j => ((s.indexReads c j).reason).map (fun r => (r, j, c))
    | none =>
      let ss := s.slicesOf i c
      let why := fun (k : Nat) =>
        match itemAt ss k with
        | none => none
        | some (x, j) =>
          match x.addrs j with
          | none => none
          | some (sa, da) =>
            if c.done.contains k then none
            else
              let r := if c.reads.any (fun b => b.1 == k) then none else (s.copyReads x sa).reason
              (r.orElse (fun _ => (s.copyWrites x da).reason)).map (fun r => (r, x.item j, x))
      ((List.range (s.copyCount i c)).find? (fun k => (why k).isSome)).bind why

/-! ### What a copy waits for -/

/-- The accesses that the issuing warp made before a copy, or before each slice of a generation, have been performed (R248, R380). -/
def State.copyReady (s : State) (i : Nat) (c : Copy) : Bool :=
  (s.slicesOf i c).all (fun y => (s.accs.take y.2.after).all (fun a =>
    a.warp != y.2.warp || !a.op.isAccess || a.reqs.all (fun r => r.done || s.parked a r)))

/-- Where a judged byte lies. -/
def Judge.loc? : Judge → Option Loc
  | .ok _ l => some l
  | .bad _ _ _ | .absent => none

/-- A byte at a judged place is not the own one of a block in its deterministic launch. The owner of an absent page's line is decided by its
address (R349). -/
def State.foreignAt (s : State) (w : Nat) (va : DWord) (j : Judge) : Bool :=
  let b := ((s.warp? w).map Warp.block).getD 0
  match j with
  | .ok _ l => s.foreign b l va
  | .absent => regionOf va.toNat == .global && s.foreign b { place := .glob 0, addr := va.toNat } va
  | .bad _ _ _ => false

/-- A copy of a deterministic launch has a write that is staged (R351): it targets a line that is not the block's own. -/
def State.copyStages (s : State) (i : Nat) (c : Copy) : Bool :=
  s.detOf (((s.warp? c.warp).map Warp.block).getD 0) &&
  (List.range (s.copyCount i c)).any (fun k =>
    match itemAt (s.slicesOf i c) k with
    | none => false
    | some (x, j) => (x.addrs j).any (fun a => s.foreignAt x.warp a.2 (s.copyWrites x a.2)))

/-- A copy that stages a write is one staged item, counted once (R286, R351, log 95). -/
def State.noteStaged (s : State) (i : Nat) : State :=
  match s.copies[i]? with
  | none => s
  | some c =>
    if c.staged || !s.copyStages i c then s
    else (s.modCopy i (fun c => { c with staged := true })).bump (s.ctxIx c.warp) evTicketWait 1 (some c.warp)

/-- A copy of a deterministic launch has a read or a write that waits for NEXT (R352, R393). -/
def State.copyForeign (s : State) (i : Nat) (c : Copy) : Bool :=
  s.detOf (((s.warp? c.warp).map Warp.block).getD 0) &&
  ((List.range c.indexCount).any (fun j => match c.idx with
      | some t => s.foreignAt c.warp (c.indexAddr t j) (s.indexReads c j)
      | none => false) ||
   (List.range (s.copyCount i c)).any (fun k =>
      match itemAt (s.slicesOf i c) k with
      | none => false
      | some (x, j) =>
        match x.addrs j with
        | none => false
        | some (sa, da) => s.foreignAt x.warp sa (s.copyReads x sa) || s.foreignAt x.warp da (s.copyWrites x da)))

/-- Every index of a copy has been read. -/
def Copy.indexed (c : Copy) : Bool := c.ixs.length == c.indexCount

/-- A copy is held as a whole until NEXT reaches its block (R352). -/
def State.copyHeld (s : State) (i : Nat) (c : Copy) : Bool :=
  !s.nextReached (((s.warp? c.warp).map Warp.block).getD 0) && s.copyForeign i c

/-- An earlier copy of the flow of a copy or slice has not ended (R246, R420). -/
def State.flowAhead (s : State) (j : Nat) : Bool := s.flows.any (fun f => f.held.contains j && f.held.head? != some j)

/-- The writes of a copy or slice wait at the copy port for those of an earlier one of its flow (R420); in a flow into a peer window they wait at the
target. -/
def State.flowWaits (s : State) (j : Nat) : Bool := s.flows.any (fun f => f.mem < 3 && f.held.contains j && f.held.head? != some j)

/-- A copy or slice leaves its flow (R246, R420). -/
def State.leaveFlow (s : State) (j : Nat) : State :=
  { s with flows := s.flows.map (fun f =>
      if f.held.contains j then { f with held := f.held.erase j, seqDone := (f.seqDone + 1) % 2 ^ 16 } else f) }

/-- A copy runs, and waits for no page. -/
def State.copyRuns (s : State) (i : Nat) (c : Copy) : Bool :=
  c.state == .running && c.waitPage.isNone && !s.savedWarp c.warp && s.copyReady i c

/-! ### The boundaries at which a copy stops (R407) -/

/-- The destination of a byte of a copy. -/
def State.destOf (s : State) (i : Nat) (c : Copy) (k : Nat) : Option DWord :=
  match itemAt (s.slicesOf i c) k with
  | some (x, j) => (x.addrs j).map Prod.snd
  | none => none

/-- Two bytes of a copy are of one item of a SCATTER, else of one 128-byte sector. -/
def State.sameUnit (s : State) (i : Nat) (c : Copy) (j k : Nat) : Bool :=
  match c.kind with
  | .scatter _ => c.item j == c.item k
  | .copy | .bcopy _ _ | .gather _ | .unpack _ => (s.destOf i c j).map (fun a => a.toNat / 128) == (s.destOf i c k).map (fun a => a.toNat / 128)

/-- The bytes of a running copy that its save records as done: those of whole items or sectors. -/
def State.doneWhole (s : State) (i : Nat) (c : Copy) : List Nat :=
  let all := List.range (s.copyCount i c)
  c.done.filter (fun k => all.all (fun j => !s.sameUnit i c j k || c.done.contains j))

/-- A copy stands at a boundary, or waits for a page, so that it can be saved. -/
def State.copyRests (s : State) (i : Nat) (c : Copy) : Bool :=
  c.state != .running || c.waitPage.isSome || (s.doneWhole i c).length == c.done.length

/-! ### Reads and writes -/

/-- A byte of a normal page as an engine reads it (R248, R390): the one written last in its cluster and not yet at home, else the home's (log 42). -/
def State.newestRead (s : State) (cl core asid va : Nat) : Byte :=
  let fresh := fun (l : Option Line) => (l.map (fun l => l.byte (va % 128))).filter (fun b => b.st == .dirty || b.st == .pending)
  s.orFree asid va (match fresh (findLine (s.core cl core).l1 asid (va / 128)), fresh (findLine (s.ccLines cl) asid (va / 128)) with
    | some b, _ | none, some b => b.v
    | none, none => s.homeRead asid va)

/-- Bytes as an engine of a warp's core reads them: the newest of its cluster, or, in a deterministic launch, with the block's own staged
bytes laid over (R248, R390, R393). A matrix engine's read brings its lines near, with its operand's hint (R258). A peer's byte is its
module's, a free value (log 2). -/
def State.engineRead (s : State) (w : Nat) (l : Loc) (va : DWord) (n : Nat) (near : Option Hint := none) : DWord × State :=
  let (cl, core) := s.seat w
  let b := ((s.warp? w).map Warp.block).getD 0
  let s := match near with
    | none => s.pullAt l
    | some h => (match l.place with
      | .glob a => s.l1Fill cl core a (l.addr / 128) h false
      | .nc | .lcm _ | .scr _ _ | .peer _ => s.pullAt l)
  match l.place with
  | .peer _ =>
    let (k, s) := s.fresh 1
    (Config.freeBits k &&& BitVec.ofNat 64 (2 ^ (8 * n) - 1), s)
  | .glob a =>
    if s.foreign b l va then (s.detRead b cl core w s.accs.length l n, s)
    else
      let s := (takeL1s cl a (l.addr / 128) (List.range 8) s).1
      (BitVec.ofNat 64 (leNat ((List.range n).map (fun i => s.newestRead cl core a (l.addr + i)))), s)
  | .lcm k => (BitVec.ofNat 64 (leNat ((List.range n).map (fun i => BitVec.ofNat 8 (s.levelAt k (l.addr + i))))), s)
  | .nc | .scr _ _ => (if s.foreign b l va then s.detRead b cl core w s.accs.length l n else s.placeVal l n, s)

/-- A read of a warp's engine at a place waits for no grant, and for no restack (R413). -/
def State.granted (s : State) (w : Nat) (l : Loc) : Bool :=
  let (cl, core) := s.seat w
  s.injects l && match l.place with
  | .glob a => !s.pendingAt cl core a (l.addr / 128)
  | .nc | .lcm _ | .scr _ _ | .peer _ => true

/-- Bytes that an engine reads are poisoned. -/
def State.enginePoison (s : State) (w : Nat) (l : Loc) (n : Nat) : Bool :=
  let (cl, core) := s.seat w
  (List.range n).any (fun i => s.detPoisoned cl core { l with addr := l.addr + i })

/-- A read or write that meets a page to come makes its copy wait for it (R247). -/
def State.copyWait (s : State) (i : Nat) (va : DWord) : State := s.modCopy i (fun c => { c with waitPage := some (pageOf va.toNat) })

/-- Read index j of a copy (R241). -/
def State.readIndex (s : State) (i j : Nat) (c : Copy) : State :=
  match c.idx with
  | none => s
  | some t =>
    let va := c.indexAddr t j
    match s.indexReads c j with
    | .absent => s.copyWait i va
    | .bad _ _ _ => s
    | .ok _ l =>
      if !s.granted c.warp l || s.copyHeld i c then s
      else if s.enginePoison c.warp l (idxBytes t) then s.eccKill c.warp
      else
        let (v, s) := s.engineRead c.warp l va (idxBytes t)
        let x := match t with
          | .i32 => (v.setWidth 32).signExtend 64
          | .n32 | .n64 => v
        (s.modCopy i (fun c => { c with ixs := c.ixs ++ [(j, x)] })).noteStaged i

/-- A copy's read: byte k, or for k from N on the index k - N. -/
def State.copyRead (s : State) (i k : Nat) : State :=
  match s.copies[i]? with
  | none => s
  | some c =>
    let n := s.copyCount i c
    if !s.copyRuns i c || (s.copyStatic i c).isSome then s
    else if n ≤ k then
      (if k - n < c.indexCount && !c.ixs.any (fun x => x.1 == k - n) then s.readIndex i (k - n) c else s)
    else if c.reads.any (fun x => x.1 == k) || c.done.contains k || s.copyHeld i c then s
    else if s.detOf (((s.warp? c.warp).map Warp.block).getD 0) && !c.indexed then s
    else
      match itemAt (s.slicesOf i c) k with
      | none => s
      | some (x, j) =>
        match x.addrs j with
        | none => s
        | some (sa, _) =>
          match s.copyReads x sa with
          | .absent => s.copyWait i sa
          | .bad _ _ _ => s
          | .ok _ l =>
            if !s.granted x.warp l then s
            else if s.enginePoison x.warp l 1 then s.eccKill x.warp
            else
              let (v, s) := s.engineRead x.warp l sa 1
              s.modCopy i (fun c => { c with reads := c.reads ++ [(k, v.setWidth 8)] })

/-- A later item of a SCATTER has written a byte (R241). -/
def State.laterItem (s : State) (i k : Nat) (c : Copy) (da : DWord) : Bool :=
  match c.kind with
  | .scatter _ => c.done.any (fun k' => c.item k < c.item k' && (match itemAt (s.slicesOf i c) k' with
      | some (x, j) => (x.addrs j).any (fun a => a.2 == da)
      | none => false))
  | .copy | .bcopy _ _ | .gather _ | .unpack _ => false

/-- Write bytes of an engine of a warp at their place, at its home (log 42); one sent to a peer is a report, with this module's node number (R417) and,
of an ordered copy, its flow, named by the warp, and its number there (R420). -/
def State.engineWrite (s : State) (w : Nat) (h : Hint) (l : Loc) (n : Nat) (v : DWord) (seq : Option Nat := none) : State :=
  let (cl, core) := s.seat w
  match l.place with
  | .peer m =>
    { s with reports := s.reports ++ [{ kind := 2, fields := [m, l.addr, n, v.toNat, s.node] ++ (seq.map (fun k => [w, k])).getD [] }] }
  | .glob _ | .nc | .lcm _ | .scr _ _ => s.storeAt w cl core false h l n v

/-- A copy's write of byte k. In a gang that is being stopped no new sector or item is begun (R407). -/
def State.copyWrite (s : State) (i k : Nat) : State :=
  match s.copies[i]? with
  | none => s
  | some c =>
    let slices := s.slicesOf i c
    let own := (sliceNo slices k).getD i
    let stops := s.stoppingWarp c.warp && !c.done.any (fun j => s.sameUnit i c j k)
    if !s.copyRuns i c || c.done.contains k || s.flowWaits own || (s.copyStatic i c).isSome || stops then s
    else
      match c.reads.find? (fun x => x.1 == k), itemAt slices k with
      | some (_, v), some (x, j) =>
        match x.addrs j with
        | none => s
        | some (_, da) =>
          match s.copyWrites x da with
          | .absent => s.copyWait i da
          | .bad _ _ _ => s
          | .ok _ l =>
            if !s.injects l then s else
            let s := if s.laterItem i k c da then s else s.engineWrite x.warp x.hint l 1 (v.setWidth 64) (if x.ord then some x.seq else none)
            let s := s.modCopy i (fun c => { c with done := c.done ++ [k] })
            let s := if !c.gen.isEmpty && sliceDone slices (c.done ++ [k]) own (s.copyCount i c) then s.leaveFlow own else s
            let (cl, core) := s.seat x.warp
            if !s.poisoned cl core false l then s
            else
              let ks := k :: c.done
              let whole := (List.range 128).all (fun o =>
                let b := da - BitVec.ofNat 64 (da.toNat % 128) + BitVec.ofNat 64 o
                ks.any (fun k' => match itemAt (s.slicesOf i c) k' with
                  | some (y, j') => (y.addrs j').any (fun a => a.2 == b)
                  | none => false))
              if whole then s.clearPoison cl core false l else s
      | _, _ => s

/-! ### The ends of a copy -/

/-- The warps whose DRAIN is over go on (R213). -/
def State.endDrains (s : State) : State :=
  (List.range s.warps.length).foldl (fun s w =>
    match (s.warp? w).map Warp.hold with
    | some (.drain ms) => if !s.savedWarp w && ms.all (s.drainMet w) then s.resumeHold w else s
    | _ => s) s

/-- A copy has ended: its slices with it, and its flow goes on where it completed. -/
def State.copyEnd (s : State) (i : Nat) (st : CopyState) : State :=
  match s.copies[i]? with
  | none => s
  | some c =>
    let s := (i :: c.gen).foldl (fun s j => s.modCopy j (fun c => { c with state := st, waitPage := none })) s
    let s := if st == .done then (i :: c.gen).foldl State.leaveFlow s else s
    s.endDrains

/-- A copy that has made both its adds has ended (R246). -/
def State.copyCheck (s : State) (i : Nat) : State :=
  match s.copies[i]? with
  | none => s
  | some c => if c.rels && c.vis then s.copyEnd i .done else s

/-- The scope of a copy, with the default of its destination (R239). -/
def Copy.effScope (c : Copy) : Scope :=
  match c.scope with
  | .dflt => (match c.mem with | 0 => .core | 1 => .cluster | 2 => .device | _ => .system)
  | .warp => .core
  | x => x

/-- What a copy, or each slice of a generation, has written is released at its scope (R242, R247). -/
def State.copyRelease (s : State) (i : Nat) (c : Copy) : State :=
  (s.slicesOf i c).foldl (fun s y => (s.release y.2.warp y.2.effScope).1) s

/-- An add of N to a counter that a copy names. -/
def State.copyAdd (s : State) (i : Nat) (c : Copy) (ctr : DWord) : State :=
  if ctr == 0 then s else s.engineAdd c.warp c.kind.opc ctr (BitVec.ofNat 64 (s.copyCount i c)) c.desc

/-- The next context after the last one served that has a copy to start (R331). -/
def nextContext (last : Nat) (cs : List Nat) : Nat :=
  let later := cs.filter (fun c => last < c)
  leastOf (if later.isEmpty then cs else later)

/-- The priority of a bucket (R356). -/
def State.bucketPrio (s : State) (ctx : Nat) (b : Byte) : Nat :=
  let base := ((s.ctxs[ctx]?).map Ctx.bpbase).getD 0
  if base == 0 then 0
  else
    let va := base + b.setWidth 64
    match s.translate ctx va.toNat, s.ctxLoc ctx va with
    | .ok t, some l => if t.r && (t.attr == 0 || t.attr == 2) then (s.placeRead l 0).toNat else 0
    | _, _ => 0

/-- The copy that a port starts next (R331): of the context whose turn it is, one passed over 4,096 times, else the highest bucket priority,
else the earliest queued. -/
def State.pickCopy (s : State) (cl core : Nat) : Option (Nat × Nat) :=
  let q := s.copies.zipIdx.filter (fun (c, _) => c.state == .queued && s.seat c.warp == (cl, core) && !s.savedWarp c.warp)
  if q.isEmpty then none
  else
    let ctx := nextContext (s.core cl core).served ((q.map (fun (c, _) => s.ctxIx c.warp)).eraseDups)
    let mine := q.filter (fun (c, _) => s.ctxIx c.warp == ctx)
    match mine.find? (fun (c, _) => 4096 ≤ c.passed) with
    | some (_, i) => some (ctx, i)
    | none =>
      let best := mine.foldl (fun m (c, _) => max m (s.bucketPrio ctx c.bucket)) 0
      (mine.find? (fun (c, _) => s.bucketPrio ctx c.bucket == best)).map (fun (_, i) => (ctx, i))

/-- COPY_START (R246, R331): a port that runs fewer than 8 copies starts one. A deterministic one that stages a write is counted (R351). -/
def execCopyStart (cl core : Nat) (s : State) : Host.Outcome State Fault Refusal :=
  let running := (s.copies.filter (fun c => c.state == .running && s.seat c.warp == (cl, core))).length
  match s.pickCopy cl core with
  | none => .next s
  | some (ctx, i) =>
    when_ (decide (running < 8))
      (let s : State := { s with copies := s.copies.zipIdx.map (fun (c, j) =>
          if j = i then { c with state := .running }
          else if j < i && c.state == .queued && s.seat c.warp == (cl, core) && s.ctxIx c.warp == ctx then { c with passed := c.passed + 1 }
          else c) }
       (s.modCore cl core (fun k => { k with served := ctx })).noteStaged i) s

/-- Every byte of a copy's sources has been read. -/
def State.allRead (s : State) (i : Nat) (c : Copy) : Bool :=
  c.indexed && (List.range (s.copyCount i c)).all (fun k => c.reads.any (fun x => x.1 == k) || c.done.contains k)

/-- COPY_SOURCE_READ_DONE (R242): the release counter receives its add. -/
def execCopySourceReadDone (i : Nat) (s : State) : Host.Outcome State Fault Refusal :=
  match s.copies[i]? with
  | none => .next s
  | some c =>
    when_ (s.copyRuns i c && !c.rels && (s.copyStatic i c).isNone && s.allRead i c && s.ctrReady c.warp (c.d 4))
      (((s.copyAdd i c (c.d 4)).modCopy i (fun c => { c with rels := true })).copyCheck i) s

/-- COPY_COMPLETE (R242, R246, R389): every destination byte is visible at the copy's scope, and the visibility counter receives its add. -/
def execCopyComplete (i : Nat) (s : State) : Host.Outcome State Fault Refusal :=
  match s.copies[i]? with
  | none => .next s
  | some c =>
    when_ (s.copyRuns i c && !c.vis && (s.copyStatic i c).isNone && s.allRead i c &&
        (List.range (s.copyCount i c)).all c.done.contains && s.ctrReady c.warp (c.d 5) && (s.slicesOf i c).all (fun y => !s.flowAhead y.1))
      (let s := s.copyRelease i c
       ((s.copyAdd i c (c.d 5)).modCopy i (fun c => { c with vis := true })).copyCheck i) s

/-- The counters that a failed copy gives ERR (R247): its two, or, where its slices disagree, all that they name. -/
def State.failCtrs (s : State) (i : Nat) (c : Copy) (mismatch : Bool) : List DWord :=
  if mismatch then (((s.slicesOf i c).flatMap (fun y => [y.2.d 4, y.2.d 5])).filter (fun a => a != 0)).eraseDups
  else [c.d 4, c.d 5].filter (fun a => a != 0)

/-- A copy fails (R247): its counters receive ERR, and one entry is logged. -/
def State.copyFails (s : State) (i : Nat) (c x : Copy) (reason nack item : Nat) : State :=
  let s := s.copyRelease i c
  let cs := s.failCtrs i c (reason == 0x41)
  let s := s.copyEntry x.warp c.kind.opc reason 0 nack (BitVec.ofNat 64 item) x.desc
  let s := cs.foldl (fun s a => s.engineAdd c.warp c.kind.opc a (errInc 0) c.desc) s
  s.copyEnd i .failed

/-- The node of a judged place at a peer. -/
def Judge.peer? (j : Judge) : Option Nat :=
  match j.loc?.map Loc.place with
  | some (.peer n) => some n
  | _ => none

/-- The bytes a copy has to move from or to a peer: each with its slice, its item, and the node. -/
def State.copyPeers (s : State) (i : Nat) (c : Copy) : List (Copy × Nat × Nat) :=
  (List.range (s.copyCount i c)).filterMap (fun k =>
    if c.done.contains k then none
    else match itemAt (s.slicesOf i c) k with
      | none => none
      | some (x, j) => (x.addrs j).bind (fun a =>
          ((s.copyReads x a.1).peer?.orElse (fun _ => (s.copyWrites x a.2).peer?)).map (fun n => (x, x.item j, n))))

/-- A copy has bytes to move from or to a peer. -/
def State.copyPeer (s : State) (i : Nat) (c : Copy) : Bool := !(s.copyPeers i c).isEmpty

/-- COPY_FAIL (R247): a fault that cannot be resolved; or the refusal or the silence of a peer, which a free value chooses (log 2). A counter whose
page is still to come is waited for. -/
def execCopyFail (i : Nat) (s : State) : Host.Outcome State Fault Refusal :=
  match s.copies[i]? with
  | none => .next s
  | some c =>
    if !s.copyRuns i c then .next s
    else
      match s.copyFault i c with
      | some (r, item, x) => when_ ((s.failCtrs i c (r == 0x41)).all (s.ctrReady c.warp)) (s.copyFails i c x r (if r = codeRemote.toNat then 0x0B else 0) item) s
      | none =>
        if !(s.failCtrs i c false).all (s.ctrReady c.warp) then .next s
        else
          let (n, s1) := s.fresh 3
          let ps := s.copyPeers i c
          match ps[(Config.freeBits n).toNat % ps.length]? with
          | none => .next s
          | some (x, item, node) =>
            if (Config.freeBits (n + 1)).getLsbD 0 then .next (s1.copyFails i c x codeRtimeout.toNat 0 item)
            else .next (s1.copyFails i c x codeRemote.toNat (nackOf node (Config.freeBits (n + 2)).toNat) item)

/-- COPY_PAGE_RESOLVED (R247, R310). -/
def execCopyPageResolved (i : Nat) (s : State) : Host.Outcome State Fault Refusal :=
  match s.copies[i]? with
  | none => .next s
  | some c =>
    match c.waitPage with
    | none => .next s
    | some p => when_ (s.pageKnown (s.ctxIx c.warp) p) ((s.modCopy i (fun c => { c with waitPage := none })).noteStaged i) s

/-- ACCESS_PERFORMED (R381): one request, write-back, or byte of a copy is performed where nothing holds it back. -/
def execAccessPerformed (r : AccRef) (s : State) : Host.Outcome State Fault Refusal :=
  match r with
  | .req n i => .next (s.performRef n i)
  | .writeBack cl core asid vline => .next (s.evict cl core asid vline)
  | .copyRead c k => .next (s.copyRead c k)
  | .copyWrite c k => .next (s.copyWrite c k)

/-! ### The ticket unit's releases (R318 to R320, R351 to R353) -/

/-- A copy has yet to read a byte of an LCM page, or an index, or indices that name its bytes. -/
def State.copyLevels (s : State) (i : Nat) (c : Copy) : Bool :=
  let lcm := fun (j : Judge) => match j.loc?.map Loc.place with
    | some (.lcm _) => true
    | _ => false
  !c.indexed ||
  (List.range (s.copyCount i c)).any (fun k =>
    !c.done.contains k && !c.reads.any (fun x => x.1 == k) && (match itemAt (s.slicesOf i c) k with
      | none => false
      | some (x, j) => (x.addrs j).any (fun a => lcm (s.copyReads x a.1))))

/-- A block's reads of LCM lines have been performed, those of its copies too: they include none of its own requests (R320). -/
def State.levelsRead (s : State) (b : Nat) : Bool :=
  s.accs.all (fun a => a.block != b || !a.op.isRead || a.reqs.all (fun r => r.done || (match r.loc.place with
    | .lcm _ => false
    | .glob _ | .nc | .scr _ _ | .peer _ => true))) &&
  s.copies.zipIdx.all (fun (c, i) => ((s.warp? c.warp).map Warp.block != some b) || !c.live || !s.copyLevels i c)

/-- No staged request of a block is for a counter that an instruction with the trap policy has reserved (R210, R318). -/
def State.unreserved (s : State) (b : Nat) : Bool :=
  (s.stagedReqs b).all (fun k =>
    match s.accs[k.1]?, (s.accs[k.1]?).bind (fun a => a.reqs[k.2]?) with
    | some a, some r => !s.reserved k.1 a r
    | _, _ => true)

/-- TICKET_RELEASE (R351, R353): the staged writes of the block that NEXT names are released, at its end, when NEXT goes on, or early where
it has staged all it may. A counter that is reserved is waited for (R318). NEXT does not pass a block while a write-back of it is refused (R393). -/
def execTicketRelease (l : Nat) (s : State) : Host.Outcome State Fault Refusal :=
  match s.launches[l]? with
  | none => .next s
  | some x =>
    if !pktDet x.pkt then .next s
    else
      let of := fun (done : Bool) => (List.range s.blocks.length).find? (fun b =>
        ((s.blocks[b]?).map (fun k => k.launch == l && k.ix == x.next && k.finished == done && (!done || k.failed))).getD false)
      match (of false).orElse (fun _ => of true) with
      | none => .next s
      | some b =>
        let gone := ((s.blocks[b]?).map Block.finished).getD false
        let again := s.gangs.any (fun g => g.launch == l && !g.placed && !g.killed &&
          ((s.blocks[b]?).bind (fun k => s.gangs[k.gang]?)).any (fun h => h.ix == g.ix))
        if gone then when_ (!again) (s.modLaunch l (fun x => { x with next := x.next + 1, early := none })) s
        else if !s.unreserved b then .next s
        else if s.blockEnded b then
          let (s, bad) := (s.releaseStaged b).performDevice b
          .next (if bad.isSome then s else s.modLaunch l (fun x => { x with next := x.next + 1, early := none }))
        else if s.stageWait b && x.early != some x.next && s.levelsRead b then
          let s := (s.releaseStaged b).modLaunch l (fun y => { y with early := some y.next })
          .next ((s.warpsOf b).foldl (fun s w => s.modWarp w (fun y => if y.hold == .issue .stage then { y with hold := .none } else y)) s)
        else .next s

end Sys2Proof.Machine
end

