-- ==== Sys2Proof/Machine/MmaRun.lean ====
section
/-! DEFINITION. The matrix engine as it runs (R253 to R266, R270, R271): the parameter block, operand reads, bands, the spill, and how an MMA ends or
fails. -/
namespace Sys2Proof.Machine

/-! ### The parameter block (R253 to R259) -/

/-- A 32-bit word of a block. -/
def blkWord (b : List Byte) (off : Nat) : Nat := bitsOf (word64 b off) 0 32

/-- An operand's descriptor (R254), by its offset. -/
structure Operand where
  addr : DWord
  stride : Nat
  fmt : Nat
  scale : DWord
  sstride : Nat
  res : Nat
deriving DecidableEq, Repr

/-- Read a descriptor. -/
def operandAt (b : List Byte) (off : Nat) : Operand :=
  { addr := word64 b off, stride := blkWord b (off + 8), fmt := blkWord b (off + 12), scale := word64 b (off + 16)
    sstride := blkWord b (off + 24), res := blkWord b (off + 28) }

/-- Bits of a format word. -/
def fmtBits (f lo n : Nat) : Nat := f / 2 ^ lo % 2 ^ n

/-- The operand is in a block format (R255). -/
def Operand.bfp (o : Operand) : Bool := fmtBits o.fmt 7 1 == 1

/-- The block format of an operand, code 3 being none. -/
def Operand.bfmt (o : Operand) : Option Bfmt :=
  match fmtBits o.fmt 4 2 with
  | 0 => some .bfp8
  | 1 => some .bfp6
  | 2 => some .bfp4
  | _ => none

/-- The effective width W. -/
def Operand.width (o : Operand) : Nat := fmtBits o.fmt 8 4

/-- The element type of an operand (R255). -/
def Operand.ty (o : Operand) : Option Ty :=
  match fmtBits o.fmt 0 4 with
  | 0x4 => some .i8
  | 0xA => some .f16
  | 0xB => some .bf16
  | 0xE => some .e4m3
  | 0xF => some .e5m2
  | _ => none

/-- A descriptor breaks R254 or R255. -/
def Operand.bad (o : Operand) : Bool :=
  o.res != 0 || fmtBits o.fmt 16 16 != 0 || fmtBits o.fmt 12 2 != 0 || fmtBits o.fmt 6 1 != 0 || fmtBits o.fmt 14 2 == 3 ||
  (if o.bfp then
     fmtBits o.fmt 0 4 != 0 || (match o.bfmt with
       | none => true
       | some f => o.width < 2 || bfpBits f < o.width)
   else o.width != 0 || fmtBits o.fmt 4 2 != 0 || o.ty.isNone || o.scale != 0 || o.sstride != 0)

/-- Two operands pair (R259). -/
def pairs (a b : Operand) : Bool :=
  if a.bfp || b.bfp then a.bfp && b.bfp
  else a.ty == b.ty || ((a.ty == some .e4m3 || a.ty == some .e5m2) && (b.ty == some .e4m3 || b.ty == some .e5m2))

/-- The bytes of an element of an operand (R182). -/
def Operand.size (o : Operand) : Nat := if o.ty == some .f16 || o.ty == some .bf16 then 2 else 1

/-- Operand A. -/
def mmaA (b : List Byte) : Operand := operandAt b 0
/-- Operand B. -/
def mmaB (b : List Byte) : Operand := operandAt b 0x20
/-- CTR (R253). -/
def mmaCtr (b : List Byte) : DWord := word64 b 0x48
/-- OUT (R253). -/
def mmaOut (b : List Byte) : DWord := word64 b 0x50
/-- OSTRIDE (R253). -/
def mmaOstride (b : List Byte) : Nat := blkWord b 0x58
/-- OFMT (R257). -/
def mmaOfmt (b : List Byte) : Nat := blkWord b 0x5C

/-- The accumulators are INT32 (R259). -/
def mmaInt (b : List Byte) : Bool := !(mmaA b).bfp && (mmaA b).ty == some .i8

/-- The type of a spill (R257). -/
def mmaOutTy (b : List Byte) : Option Ty :=
  match fmtBits (mmaOfmt b) 0 4 with
  | 0x6 => if mmaInt b then some .i32 else none
  | 0x9 => if mmaInt b then none else some .f32
  | 0xA => if mmaInt b then none else some .f16
  | 0xB => if mmaInt b then none else some .bf16
  | _ => none

/-- A parameter block breaks R259 (reason DESC). -/
def mmaDesc (b : List Byte) : Bool :=
  (List.range 4).any (fun i => word64 b (0x60 + 8 * i) != 0) || bitsOf (mmaShape b) 40 24 != 0 ||
  mmaMB b < 1 || 4 < mmaMB b || mmaNB b < 1 || 4 < mmaNB b || mmaKB b = 0 || 16 < mmaACC b + mmaMB b * mmaNB b ||
  (mmaA b).bad || (mmaB b).bad || !pairs (mmaA b) (mmaB b) || fmtBits (mmaOfmt b) 11 21 != 0 ||
  (if mmaOut b == 0 then mmaOstride b != 0 || mmaOfmt b != 0
   else 3 < fmtBits (mmaOfmt b) 4 3 || fmtBits (mmaOfmt b) 9 2 == 3 || (mmaOutTy b).isNone)

/-- An address lies in the own scratchpad window. -/
def inOwn (va : DWord) : Bool :=
  match regionOf va.toNat with
  | .own _ => true
  | .global | .peer | .cluster _ _ | .reserved => false

/-- Why an MMA fails when it starts (R258, R259, R266). -/
def mmaStatic (b : List Byte) : Option Nat :=
  let ops := [mmaA b, mmaB b]
  let osz := if mmaOutTy b == some .f16 || mmaOutTy b == some .bf16 then 2 else 4
  if mmaDesc b then some 0x40
  else if ops.any (fun o => if o.bfp then o.scale.toNat % 64 != 0 else o.addr.toNat % o.size != 0 || o.stride % o.size != 0) ||
      (mmaOut b != 0 && ((mmaOut b).toNat % osz != 0 || mmaOstride b % osz != 0)) then some codeAlign.toNat
  else if ops.any (fun o => o.bfp && !inOwn o.scale) then some codeProt.toNat
  else none

/-! ### Operand reads (R258) -/

/-- A range of operand bytes: its address, its length, and whether it must lie in the own scratchpad window. -/
structure Span where
  va : DWord
  len : Nat
  own : Bool
deriving DecidableEq, Repr

/-- The spans of one row of an operand of KB runs. -/
def Operand.row (o : Operand) (kb i : Nat) : List Span :=
  let va := o.addr + BitVec.ofNat 64 (i * o.stride)
  if o.bfp then
    let n := (o.bfmt.map bfpBits).getD 8
    [{ va := va, len := kb * 4 * n, own := false }, { va := o.scale + BitVec.ofNat 64 (i * o.sstride), len := kb, own := true }]
  else [{ va := va, len := 32 * kb * o.size, own := false }]

/-- The parts of a span line by line. -/
def Span.parts (p : Span) : List (DWord × Nat) :=
  let first := p.va.toNat % 128
  (List.range ((first + p.len + 127) / 128)).map (fun k =>
    let lo := if k = 0 then 0 else 128 * k - first
    let hi := min p.len (128 * (k + 1) - first)
    (p.va + BitVec.ofNat 64 lo, hi - lo))

/-- A canonical address of a warp lies in an LCM page. -/
def State.inLcm (s : State) (w : Nat) (va : DWord) : Bool :=
  canonical va && (match s.resolve w va with
    | .ok (_, l) => (match l.place with
      | .lcm _ => true
      | .glob _ | .nc | .scr _ _ | .peer _ => false)
    | .error _ => false)

/-- What the read of an operand's bytes at one line meets: an LCM page, whatever its permissions (R184), or a peer is refused (R259). -/
def State.operandJudge (s : State) (w : Nat) (p : Span) (va : DWord) : Judge :=
  if (p.own && !inOwn va) || regionOf va.toNat == .peer then .bad 50 codeProt 0
  else if s.inLcm w va then .bad 40 codeLcm 1
  else s.judge w .read va 1

/-- The HINT of a format word (R255, R257). -/
def fmtHint (n : Nat) : Hint :=
  match n with
  | 1 => .evictFirst
  | 2 => .evictLast
  | _ => .normal

/-- Read the bytes of a span under its operand's hint, line by line (R258, R271). -/
def State.readSpan (s : State) (w : Nat) (h : Hint) (p : Span) : List Byte × State :=
  p.parts.foldl (fun (bs, s) (va, n) =>
    match s.operandJudge w p va with
    | .ok _ l =>
      (List.range n).foldl (fun (bs, s) i =>
        let (v, s) := s.engineRead w { l with addr := l.addr + i } (va + BitVec.ofNat 64 i) 1 (some h)
        (bs ++ [v.setWidth 8], s)) (bs, s)
    | .bad _ _ _ | .absent => (bs, s)) ([], s)

/-- The spans that a band reads: its rows of A, and every row of B. -/
def bandSpans (b : List Byte) (band : Nat) : List Span :=
  (List.range 32).flatMap (fun i => (mmaA b).row (mmaKB b) (32 * band + i)) ++
  (List.range (32 * mmaNB b)).flatMap (fun j => (mmaB b).row (mmaKB b) j)

/-- What the reads of a band meet, line by line. -/
def State.bandJudges (s : State) (m : Mma) (band : Nat) : List (DWord × Nat × Judge) :=
  (bandSpans m.blk band).flatMap (fun p => p.parts.map (fun q => (q.1, q.2, s.operandJudge m.warp p q.1)))

/-- The elements of a row, as exact values (R122, R123, R182). -/
def operandVals (o : Operand) (kb : Nat) (rows : List (List Byte)) : List FVal :=
  let bs := rows.headD []
  if o.bfp then
    let f := o.bfmt.getD .bfp8
    let n := 4 * bfpBits f
    let sc := (rows.drop 1).headD []
    (List.range kb).flatMap (fun q =>
      let rec_ := (sc.getD q 0).toNat + 256 * leNat ((bs.drop (q * n)).take n)
      (List.range 32).map (fun i => bfpElem f o.width rec_ i))
  else
    (List.range (32 * kb)).map (fun k =>
      let v := leNat ((bs.drop (k * o.size)).take o.size)
      if o.ty == some .i8 then fofInt (BitVec.ofNat 8 v).toInt else fdec (o.ty.getD .f16) v)

/-- An exact value that is an integer. -/
def fvalInt : FVal → Int
  | .fin neg m e _ => signed neg (m * 2 ^ e.toNat)
  | .nan | .inf _ => 0

/-- The sum of one accumulator element over the runs of a row and a column (R125, R261). DEDUCED (log 112): the product of a zero and a negative element of a
block format is −0, as R116 gives it, so that a run of such products can be −0. -/
def accumulate (int : Bool) (kb : Nat) (x y : List FVal) (c : Word) : Word :=
  (List.range kb).foldl (fun c q =>
    let ps := (((x.drop (32 * q)).take 32).zip ((y.drop (32 * q)).take 32)).map (fun p => fmulv p.1 p.2)
    if int then c + BitVec.ofInt 32 ((ps.map fvalInt).sum)
    else
      let run := fenc .f32 {} (faddv .rn ps)
      BitVec.ofNat 32 (fadd .f32 {} c.toNat run)) c

/-- The word of an accumulator element (R251). -/
def tileWord (b : List Byte) (i j : Nat) : Nat := 1024 * (mmaACC b + i / 32 * mmaNB b + j / 32) + 32 * (i % 32) + j % 32

/-! ### The engine's state -/

/-- The progress register of an MMA. -/
def State.progOf (s : State) (cl core : Nat) (m : Mma) : DWord := (s.core cl core).prog.getD (mmaPROG m.blk) 0

/-- ROWS of a progress register (R262). -/
def progRows (p : DWord) : Nat := bitsOf p 40 8
/-- WAITPG of a progress register. -/
def progWait (p : DWord) : Bool := p.getLsbD 62

/-- Write a progress register. -/
def State.setProg (s : State) (cl core : Nat) (m : Mma) (v : DWord) : State :=
  s.modCore cl core (fun k => { k with prog := k.prog.set (mmaPROG m.blk) v })

/-- A progress register with ROWS and WAITPG. -/
def progValue (m : Mma) (rows : Nat) (busy wait : Bool) : DWord :=
  BitVec.ofNat 64 ((if busy then 2 ^ 63 else 0) + (if wait then 2 ^ 62 else 0) + rows * 2 ^ 40 + m.addr.toNat % 2 ^ 32)

/-- The MMA at the head of an engine's queue, if it runs. -/
def State.runningMma (s : State) (cl core : Nat) : Option Mma := ((s.core cl core).mmaq.head?).filter Mma.running

/-- The fences of the core that were issued before an MMA have completed (R212). -/
def State.mmaFenced (s : State) (cl core : Nat) (m : Mma) : Bool :=
  (s.accs.take m.after).all (fun a => a.op != .fenceop || a.wb || s.seat a.warp != (cl, core))

/-- The block of an MMA. -/
def State.mmaBlock (s : State) (m : Mma) : Nat := ((s.warp? m.warp).map Warp.block).getD 0

/-- A deterministic MMA's operand reads are held until NEXT reaches its block (R352, R393). -/
def State.mmaHeld (s : State) (m : Mma) : Bool :=
  !s.nextReached (s.mmaBlock m) && s.detOf (s.mmaBlock m) &&
  (List.range (mmaMB m.blk)).any (fun b => (s.bandJudges m b).any (fun x => s.foreignAt m.warp x.1 x.2.2))

/-- The elements of a spill, in the order they are written: row and column. -/
def spillElems (b : List Byte) : List (Nat × Nat) :=
  (List.range (32 * mmaMB b)).flatMap (fun i => (List.range (32 * mmaNB b)).map (fun j => (i, j)))

/-- The bytes of a spilled element. -/
def spillSize (b : List Byte) : Nat := if mmaOutTy b == some .f16 || mmaOutTy b == some .bf16 then 2 else 4

/-- The address of a spilled element (R266). -/
def spillAddr (b : List Byte) (i j : Nat) : DWord := mmaOut b + BitVec.ofNat 64 (i * mmaOstride b + j * spillSize b)

/-- What the write of a spilled element meets. -/
def State.spillJudge (s : State) (m : Mma) (e : Nat × Nat) : Judge :=
  s.engineJudge m.warp .write (spillAddr m.blk e.1 e.2) (spillSize m.blk)

/-- A deterministic spill stages a write (R351). -/
def State.spillStages (s : State) (m : Mma) : Bool :=
  mmaOut m.blk != 0 && s.detOf (s.mmaBlock m) && (spillElems m.blk).any (fun e => s.foreignAt m.warp (spillAddr m.blk e.1 e.2) (s.spillJudge m e))

/-- It is held until NEXT reaches its block (R352). -/
def State.spillHeld (s : State) (m : Mma) : Bool := !s.nextReached (s.mmaBlock m) && s.spillStages m

/-- A restack stops what an engine would read or write (R413). -/
def State.anyStopped (s : State) (js : List Judge) : Bool := s.drainShelf && js.any (fun j => (j.loc?).any (fun l => !s.injects l))

/-- A spilled element after its conversion (R116, R117, R266), with what the bounds check makes of it. -/
def State.spillValue (s : State) (cl core : Nat) (m : Mma) (e : Nat × Nat) : List Bound :=
  let w := (accRead (s.core cl core).acc (tileWord m.blk e.1 e.2)).toNat
  let rm : Rm := match fmtBits (mmaOfmt m.blk) 4 3 with
    | 0 => .rn
    | 1 => .rz
    | 2 => .rd
    | _ => .ru
  let ty := (mmaOutTy m.blk).getD .f32
  let v := if ty == .f16 || ty == .bf16 then f2f ty .f32 { rm := rm, sat := fmtBits (mmaOfmt m.blk) 7 1 == 1 } w else w
  checkElem (s.boundsEntries m.warp) (spillAddr m.blk e.1 e.2) ty v

/-! ### Events of the engine -/

/-- An MMA has ended or failed: its register is freed and its entry leaves the queue (R262, R264). A word that R270 left undefined stays the
free value it holds. -/
def State.mmaEnd (s : State) (cl core : Nat) (m : Mma) : State :=
  let p := s.progOf cl core m
  let s := s.setProg cl core m (freeProg p)
  s.modCore cl core (fun k =>
    let k := { k with mmaq := k.mmaq.drop 1 }
    { k with undef := k.undef.filter (fun x => k.names (x / 1024)) })

/-- An MMA fails (R264), with a NACK reason where a peer has refused it. -/
def State.mmaFails (s : State) (cl core : Nat) (m : Mma) (reason : Nat) (nack : Nat := 0) : State :=
  let desc := [m.addr, 0, 0, 0, 0, 0]
  let ctr := mmaCtr m.blk
  let s := s.copyEntry m.warp 0xC0 reason m.thread nack (s.progOf cl core m) desc
  let s := if ctr == 0 then s
    else ((s.release m.warp (ctrScope .dflt ctr)).1).engineAdd m.warp 0xC0 ctr (errInc 0) desc m.thread
  s.mmaEnd cl core m

/-- MMA_START (R259, R261): the engine takes the next MMA of its queue. One that fails waits for the page of its counter, if it is still to
come (R305). -/
def execMmaStart (cl core : Nat) (s : State) : Host.Outcome State Fault Refusal :=
  match (s.core cl core).mmaq with
  | [] => .next s
  | m :: r =>
    if m.running || s.savedWarp m.warp then .next s
    else
      match mmaStatic m.blk with
      | some reason => when_ (s.ctrReady m.warp (mmaCtr m.blk)) (s.mmaFails cl core m reason) s
      | none =>
        .next ((s.modCore cl core (fun k => { k with mmaq := { m with running := true } :: r })).setProg cl core m (progValue m 0 true false))

/-- The first element of a spill that cannot be written now, with its number and what it meets. -/
def State.spillStop (s : State) (m : Mma) : Option (Judge × Nat) :=
  (spillElems m.blk).zipIdx.findSome? (fun (e, k) => match s.spillJudge m e with
    | .ok _ _ => none
    | j => some (j, k))

/-- What the spill of an MMA meets first: a bounds entry of the whole tile that traps, else a fault at an element; `none` where it can be
written, or waits for a page. -/
def State.spillFault (s : State) (cl core : Nat) (m : Mma) : Option (Nat × Nat) :=
  if (spillElems m.blk).any (fun e => (boundTrap (s.spillValue cl core m e)).isSome) then some (codeBounds.toNat, 0)
  else (s.spillStop m).bind (fun x => x.1.reason.map (fun r => (r, x.2)))

/-- The spill of an MMA waits for a page (R266). -/
def State.spillWaits (s : State) (cl core : Nat) (m : Mma) : Bool :=
  (s.spillFault cl core m).isNone && (s.spillStop m).any (fun x => x.1.isAbsent)

/-- Write the first n elements of a spill (R266), by the bounds entries that stand as it starts. Those that FLAG or CLAMP acts on set HIT of their
entries (R355). -/
def State.spill (s : State) (cl core : Nat) (m : Mma) (n : Nat) : State :=
  let h := fmtHint (fmtBits (mmaOfmt m.blk) 9 2)
  let hits := ((spillElems m.blk).take n).flatMap (fun e => (s.spillValue cl core m e).filterMap Bound.entry)
  let value := fun (e : Nat × Nat) => boundValue (s.spillValue cl core m e)
  let s := s.setHits m.warp hits
  ((spillElems m.blk).take n).foldl (fun s e =>
    match s.spillJudge m e with
    | .ok _ l =>
      let v := BitVec.ofNat 64 (value e)
      let s := s.engineWrite m.warp h l (spillSize m.blk) v
      let (a, b) := s.seat m.warp
      let whole := (List.range 128).all (fun o =>
        let x := spillAddr m.blk e.1 e.2 - BitVec.ofNat 64 ((spillAddr m.blk e.1 e.2).toNat % 128) + BitVec.ofNat 64 o
        (spillElems m.blk).any (fun f => (x - spillAddr m.blk f.1 f.2).toNat < spillSize m.blk))
      if s.poisoned a b false l && whole then s.clearPoison a b false l else s
    | .bad _ _ _ | .absent => s) s

/-- ZERO (R266): the words of an MMA's tile are set to 0. Those that a program wrote while the MMA ran are undefined (R270): free values
(log 2). -/
def State.zeroTile (s : State) (cl core : Nat) (m : Mma) : State :=
  let mine := fun (a : Nat) => mmaACC m.blk ≤ a / 1024 && a / 1024 < mmaACC m.blk + mmaMB m.blk * mmaNB m.blk
  let open_ := (s.core cl core).undef.filter mine
  let (n, s) := if open_.isEmpty then (s.freeCtr, s) else s.fresh open_.length
  let ws := open_.zipIdx.map (fun (a, i) => (a, (Config.freeBits (n + i)).setWidth 32))
  s.modCore cl core (fun k => { k with acc := accWrites (k.acc.filter (fun x => !mine x.1)) ws })

/-- The last of an MMA: its spill, ZERO, and the add to CTR (R261, R266, R271). -/
def State.mmaFinish (s : State) (cl core : Nat) (m : Mma) : State :=
  let ctr := mmaCtr m.blk
  let out := mmaOut m.blk != 0
  if s.spillHeld m || !s.ctrReady m.warp ctr || (out && s.anyStopped ((spillElems m.blk).map (s.spillJudge m))) then s
  else if out && s.spillWaits cl core m then
    s.setProg cl core m (progValue m (progRows (s.progOf cl core m)) true true)
  else if out && (s.spillFault cl core m).isSome then s
  else
    let s := if out then s.spill cl core m (spillElems m.blk).length else s
    let s := if out && fmtBits (mmaOfmt m.blk) 8 1 == 1 then s.zeroTile cl core m else s
    let s := if ctr == 0 then s
      else ((s.release m.warp (ctrScope .dflt ctr)).1).engineAdd m.warp 0xC0 ctr 1 [m.addr, 0, 0, 0, 0, 0] m.thread
    s.mmaEnd cl core m

/-- Commit one band (R261): the operands are read and the sums written together. Words that R270 leaves undefined stay free (log 2). -/
def State.commitBand (s : State) (cl core : Nat) (m : Mma) (band : Nat) : State :=
  let b := m.blk
  let kb := mmaKB b
  let rows := fun (s : State) (o : Operand) (is : List Nat) =>
    is.foldl (fun (acc, s) i =>
      let (bs, s) := (o.row kb i).foldl (fun (bs, s) p =>
        let (x, s) := s.readSpan m.warp (fmtHint (fmtBits o.fmt 14 2)) p
        (bs ++ [x], s)) ([], s)
      (acc ++ [operandVals o kb bs], s)) (([] : List (List FVal)), s)
  let (as, s) := rows s (mmaA b) ((List.range 32).map (fun i => 32 * band + i))
  let (bs, s) := rows s (mmaB b) (List.range (32 * mmaNB b))
  let k := s.core cl core
  let (n, s) := if k.undef.isEmpty then (s.freeCtr, s) else s.fresh (32 * 32 * mmaNB b)
  let ws := as.zipIdx.flatMap (fun (x, i) => bs.zipIdx.map (fun (y, j) =>
    let at_ := tileWord b (32 * band + i) j
    (at_, if k.undef.contains at_ then (Config.freeBits (n + 32 * mmaNB b * i + j)).setWidth 32
      else accumulate (mmaInt b) kb x y (accRead k.acc at_))))
  (s.modCore cl core (fun k => { k with acc := accWrites k.acc ws })).setProg cl core m (progValue m (32 * (band + 1)) true false)

/-- A band of an MMA reads poison: a byte of an operand, or a word of its tile (R430). -/
def State.bandPoison (s : State) (cl core : Nat) (m : Mma) (band : Nat) : Bool :=
  (s.bandJudges m band).any (fun x => (x.2.2.loc?).any (fun l => s.enginePoison m.warp l x.2.1)) ||
  (List.range (mmaNB m.blk)).any (fun j => s.poison.contains (accPoison cl core (mmaACC m.blk + band * mmaNB m.blk + j)))

/-- MMA_BAND_COMMIT (R261, R263, R266): the running MMA commits its next band, or waits for a page; after the last band, its spill is written and
its completion add made (log 43). -/
def execMmaBandCommit (cl core : Nat) (s : State) : Host.Outcome State Fault Refusal :=
  match s.runningMma cl core with
  | none => .next s
  | some m =>
    let p := s.progOf cl core m
    let band := progRows p / 32
    if progWait p || !s.mmaFenced cl core m || s.savedWarp m.warp || s.mmaHeld m then .next s
    else if band < mmaMB m.blk then
      let js := s.bandJudges m band
      if js.any (fun x => x.2.2.reason.isSome) || s.anyStopped (js.map (fun x => x.2.2)) then .next s
      else if js.any (fun x => x.2.2.isAbsent) then .next (s.setProg cl core m (progValue m (progRows p) true true))
      else if s.bandPoison cl core m band then .next (s.eccKill m.warp)
      else
        let s := s.commitBand cl core m band
        .next (if band + 1 = mmaMB m.blk && s.spillStages m then s.bump (s.ctxIx m.warp) evTicketWait 1 (some m.warp) else s)
    else .next (s.mmaFinish cl core m)

/-- MMA_RESTART (R263): the pages that the running MMA waits for have come. -/
def execMmaRestart (cl core : Nat) (s : State) : Host.Outcome State Fault Refusal :=
  match s.runningMma cl core with
  | none => .next s
  | some m =>
    let p := s.progOf cl core m
    let band := progRows p / 32
    let absent := if band < mmaMB m.blk then (s.bandJudges m band).any (fun x => x.2.2.isAbsent)
      else s.spillWaits cl core m
    when_ (progWait p && !absent) (s.setProg cl core m (progValue m (progRows p) true false)) s

/-- The elements of a spill that a peer receives, each by its number, with the peer's node. -/
def State.spillPeers (s : State) (m : Mma) : List (Nat × Nat) :=
  (spillElems m.blk).zipIdx.filterMap (fun (e, k) => (s.spillJudge m e).loc?.bind (fun l => match l.place with
    | .peer n => some (k, n)
    | .glob _ | .nc | .lcm _ | .scr _ _ => none))

/-- MMA_FAIL (R264): an operand read or the spill meets a fault that cannot be resolved, or a bounds entry that traps; or a peer refuses the spill,
with a reason that it can give (R424), or keeps silent, which free values choose (log 2). A counter whose page is still to come is waited for (R305). -/
def execMmaFail (cl core : Nat) (s : State) : Host.Outcome State Fault Refusal :=
  match s.runningMma cl core with
  | none => .next s
  | some m =>
    let p := s.progOf cl core m
    let band := progRows p / 32
    if progWait p || !s.mmaFenced cl core m || s.savedWarp m.warp || s.mmaHeld m || !s.ctrReady m.warp (mmaCtr m.blk) then .next s
    else if band < mmaMB m.blk then
      match (s.bandJudges m band).findSome? (fun x => x.2.2.reason) with
      | some r => .next (s.mmaFails cl core m r)
      | none => .next s
    else if mmaOut m.blk == 0 || s.spillHeld m then .next s
    else
      match s.spillFault cl core m with
      | some (r, n) => .next ((s.spill cl core m n).mmaFails cl core m r (if r = codeRemote.toNat then 0x0B else 0))
      | none =>
        let ps := s.spillPeers m
        if ps.isEmpty || s.spillWaits cl core m then .next s
        else
          let (k, s) := s.fresh 3
          let (i, node) := ps.getD ((Config.freeBits k).toNat % ps.length) (0, 0)
          let s := s.spill cl core m i
          if (Config.freeBits (k + 1)).getLsbD 0 then .next (s.mmaFails cl core m codeRtimeout.toNat)
          else .next (s.mmaFails cl core m codeRemote.toNat (nackOf node (Config.freeBits (k + 2)).toNat))

end Sys2Proof.Machine
end

