-- ==== Sys2Proof/Machine/Queues.lean ====
section
/-! DEFINITION. From packet to gang (R26 to R34, R324 to R330): submission, acceptance and rejection, the start of launches, SIGNAL and SEED, forwarding,
the reading of records, and the placing of gangs. -/
namespace Sys2Proof.Machine

/-! ### New contexts and launches -/

/-- A queue that does not exist (R324). -/
def Queue.none_ : Queue := { valid := false, hold := false, logDepth := 0, pkts := [], starts := 0, forwarding := false }

/-- A context right after its creation (R281, R286, R289, R324, R354, R358; log 7). -/
def Ctx.fresh (saggar : Nat) : Ctx :=
  { live := true, cxctl := 0x0000401000000000#64, root := 0, btbase := 0, bpbase := 0, saggar := saggar, func := 0
    lcbase := List.replicate 8 0, events := List.replicate 8 0, recent := [], seeds := []
    queues := List.replicate 16 .none_
    qlog := .zero, clog := .zero, tlog := .zero, unresolvable := [], nextLaunch := 0, acceptedAt := (0, 0), cone := 0, switchedOut := false }

/-- A launch right after its acceptance. -/
def Launch.fresh (ctx queue ix : Nat) (pkt : List Byte) (seed : BitVec 128) (own : List OwnEntry) (clk : Nat) : Launch :=
  { ctx := ctx, queue := queue, pkt := pkt, ix := ix, seed := seed, startedAt := 0, started := false, finished := false
    failed := false, nextGang := 0, records := [], recordsRead := 0, recordsEnd := false, excessLogged := false, blocksDone := 0
    own := own, next := 0, early := none, stalled := false, starvedAt := clk }

/-! ### Fields of a packet (R22, R26, R27) -/

/-- KIND. -/
def pktKind (p : List Byte) : Nat := bitsOf (word64 p 0) 60 4
/-- PRIO. -/
def pktPrio (p : List Byte) : Nat := bitsOf (word64 p 0) 58 2
/-- SEEDOP. -/
def pktSeedop (p : List Byte) : Nat := bitsOf (word64 p 0) 50 2
/-- FORKIX. -/
def pktForkix (p : List Byte) : Nat := bitsOf (word64 p 0) 34 16
/-- FWD. -/
def pktFwd (p : List Byte) : Bool := (word64 p 0).getLsbD 33
/-- NODE. -/
def pktNode (p : List Byte) : Nat := bitsOf (word64 p 0) 25 8
/-- START. -/
def pktStart (p : List Byte) : DWord := word64 p 0x08
/-- The gang size. -/
def pktGang (p : List Byte) : Nat := bitsOf (word64 p 0x20) 32 3 + 1
/-- The wait-table entries per core. -/
def pktWaits (p : List Byte) : Nat := bitsOf (word64 p 0x20) 38 7
/-- PARAM. -/
def pktParam (p : List Byte) : DWord := word64 p 0x28
/-- RECQ. -/
def pktRecq (p : List Byte) : DWord := word64 p 0x30
/-- RECCTR. -/
def pktRecctr (p : List Byte) : DWord := word64 p 0x38
/-- DEPCTR. -/
def pktDep (p : List Byte) : DWord := word64 p 0x40
/-- DEPVAL. -/
def pktDepval (p : List Byte) : DWord := word64 p 0x48
/-- OWNTAB. -/
def pktOwntab (p : List Byte) : DWord := word64 p 0x58
/-- ENTRY of a role. -/
def roleEntry (p : List Byte) (r : Nat) : DWord := word64 p (0x60 + 16 * r)
/-- The second word of a role's descriptor. -/
def roleWord (p : List Byte) (r : Nat) : DWord := word64 p (0x68 + 16 * r)
/-- The V allotment of a role. -/
def roleRegs (p : List Byte) (r : Nat) : Nat := 8 * (bitsOf (roleWord p r) 0 6 + 1)
/-- KIND of a role. -/
def roleKind (p : List Byte) (r : Nat) : Nat := bitsOf (roleWord p r) 6 2
/-- The LEASE register of a role's warp at its start (R279). -/
def roleLease (p : List Byte) (r : Nat) : DWord :=
  BitVec.ofNat 64 (bitsOf (roleWord p r) 16 8 + (if (roleWord p r).getLsbD 15 then 0 else 256))

/-- The warps of a block in the order of R24: the role and the number within it. -/
def pktRoleWarps (p : List Byte) : List (Nat × Nat) :=
  (List.range 4).flatMap (fun r => (List.range (pktWarps p r)).map (fun i => (r, i)))

/-- A block of the packet claims its cores' accumulator stores (R250). -/
def pktClaims (p : List Byte) : Bool := (List.range 4).any (fun r => 0 < pktWarps p r && 2 ≤ roleKind p r)

/-! ### Room on a cluster (R11, R12, R250) -/

/-- What of a core is taken. -/
structure Use where
  warps : Nat
  regs : Nat
  scratch : Nat
  waits : Nat
  claims : Nat
deriving DecidableEq, Repr

/-- Nothing of a core is taken. -/
def Use.zero : Use := { warps := 0, regs := 0, scratch := 0, waits := 0, claims := 0 }

/-- The limits of R11 and R250 hold. -/
def Use.ok (u : Use) : Bool := u.warps ≤ 48 && u.regs ≤ 2048 && u.scratch ≤ 320 * 1024 && u.waits ≤ 64 && u.claims ≤ 1

/-- A block's share is charged on a core. -/
def Use.share (u : Use) (p : List Byte) : Use :=
  { u with scratch := u.scratch + pktScratch p, waits := u.waits + pktWaits p, claims := u.claims + (if pktClaims p then 1 else 0) }

/-- A warp is charged on a core. -/
def Use.warp (u : Use) (regs : Nat) : Use := { u with warps := u.warps + 1, regs := u.regs + regs }

/-- What of a core is taken now. -/
def State.coreUse (s : State) (cl core : Nat) : Use :=
  let u := (s.blocksOn cl core).foldl (fun u b =>
    match s.launchOfBlock b with
    | none => u
    | some l => u.share l.pkt) Use.zero
  (s.warpsOn cl core).foldl (fun u p => u.warp p.2.regs.v.length) u

/-- What is taken once a block's warps stand on given cores. -/
def seatBlock (p : List Byte) (us : List Use) (seats : List Nat) : List Use :=
  us.zipIdx.map (fun (u, c) =>
    if !seats.contains c then u
    else ((pktRoleWarps p).zip seats).foldl (fun u x => if x.2 = c then u.warp (roleRegs p x.1.1) else u) (u.share p))

/-- Blocks fit on the cores of a cluster as they are seated. -/
def seatsFit (p : List Byte) (us : List Use) (n : Nat) (seats : List (List Nat)) : Bool :=
  seats.length == n && seats.all (fun x => x.length == pktTotalWarps p && x.all (fun c => c < 8)) &&
  (seats.foldl (seatBlock p) us).all Use.ok

/-- Seat the warps of a block one after another, on cores it already stands on where they have room. -/
def seatWarps (p : List Byte) : List (Nat × Nat) → List Use → List Nat → Option (List (Nat × Nat) × List Use)
  | [], us, _ => some ([], us)
  | (k, regs) :: ws, us, mine =>
    let room := fun (c : Nat) => (us[c]?).any (fun u => ((if mine.contains c then u else u.share p).warp regs).ok)
    match (mine ++ (List.range 8).filter (fun c => !mine.contains c)).find? room with
    | none => none
    | some c =>
      let us := us.modify c (fun u => (if mine.contains c then u else u.share p).warp regs)
      (seatWarps p ws us (if mine.contains c then mine else mine ++ [c])).map (fun r => ((k, c) :: r.1, r.2))

/-- Seat blocks one after another, their warps in the order of R24 or the widest first. -/
def seatBlocks (p : List Byte) (widest : Bool) : Nat → List Use → Option (List (List Nat))
  | 0, _ => some []
  | n + 1, us =>
    let ws := (pktRoleWarps p).zipIdx.map (fun (x, k) => (k, roleRegs p x.1))
    let ws := if widest then sortBy (fun x => [1024 - x.2, x.1]) ws else ws
    match seatWarps p ws us [] with
    | none => none
    | some (seats, us) =>
      (seatBlocks p widest n us).map (fun r =>
        (List.range (pktTotalWarps p)).map (fun k => ((seats.find? (fun x => x.1 == k)).map Prod.snd).getD 0) :: r)

/-- Seat warps, given by their block and role, in every way that the limits allow, until one succeeds; warps of one block and role stand on
ascending cores. `mine` are the cores of the block seated last, whose last warp `last` names with its core. -/
def searchSeats (p : List Byte) : List (Nat × Nat) → List Use → List Nat → Nat × Nat × Nat → Option (List Nat)
  | [], _, _, _ => some []
  | (b, r) :: ws, us, mine, last =>
    let mine := if b = last.1 then mine else []
    let low := if b = last.1 && r = last.2.1 then last.2.2 else 0
    (List.range 8).findSome? (fun c =>
      match us[c]? with
      | none => none
      | some u =>
        let v := (if mine.contains c then u else u.share p).warp (roleRegs p r)
        if c < low || !v.ok then none else (searchSeats p ws (us.set c v) (c :: mine) (b, r, c)).map (fun s => c :: s))

/-- No seating of n blocks on an idle cluster can keep the limits of R11: their sums alone exceed them. -/
def cannotFit (p : List Byte) (n : Nat) : Bool :=
  let w := pktTotalWarps p
  let regs := ((pktRoleWarps p).map (fun x => roleRegs p x.1)).sum
  let cores := max (max ((w + 47) / 48) ((regs + 2047) / 2048)) 1
  let per := fun (have_ need : Nat) => if need = 0 then 8 * n else have_ / need
  let shares := min (min (per (320 * 1024) (pktScratch p)) (per 64 (pktWaits p))) (if pktClaims p then 1 else 8 * n)
  8 < cores || 384 < n * w || 16384 < n * regs || 8 * shares < n * cores

/-- What n blocks need is more than a cluster has left. -/
def lacksRoom (p : List Byte) (n : Nat) (us : List Use) : Bool :=
  384 < n * pktTotalWarps p + (us.map Use.warps).sum ||
  16384 < n * ((pktRoleWarps p).map (fun x => roleRegs p x.1)).sum + (us.map Use.regs).sum

/-- Seats for n blocks of a packet on the cores of a cluster (R11, R12, R250), if there are any: two first fits are tried before the search through
all of them. -/
def findSeats (p : List Byte) (n : Nat) (us : List Use) : Option (List (List Nat)) :=
  (seatBlocks p false n us).orElse (fun _ => (seatBlocks p true n us).orElse (fun _ =>
    if cannotFit p n || lacksRoom p n us then none
    else
      let w := pktTotalWarps p
      (searchSeats p ((List.range n).flatMap (fun b => (pktRoleWarps p).map (fun x => (b, x.1)))) us [] (n, 0, 0)).map (fun cs =>
        (List.range n).map (fun b => (cs.drop (b * w)).take w))))

/-- A packet whose blocks claim nothing: every role is of kind 0. -/
def unclaiming (p : List Byte) : List Byte := (List.range 4).foldl (fun p r => p.modify (0x68 + 16 * r) (· &&& 0x3F)) p

/-- A gang fits on an idle cluster within the limits of R11 (R12); that a core holds one claiming block at a time is a condition of placement alone
(R250). -/
def gangFits (p : List Byte) (n : Nat) : Bool := (findSeats (unclaiming p) n (List.replicate 8 .zero)).isSome

/-! ### Acceptance (R28, R31, R325, R349) -/

/-- Every byte of a range of a packet is 0. -/
def zeroBytes (p : List Byte) (off n : Nat) : Bool := ((p.drop off).take n).all (fun b => b == 0)

/-- A seed operation would overflow or empty the stack (R31). -/
def seedBad (c : Ctx) (p : List Byte) : Bool :=
  match pktSeedop p with
  | 1 => c.seeds.length == 16
  | 2 => c.seeds.isEmpty
  | 3 => c.seeds.isEmpty || c.seeds.length == 16
  | _ => false

/-- The stack after a packet's operation (R31), the top first. -/
def seedStep (c : Ctx) (p : List Byte) : List (BitVec 128) :=
  match pktSeedop p with
  | 1 => BitVec.ofNat 128 (leNat ((p.drop 0x10).take 16)) :: c.seeds
  | 2 => c.seeds.drop 1
  | 3 =>
    let top := c.seeds.headD 0
    BitVec.ofNat 128 (leNat (shake256 (leBytes 16 top.toNat ++ leBytes 4 (pktForkix p)) 16)) :: c.seeds
  | _ => c.seeds

/-- The reasons of R333 for which a packet is rejected, but for its ownership table. DEDUCED (log 96): the gang whose fit is judged holds no more
blocks than the launch can have, and of a packet to be forwarded the source judges nothing that R30 leaves to the target. -/
def rejections (c : Ctx) (p : List Byte) : List Nat :=
  let ctl := (word64 p 0).toNat
  let bad := fun (b : Bool) (n : Nat) => if b then [n] else []
  match pktKind p with
  | 1 =>
    let fwd := pktFwd p
    let n := min (pktGang p) (pktBlocks p)
    let early := bad (ctl % 2 ^ 25 != 0 || bitsOf (word64 p 0x20) 45 19 != 0 ||
        (List.range 4).any (fun r => bitsOf (roleWord p r) 24 40 != 0)) 1 ++
      bad (pktTotalWarps p == 0 || 96 < pktTotalWarps p) 2 ++
      bad ((List.range 4).any (fun r => 0 < pktWarps p r &&
        (320 < roleRegs p r || 192 < bitsOf (roleWord p r) 16 8 || roleEntry p r == 0 || (roleEntry p r).toNat % 8 != 0))) 3 ++
      bad (5 < bitsOf (word64 p 0x20) 35 3) 4
    early ++
      bad (!fwd && early.isEmpty && 0 < n && !gangFits p n) 5 ++
      bad (pktRagged p && (pktRecq p == 0 || pktRecctr p == 0 || (pktRecq p).toNat % 16 != 0)) 6 ++
      bad (!fwd && seedBad c p) 7 ++
      bad (64 < pktWaits p) 9 ++
      bad ((fwd && pktNode p == 255) || (!fwd && pktNode p != 0)) 10
  | 2 =>
    bad (ctl % 2 ^ 58 != 0 || !zeroBytes p 0x10 0x18 || !zeroBytes p 0x30 0x10 || !zeroBytes p 0x58 0x48) 1 ++ bad (pktDone p == 0) 8
  | 3 =>
    bad (ctl % 2 ^ 34 != 0 || ctl / 2 ^ 52 % 2 ^ 8 != 0 || !zeroBytes p 0x08 8 || !zeroBytes p 0x20 0x30 || !zeroBytes p 0x58 0x48) 1 ++
      bad (seedBad c p) 7
  | _ => [1]

/-- n bytes of a context's memory as the control complex reads them, `none` where a page of theirs is absent or may not be read. A peer's byte is
its module's, a free value (log 2): of the free values to come, the first n. -/
def State.ccRead (s : State) (ctx : Nat) (va : DWord) (n : Nat) : Option (List Byte) :=
  (List.range n).mapM (fun i =>
    let a := va + BitVec.ofNat 64 i
    match s.translate ctx a.toNat, s.ctxLoc ctx a with
    | .ok t, some l => if t.r then some (if isPeer l.place then (Config.freeBits (s.freeCtr + i)).extractLsb' 0 8 else s.placeRead l 0) else none
    | _, _ => none)

/-- A counter word as the scheduler reads it. -/
inductive CcWord where
  | waits | fault | untagged | word (v : DWord)
deriving DecidableEq, Repr

/-- Read a counter of a context as CTRRD does (R29, R330, R363): a page that can be resolved is waited for, and an address that no counter
operation can use is a fault; so is one without read and write permission (log 97). What a peer answers is a free value (log 2): the next of
those to come is the word, and the one after it says whether it is a counter, or refused. -/
def State.ccCounter (s : State) (ctx : Nat) (a : DWord) : CcWord :=
  if a.toNat % 8 != 0 || !canonical a then .fault
  else if s.pageDue ctx a then .waits
  else
    match s.translate ctx a.toNat, s.ctxLoc ctx a with
    | .ok t, some l =>
      if !(t.r && t.w) then .fault
      else
        match l.place with
        | .lcm _ | .scr _ _ => .fault
        | .peer n =>
          let f := Config.freeBits (s.freeCtr + 1)
          if n = 255 || !s.routed n || f.getLsbD 0 then .fault
          else if f.getLsbD 1 then .untagged
          else .word (Config.freeBits s.freeCtr)
        | .glob _ | .nc => if (s.ctrTag l).isNone then .untagged else .word (s.ctrWordAt l)
    | _, _ => .fault

/-- What a read of a peer by the scheduler has used of the free values. -/
def State.spendPeer (s : State) (va : DWord) : State := if regionOf va.toNat == .peer then (s.fresh 16).2 else s

/-- The ownership table at an address (R349), `none` where it breaks its layout or cannot be read. -/
def State.readOwn (s : State) (ctx : Nat) (tab : DWord) : Option (List OwnEntry) :=
  if tab == 0 then some []
  else if tab.toNat % 16 != 0 || regionOf tab.toNat != .global then none
  else
    match s.ccRead ctx tab 16 with
    | none => none
    | some h =>
      let n := leNat (h.take 4)
      if 4096 < n || !zeroBytes h 4 12 then none
      else (List.range n).mapM (fun e =>
        match s.ccRead ctx (tab + BitVec.ofNat 64 (16 + 32 * e)) 32 with
        | none => none
        | some b =>
          let o : OwnEntry := { base := word64 b 0, lines := leNat ((b.drop 8).take 4), per := leNat ((b.drop 12).take 4)
                                first := leNat ((b.drop 16).take 4) }
          if o.base.toNat % 128 != 0 || o.lines = 0 || o.per = 0 || !zeroBytes b 20 12 then none else some o)

/-- Change a packet of a queue. -/
def State.modQueue (s : State) (ctx q : Nat) (f : Queue → Queue) : State :=
  s.modCtx ctx (fun c => { c with queues := c.queues.modify q f })

/-- A queue fault log entry (R333). -/
def State.queueEntry (s : State) (ctx q src reason : Nat) (lix : DWord) (item : DWord) : State :=
  s.logEntry ctx .queue (src * 2 ^ 48 + reason * 2 ^ 40 + q * 2 ^ 36) [lix, item, s.time]

/-- The LAUNCHIX of a packet that is no launch. -/
def noLaunch : DWord := 0xFFFFFFFFFFFFFFFF

/-- PACKET_SUBMIT (R324): the host's or the control cores' submission; a refused one changes nothing. -/
def execPacketSubmit (ctx q : Nat) (pkt : List Byte) (addr : DWord) (s : State) : Host.Outcome State Fault Refusal :=
  when_ (decide (pkt.length = 160)) (s.submit ctx q pkt addr).2 s

/-- A rejected packet leaves its queue (R28). DESIGN CHOICE (log 99): DONECTR of one that was to be forwarded is updated here, in the context of its
queue. -/
def State.reject (s : State) (ctx q k : Nat) (p : QPkt) (reason : Nat) : State :=
  let s := s.modQueue ctx q (fun d => { d with pkts := d.pkts.eraseIdx k })
  let s := s.queueEntry ctx q 1 reason noLaunch p.addr
  if pktDone p.bytes == 0 then s else s.schedAdd ctx 0xFFFFFFFFFFFFFFFF (pktDone p.bytes) (errInc 1)

/-- PACKET_ACCEPT (R28, R31, R326, R349): the first packet of a queue that is not yet accepted is accepted or rejected. In one clk the queues of a
context come in ascending order (R359): one that a later queue has gone before waits for the next clk. -/
def execPacketAccept (ctx q : Nat) (s : State) : Host.Outcome State Fault Refusal :=
  match s.ctxs[ctx]?, (s.ctxs[ctx]?).bind (fun c => c.queues[q]?) with
  | some c, some d =>
    match d.pkts.zipIdx.find? (fun p => !p.1.accepted) with
    | none => .next s
    | some (p, k) =>
      if !c.live || (c.acceptedAt.1 == s.clk && decide (q < c.acceptedAt.2)) then .next s
      else
        let s := s.modCtx ctx (fun c => { c with acceptedAt := (s.clk, q) })
        let det := pktKind p.bytes == 1 && pktDet p.bytes && !pktFwd p.bytes
        let own := if det then s.readOwn ctx (pktOwntab p.bytes) else some []
        let why := rejections c p.bytes ++ (if own.isNone then [1] else [])
        match why with
        | r :: rs => .next (s.reject ctx q k p (rs.foldl min r))
        | [] =>
          if pktKind p.bytes == 1 && pktFwd p.bytes then
            .next (s.modQueue ctx q (fun d => { d with pkts := d.pkts.modify k (fun p => { p with accepted := true }) }))
          else
            let seeds := seedStep c p.bytes
            let l := Launch.fresh ctx q c.nextLaunch p.bytes (seeds.headD 0) (own.getD []) s.clk
            let s : State := { s with launches := s.launches ++ [l] }
            let n := s.launches.length - 1
            let s := s.modCtx ctx (fun c => { c with seeds := seeds, nextLaunch := c.nextLaunch + 1 })
            .next (s.modQueue ctx q (fun d => { d with pkts := d.pkts.modify k (fun p => { p with accepted := true, launch := some n }) }))
  | _, _ => .next s

/-! ### Starting (R29, R32, R325, R326) -/

/-- What the dependence of a packet says (R29): it holds, it does not hold yet, or it has failed with a REASON of SRC 2. -/
inductive Dep where
  | met | waits | failed (reason : Nat)
deriving DecidableEq, Repr

/-- Judge DEPCTR (R29). -/
def State.judgeDep (s : State) (ctx : Nat) (p : List Byte) : Dep :=
  if pktDep p == 0 then .met
  else
    match s.ccCounter ctx (pktDep p) with
    | .waits => .waits
    | .fault => .failed 4
    | .untagged => .failed 3
    | .word v =>
      if (pktDepval p).toNat ≤ ctrValue v then .met
      else if ctrErr v then .failed 1
      else if ctrRetired v then .failed 2
      else .waits

/-- The head of a queue, if it may start but for its dependence (R29, R326). DESIGN CHOICE (log 98): the dependence is judged then, and not
before. -/
def State.startable (s : State) (ctx q kind : Nat) : Option (QPkt × Nat) :=
  match s.ctxs[ctx]?, (s.ctxs[ctx]?).bind (fun c => c.queues[q]?) with
  | some c, some d =>
    match d.pkts with
    | [] => none
    | p :: _ =>
      if p.accepted && !d.hold && c.live && !c.switchedOut && pktKind p.bytes == kind && !(kind == 1 && pktFwd p.bytes) &&
          (pktStart p.bytes).toNat ≤ s.time.toNat then p.launch.map (fun l => (p, l))
      else none
  | _, _ => none

/-- The head of a queue leaves it; `started` counts it among STARTS (R324). -/
def State.popHead (s : State) (ctx q : Nat) (started : Bool) : State :=
  s.modQueue ctx q (fun d => { d with pkts := d.pkts.drop 1, starts := if started then (d.starts + 1) % 2 ^ 32 else d.starts })

/-- Start the head of a queue of a kind, or report that its dependence failed (R29). -/
def State.startHead (s : State) (ctx q kind : Nat) (f : State → Nat → State) : State :=
  match s.startable ctx q kind with
  | none => s
  | some (p, l) =>
    let dep := s.judgeDep ctx p.bytes
    let s := s.spendPeer (pktDep p.bytes)
    match dep with
    | .waits => s
    | .met => f ((s.popHead ctx q true).modLaunch l (fun x => { x with started := true, startedAt := s.clk, starvedAt := s.clk })) l
    | .failed r =>
      let s := s.popHead ctx q false
      let lix := ((s.launches[l]?).map Launch.ix).getD 0
      (s.queueEntry ctx q 2 r (BitVec.ofNat 64 lix) p.addr).launchFail l

/-- LAUNCH_START (R29, R32, R326). -/
def execLaunchStart (ctx q : Nat) (s : State) : Host.Outcome State Fault Refusal :=
  .next (s.startHead ctx q 1 (fun s l => s.launchCheck l))

/-- SIGNAL (R325): an add of PARAM to DONECTR. -/
def execSignal (ctx q : Nat) (s : State) : Host.Outcome State Fault Refusal :=
  .next (s.startHead ctx q 2 (fun s l =>
    match s.launches[l]? with
    | none => s
    | some x =>
      let v := pktParam x.pkt
      let inc := BitVec.ofNat 64 (v.toNat % 2 ^ 62 + (if v.getLsbD 62 then 2 ^ 62 else 0))
      (s.modLaunch l (fun x => { x with finished := true })).schedAdd ctx x.ix (pktDone x.pkt) inc))

/-- SEED (R325): its operation was applied on acceptance; DONECTR receives its add. -/
def execSeed (ctx q : Nat) (s : State) : Host.Outcome State Fault Refusal :=
  .next (s.startHead ctx q 3 (fun s l =>
    match s.launches[l]? with
    | none => s
    | some x => (s.modLaunch l (fun x => { x with finished := true })).signalDone ctx x.ix x.pkt false))

/-! ### Forwarding (R30) -/

/-- PACKET_FORWARD (R30): the head of a queue is sent to its node's control complex, or refused where no live route reaches it. -/
def execPacketForward (ctx q : Nat) (s : State) : Host.Outcome State Fault Refusal :=
  match s.ctxs[ctx]?, (s.ctxs[ctx]?).bind (fun c => c.queues[q]?) with
  | some c, some d =>
    match d.pkts with
    | [] => .next s
    | p :: _ =>
      if !(p.accepted && !d.hold && c.live && !c.switchedOut && !d.forwarding && pktKind p.bytes == 1 && pktFwd p.bytes) then .next s
      else if !s.routed (pktNode p.bytes) then .next ((s.popHead ctx q false).queueEntry ctx q 7 2 noLaunch p.addr)
      else
        let s : State := { s with reports := s.reports ++ [{ kind := 3, fields := [pktNode p.bytes, c.asid, q] ++ p.bytes.map BitVec.toNat }] }
        .next (s.modQueue ctx q (fun d => { d with forwarding := true }))
  | _, _ => .next s

/-- FORWARD_ANSWER (R30): the target holds the packet, or has refused it with a reason of R333. -/
def execForwardAnswer (ctx q : Nat) (held : Bool) (reason : Nat) (s : State) : Host.Outcome State Fault Refusal :=
  match (s.ctxs[ctx]?).bind (fun c => c.queues[q]?) with
  | none => .next s
  | some d =>
    match d.pkts with
    | [] => .next s
    | p :: _ =>
      if !d.forwarding || !(held || reason == 1 || reason == 3 || reason == 4) then .next s
      else
        let s := (s.popHead ctx q false).modQueue ctx q (fun d => { d with forwarding := false })
        .next (if held then s else s.queueEntry ctx q 7 reason noLaunch p.addr)

/-- A packet as a target holds it: FWD and NODE read as 0 (R30). -/
def unforward (p : List Byte) : List Byte :=
  leBytes 8 ((word64 p 0) &&& ~~~0x3FE000000#64).toNat ++ p.drop 8

/-- FORWARD_RECEIVE (R30): a peer's packet enters the queue its source is bound to, or is refused. DESIGN CHOICE (log 100): a binding to a queue that
is not VALID, or to a context that is gone, binds nothing, and the packet is refused with reason 1; where several reasons apply, 4 comes before 3. -/
def execForwardReceive (node asid q : Nat) (pkt : List Byte) (s : State) : Host.Outcome State Fault Refusal :=
  let answer := fun (s : State) (held reason : Nat) =>
    { s with reports := s.reports ++ [{ kind := 4, fields := [node, asid, q, held, reason] }] }
  if pkt.length != 160 then .next s
  else
    match (s.bindings.filterMap id).find? (fun b => b.node == node && b.asid == asid && b.q == q) with
    | none => .next (answer s 0 1)
    | some b =>
      let saggar := ((s.ctxs[b.ctx]?).map Ctx.saggar).getD 0
      if !s.partition.serves saggar then .next (answer s 0 4)
      else
        match s.submit b.ctx b.tq (unforward pkt) 0 with
        | (0, s) => .next (answer s 1 0)
        | (1, s) => .next (answer s 0 3)
        | (_, s) => .next (answer s 0 1)

/-! ### Records (R33, R34, R330) -/

/-- A record is invalid, with its REASON (R34, R333). -/
def recordFault (r : List Byte) : Option Nat :=
  let n := bitsOf (word64 r 0) 48 6
  if n = 0 then some 1
  else if 32 < n then some 2
  else if bitsOf (word64 r 0) 54 2 != 0 || bitsOf (word64 r 8) 32 32 != 0 then some 3
  else none

/-- A block that runs no warp, of an invalid record (R34). -/
def Block.invalid (l ix : Nat) : Block :=
  { launch := l, gang := 2 ^ 32, ix := ix, cores := [], ragmask := 0, group := 0, rowbase := 0, rflags := 0, paramptr := 0, slices := []
    finished := true, failed := true }

/-- No more records are read (R330). -/
def State.endRecords (s : State) (l : Nat) (failed : Bool) : State :=
  (s.modLaunch l (fun x => { x with recordsEnd := true, failed := x.failed || failed })).launchCheck l

/-- Read one record (R34). -/
def State.takeRecord (s : State) (l : Nat) (x : Launch) (r : List Byte) : State :=
  let i := x.recordsRead
  let s := s.modLaunch l (fun x => { x with records := x.records ++ [(r, i)], recordsRead := i + 1 })
  match recordFault r with
  | none => s
  | some why =>
    let s := s.queueEntry x.ctx x.queue 3 why (BitVec.ofNat 64 x.ix) (BitVec.ofNat 64 i)
    let s := s.modLaunch l (fun x => { x with failed := true, blocksDone := x.blocksDone + 1 })
    { s with blocks := s.blocks ++ [.invalid l i] }

/-- The scheduler reads no record of a launch whose RECCTR is no counter (R330). -/
def State.noRecords (s : State) (l : Nat) (x : Launch) : State :=
  (s.queueEntry x.ctx x.queue 6 0 (BitVec.ofNat 64 x.ix) 0).endRecords l true

/-- Records beyond the maximum are logged once (R34). DESIGN CHOICE (log 101): they make the launch end with ERR, as other records that run no block
do. -/
def State.noteExcess (s : State) (l : Nat) (x : Launch) (v : DWord) : State :=
  if pktBlocks x.pkt < ctrValue v && !x.excessLogged then
    (s.queueEntry x.ctx x.queue 4 0 (BitVec.ofNat 64 x.ix) (BitVec.ofNat 64 (pktBlocks x.pkt))).modLaunch l
      (fun x => { x with excessLogged := true, failed := true })
  else s

/-- RECORD_READ (R34, R330): the scheduler reads RECCTR with acquire, and the next record below its value. DESIGN CHOICE (log 101): a RECCTR that
cannot be read at all counts as no counter; a record that cannot be read is waited for. -/
def execRecordRead (l : Nat) (s : State) : Host.Outcome State Fault Refusal :=
  match s.launches[l]? with
  | none => .next s
  | some x =>
    let a := pktRecctr x.pkt
    if !x.started || x.finished || x.recordsEnd || !pktRagged x.pkt || pktKind x.pkt != 1 then .next s
    else
      let word := s.ccCounter x.ctx a
      let s := s.spendPeer a
      match word with
      | .waits => .next s
      | .fault | .untagged => .next (s.noRecords l x)
      | .word v =>
        let at_ := pktRecq x.pkt + BitVec.ofNat 64 (16 * x.recordsRead)
        let s := s.noteExcess l x v
        if ctrErr v then .next (s.endRecords l true)
        else if x.recordsRead < min (ctrValue v) (pktBlocks x.pkt) then
          (if x.recordsRead ≤ x.nextGang * pktGang x.pkt + 64 then
            match s.ccRead x.ctx at_ 16 with
            | none => .next s
            | some r => .next ((s.spendPeer at_).takeRecord l x r)
          else .next s)
        else if ctrRetired v then .next (s.endRecords l false)
        else .next s

/-! ### Placement (R327 to R329) -/

/-- What a block is placed with (R34, R224). -/
structure BlockSpec where
  ix : Nat
  ragmask : BitVec 32
  group : BitVec 16
  rowbase : BitVec 32
  rflags : BitVec 8
  paramptr : DWord
deriving DecidableEq, Repr

/-- A block of a launch that is not ragged. -/
def plainSpec (p : List Byte) (ix : Nat) : BlockSpec :=
  { ix := ix, ragmask := fullMask, group := 0, rowbase := 0, rflags := 0, paramptr := pktParam p }

/-- The block of a record (R33, R34). -/
def recordSpec (p : List Byte) (r : List Byte × Nat) : BlockSpec :=
  let w := word64 r.1 0
  let n := bitsOf w 48 6
  { ix := r.2, ragmask := BitVec.ofNat 32 (2 ^ n - 1), group := w.extractLsb' 0 16, rowbase := w.extractLsb' 16 32
    rflags := w.extractLsb' 56 8, paramptr := pktParam p + BitVec.ofNat 64 (bitsOf (word64 r.1 8) 0 32) }

/-- A gang to be placed: the gang of a relaunch, if it is one, its index and its blocks. -/
structure Due where
  again : Option Nat
  ix : Nat
  specs : List BlockSpec
deriving DecidableEq, Repr

/-- The blocks that a relaunched gang places again (R9, R432): all those of the killed gang. -/
def State.againSpecs (s : State) (g : Nat) : List BlockSpec :=
  (s.gangBlocks g).map (fun b =>
    { ix := b.ix, ragmask := b.ragmask, group := b.group, rowbase := b.rowbase, rflags := b.rflags, paramptr := b.paramptr })

/-- The next gang of a started launch, once it can be placed (R329, R432). -/
def State.due (s : State) (l : Nat) : Option Due :=
  match s.launches[l]? with
  | none => none
  | some x =>
    if !x.started || x.finished || pktKind x.pkt != 1 then none
    else
      match (List.range s.gangs.length).find? (fun g =>
        (s.gangs[g]?).any (fun y => y.launch == l && !y.placed && !y.saved && !y.killed)) with
      | some g => (s.gangs[g]?).map (fun y => { again := some g, ix := y.ix, specs := s.againSpecs g })
      | none =>
        let n := pktGang x.pkt
        let lo := x.nextGang * n
        if pktRagged x.pkt then
          if n ≤ x.records.length || (x.recordsEnd && !x.records.isEmpty) then
            some { again := none, ix := x.nextGang
                   specs := (((x.records.take n).filter (fun r => (recordFault r.1).isNone)).map (recordSpec x.pkt)) }
          else none
        else if lo < pktBlocks x.pkt then
          some { again := none, ix := x.nextGang
                 specs := (List.range (min n (pktBlocks x.pkt - lo))).map (fun i => plainSpec x.pkt (lo + i)) }
        else none

/-- The saggar of a launch. -/
def State.saggarOfLaunch (s : State) (l : Nat) : Nat :=
  (((s.launches[l]?).bind (fun x => s.ctxs[x.ctx]?)).map Ctx.saggar).getD 0

/-- A cluster is live in a saggar in service (R360): 64 to a die. -/
def State.clusterServes (s : State) (saggar cl : Nat) : Bool :=
  cl < 256 && s.powered && s.partition.saggarOf (cl / 64) == saggar && s.partition.serves saggar && !s.partition.deadClusters.contains (cl / 64, cl % 64)

/-- What of each core of a cluster is taken. -/
def State.clusterUse (s : State) (cl : Nat) : List Use := (List.range 8).map (s.coreUse cl)

/-- Clusters to try: those in use, and the first idle one. -/
def State.tryClusters (s : State) (saggar : Nat) : List Nat :=
  let used := ((s.gangs.filter (fun g => g.placed && !g.killed)).map Gang.cluster).eraseDups
  let idle := (List.range 256).find? (fun c => !used.contains c && s.clusterServes saggar c)
  (used ++ (match idle with | some c => [c] | none => [])).filter (s.clusterServes saggar)

/-- A cluster, with seats, where a launch's next gang fits. -/
def State.roomFor (s : State) (l : Nat) : Option (Nat × List (List Nat)) :=
  match s.due l, s.launches[l]? with
  | some d, some x =>
    if d.specs.isEmpty then some (0, [])
    else (s.tryClusters (s.saggarOfLaunch l)).findSome? (fun c =>
      (findSeats x.pkt d.specs.length (s.clusterUse c)).map (fun seats => (c, seats)))
  | _, _ => none

/-- The pair last served at a priority of a saggar (R327). -/
def State.servedPair (s : State) (saggar prio : Nat) : Option Nat :=
  (s.lastServed.find? (fun x => x.1 == saggar * 4 + prio)).map Prod.snd

/-- A launch's pair of context and queue, as one number. -/
def Launch.pair (x : Launch) : Nat := x.ctx * 16 + x.queue

/-- The place of a launch in the order in which the scheduler tries (R327): priority, round robin after the pair last served, earliest
start. -/
def State.tryKey (s : State) (l : Nat) : List Nat :=
  match s.launches[l]? with
  | none => []
  | some x =>
    let sag := s.saggarOfLaunch l
    let p := pktPrio x.pkt
    let turn := match s.servedPair sag p with
      | none => 0
      | some k => if k < x.pair then 0 else 1
    [3 - p, turn, x.pair, l]

/-- A starving gang keeps launches of its priority and below from placing (R328): the one of highest priority, then the earliest started. -/
def State.starver (s : State) (saggar : Nat) : Option Nat :=
  ((sortBy (fun l => [3 - ((s.launches[l]?).map (fun x => pktPrio x.pkt)).getD 0, ((s.launches[l]?).map Launch.startedAt).getD 0, l])
    ((List.range s.launches.length).filter (fun l =>
      s.saggarOfLaunch l == saggar && (s.launches[l]?).any (fun x => x.stalled && !x.finished)))).head?)

/-- A launch may place its next gang, as far as R328 goes. -/
def State.mayTry (s : State) (l : Nat) : Bool :=
  match s.launches[l]?, s.starver (s.saggarOfLaunch l) with
  | some x, some k => k == l || ((s.launches[k]?).map (fun y => pktPrio y.pkt)).getD 0 < pktPrio x.pkt
  | some _, none => true
  | none, _ => false

/-- Launches of a saggar that have a gang to place, whose contexts are in the device. -/
def State.candidates (s : State) (saggar : Nat) : List Nat :=
  (List.range s.launches.length).filter (fun l =>
    s.saggarOfLaunch l == saggar && s.mayTry l && (s.due l).isSome &&
    ((s.launches[l]?).bind (fun x => s.ctxs[x.ctx]?)).any (fun c => c.live && !c.switchedOut))

/-- A warp as it starts (R15, R272, R279), with its context's LOADF and LOSTMAX (R290). -/
def Warp.start (p : List Byte) (block core role k bw clk : Nat) (loadF : Nat := 16) (lostMax : Nat := 64) : Warp :=
  { block := block, core := core, role := role, roleWarp := k, blockWarp := bw, kind := roleKind p role
    begun := false, loadF := loadF, lostMax := lostMax
    regs := .start (roleRegs p role) (roleEntry p role), wcr := 0, nextWcr := none, nextSat := [], lastTime := 0, lease := roleLease p role
    nextLease := none, fault := [0, 0, 0, 0], state := .ready, resume := { iset := 0, done := false, head := false, index := 0, caddr := 0 }
    clause := none, hold := .none, pending := none, pendWait := [], pendDrain := [], pendYield := none, wakeAt := 0, yielded := false, pipe := none, candAt := none
    outst := [], readyAt := clk, loadAt := clk, touched := [], victims := [], shrunk := false, issued := false, wback := none
    ahead := false, aheadCount := 0, poisoned := [], batch := [], observed := [] }

/-- A gang starts on a cluster (R386): the context's clean lines there are invalidated. -/
def State.gangAcquire (s : State) (cl asid : Nat) : State :=
  ((List.range 8).foldl (fun s c => s.acquireL1 cl c asid) s).acquireCC cl asid

/-- A block claims the accumulator stores of its cores (R250). -/
def State.claimCores (s : State) (b cl : Nat) (cores : List Nat) : State :=
  cores.foldl (fun s c =>
    let gone := (List.range 16).map (accPoison cl c)
    let s : State := { s with poison := s.poison.filter (fun q => !gone.contains q) }
    s.modCore cl c (fun k => { k with claim := some b, acc := [], undef := [], mmaq := [], prog := k.prog.map freeProg })) s

/-- Place one block with its warps (R11, R24, R250, R294). -/
def State.placeBlock (s : State) (l g cl : Nat) (p : List Byte) (spec : BlockSpec) (seats : List Nat) : State :=
  let b := s.blocks.length
  let cores := sortBy (fun c => [c]) seats.eraseDups
  let blk : Block :=
    { launch := l, gang := g, ix := spec.ix, cores := cores, ragmask := spec.ragmask, group := spec.group, rowbase := spec.rowbase
      rflags := spec.rflags, paramptr := spec.paramptr, slices := [], finished := false, failed := false }
  let (lf, lm) := (((s.launches[l]?).bind (fun x => s.ctxs[x.ctx]?)).map (fun c => (c.loadF, c.lostMax))).getD (16, 64)
  let ws := ((pktRoleWarps p).zip seats).zipIdx.map (fun (x, bw) => Warp.start p b x.2 x.1.1 x.1.2 bw s.clk lf lm)
  let s : State := { s with blocks := s.blocks ++ [blk], warps := s.warps ++ ws }
  let s := s.splitPools b
  if pktClaims p then s.claimCores b cl cores else s

/-- Place a gang (R327, R329, R386). -/
def State.placeGang (s : State) (l : Nat) (x : Launch) (d : Due) (cl : Nat) (seats : List (List Nat)) : State :=
  let (g, s) : Nat × State := match d.again with
    | some g => (g, s.modGang g (fun y => { y with placed := true, cluster := cl }))
    | none => (s.gangs.length, { s with gangs := s.gangs ++ [{ launch := l, ix := d.ix, cluster := cl, placed := true
                                                               stopping := false, saved := false, damaged := false
                                                               killed := false, relaunches := 0 }] })
  let s := if d.specs.isEmpty then s else s.gangAcquire cl (s.asid x.ctx)
  let s := (d.specs.zip seats).foldl (fun s y => s.placeBlock l g cl x.pkt y.1 y.2) s
  let s := s.fillCores cl (s.coresOf (s.blocksOf g))
  let key := s.saggarOfLaunch l * 4 + pktPrio x.pkt
  let s : State := { s with lastServed := (key, x.pair) :: s.lastServed.filter (fun y => y.1 != key) }
  s.modLaunch l (fun y => { y with
    nextGang := if d.again.isSome then y.nextGang else y.nextGang + 1
    records := if d.again.isSome then y.records else y.records.drop (pktGang y.pkt)
    stalled := false, starvedAt := s.clk })

/-- GANG_PLACE (R327, R328): the launch whose turn it is places its next gang on a cluster that can hold it; launches before it in the order
that found room would have been served first. -/
def execGangPlace (l cl : Nat) (seats : List (List Nat)) (s : State) : Host.Outcome State Fault Refusal :=
  match s.due l, s.launches[l]? with
  | some d, some x =>
    let sag := s.saggarOfLaunch l
    let first := (s.candidates sag).all (fun k => k == l || lexLe (s.tryKey l) (s.tryKey k) || (s.roomFor k).isNone)
    let fits := d.specs.isEmpty || (s.clusterServes sag cl && seatsFit x.pkt (s.clusterUse cl) d.specs.length seats)
    when_ ((s.candidates sag).contains l && first && fits) ((s.placeGang l x d cl seats).launchCheck l) s
  | _, _ => .next s

/-- The next gang of a launch finds no cluster (R328). -/
def State.unplaceable (s : State) (l : Nat) : Bool := (s.due l).isSome && (s.roomFor l).isNone

/-- As time passes, the clk is kept since which the next gang of each launch has found no cluster; after 2^20 clk the launch starves (R328). -/
def State.noteStarving (s : State) : State :=
  { s with launches := s.launches.zipIdx.map (fun (x, l) =>
      if x.stalled || x.finished || !x.started then x
      else if !s.unplaceable l then { x with starvedAt := s.clk }
      else { x with stalled := decide (x.starvedAt + 2 ^ 20 ≤ s.clk) }) }

/-- PLACEMENT_STARVE (R328): the next gang of a started launch has found no cluster for 2^20 clk. -/
def execPlacementStarve (l : Nat) (s : State) : Host.Outcome State Fault Refusal :=
  match s.launches[l]? with
  | none => .next s
  | some x =>
    when_ (!x.stalled && (s.due l).isSome && (s.roomFor l).isNone && decide (x.starvedAt + 2 ^ 20 ≤ s.clk))
      (s.modLaunch l (fun x => { x with stalled := true })) s

end Sys2Proof.Machine
end

