-- ==== Sys2Proof/Machine/Resume.lean ====
section
/-! DEFINITION. Resuming trapped warps (R399 to R401), and pre-emption: stopping, saving and restoring gangs (R404 to R409, R265). -/
namespace Sys2Proof.Machine

/-! ### Resume commands (R399) -/

/-- The warp a command names: of the context with its ASID, the launch and block with its numbers, which has not finished. -/
def State.named (s : State) (c : ResumeCmd) : Option Nat :=
  match s.ctxOfAsid (bitsOf c.w2 0 16) with
  | none => none
  | some k =>
    (List.range s.warps.length).find? (fun w =>
      match s.warp? w, s.blockOf w, s.launchOf w with
      | some x, some b, some l =>
        x.blockWarp == bitsOf c.w0 16 7 && b.ix == bitsOf c.w0 32 32 && !b.finished && l.ix == c.w1.toNat && l.ctx == k
      | _, _, _ => false)

/-- A reserved field of a command is set. -/
def reservedCmd (c : ResumeCmd) : Bool := bitsOf c.w0 23 9 != 0 || bitsOf c.w0 3 13 != 0 || bitsOf c.w2 16 48 != 0

/-- The trap code of a warp's record (R283). -/
def Warp.trapCode (x : Warp) : BitVec 8 := (x.fault.getD 1 0).extractLsb' 32 8

/-- R397 allows an action, 0 RETRY, 1 SKIP, 2 DIVERGE or 3 KILL, for a trap code. -/
def actionAllowed (action : Nat) (code : BitVec 8) : Bool :=
  match action with
  | 0 | 3 => true
  | 1 => code != codeClause && code != codeClass && code != codeTrapi && code != codeStep
  | 2 => code == codeUniform
  | _ => false

/-- The words of a clause as they stand in memory now; one that cannot be fetched stays (R397, R400). -/
def State.reword (s : State) (w : Nat) (c : Clause) : Clause :=
  { c with words := c.words.zipIdx.map (fun (v, i) =>
      match s.fetchWord w (c.addr + BitVec.ofNat 64 (8 * (i + 1))) with
      | .word v' => v'
      | .poison | .absent _ | .refused => v) }

/-- A branch with U = 0 (R400). -/
def divergent : Instr → Option Instr
  | .bra h _ kind cond off => some (.bra h false kind cond off)
  | .call h _ kind cond off => some (.call h false kind cond off)
  | .brx h _ a => some (.brx h false a)
  | .ret h _ a => some (.ret h false a)
  | _ => none

/-- The word of a clause with U = 0. -/
def divergeWord (v : DWord) : DWord :=
  match (decodeWord v).bind divergent with
  | some i => encode i
  | none => v

/-- A warp whose clause had ended at its trap makes its next selection: the boundary of the clause comes first (R232, R400, R410). -/
def State.resumeEnded (s : State) (w : Nat) : State :=
  ((s.modWarp w (fun x => { x with state := .ready, readyAt := s.clk })).boundary w).fillLoadAt w

/-- RETRY (R397, R400). A WBACK of a save executes the save's fence again (R214, R386). -/
def State.retry (s : State) (w : Nat) (x : Warp) : State :=
  if x.resume.head then
    if x.trapCode == codeWback then
      let (s, bad) := s.release w .device
      (s.modWarp w (fun x => { x with wback := bad.map (fun ln => BitVec.ofNat 64 (128 * ln)) })).untrap w
    else s.untrap w
  else if x.resume.done then (if x.clause.isNone then s.resumeEnded w else s.untrap w)
  else (s.modWarp w (fun x => { x with clause := x.clause.map (s.reword w) })).untrap w

/-- SKIP (R400): the instruction takes no effect, and leaves only its encoded time. No STEP is raised for it. -/
def State.skip (s : State) (w : Nat) (x : Warp) : State :=
  match x.clause with
  | none => s.untrap w
  | some c =>
    let h := headOf ((c.words.getD c.idx 0).toNat)
    let s := s.modWarp w (fun x => { x with state := .ready, readyAt := s.clk, wcr := x.wcr &&& ~~~2#64 })
    let s := s.complete w { head := { h with sbw := 0 } }
    (s.modWarp w (fun y => { y with wcr := x.wcr })).fillLoadAt w

/-- DIVERGE (R400): the branch executes as if U = 0. -/
def State.diverge (s : State) (w : Nat) : State :=
  (s.modWarp w (fun x => { x with clause := x.clause.map (fun c => { c with words := c.words.modify c.idx divergeWord }) })).untrap w

/-- Carry out a command on its warp (R400). -/
def State.resumeWarp (s : State) (w action : Nat) : State :=
  match s.warp? w with
  | none => s
  | some x =>
    if x.state != .trapped || !actionAllowed action x.trapCode then s
    else
      match action with
      | 0 => s.retry w x
      | 1 => s.skip w x
      | 2 => s.diverge w
      | _ =>
        match s.gangOf w with
        | some g => s.killGang g 0 false
        | none => s

/-- A resume command (R399, R401): refused without effect, held where its warp is saved, or carried out. -/
def State.resume (s : State) (c : ResumeCmd) : State :=
  let action := bitsOf c.w0 0 3
  match s.named c with
  | none => s
  | some w =>
    match s.warp? w with
    | none => s
    | some x =>
      if reservedCmd c || !actionAllowed action x.trapCode then s
      else if x.state == .saved true then { s with heldCmds := s.heldCmds ++ [c] }
      else s.resumeWarp w action

/-- A command of the action that its row names. -/
def State.resumeAs (s : State) (action : Nat) (c : ResumeCmd) : State := if bitsOf c.w0 0 3 = action then s.resume c else s

/-- RESUME_RETRY (R399, R400). -/
def execResumeRetry (c : ResumeCmd) (s : State) : Host.Outcome State Fault Refusal := .next (s.resumeAs 0 c)

/-- RESUME_SKIP (R399, R400). -/
def execResumeSkip (c : ResumeCmd) (s : State) : Host.Outcome State Fault Refusal := .next (s.resumeAs 1 c)

/-- RESUME_DIVERGE (R399, R400). -/
def execResumeDiverge (c : ResumeCmd) (s : State) : Host.Outcome State Fault Refusal := .next (s.resumeAs 2 c)

/-- RESUME_KILL (R399, R400). -/
def execResumeKill (c : ResumeCmd) (s : State) : Host.Outcome State Fault Refusal := .next (s.resumeAs 3 c)

/-! ### Stopping a gang (R405) -/

/-- The warps of a gang's blocks that have not finished. -/
def State.warpsOfGang (s : State) (g : Nat) : List Nat := (s.blocksOf g).flatMap s.warpsOf

/-- A warp stands where it can be saved: at a clause boundary, waiting, or TRAPPED, and everything it issued has come back (R405). -/
def State.stopped (s : State) (w : Nat) : Bool :=
  match s.warp? w with
  | none => true
  | some x =>
    let still := match x.state with
      | .trapped => true
      | .waiting | .ready | .active =>
        (match x.hold with
          | .batch => !x.ahead
          | .none | .counter _ | .drain _ | .yield _ | .fetch _ => x.clause.isNone
          | .fence _ _ | .issue _ | .accept _ | .arrive _ | .stop => false)
      | .ended | .saved _ => true
    x.state == .ended ||
    (still && s.fenceMet w .device .ar && s.accs.all (fun a => a.warp != w || a.op == .fenceop || a.wb))

/-- Run-ahead of a warp stops and rolls back; its batch is dropped (R405). -/
def State.stopAhead (s : State) (w : Nat) : State :=
  if ((s.warp? w).map Warp.ahead).getD false then (s.rollBack w).modWarp w (fun x => { x with batch := [] }) else s

/-! ### Saving (R265, R386, R406, R407) -/

/-- A copy of a gang as its save leaves it. One whose release add has been made keeps what it has read: its sources are no longer its own (R242,
log 108). -/
def State.saveCopy (s : State) (i : Nat) (c : Copy) : Copy :=
  if c.state != .running then { c with waitPage := none }
  else
    let d := s.doneWhole i c
    { c with state := .queued, waitPage := none, reads := if c.rels then c.reads else [], done := d
             ixs := c.ixs.filter (fun x => d.any (fun k => c.item k == x.1)) }

/-- Save a warp (R386, R406): the fence of its save, and what of its hold is kept. -/
def State.saveWarp (s : State) (w : Nat) : State :=
  match s.warp? w with
  | none => s
  | some x =>
    if x.state == .ended then s
    else
      let (s, bad) := s.release w .device
      let s := s.acquire w .device
      let s : State := { s with accs := s.accs.map (fun a => if a.warp == w && a.op == .fenceop then { a with wb := true } else a) }
      s.modWarp w (fun x => { x with
        wback := x.wback.orElse (fun _ => bad.map (fun ln => BitVec.ofNat 64 (128 * ln)))
        hold := match x.hold with
          | .yield t => .yield (t - s.clk)
          | .counter ws => .counter (ws.map (fun c => (c.1, false)))
          | .fetch _ => .none
          | h => h
        wakeAt := x.wakeAt - s.clk
        victims := [], touched := [], shrunk := false, issued := false, yielded := false, pipe := none, candAt := none
        state := .saved (x.state == .trapped) })

/-- Save what a claiming block holds on its cores (R265). -/
def State.saveCores (s : State) (b : Nat) : State :=
  let cl := s.clusterOfBlock b
  (((s.blocks[b]?).map Block.cores).getD []).foldl (fun s c =>
    let k := s.core cl c
    if k.claim != some b then s
    else
      let segs := (List.range 16).filter (fun i => s.poison.contains (accPoison cl c i))
      let s : State := { s with
        images := s.images ++ [{ block := b, core := c, acc := k.acc, undef := k.undef, mmaq := k.mmaq, prog := k.prog, poison := segs }]
        poison := s.poison.filter (fun q => !(segs.map (accPoison cl c)).contains q) }
      s.modCore cl c (fun k => { k with claim := none, acc := [], undef := [], mmaq := [], prog := List.replicate 16 0 })) s

/-- Save a gang whose warps have stopped (R406, R407). -/
def State.saveGang (s : State) (g : Nat) : State :=
  let bs := s.blocksOf g
  let ws := s.warpsOfGang g
  let cl := ((s.gangs[g]?).map Gang.cluster).getD 0
  let s := ws.foldl State.saveWarp s
  let s := bs.foldl (fun s b => (s.saveCores b).splitPools b) s
  let s : State := { s with copies := s.copies.zipIdx.map (fun (c, i) => if ws.contains c.warp then s.saveCopy i c else c) }
  let s := s.modGang g (fun x => { x with saved := true, stopping := false })
  s.fillCores cl (s.coresOf bs)

/-- Stop a gang, and save it once every warp of it has stopped (R405) and its copies stand at boundaries (R407). -/
def State.stopGang (s : State) (g : Nat) : State :=
  match s.gangs[g]? with
  | none => s
  | some x =>
    if !x.placed || x.saved || x.killed || (s.blocksOf g).isEmpty then s
    else
      let s := (s.warpsOfGang g).foldl State.stopAhead s
      let s := s.modGang g (fun x => { x with stopping := true })
      let ws := s.warpsOfGang g
      if ws.all s.stopped && s.copies.zipIdx.all (fun (c, i) => !ws.contains c.warp || s.copyRests i c) then s.saveGang g else s

/-- PREEMPT (R404 to R407): the gang is stopped; the event that finds it stopped saves it. -/
def execPreempt (g : Nat) (s : State) : Host.Outcome State Fault Refusal := .next (s.stopGang g)

/-- CONTEXT_SWITCH (R409): the context is switched out, and its gangs are stopped and saved. One that is switched out and has no gang with blocks that have
not finished, so that none is left to be restored, is switched in. -/
def execContextSwitch (c : Nat) (s : State) : Host.Outcome State Fault Refusal :=
  match s.ctxs[c]? with
  | none => .next s
  | some x =>
    if !x.live then .next s
    else
      let gs := s.gangsOfCtx c
      if x.switchedOut && gs.all (fun g => (s.blocksOf g).isEmpty) then .next (s.modCtx c (fun x => { x with switchedOut := false }))
      else .next (gs.foldl State.stopGang (s.modCtx c (fun x => { x with switchedOut := true })))

/-! ### Restoring (R408) -/

/-- Where a block's cores go: the new core of each, in their order. -/
def newCore (cores seats : List Nat) (c : Nat) : Nat := (((cores.zip seats).find? (fun x => x.1 == c)).map Prod.snd).getD c

/-- What of a cluster is taken once a saved block stands on new cores (R11, R250). -/
def State.restoreUse (s : State) (us : List Use) (b : Nat) (seats : List Nat) : List Use :=
  match s.blocks[b]?, s.launchOfBlock b with
  | some x, some l =>
    us.zipIdx.map (fun (u, c) =>
      if !seats.contains c then u
      else
        ((s.warpsOf b).filterMap s.warp?).foldl (fun u y =>
          if y.state != .ended && newCore x.cores seats y.core == c then u.warp y.regs.v.length else u) (u.share l.pkt))
  | _, _ => us

/-- A saved gang fits on a cluster, each block with its cores on distinct new ones. -/
def State.restoreFits (s : State) (g cl : Nat) (seats : List (List Nat)) : Bool :=
  let bs := s.blocksOf g
  seats.length == bs.length &&
  (bs.zip seats).all (fun x => (((s.blocks[x.1]?).map Block.cores).getD []).length == x.2.length && x.2.eraseDups == x.2 && x.2.all (· < 8)) &&
  ((bs.zip seats).foldl (fun us x => s.restoreUse us x.1 x.2) (s.clusterUse cl)).all Use.ok

/-- Move the keys of a block's scratch to its new cores. -/
def moveKey (b : Nat) (cores seats : List Nat) (k : Nat) : Nat :=
  let off := k - scrKey b 0 0
  if k < scrKey b 0 0 || scrKey b 8 0 ≤ k then k else scrKey b (newCore cores seats (off / 2 ^ 20)) (off % 2 ^ 20)

/-- A place of a block's scratch on its new core. -/
def movePlace (b : Nat) (cores seats : List Nat) (p : Place) : Place :=
  match p with
  | .scr c k => if c == b then .scr c (newCore cores seats k) else p
  | .glob _ | .nc | .lcm _ | .peer _ => p

/-- Load a block's image on its new cores (R408, R265): its scratch with hidden bits and poison, and its claims. -/
def State.loadBlock (s : State) (cl b : Nat) (seats : List Nat) : State :=
  let cores := ((s.blocks[b]?).map Block.cores).getD []
  let mine := fun (k : Nat) => scrKey b 0 0 ≤ k && k < scrKey b 8 0
  let at_ := moveKey b cores seats
  let bytes := s.mem.filter (fun m => mine m.1)
  let s : State := { s with
    mem := bytes.foldl (fun m x => m.write (at_ x.1) x.2) (bytes.foldl (fun m x => m.write x.1 0) s.mem)
    tags := s.tags.map (fun t => { t with loc := { t.loc with place := movePlace b cores seats t.loc.place } })
    accs := s.accs.map (fun a => { a with reqs := a.reqs.map (fun r =>
      { r with loc := { r.loc with place := movePlace b cores seats r.loc.place } }) })
    poison := s.poison.map (fun q => at_ (128 * q) / 128)
    warps := s.warps.map (fun x => if x.block == b then { x with core := newCore cores seats x.core } else x) }
  let s := s.modBlock b (fun x => { x with cores := sortBy (fun c => [c]) seats })
  let s := s.splitPools b
  let s := (s.images.filter (fun i => i.block == b)).foldl (fun s i =>
    let c := newCore cores seats i.core
    let old := (List.range 16).map (accPoison cl c)
    let s : State := { s with poison := s.poison.filter (fun q => !old.contains q) ++ i.poison.map (accPoison cl c) }
    s.modCore cl c (fun k => { k with claim := some b, acc := i.acc, undef := i.undef, mmaq := i.mmaq, prog := i.prog })) s
  { s with images := s.images.filter (fun i => i.block != b) }

/-- A warp returns to its saved state (R408). -/
def State.loadWarp (s : State) (w : Nat) : State :=
  match s.warp? w with
  | none => s
  | some x =>
    match x.state with
    | .saved trapped =>
      let n := s.waitEntries w
      s.modWarp w (fun x => { x with
        loadAt := s.clk, readyAt := s.clk
        wakeAt := if x.wakeAt = 0 then 0 else x.wakeAt + s.clk
        hold := match x.hold with
          | .yield t => .yield (t + s.clk)
          | .counter ws => .counter (ws.zipIdx.map (fun (c, i) => (c.1, decide (i < n))))
          | h => h
        state := if trapped then .trapped else
          match x.hold with
          | .counter _ | .drain _ | .batch => .waiting
          | .none | .yield _ | .fetch _ | .fence _ _ | .issue _ | .accept _ | .arrive _ | .stop => .ready })
    | .waiting | .ready | .active | .trapped | .ended => s

/-- The commands held for warps of a gang are carried out (R401). -/
def State.applyHeld (s : State) (ws : List Nat) : State :=
  let mine := s.heldCmds.filter (fun c => ((s.named c).map ws.contains).getD true)
  let s := { s with heldCmds := s.heldCmds.filter (fun c => !mine.contains c) }
  mine.foldl State.resume s

/-- Restore a gang (R408). -/
def State.restoreGang (s : State) (g cl : Nat) (seats : List (List Nat)) : State :=
  let bs := s.blocksOf g
  let ctx := ((s.gangs[g]?).bind (fun x => s.launches[x.launch]?)).map Launch.ctx |>.getD 0
  let s := s.modGang g (fun x => { x with saved := false, cluster := cl })
  let s := (s.gangAcquire cl (s.asid ctx)).modCtx ctx (fun c => { c with switchedOut := false })
  let s := (bs.zip seats).foldl (fun s x => s.loadBlock cl x.1 x.2) s
  let ws := s.warpsOfGang g
  let s := (ws.foldl State.loadWarp s).fillCores cl (s.coresOf bs)
  (s.endDrains).applyHeld ws

/-- RESTORE (R408): a saved gang stands on a cluster that can hold it; one whose saved image holds an error is killed (R433). -/
def execRestore (g cl : Nat) (seats : List (List Nat)) (s : State) : Host.Outcome State Fault Refusal :=
  match s.gangs[g]? with
  | none => .next s
  | some x =>
    let sag := s.saggarOfLaunch x.launch
    if x.saved && !x.killed && x.damaged then .next (s.killGang g codeEcckill true)
    else when_ (x.saved && !x.killed && s.clusterServes sag cl && s.restoreFits g cl seats) (s.restoreGang g cl seats) s

end Sys2Proof.Machine
end

