-- ==== Sys2Proof/Machine/Fabric.lean ====
section
/-! DEFINITION. What passes between modules and the host: answers to peer accesses (R204, R403, R424, R427), ordered flows (R420), inbound requests
(R421 to R425), and the host's mailbox (R428). -/
namespace Sys2Proof.Machine

/-! ### Peer accesses (R204, R403) -/

/-- The host takes an operation (R427): loads, stores, and ATOM.ADD, EXCH and ATOMCAS of 32- and 64-bit integers. -/
def hostTakes (a : Access) : Bool :=
  match a.op with
  | .load | .loadRec _ | .store | .launch _ => true
  | .add | .exch | .cas => !a.dregs.isEmpty && (a.ty == .n32 || a.ty == .i32 || a.ty == .n64 || a.ty == .i64)
  | .prefetch | .cflush | .cinv | .cdemote | .min | .max | .and | .or | .xor | .lcadd | .lcmrg | .lcrd | .lcrdRaw | .lcinit | .ctrInit _
  | .ctrAdd | .ctrArv | .ctrRead | .ctrKill | .ctrFree | .fenceop | .macc => false

/-- The refusal of a request at this module, by its reason (R419, R424, R427). -/
def State.refusedHere (s : State) (a : Access) (r : Req) : Option Nat :=
  match r.loc.place with
  | .peer n =>
    if n = 255 then (if hostTakes a then none else some 0x01)
    else if (s.requestShelf r.loc).isSome then none else some 0x0B
  | .glob _ | .nc | .lcm _ | .scr _ _ => none

/-- The requests to peers of an access that wait for their answers. -/
def Access.asked (a : Access) : List Req := a.reqs.filter (fun r => !r.done && isPeer r.loc.place)

/-- An access whose warp waits for its acceptance by peers. What it asks of level counters here is reserved first (R184, R210). -/
def State.awaited (s : State) (n : Nat) : Option Access :=
  match s.accs[n]? with
  | none => none
  | some a =>
    if ((s.warp? a.warp).map (fun x => x.hold == .accept n)).getD false && !a.asked.isEmpty &&
        (!a.op.isLc || a.op.isRead || a.op == .lcinit || s.ownDone a) then some a
    else none

/-- The bytes of an answer to a request: an estimate is an FP32 number (R208). -/
def answerBytes (op : AccOp) (r : Req) : Nat := if op == .lcrd then 4 else r.size

/-- Give the answers of peers to the requests of an access, in their order. -/
def giveAnswers (op : AccOp) : List Req → List DWord → List Req
  | [], _ => []
  | r :: rs, vs =>
    if r.done || !isPeer r.loc.place then r :: giveAnswers op rs vs
    else
      match vs with
      | [] => r :: giveAnswers op rs []
      | v :: vs => { r with done := true, res := v &&& BitVec.ofNat 64 (2 ^ (8 * answerBytes op r) - 1) } :: giveAnswers op rs vs

/-- The requests of an access that leave for peers, as they are put on the fabric (R417): each carries the target and the frame address, the operation and
its data, and this module's node number. -/
def State.sendAsked (s : State) (a : Access) : State :=
  { s with reports := s.reports ++ a.asked.map (fun r =>
      { kind := 13, fields := [(match r.loc.place with | .peer n => n | .glob _ | .nc | .lcm _ | .scr _ _ => 0), r.loc.addr, r.size, a.opc, r.data.toNat,
                               r.cmp.toNat, s.node] }) }

/-- The wait of a counter operation on a peer's word, once the word has been answered (R232, R233). -/
def State.peerWait (s : State) (n : Nat) (a : Access) (v : DWord) : State :=
  match a.wait with
  | none => s
  | some c =>
    if a.op == .ctrArv then
      s.startWait n { c with target := arvTarget (ctrValue v) c.target } (if ctrRetired v then v else ctrPlus v 1) false
    else s.startWait n c v false

/-- PEER_ANSWER (R204): every request of an access to a peer has been performed there and answered; the access is accepted. One that had not been put on a
shelf before a restack stopped injection waits (R413). -/
def execPeerAnswer (n : Nat) (vals : List DWord) (s : State) : Host.Outcome State Fault Refusal :=
  match s.awaited n with
  | none => .next s
  | some a =>
    let own := (s.accs.take n).filter (fun b => b.warp == a.warp)
    let va := (a.asked.head?.map Req.va).getD 0
    let sc := ctrScope a.scope va
    let rel := a.op.isCtr && semRel a.sem
    let ok := (!s.drainShelf || decide (a.issuedAt < s.drainAt)) && vals.length == a.asked.length && decide (s.clk < a.issuedAt + 2 ^ 20) &&
      a.asked.all (fun r => (s.refusedHere a r).isNone && own.all (fun b => !s.holdsBack b a r)) && (!rel || s.performedAt a.warp n sc)
    if !ok then .next s
    else
      let s := (if rel then s.releaseLate a.warp sc else s).sendAsked a
      let s := s.modAcc n (fun a => { a with reqs := giveAnswers a.op a.reqs vals })
      let s := if a.op.isCtr && semAcq a.sem && a.wait.isNone then s.acquire a.warp sc else s
      let s := s.peerWait n a (vals.headD 0)
      .next (if a.op.isLc then s.settleLc n else s.acceptHeld n)

/-- The trap of an access whose peers have refused it or kept silent, for the threads of some of its requests, or for every active thread of
one that is made once for the warp (R184, R204). -/
def State.peerTrap (s : State) (n : Nat) (a : Access) (code reason : BitVec 8) (threads : Mask) : State :=
  let low := lowestOf threads
  let m := if a.once || a.whole then a.mask else threads
  s.trapHeld n { code := code, mask := m, reason := reason, lowv := true, lowest := lowestOf m
                 addr := ((a.asked.find? (fun r => r.thread == low)).map Req.va).getD 0 }

/-- The threads of requests. -/
def threadsOf (rs : List Req) : Mask := maskOf (fun t => rs.any (fun r => r.thread == t))

/-- The host, or a peer, can refuse an access with a reason (R424, R427): HOSTERR is the host's, FLOWBROKEN is for copies, and NOROUTE arises at
this module. -/
def answersWith (host : Bool) (reason : Nat) : Bool :=
  if host then reason == 0x0C else 0x01 ≤ reason && reason ≤ 0x0A && reason != 0x09

/-- REMOTE (R204, R424): a request of an access has been refused, at this module or by its peer. Which peers refuse is a free value (log 2);
the reason is that of the lowest thread refused. -/
def execRemote (n reason : Nat) (s : State) : Host.Outcome State Fault Refusal :=
  match s.awaited n with
  | none => .next s
  | some a =>
    let (k, s1) := s.fresh 1
    let all := threadsOf a.asked
    let here := threadsOf (a.asked.filter (fun r => (s.refusedHere a r).isSome))
    let some_ := here ||| (all &&& (Config.freeBits k).setWidth 32)
    let m := if some_ = 0 then BitVec.ofNat 32 (2 ^ lowestOf all) else some_
    let first := (a.asked.find? (fun r => r.thread == lowestOf m)).orElse (fun _ => a.asked.head?)
    match first.bind (s.refusedHere a) with
    | some own => .next (s1.peerTrap n a codeRemote (BitVec.ofNat 8 own) m)
    | none =>
      when_ (answersWith (first.any (fun r => r.loc.place == .peer 255)) reason)
        (s1.peerTrap n a codeRemote (BitVec.ofNat 8 reason) m) s

/-- RTIMEOUT (R204): no answer has come within 2^20 clk of the issue. -/
def execRtimeout (n : Nat) (s : State) : Host.Outcome State Fault Refusal :=
  match s.awaited n with
  | none => .next s
  | some a =>
    when_ (decide (a.issuedAt + 2 ^ 20 ≤ s.clk)) (s.peerTrap n a codeRtimeout 0 (threadsOf a.asked)) s

/-! ### Inbound requests (R421 to R425) -/

/-- The code by which the inbound log names an operation (R425): the opcode of the instruction that makes it (log 47). -/
def inOpc : InOp → Nat
  | .load => 0x70
  | .store => 0x72
  | .add => 0x80
  | .min => 0x81
  | .max => 0x82
  | .and => 0x83
  | .or => 0x84
  | .xor => 0x85
  | .exch => 0x86
  | .cas => 0x87
  | .lc .raise => 0x90
  | .lc .est | .lc .raw => 0x92
  | .lc .init => 0x93
  | .ctrInit _ => 0xA0
  | .ctrAdd => 0xA1
  | .ctrWait => 0xA2
  | .ctrArv => 0xA3
  | .ctrRead => 0xA6
  | .ctrKill | .ctrFree => 0xA7

/-- The permission an operation needs of a window, by its bit in word 0 (R421). -/
def inPermBit : InOp → Nat
  | .load => 53
  | .store => 52
  | .add | .min | .max | .and | .or | .xor | .exch | .cas | .lc _ => 15
  | .ctrInit _ | .ctrAdd | .ctrWait | .ctrArv | .ctrRead | .ctrKill | .ctrFree => 14

/-- A window of a node covers every byte of a request, in a state. -/
def windowCovers (st : Nat) (r : InReq) (w : DWord × DWord) : Bool :=
  bitsOf w.1 54 2 == st && bitsOf w.1 56 8 == r.node && bitsOf w.1 16 36 ≤ r.paddr / 2 ^ 16 &&
  (r.paddr + r.size - 1) / 2 ^ 16 ≤ bitsOf w.2 16 36

/-- A request comes from the host and names bytes that BAR2 does not reach, or an operation that it cannot make (R426, R428): the endpoint completes no
AtomicOp, and the host writes no counter and no level. Refused with NOWINDOW, and BAR2 taken to reach the lowest physical addresses (log 109). -/
def State.hostRefuses (s : State) (r : InReq) : Bool := r.node == 255 && (!(r.op == .load || r.op == .store) || s.bar2 < r.paddr + r.size)

/-- The reason for which the window table refuses a request (R421, R423, R424): RESET where its frame lies in a saggar out of service, or in one that is
reset at this clk (R435, log 115). -/
def State.windowRefuses (s : State) (r : InReq) : Option Nat :=
  let g := s.partition.saggarOf (Config.frameDie (r.paddr / 2 ^ 16)).val
  if !s.partition.serves g || s.resetAt.contains (g, s.clk) then some 0x0A
  else if s.hostRefuses r then some 0x01
  else
    match s.inWindows.find? (windowCovers 1 r) with
    | some w => if w.1.getLsbD (inPermBit r.op) then none else some 0x02
    | none => if s.inWindows.any (windowCovers 2 r) then some 0x08 else some 0x01

/-- The operation of an inbound atomic. -/
def inAtomic : InOp → Option AccOp
  | .add => some .add
  | .min => some .min
  | .max => some .max
  | .and => some .and
  | .or => some .or
  | .xor => some .xor
  | .exch => some .exch
  | .cas => some .cas
  | .load | .store | .lc _ | .ctrInit _ | .ctrAdd | .ctrWait | .ctrArv | .ctrRead | .ctrKill | .ctrFree => none

/-- The operation of an inbound counter request; one that waits meets the states of a CTRARV (R236). -/
def inCounter : InOp → Option AccOp
  | .ctrInit e => some (.ctrInit e)
  | .ctrAdd => some .ctrAdd
  | .ctrWait | .ctrArv => some .ctrArv
  | .ctrRead => some .ctrRead
  | .ctrKill => some .ctrKill
  | .ctrFree => some .ctrFree
  | .load | .store | .add | .min | .max | .and | .or | .xor | .exch | .cas | .lc _ => none

/-- The reason for which a counter word refuses an operation (R236, R424). -/
def State.wordRefuses (s : State) (op : AccOp) (l : Loc) : Option Nat :=
  let tagged := (s.ctrTag l).isSome
  let dead := ctrRetired (s.ctrWordAt l)
  match op with
  | .ctrInit _ => if !tagged then none else if !dead then some 0x05 else if s.referenced l then some 0x06 else none
  | .ctrAdd | .ctrArv | .ctrKill => if tagged then none else some 0x04
  | .ctrFree => if !tagged then some 0x04 else if !dead then some 0x05 else if s.referenced l then some 0x06 else none
  | _ => none

/-- Bytes of memory that an inbound request meets are poisoned. -/
def State.inPoison (s : State) (r : InReq) : Bool := (List.range r.size).any (fun i => s.poisonKey (s.stackKey (r.paddr + i)))

/-- Why a request that the window table accepts is refused, none where it is performed (R422, R424). -/
def State.inRefuses (s : State) (r : InReq) : Option Nat :=
  let l : Loc := { place := .nc, addr := r.paddr }
  match inCounter r.op with
  | some op => s.wordRefuses op l
  | none =>
    if r.op != .load && r.op != .lc .raw && r.op != .lc .est && s.tagHit l r.size then some 0x03
    else if r.op != .store && r.op != .lc .init && s.inPoison r then some 0x07
    else none

/-- The answer to an inbound request leaves the module (log 48). -/
def State.answerIn (s : State) (r : InReq) (reason v : Nat) : State :=
  { s with reports := s.reports ++ [{ kind := 5, fields := [r.node, r.paddr, reason, v] }] }

/-- A refusal is logged in the module's own inbound log (R425). -/
def State.nackIn (s : State) (r : InReq) (reason : Nat) : State :=
  (s.logEntry 0 .inbound (reason * 2 ^ 48 + inOpc r.op * 2 ^ 40 + r.node * 2 ^ 32)
    [BitVec.ofNat 64 r.paddr, s.time, BitVec.ofNat 64 r.size]).answerIn r reason 0

/-- A peer's warp waits for a word (R232, R367): a condition that holds already ends its wait with the answer; else the port holds a watch. -/
def State.watchIn (s : State) (r : InReq) (l : Loc) (target v : DWord) : State :=
  if ctrReached v target then s else { s with inWatches := s.inWatches ++ [{ node := r.node, loc := l, target := target }] }

/-- The watches whose words have reached their values send their wakes (R367, R368), and so do those whose words are gone. -/
def State.serveWatches (s : State) : State :=
  let met := fun (w : InWatch) => (s.ctrTag w.loc).isNone || ctrReached (s.ctrWordAt w.loc) w.target
  { s with
    inWatches := s.inWatches.filter (fun w => !met w)
    reports := s.reports ++ (s.inWatches.filter met).map (fun w =>
      { kind := 12, fields := [w.node, w.loc.addr, (s.ctrWordAt w.loc).toNat] }) }

/-- The bytes of an inbound store are written at their line's memory channel. -/
def State.bytesIn (s : State) (r : InReq) (l : Loc) : State :=
  (List.range r.size).foldl (fun s i => s.placeWrite l i (r.data.extractLsb' (8 * i) 8)) s

/-- An inbound level counter operation (R204, R421) acts on the byte it names as on a raw level. A frame has no base register (R313), so that the K and the
last level of a raise and of an estimate are the spec's open point: what they leave and answer is a free value (logs 2 and 110). -/
def State.levelIn (s : State) (r : InReq) (l : Loc) (k : InLc) : State :=
  let (n, s) := s.fresh 1
  match k with
  | .raw => s.answerIn r 0 (s.placeRead l 0).toNat
  | .est => s.answerIn r 0 ((Config.freeBits n).toNat % 2 ^ 32)
  | .init => (s.placeWrite l 0 (r.data.setWidth 8)).answerIn r 0 0
  | .raise => (s.placeWrite l 0 ((Config.freeBits n).setWidth 8)).answerIn r 0 0

/-- An inbound request that the window table has accepted is performed at the memory channel of its line, or refused there (R422, R424). -/
def State.performIn (s : State) (r : InReq) : State :=
  let l : Loc := { place := .nc, addr := r.paddr }
  match s.inRefuses r with
  | some k => s.nackIn r k
  | none =>
    match inCounter r.op, inAtomic r.op with
    | some .ctrArv, _ =>
      if r.op == .ctrWait then
        let v := s.ctrWordAt l
        (s.watchIn r l (r.data.setWidth 64) v).answerIn r 0 v.toNat
      else
        let (v, _, s) := s.ctrPerform none .ctrArv l 1
        (s.watchIn r l (arvTarget (ctrValue v) (r.data.setWidth 64)) (if ctrRetired v then v else ctrPlus v 1)).answerIn r 0 v.toNat
    | some op, _ =>
      let (v, _, s) := s.ctrPerform none op l (r.data.setWidth 64)
      s.answerIn r 0 v.toNat
    | none, some op =>
      let (old, s) := s.rmwAt 0 0 false .normal l r.size (fun o => rmwValue op r.ty o (r.data.setWidth 64) r.cmp)
      s.answerIn r 0 old.toNat
    | none, none =>
      match r.op with
      | .lc k => s.levelIn r l k
      | .store => (s.bytesIn r l).answerIn r 0 0
      | _ => s.answerIn r 0 (leNat ((List.range r.size).map (s.placeRead l)))

/-- The reorder buffer of a flow of a peer. Its first copy has the number 0; after a break the next number to come is the first (R420). -/
def State.inFlow (s : State) (node id : Nat) : InOrder :=
  (s.inFlows.find? (fun f => f.node == node && f.id == id)).getD { node := node, id := id, next := some 0, held := [] }

/-- Write the reorder buffer of a flow. -/
def State.setInFlow (s : State) (f : InOrder) : State :=
  { s with inFlows := f :: s.inFlows.filter (fun g => !(g.node == f.node && g.id == f.id)) }

/-- Perform the held writes of a flow whose turn has come (R420). -/
def State.drainIn (s : State) (node id : Nat) : Nat → State
  | 0 => s
  | n + 1 =>
    let f := s.inFlow node id
    match f.held.find? (fun h => (h.1.flow.map InFlow.seq) == f.next) with
    | none => s
    | some h =>
      let last := (h.1.flow.map InFlow.last).getD false
      let s := s.setInFlow { f with held := f.held.erase h, next := if last then f.next.map (fun k => (k + 1) % 2 ^ 16) else f.next }
      State.drainIn (s.performIn h.1) node id n

/-- The sectors that the reorder buffer of an inbound port holds. -/
def State.inHeld (s : State) (port : Nat) : Nat :=
  (s.inFlows.map (fun f => ((f.held.filter (fun h => (h.1.flow.map InFlow.port) == some port)).map (fun h =>
    (h.1.flow.map InFlow.seq, h.1.paddr / 128))).eraseDups.length)).sum

/-- INBOUND_REQUEST (R421, R422): a request of a peer or the host is refused by the window table, or performed; a write of an ordered flow that the
table accepts waits for the copies before its own (R420), where its port's buffer of 512 sectors has room. While a restack has stopped injection the ports
put none on a shelf (R413); in reduced service none is accepted (R440). -/
def execInboundRequest (r : InReq) (s : State) : Host.Outcome State Fault Refusal :=
  if s.drainShelf || !s.fullService then .next s else
  match s.windowRefuses r, r.flow with
  | some k, _ => .next (s.nackIn r k)
  | none, none => .next (s.performIn r)
  | none, some o =>
    let f := s.inFlow r.node o.id
    let next := f.next.getD o.seq
    let f := { f with next := some next }
    if o.seq = next then
      let s := (s.setInFlow { f with next := some (if o.last then (next + 1) % 2 ^ 16 else next) }).performIn r
      .next (s.drainIn r.node o.id f.held.length)
    else when_ (decide (s.inHeld o.port < 512)) (s.setInFlow { f with held := f.held ++ [(r, s.clk)] }) s

/-! ### Ordered flows (R420) -/

/-- The copy that a number of a flow stands for as it runs: a copy itself, or the generation that a slice belongs to (R243), with its slice. -/
def State.runOf (s : State) (j : Nat) : Option (Nat × Copy × Copy) :=
  match s.copies[j]? with
  | none => none
  | some x =>
    if x.live then some (j, x, x)
    else (s.copies.zipIdx.find? (fun (c, _) => c.live && c.gen.contains j)).map (fun (c, i) => (i, c, x))

/-- The copies of a flow that are not yet visible fail with REMOTE, reason FLOWBROKEN (R420, R247). -/
def State.breakFlow (s : State) (i : Nat) (f : Flow) : State :=
  let s := f.held.foldl (fun s j =>
    match s.runOf j with
    | some (k, c, x) => s.copyFails k c x codeRemote.toNat 0x09 0
    | none => s) s
  { s with flows := s.flows.modify i (fun g => { g with held := [], seqDone := g.seqSent }) }

/-- FLOWBROKEN (R420): a peer reports that a flow of this module's is broken, once the counters of its copies can be reached (R247); or a sector held here
has waited 2^20 clk. -/
def execFlowbroken (f : FlowRef) (s : State) : Host.Outcome State Fault Refusal :=
  match f with
  | .own i =>
    match s.flows[i]? with
    | none => .next s
    | some g =>
      let ready := g.held.all (fun j => (s.runOf j).all (fun (k, c, _) => (s.failCtrs k c false).all (s.ctrReady c.warp)))
      when_ (decide (3 ≤ g.mem) && !g.held.isEmpty && ready) (s.breakFlow i g) s
  | .inbound node id =>
    let g := s.inFlow node id
    when_ (g.held.any (fun h => decide (h.2 + 2 ^ 20 ≤ s.clk)))
      (g.held.foldl (fun s h => s.nackIn h.1 0x09) (s.setInFlow { g with held := [], next := none })) s

/-- FLOW_SKIP (R420): the number of a copy that has failed is passed over at the port, which sends a skip for it to a peer; or, by a peer's skip, at the
target. -/
def execFlowSkip (f : FlowRef) (s : State) : Host.Outcome State Fault Refusal :=
  match f with
  | .own i =>
    match s.flows[i]? with
    | none => .next s
    | some g =>
      let gone := fun (j : Nat) => ((s.copies[j]?).map (fun c => c.state == .failed)).getD true
      match if 3 ≤ g.mem then g.held.find? gone else g.held.head?.filter gone with
      | none => .next s
      | some j =>
        let sent : List Report := if g.mem < 3 then [] else
          [{ kind := 14, fields := [g.mem - 3, g.warp, ((s.copies[j]?).map Copy.seq).getD 0, s.node] }]
        .next { s with
          flows := s.flows.modify i (fun g => { g with held := g.held.erase j, seqDone := (g.seqDone + 1) % 2 ^ 16 })
          reports := s.reports ++ sent }
  | .inbound node id =>
    let g := s.inFlow node id
    match g.next with
    | none => .next s
    | some k => .next ((s.setInFlow { g with next := some ((k + 1) % 2 ^ 16) }).drainIn node id g.held.length)

/-- A write that a window has accepted is held in a reorder buffer (R420, R423). -/
def State.heldUnder (s : State) (w : DWord × DWord) : Bool := s.inFlows.any (fun f => f.held.any (fun h => windowCovers 2 h.1 w))

/-- WINDOW_RECALL (R423): the source node is asked to remove its mappings of a valid window, which becomes recalling; a recalling one, whose accepted requests have all been answered, becomes invalid. -/
def execWindowRecall (i : Nat) (s : State) : Host.Outcome State Fault Refusal :=
  let set := fun (v : Nat) => { s with inWindows := s.inWindows.modify i (fun w =>
    ((w.1 &&& ~~~BitVec.ofNat 64 (3 * 2 ^ 54)) ||| BitVec.ofNat 64 (v * 2 ^ 54), w.2)) }
  match s.inWindows[i]? with
  | none => .next s
  | some w =>
    match bitsOf w.1 54 2 with
    | 1 => .next { set 2 with reports := s.reports ++ [{ kind := 15, fields := [i, bitsOf w.1 56 8] }] }
    | 2 => when_ (!s.heldUnder w) (set 0) s
    | _ => .next s

/-- A restack begins, or goes on with more to change (R413): injection stops. -/
def State.stopInjection (s : State) : State :=
  if s.drainShelf then s else { s with drainShelf := true, restackAt := s.time.toNat, drainAt := s.clk }

/-- A shelf has failed where each of its three link ports and all of its local injection ports have (R413). -/
def State.portsGone (s : State) (shelf : Nat) : Bool := s.deadPorts.contains shelf && (List.range 3).all (fun k => s.deadLinks.contains (3 * shelf + k))

/-- A live shelf is declared dead (R413): a restack removes it. -/
def State.shelfDies (s : State) (shelf : Nat) : State :=
  let live := s.restackTo.getD s.liveShelves
  if shelf < 8 && live.getLsbD shelf then { s with restackTo := some (live &&& ~~~BitVec.ofNat 8 (2 ^ shelf)) } else s

/-- A route table is to change at the switch of the restack steps, LIVE unchanged where no shelf is to be removed (R419). -/
def State.reroute (s : State) (f : List (BitVec 24) → List (BitVec 24)) : State :=
  ({ s with routesTo := some (f (s.routesTo.getD s.routes)), restackTo := some (s.restackTo.getD s.liveShelves) } : State).stopInjection

/-- An entry of the route table without its route over a dead link port (R419). -/
def dropPort (e : BitVec 24) (port : Nat) : BitVec 24 :=
  if e.toNat / 2 ^ (3 * (port / 3)) % 8 = 4 + port % 3 then e &&& ~~~BitVec.ofNat 24 (7 * 2 ^ (3 * (port / 3))) else e

/-- A dead link takes every route over it (R419). -/
def State.dropLink (s : State) (port : Nat) : State := s.reroute (fun t => t.map (fun e => dropPort e port))

/-- FLIT_REPLAY (R416): a damaged flit is sent again, and the request it carries goes on as before; where it has been sent again 16 times, the port
reports its link dead instead, and a route change removes it (R419). A shelf whose ports have all failed is declared dead (R413). -/
def execFlitReplay (port : Nat) (again : Bool) (s : State) : Host.Outcome State Fault Refusal :=
  let n := if again then s.replays.getD port 0 else 0
  if 24 ≤ port || s.deadLinks.contains port then .next s
  else if n < 16 then .next { s with replays := s.replays.set port (n + 1) }
  else
    let s : State := { s with deadLinks := s.deadLinks ++ [port], reports := s.reports ++ [{ kind := 8, fields := [port] }] }
    let s := if s.portsGone (port / 3) then s.shelfDies (port / 3) else s
    .next (s.dropLink port)

/-! ### The host (R366, R428) -/

/-- The bytes of a log's entries that its reader has not consumed (R332). -/
def State.logBytes (s : State) (ctx : Nat) (k : LogKind) : List Byte :=
  let g := s.logAt ctx k
  let val := fun (a : DWord) (n : Nat) => ((s.logLoc ctx k a).map (fun l => s.placeVal l n)).getD 0
  let cons := (val g.cons 8).toNat
  (List.range (min (g.produced - cons) (2 ^ g.logn))).flatMap (fun i =>
    (List.range (logSize k)).map (fun j =>
      (val (g.base + BitVec.ofNat 64 ((cons + i) % 2 ^ g.logn * logSize k + j)) 1).setWidth 8))

/-- MAILBOX_MESSAGE (R428, R366, R399): the control cores do what the host asks. The keys of link IDE stand as they were given (R442). -/
def execMailboxMessage (m : HostMsg) (s : State) : Host.Outcome State Fault Refusal :=
  match m with
  | .submit ctx q pkt addr =>
    if pkt.length != 160 then .next s
    else
      let (k, s) := s.submit ctx q pkt addr
      .next { s with reports := s.reports ++ [{ kind := 6, fields := [ctx, q, k] }] }
  | .ctrAdd ctx va inc => .next (s.schedAdd ctx 0xFFFFFFFFFFFFFFFF va inc)
  | .resume cmd => .next (s.resume cmd)
  | .readLog ctx k => .next { s with reports := s.reports ++ [{ kind := 7, fields := (s.logBytes ctx k).map BitVec.toNat }] }
  | .clearHold ctx q => .next (s.modQueue ctx q (fun d => { d with hold := false }))
  | .ideKey stream key => .next { s with ideKeys := (stream, key) :: s.ideKeys.filter (fun k => k.1 != stream) }

/-- FLR (R426): the contexts that the device operating system has bound to a virtual function are destroyed. -/
def execFlr (func : Nat) (s : State) : Host.Outcome State Fault Refusal :=
  if func = 0 || 63 < func then .next s
  else
    .next (((List.range s.ctxs.length).filter (fun c => ((s.ctxs[c]?).map (fun x => x.live && x.func == func)).getD false)).foldl
      State.endCtx s)

end Sys2Proof.Machine
end

