-- ==== Sys2Proof/Machine/Pages.lean ====
section
/-! DEFINITION. Page tables as the control complex writes them (R303, R313, R344 to R348), translation entries, migration (R311, R312), and the level
counter base registers (R282). -/
namespace Sys2Proof.Machine

/-! ### Entries of the tables (R344, R345) -/

/-- The bytes that an entry of a level maps: a leaf's page, or the range of a table. -/
def levelSize (level : Nat) : Nat :=
  match level with
  | 0 => 2 ^ 48
  | 1 => 2 ^ 39
  | 2 => 2 ^ 30
  | 3 => 2 ^ 21
  | _ => 2 ^ 16

/-- The leaf that a walk of an address ends at: its level and its entry. -/
def leafOf (m : Memory) (va : Nat) : Nat → Nat → Nat → Option (Nat × DWord)
  | 0, _, _ => none
  | fuel + 1, level, table =>
    let e := read64 m (table + 8 * ptIndex va level)
    if !e.getLsbD 0 then none
    else if e.getLsbD 1 then some (level, e)
    else leafOf m va fuel (level + 1) (e.toNat / 2 ^ 12 % 2 ^ 40 * 2 ^ 12)

/-- The entries of a table of a level (R344). -/
def levelEntries (level : Nat) : Nat := if level = 4 then 32 else 512

/-- The table that a non-leaf entry names. -/
def nextTable (e : DWord) : Nat := e.toNat / 2 ^ 12 % 2 ^ 40 * 2 ^ 12

/-- The entries of a table that are not 0, by their indices. -/
def tableIxs (m : Memory) (level table : Nat) : List Nat :=
  ((m.filter (fun c => table ≤ c.1 && c.1 < table + 8 * levelEntries level)).map (fun c => (c.1 - table) / 8)).eraseDups

/-- The leaves of a table of a level, with the virtual addresses and sizes of their pages; levels 0 and 1 have none (R346). -/
def leavesFrom (m : Memory) : Nat → Nat → Nat → Nat → List (Nat × Nat × DWord)
  | 0, _, _, _ => []
  | fuel + 1, level, table, va =>
    (tableIxs m level table).flatMap (fun i =>
      let e := read64 m (table + 8 * i)
      let at_ := va + i * levelSize level
      if !e.getLsbD 0 then []
      else if e.getLsbD 1 then (if level < 2 then [] else [(at_, levelSize level, e)])
      else leavesFrom m fuel (level + 1) (nextTable e) at_)

/-- The leaves that an entry of a level stands for: its own page, or those of the tables it names. -/
def entryLeaves (m : Memory) (va level : Nat) (e : DWord) : List (Nat × Nat × DWord) :=
  if !e.getLsbD 0 then []
  else if e.getLsbD 1 then (if level < 2 then [] else [(va, levelSize level, e)])
  else leavesFrom m (4 - level) (level + 1) (nextTable e) va

/-- The virtual addresses at which the tables from one on reach the entry of a level at a physical address. -/
def entriesAt (m : Memory) (target level : Nat) : Nat → Nat → Nat → Nat → List Nat
  | 0, _, _, _ => []
  | fuel + 1, l, table, va =>
    if l = level then
      (if table ≤ target && target < table + 8 * levelEntries level && (target - table) % 8 == 0 then [va + (target - table) / 8 * levelSize level] else [])
    else
      (tableIxs m l table).flatMap (fun i =>
        let e := read64 m (table + 8 * i)
        if e.getLsbD 0 && !e.getLsbD 1 then entriesAt m target level fuel (l + 1) (nextTable e) (va + i * levelSize l) else [])

/-- The pages that a context maps. -/
def State.leaves (s : State) (c : Nat) : List (Nat × Nat × DWord) :=
  match s.ctxs[c]? with
  | none => []
  | some x => leavesFrom s.mem 5 0 x.rootAt 0

/-- The places at which an entry stands, each by its address space and virtual address: those where other tables of live contexts reach it, and last
the one it is named by. -/
def State.sitesOf (s : State) (asid va level at_ : Nat) : List (Nat × Nat) :=
  ((s.ctxs.filter Ctx.live).flatMap (fun c => (entriesAt s.mem at_ level 5 0 c.rootAt 0).map (fun v => (c.asid, v)))).eraseDups.filter
    (fun p => p != (asid, va)) ++ [(asid, va)]

/-! ### Translation entries (R304, R346) -/

/-- The stations walk: the dies have power (R444), a shelf carries their reads to the tables of an address space (R411), and no restack has stopped
injection (R413). -/
def State.mayWalk (s : State) (c : Nat) : Bool :=
  s.powered && !s.drainShelf && ((s.ctxs[c]?).any (fun x => (s.channelShelf x.rootAt).isSome))

/-- PAGE_WALK (R304, R346): a walk enters the translation it finds into the cache of a station that lacks it; a fault or a PROT enters nothing. A full
cache of 8,192 entries gives up its oldest (log 90). -/
def execPageWalk (asid va : Nat) (s : State) : Host.Outcome State Fault Refusal :=
  match s.ctxOfAsid asid with
  | none => .next s
  | some c =>
    let v := va % 2 ^ 57
    match (s.stationsAt asid v).find? (fun k => !s.tlb.any (fun t => t.station == k && t.asid == asid && t.va ≤ v && v < t.va + t.size)) with
    | none => .next s
    | some k =>
      if !s.mayWalk c then .next s
      else
      match s.translate c va, leafOf s.mem v 5 0 (((s.ctxs[c]?).map Ctx.rootAt).getD 0) with
      | .ok t, some (_, e) =>
        let full := 8192 ≤ (s.tlb.filter (fun t => t.station == k)).length
        let kept := if full then (match s.tlb.reverse.findIdx? (fun t => t.station == k) with
          | some j => s.tlb.eraseIdx (s.tlb.length - 1 - j)
          | none => s.tlb) else s.tlb
        .next { s with tlb := { station := k, asid := asid, va := t.page, size := t.size, pte := e } :: kept }
      | _, _ => .next s

/-! ### Pinned lines (R297, R313, R314) -/

/-- At most 12 ways of any set of a saggar are pinned by LCM pages there (R297). -/
def State.waysFit (s : State) (saggar : Nat) (ps : List Pinned) : Bool :=
  let all := ps.flatMap (fun p => p.lines (s.liveSlices saggar))
  all.all (fun k => all.count k ≤ 12)

/-- At most 12 ways of any set of a saggar would be pinned by those of some pages that stand there (R297). -/
def State.waysOk (s : State) (saggar : Nat) (ps : List Pinned) : Bool := s.waysFit saggar (ps.filter (fun p => s.saggarOfAsid p.asid == saggar))

/-- The LCM page that a leaf would map (R297): at the width its base register holds, or 8 bits where that is not VALID. -/
def pinUnder (lcb : Nat → DWord) (asid va size : Nat) (e : DWord) : Pinned :=
  let k := bitsOf e 8 3
  { asid := asid, va := va, size := size, lcb := k, wide := !(lcb k).getLsbD 9 || (lcb k).getLsbD 0 }

/-- The base registers of an address space. -/
def State.lcbOf (s : State) (asid k : Nat) : DWord := s.lcbase ((s.ctxOfAsid asid).getD 0) k

/-- The LCM page that a leaf of an address space would map. -/
def State.pinOf (s : State) (asid va size : Nat) (e : DWord) : Pinned := pinUnder (s.lcbOf asid) asid va size e

/-! ### What a mapping may be -/

/-- An entry is a leaf of an attribute. -/
def leafAttr (e : DWord) : Option Nat := if e.getLsbD 0 && e.getLsbD 1 then some (bitsOf e 5 2) else none

/-- The frame of a leaf. -/
def leafFrame (e : DWord) : Nat := bitsOf e 16 36 * 2 ^ 16

/-- Frames lie under an entry of the window table (R421). -/
def windowHolds (w : DWord × DWord) (frame size : Nat) : Bool :=
  bitsOf w.1 16 36 * 2 ^ 16 < frame + size && frame < (bitsOf w.2 16 36 + 1) * 2 ^ 16

/-- Frames lie in a window that is valid or recalling (R422, R423). -/
def State.exported (s : State) (frame size : Nat) : Bool :=
  s.inWindows.any (fun w => (bitsOf w.1 54 2 == 1 || bitsOf w.1 54 2 == 2) && windowHolds w frame size)

/-- The bytes that intervals in rising order of their starts cover, from a bound on. -/
def covered : Nat → List (Nat × Nat) → Nat
  | _, [] => 0
  | k, (a, b) :: r => (b - max a k) + covered (max k b) r

/-- The dies whose stacks hold a frame: each 64 KiB of it lies on one (log 46). -/
def frameDies (frame size : Nat) : List Nat := ((List.range (size / 2 ^ 16)).map (fun i => (Config.frameDie (frame / 2 ^ 16 + i)).val)).eraseDups

/-- The bytes of the stacks of a saggar (R1, R360): 768 MiB to a live channel. -/
def State.capacity (s : State) (saggar : Nat) : Nat :=
  let p := s.partition
  (192 * (p.dies saggar).length - (p.deadChannels.filter (fun u => p.saggarOf u.1 == saggar)).length) * (768 * 2 ^ 20)

/-- Frames of a saggar, beside those that its contexts map but for some pages that give way, take more than its stacks hold (R1). -/
def State.overfull (s : State) (g : Nat) (gone : Nat → Nat → Bool) (fs : List (Nat × Nat)) : Bool :=
  let others := s.frames.filter (fun m => s.saggarOfAsid m.asid == g && !gone m.asid m.va)
  let spans := fs ++ others.map (fun m => (m.frame, m.frame + m.size))
  !fs.isEmpty && s.capacity g < covered 0 (sortBy (fun x => [x.1, x.2]) spans)

/-- A frame lies in stacks of other dies than a saggar's (R296, R361). -/
def State.strays (s : State) (g frame size : Nat) : Bool :=
  s.partition.mode != 0 && (frameDies frame size).any (fun d => s.partition.saggarOf d != g)

/-- Reduced service has no memory there (R440). -/
def State.beyond (s : State) (frame size : Nat) : Bool := !s.fullService && decide (192 * 2 ^ 20 < frame + size)

/-- A page's frame has no place in its context's saggar: it lies in stacks of another's dies, or beyond the memory there is, or with the others would take
more than there is. -/
def State.noRoom (s : State) (asid va frame size : Nat) : Bool :=
  let g := s.saggarOfAsid asid
  s.strays g frame size || s.beyond frame size || s.overfull g (fun a v => a == asid && v == va) [(frame, frame + size)]

/-- The control complex refuses a page of a saggar's context by its leaf alone: one over the live-shelf table's page (R357); an LCM page of 1 GiB or in
the peer region (R313); a writable cached mapping of an exported frame (R422); one of the live-shelf table, but to read it; a frame that has no place; in
reduced service, an LCM page or a peer window (R440). -/
def State.refusesLeaf (s : State) (g va size : Nat) (e : DWord) : Bool :=
  (va ≤ shelfVa && shelfVa < va + size) ||
  match leafAttr e with
  | none => false
  | some 1 => !s.fullService || size == 2 ^ 30 || decide (2 ^ 56 ≤ va)
  | some 3 => !s.fullService
  | some a =>
    (a == 0 && e.getLsbD 3 && s.exported (leafFrame e) size) ||
    (leafFrame e ≤ shelfTable && shelfTable < leafFrame e + size && (a == 0 || e.getLsbD 3)) ||
    s.strays g (leafFrame e) size || s.beyond (leafFrame e) size

/-- Pages may be mapped in a saggar in place of some that give way: each by itself, by the ways that LCM pages pin (R297, R314), and by the memory that
there is (R1). -/
def State.pagesFit (s : State) (g : Nat) (gone : Nat → Nat → Bool) (lcb : Nat → DWord) (asid : Nat) (ls : List (Nat × Nat × DWord)) : Bool :=
  let pins := (ls.filter (fun p => leafAttr p.2.2 == some 1)).map (fun p => pinUnder lcb asid p.1 p.2.1 p.2.2)
  let kept := s.pinned.filter (fun p => s.saggarOfAsid p.asid == g && !gone p.asid p.va)
  let fs := (ls.filter (fun p => leafAttr p.2.2 == some 0 || leafAttr p.2.2 == some 2)).map (fun p => (leafFrame p.2.2, leafFrame p.2.2 + p.2.1))
  ls.all (fun p => !s.refusesLeaf g p.1 p.2.1 p.2.2) && (pins.isEmpty || s.waysFit g (pins ++ kept)) && !s.overfull g gone fs

/-- The control complex refuses a mapping, or a table that maps pages, for any of its pages (R297, R313, R347, R357, R422, R440). -/
def State.refuses (s : State) (asid va level : Nat) (e : DWord) : Bool :=
  let size := levelSize level
  let base := va % 2 ^ 57 / size * size
  !s.pagesFit (s.saggarOfAsid asid) (fun a v => a == asid && base ≤ v && v < base + size) (s.lcbOf asid) asid (entryLeaves s.mem base level e)

/-! ### What a change does to lines and hidden bits (R299, R303, R315, R364) -/

/-- A line of a page. -/
def lineIn (asid va size : Nat) (l : Line) : Bool := l.asid == asid && va / 128 ≤ l.vline && l.vline < (va + size) / 128

/-- Change every cached line of a page. -/
def State.mapLines (s : State) (asid va size : Nat) (f : Line → Option Line) : State :=
  let g := fun (ls : List Line) => ls.filterMap (fun l => if lineIn asid va size l then f l else some l)
  { s with
    llc := g s.llc
    clusters := s.clusters.map (fun c => { c with lines := g c.lines })
    cores := s.cores.map (fun c => { c with l1 := g c.l1 }) }

/-- The cached lines of a page take an entry's permissions; where its page becomes NC or LCM they are invalidated. A line whose write permission
is restored is no longer held (R303). -/
def State.relabel (s : State) (asid va size : Nat) (e : DWord) : State :=
  s.mapLines asid va size (fun l =>
    match leafAttr e with
    | some 0 => some { l with r := e.getLsbD 2, w := e.getLsbD 3, x := e.getLsbD 4, held := l.held && !e.getLsbD 3 }
    | some _ => none
    | none => some { l with r := false, w := false, x := false })

/-- The frames as they are mapped once an entry stands for a page (R300). -/
def State.noteFrame (s : State) (asid va size : Nat) (e : DWord) : State :=
  let others := s.frames.filter (fun m => !(m.asid == asid && m.va == va))
  { s with frames := match leafAttr e with
      | some 0 | some 2 => { asid := asid, va := va, size := size, frame := leafFrame e, attr := bitsOf e 5 2, w := e.getLsbD 3 } :: others
      | _ => others }

/-- The hidden bits and levels of a page that is no longer mapped are discarded. -/
def State.discardPage (s : State) (asid va size : Nat) (old : DWord) : State :=
  let gone := fun (l : Loc) =>
    match l.place with
    | .glob a => a == asid && va ≤ l.addr && l.addr < va + size
    | .nc => leafAttr old == some 2 && leafFrame old ≤ l.addr && l.addr < leafFrame old + size
    | .lcm _ | .scr _ _ | .peer _ => false
  { s with
    tags := s.tags.filter (fun t => !gone t.loc)
    pinned := s.pinned.filter (fun p => !(p.asid == asid && p.va == va))
    mem := s.mem.filter (fun m => !(lcmKey asid va ≤ m.1 && m.1 < lcmKey asid va + size))
    poison := s.poison.filter (fun q => !(lcmKey asid va / 128 ≤ q && q < (lcmKey asid va + size) / 128)) }

/-- Sets whose ways pinned lines now take give up normal lines (R297, R314). -/
def State.llcTrim (s : State) : State := s.llc.foldl (fun s l => if (findLine s.llc l.asid l.vline).isNone || (s.llcSet l.asid l.vline).length ≤ s.llcWays l.asid l.vline then s
  else makeRoom (fun s => s.llcSet l.asid l.vline) (s.llcWays l.asid l.vline + 1) State.llcEvict 16 s) s

/-- A page that is mapped as LCM holds level 0 in every counter; no LCM page is of 1 GiB (R313). -/
def State.newPage (s : State) (asid va size : Nat) (e : DWord) : State :=
  if leafAttr e != some 1 || 2 ^ 21 < size then s
  else
    let p := s.pinOf asid va size e
    State.llcTrim { s with
      pinned := s.pinned.filter (fun q => !(q.asid == asid && q.va == va)) ++ [p]
      mem := s.mem.filter (fun m => !(lcmKey asid va ≤ m.1 && m.1 < lcmKey asid va + size))
      poison := s.poison.filter (fun q => !(lcmKey asid va / 128 ≤ q && q < (lcmKey asid va + size) / 128))
      lcUndef := s.lcUndef.map (fun u => if u.asid == asid && u.lcb == p.lcb then { u with known := (va, size) :: u.known } else u) }

/-- Pages come with an entry (R297, R300, R313): the leaf that it is, or those of the tables that it names. -/
def State.noteEntry (s : State) (asid va level : Nat) (e : DWord) : State :=
  (entryLeaves s.mem va level e).foldl (fun s p =>
    ((s.relabel asid p.1 p.2.1 p.2.2).noteFrame asid p.1 p.2.1 p.2.2).newPage asid p.1 p.2.1 p.2.2) s

/-- An entry comes at several places, one after the other. -/
def State.noteSites (s : State) (level : Nat) (e : DWord) : List (Nat × Nat) → State
  | [] => s
  | p :: ps => (s.noteEntry p.1 p.2 level e).noteSites level e ps

/-- The control complex refuses an entry at one of several places, each judged with those before it. -/
def State.refusedAt (s : State) (level : Nat) (e : DWord) : List (Nat × Nat) → Bool
  | [] => false
  | p :: ps => s.refuses p.1 p.2 level e || (s.noteEntry p.1 p.2 level e).refusedAt level e ps

/-- An access holds a counter of an LCM page reserved while its warp waits for its acceptance (R210). -/
def State.reserves (s : State) (n : Nat) (a : Access) (r : Req) : Bool :=
  r.done && a.op.isLc && ((s.warp? a.warp).map (fun x => x.hold == .accept n)).getD false

/-- Accesses to a page that have been accepted and not performed, counters of it that are reserved, or lines of it whose bytes wait for a grant. -/
def State.pageBusy (s : State) (asid va size frame : Nat) : Bool :=
  let mine := fun (l : Loc) =>
    match l.place with
    | .glob a | .lcm a => a == asid && va ≤ l.addr && l.addr < va + size
    | .nc => frame ≤ l.addr && l.addr < frame + size
    | .scr _ _ | .peer _ => false
  s.accs.zipIdx.any (fun (a, n) => a.reqs.any (fun r => (!r.done || s.reserves n a r) && !s.parked a r && mine r.loc)) ||
  s.cores.any (fun c => c.l1.any (fun l => lineIn asid va size l && l.pending))

/-- A page of an address space is migrating. -/
def State.moving (s : State) (asid va size : Nat) : Bool := s.migrations.any (fun g => g.asid == asid && g.va < va + size && va < g.va + g.size)

/-- An entry of a mapping is changed at one of its places (R303): the stations drop it, the page's lines take its permissions, and hidden bits and levels
go with a page that is no longer mapped as it was. -/
def State.changeAt (s : State) (asid va level : Nat) (old pte : DWord) : State :=
  let size := levelSize level
  let s := ((s.dropTlb asid va size).relabel asid va size pte).noteFrame asid va size pte
  let kept := leafAttr pte == leafAttr old && (leafAttr old != some 1 || bitsOf pte 8 3 == bitsOf old 8 3)
  if kept then s else (s.discardPage asid va size old).noteEntry asid va level pte

/-- A change takes a frame that a window exports from its page (R423). -/
def State.takesExport (s : State) (size : Nat) (old pte : DWord) : Bool :=
  (leafAttr old == some 0 || leafAttr old == some 2) && s.exported (leafFrame old) size &&
    !((leafAttr pte == some 0 || leafAttr pte == some 2) && leafFrame pte == leafFrame old)

/-- What an entry changes at its places may not be changed now: accesses to one of its pages come first. -/
def State.sitesBusy (s : State) (level : Nat) (old : DWord) (sites : List (Nat × Nat)) : Bool :=
  sites.any (fun p => s.pageBusy p.1 p.2 (levelSize level) (leafFrame old))

/-- A recall that may be made now is made (R303): the entry is written, and the change takes place wherever it stands. -/
def State.recallPage (s : State) (asid va level : Nat) (pte : DWord) : State :=
  match s.pteAt asid va level with
  | none => s
  | some (at_, old) =>
    let sites := s.sitesOf asid va level at_
    if !old.getLsbD 0 || !old.getLsbD 1 || s.refusedAt level pte sites || s.sitesBusy level old sites || s.takesExport (levelSize level) old pte then s
    else sites.foldl (fun s p => s.changeAt p.1 p.2 level old pte) (s.writePte at_ pte)

/-- RECALL (R303): the entry of a mapping is changed or removed. Accesses already accepted come first. A recall of a migrating page is held
until the migration ends, and then applies to the new frame (R312). -/
def execRecall (asid va level : Nat) (pte : DWord) (s : State) : Host.Outcome State Fault Refusal :=
  let size := levelSize level
  let va := va % 2 ^ 57 / size * size
  if s.moving asid va size then
    .next { s with recalls := s.recalls.filter (fun r => !(r.asid == asid && r.va == va)) ++ [{ asid := asid, va := va, level := level, pte := pte }] }
  else .next (s.recallPage asid va level pte)

/-- The held recalls of pages whose migration has ended are made once their accesses are (R312). -/
def State.dueRecalls (s : State) : State :=
  s.recalls.foldl (fun s r =>
    let size := levelSize r.level
    match s.pteAt r.asid r.va r.level with
    | none => { s with recalls := s.recalls.erase r }
    | some (at_, old) =>
      if s.moving r.asid r.va size || s.sitesBusy r.level old (s.sitesOf r.asid r.va r.level at_) then s
      else
        let pte := if leafAttr r.pte == leafAttr old then
            (r.pte &&& ~~~BitVec.ofNat 64 ((2 ^ 36 - 1) * 2 ^ 16)) ||| BitVec.ofNat 64 (leafFrame old)
          else r.pte
        { s.recallPage r.asid r.va r.level pte with recalls := s.recalls.erase r }) s

/-- MAP_PAGE (R347, R313): an entry that was not valid is written. The walks that read it after this find it, in every context whose tables reach it. -/
def execMapPage (asid va level : Nat) (pte : DWord) (s : State) : Host.Outcome State Fault Refusal :=
  match s.pteAt asid va level with
  | none => .next s
  | some (at_, old) =>
    let size := levelSize level
    let sites := s.sitesOf asid (va % 2 ^ 57 / size * size) level at_
    when_ (!old.getLsbD 0 && pte.getLsbD 0 && !s.refusedAt level pte sites) ((s.writePte at_ pte).noteSites level pte sites) s

/-! ### Migration (R311, R312, R348) -/

/-- MIGRATION_START (R348): a page of 64 KiB or 2 MiB is pointed at a new frame, its entry carries MIG, and a station holds a record: the one that
translates the page's first line (log 90), which holds 16. Words of an NC page keep their hidden bits (R364). -/
def execMigrationStart (asid va frame : Nat) (s : State) : Host.Outcome State Fault Refusal :=
  match (s.ctxOfAsid asid).map (fun c => s.translate c va) with
  | some (.ok t) =>
    let v := va % 2 ^ 57
    let level := if t.size = 2 ^ 21 then 3 else 4
    let records := (s.migrations.filter (fun g => s.stationAt g.asid g.va == s.stationAt asid t.page)).length
    (match s.pteAt asid v level with
      | none => .next s
      | some (at_, e) =>
        let old := leafFrame e
        if t.size = 2 ^ 30 || (t.attr != 0 && t.attr != 2) || e.getLsbD 11 || frame % t.size != 0 || s.exported old t.size ||
            16 ≤ records || leafAttr e != some t.attr || s.noRoom asid t.page frame t.size || !s.powered ||
            (t.attr == 0 && e.getLsbD 3 && s.exported frame t.size) then .next s
        else
          let pte := (e &&& ~~~BitVec.ofNat 64 ((2 ^ 36 - 1) * 2 ^ 16)) ||| BitVec.ofNat 64 (frame / 2 ^ 16 % 2 ^ 36 * 2 ^ 16 + 2 ^ 11)
          let move := fun (l : Loc) =>
            if l.place == .nc && old ≤ l.addr && l.addr < old + t.size then { l with addr := l.addr - old + frame } else l
          let s := (s.sitesOf asid t.page level at_).foldl
            (fun s p => (s.dropTlb p.1 p.2 t.size).noteFrame p.1 p.2 t.size pte) (s.writePte at_ pte)
          .next { s with
            tags := s.tags.map (fun x => { x with loc := move x.loc })
            accs := s.accs.map (fun a => { a with reqs := a.reqs.map (fun r => if r.done then r else { r with loc := move r.loc }) })
            migrations := s.migrations ++ [{ asid := asid, va := t.page, size := t.size, old := old, new := frame, valid := [] }] })
  | _ => .next s

/-- MIGRATION_PULL (R311): the station pulls the line of an address, if it is not valid yet; not while a restack has stopped injection (R413). -/
def execMigrationPull (asid va : Nat) (s : State) : Host.Outcome State Fault Refusal :=
  let v := va % 2 ^ 57
  match s.migrations.find? (fun g => g.asid == asid && g.va ≤ v && v < g.va + g.size) with
  | none => .next s
  | some g => when_ (s.powered && !s.drainShelf && (s.channelShelf (g.old + (v - g.va))).isSome) (s.pull (g.new + (v - g.va))).dueRecalls s

/-! ### Base registers (R281, R282) -/

/-- LCBASE_WRITE (R282): VALID, POLICY, K and WIDTH of a base register, whose other bits are reserved or not the control complex's (R6); a WIDTH that its regions' pinned lines have no room for is refused. The
levels of its regions are undefined after a change of WIDTH or K. -/
def execLcbaseWrite (ctx i : Nat) (v : DWord) (s : State) : Host.Outcome State Fault Refusal :=
  match (s.ctxs[ctx]?).bind (fun c => c.lcbase[i]?) with
  | none => .next s
  | some old =>
    let new := (old &&& 0x10000#64) ||| (v &&& 0x371#64)
    let a := s.asid ctx
    let mine := fun (p : Pinned) => p.asid == a && p.lcb == i
    let ps := s.pinned.map (fun p => if mine p then { p with wide := !new.getLsbD 9 || new.getLsbD 0 } else p)
    if ps != s.pinned && !s.waysOk (s.saggarOfAsid a) ps then .next s
    else
      let changed := new.getLsbD 0 != old.getLsbD 0 || bitsOf new 4 3 != bitsOf old 4 3
      let (n, s1) := s.fresh 1
      let s := if changed && s.pinned.any mine then
          { s1 with lcUndef := { asid := a, lcb := i, seed := n, known := [] } :: s.lcUndef.filter (fun u => !(u.asid == a && u.lcb == i)) }
        else s
      .next (({ s with pinned := ps }.modCtx ctx (fun c => { c with lcbase := c.lcbase.set i new })).llcTrim)

end Sys2Proof.Machine
end

