-- ==== Sys2Proof/Machine/Module.lean ====
section
/-! DEFINITION. Errors, resets and the module's service: poison (R429 to R431), saggar reset (R435 to R437), restacking (R413 to R415, R419), boot and
firmware (R439 to R442), power and heat (R443, R444). -/
namespace Sys2Proof.Machine

/-! ### Saggars -/

/-- The contexts of a saggar. -/
def State.ctxsOf (s : State) (saggar : Nat) : List Nat :=
  (List.range s.ctxs.length).filter (fun c => ((s.ctxs[c]?).map (fun x => x.live && x.saggar == saggar)).getD false)

/-- The gangs of a saggar that are not dead, with work left. -/
def State.gangsIn (s : State) (saggar : Nat) : List Nat := (s.ctxsOf saggar).flatMap s.gangsOfCtx

/-- Two lists of dead units as one. -/
def unite (a b : List (Nat × Nat)) : List (Nat × Nat) := a ++ b.filter (fun x => !a.contains x)

/-- R436: a live cluster, 8 live slices, and 16 live channels on each stack of 64; and the dies have power (R444). -/
def State.viable (s : State) (saggar : Nat) : Bool :=
  let p := s.partition
  let ds := p.dies saggar
  let dead := fun (us : List (Nat × Nat)) => (us.filter (fun u => ds.contains u.1)).length
  s.powered && !ds.isEmpty && dead p.deadClusters < 64 * ds.length && 8 + dead p.deadSlices ≤ 96 * ds.length &&
  ds.all (fun d => (List.range 3).all (fun k => (p.deadChannels.filter (fun u => u.1 == d && u.2 / 64 == k)).length + 16 ≤ 64))

/-- The live channels of a saggar in order (R296). -/
def State.channels (s : State) (saggar : Nat) : List (Nat × Nat) :=
  ((s.partition.dies saggar).flatMap (fun d => (List.range 192).map (fun i => (d, i)))).filter (fun u => !s.partition.deadChannels.contains u)

/-! ### Saggar reset (R435) -/

/-- The context of a line lies in a saggar. -/
def State.lineOf (s : State) (saggar : Nat) (l : Line) : Bool := (s.ctxOfAsid l.asid).isSome && s.saggarOfAsid l.asid == saggar

/-- The dirty LLC lines of a saggar that are lost: homed in a slice found faulty, kept for a dead channel, or without a frame (R435). -/
def State.lostLine (s : State) (saggar : Nat) (slices : List (Nat × Nat)) (loss : ChanLoss) (l : Line) : Bool :=
  s.lineOf saggar l && l.dirty &&
  (((s.sliceAt saggar (homeSlice l.asid l.vline (s.liveSlices saggar))).map slices.contains).getD false ||
   (match s.physOf l.asid (128 * l.vline) with
    | some p => loss.hits (p / 128)
    | none => true))

/-- Write the dirty lines of a saggar's LLC to their frames (R435): one that may not be written there leaves poison. -/
def State.flushLlc (s : State) (lines : List Line) : State :=
  lines.foldl (fun s l =>
    if l.w then (s.llcClean l.asid l.vline).1
    else
      match s.physOf l.asid (128 * l.vline) with
      | some p => s.setPoison (p / 128) true
      | none => s) s

/-- Complete the migrations of a saggar (R312). -/
def State.settleMoves (s : State) (saggar : Nat) : State :=
  (s.migrations.filter (fun g => s.saggarOfAsid g.asid == saggar)).foldl (fun s g =>
    ((List.range (g.size / 128)).foldl (fun s i => s.pull (g.new + 128 * i)) s).endMigration g.asid g.va) s

/-- The page of a context that an address lies in. -/
def State.pageAt (s : State) (c va : Nat) : Nat := ((s.leaves c).find? (fun p => p.1 ≤ va && va < p.1 + p.2.1)).map Prod.fst |>.getD va

/-- Unmap a page (R315, R437). -/
def State.unmap (s : State) (asid va size : Nat) : State :=
  match s.pteAt asid va (if size = 2 ^ 30 then 2 else if size = 2 ^ 21 then 3 else 4) with
  | none => s
  | some (at_, old) =>
    let s := (((s.writePte at_ 0).dropTlb asid va size).discardPage asid va size old).noteFrame asid va size 0
    match s.ctxOfAsid asid with
    | none => s
    | some c => s.modCtx c (fun x => { x with
        unresolvable := x.unresolvable ++ (List.range (size / 2 ^ 16)).map (fun i => va / 2 ^ 16 + i) })

/-- A SRC 6 entry (R437). -/
def State.pageEntry (s : State) (c va cause n : Nat) : State :=
  s.trapEntry c 6 codeEcckill 0 0 0 [BitVec.ofNat 64 va, BitVec.ofNat 64 cause, BitVec.ofNat 64 n, 0]

/-- The lines of memory, by their place, that a flush leaves poisoned (R435): those of dirty lines that may not be written to their frames. -/
def State.stuck (s : State) (lines : List Line) : List Nat :=
  (lines.filter (fun l => !l.w)).filterMap (fun l => (s.physOf l.asid (128 * l.vline)).map (· / 128))

/-- The damaged pages of a context after a reset: each with its cause and how many of its lines are affected (R437). `stuck` lists the lines of memory
that write-backs poisoned. -/
def State.damage (s : State) (c saggar : Nat) (lost : List Line) (loss : ChanLoss) (stuck : List Nat) : List (Nat × Nat × Nat × Nat) :=
  (s.leaves c).flatMap (fun p =>
    let n := lost.filter (fun l => l.asid == s.asid c && p.1 ≤ 128 * l.vline && 128 * l.vline < p.1 + p.2.1)
    let m := if leafAttr p.2.2 == some 0 || leafAttr p.2.2 == some 2 then
        ((List.range (p.2.1 / 128)).filter (fun i =>
          loss.hits (leafFrame p.2.2 / 128 + i) || stuck.contains (leafFrame p.2.2 / 128 + i))).length else 0
    (if leafAttr p.2.2 == some 1 && s.saggarOfAsid (s.asid c) == saggar then [(p.1, p.2.1, 1, p.2.1 / (if s.lcmWide (s.asid c) p.1 then 128 else 256))] else []) ++
    (if m = 0 then [] else [(p.1, p.2.1, 2, m)]) ++ (if n.isEmpty then [] else [(p.1, p.2.1, 3, n.length)]))

/-- A saggar's reset counts for a change of MODE (R361): with the last of the dies it takes effect. -/
def State.modeReset (s : State) (saggar : Nat) : State :=
  let p := s.partition
  let ds := p.resetDies ++ (p.dies saggar).filter (fun d => !p.resetDies.contains d)
  match p.nextMode with
  | none => s
  | some m =>
    if ds.length < 4 then { s with partition := { p with resetDies := ds } }
    else
      let s : State := { s with partition := { p with mode := m, nextMode := none, resetDies := [] } }
      { s with partition := { s.partition with inService := (List.range 4).map s.viable } }

/-- A line of a cache, as an error names it. -/
def State.lineNamed (s : State) (x : CacheLevel × Nat × Nat × Nat × Nat) : Option Line :=
  let (lvl, cl, core, asid, vline) := x
  findLine (match lvl with
    | .l1 => (s.core cl core).l1
    | .cc => s.ccLines cl
    | .llc => s.llc) asid vline

/-- The SRC 5 entries of a reset (R437). -/
def State.resetEntries (s : State) (saggar cause : Nat) (ok : Bool) (ctxs : List Nat) : State :=
  ctxs.foldl (fun s c => s.trapEntry c 5 codeEcckill 0 0 0
    [BitVec.ofNat 64 saggar, BitVec.ofNat 64 cause, s.time, if ok then 1 else 0]) s

/-- Reset a saggar (R435 to R437) for a cause, with the units found faulty, and a dirty line whose tag has failed, which is lost. The entries of R437 come
after those of the gangs that it kills, also where it ends the contexts. -/
def State.resetSaggar (s : State) (saggar cause : Nat) (cs ss hs : List (Nat × Nat))
    (gone : Option (CacheLevel × Nat × Nat × Nat × Nat) := none) : State :=
  if s.partition.dies saggar == [] then s
  else
    let mine := fun (u : Nat × Nat) => s.partition.saggarOf u.1 == saggar
    let (cs, ss, hs) := (cs.filter mine, ss.filter mine, hs.filter mine)
    let ctxs := s.ctxsOf saggar
    let s := (s.gangsIn saggar).foldl (fun s g => s.killGang g codeEcckill true) s
    let s := (s.settleMoves saggar).dueRecalls
    let ch := s.channels saggar
    let loss : ChanLoss :=
      { dies := s.partition.dies saggar, live := ch.length, dead := (ch.zipIdx.filter (fun x => hs.contains x.1)).map Prod.snd }
    let named := ((gone.bind s.lineNamed).filter (fun l => s.lineOf saggar l && l.dirty)).toList
    let lost := (s.llc.filter (s.lostLine saggar ss loss) ++ named).eraseDups
    let home := (s.llc.filter (fun l => s.lineOf saggar l && l.dirty)).filter (fun l => !lost.contains l)
    let stuck := s.stuck home
    let s := s.flushLlc home
    let damaged := ctxs.flatMap (fun c => (s.damage c saggar lost loss stuck).map (fun d => (c, d)))
    let keep := fun (l : Line) => !s.lineOf saggar l
    let s : State := { s with
      llc := s.llc.filter keep
      clusters := s.clusters.map (fun c => { c with lines := c.lines.filter keep })
      cores := s.cores.map (fun c => { c with l1 := c.l1.filter keep })
      tlb := s.tlb.filter (fun t => s.saggarOfAsid t.asid != saggar)
      losses := if loss.dead.isEmpty then s.losses else loss :: s.losses
      sound := s.sound.filter (fun k => !loss.hits k)
      partition := { s.partition with
        deadClusters := unite s.partition.deadClusters cs
        deadSlices := unite s.partition.deadSlices ss
        deadChannels := unite s.partition.deadChannels hs } }
    let s := damaged.foldl (fun s d => if d.2.2.2.1 = 2 then s else s.unmap (s.asid d.1) d.2.1 d.2.2.1) s
    let ok := s.viable saggar
    let s : State := { s with partition := { s.partition with inService := s.partition.inService.set saggar ok } }
    let s := s.modeReset saggar
    let s := if ok then s else ctxs.foldl (fun s c => s.stopCtx c codeEcckill) s
    let s := s.resetEntries saggar cause ok ctxs
    let s := damaged.foldl (fun s d => s.pageEntry d.1 d.2.1 d.2.2.2.1 d.2.2.2.2) s
    let s := if ok then s else ctxs.foldl State.endCtx s
    { s with resetAt := (saggar, s.clk) :: s.resetAt.filter (fun p => p.1 != saggar) }

/-- A cause resets a saggar. One that arises during a reset, at its clk (log 115), is absorbed into it, and is recorded beside the first (R435). -/
def State.resetFor (s : State) (saggar cause : Nat) (cs ss hs : List (Nat × Nat))
    (gone : Option (CacheLevel × Nat × Nat × Nat × Nat) := none) : State :=
  if s.resetAt.contains (saggar, s.clk) then s.resetEntries saggar cause (s.partition.serves saggar) (s.ctxsOf saggar)
  else s.resetSaggar saggar cause cs ss hs gone

/-- Reset every saggar. -/
def State.resetAll (s : State) (cause : Nat) : State := (List.range 4).foldl (fun s k => s.resetFor k cause [] [] []) s

/-- SAGGAR_RESET (R435 to R437). -/
def execSaggarReset (saggar cause : Nat) (cs ss hs : List (Nat × Nat)) (s : State) : Host.Outcome State Fault Refusal :=
  when_ (decide (1 ≤ cause) && decide (cause ≤ 4)) (s.resetFor saggar cause cs ss hs) s

/-! ### Uncorrectable errors (R429 to R431) -/

/-- Change a line of a cache. -/
def State.atLine (s : State) (lvl : CacheLevel) (cl core asid vline : Nat) (f : Line → Option Line) : State :=
  let g := fun (ls : List Line) => ls.filterMap (fun l => if l.asid == asid && l.vline == vline then f l else some l)
  match lvl with
  | .l1 => s.modCore cl core (fun c => { c with l1 := g c.l1 })
  | .cc => s.modCC cl g
  | .llc => { s with llc := g s.llc }

/-- An error in a tagged counter word (R431): ERR and RETIRED are set, the value is undefined, and every waiter wakes. -/
def State.counterError (s : State) (l : Loc) : State :=
  match s.ctrTag l with
  | none => s
  | some _ =>
    let (n, s) := s.fresh 1
    let s := (s.homeReady none l).placePut l 8 (ctrWord (ctrValue (Config.freeBits n)) true true)
    (List.range s.warps.length).foldl (fun s w => s.endWaits w (fun s c =>
      match s.resolve w c.addr with
      | .ok (_, k) => if k == l then .ended true else .open_
      | .error _ => .open_)) s

/-- ECC_ERROR (R429): an uncorrectable error, by the state it lies in. A cluster cache whose line goes takes the clean lines of its L1s with it, and reads
anew what they still hold (R295). A shelf whose switch fails is declared dead (R413), and the saggar whose state it held is reset. -/
def execEccError (site : EccSite) (s : State) : Host.Outcome State Fault Refusal :=
  match site with
  | .cacheData lvl cl core asid vline =>
    if lvl == .llc && s.pinned.any (fun p => p.asid == asid && p.va ≤ 128 * vline && 128 * vline < p.va + p.size) then
      .next (s.setPoison (s.lcmPoison asid (128 * vline)) true)
    else .next (s.atLine lvl cl core asid vline (fun l => some { l with poison := true }))
  | .stackLine k => .next (s.setPoison k true)
  | .scratchLine b c k =>
    when_ (((s.blocks[b]?).map (fun x => !x.finished)).getD false && decide (128 * k < s.scratchOf b))
      (s.setPoison (scrKey b c 0 / 128 + k) true) s
  | .accSegment cl c seg => when_ (decide (seg < 16)) (s.setPoison (accPoison cl c seg) true) s
  | .cleanTag .cc cl _ asid vline => .next (if (findLine (s.ccLines cl) asid vline).any (fun l => !l.dirty) then s.invalLine cl asid vline else s)
  | .cleanTag lvl cl core asid vline =>
    .next (s.atLine lvl cl core asid vline (fun l => if l.dirty || l.pending then some l else none))
  | .tlbEntry asid va =>
    .next { s with tlb := s.tlb.filter (fun t => !(t.asid == asid && t.va ≤ va % 2 ^ 57 && va % 2 ^ 57 < t.va + t.size)) }
  | .counterWord l => .next (s.counterError l)
  | .warpState w =>
    match s.warp? w, s.gangOf w with
    | some x, some g =>
      if x.state == .ended then .next s
      else if s.savedWarp w then .next (s.modGang g (fun y => { y with damaged := true }))
      else .next (s.killGang g codeEcckill true)
    | _, _ => .next s
  | .contextState c inTrapLog =>
    when_ (((s.ctxs[c]?).map Ctx.live).getD false)
      ((if inTrapLog then s.modCtx c (fun x => { x with tlog := { x.tlog with gone := true } }) else s).endCtx c) s
  | .shared k gone => .next (s.resetFor k 1 [] [] [] gone)
  | .shelfSwitch k saggar => .next (match saggar with
    | none => s.shelfDies k
    | some g => (s.shelfDies k).resetFor g 1 [] [] [])
  | .injectionPorts k =>
    let s : State := { s with deadPorts := (k :: s.deadPorts).eraseDups }
    .next (if s.portsGone k then s.shelfDies k else s)
  | .ioDie => .next (s.resetAll 1)

/-! ### Shelves and routes (R413 to R415, R419) -/

/-- SHELF_HEARTBEAT_TIMEOUT (R413): a live shelf that has missed its heartbeat for 4 µs is declared dead; a restack removes it. -/
def execShelfHeartbeatTimeout (shelf : Nat) (s : State) : Host.Outcome State Fault Refusal := .next (s.shelfDies shelf)

/-- RESTACK (R413, R414): injection stops, and the new live set is fixed. Requests kept for a dead shelf are injected again, and each is still
performed once. -/
def execRestack (s : State) : Host.Outcome State Fault Refusal := when_ s.restackTo.isSome s.stopInjection s

/-- Every request of an access that was put on a shelf before a restack stopped injection has been performed (R413, step 3): one that the ticket unit
keeps, or that waits for others, has not been put on any. -/
def State.drainedAcc (s : State) (a : Access) : Bool :=
  s.drainAt ≤ a.issuedAt || s.savedWarp a.warp ||
    a.reqs.all (fun r => r.done || s.parked a r || s.ticketHolds a r || (s.requestShelf r.loc).isNone)

/-- Every request put on a shelf before a restack stopped injection has been performed. -/
def State.drained (s : State) : Bool := s.accs.all s.drainedAcc

/-- The table switches, with a new route table where one is to come, and injection resumes (R413, R419). -/
def State.switchShelves (s : State) (live : BitVec 8) : State :=
  { s with liveShelves := live, restackTo := none, drainShelf := false, epoch := (s.epoch + 1) % 2 ^ 16
           routes := s.routesTo.getD s.routes, routesTo := none }

/-- RESTACK_SWITCH (R413, R357): within 50 µs of the stop, in one write. -/
def execRestackSwitch (s : State) : Host.Outcome State Fault Refusal :=
  match s.restackTo with
  | none => .next s
  | some live => when_ (s.drainShelf && live != 0 && s.drained && decide (s.time.toNat ≤ s.restackAt + 50000)) (s.switchShelves live) s

/-- A saggar has requests that a restack has not drained. -/
def State.undrained (s : State) (saggar : Nat) : Bool :=
  s.accs.any (fun a => !s.drainedAcc a && s.saggarOfAsid (s.asid (s.ctxIx a.warp)) == saggar)

/-- RESTACK_OVERRUN (R413): a restack that has not drained within 50 µs, or that leaves no live shelf, resets the saggars that it cannot drain: those with
requests that were put on a shelf and have not been performed; without a live shelf, all. -/
def execRestackOverrun (s : State) : Host.Outcome State Fault Refusal :=
  match s.restackTo with
  | none => .next s
  | some live =>
    if !(s.drainShelf && (live == 0 || decide (s.restackAt + 50000 < s.time.toNat))) then .next s
    else
      let s := (List.range 4).foldl (fun s k => if live == 0 || s.undrained k then s.resetFor k 2 [] [] [] else s) s
      .next (if live == 0 then s else s.switchShelves live)

/-- ROUTE_CHANGE (R419): an entry of the route table changes through the restack steps, at their switch, without routes over dead links. -/
def execRouteChange (node : Nat) (entry : BitVec 24) (s : State) : Host.Outcome State Fault Refusal :=
  when_ (s.fullService && decide (node < 255) && !s.drainShelf)
    (s.reroute (fun t => t.set node (s.deadLinks.foldl dropPort entry))) s

/-! ### Boot, firmware and attestation (R439 to R442) -/

/-- The image that the flash holds in a bank that no update has written (log 78). -/
def factoryImage : FwImage :=
  { version := Config.factoryVersion, body := Config.factoryBody, stages := Config.factoryStages, sig := Config.factorySig }

/-- The image in a flash bank (R441). -/
def State.bank (s : State) (k : Nat) : FwImage := (s.banks.getD k none).getD factoryImage

/-- The bytes of an image that its signature covers: its version and its stages. -/
def signedBytes (img : FwImage) : List Byte := leBytes 2 img.version.toNat ++ img.body ++ img.stages.flatten

/-- The measurements of an image: SHAKE256 of each stage (R439). -/
def measured (img : FwImage) : List (List Byte) := (img.body :: img.stages).map (fun b => shake256 b 32)

/-- An image is good (R441): its signature holds, and its version does not lie below the fuses. -/
def State.goodImage (s : State) (img : FwImage) : Bool := Config.xmssVerify (signedBytes img) img.sig && s.fuse ≤ img.version.toNat

/-- MODULE_RESET (R439, R440): the boot ROM verifies the image of the active bank, and the module comes up in reduced service on the first die to
pass its tests (a free value, log 2), with everything else as at reset. A failed check leaves the module answering its management port
alone. -/
def execModuleReset (s : State) : Host.Outcome State Fault Refusal :=
  let img := s.bank s.nextBank
  let (n, s0) := s.fresh 1
  let die := (Config.freeBits n).toNat % 4
  let kept : State := { State.reset with
    banks := s.banks, bootBank := s.nextBank, nextBank := s.nextBank, fuse := s.fuse, attestIx := s.attestIx, node := s.node
    reports := s.reports, agenda := s.agenda, freeCtr := s0.freeCtr, measurements := s.measurements
    fullService := false
    partition := { Partition.whole with
      mode := 2, nextMode := some (s.partition.nextMode.getD s.partition.mode)
      inService := (List.range 4).map (fun d => d == die) } }
  if s.goodImage img then .next { kept with fuse := max s.fuse img.version.toNat, measurements := measured img }
  else
    .next { kept with
      bootDone := false, powered := false, partition := { kept.partition with inService := List.replicate 4 false }
      reports := s.reports ++ [{ kind := 9, fields := [1] }] }

/-- The units of one kind that fail the test of R439, each by its die and its number there: which they are is a free value (log 2), drawn for each
unit from number `n` on. -/
def faulty (perDie n : Nat) : List (Nat × Nat) :=
  ((List.range (4 * perDie)).filter (fun i => (Config.freeBits (n + i)).getLsbD 0)).map (fun i => (i / perDie, i % perDie))

/-- FULL_SERVICE (R439, R440): the 64 clusters, 96 slices and 192 channels of each die are tested, and those found faulty lose their live bits; the
links come up, and the route tables are set, to the routes of a system that the manual does not give (a free value, log 78). Every context of
reduced service is ended, and full service begins under the partition configuration that has been written. -/
def execFullService (s : State) : Host.Outcome State Fault Refusal :=
  if !s.bootDone || s.fullService then .next s
  else
    let (n, s) := s.fresh 1663
    let s := ((List.range s.ctxs.length).filter (fun c => ((s.ctxs[c]?).map Ctx.live).getD false)).foldl State.endCtx s
    let s : State := { s with
      fullService := true
      routes := (List.range 255).map (fun k => (Config.freeBits (n + 1408 + k)).setWidth 24)
      partition := { s.partition with
        mode := s.partition.nextMode.getD 0, nextMode := none, deadClusters := faulty 64 n, deadSlices := faulty 96 (n + 256), deadChannels := faulty 192 (n + 640)
        inService := List.replicate 4 true } }
    .next { s with partition := { s.partition with inService := (List.range 4).map s.viable } }

/-- FIRMWARE_UPDATE (R441): a signed image whose version the fuses allow is written to the inactive bank, for the next module reset; any other
leaves both banks as they are. -/
def execFirmwareUpdate (img : FwImage) (s : State) : Host.Outcome State Fault Refusal :=
  let k := 1 - s.bootBank
  when_ (s.goodImage img) { s with banks := s.banks.set k (some img), nextBank := k } s

/-- A live mask as a report gives it (R360, R442): how many units are dead, and which. -/
def maskFields (us : List (Nat × Nat)) : List Nat := us.length :: us.flatMap (fun u => [u.1, u.2])

/-- The numbers of an attestation report (R442): nonce, serial number, measurements, security versions, partition configuration with its live masks, and
EPOCH. -/
def State.attested (s : State) (nonce : List Byte) : List Nat :=
  let p := s.partition
  nonce.map BitVec.toNat ++ Config.serial.map BitVec.toNat ++ s.measurements.flatMap (fun m => m.map BitVec.toNat) ++
  [s.fuse, (s.bank s.bootBank).version.toNat, p.mode] ++
  maskFields p.deadClusters ++ maskFields p.deadSlices ++ maskFields p.deadChannels ++ p.inService.map Bool.toNat ++ [s.epoch]

/-- ATTESTATION_REPORT (R442): the key's index advances, and then the report is signed; after 2^20 signatures reports are refused. -/
def execAttestationReport (nonce : List Byte) (s : State) : Host.Outcome State Fault Refusal :=
  let f := s.attested nonce
  let sig := Config.xmssSign s.attestIx (f.flatMap (fun n => leBytes 8 n))
  when_ (s.bootDone && nonce.length == 64 && decide (s.attestIx < 2 ^ 20))
    { s with attestIx := s.attestIx + 1, reports := s.reports ++ [{ kind := 10, fields := f ++ sig.map BitVec.toNat }] } s

/-! ### Power and heat (R443, R444) -/

/-- THROTTLE_STEP (R443): the module draws more than LIMIT, and the clock is lowered one step. -/
def execThrottleStep (s : State) : Host.Outcome State Fault Refusal :=
  when_ (decide (0 < s.powerStep)) { s with powerStep := s.powerStep - 1, throt := true, powerAt := s.time.toNat } s

/-- THROTTLE_RAISE (R443): after 10 ms below the limit the clock is raised one step. -/
def execThrottleRaise (s : State) : Host.Outcome State Fault Refusal :=
  when_ (decide (s.powerStep < 8) && decide (s.powerAt + 10000000 ≤ s.time.toNat))
    { s with powerStep := s.powerStep + 1, throt := decide (s.powerStep + 1 < 8), powerAt := s.time.toNat } s

/-- THERMAL_THROTTLE (R444): at 95 °C STEP drops to 0 and THROT is set. -/
def execThermalThrottle (s : State) : Host.Outcome State Fault Refusal := .next { s with powerStep := 0, throt := true, powerAt := s.time.toNat }

/-- THERMAL_TRIP (R444): at 105 °C every saggar is reset with cause 3, and the compute dies are powered off until the module restarts: no saggar holds a live
unit, and none is in service (R436). -/
def execThermalTrip (s : State) : Host.Outcome State Fault Refusal :=
  let s := (List.range 4).foldl (fun s k => s.resetSaggar k 3 [] [] []) { s with powered := false }
  .next { s with partition := { s.partition with inService := List.replicate 4 false } }

end Sys2Proof.Machine
end

