-- ==== Sys2Proof/Machine/Control.lean ====
section
/-! DEFINITION. The cone (R371, R372), the passing of time (R374, R286, R287), and what the control complex writes: bounds entries (R355), the
partition configuration (R361), and the registers and table fields that have no row of their own (R276). -/
namespace Sys2Proof.Machine

/-! ### The conditions of the cone (R371) -/

/-- A counter word is tagged and its external bit is 0 (R362, R370); that of a peer's word is its module's, a free value for each word (log 50). -/
def State.isInner (s : State) (l : Loc) : Bool :=
  match l.place with
  | .peer n => n != 255 && (Config.freeBits (2 ^ 220 + n * 2 ^ 60 + l.addr)).getLsbD 0
  | .glob _ | .nc | .lcm _ | .scr _ _ => (s.ctrTag l).any (fun t => !t.ext)

/-- A word that a warp waits for has EXT 0 (R371). -/
def State.innerWord (s : State) (w : Nat) (va : DWord) : Bool :=
  match s.resolve w va with
  | .error _ => false
  | .ok (_, l) => s.isInner l

/-- The ticket unit holds a request of an access whose result its warp can wait for (R352, R393). -/
def State.heldAccess (s : State) (a : Access) : Bool :=
  !a.wb && a.reqs.any (fun r => !r.done && !s.parked a r && s.ticketHolds a r && !s.nextReached a.block)

/-- What the WAIT of the next clause of a warp names (R62). -/
def State.nextWait (s : State) (w : Nat) (x : Warp) : Nat :=
  match s.fetchClause w (wordAddress (selectThreads x.regs.lpc).2.1) with
  | .clause h _ => headerWait h
  | .poison | .absent _ | .bad _ => 0

/-- A warp can issue nothing until something that the ticket unit holds is released (R371). -/
def State.ticketStops (s : State) (w : Nat) (x : Warp) : Bool :=
  let held := s.accs.filter (fun a => a.warp == w && s.heldAccess a)
  let seat := s.seat w
  match x.hold with
  | .none =>
    x.state == .active && x.clause.isNone &&
      (let wait := s.nextWait w x
       held.any (fun a => match a.sb with | some i => wait / 2 ^ i.val % 2 = 1 | none => false))
  | .fence _ _ => !held.isEmpty
  | .accept n => (s.accs[n]?).any s.heldAccess
  | .issue .stage => !s.nextReached x.block
  | .issue (.sb i) => s.accs.all (fun a => a.warp != w || a.wb || a.sb != some i || s.heldAccess a)
  | .issue .copies => s.copies.zipIdx.all (fun (c, i) => !c.live || s.seat c.warp != seat || s.copyHeld i c)
  | .issue .mmas => ((s.core seat.1 seat.2).mmaq.head?).any s.mmaHeld
  | .issue (.count _) => false
  | .counter _ | .drain _ | .yield _ | .batch | .fetch _ | .arrive _ | .stop => false

/-- A resident warp waits hopelessly: on words that the context alone advances, or on the ticket unit. -/
def State.hopeless (s : State) (w : Nat) (x : Warp) : Bool :=
  match x.hold with
  | .counter ws => ws.all (fun c => s.innerWord w c.1.addr)
  | .none | .drain _ | .yield _ | .batch | .fetch _ | .fence _ _ | .issue _ | .accept _ | .arrive _ | .stop => s.ticketStops w x

/-- The resident warps of a context. -/
def State.residents (s : State) (c : Nat) : List (Nat × Warp) :=
  (s.warps.zipIdx.map (fun (x, i) => (i, x))).filter (fun (i, x) => x.resident && s.ctxIx i == c)

/-- A packet may still lead to an add (R371): it is held by HOLD or its START time, or, at the head of its queue, by nothing, or by a word
that another party advances. -/
def State.packetPends (s : State) (c : Nat) (q : Queue) (p : QPkt) (head : Bool) : Bool :=
  q.hold || decide (s.time.toNat < (pktStart p.bytes).toNat) ||
    (head &&
      (match s.judgeDep c p.bytes with
        | .waits => !((s.ctxLoc c (pktDep p.bytes)).any s.isInner)
        | .met | .failed _ => true))

/-- A started launch of a context has a gang that has not been placed (R371); one that an ECCKILL of this clk is to place again may be left out (R433). -/
def State.gangPends (s : State) (l : Nat) (x : Launch) (again : Bool) : Bool :=
  x.started && !x.finished && pktKind x.pkt == 1 &&
    (s.gangs.any (fun g => g.launch == l && !g.placed && !g.killed && (again || g.againAt != some s.clk)) ||
      (if pktRagged x.pkt then !x.records.isEmpty else x.nextGang * pktGang x.pkt < pktBlocks x.pkt))

/-- An add to a counter of a context is pending (R371, condition 3). -/
def State.addPends (s : State) (c : Nat) (again : Bool := true) : Bool :=
  s.dueAdds.any (fun d => d.ctx == c) ||
  s.copies.any (fun k => k.live && s.ctxIx k.warp == c && (k.d 4 != 0 || k.d 5 != 0)) ||
  s.cores.any (fun k => k.mmaq.any (fun m => s.ctxIx m.warp == c && mmaCtr m.blk != 0)) ||
  s.accs.any (fun a => s.ctxIx a.warp == c && a.op.isCtr && a.reqs.any (fun r => !r.done)) ||
  s.launches.zipIdx.any (fun (x, l) => x.ctx == c && s.gangPends l x again) ||
  (match s.ctxs[c]? with
    | none => false
    | some x => x.queues.any (fun q => q.pkts.zipIdx.any (fun (p, k) => s.packetPends c q p (k == 0))))

/-- The conditions of R371 hold for a context. -/
def State.coneHolds (s : State) (c : Nat) : Bool :=
  match s.ctxs[c]? with
  | none => false
  | some x =>
    let ws := s.residents c
    x.live && !x.switchedOut && !ws.isEmpty && ws.all (fun p => s.hopeless p.1 p.2) && !s.addPends c

/-- A gang of a context has been killed at this clk and is to be relaunched (R432). -/
def State.relaunchesNow (s : State) (c : Nat) : Bool :=
  s.gangs.any (fun g => g.againAt == some s.clk && !g.killed && !g.placed && ((s.launches[g.launch]?).map Launch.ctx) == some c)

/-- The cone meets a context: its conditions hold, or they held until an ECCKILL of the same clk, before which the cone goes (R433). -/
def State.coneMeets (s : State) (c : Nat) : Bool :=
  match s.ctxs[c]? with
  | none => false
  | some x =>
    let ws := s.residents c
    x.live && !x.switchedOut && (!ws.isEmpty || s.relaunchesNow c) && ws.all (fun p => s.hopeless p.1 p.2) && !s.addPends c false

/-- The cone's limit (R371). -/
def coneLimit : Nat := 2 ^ 26

/-- The trap log entries of a warp as the cone fires: one for each word it waits on, or one of zeros (R372, R402). -/
def State.coneEntries (s : State) (c w : Nat) (x : Warp) : State :=
  let entry := fun (s : State) (data : List DWord) => s.trapEntry c 3 codeCone x.blockWarp (s.launchNo w) (s.blockNo w) data
  match x.hold with
  | .counter ws => ws.foldl (fun s k =>
      let v := match s.resolve w k.1.addr with
        | .ok (_, l) => s.ctrWordAt l
        | .error _ => 0
      entry s [k.1.addr, k.1.target, v, 0]) s
  | .none | .drain _ | .yield _ | .batch | .fetch _ | .fence _ _ | .issue _ | .accept _ | .arrive _ | .stop => entry s [0, 0, 0, 0]

/-- CONE (R371, R372): after 2^26 clk of hopeless waits the context's queues are held, its gangs killed, its launches given one update with
ERR each, and its waits reported. A gang that an ECCKILL of the same clk killed is not relaunched (R433). -/
def execCone (c : Nat) (s : State) : Host.Outcome State Fault Refusal :=
  when_ (s.coneMeets c && ((s.ctxs[c]?).any (fun x => decide (coneLimit ≤ x.cone))))
    (let s := (s.residents c).foldl (fun s p => s.coneEntries c p.1 p.2) s
     (s.stopCtx c codeCone).modCtx c (fun x => { x with cone := 0 })) s

/-! ### The passing of time -/

/-- A scope whose release waits for markers (R211, R388). -/
def marks (sc : Scope) : Bool := sc == .device || sc == .system

/-- A release of a warp waits for the markers of the shelves (R286, R388, R415; DEDUCED, log 116): what comes before it has been performed and its lines have
been written back, or a restack has stopped injection; and no write-back that it has left is refused, which would make it trap (R287). -/
def State.awaitsMarks (s : State) (w n : Nat) (sc : Scope) : Bool :=
  marks sc && (s.release w sc).2.isNone &&
    (s.drainShelf || (s.performedAt w n sc && (s.dirtyLines (s.clusterOf w) (s.asid (s.ctxIx w))).isEmpty))

/-- A warp waits in a release of DEVICE or SYSTEM scope for the markers of the shelves: of a fence, a counter operation or a LAUNCH (R226), or of a wait that
releases once a restack lets it end (R383). -/
def State.inWideRelease (s : State) (w : Nat) (x : Warp) : Bool :=
  x.resident &&
    ((match x.hold with
      | .fence sc m => fenceRel m && s.awaitsMarks w s.accs.length sc
      | .counter ws => s.drainShelf && ws.any (fun c => c.1.rel && s.awaitsMarks w c.1.before c.1.scope)
      | .none | .drain _ | .yield _ | .batch | .fetch _ | .issue _ | .accept _ | .arrive _ | .stop => false) ||
      s.accs.zipIdx.any (fun (a, n) => a.warp == w && (match a.op with | .launch _ => true | o => o.isCtr && semRel a.sem) &&
        a.reqs.any (fun r => !r.done && s.awaitsMarks w n (ctrScope a.scope r.va))))

/-- The nanoseconds of n clk from now, at the clock that STEP gives (R443), or at the 800 MHz of reduced service (R440). -/
def State.nsOf (s : State) (n : Nat) : Nat :=
  let step := if s.fullService then s.powerStep else 0
  (s.clk + n) * 10 / (8 + step) - s.clk * 10 / (8 + step)

/-- By how much device time advances over n clk (R374), and what is left of what it is ahead by, in 1/5,000 ns: before lock, as the clk give
it; while it is ahead of the disciplined time, 200 ppm slower; after lock as `ns` says, within 200 ppm of the clk. -/
def State.timeStep (s : State) (n ns : Nat) : Nat × Nat :=
  let base := s.nsOf n
  if !s.locked then (base, s.slew)
  else if s.slew = 0 then (max (base - base / 5000) (min ns (base + base / 5000)), 0)
  else
    let left := s.slew - min s.slew base
    (base - ((s.slew + 4999) / 5000 - (left + 4999) / 5000), left)

/-- What happens as the clk has passed: adds and watches are served, recalls that waited apply, gangs that find no cluster are noted, and events
older than 2,048 clk are no longer recent (R287). -/
def State.afterTick (s : State) : State :=
  let s := (((s.settleAdds).serveWatches).dueRecalls).noteStarving
  { s with justSet := [], ctxs := s.ctxs.map (fun x => { x with recent := x.recent.filter (fun e => s.clk < e.at_ + 2048) }) }

/-- The waits of this module's warps that have been met end (R35, R232): a slice boundary falls on every 1,024th clk, so none stays longer. -/
def State.wakeMet (s : State) : State :=
  if s.clk % 1024 != 0 then s
  else (List.range s.warps.length).foldl (fun s w =>
    match (s.warp? w).map Warp.hold with
    | some (.counter _) => s.endWaits w (fun s c => s.waitCheck w c)
    | _ => s) s

/-- n clk pass (R225, R371, R374): each context's cone counts or returns to 0, and waits for markers are counted; before time passes, what a slice
boundary owes happens in the order of R339: met waits end, and the boundaries that are still due are taken, of every core that has been in use. -/
def State.pass (s : State) (n ns : Nat) : State :=
  let s : State := { s with ctxs := s.ctxs.zipIdx.map (fun (x, c) => { x with cone := if s.coneHolds c then x.cone + n else 0 }) }
  let s := (s.warps.zipIdx).foldl (fun s (x, w) => if s.inWideRelease w x then s.bump (s.ctxIx w) evShelfStall n (some w) else s) s
  let s := s.wakeMet
  let s := (s.takeBoundaries (s.cores.map (fun c => (c.cluster, c.core)) ++ s.seats).eraseDups).noteCandidates
  let (dt, left) := s.timeStep n ns
  ({ s with clk := s.clk + n, time := s.time + BitVec.ofNat 64 dt, slew := left } : State).afterTick

/-- Up to n clk pass: time stops at the next slice boundary, so that every boundary and the bounds of R35 are met. -/
def State.tick (s : State) (n ns : Nat) : State :=
  let n := min n (1024 - s.clk % 1024)
  if n = 0 then s else s.pass n ns

/-- A warp's issue returns the cone of its context to 0 (R371). -/
def State.coneReset (s : State) (w : Nat) : State := s.modCtx (s.ctxIx w) (fun x => { x with cone := 0 })

/-- PTP_LOCK (R374): device time steps once to the disciplined time where that is ahead; where it is behind, time runs slow until the two
agree. -/
def execPtpLock (t : DWord) (s : State) : Host.Outcome State Fault Refusal :=
  when_ (!s.locked)
    { s with locked := true, time := if s.time.toNat < t.toNat then t else s.time, slew := 5000 * (s.time.toNat - t.toNat) } s

/-! ### Tables -/

/-- A bounds entry may be written (R354): no bound is NaN, and LOW does not exceed HIGH. -/
def boundsOk (v : BoundsVal) : Bool :=
  match fcmpv (fdec .f32 v.low.toNat) (fdec .f32 v.high.toNat) with
  | some .lt | some .eq => true
  | some .gt | none => false

/-- The words of a bounds entry but its STATUS (R354). -/
def boundsBytes (v : BoundsVal) : List Byte :=
  leBytes 8 v.base.toNat ++ leBytes 8 v.top.toNat ++ leBytes 4 v.low.toNat ++ leBytes 4 v.high.toNat ++ leBytes 4 v.action.val

/-- A bounds entry exists (R354): 7 tables of 32. -/
def boundsIx (table entry : Nat) : Bool := table < 7 && entry < 32

/-- BOUNDS_ENTRY_WRITE (R354, R355): an entry of the context's tables at BTBASE; its STATUS stays. -/
def execBoundsEntryWrite (ctx table entry : Nat) (v : BoundsVal) (s : State) : Host.Outcome State Fault Refusal :=
  when_ (boundsOk v && boundsIx table entry && (s.ctxs[ctx]?).isSome)
    { s with mem := s.mem.writeN (s.boundsAt ctx table entry) (boundsBytes v) } s

/-- BOUNDS_HIT_CLEAR (R355): an entry that an action sets HIT of on the same clk keeps it. -/
def execBoundsHitClear (ctx table entry : Nat) (s : State) : Host.Outcome State Fault Refusal :=
  let a := s.boundsAt ctx table entry
  when_ (boundsIx table entry && (s.ctxs[ctx]?).isSome && !s.justSet.contains (hitKey a))
    { s with mem := s.mem.write (a + 28) (s.mem.read (a + 28) &&& 0xFE) } s

/-- PARTITION_WRITE (R360, R361): MODE is written while no context is in a saggar that changes, and takes effect when the saggars are next
reset. -/
def execPartitionWrite (mode : Nat) (s : State) : Host.Outcome State Fault Refusal :=
  when_ (mode < 3 && (mode == s.partition.mode || s.ctxs.all (fun c => !c.live)))
    { s with partition := { s.partition with
        nextMode := if s.fullService && mode = s.partition.mode then none else some mode, resetDies := [] } } s

/-! ### Registers and fields without a row of their own (R276) -/

/-- The control complex may write a warp's registers (R276): it has not started, it has trapped, or it is saved. -/
def Warp.halted (x : Warp) : Bool := !x.begun || x.state == .trapped || x.state == .saved false || x.state == .saved true

/-- Write a halted warp. -/
def State.writeWarp (s : State) (w : Nat) (f : Warp → Warp) : State := s.modWarp w (fun x => if x.halted then f x else x)

/-- Write a halted warp's registers. -/
def State.writeRegs (s : State) (w : Nat) (f : Regs → Regs) : State := s.writeWarp w (fun x => { x with regs := f x.regs })

/-- Write a V or O register: V0 to V319, then O0 to O7. -/
def Regs.modV (r : Regs) (n : Nat) (f : VReg → VReg) : Regs :=
  if n < 320 then { r with v := r.v.modify n f } else { r with o := r.o.modify (n - 320) f }

/-- The lane state of two bits (R14). -/
def laneState (n : Nat) : LaneState :=
  match n with
  | 0 => .run
  | 1 => .due
  | 2 => .joined
  | _ => .exited

/-- An entry of LPC from its word (R14). -/
def lpcOf (v : DWord) : Lpc := { st := laneState (bitsOf v 62 2), age := bitsOf v 54 8, waddr := v.extractLsb' 0 54 }

/-- A context has no resident warp (R290). -/
def State.idleCtx (s : State) (c : Nat) : Bool := (s.residents c).isEmpty

/-- A context has no resident warp, no queued copy and no queued MMA (R343). -/
def State.quietCtx (s : State) (c : Nat) : Bool :=
  s.idleCtx c && s.copies.all (fun k => !k.live || s.ctxIx k.warp != c) &&
  s.cores.all (fun k => k.mmaq.all (fun m => s.ctxIx m.warp != c))

/-- The LCM pages of an address space find room under another ASID, which gives their lines other homes (R296, R297). -/
def State.waysUnder (s : State) (g a b : Nat) : Bool :=
  let mine := s.pinned.filter (fun p => p.asid == a)
  mine.isEmpty || s.waysFit g (mine.map (fun p => { p with asid := b }) ++ s.pinned.filter (fun p => s.saggarOfAsid p.asid == g && p.asid != a))

/-- CXCTL may be written (R289, R290): LOADF is not 0, and ASID changes only in a context without a resident warp, to one no other context
has. -/
def State.cxctlOk (s : State) (c : Nat) (x : Ctx) (v : DWord) : Bool :=
  let a := bitsOf v 0 16
  bitsOf v 32 5 != 0 && (a == x.asid || (s.idleCtx c && s.ctxOfAsid a == none && s.waysUnder x.saggar x.asid a))

/-- The fields of CXCTL (R6, R289): a write of a reserved bit has no effect. -/
def cxctlMask : DWord := 0x0000FF1F0000FFFF#64

/-- The field of ROOT (R6, R343). -/
def rootMask : DWord := 0x000FFFFFFFFFF000#64

/-- The fields of the words of an inbound window (R6, R421). -/
def windowMask : DWord × DWord := (0xFFFFFFFFFFFFC000#64, 0x000FFFFFFFFF0000#64)

/-- The fields of the registers of a fault record (R6, R283): FAULT2 holds none that is reserved. -/
def faultMask (n : Nat) : DWord :=
  match n with
  | 0 => 0x03FFFFFFFFFFFFFF#64
  | 1 => 0x00FF3FFFFFFFFFFF#64
  | 2 => BitVec.allOnes 64
  | _ => 0x000000FFFFFFFFFF#64

/-- The pages that tables map may stand in a saggar, in place of some that give way, as a mapping of each would (R1, R297, R313, R361, R422, R440). -/
def State.tablesFit (s : State) (g : Nat) (gone : Nat → Nat → Bool) (lcb : Nat → DWord) (asid : Nat) (root : DWord) : Bool :=
  s.pagesFit g gone lcb asid (leavesFrom s.mem 5 0 (root &&& rootMask).toNat 0)

/-- A saggar takes contexts: it is in service, and no change of MODE is to come for it (R361); reduced service has its own configuration (R440). -/
def State.admits (s : State) (g : Nat) : Bool := s.partition.serves g && (!s.fullService || s.partition.nextMode.isNone)

/-- A context may be created (R289, R343): its ASID is no other's, there are fewer than 64, and its saggar takes it with the pages of its tables. -/
def State.ctxFits (s : State) (asid : BitVec 16) (root : DWord) (saggar : Nat) : Bool :=
  s.ctxOfAsid asid.toNat == none && decide ((s.ctxs.filter Ctx.live).length < 64) && s.admits saggar &&
    s.tablesFit saggar (fun _ _ => false) (fun k => (Ctx.fresh saggar).lcbase.getD k 0) asid.toNat root

/-- A context's table entry may name a root and a saggar (R343): those it has, or ones that take it. -/
def State.entryFits (s : State) (ctx : Nat) (root : DWord) (saggar : Nat) : Bool :=
  s.partition.serves saggar && (match s.ctxs[ctx]? with
    | none => false
    | some x => (x.root == root &&& rootMask && x.saggar == saggar) ||
        ((x.saggar == saggar || s.admits saggar) && s.tablesFit saggar (fun a _ => a == x.asid) (s.lcbOf x.asid) x.asid root))

/-- The pages that a context's tables map are held as mapped (R297, R300). -/
def State.noteLeaves (s : State) (c : Nat) : State :=
  (s.leaves c).foldl (fun s p => (s.noteFrame (s.asid c) p.1 p.2.1 p.2.2).newPage (s.asid c) p.1 p.2.1 p.2.2) s

/-- Create a context (R289, R343). The control complex reports where it finds the live-shelf table (R357, log 48). -/
def State.createCtx (s : State) (asid : BitVec 16) (root : DWord) (saggar func : Nat) : State :=
  let c : Ctx := { Ctx.fresh saggar with
    cxctl := (Ctx.fresh saggar).cxctl ||| asid.setWidth 64, root := root &&& rootMask, func := func }
  let s : State := { s with ctxs := s.ctxs ++ [c], reports := s.reports ++ [{ kind := 11, fields := [s.ctxs.length, shelfVa] }] }
  s.noteLeaves (s.ctxs.length - 1)

/-- What an address space holds by its ASID is held by another (log 93): tags, levels, mappings and accesses. -/
def State.rekey (s : State) (a b : Nat) : State :=
  let name := fun (n : Nat) => if n = a then b else n
  let move := fun (l : Loc) => match l.place with
    | .glob n => { l with place := .glob (name n) }
    | .lcm n => { l with place := .lcm (name n) }
    | .nc | .scr _ _ | .peer _ => l
  let level := fun (k : Nat) => lcmKey a 0 ≤ k && k < lcmKey (a + 1) 0
  { s with
    tags := s.tags.map (fun t => { t with loc := move t.loc })
    lcUndef := s.lcUndef.map (fun u => { u with asid := name u.asid })
    pinned := s.pinned.map (fun p => { p with asid := name p.asid })
    frames := s.frames.map (fun f => { f with asid := name f.asid })
    migrations := s.migrations.map (fun g => { g with asid := name g.asid })
    recalls := s.recalls.map (fun r => { r with asid := name r.asid })
    accs := s.accs.map (fun x => { x with reqs := x.reqs.map (fun r => { r with loc := move r.loc }) })
    poison := s.poison.map (fun k => if lcmKey a 0 / 128 ≤ k && k < lcmKey (a + 1) 0 / 128 then k - lcmKey a 0 / 128 + lcmKey b 0 / 128 else k)
    mem := (s.mem.filter (fun m => level m.1)).foldl (fun m c => m.write (c.1 - lcmKey a 0 + lcmKey b 0) c.2)
      (s.mem.filter (fun m => !level m.1)) }

/-- Write CXCTL (R289, R290). Under a new ASID the context keeps its memory, and starts without cached lines or translations (log 93). -/
def State.writeCxctl (s : State) (c : Nat) (v : DWord) : State :=
  let a := s.asid c
  let b := bitsOf v 0 16
  let set := fun (s : State) => s.modCtx c (fun x => { x with cxctl := v })
  if a = b then set s else (set ((s.writeBackCtx c).dropLines a)).rekey a b

/-- Write a context's table entry (R343). Under a new ROOT its pages are those of the new tables, and what the old ones mapped is gone as when a
page is unmapped; in a new saggar it starts without cached lines or translations (log 93). -/
def State.writeEntry (s : State) (c : Nat) (root btbase bpbase : DWord) (saggar : Nat) : State :=
  let old := ((s.ctxs[c]?).map (fun x => (x.root, x.saggar))).getD (0, 0)
  let set := fun (s : State) => s.modCtx c (fun x => { x with root := root, btbase := btbase, bpbase := bpbase, saggar := saggar })
  if root != old.1 then (set ((s.writeBackCtx c).dropSpace (s.asid c))).noteLeaves c
  else if saggar != old.2 then set ((s.writeBackCtx c).dropLines (s.asid c))
  else set s

/-- A queue's descriptor (R324). A queue is created empty; one that holds packets is not taken away (log 51). -/
def Queue.describe (q : Queue) (valid hold : Bool) (depth : Nat) : Queue :=
  if !q.valid && valid then { Queue.none_ with valid := true, hold := hold, logDepth := depth }
  else if q.valid && !valid && !q.pkts.isEmpty then q
  else { q with valid := valid, hold := hold, logDepth := depth }

/-- Describe a log (R332): the entries produced are what its counter shows. -/
def State.describeLog (s : State) (ctx : Nat) (k : LogKind) (v : LogVal) : State :=
  let shown := ((s.logLoc ctx k v.prodctr).map (fun l => ctrValue (s.ctrWordAt l))).getD 0
  if v.base.toNat % logSize k != 0 || v.logn < 4 || 16 < v.logn then s
  else
    s.modLog ctx k (fun _ =>
      { base := v.base, prodctr := v.prodctr, cons := v.cons, logn := v.logn, produced := shown, dropped := 0, lossDue := false, gone := false })

/-- An entry of the inbound window table may be written (R421): it goes from invalid to invalid or valid. A valid one is recalled (R423). -/
def windowOk (old : DWord × DWord) (w0 : DWord) : Bool := bitsOf old.1 54 2 == 0 && bitsOf w0 54 2 < 2

/-- A window may be opened over frames (R422): the module's own contexts map none of them cached and writable. -/
def State.windowFits (s : State) (w0 w1 : DWord) : Bool :=
  bitsOf w0 54 2 == 0 || s.frames.all (fun m => m.attr != 0 || !m.w || !windowHolds (w0, w1) m.frame m.size)

/-- The clause that a resume point stands in (R398 to R400), and at which instruction; its L file is what the warp kept. It is none before the first
instruction, or where the point lies beyond the last one. -/
def State.resumeClause (s : State) (w : Nat) (x : Warp) (r : Resume) : Option Clause :=
  let addr := wordAddress r.caddr.toNat
  let ix := if r.done then r.index + 1 else r.index
  let at_ := match x.clause.filter (fun k => k.addr == addr) with
    | some k => some (s.reword w k)
    | none => (match s.fetchClause w addr with
      | .clause h ws => some { addr := addr, cls := headerClass h, yld := headerYld h, words := ws, iset := r.iset, idx := 0, start := 0, pend := []
                               lfile := (x.clause.map Clause.lfile).getD [] }
      | .poison | .absent _ | .bad _ => none)
  if r.head then none else (at_.filter (fun k => ix < k.words.length)).map (fun k => { k with iset := r.iset, idx := ix })

/-- Write one of the waits that a halted warp keeps (R232, R406): its counter's address and the value waited for. -/
def Warp.writeWait (x : Warp) (k : Nat) (addr target : DWord) : Warp :=
  let set := fun (c : CtrWait) => { c with addr := addr, target := target }
  match x.hold with
  | .counter ws => { x with hold := .counter (ws.modify k (fun c => (set c.1, c.2))) }
  | .none | .drain _ | .yield _ | .batch | .fetch _ | .fence _ _ | .issue _ | .accept _ | .arrive _ | .stop =>
    { x with pendWait := x.pendWait.modify k set }

/-- Write the memories of the DRAIN that a halted warp keeps (R213, R406). -/
def Warp.writeDrain (x : Warp) (ms : List DrainMem) : Warp :=
  match x.hold with
  | .drain _ => { x with hold := .drain ms }
  | .none | .counter _ | .yield _ | .batch | .fetch _ | .fence _ _ | .issue _ | .accept _ | .arrive _ | .stop => { x with pendDrain := ms }

/-- Write what is left of the YIELD interval of a halted warp (R221, R406): a saved one holds it as it is, another as the clk of its end. -/
def Warp.writeYield (x : Warp) (clk n : Nat) : Warp :=
  match x.state with
  | .saved _ => { x with wakeAt := n, hold := match x.hold with | .yield _ => .yield n | h => h }
  | .waiting | .ready | .active | .trapped | .ended => { x with wakeAt := clk + n }

/-- CONTROL_WRITE (R276): a write that the spec forbids changes nothing. -/
def execControlWrite (c : CtlWrite) (s : State) : Host.Outcome State Fault Refusal :=
  match c with
  | .newContext asid root saggar func =>
    when_ (s.ctxFits asid root saggar) (s.createCtx asid root saggar func) s
  | .cxctl ctx v =>
    match s.ctxs[ctx]? with
    | none => .next s
    | some x => when_ (s.cxctlOk ctx x v) (s.writeCxctl ctx (v &&& cxctlMask)) s
  | .ctxEntry ctx root btbase bpbase saggar =>
    when_ (s.quietCtx ctx && btbase.toNat % 1024 == 0 && bpbase.toNat % 256 == 0 && s.entryFits ctx root saggar)
      (s.writeEntry ctx (root &&& rootMask) btbase bpbase saggar) s
  | .queueDesc ctx q valid hold depth =>
    when_ (4 ≤ depth && depth ≤ 11) (s.modQueue ctx q (fun d => d.describe valid hold depth)) s
  | .logDesc ctx k v => .next (s.describeLog ctx k v)
  | .unresolvable ctx va yes =>
    let p := pageOf va.toNat
    .next (s.modCtx ctx (fun x => { x with unresolvable := (x.unresolvable.filter (· != p)) ++ (if yes then [p] else []) }))
  | .zeroEvents ctx => .next (s.modCtx ctx (fun x => { x with events := List.replicate 8 0, recent := [] }))
  | .wcr w v => .next (s.writeWarp w (fun x => { x with wcr := v &&& 0xFF03#64, nextWcr := none }))
  | .lpc w t v => .next (s.writeRegs w (fun r => { r with lpc := r.lpc.set t (lpcOf v) }))
  | .sreg w n v => .next (s.writeRegs w (fun r => { r with s := r.s.set n v }))
  | .preg w n v => .next (s.writeRegs w (fun r => { r with p := r.p.set n v }))
  | .slot w r p v => .next (s.writeRegs w (fun k => k.modV r (fun x => { x with slots := x.slots.set p v })))
  | .tag w r v => .next (s.writeRegs w (fun k => k.modV r (fun x => { x with tag := v })))
  | .tableEntry w m t e => .next (s.writeRegs w (fun r => { r with mt := r.mt.modify m (fun x => { x with ents := x.ents.set t e }) }))
  | .tableMeta w m inj ref => .next (s.writeRegs w (fun r => { r with mt := r.mt.modify m (fun x => { x with inj := inj, ref := ref % 512 }) }))
  | .draw w t v => .next (s.writeRegs w (fun r => { r with draws := r.draws.set t v }))
  | .lease w v => .next (s.writeWarp w (fun x => { x with lease := v &&& 0x0000FFFF1FFF01FF#64, nextLease := none }))
  | .fault w n v => .next (s.writeWarp w (fun x => { x with fault := x.fault.set n (v &&& faultMask n) }))
  | .lslot w n p v =>
    .next (s.writeWarp w (fun x => { x with clause := x.clause.map (fun k => { k with
      lfile := k.lfile.modify n (fun e => e.map (fun e => { e with slots := e.slots.set p v })) }) }))
  | .resumePoint w hi lo =>
    .next (s.writeWarp w (fun x =>
      let r : Resume := { iset := hi.extractLsb' 32 32, done := hi.getLsbD 5, head := hi.getLsbD 4, index := bitsOf hi 0 4, caddr := lo.extractLsb' 0 54 }
      { x with resume := r, stalled := [], clause := s.resumeClause w x r }))
  | .sbCount w i n => .next (s.writeRegs w (fun r => { r with sb := r.sb.set i (n % 64) }))
  | .keptWait w k addr target => .next (s.writeWarp w (fun x => x.writeWait k addr target))
  | .keptDrain w ms => .next (s.writeWarp w (fun x => x.writeDrain ms))
  | .yieldLeft w n => .next (s.writeWarp w (fun x => x.writeYield s.clk n))
  | .lmap w n t p =>
    .next (s.writeWarp w (fun x => { x with clause := x.clause.map (fun k => { k with
      lfile := k.lfile.modify n (fun e => e.map (fun e => { e with map := e.map.set t p })) }) }))
  | .word va ctx v =>
    when_ ((s.ctxLoc ctx va).all (fun l => !s.tagHit l 8)) (s.ccWrite ctx va (leBytes 8 v.toNat)) s
  | .inWindow i w0 w1 =>
    match s.inWindows[i]? with
    | none => .next s
    | some old => when_ (windowOk old w0 && s.windowFits w0 w1) { s with inWindows := s.inWindows.set i (w0 &&& windowMask.1, w1 &&& windowMask.2) } s
  | .binding i node asid q ctx tq =>
    .next { s with bindings := s.bindings.set i (some { node := node, asid := asid, q := q, ctx := ctx, tq := tq }) }
  | .unbind i => .next { s with bindings := s.bindings.set i none }
  | .node n => when_ (n < 255) { s with node := n } s
  | .powerLimit watts => when_ (1200 ≤ watts && watts ≤ 2400) { s with powerLimit := watts } s
  | .bar2 bytes => when_ (bytes ≤ 2 ^ 38) { s with bar2 := bytes } s

end Sys2Proof.Machine
end

