-- ==== Sys2Proof/Machine/Dispatch.lean ====
section
/-! DEFINITION. The meaning of every instruction and event: one arm for each constructor of `Instr`. -/
namespace Sys2Proof.Machine

def exec (i : Instr) (s : State) : Host.Outcome State Fault Refusal :=
  match i with
  | .iadd h ty sat d a b => Sys2Proof.Machine.execIadd h ty sat d a b s
  | .iaddImm h ty sat d a imm => Sys2Proof.Machine.execIaddImm h ty sat d a imm s
  | .isub h ty sat d a b => Sys2Proof.Machine.execIsub h ty sat d a b s
  | .isubImm h ty sat d a imm => Sys2Proof.Machine.execIsubImm h ty sat d a imm s
  | .imul h ty d a b => Sys2Proof.Machine.execImul h ty d a b s
  | .imulImm h ty d a imm => Sys2Proof.Machine.execImulImm h ty d a imm s
  | .imulhi h ty d a b => Sys2Proof.Machine.execImulhi h ty d a b s
  | .imad h ty d a b c => Sys2Proof.Machine.execImad h ty d a b c s
  | .imadw h ty d a b c => Sys2Proof.Machine.execImadw h ty d a b c s
  | .imin h ty d a b => Sys2Proof.Machine.execImin h ty d a b s
  | .imax h ty d a b => Sys2Proof.Machine.execImax h ty d a b s
  | .iabs h ty sat d a => Sys2Proof.Machine.execIabs h ty sat d a s
  | .ineg h ty sat d a => Sys2Proof.Machine.execIneg h ty sat d a s
  | .iclamp h ty d a b c => Sys2Proof.Machine.execIclamp h ty d a b c s
  | .lea h ty sh d a b => Sys2Proof.Machine.execLea h ty sh d a b s
  | .and h ty d a b => Sys2Proof.Machine.execAnd h ty d a b s
  | .andImm h ty d a imm => Sys2Proof.Machine.execAndImm h ty d a imm s
  | .or h ty d a b => Sys2Proof.Machine.execOr h ty d a b s
  | .orImm h ty d a imm => Sys2Proof.Machine.execOrImm h ty d a imm s
  | .xor h ty d a b => Sys2Proof.Machine.execXor h ty d a b s
  | .xorImm h ty d a imm => Sys2Proof.Machine.execXorImm h ty d a imm s
  | .andn h ty d a b => Sys2Proof.Machine.execAndn h ty d a b s
  | .andnImm h ty d a imm => Sys2Proof.Machine.execAndnImm h ty d a imm s
  | .not h ty d a => Sys2Proof.Machine.execNot h ty d a s
  | .shl h ty d a b => Sys2Proof.Machine.execShl h ty d a b s
  | .shlImm h ty d a imm => Sys2Proof.Machine.execShlImm h ty d a imm s
  | .shr h ty d a b => Sys2Proof.Machine.execShr h ty d a b s
  | .shrImm h ty d a imm => Sys2Proof.Machine.execShrImm h ty d a imm s
  | .sar h ty d a b => Sys2Proof.Machine.execSar h ty d a b s
  | .sarImm h ty d a imm => Sys2Proof.Machine.execSarImm h ty d a imm s
  | .rotl h ty d a b => Sys2Proof.Machine.execRotl h ty d a b s
  | .rotlImm h ty d a imm => Sys2Proof.Machine.execRotlImm h ty d a imm s
  | .bfx h ty d a b => Sys2Proof.Machine.execBfx h ty d a b s
  | .bfxImm h ty d a imm => Sys2Proof.Machine.execBfxImm h ty d a imm s
  | .bfi h ty d a b c => Sys2Proof.Machine.execBfi h ty d a b c s
  | .bfiImm h ty d a imm => Sys2Proof.Machine.execBfiImm h ty d a imm s
  | .clz h ty d a => Sys2Proof.Machine.execClz h ty d a s
  | .popc h ty d a => Sys2Proof.Machine.execPopc h ty d a s
  | .brev h ty d a => Sys2Proof.Machine.execBrev h ty d a s
  | .icmp h ty cond pd a b => Sys2Proof.Machine.execIcmp h ty cond pd a b s
  | .icmpImm h ty cond pd a imm => Sys2Proof.Machine.execIcmpImm h ty cond pd a imm s
  | .sel h ty d a b ps => Sys2Proof.Machine.execSel h ty d a b ps s
  | .mov h ty d a => Sys2Proof.Machine.execMov h ty d a s
  | .movi h ty d imm => Sys2Proof.Machine.execMovi h ty d imm s
  | .movh h d imm => Sys2Proof.Machine.execMovh h d imm s
  | .i2i h dty sty sat d a => Sys2Proof.Machine.execI2i h dty sty sat d a s
  | .fadd h ty rm d a b => Sys2Proof.Machine.execFadd h ty rm d a b s
  | .faddImm h ty rm d a imm => Sys2Proof.Machine.execFaddImm h ty rm d a imm s
  | .fsub h ty rm d a b => Sys2Proof.Machine.execFsub h ty rm d a b s
  | .fmul h ty rm d a b => Sys2Proof.Machine.execFmul h ty rm d a b s
  | .fmulImm h ty rm d a imm => Sys2Proof.Machine.execFmulImm h ty rm d a imm s
  | .ffma h ty rm d a b c => Sys2Proof.Machine.execFfma h ty rm d a b c s
  | .fmin h ty d a b => Sys2Proof.Machine.execFmin h ty d a b s
  | .fminImm h ty d a imm => Sys2Proof.Machine.execFminImm h ty d a imm s
  | .fmax h ty d a b => Sys2Proof.Machine.execFmax h ty d a b s
  | .fmaxImm h ty d a imm => Sys2Proof.Machine.execFmaxImm h ty d a imm s
  | .fcmp h ty cond pd a b => Sys2Proof.Machine.execFcmp h ty cond pd a b s
  | .fcmpImm h ty cond pd a imm => Sys2Proof.Machine.execFcmpImm h ty cond pd a imm s
  | .fclass h ty d a => Sys2Proof.Machine.execFclass h ty d a s
  | .frcp h ty d a => Sys2Proof.Machine.execFrcp h ty d a s
  | .frsq h ty d a => Sys2Proof.Machine.execFrsq h ty d a s
  | .fsqrt h ty d a => Sys2Proof.Machine.execFsqrt h ty d a s
  | .fexp2 h ty d a => Sys2Proof.Machine.execFexp2 h ty d a s
  | .flog2 h ty d a => Sys2Proof.Machine.execFlog2 h ty d a s
  | .fsin h ty d a => Sys2Proof.Machine.execFsin h ty d a s
  | .fcos h ty d a => Sys2Proof.Machine.execFcos h ty d a s
  | .fdiv h ty rm d a b => Sys2Proof.Machine.execFdiv h ty rm d a b s
  | .frnd h ty rm d a => Sys2Proof.Machine.execFrnd h ty rm d a s
  | .f2f h dty sty sat rm d a => Sys2Proof.Machine.execF2f h dty sty sat rm d a s
  | .f2i h dty sty sat rm d a => Sys2Proof.Machine.execF2i h dty sty sat rm d a s
  | .i2f h dty sty rm d a => Sys2Proof.Machine.execI2f h dty sty rm d a s
  | .fdot2 h ty rm d a b c => Sys2Proof.Machine.execFdot2 h ty rm d a b c s
  | .bcvt h fmt rm d a => Sys2Proof.Machine.execBcvt h fmt rm d a s
  | .bdot h fmt d a b c => Sys2Proof.Machine.execBdot h fmt d a b c s
  | .bunp h fmt d a => Sys2Proof.Machine.execBunp h fmt d a s
  | .rand h ty d => Sys2Proof.Machine.execRand h ty d s
  | .vxor h d a k => Sys2Proof.Machine.execVxor h d a k s
  | .vrot h g d a k => Sys2Proof.Machine.execVrot h g d a k s
  | .vrev h g d a k => Sys2Proof.Machine.execVrev h g d a k s
  | .vbcast h g d a k => Sys2Proof.Machine.execVbcast h g d a k s
  | .vshuf h d a b => Sys2Proof.Machine.execVshuf h d a b s
  | .vtrn h g d a => Sys2Proof.Machine.execVtrn h g d a s
  | .vcompact h d a ps sc => Sys2Proof.Machine.execVcompact h d a ps sc s
  | .vexpand h d a ps => Sys2Proof.Machine.execVexpand h d a ps s
  | .vfire h d a => Sys2Proof.Machine.execVfire h d a s
  | .vmaprd h form d a => Sys2Proof.Machine.execVmaprd h form d a s
  | .vfirst h ty d a => Sys2Proof.Machine.execVfirst h ty d a s
  | .vballot h d ps => Sys2Proof.Machine.execVballot h d ps s
  | .vany h pd ps => Sys2Proof.Machine.execVany h pd ps s
  | .vall h pd ps => Sys2Proof.Machine.execVall h pd ps s
  | .vmatch h ty d a => Sys2Proof.Machine.execVmatch h ty d a s
  | .vactive h d => Sys2Proof.Machine.execVactive h d s
  | .vred h ty op d a => Sys2Proof.Machine.execVred h ty op d a s
  | .vscan h ty op excl d a => Sys2Proof.Machine.execVscan h ty op excl d a s
  | .vsegred h ty op d a ps => Sys2Proof.Machine.execVsegred h ty op d a ps s
  | .vsort h ty asc move d a ci => Sys2Proof.Machine.execVsort h ty asc move d a ci s
  | .vtopk h ty asc d a k ci => Sys2Proof.Machine.execVtopk h ty asc d a k ci s
  | .vtopkMulti h ty asc m d a k ci => Sys2Proof.Machine.execVtopkMulti h ty asc m d a k ci s
  | .vbin h sn d a ps nb => Sys2Proof.Machine.execVbin h sn d a ps nb s
  | .ld h ty sc hint d base off => Sys2Proof.Machine.execLd h ty sc hint d base off s
  | .ldIdx h ty sc hint d base idx sh disp => Sys2Proof.Machine.execLdIdx h ty sc hint d base idx sh disp s
  | .st h ty sc hint data base off => Sys2Proof.Machine.execSt h ty sc hint data base off s
  | .stIdx h ty sc hint data base idx sh disp => Sys2Proof.Machine.execStIdx h ty sc hint data base idx sh disp s
  | .ldx h ty nreg sc hint d base off => Sys2Proof.Machine.execLdx h ty nreg sc hint d base off s
  | .stx h ty nreg sc hint data base off => Sys2Proof.Machine.execStx h ty nreg sc hint data base off s
  | .ldrec h fmt sc hint d base off => Sys2Proof.Machine.execLdrec h fmt sc hint d base off s
  | .ststash h ty sc hint data base off => Sys2Proof.Machine.execStstash h ty sc hint data base off s
  | .prefetch h sc hint base off => Sys2Proof.Machine.execPrefetch h sc hint base off s
  | .prefetchIdx h sc hint base idx sh disp => Sys2Proof.Machine.execPrefetchIdx h sc hint base idx sh disp s
  | .cflush h sc hint base off => Sys2Proof.Machine.execCflush h sc hint base off s
  | .cinv h sc hint base off => Sys2Proof.Machine.execCinv h sc hint base off s
  | .cdemote h sc base off => Sys2Proof.Machine.execCdemote h sc base off s
  | .atomAdd h ty sc hint d a b cb => Sys2Proof.Machine.execAtomAdd h ty sc hint d a b cb s
  | .atomMin h ty sc hint d a b cb => Sys2Proof.Machine.execAtomMin h ty sc hint d a b cb s
  | .atomMax h ty sc hint d a b cb => Sys2Proof.Machine.execAtomMax h ty sc hint d a b cb s
  | .atomAnd h ty sc hint d a b cb => Sys2Proof.Machine.execAtomAnd h ty sc hint d a b cb s
  | .atomOr h ty sc hint d a b cb => Sys2Proof.Machine.execAtomOr h ty sc hint d a b cb s
  | .atomXor h ty sc hint d a b cb => Sys2Proof.Machine.execAtomXor h ty sc hint d a b cb s
  | .atomExch h ty sc hint d a b cb => Sys2Proof.Machine.execAtomExch h ty sc hint d a b cb s
  | .atomcas h ty sc hint d a b c => Sys2Proof.Machine.execAtomcas h ty sc hint d a b c s
  | .redAdd h ty sc hint a b cb => Sys2Proof.Machine.execRedAdd h ty sc hint a b cb s
  | .redMin h ty sc hint a b cb => Sys2Proof.Machine.execRedMin h ty sc hint a b cb s
  | .redMax h ty sc hint a b cb => Sys2Proof.Machine.execRedMax h ty sc hint a b cb s
  | .redAnd h ty sc hint a b cb => Sys2Proof.Machine.execRedAnd h ty sc hint a b cb s
  | .redOr h ty sc hint a b cb => Sys2Proof.Machine.execRedOr h ty sc hint a b cb s
  | .redXor h ty sc hint a b cb => Sys2Proof.Machine.execRedXor h ty sc hint a b cb s
  | .scadd h ty sc a b cb => Sys2Proof.Machine.execScadd h ty sc a b cb s
  | .lcadd h sc a b cb => Sys2Proof.Machine.execLcadd h sc a b cb s
  | .lcrd h d base off => Sys2Proof.Machine.execLcrd h d base off s
  | .lcrdRaw h d base off => Sys2Proof.Machine.execLcrdRaw h d base off s
  | .lcmrg h sc a b cb => Sys2Proof.Machine.execLcmrg h sc a b cb s
  | .lcinit h data base off => Sys2Proof.Machine.execLcinit h data base off s
  | .fence h sc mode => Sys2Proof.Machine.execFence h sc mode s
  | .fenceop h => Sys2Proof.Machine.execFenceop h s
  | .drain h mem => Sys2Proof.Machine.execDrain h mem s
  | .leaseDecl h gran => Sys2Proof.Machine.execLeaseDecl h gran s
  | .leaseMeas h gran => Sys2Proof.Machine.execLeaseMeas h gran s
  | .ctrinit h sc sem ext a b cb => Sys2Proof.Machine.execCtrinit h sc sem ext a b cb s
  | .ctradd h sc sem d a b cb => Sys2Proof.Machine.execCtradd h sc sem d a b cb s
  | .ctraddImm h sc sem d a imm => Sys2Proof.Machine.execCtraddImm h sc sem d a imm s
  | .ctrwait h sc sem pd a b => Sys2Proof.Machine.execCtrwait h sc sem pd a b s
  | .ctrwaitImm h sc sem pd a imm => Sys2Proof.Machine.execCtrwaitImm h sc sem pd a imm s
  | .ctrarv h sc sem pd a b => Sys2Proof.Machine.execCtrarv h sc sem pd a b s
  | .ctrrd h sc sem d a cb => Sys2Proof.Machine.execCtrrd h sc sem d a cb s
  | .ctrkill h sc sem a cb => Sys2Proof.Machine.execCtrkill h sc sem a cb s
  | .ctrkillFree h sc sem a cb => Sys2Proof.Machine.execCtrkillFree h sc sem a cb s
  | .copy h sc ord bucket hint a => Sys2Proof.Machine.execCopy h sc ord bucket hint a s
  | .bcopy h sc ord bucket hint parts coll a => Sys2Proof.Machine.execBcopy h sc ord bucket hint parts coll a s
  | .gather h sc ord bucket hint idx a => Sys2Proof.Machine.execGather h sc ord bucket hint idx a s
  | .scatter h sc ord bucket hint idx a => Sys2Proof.Machine.execScatter h sc ord bucket hint idx a s
  | .unpack h sc ord bucket hint fmt a => Sys2Proof.Machine.execUnpack h sc ord bucket hint fmt a s
  | .mma h a => Sys2Proof.Machine.execMma h a s
  | .maccrd h ty d a => Sys2Proof.Machine.execMaccrd h ty d a s
  | .maccwr h ty a b => Sys2Proof.Machine.execMaccwr h ty a b s
  | .maccz h first count => Sys2Proof.Machine.execMaccz h first count s
  | .bra h u kind cond off => Sys2Proof.Machine.execBra h u kind cond off s
  | .call h u kind cond off => Sys2Proof.Machine.execCall h u kind cond off s
  | .brx h u a => Sys2Proof.Machine.execBrx h u a s
  | .ret h u a => Sys2Proof.Machine.execRet h u a s
  | .exit h => Sys2Proof.Machine.execExit h s
  | .join h => Sys2Proof.Machine.execJoin h s
  | .yield h n => Sys2Proof.Machine.execYield h n s
  | .nop h => Sys2Proof.Machine.execNop h s
  | .launch h d a q => Sys2Proof.Machine.execLaunch h d a q s
  | .trap h imm => Sys2Proof.Machine.execTrap h imm s
  | .brk h imm => Sys2Proof.Machine.execBrk h imm s
  | .rdsr h d num => Sys2Proof.Machine.execRdsr h d num s
  | .wrsr h num a => Sys2Proof.Machine.execWrsr h num a s
  | .rdtime h d => Sys2Proof.Machine.execRdtime h d s
  | .clauseStart w => Sys2Proof.Machine.execClauseStart w s
  | .clauseFetchResolved w => Sys2Proof.Machine.execClauseFetchResolved w s
  | .issueWaitEnd w => Sys2Proof.Machine.execIssueWaitEnd w s
  | .resultWriteback acc => Sys2Proof.Machine.execResultWriteback acc s
  | .ownershipGrant cluster core asid vline => Sys2Proof.Machine.execOwnershipGrant cluster core asid vline s
  | .lineFill lvl cluster core asid vline victim => Sys2Proof.Machine.execLineFill lvl cluster core asid vline victim s
  | .pageWalk asid va => Sys2Proof.Machine.execPageWalk asid va s
  | .runaheadStop w => Sys2Proof.Machine.execRunaheadStop w s
  | .pageBatchResolved w => Sys2Proof.Machine.execPageBatchResolved w s
  | .recall asid va level pte => Sys2Proof.Machine.execRecall asid va level pte s
  | .mapPage asid va level pte => Sys2Proof.Machine.execMapPage asid va level pte s
  | .migrationStart asid va frame => Sys2Proof.Machine.execMigrationStart asid va frame s
  | .migrationPull asid va => Sys2Proof.Machine.execMigrationPull asid va s
  | .packetSubmit ctx q pkt addr => Sys2Proof.Machine.execPacketSubmit ctx q pkt addr s
  | .packetAccept ctx q => Sys2Proof.Machine.execPacketAccept ctx q s
  | .launchStart ctx q => Sys2Proof.Machine.execLaunchStart ctx q s
  | .signal ctx q => Sys2Proof.Machine.execSignal ctx q s
  | .seed ctx q => Sys2Proof.Machine.execSeed ctx q s
  | .packetForward ctx q => Sys2Proof.Machine.execPacketForward ctx q s
  | .forwardReceive node asid q pkt => Sys2Proof.Machine.execForwardReceive node asid q pkt s
  | .forwardAnswer ctx q held reason => Sys2Proof.Machine.execForwardAnswer ctx q held reason s
  | .gangPlace launch cluster seats => Sys2Proof.Machine.execGangPlace launch cluster seats s
  | .placementStarve launch => Sys2Proof.Machine.execPlacementStarve launch s
  | .recordRead launch => Sys2Proof.Machine.execRecordRead launch s
  | .blockFinish block => Sys2Proof.Machine.execBlockFinish block s
  | .sliceBoundary cluster core => Sys2Proof.Machine.execSliceBoundary cluster core s
  | .leaseWindowEnd cluster core => Sys2Proof.Machine.execLeaseWindowEnd cluster core s
  | .yieldExpire w => Sys2Proof.Machine.execYieldExpire w s
  | .counterWake w => Sys2Proof.Machine.execCounterWake w s
  | .counterPoll w => Sys2Proof.Machine.execCounterPoll w s
  | .requestPerform acc k => Sys2Proof.Machine.execRequestPerform acc k s
  | .fenceComplete w => Sys2Proof.Machine.execFenceComplete w s
  | .copyStart cluster core => Sys2Proof.Machine.execCopyStart cluster core s
  | .copySourceReadDone copy => Sys2Proof.Machine.execCopySourceReadDone copy s
  | .copyComplete copy => Sys2Proof.Machine.execCopyComplete copy s
  | .copyFail copy => Sys2Proof.Machine.execCopyFail copy s
  | .copyPageResolved copy => Sys2Proof.Machine.execCopyPageResolved copy s
  | .mmaStart cluster core => Sys2Proof.Machine.execMmaStart cluster core s
  | .mmaBandCommit cluster core => Sys2Proof.Machine.execMmaBandCommit cluster core s
  | .mmaRestart cluster core => Sys2Proof.Machine.execMmaRestart cluster core s
  | .mmaFail cluster core => Sys2Proof.Machine.execMmaFail cluster core s
  | .ticketRelease launch => Sys2Proof.Machine.execTicketRelease launch s
  | .cone ctx => Sys2Proof.Machine.execCone ctx s
  | .resumeRetry cmd => Sys2Proof.Machine.execResumeRetry cmd s
  | .resumeSkip cmd => Sys2Proof.Machine.execResumeSkip cmd s
  | .resumeDiverge cmd => Sys2Proof.Machine.execResumeDiverge cmd s
  | .resumeKill cmd => Sys2Proof.Machine.execResumeKill cmd s
  | .preempt gang => Sys2Proof.Machine.execPreempt gang s
  | .restore gang cluster seats => Sys2Proof.Machine.execRestore gang cluster seats s
  | .contextSwitch ctx => Sys2Proof.Machine.execContextSwitch ctx s
  | .eccError site => Sys2Proof.Machine.execEccError site s
  | .saggarReset saggar cause deadClusters deadSlices deadChannels => Sys2Proof.Machine.execSaggarReset saggar cause deadClusters deadSlices deadChannels s
  | .shelfHeartbeatTimeout shelf => Sys2Proof.Machine.execShelfHeartbeatTimeout shelf s
  | .routeChange node entry => Sys2Proof.Machine.execRouteChange node entry s
  | .flitReplay port again => Sys2Proof.Machine.execFlitReplay port again s
  | .inboundRequest r => Sys2Proof.Machine.execInboundRequest r s
  | .remote acc reason => Sys2Proof.Machine.execRemote acc reason s
  | .peerAnswer acc vals => Sys2Proof.Machine.execPeerAnswer acc vals s
  | .rtimeout acc => Sys2Proof.Machine.execRtimeout acc s
  | .flowbroken flow => Sys2Proof.Machine.execFlowbroken flow s
  | .flowSkip flow => Sys2Proof.Machine.execFlowSkip flow s
  | .windowRecall k => Sys2Proof.Machine.execWindowRecall k s
  | .mailboxMessage m => Sys2Proof.Machine.execMailboxMessage m s
  | .flr func => Sys2Proof.Machine.execFlr func s
  | .ptpLock time => Sys2Proof.Machine.execPtpLock time s
  | .firmwareUpdate img => Sys2Proof.Machine.execFirmwareUpdate img s
  | .attestationReport nonce => Sys2Proof.Machine.execAttestationReport nonce s
  | .lcbaseWrite ctx k v => Sys2Proof.Machine.execLcbaseWrite ctx k v s
  | .boundsEntryWrite ctx table entry v => Sys2Proof.Machine.execBoundsEntryWrite ctx table entry v s
  | .boundsHitClear ctx table entry => Sys2Proof.Machine.execBoundsHitClear ctx table entry s
  | .partitionWrite mode => Sys2Proof.Machine.execPartitionWrite mode s
  | .controlWrite c => Sys2Proof.Machine.execControlWrite c s
  | .accessPerformed r => Sys2Proof.Machine.execAccessPerformed r s
  | .restack => Sys2Proof.Machine.execRestack s
  | .restackSwitch => Sys2Proof.Machine.execRestackSwitch s
  | .restackOverrun => Sys2Proof.Machine.execRestackOverrun s
  | .throttleStep => Sys2Proof.Machine.execThrottleStep s
  | .throttleRaise => Sys2Proof.Machine.execThrottleRaise s
  | .thermalThrottle => Sys2Proof.Machine.execThermalThrottle s
  | .thermalTrip => Sys2Proof.Machine.execThermalTrip s
  | .moduleReset => Sys2Proof.Machine.execModuleReset s
  | .fullService => Sys2Proof.Machine.execFullService s

end Sys2Proof.Machine
end

