-- ==== Sys2Proof/Machine/Fetch.lean ====
section
/-! DEFINITION. From the words of a clause to instructions: the word a warp stands at, the ILLEGAL of a word that is not an instruction
(R103), and the placing of a word where the next step fetches it. -/
namespace Sys2Proof.Machine

/-- The word that a warp's clause stands at (R61). -/
def Warp.word (x : Warp) : Option DWord := x.clause.bind (fun c => c.words[c.idx]?)

/-- What the word a warp stands at decodes to. -/
def State.nextInstr (s : State) (w : Nat) : Option Instr := ((s.warp? w).bind Warp.word).bind decodeWord

/-- The issue of a word that is not an instruction (R103): ILLEGAL for the issue set, whatever its predicate. -/
def illegalWord (s : State) : Host.Outcome State Fault Refusal :=
  match s.warp? s.cur with
  | none => .fault .noWarp
  | some x =>
    match x.clause with
    | none => .fault .noWarp
    | some c =>
      if !x.runs || c.words.length ≤ c.idx then .fault .noWarp
      else if x.hold != .none then .next s
      else .next (s.raiseHere s.cur { code := codeIllegal, mask := c.iset })

/-! ### Placing a word -/

/-- A word of the arithmetic group whose class is SCL (R91): its D names an S register, or it writes a predicate from broadcast
sources. -/
def sclWord (w : Nat) : Bool :=
  let op := w / 2 ^ 56
  let spec := fun (lo : Nat) => w / 2 ^ lo % 512
  let flat := fun (x : Nat) => (0x140 ≤ x && x < 0x1C0) || x == 0x1F0
  if op == 0x15 || op == 0x25 then flat (spec 27) && flat (spec 18)
  else if op == 0x16 || op == 0x31 then flat (spec 27)
  else 0x140 ≤ spec 36 && spec 36 < 0x180

/-- The clause class of a word (R91 to R99): VEC, SCL, MEM, CPY, MTX, SYN or CTL. -/
def wordClass (w : Nat) : Nat :=
  let op := w / 2 ^ 56 % 256
  if op < 0x50 then (if sclWord w then 1 else 0)
  else if op < 0x70 then 0
  else if op < 0xA0 then 2
  else if op < 0xB0 then 5
  else if op < 0xC0 then 3
  else if op < 0xD0 then 4
  else 6

/-- A clause of one word at an address for all the threads. -/
def Clause.single (addr : DWord) (w : DWord) : Clause :=
  { addr := addr, cls := wordClass w.toNat, yld := false, words := [w], iset := fullMask, idx := 0, start := 0, pend := [], lfile := [] }

/-- A warp of a block that stands at a clause of one word (log 1): the only warp of a role of 320 registers. -/
def Warp.placed (block : Nat) (w : DWord) : Warp :=
  { Warp.start (List.replicate 160 0) block 0 0 0 0 0 with
    regs := .start 320 0
    state := .active
    pipe := (pipesOf (wordClass w.toNat)).head?
    clause := some (.single 0 w) }

/-- The launch that a warp loaded for a placed word belongs to (log 1). -/
def Launch.placed (ctx clk : Nat) : Launch :=
  { Launch.fresh ctx 0 0 (List.replicate 160 0) 0 [] clk with started := true }

/-- The state with a word placed where the next step fetches it: at the instruction the current warp's clause stands at; where no
warp is in a clause, in a clause of a warp loaded for it, with the block, gang, launch and context it needs (log 1). -/
def State.place (s : State) (w : DWord) : State :=
  match (s.warp? s.cur).filter (fun x => x.state == .active && x.clause.isSome) with
  | some _ =>
    let s := s.modWarp s.cur (fun x => { x with
      hold := .none
      pipe := some (x.pipe.getD 0)
      clause := x.clause.map (fun c => { c with words := c.words.take c.idx ++ [w], cls := wordClass w.toNat }) })
    { s with agenda := .issue s.cur :: s.agenda }
  | none =>
    let n := s.launches.length
    let g : Gang := { launch := n, ix := 0, cluster := 0, placed := true, stopping := false, saved := false, damaged := false, killed := false
                      relaunches := 0 }
    let b : Block := { launch := n, gang := s.gangs.length, ix := 0, cores := [0], ragmask := fullMask, group := 0, rowbase := 0, rflags := 0
                       paramptr := 0, slices := [], finished := false, failed := false }
    { s with
      ctxs := s.ctxs ++ [Ctx.fresh 0]
      launches := s.launches ++ [Launch.placed s.ctxs.length s.clk]
      gangs := s.gangs ++ [g]
      blocks := s.blocks ++ [b]
      warps := s.warps ++ [Warp.placed s.blocks.length w]
      agenda := .issue s.warps.length :: s.agenda }

end Sys2Proof.Machine
end

