-- ==== Sys2Proof/Machine/Schedule.lean ====
section
/-! DEFINITION. What happens next where the agenda names nothing (log 1): one order of the events that the rules allow. The order is the
model's own; an agenda can name any other. -/
namespace Sys2Proof.Machine

/-- An event occurs in a state: it changes something. -/
def State.moves (s : State) (i : Instr) : Bool :=
  match exec i s with
  | .next t => { t with freeCtr := s.freeCtr } != s
  | .fault _ | .refused _ => false

/-- The least number that a list leaves out. -/
def firstMissing (l : List Nat) : Nat := ((List.range (l.length + 1)).find? (fun k => !l.contains k)).getD 0

/-- What caches, homes, copy ports and engines may do next. -/
def State.unitEvents (s : State) : List Instr :=
  s.accs.zipIdx.flatMap (fun (a, n) =>
    a.reqs.zipIdx.flatMap (fun (r, i) => if r.done then [] else [.accessPerformed (.req n i), .requestPerform n i]) ++
      (if a.wb then [] else [.resultWriteback n])) ++
  s.cores.flatMap (fun c => (c.l1.filter Line.pending).map (fun l => .ownershipGrant c.cluster c.core l.asid l.vline)) ++
  (s.copies.zipIdx.filter (fun (c, _) => c.state == .running)).flatMap (fun (c, i) =>
    [.copyPageResolved i] ++ (if s.copyPeer i c then [] else [.copyFail i]) ++
    [.accessPerformed (.copyRead i (s.copyCount i c + firstMissing (c.ixs.map Prod.fst))),
      .accessPerformed (.copyRead i (firstMissing (c.reads.map Prod.fst))),
      .accessPerformed (.copyWrite i (firstMissing c.done)), .copySourceReadDone i, .copyComplete i]) ++
  s.seats.map (fun (cl, core) => .copyStart cl core) ++
  (s.cores.filter (fun c => !c.mmaq.isEmpty)).flatMap (fun c =>
    [.mmaStart c.cluster c.core, .mmaRestart c.cluster c.core, .mmaFail c.cluster c.core, .mmaBandCommit c.cluster c.core]) ++
  s.migrations.map (fun m => .migrationPull m.asid m.va) ++
  s.accs.zipIdx.flatMap (fun (a, n) =>
    if a.asked.isEmpty then [] else (a.asked.filterMap (s.refusedHere a)).map (fun r => .remote n r) ++ [.rtimeout n]) ++
  (s.inWindows.zipIdx.filter (fun (w, _) => bitsOf w.1 54 2 == 2)).map (fun (_, i) => .windowRecall i) ++
  (if s.restackTo.isSome then [.restackSwitch, .restackOverrun] else [])

/-- A warp waits for a word of a peer, whose module says when the wait ends. -/
def State.waitsPeer (s : State) (w : Nat) (x : Warp) : Bool :=
  match x.hold with
  | .counter ws => ws.any (fun c => match s.resolve w c.1.addr with
      | .ok (_, l) => isPeer l.place
      | .error _ => false)
  | .none | .drain _ | .yield _ | .batch | .fetch _ | .fence _ _ | .issue _ | .accept _ | .arrive _ | .stop => false

/-- What may end the hold of a warp. -/
def State.wakeEvents (s : State) : List Instr :=
  (s.warps.zipIdx.filter (fun (x, _) => x.resident)).flatMap (fun (x, w) =>
    match x.hold with
    | .none => if x.state == .active || x.state == .waiting || x.state == .ready then [.fenceComplete w] else []
    | .counter _ => if s.waitsPeer w x then [.counterPoll w] else [.counterWake w]
    | .yield _ => [.yieldExpire w, .fenceComplete w]
    | .batch => [.pageBatchResolved w]
    | .fetch _ => [.clauseFetchResolved w]
    | .fence _ _ => [.fenceComplete w]
    | .issue _ => [.issueWaitEnd w, .fenceComplete w]
    | .stop => [.runaheadStop w]
    | .drain _ | .accept _ | .arrive _ => [.fenceComplete w])

/-- The dependence of a packet is a word of a peer. -/
def State.depPeer (s : State) (ctx : Nat) (p : QPkt) : Bool := ((s.ctxLoc ctx (pktDep p.bytes)).map (fun l => isPeer l.place)).getD false

/-- What the scheduler may do next. -/
def State.launchEvents (s : State) : List Instr :=
  s.launches.zipIdx.flatMap (fun (x, l) =>
    if x.finished then [] else
      [.ticketRelease l, .recordRead l] ++ (match s.roomFor l with | some (c, seats) => [.gangPlace l c seats] | none => [.placementStarve l])) ++
  (s.blocks.zipIdx.filter (fun (b, _) => !b.finished)).map (fun (_, b) => .blockFinish b) ++
  (s.gangs.zipIdx.filter (fun (g, _) => g.stopping && !g.killed)).map (fun (_, g) => .preempt g) ++
  s.ctxs.zipIdx.flatMap (fun (x, c) =>
    (x.queues.zipIdx.filter (fun (q, _) => !q.pkts.isEmpty)).flatMap (fun (q, k) =>
      .packetAccept c k :: (if q.pkts.head?.any (s.depPeer c) then [] else [.launchStart c k, .signal c k, .seed c k, .packetForward c k])) ++
      [.cone c])

/-- A warp stands at a word of a clause that holds a pipe (R80). -/
def State.canIssue (s : State) (w : Nat) : Bool :=
  (s.warp? w).any (fun x => x.runs && x.pipe.isSome && x.clause.any (fun c => c.idx < c.words.length))

/-- The warp that issues or starts a clause next, round robin after the last: the clauses of a core's pipes run side by side. -/
def State.nextWarp (s : State) : Option (Nat × Warp) :=
  let n := s.warps.length
  (((s.warps.zipIdx.map (fun (x, i) => (i, x))).rotateLeft ((s.cur + 1) % (n + 1)))).find? (fun (w, x) =>
    x.runs && x.hold == .none && (if x.clause.isSome then (s.takePipe w).canIssue w else s.moves (.clauseStart w)))

/-- The turns that come next where the agenda is empty: an event of a unit, a wake, an event of the scheduler; else a warp's next issue and the
clk it takes; else the clk to the next slice boundary. After a boundary of this clk nothing of it is left (R339): time passes, which takes the
boundaries that are still due. -/
def State.defaultTurns (s : State) : List Turn :=
  if s.boundaryTaken then [.tick 1 (s.nsOf 1)] else
  match (s.unitEvents ++ s.wakeEvents ++ s.launchEvents).find? s.moves with
  | some i => [.event i]
  | none =>
    match s.nextWarp with
    | some (w, x) => if x.clause.isSome then [.issue w, .tick 1 (s.nsOf 1)] else [.event (.clauseStart w)]
    | none => let n := 1024 - s.clk % 1024; [.tick n (s.nsOf n)]

/-- The issue of the word a warp stands at (R17, R103). -/
def State.issueWord (s : State) (w : Nat) : Host.Outcome State Fault Refusal :=
  let s' := { s.coneReset w with cur := w }
  match s'.nextInstr w with
  | some i => exec i s'
  | none => illegalWord s'

/-- One turn. An event names an event of the table; a warp that stands at no word, or whose clause holds no pipe and finds none free, does not
issue. -/
def State.turn (s : State) (t : Turn) : Host.Outcome State Fault Refusal :=
  match t with
  | .event i => if i.head?.isSome then .next s else exec i s
  | .issue w => let s' := s.takePipe w; if s'.canIssue w then s'.issueWord w else .next s
  | .tick n ns => .next (s.tick n ns)

/-- The agenda of a step: its own, or the default one. -/
def State.plan (s : State) : List Turn := if s.agenda.isEmpty then s.defaultTurns else s.agenda

end Sys2Proof.Machine
end

