-- ==== Sys2Proof/Machine/Step.lean ====
section
/-! DEFINITION. One step of the module: the first turn of its plan. -/
namespace Sys2Proof.Machine

/-- One step: the first turn of the agenda, or of the default plan where the agenda is empty (log 1). -/
def step (s : State) : Host.Outcome State Fault Refusal :=
  match s.plan with
  | [] => .next s
  | t :: r => { s with agenda := r }.turn t

/-- The state with a word stored where the next step fetches its instruction (log 1). -/
def State.withFetchWord (s : State) (nbits w : Nat) : State := s.place (BitVec.ofNat 64 (w % 2 ^ min nbits 64))

end Sys2Proof.Machine
end

