-- ==== Sys2Proof/Safety.lean ====
section
/-! DEFINITION. What claims about the module are stated in: when an instruction is ready to issue and what it sees, the elements that registers
hold, where a result goes, and the predicates that hold of every state a run reaches. -/
namespace Sys2Proof.Machine

/-! ### An instruction that is ready (R65 to R85) -/

/-- The L file as an instruction that reads readable entries alone sees it. -/
def Clause.seenL (c : Clause) (free : Nat) : List (Option LEntry) :=
  (c.lfile.map (fun (e : Option LEntry) => match e with
      | some v => if v.ready ≤ c.start then some v else some (freeL free)
      | none => some (freeL free)) ++ List.replicate 4 (some (freeL free))).take 4

/-- The threads an instruction acts on (R67): of the issue set, those whose predicate bit lets them; all where it acts in any case. -/
def Clause.acting (c : Clause) (d : Need) (r : Regs) : Mask :=
  if d.always then c.iset
  else c.iset &&& (predMask r d.head.pred.val ^^^ (if d.head.pneg then fullMask else 0))

/-- The word is an instruction where it stands (R65, R75, R39), every register and L entry it reads is timely and every register it writes
is free of outstanding results (R79 to R84), and its scoreboard has room (R80). -/
def State.timely (s : State) (d : Need) (x : Warp) (c : Clause) : Bool :=
  !illegalHere d x c && d.reads.all (fun g => !x.late c.start c.pend g) &&
  (d.head.pred.val == 7 || d.always || !x.late c.start c.pend (.p d.head.pred.val)) &&
  (d.writes ++ d.also.map Prod.fst).all (fun g => !s.unwritten s.cur g) &&
  d.ls.all (lReadable c.lfile c.start) && !((sbOf d.head).any (fun i => x.regs.sb.getD i.val 0 == 63))

/-- What the instruction that the current warp stands at sees, where it is ready: the warp is ACTIVE, held by nothing and not in run-ahead, the
word stands in its clause, it is timely, and some thread acts. -/
def State.ready? (s : State) (d : Need) : Option Env :=
  match s.warp? s.cur with
  | none => none
  | some x =>
    match x.clause with
    | none => none
    | some c =>
      if x.state == .active && x.hold == .none && !x.ahead && decide (c.idx < c.words.length) && s.timely d x c &&
          c.acting d x.regs != 0 then
        some { s := s, w := s.cur, x := x, c := c, act := c.acting d x.regs, regs := x.regs, l := c.seenL s.freeCtr }
      else none

/-! ### Elements of registers (R36, R55, R76) -/

/-- The registers of a warp. -/
def State.regs (s : State) (w : Nat) : Regs := ((s.warp? w).map Warp.regs).getD (.start 0 0)

/-- The element of thread t of a V or O register, or of the pair that it begins; none where it is VOID. -/
def Regs.element (r : Regs) (wide : Bool) (x : Reg) (t : Nat) : Option DWord :=
  if wide then
    match r.elem x t, r.elem x.succ t with
    | some a, some b => some (b ++ a)
    | _, _ => none
  else (r.elem x t).map (fun a => a.setWidth 64)

/-- A value as a register or a pair holds it. -/
def fitWidth (wide : Bool) (x : DWord) : DWord := if wide then x else (x.setWidth 32).setWidth 64

/-- The active thread whose result stands in thread t's slot: the highest of those that have a result and compute it there (R50). -/
def lastThere (act : Mask) (slots : LMap) (res : Nat → Option DWord) (t : Nat) : Nat :=
  (threads.reverse.find? (fun u => inMask act u && (res u).isSome && slots.at u == slots.at t)).getD t

/-- A destination holds results (R50, R51, R131): an S register that of the lowest active thread; a V or O register each active
thread's, VOID where it has none. -/
def Delivered (r : Regs) (wide : Bool) (d : Opnd) (act : Mask) (slots : LMap) (res : Nat → Option DWord) : Prop :=
  match d with
  | .s n => res (lowestOf act) = some (r.s.getD n.val 0)
  | .v _ | .o _ | .c _ | .l _ | .vz | .vtid | .vlane =>
    ∀ t < 32, inMask act t = true →
      r.element wide (regOf d) t = (res t).bind (fun _ => (res (lastThere act slots res t)).map (fitWidth wide))

/-- The map that a result receives (R51, R52): the slots it was computed in, VOID for an active thread with no result. -/
def resultMap (act : Mask) (an : Anchor) (res : Nat → Option DWord) : LMap :=
  .ofFn (fun t => if inMask act t then (if (res t).isSome then an.slots.at t else none) else an.keep.at t)

/-- A map can be written to registers (R41, R46, R47): it needs no table, or a table is free, or the fired map needs none. -/
def mapFits (r : Regs) (ds : List Reg) (m : LMap) : Bool :=
  (canonTag m).isSome || (freeTable (releaseTags r ds).mt).isSome || (canonTag (fireMap m)).isSome

/-- The result of a thread from its sources (R47): none where an element it needs is VOID. -/
def resultOf (srcs : List Src) (slots : LMap) (f : Nat → List DWord → DWord) (t : Nat) : Option DWord :=
  if srcVoid srcs t then none else some (f t (argsAt srcs slots t))

/-! ### The shape of a register file (R272) -/

/-- Every bank has the registers of R272: 32 slots in a V or O register, 8 O, 64 S and 7 P registers, 16 tables of 32 entries, 32 lane program
counters and draw counts, and 6 scoreboards. -/
def Regs.shaped (r : Regs) : Bool :=
  r.v.all (fun x => x.slots.length == 32) && r.o.length == 8 && r.o.all (fun x => x.slots.length == 32) && r.s.length == 64 &&
  r.p.length == 7 && r.mt.length == 16 && r.mt.all (fun m => m.ents.length == 32) && r.lpc.length == 32 && r.sb.length == 6 &&
  r.draws.length == 32

/-- An L entry that stands for a register (R40): its slots, its tag's map where the tag is not TABLE, its tag one of R38. -/
def LEntry.ok (e : LEntry) : Bool :=
  e.scalar || (e.slots.length == 32 && (tagClass e.tag == 5 || threads.all (fun t => (tagMap [] e.tag).at t == e.map.at t)))

/-- A warp's registers and L entries have their shape. -/
def Warp.shaped (x : Warp) : Bool := x.regs.shaped && x.clause.all (fun c => c.lfile.all (fun l => l.all LEntry.ok))

/-- Every warp, and every warp that run-ahead checkpointed, is shaped. -/
def State.shaped (s : State) : Bool :=
  s.warps.all Warp.shaped &&
  s.checkpoints.all (fun k => k.regs.shaped && k.clause.all (fun c => c.lfile.all (fun l => l.all LEntry.ok)))

/-! ### What an instruction leaves alone -/

/-- The module without its warps and its event counts. -/
def State.others (s : State) : State :=
  { s with warps := [], ctxs := s.ctxs.map (fun c => { c with events := [], recent := [] }) }

/-- The state, the registers by which it is controlled and the fault record of a warp, which no register instruction writes. -/
def Warp.control (x : Warp) : DWord × List DWord × Nat × Nat × Nat × Nat × Nat :=
  (x.wcr, x.fault, x.block, x.core, x.role, x.roleWarp, x.blockWarp)

/-- The frame of an instruction on registers of the current warp: nothing changes but the listed registers, lane program counters, draw
counts where it draws, the scoreboard that counts its result, event counts, and which warps are ready, loaded or held. A map table that registers
outside the list use keeps its entries. -/
structure Leaves (s t : State) (ds : List Reg) (draws : Bool) (counts : Option (Fin 6) := none) : Prop where
  others : t.others = s.others
  warps : ∀ v, v ≠ s.cur → t.regs v = s.regs v
  vregs : ∀ g, g ∉ ds → (t.regs s.cur).vreg g = (s.regs s.cur).vreg g
  sregs : ∀ n, .s n ∉ ds → (t.regs s.cur).s[n]? = (s.regs s.cur).s[n]?
  pregs : ∀ n, .p n ∉ ds → (t.regs s.cur).p[n]? = (s.regs s.cur).p[n]?
  tables : ∀ k, (ds.filter (fun g => tagClass ((s.regs s.cur).vreg g).tag == 5 && tagTix ((s.regs s.cur).vreg g).tag == k)).length <
    ((s.regs s.cur).mt.getD k .free).ref → ((t.regs s.cur).mt.getD k .free).ents = ((s.regs s.cur).mt.getD k .free).ents
  scoreboards : (t.regs s.cur).sb = (match counts with
    | some b => (s.regs s.cur).sb.modify b.val (· + 1)
    | none => (s.regs s.cur).sb)
  draws : draws = false → (t.regs s.cur).draws = (s.regs s.cur).draws
  control : (t.warp? s.cur).map Warp.control = (s.warp? s.cur).map Warp.control

/-- Threads that an instruction does not act on keep their elements of a destination of 32 bits (R52). -/
def KeepsInactive (r q : Regs) (act : Mask) (d : Reg) : Prop := ∀ t < 32, inMask act t = false → q.elem d t = r.elem d t

/-! ### Shapes of claims about instructions on registers -/

/-- The instruction yields a result (R50 to R53, R130, R131): where it is ready, and the map of its result can be written (R41, R46, R47),
it completes, its destination holds the result of each active thread, inactive threads keep their elements, and nothing else changes unless
the warp steps (R410). -/
def Yields (i : Instr) (n : Need) (d : Opnd) (wide : Bool) (srcs : Env → List Src) (res : Env → LMap → Nat → Option DWord) : Prop :=
  ∀ s e, i.wf = true → s.shaped = true → s.ready? n = some e →
    (d.isS = true ∨ mapFits e.regs (opndRegs wide d) (resultMap e.act (anchorOf e.regs (opndRegs wide d) e.act (srcs e))
      (res e (anchorOf e.regs (opndRegs wide d) e.act (srcs e)).slots)) = true) →
    ∃ t, exec i s = .next t ∧
      Delivered (t.regs s.cur) wide d e.act (anchorOf e.regs (opndRegs wide d) e.act (srcs e)).slots
        (res e (anchorOf e.regs (opndRegs wide d) e.act (srcs e)).slots) ∧
      (wide = false → d.isS = false → KeepsInactive e.regs (t.regs s.cur) e.act (regOf d)) ∧
      (wcrStep e.x.wcr = false → Leaves s t (opndRegs wide d) n.draws)

/-- The instruction computes f of the elements of each active thread (R130). -/
def Computes (i : Instr) (n : Need) (d : Opnd) (wide : Bool) (srcs : Env → List Src) (f : Env → Nat → List DWord → DWord) : Prop :=
  Yields i n d wide srcs (fun e slots => resultOf (srcs e) slots (f e))

/-- An instruction of the arithmetic groups that computes from operands of given types and an immediate (R130, R131, R133). -/
def ComputesOn (i : Instr) (h : Head) (lat : Nat) (wide : Bool) (d : Opnd) (xs : List (Ty × Opnd)) (imm : List Src)
    (f : Env → Nat → List DWord → DWord) (draws : Bool := false) : Prop :=
  Computes i (aluNeed h lat wide d xs draws) d wide (fun e => xs.map (fun x => e.src x.1 x.2) ++ imm) f

/-- An integer instruction on one, two or three operands of a type, or on one and an immediate (R72, R133). -/
def Int1 (i : Instr) (h : Head) (ty : Ty) (d a : Opnd) (f : DWord → DWord) : Prop :=
  ComputesOn i h 4 ty.wide d [(ty, a)] [] (fun _ _ l => f (arg l 0))

def Int2 (i : Instr) (h : Head) (ty : Ty) (d a b : Opnd) (f : DWord → DWord → DWord) : Prop :=
  ComputesOn i h 4 ty.wide d [(ty, a), (ty, b)] [] (fun _ _ l => f (arg l 0) (arg l 1))

def Int3 (i : Instr) (h : Head) (ty : Ty) (d a b c : Opnd) (f : DWord → DWord → DWord → DWord) : Prop :=
  ComputesOn i h 4 ty.wide d [(ty, a), (ty, b), (ty, c)] [] (fun _ _ l => f (arg l 0) (arg l 1) (arg l 2))

def IntImm (i : Instr) (h : Head) (ty : Ty) (d a : Opnd) (imm : BitVec 18) (f : DWord → DWord → DWord) : Prop :=
  ComputesOn i h 4 ty.wide d [(ty, a)] [immInt imm] (fun _ _ l => f (arg l 0) (arg l 1))

/-- A floating-point instruction: g on the encodings of each half of a paired type, under its rounding (R112, R115). -/
def FloatOn (i : Instr) (h : Head) (lat : Nat) (ty : Ty) (rm : Rm) (d : Opnd) (xs : List Opnd) (imm : List Src) (g : Rnd → List Nat → Nat) : Prop :=
  ComputesOn i h lat ty.wide d (xs.map (fun x => (ty, x))) imm (fun e t l => halves e ty rm t g l) (rm == .rs)

/-- The instruction decides (R132): with no VOID element among those it compares, it writes the outcome of each active thread to its bit of
the predicate, and no other bit. -/
def Decides (i : Instr) (n : Need) (pd : Fin 7) (srcs : Env → List Src) (f : Env → Nat → List DWord → Bool) : Prop :=
  ∀ s e, i.wf = true → s.shaped = true → s.ready? n = some e →
    (∀ t < 32, inMask e.act t = true → srcVoid (srcs e) t = false) →
    ∃ t, exec i s = .next t ∧
      (∀ u < 32, inMask ((t.regs s.cur).p.getD pd.val 0) u =
        if inMask e.act u then f e u (argsAt (srcs e) (predAnchor e.act (srcs e)) u) else inMask (e.regs.p.getD pd.val 0) u) ∧
      (wcrStep e.x.wcr = false → Leaves s t [.p pd.val] n.draws)

/-- A compare of operands of a type (R132, R133): of class SCL where every source is broadcast. -/
def Compares (i : Instr) (h : Head) (lat : Nat) (ty : Ty) (pd : Fin 7) (xs : List Opnd) (imm : List Src) (f : DWord → DWord → Bool) : Prop :=
  Decides i
    { head := h, cls := some (if allBroadcast xs then 1 else 0), reads := readRegs (xs.map (fun x => (ty, x)))
      ls := readLs (xs.map (fun x => (ty, x))), writes := [.p pd.val], lat := some lat }
    pd (fun e => xs.map (fun x => e.src ty x) ++ imm) (fun _ _ l => f (arg l 0) (arg l 1))

/-- The map tables that are free (R41). -/
def Regs.freeTables (r : Regs) : Nat := ((List.range 16).filter (fun k => (r.mt.getD k .free).ref == 0)).length

/-- Each table that tags of the listed registers name counts them among its references (R40). The tag writes of an instruction keep it so (R41);
a control write of a tag need not. -/
def Regs.counted (r : Regs) (ds : List Reg) : Bool :=
  (List.range 16).all (fun k =>
    decide ((ds.filter (fun g => tagClass (r.vreg g).tag == 5 && tagTix (r.vreg g).tag == k)).length ≤ (r.mt.getD k .free).ref))

/-- The instruction gives registers their elements, read before any is written (R42, R166): `outs` says what each thread of each register
holds after it, VOID where there is none, and `souts` what S registers hold. With a table free for each register, and the references of several
destinations counted, it completes; where `keeps`, only active threads receive elements, and the others keep theirs. -/
def Gives (i : Instr) (n : Need) (pre : Env → Prop) (outs : Env → List (Reg × (Nat → Option Word))) (souts : Env → List (Nat × DWord))
    (keeps : Bool) : Prop :=
  ∀ s e, i.wf = true → s.shaped = true → s.ready? n = some e → pre e → (outs e).length ≤ e.regs.freeTables →
    ((outs e).length ≤ 1 ∨ e.regs.counted ((outs e).map Prod.fst) = true) →
    ∃ t, exec i s = .next t ∧
      (∀ o ∈ outs e, ∀ u < 32, keeps = false ∨ inMask e.act u = true → (t.regs s.cur).elem o.1 u = o.2 u) ∧
      (keeps = true → ∀ o ∈ outs e, KeepsInactive e.regs (t.regs s.cur) e.act o.1) ∧
      (∀ o ∈ souts e, (t.regs s.cur).s[o.1]? = some o.2) ∧
      (wcrStep e.x.wcr = false → Leaves s t (n.writes ++ n.also.map Prod.fst) n.draws)

/-- The instruction writes an S register (R131). -/
def WritesS (i : Instr) (n : Need) (d : Opnd) (pre : Env → Prop) (v : Env → DWord) : Prop :=
  ∀ s e, i.wf = true → s.shaped = true → s.ready? n = some e → pre e →
    ∃ t, exec i s = .next t ∧ (t.regs s.cur).s.getD (sNumOf d) 0 = v e ∧ (wcrStep e.x.wcr = false → Leaves s t [regOf d] n.draws)

/-! ### Shapes of claims about memory instructions -/

/-- The requests of an instruction at the places that the checks of R184 found for them, none performed yet; the register that a datum is read
from (R84) is left out. -/
def requestsOf (asks : List Ask) (places : List (Perm × Loc)) : List Req :=
  (asks.zip places).map (fun (q, p) =>
    { thread := q.thread, va := q.va, loc := p.2, size := q.size, data := q.data, cmp := q.cmp, dst := q.dst, done := false, res := 0
      dropped := false })

/-- The instruction asks (R184 to R186, R376): where it is ready, no address or datum of an active thread is VOID (R57), every request passes
the checks of R184, its block has room to stage (R353), and a map table is free for each destination (R41), it completes: it leaves its
requests, unperformed, after all those issued before it, no memory changes, and unless the warp steps or the instruction waits to be
accepted (R185, R204, R210) nothing else changes but its destination registers, whose results come later. -/
def Asks (i : Instr) (n : Need) (pre : Env → Prop) (m : Env → MemOp) : Prop :=
  ∀ s e places, i.wf = true → s.shaped = true → s.ready? n = some e → pre e → (m e).voidA = 0 → (m e).voidD = 0 →
    s.accept s.cur e.act (m e).whole (m e).asks = .go places →
    (s.stagedLines e.x.block).length + (m e).asks.length ≤ 16384 → (m e).groups.length ≤ e.regs.freeTables →
    ∃ t a, exec i s = .next t ∧ t.accs = s.accs ++ [a] ∧ a.reqs.map (fun r => { r with src := none }) = requestsOf (m e).asks places ∧
      a.warp = s.cur ∧ a.op = (m e).op ∧ a.ty = (m e).ty ∧ a.scope = (m e).scope ∧ a.sem = (m e).sem ∧ a.mask = e.act ∧
      a.once = (m e).once ∧ a.dregs = (m e).groups.flatten ∧ a.wait = (m e).wait ∧ a.sb = sbOf n.head ∧ a.wb = false ∧
      (wcrStep e.x.wcr = false → s.awaits e (m e) places = false → (m e).hits = [] →
        Leaves s { t with accs := s.accs } (m e).groups.flatten n.draws (sbOf n.head))

/-! ### Shapes of claims about control and traps -/

/-- The LPC entry of a thread of the current warp. -/
def State.lane (s : State) (t : Nat) : Option Lpc := (s.regs s.cur).lpc[t]?

/-- The address of the word after the clause (R17), in words. -/
def Clause.next (c : Clause) : BitVec 54 := c.addr.extractLsb' 3 54 + BitVec.ofNat 54 (c.words.length + 1)

/-- The threads of the issue set hold the addresses they go to next, with STATE as given and AGE as it was; other entries of LPC do not change
(R17, R21). -/
def Moves (s t : State) (e : Env) (dest : Nat → BitVec 54) (st : Nat → LaneState → LaneState) : Prop :=
  ∀ u < 32, t.lane u = if inMask e.c.iset u then (s.lane u).map (fun l => { st := st u l.st, age := l.age, waddr := dest u }) else s.lane u

/-- The current warp has trapped (R85, R283, R395, R398): it is TRAPPED, its fault record and resume point say where and why, and no other
warp's registers change. An instruction that traps before it acts leaves its own warp's registers as they were. -/
structure Traps (s t : State) (e : Env) (i : TrapInfo) (done : Bool) : Prop where
  state : (t.warp? s.cur).map Warp.state = some .trapped
  fault : (t.warp? s.cur).map Warp.fault = some
    [ 0#6 ++ BitVec.ofNat 4 e.c.idx ++ e.c.addr.extractLsb' 3 54,
      0#8 ++ i.reason ++ 0#2 ++ BitVec.ofBool i.lowv ++ (if i.lowv then BitVec.ofNat 5 i.lowest else 0) ++ i.code ++ i.mask,
      i.addr,
      0#24 ++ e.x.wcr.extractLsb' 8 8 ++ i.imm ]
  resume : (t.warp? s.cur).map Warp.resume = some
    { iset := e.c.iset, done := done, head := false, index := e.c.idx, caddr := e.c.addr.extractLsb' 3 54 }
  before : done = false → t.regs s.cur = s.regs s.cur
  warps : ∀ v, v ≠ s.cur → t.regs v = s.regs v

/-! ### Shapes of claims about requests as they are performed -/

/-- Request i of access n is there, may be performed (R379, R380, R392), is not held by the ticket unit (R351, R393), and its bytes are not
poisoned (R430). -/
structure State.May (s : State) (n i : Nat) (a : Access) (r : Req) : Prop where
  acc : s.accs[n]? = some a
  req : a.reqs[i]? = some r
  may : s.mayPerform n i = true
  free : s.ticketHolds a r = false
  unstaged : s.stages a.block a.op r.loc r.va = false
  sound : ∀ near, ∀ j < r.size,
    s.poisoned (s.clusterOf a.warp) (((s.warp? a.warp).map Warp.core).getD 0) near { r.loc with addr := r.loc.addr + j } = false

/-- Request i of access n has been performed: it returned v, or was dropped. -/
def State.did (t : State) (n i : Nat) (v : DWord) (dropped : Bool := false) : Prop :=
  ∃ a r, t.accs[n]? = some a ∧ a.reqs[i]? = some r ∧ r.done = true ∧ r.res = v ∧ r.dropped = dropped

/-- The accesses with request i of access n performed. -/
def State.accsWith (s : State) (n i : Nat) (v : DWord) : List Access :=
  s.accs.modify n (fun a => { a with reqs := a.reqs.modify i (fun r => { r with done := true, res := v, dropped := false }) })

/-- The key of the first byte of a place in scratch or on a page that caches do not hold. -/
def placeKey (l : Loc) : Option Nat :=
  match l.place with
  | .scr b c => some (scrKey b c l.addr)
  | .nc => some l.addr
  | .glob _ | .lcm _ | .peer _ => none

/-- Memory has the low n bytes of a value from a key on, the lowest first, and is as it was elsewhere (R5). -/
def Memory.with (m q : Memory) (k n : Nat) (v : DWord) : Prop :=
  ∀ x, q.read x = if k ≤ x ∧ x < k + n then v.extractLsb' (8 * (x - k)) 8 else m.read x

/-! ### Engines -/

/-- A counter that a warp names stands in scratch, live. -/
def LiveCounter (s : State) (w : Nat) (ctr : DWord) (l : Loc) : Prop :=
  ctr ≠ 0 ∧ s.ctrFault w ctr = none ∧ (∃ p b k, s.resolve w ctr = .ok (p, l) ∧ l.place = .scr b k) ∧ (s.ctrTag l).isSome = true ∧
  ctrRetired (s.ctrWordAt l) = false

/-- The running MMA of an engine may go on: it waits for no page and no fence, and is not held (R212, R263, R352). -/
def MayRun (s : State) (cl core : Nat) (m : Mma) : Prop :=
  s.runningMma cl core = some m ∧ progWait (s.progOf cl core m) = false ∧ s.mmaFenced cl core m = true ∧ s.savedWarp m.warp = false ∧
  s.mmaHeld m = false ∧ (s.core cl core).prog.length = 16 ∧ (s.core cl core).acc.Pairwise (fun a b => a.1 < b.1)

/-! ### Arithmetic as the rules state it -/

/-- A bit pattern of a type's width in a register (R105, R131): extended to 32 bits by the type's signedness, 0 above. -/
def pattern (ty : Ty) (f : Nat → Bool) : DWord :=
  BitVec.ofFnLE (fun i : Fin 64 => if i.val < ty.width then f i.val else decide (i.val < 32) && ty.signed && f (ty.width - 1))

/-- The low bits of a value at a type's width. -/
def lowBits (ty : Ty) (x : DWord) : DWord := pattern ty x.getLsbD

/-- A number clamped to a range. -/
def clampTo (lo hi z : Int) : Int := max lo (min hi z)

/-- The range of a type (R105). -/
def rangeOf (ty : Ty) : Int × Int :=
  if ty.signed then (-(2 ^ (ty.width - 1)), 2 ^ (ty.width - 1) - 1) else (0, 2 ^ ty.width - 1)

/-- A result that wraps, or with SAT clamps to the range of its type (R134, R135). -/
def sumOf (ty : Ty) (sat : Bool) (wrapped : DWord) (exact : Int) : DWord :=
  if sat then lowBits ty (BitVec.ofInt 64 (clampTo (rangeOf ty).1 (rangeOf ty).2 exact)) else lowBits ty wrapped

/-- A 32-bit value widened to 64 bits by its type's signedness, a 64-bit one whole (R134, R137). -/
def widen (ty : Ty) (x : DWord) : DWord :=
  if ty.width == 64 then x else if ty.signed then (x.setWidth 32).signExtend 64 else (x.setWidth 32).setWidth 64

/-- The smaller or the larger of two elements in a type's order (R136). -/
def pick (ty : Ty) (less : Bool) (a b : DWord) : DWord :=
  if (decide (ival ty a ≤ ival ty b)) == less then lowBits ty a else lowBits ty b

/-- The shift amount (R139). -/
def shiftOf (ty : Ty) (b : DWord) : Nat := b.toNat % 2 ^ (min ty.width 32)

/-- The field of BFX (R140), bit i from bit pos + i of A, its length len cut at the width. -/
def fieldOf (ty : Ty) (a : DWord) (pos len : Nat) : DWord :=
  let bit := fun (i : Nat) => if pos + i < ty.width then a.getLsbD (pos + i) else ty.signed && a.getLsbD (ty.width - 1)
  let n := min len ty.width
  if n = 0 then 0 else pattern ty (fun i => if i < n then bit i else ty.signed && bit (n - 1))

/-- The insertion of BFI (R140). -/
def insertOf (ty : Ty) (a base : DWord) (pos len : Nat) : DWord :=
  pattern ty (fun i => if pos ≤ i ∧ i < pos + len then a.getLsbD (i - pos) else base.getLsbD i)

/-- The leading zero bits of a value at a type's width (R141). -/
def leadingZeros (ty : Ty) (a : DWord) : Nat :=
  ((List.range ty.width).filter (fun i => (List.range ty.width).all (fun j => decide (j < i) || !a.getLsbD j))).length

/-- The one bits of a value at a type's width (R141). -/
def oneBits (ty : Ty) (a : DWord) : Nat := ((List.range ty.width).filter a.getLsbD).length

end Sys2Proof.Machine
end

