-- ==== Sys2Proof/Certificates/Slice0/Obligations.lean ====
section
/-! DEFINITION. The statements of this model, for the provers. A statement made of several says so: its parts stand above it, under Claims. -/
open Sys2Proof Sys2Proof.Machine

/-! ### Integer, logic and move instructions -/

/-- R134, R135: IADD, ISUB, IMUL, IMULHI, IMAD and IMADW compute exactly and keep the low bits of the type, or with SAT clamp. -/
def Claims.IntegerArithmeticResults : Prop :=
  ∀ (h : Head) (ty : Ty) (sat : Bool) (d a b c : Opnd) (imm : BitVec 18),
    Int2 (.iadd h ty sat d a b) h ty d a b (fun x y => sumOf ty sat (x + y) (ival ty x + ival ty y)) ∧
    IntImm (.iaddImm h ty sat d a imm) h ty d a imm (fun x y => sumOf ty sat (x + y) (ival ty x + ival ty y)) ∧
    Int2 (.isub h ty sat d a b) h ty d a b (fun x y => sumOf ty sat (x - y) (ival ty x - ival ty y)) ∧
    IntImm (.isubImm h ty sat d a imm) h ty d a imm (fun x y => sumOf ty sat (x - y) (ival ty x - ival ty y)) ∧
    Int2 (.imul h ty d a b) h ty d a b (fun x y => lowBits ty (x * y)) ∧
    IntImm (.imulImm h ty d a imm) h ty d a imm (fun x y => lowBits ty (x * y)) ∧
    Int2 (.imulhi h ty d a b) h ty d a b (fun x y => pattern ty (fun i => (ival ty x * ival ty y).testBit (ty.width + i))) ∧
    Int3 (.imad h ty d a b c) h ty d a b c (fun x y z => lowBits ty (x * y + z)) ∧
    ComputesOn (.imadw h ty d a b c) h 4 true d [(ty, a), (ty, b), (.n64, c)] []
      (fun _ _ l => widen ty (arg l 0) * widen ty (arg l 1) + arg l 2)

/-- R136, R137: IMIN, IMAX, IABS, INEG, ICLAMP and LEA. -/
def Claims.MinMaxAndAddressResults : Prop :=
  ∀ (h : Head) (ty : Ty) (sat : Bool) (sh : Fin 8) (d a b c : Opnd),
    Int2 (.imin h ty d a b) h ty d a b (pick ty true) ∧
    Int2 (.imax h ty d a b) h ty d a b (pick ty false) ∧
    Int1 (.iabs h ty sat d a) h ty d a (fun x => if ival ty x < 0 then sumOf ty sat (-x) (-(ival ty x)) else lowBits ty x) ∧
    Int1 (.ineg h ty sat d a) h ty d a (fun x => sumOf ty sat (-x) (-(ival ty x))) ∧
    Int3 (.iclamp h ty d a b c) h ty d a b c (fun x y z => pick ty true (pick ty false x y) z) ∧
    ComputesOn (.lea h ty sh d a b) h 4 true d [(.n64, a), (ty, b)] [] (fun _ _ l => arg l 0 + widen ty (arg l 1) <<< sh.val)

/-- Integer arithmetic, minima, maxima and addresses: IntegerArithmeticResults and MinMaxAndAddressResults above. -/
def Obligations.IntegerResults : Prop :=
  Claims.IntegerArithmeticResults ∧ Claims.MinMaxAndAddressResults

/-- R138: AND, OR, XOR, ANDN and NOT act on each of the low bits of the type. -/
def Claims.LogicResults : Prop :=
  ∀ (h : Head) (ty : Ty) (d a b : Opnd) (imm : BitVec 18),
    Int2 (.and h ty d a b) h ty d a b (fun x y => pattern ty (fun i => x.getLsbD i && y.getLsbD i)) ∧
    IntImm (.andImm h ty d a imm) h ty d a imm (fun x y => pattern ty (fun i => x.getLsbD i && y.getLsbD i)) ∧
    Int2 (.or h ty d a b) h ty d a b (fun x y => pattern ty (fun i => x.getLsbD i || y.getLsbD i)) ∧
    IntImm (.orImm h ty d a imm) h ty d a imm (fun x y => pattern ty (fun i => x.getLsbD i || y.getLsbD i)) ∧
    Int2 (.xor h ty d a b) h ty d a b (fun x y => pattern ty (fun i => x.getLsbD i ^^ y.getLsbD i)) ∧
    IntImm (.xorImm h ty d a imm) h ty d a imm (fun x y => pattern ty (fun i => x.getLsbD i ^^ y.getLsbD i)) ∧
    Int2 (.andn h ty d a b) h ty d a b (fun x y => pattern ty (fun i => x.getLsbD i && !y.getLsbD i)) ∧
    IntImm (.andnImm h ty d a imm) h ty d a imm (fun x y => pattern ty (fun i => x.getLsbD i && !y.getLsbD i)) ∧
    Int1 (.not h ty d a) h ty d a (fun x => pattern ty (fun i => !x.getLsbD i))

/-- R139: the shifts, at the width of the type, by an amount read at that width. -/
def Claims.ShiftResults : Prop :=
  ∀ (h : Head) (ty : Ty) (d a b : Opnd) (imm : BitVec 18),
    let left := fun (x y : DWord) => pattern ty (fun i => decide (shiftOf ty y ≤ i) && x.getLsbD (i - shiftOf ty y))
    let right := fun (x y : DWord) => pattern ty (fun i => decide (i + shiftOf ty y < ty.width) && x.getLsbD (i + shiftOf ty y))
    let arith := fun (x y : DWord) => pattern ty (fun i => x.getLsbD (min (i + shiftOf ty y) (ty.width - 1)))
    let rotate := fun (x y : DWord) => pattern ty (fun i => x.getLsbD ((i + (ty.width - shiftOf ty y % ty.width)) % ty.width))
    Int2 (.shl h ty d a b) h ty d a b left ∧ IntImm (.shlImm h ty d a imm) h ty d a imm left ∧
    Int2 (.shr h ty d a b) h ty d a b right ∧ IntImm (.shrImm h ty d a imm) h ty d a imm right ∧
    Int2 (.sar h ty d a b) h ty d a b arith ∧ IntImm (.sarImm h ty d a imm) h ty d a imm arith ∧
    Int2 (.rotl h ty d a b) h ty d a b rotate ∧ IntImm (.rotlImm h ty d a imm) h ty d a imm rotate

/-- R140, R141: bit fields and bit counts. -/
def Claims.BitFieldResults : Prop :=
  ∀ (h : Head) (ty : Ty) (d a b c : Opnd) (imm : BitVec 18),
    let pos := fun (y : DWord) => (y.extractLsb' 0 8).toNat
    let len := fun (y : DWord) => (y.extractLsb' 8 8).toNat
    Int2 (.bfx h ty d a b) h ty d a b (fun x y => fieldOf ty x (pos y) (len y)) ∧
    IntImm (.bfxImm h ty d a imm) h ty d a imm (fun x y => fieldOf ty x (pos y) (len y)) ∧
    Int3 (.bfi h ty d a b c) h ty d a b c (fun x y z => insertOf ty x z (pos y) (len y)) ∧
    ComputesOn (.bfiImm h ty d a imm) h 4 ty.wide d [(ty, a), (ty, d)] [immInt imm]
      (fun _ _ l => insertOf ty (arg l 0) (arg l 1) (pos (arg l 2)) (len (arg l 2))) ∧
    Int1 (.clz h ty d a) h ty d a (fun x => BitVec.ofNat 64 (leadingZeros ty x)) ∧
    Int1 (.popc h ty d a) h ty d a (fun x => BitVec.ofNat 64 (oneBits ty x)) ∧
    Int1 (.brev h ty d a) h ty d a (fun x => pattern ty (fun i => x.getLsbD (ty.width - 1 - i)))

/-- Logic, shifts and bit fields: LogicResults, ShiftResults and BitFieldResults above. -/
def Obligations.BitResults : Prop :=
  Claims.LogicResults ∧ Claims.ShiftResults ∧ Claims.BitFieldResults

/-- R143, R144, R145: SEL, the moves and I2I. That SEL gives VOID where either operand is VOID is the model's reading (log 85), and so is the value that
remains where threads share a slot, the highest thread's (log 36). -/
def Claims.SelectAndMoveResults : Prop :=
  ∀ (h : Head) (ty dty : Ty) (sat : Bool) (d a b : Opnd) (ps : PredSpec) (imm : BitVec 32),
    Computes (.sel h ty d a b ps)
      { aluNeed h 4 ty.wide d [(ty, a), (ty, b)] with reads := readRegs [(ty, a), (ty, b)] ++ predReads ps } d ty.wide
      (fun e => [e.src ty a, e.src ty b])
      (fun e t l => if (decide (ps.p.val = 7) || inMask (e.regs.p.getD ps.p.val 0) t) != ps.neg then arg l 0 else arg l 1) ∧
    Int1 (.mov h ty d a) h ty d a id ∧
    ComputesOn (.movi h ty d imm) h 4 ty.wide d [] []
      (fun _ _ _ => if ty = .i64 then imm.signExtend 64 else imm.setWidth 64) ∧
    ComputesOn (.movh h d imm) h 4 true d [(.n64, d)] [] (fun _ _ l => imm ++ (arg l 0).extractLsb' 0 32) ∧
    ComputesOn (.i2i h dty ty sat d a) h 4 dty.wide d [(ty, a)] []
      (fun _ _ l => sumOf dty sat (BitVec.ofInt 64 (ival ty (arg l 0))) (ival ty (arg l 0)))

/-- R132, R142, R148: the compares and the two votes that write predicates. -/
def Claims.PredicateResults : Prop :=
  ∀ (h : Head) (ty : Ty) (ic : ICond) (fcnd : FCond) (pd : Fin 7) (a b : Opnd) (imm : BitVec 18) (ps : PredSpec),
    Compares (.icmp h ty ic pd a b) h 4 ty pd [a, b] [] (fun x y => icond ic (ival ty x) (ival ty y)) ∧
    Compares (.icmpImm h ty ic pd a imm) h 4 ty pd [a] [immInt imm] (fun x y => icond ic (ival ty x) (ival ty y)) ∧
    Compares (.fcmp h ty fcnd pd a b) h (floatLat [ty]) ty pd [a, b] [] (fun x y => fcond fcnd ty x.toNat y.toNat) ∧
    Compares (.fcmpImm h ty fcnd pd a imm) h (floatLat [ty]) ty pd [a] [immFloat ty imm] (fun x y => fcond fcnd ty x.toNat y.toNat) ∧
    Decides (.vany h pd ps) (laneNeed h 2 [.p pd.val] [] (predReads ps)) pd (fun _ => [])
      (fun e _ _ => threads.any (fun t => inMask e.act t && inMask (predSpec e.regs ps) t)) ∧
    Decides (.vall h pd ps) (laneNeed h 2 [.p pd.val] [] (predReads ps)) pd (fun _ => [])
      (fun e _ _ => threads.all (fun t => !inMask e.act t || inMask (predSpec e.regs ps) t))

/-- Moves, selects and compares: SelectAndMoveResults and PredicateResults above. -/
def Obligations.ChoiceResults : Prop :=
  Claims.SelectAndMoveResults ∧ Claims.PredicateResults

/-! ### Floating point, block formats and random words -/

/-- R146, R147, R150, R151: the sums, products, quotients, extremes and roundings of each thread's encodings. -/
def Claims.FloatArithmeticResults : Prop :=
  ∀ (h : Head) (ty : Ty) (rm : Rm) (d a b c : Opnd) (imm : BitVec 18),
    let lat := if ty = .f64 then 8 else 5
    FloatOn (.fadd h ty rm d a b) h lat ty rm d [a, b] [] (fun r l => fadd ty r (enc l 0) (enc l 1)) ∧
    FloatOn (.faddImm h ty rm d a imm) h lat ty rm d [a] [immFloat ty imm] (fun r l => fadd ty r (enc l 0) (enc l 1)) ∧
    FloatOn (.fsub h ty rm d a b) h lat ty rm d [a, b] [] (fun r l => fsub ty r (enc l 0) (enc l 1)) ∧
    FloatOn (.fmul h ty rm d a b) h lat ty rm d [a, b] [] (fun r l => fmul ty r (enc l 0) (enc l 1)) ∧
    FloatOn (.fmulImm h ty rm d a imm) h lat ty rm d [a] [immFloat ty imm] (fun r l => fmul ty r (enc l 0) (enc l 1)) ∧
    FloatOn (.ffma h ty rm d a b c) h lat ty rm d [a, b, c] [] (fun r l => ffma ty r (enc l 0) (enc l 1) (enc l 2)) ∧
    FloatOn (.fdiv h ty rm d a b) h 12 ty rm d [a, b] [] (fun r l => fdiv ty r (enc l 0) (enc l 1)) ∧
    FloatOn (.fmin h ty d a b) h lat ty .rn d [a, b] [] (fun _ l => fmin ty (enc l 0) (enc l 1)) ∧
    FloatOn (.fminImm h ty d a imm) h lat ty .rn d [a] [immFloat ty imm] (fun _ l => fmin ty (enc l 0) (enc l 1)) ∧
    FloatOn (.fmax h ty d a b) h lat ty .rn d [a, b] [] (fun _ l => fmax ty (enc l 0) (enc l 1)) ∧
    FloatOn (.fmaxImm h ty d a imm) h lat ty .rn d [a] [immFloat ty imm] (fun _ l => fmax ty (enc l 0) (enc l 1)) ∧
    FloatOn (.frnd h ty rm d a) h lat ty rm d [a] [] (fun _ l => frnd ty rm (enc l 0))

/-- R120, R149, R150: the functions of one value, rounded to nearest, and FCLASS. FEXP2, FLOG2, FSIN and FCOS are given by the model's own series, taken to
decide every rounding (log 41); under RS the value that remains where threads share a slot is the highest thread's (log 36). -/
def Claims.FloatFunctionResults : Prop :=
  ∀ (h : Head) (ty : Ty) (d a : Opnd),
    let one := fun (g : FVal → FVal) (_ : Rnd) (l : List Nat) => fenc ty {} (g (fdec ty (enc l 0)))
    FloatOn (.frcp h ty d a) h 12 ty .rn d [a] [] (one frcpv) ∧
    FloatOn (.frsq h ty d a) h 12 ty .rn d [a] [] (one frsqv) ∧
    FloatOn (.fsqrt h ty d a) h 12 ty .rn d [a] [] (one fsqrtv) ∧
    FloatOn (.fexp2 h ty d a) h 12 ty .rn d [a] [] (one fexp2v) ∧
    FloatOn (.flog2 h ty d a) h 12 ty .rn d [a] [] (one flog2v) ∧
    FloatOn (.fsin h ty d a) h 12 ty .rn d [a] [] (one fsinv) ∧
    FloatOn (.fcos h ty d a) h 12 ty .rn d [a] [] (one fcosv) ∧
    ComputesOn (.fclass h ty d a) h (if ty = .f64 then 8 else 5) false d [(ty, a)] []
      (fun _ _ l => 1#64 <<< fclass ty (arg l 0).toNat)

/-- R117, R119, R152, R153: the other conversions, rounded once, and the dot product of two pairs. -/
def Claims.FloatConversionResults : Prop :=
  ∀ (h : Head) (dty sty : Ty) (sat : Bool) (rm : Rm) (d a b c : Opnd),
    ComputesOn (.f2f h dty sty sat rm d a) h (floatLat [dty, sty]) dty.wide d [(sty, a)] []
      (fun e t l => BitVec.ofNat 64 (fenc dty { e.rnd rm t 0 with sat := sat } (fdec sty (arg l 0).toNat))) (rm == .rs) ∧
    ComputesOn (.i2f h dty sty rm d a) h (floatLat [dty]) dty.wide d [(sty, a)] []
      (fun _ _ l => BitVec.ofNat 64 (fenc dty { rm := rm } (fofInt (ival sty (arg l 0))))) ∧
    ComputesOn (.fdot2 h sty rm d a b c) h 5 false d [(sty, a), (sty, b), (.f32, c)] []
      (fun e t l => BitVec.ofNat 64 (fdot2 sty (e.rnd rm t 0) (arg l 0).toNat (arg l 1).toNat (arg l 2).toNat)) (rm == .rs)

/-- Floating-point instructions: FloatArithmeticResults, FloatFunctionResults and FloatConversionResults above. -/
def Obligations.FloatResults : Prop :=
  Claims.FloatArithmeticResults ∧ Claims.FloatFunctionResults ∧ Claims.FloatConversionResults

/-- R154 to R157, R160, R161: BCVT, BUNP and BDOT on records, and RAND. What VLANE and a short constant give as a record image is the model's choice (log
112). -/
def Obligations.BlockAndRandomResults : Prop :=
  ∀ (h : Head) (fmt : Bfmt) (rm : Rm) (ty : Ty) (d a b c : Opnd),
    Computes (.bcvt h fmt rm d a) (blockNeed h d [a] (rm == .rs)) d false (fun _ => [])
      (fun e t _ => imageWord (bfpEncode fmt (fun i => e.rnd rm i 0) (threads.map (fun u =>
        if inMask e.act u then fdec .f32 ((((e.src .f32 a).at u).getD 0).toNat) else .fin false 0 0 false))) t) ∧
    Computes (.bunp h fmt d a) (blockNeed h d [a] false) d false (fun _ => [])
      (fun e t _ => BitVec.ofNat 64 (fenc .f32 {} (bfpElem fmt (bfpBits fmt) (recordOf fmt (e.src .f32 a)) t))) ∧
    Computes (.bdot h fmt d a b c) (blockNeed h d [a, b, c] false) d false (fun e => [e.src .f32 c])
      (fun e _ l =>
        let elem := fun (x : Opnd) (i : Nat) => bfpElem fmt (bfpBits fmt) (recordOf fmt (e.src .f32 x)) i
        let sum := faddv .rn ((List.range 32).map (fun i => fmulv (elem a i) (elem b i)))
        let zeroed := match sum with
          | .fin neg m x st => .fin (neg && m != 0) m x st
          | .nan | .inf _ => sum
        BitVec.ofNat 64 (fenc .f32 {} (faddv .rn [zeroed, fdec .f32 (arg l 0).toNat]))) ∧
    ComputesOn (.rand h ty d) h 4 ty.wide d [] []
      (fun e t _ =>
        if ty = .n64 then e.draw t
        else if ty = .f32 then BitVec.ofNat 64 (fenc .f32 {} (.fin false ((e.draw t).extractLsb' 40 24).toNat (-24) false))
        else ((e.draw t).extractLsb' 0 32).setWidth 64) true

/-- R135: with SAT = 1, IADD, ISUB, IABS and INEG clamp the exact result to the range of the type: -2^(w-1) to 2^(w-1) - 1 for an .I type, 0 to 2^w - 1
for an .N type. -/
def Obligations.SaturationClamps : Prop :=
  ∀ (h : Head) (ty : Ty) (d a b : Opnd) (imm : BitVec 18),
    let clamp := fun (z : Int) =>
      let lo : Int := if ty.signed then -(2 ^ (ty.width - 1)) else 0
      let hi : Int := if ty.signed then 2 ^ (ty.width - 1) - 1 else 2 ^ ty.width - 1
      lowBits ty (BitVec.ofInt 64 (if z < lo then lo else if hi < z then hi else z))
    Int2 (.iadd h ty true d a b) h ty d a b (fun x y => clamp (ival ty x + ival ty y)) ∧
    IntImm (.iaddImm h ty true d a imm) h ty d a imm (fun x y => clamp (ival ty x + ival ty y)) ∧
    Int2 (.isub h ty true d a b) h ty d a b (fun x y => clamp (ival ty x - ival ty y)) ∧
    IntImm (.isubImm h ty true d a imm) h ty d a imm (fun x y => clamp (ival ty x - ival ty y)) ∧
    Int1 (.iabs h ty true d a) h ty d a (fun x => clamp (if ival ty x < 0 then -(ival ty x) else ival ty x)) ∧
    Int1 (.ineg h ty true d a) h ty d a (fun x => clamp (-(ival ty x)))

/-- R118: F2I rounds its source to an integer under RMODE, and gives that integer where it is in the range of the type; with SAT the nearer end of the
range, and without SAT the integer modulo 2^width; 0 for NaN; and for an infinity the end of the range with SAT, else 0. -/
def Obligations.FloatToInteger : Prop :=
  ∀ (h : Head) (dty sty : Ty) (sat : Bool) (rm : Rm) (d a : Opnd),
    let out := fun (z : Int) => lowBits dty (BitVec.ofInt 64 z)
    let lo := (rangeOf dty).1
    let hi := (rangeOf dty).2
    let rounds := fun (q : ℚ) (z : Int) => match rm with
      | .rn => |q - z| ≤ 1 / 2 ∧ (|q - z| = 1 / 2 → z % 2 = 0)
      | .rz => z = (if q < 0 then ⌈q⌉ else ⌊q⌋)
      | .rd => z = ⌊q⌋
      | .ru => z = ⌈q⌉
      | .rs => False
    ∃ f : DWord → DWord, ComputesOn (.f2i h dty sty sat rm d a) h (floatLat [sty]) dty.wide d [(sty, a)] [] (fun _ _ l => f (arg l 0)) ∧
      (dty.isInt = true → ∀ x : DWord,
        (fdec sty x.toNat = .nan → f x = 0) ∧
        (∀ neg, fdec sty x.toNat = .inf neg → f x = if sat then out (if neg then lo else hi) else 0) ∧
        ∀ neg m e z, fdec sty x.toNat = .fin neg m e false → rounds ((if neg then -1 else 1) * m * (2 : ℚ) ^ e) z →
          f x = out (if sat then (if z < lo then lo else if hi < z then hi else z) else z))


/-! ### Lane maps and lane instructions -/

/-- R44: the tag of a composition describes the map of the pattern followed by the map of the source, for every pair of tags that R38 allows
with a pattern that R167 encodes. -/
def Claims.PatternTagsCompose : Prop :=
  ∀ (mt : List MapTable) (m : BitVec 16) (cls g k : Nat) (q : BitVec 16), tagOk m = true → 1 ≤ cls → cls ≤ 4 → g ≤ 5 → k < 2 ^ g →
    composeTag m (canonPat cls (if cls = 1 then 5 else g) k) = some q →
    ∀ t < 32, (tagMap mt q).at t = (tagMap mt m).at (patAt cls (if cls = 1 then 5 else g) k t)

/-- R39: a canonical tag describes the map it is given for, and only IDENT and VOID maps have one that is no table. -/
def Claims.CanonicalTagsDescribe : Prop :=
  ∀ (mt : List MapTable) (m : LMap), m.length = 32 →
    (∀ q, canonTag m = some q → ∀ t < 32, (tagMap mt q).at t = m.at t) ∧
    (canonTag m ≠ none ↔ ((∀ t < 32, m.at t = some (Fin.ofNat 32 t)) ∨ (∀ t < 32, m.at t = none)))

/-- Map tags compose and describe: PatternTagsCompose and CanonicalTagsDescribe above. -/
def Obligations.LaneMapTags : Prop :=
  Claims.PatternTagsCompose ∧ Claims.CanonicalTagsDescribe

/-- R42, R43, R166 to R168: each thread receives the element that the thread its pattern names held. -/
def Claims.LaneEditResults : Prop :=
  ∀ (h : Head) (d a b : Opnd) (g : Fin 8) (k : Fin 32),
    let edit := fun (i : Instr) (p : Nat → Nat) => Gives i (laneNeed h 2 [regOf d] [(.n32, a)])
      (fun e => ∀ q, (e.view a).tag = some q → tagOk q = true) (fun e => [(regOf d, fun t => (e.view a).elem (p t))]) (fun _ => []) true
    edit (.vxor h d a k) (fun t => t ^^^ k.val) ∧
    edit (.vrot h g d a k) (fun t => t - t % 2 ^ g.val + (t % 2 ^ g.val + k.val) % 2 ^ g.val) ∧
    edit (.vrev h g d a k) (fun t => t - t % 2 ^ g.val + (k.val + 2 ^ g.val - t % 2 ^ g.val) % 2 ^ g.val) ∧
    edit (.vbcast h g d a k) (fun t => t - t % 2 ^ g.val + k.val) ∧
    Gives (.vshuf h d a b) (laneNeed h 2 [regOf d] [(.n32, a), (.n32, b)]) (fun _ => True)
      (fun e => [(regOf d, fun t => ((e.src .n32 b).at t).bind (fun v => if v.toNat < 32 then (e.view a).elem v.toNat else none))])
      (fun _ => []) true

/-- R170, R172, R173, R174: transposition, compaction, expansion, firing and reads of maps; where several registers are written, for tables that
count the tags that name them (R40). -/
def Claims.LaneMoveResults : Prop :=
  ∀ (h : Head) (d a : Opnd) (g : Fin 8) (ps : PredSpec) (sc : Option (Fin 64)),
    Gives (.vtrn h g d a) { head := h, cls := some 0, reads := vRun a (2 ^ g.val), writes := vRun d (2 ^ g.val), lat := some 2 }
      (fun e => e.act ≠ fullMask ∨
        (∃ u < 32, ¬((List.range (2 ^ g.val)).filterMap (fun j => (e.regs.map (.v (a.vnum + j))).at u)).Nodup) ∨
        ∀ i < 2 ^ g.val, (threads.filterMap (fun t => (e.regs.map (.v (a.vnum + t % 2 ^ g.val))).at (t - t % 2 ^ g.val + i))).Nodup)
      (fun e => (List.range (2 ^ g.val)).map (fun i =>
        (Reg.v (d.vnum + i), fun t => e.regs.elem (.v (a.vnum + t % 2 ^ g.val)) (t - t % 2 ^ g.val + i))))
      (fun _ => []) true ∧
    Gives (.vcompact h d a ps sc)
      { laneNeed h 2 [regOf d] [(.n32, a)] (predReads ps) with also := match sc with | some n => [(Reg.s n.val, 3)] | none => [] } (fun _ => True)
      (fun e => [(regOf d, fun t => ((selThreads e.act (fun u => inMask (predSpec e.regs ps) u && ((e.view a).elem u).isSome))[t]?).bind (e.view a).elem)])
      (fun e => match sc with
        | some n => [(n.val, BitVec.ofNat 64 (selThreads e.act (fun u => inMask (predSpec e.regs ps) u && ((e.view a).elem u).isSome)).length)]
        | none => []) false ∧
    Gives (.vexpand h d a ps) (laneNeed h 2 [regOf d] [(.n32, a)] (predReads ps)) (fun _ => True)
      (fun e => [(regOf d, fun t =>
        if inMask e.act t && inMask (predSpec e.regs ps) t then
          (e.view a).elem ((selThreads e.act (inMask (predSpec e.regs ps))).filter (fun u => decide (u < t))).length
        else none)])
      (fun _ => []) false ∧
    Gives (.vfire h d a) (laneNeed h 6 [regOf d] [(.n32, a)]) (fun _ => True) (fun e => [(regOf d, (e.view a).elem)]) (fun _ => []) false ∧
    Gives (.vmaprd h false d a) (laneNeed h 2 [regOf d] [(.n32, a)]) (fun _ => True)
      (fun e => [(regOf d, fun t => some (match (e.view a).map.at t with | some p => BitVec.ofNat 32 p.val | none => 32))]) (fun _ => []) true ∧
    WritesS (.vmaprd h true d a) (laneNeed h 3 [regOf d] [(.n32, a)]) d (fun _ => True)
      (fun e => (e.regs.vreg (regOf a)).tag.setWidth 64)

/-- Lane edits and moves: LaneEditResults and LaneMoveResults above. -/
def Obligations.LaneResults : Prop :=
  Claims.LaneEditResults ∧ Claims.LaneMoveResults

/-- R175: the queries of a warp that write an S register or a mask of equals. -/
def Obligations.WarpQueryResults : Prop :=
  ∀ (h : Head) (ty : Ty) (d a : Opnd) (ps : PredSpec),
    WritesS (.vfirst h ty d a) (laneNeed h 3 [regOf d] [(ty, a)]) d (fun e => ((e.lsrc ty a).at (lowestOf e.act)).isSome = true)
      (fun e => ((e.lsrc ty a).at (lowestOf e.act)).getD 0) ∧
    WritesS (.vballot h d ps) (laneNeed h 3 [regOf d] [] (predReads ps)) d (fun _ => True)
      (fun e => (maskOf (fun t => inMask e.act t && inMask (predSpec e.regs ps) t)).setWidth 64) ∧
    WritesS (.vactive h d) (laneNeed h 3 [regOf d] []) d (fun _ => True) (fun e => (maskOf (inMask e.act)).setWidth 64) ∧
    Computes (.vmatch h ty d a) (laneNeed h 6 [regOf d] [(ty, a)]) d false (fun e => [e.lsrc ty a])
      (fun e t _ => (maskOf (fun u => inMask e.act u && ((e.lsrc ty a).at u).isSome && (e.lsrc ty a).at u == (e.lsrc ty a).at t)).setWidth 64)

/-- R126, R127, R128, R176: VRED, VSCAN and VSEGRED combine the contributing threads in their orders, a NaN as the canonical one and with the
bits above a floating-point type ignored (R106, R109). -/
def Claims.ReductionResults : Prop :=
  ∀ (h : Head) (ty : Ty) (op : RedOp) (excl : Bool) (d a : Opnd) (ps : PredSpec),
    let parts := fun (e : Env) (keep : Nat → Bool) =>
      threads.map (fun u => if inMask e.act u && keep u then ((e.lsrc ty a).at u).map (redElem ty) else none)
    Computes (.vred h ty op d a) (laneNeed h (if d.isS then 3 else 6) (opndRegs ty.wide d) [(ty, a)]) d ty.wide (fun _ => [])
      (fun e _ _ => (redTree ty op (parts e (fun _ => true))).getD (redIdent ty op)) ∧
    Yields (.vscan h ty op excl d a) (laneNeed h 6 (opndRegs ty.wide d) [(ty, a)]) d ty.wide (fun _ => [])
      (fun e _ t =>
        let w := scanTree ty op (parts e (fun _ => true))
        ((e.lsrc ty a).at t).bind (fun _ =>
          if excl then (if t = 0 then some (redIdent ty op) else some ((w.getD (t - 1) none).getD (redIdent ty op))) else w.getD t none)) ∧
    Yields (.vsegred h ty op d a ps) (laneNeed h 6 (opndRegs ty.wide d) [(ty, a)] (predReads ps)) d ty.wide (fun _ => [])
      (fun e _ t => ((e.lsrc ty a).at t).bind (fun _ =>
        redTree ty op (parts e (fun u => segStart (predSpec e.regs ps) u == segStart (predSpec e.regs ps) t))))

/-- R126, R127: for the sum of integers the tree gives the sum of the contributing elements, and the scan of thread t the sum up to t. -/
def Claims.IntegerReductionsAreSums : Prop :=
  ∀ (ty : Ty) (v : List (Option DWord)), ty.isInt = true → v.length = 32 →
    (∀ y, some y ∈ v → y = lowBits ty y) →
    (∀ x, redTree ty .add v = some x → x = lowBits ty (v.filterMap id).sum) ∧
    ∀ t < 32, ∀ x, (scanTree ty .add v).getD t none = some x → x = lowBits ty (((v.take (t + 1)).filterMap id).sum)

/-- Reductions and scans: ReductionResults and IntegerReductionsAreSums above. -/
def Obligations.ReductionResults : Prop :=
  Claims.ReductionResults ∧ Claims.IntegerReductionsAreSums

/-- R171: the order of a selection lists each candidate once, never a candidate before one that outranks it, and candidates of one rank in
ascending index. -/
def Claims.RankOrderIsStable : Prop :=
  ∀ (ty : Ty) (asc : Bool) (key : Nat → DWord) (cand : List Nat), cand.Pairwise (· < ·) →
    (rankOrder ty asc key cand).Perm cand ∧
    (rankOrder ty asc key cand).Pairwise (fun x y =>
      let out := if asc then rankLt ty (key x) (key y) else rankLt ty (key y) (key x)
      let back := if asc then rankLt ty (key y) (key x) else rankLt ty (key x) (key y)
      back = false ∧ (out = true ∨ x < y))

/-- R169, R177 to R180: VSORT, VTOPK and VBIN list the threads they select, in their orders, with the slots they had; a count of 0 leaves the
outputs of VTOPK on several registers VOID;
where several registers are written, for tables that count the tags that name them (R40). -/
def Claims.SelectionResults : Prop :=
  ∀ (h : Head) (ty : Ty) (asc move : Bool) (d a k : Opnd) (ci : Fin 320) (co : Option (Fin 320)) (m : Fin 8) (sn : Fin 64) (ps : PredSpec) (nb : Opnd),
    let key := fun (e : Env) (t : Nat) => (((e.view a).elem t).getD 0).setWidth 64
    let order := fun (e : Env) => rankOrder ty asc (key e) (selThreads e.act (fun t => ((e.view a).elem t).isSome))
    let place := fun (sel : List Nat) (i : Nat) => some (match sel[i]? with | some t => BitVec.ofNat 32 t | none => 0xFFFFFFFF#32)
    Gives (.vsort h ty asc move d a co)
      (laneNeed h (if move then 6 else 2) (match co with | some c => [regOf d, Reg.v c.val] | none => [regOf d]) [(.n32, a)]) (fun _ => True)
      (fun e => (regOf d, fun i => ((order e)[i]?).bind (e.view a).elem) :: (match co with
        | some c => [(Reg.v c.val, place (order e))]
        | none => [])) (fun _ => []) false ∧
    Gives (.vtopk h ty asc d a k ci) (laneNeed h 2 [regOf d, .v ci.val] [(.n32, a), (.n64, k)]) (fun _ => True)
      (fun e =>
        let sel := (order e).take (min 32 (e.scalar .n64 k).toNat)
        [(regOf d, fun i => (sel[i]?).bind (e.view a).elem), (.v ci.val, place sel)]) (fun _ => []) false ∧
    Gives (.vtopkMulti h ty asc m d a k ci)
      (laneNeed h 6 (vRun d 2 ++ [Reg.v ci.val, Reg.v (ci.val + 1)]) [(.n64, k)] (vRun a (m.val + 2))) (fun _ => True)
      (fun e =>
        let elem := fun (i : Nat) => e.regs.elem (.v (a.vnum + i / 32)) (i % 32)
        let cand := (List.range (32 * (m.val + 2))).filter (fun i => inMask e.act (i % 32) && (elem i).isSome)
        let sel := (rankOrder ty asc (fun i => ((elem i).getD 0).setWidth 64) cand).take (min 64 (e.scalar .n64 k).toNat)
        [(.v d.vnum, fun i => (sel[i]?).bind elem), (.v ci.val, fun i => if (e.scalar .n64 k).toNat = 0 then none else place (sel.take 32) i),
          (.v (d.vnum + 1), fun i => (sel[32 + i]?).bind elem), (.v (ci.val + 1), fun i => if (e.scalar .n64 k).toNat = 0 then none else place (sel.drop 32) i)]) (fun _ => []) false ∧
    Gives (.vbin h sn d a ps nb)
      { laneNeed h 2 (vRun d 3) [(.n32, a), (.n64, nb)] (predReads ps) with also := [(Reg.s sn.val, 3), (Reg.s (sn.val + 1), 3)] } (fun _ => True)
      (fun e =>
        let sel := selThreads e.act (fun t => inMask (predSpec e.regs ps) t && ((e.view a).elem t).isSome)
        let bin := rankOrder .n32 true (key e) (sel.filter (fun t => decide ((key e t).toNat < min 64 (e.scalar .n64 nb).toNat)))
        [(.v d.vnum, fun i => (bin[i]?).bind (e.view a).elem), (.v (d.vnum + 1), place bin),
          (.v (d.vnum + 2), fun i => some (match bin[i]? with
            | some t => BitVec.ofNat 32 ((bin.filter (fun u => decide ((key e u).toNat < (key e t).toNat))).length)
            | none => 0xFFFFFFFF#32))])
      (fun e =>
        let sel := selThreads e.act (fun t => inMask (predSpec e.regs ps) t && ((e.view a).elem t).isSome)
        let bin := sel.filter (fun t => decide ((key e t).toNat < min 64 (e.scalar .n64 nb).toNat))
        let used := (List.range 64).filter (fun b => bin.any (fun t => (key e t).toNat == b))
        [(sn.val, BitVec.ofNat 64 ((used.map (2 ^ ·)).sum)),
          (sn.val + 1, BitVec.ofNat 64 (used.length + 2 ^ 16 * bin.length + 2 ^ 32 * (sel.length - bin.length)))]) false


/-- Sorting, selection and binning: SelectionResults and RankOrderIsStable above. -/
def Obligations.SelectionResults : Prop :=
  Claims.SelectionResults ∧ Claims.RankOrderIsStable

/-! ### Memory instructions as they issue -/

/-- R183, R186, R189 to R191: the loads. Each active thread asks for its element at its address, LDX for each of its registers, and LDREC for
the bytes of one record; an S destination asks once. -/
def Obligations.LoadsAsk : Prop :=
  ∀ (h : Head) (ty : Ty) (sc : Scope) (hint : Hint) (d base idx : Opnd) (off : BitVec 18) (off15 : BitVec 15) (sh : Fin 4) (disp : BitVec 7)
    (nreg : Fin 8) (fmt : Bfmt),
    let plain := fun (f : AddrForm) (e : Env) => ({
      op := .load, ty := ty, scope := sc, hint := hint, groups := [opndRegs ty.wide d], once := d.isS, whole := d.isS
      voidA := maskOf (fun t => inMask e.act t && (e.addr f t).isNone), addrRegs := f.regs
      asks := (if d.isS then [lowestOf e.act] else threads.filter (inMask e.act)).map (fun t =>
        { thread := t, addr := (e.addr f t).getD 0, va := (e.addr f t).getD 0, size := ty.bytes, want := .read
          misaligned := ((e.addr f t).getD 0).toNat % ty.bytes != 0 }) } : MemOp)
    Asks (.ld h ty sc hint d base off) (memNeed h (.off base (off.signExtend 64)) [] [opndRegs ty.wide d]) (fun _ => True)
      (plain (.off base (off.signExtend 64))) ∧
    Asks (.ldIdx h ty sc hint d base idx sh disp) (memNeed h (.idx base idx sh.val (disp.signExtend 64)) [] [opndRegs ty.wide d])
      (fun _ => True) (plain (.idx base idx sh.val (disp.signExtend 64))) ∧
    Asks (.ldx h ty nreg sc hint d base off15) (memNeed h (.off base (off15.signExtend 64)) [] (spanGroups ty d (nreg.val + 2)))
      (fun _ => True)
      (fun e =>
        let at_ := fun (t : Nat) => (e.addr (.off base (off15.signExtend 64)) t).getD 0
        { op := .load, ty := ty, scope := sc, hint := hint, groups := spanGroups ty d (nreg.val + 2)
          voidA := maskOf (fun t => inMask e.act t && (e.addr (.off base (off15.signExtend 64)) t).isNone), addrRegs := opndRegs false base
          asks := (threads.filter (inMask e.act)).flatMap (fun t =>
            (List.range (spanGroups ty d (nreg.val + 2)).length).map (fun i =>
              { thread := t, addr := at_ t, va := at_ t + BitVec.ofNat 64 (i * ty.bytes), size := ty.bytes, want := .read
                misaligned := (at_ t).toNat % spanAlign ty (nreg.val + 2) != 0, dst := i * (ty.bytes / 4) })) }) ∧
    Asks (.ldrec h fmt sc hint d base off) (memNeed h (.off base (off.signExtend 64)) [] [opndRegs false d]) (fun _ => True)
      (fun e =>
        let a := (e.addr (.off base (off.signExtend 64)) (lowestOf e.act)).getD 0
        { op := .loadRec fmt, ty := .n32, scope := sc, hint := hint, groups := [opndRegs false d], once := true, whole := true
          voidA := maskOf (fun t => inMask e.act t && (e.addr (.off base (off.signExtend 64)) t).isNone), addrRegs := opndRegs false base
          asks := (List.range (bfpBytes fmt)).map (fun i =>
            { thread := lowestOf e.act, addr := a, va := a + BitVec.ofNat 64 i, size := 1, want := .read }) })

/-- R192, R195: the stores of a launch that checks no bounds. Each active thread asks to write its element, STX each of its registers, and
STSTASH each byte of a tile and of its transpose. -/
def Obligations.StoresAsk : Prop :=
  ∀ (h : Head) (ty : Ty) (sc : Scope) (hint : Hint) (data base idx : Opnd) (off : BitVec 18) (off15 : BitVec 15) (sh : Fin 4)
    (disp : BitVec 7) (nreg : Fin 8),
    let unchecked := fun (e : Env) => e.s.boundsEntries e.w = []
    let low := fun (v : Option DWord) => BitVec.ofNat 64 ((v.getD 0).toNat % 2 ^ ty.width)
    let plain := fun (f : AddrForm) (e : Env) => ({
      op := .store, ty := ty, scope := sc, hint := hint, addrRegs := f.regs, dataRegs := opndRegs ty.wide data
      voidA := maskOf (fun t => inMask e.act t && (e.addr f t).isNone)
      voidD := maskOf (fun t => inMask e.act t && srcVoid [e.src ty data] t)
      asks := (threads.filter (inMask e.act)).map (fun t =>
        { thread := t, addr := (e.addr f t).getD 0, va := (e.addr f t).getD 0, size := ty.bytes, want := .write
          misaligned := ((e.addr f t).getD 0).toNat % ty.bytes != 0, data := low ((e.src ty data).at t) }) } : MemOp)
    Asks (.st h ty sc hint data base off) (memNeed h (.off base (off.signExtend 64)) [(ty, data)] []) unchecked
      (plain (.off base (off.signExtend 64))) ∧
    Asks (.stIdx h ty sc hint data base idx sh disp) (memNeed h (.idx base idx sh.val (disp.signExtend 64)) [(ty, data)] []) unchecked
      (plain (.idx base idx sh.val (disp.signExtend 64))) ∧
    Asks (.stx h ty nreg sc hint data base off15)
      { memNeed h (.off base (off15.signExtend 64)) [] [] with
        reads := opndRegs false base ++ (spanGroups ty data (nreg.val + 2)).flatten } unchecked
      (fun e =>
        let at_ := fun (t : Nat) => (e.addr (.off base (off15.signExtend 64)) t).getD 0
        let xs := (spanGroups ty data (nreg.val + 2)).map (fun g => srcReg e.regs (g.headD (.v 0)) ty.wide)
        { op := .store, ty := ty, scope := sc, hint := hint, addrRegs := opndRegs false base
          dataRegs := (spanGroups ty data (nreg.val + 2)).flatten
          voidA := maskOf (fun t => inMask e.act t && (e.addr (.off base (off15.signExtend 64)) t).isNone)
          voidD := maskOf (fun t => inMask e.act t && srcVoid xs t)
          asks := (threads.filter (inMask e.act)).flatMap (fun t => xs.zipIdx.map (fun (x, i) =>
            { thread := t, addr := at_ t, va := at_ t + BitVec.ofNat 64 (i * ty.bytes), size := ty.bytes, want := .write
              misaligned := (at_ t).toNat % spanAlign ty (nreg.val + 2) != 0, data := low (x.at t) })) }) ∧
    Asks (.ststash h ty sc hint data base off)
      { memNeed h (.off base (off.signExtend 64)) [] [] with reads := opndRegs false base ++ regRun (regOf data) 32 } unchecked
      (fun e =>
        let p := (e.addr (.off base (off.signExtend 64)) 0).getD 0
        let xs := (regRun (regOf data) 32).map (fun g => srcReg e.regs g false)
        let n := ty.bytes
        { op := .store, ty := ty, scope := sc, hint := hint, addrRegs := opndRegs false base, dataRegs := regRun (regOf data) 32
          voidA := maskOf (fun t => inMask e.act t && (e.addr (.off base (off.signExtend 64)) t).isNone)
          voidD := maskOf (fun t => inMask e.act t && srcVoid xs t)
          asks := (threads.filter (inMask e.act)).flatMap (fun t => xs.zipIdx.flatMap (fun (x, i) =>
            (List.range n).flatMap (fun j =>
              ([p + BitVec.ofNat 64 ((32 * i + t) * n), p + BitVec.ofNat 64 (1024 * n + (32 * t + i) * n)] : List DWord).map (fun a =>
                { thread := t, addr := a, va := a + BitVec.ofNat 64 j, size := 1, want := .write, misaligned := p.toNat % 128 != 0
                  data := ((low (x.at t)).extractLsb' (8 * j) 8).setWidth 64 })))) })

/-- R187, R200 to R203: the atomics, with and without a result, compare-and-swap, and the conflict-free adds. -/
def Claims.AtomicsAsk : Prop :=
  ∀ (h : Head) (ty : Ty) (sc : Scope) (hint : Hint) (d a b c : Opnd) (cb : Option (Fin 64)),
    let wide := if sc = .dflt then Scope.device else sc
    let ask := fun (op : AccOp) (dst : List (List Reg)) (f : AddrForm) (y : Option Opnd) (e : Env) =>
      let other := match y with | some c => e.src ty c | none => .bcast 0
      ({ op := op, ty := ty, scope := wide, hint := hint, groups := dst, addrRegs := f.regs
         dataRegs := opndRegs ty.wide b ++ (match y with | some c => opndRegs ty.wide c | none => [])
         voidA := maskOf (fun t => inMask e.act t && (e.addr f t).isNone)
         voidD := maskOf (fun t => inMask e.act t && srcVoid [e.src ty b, other] t)
         asks := (threads.filter (inMask e.act)).map (fun t =>
           { thread := t, addr := (e.addr f t).getD 0, va := (e.addr f t).getD 0, size := ty.bytes, want := .rmw
             misaligned := ((e.addr f t).getD 0).toNat % ty.bytes != 0, data := ((e.src ty b).at t).getD 0
             cmp := (other.at t).getD 0 }) } : MemOp)
    let atom := fun (i : Instr) (op : AccOp) => Asks i (memNeed h (.reg a cb) [(ty, b)] [opndRegs ty.wide d]) (fun _ => True)
      (ask op [opndRegs ty.wide d] (.reg a cb) none)
    let red := fun (i : Instr) (op : AccOp) => Asks i (memNeed h (.reg a cb) [(ty, b)] []) (fun _ => True) (ask op [] (.reg a cb) none)
    atom (.atomAdd h ty sc hint d a b cb) .add ∧ atom (.atomMin h ty sc hint d a b cb) .min ∧ atom (.atomMax h ty sc hint d a b cb) .max ∧
    atom (.atomAnd h ty sc hint d a b cb) .and ∧ atom (.atomOr h ty sc hint d a b cb) .or ∧ atom (.atomXor h ty sc hint d a b cb) .xor ∧
    atom (.atomExch h ty sc hint d a b cb) .exch ∧
    Asks (.atomcas h ty sc hint d a b c) (memNeed h (.reg a none) [(ty, b), (ty, c)] [opndRegs ty.wide d]) (fun _ => True)
      (ask .cas [opndRegs ty.wide d] (.reg a none) (some c)) ∧
    red (.redAdd h ty sc hint a b cb) .add ∧ red (.redMin h ty sc hint a b cb) .min ∧ red (.redMax h ty sc hint a b cb) .max ∧
    red (.redAnd h ty sc hint a b cb) .and ∧ red (.redOr h ty sc hint a b cb) .or ∧ red (.redXor h ty sc hint a b cb) .xor ∧
    Asks (.scadd h ty sc a b cb) (memNeed h (.reg a cb) [(ty, b)] []) (fun _ => True)
      (fun e =>
        { op := .add, ty := ty, scope := sc, addrRegs := opndRegs false a ++ (match cb with | some c => [.s c.val] | none => [])
          dataRegs := opndRegs ty.wide b
          voidA := maskOf (fun t => inMask e.act t && (e.addr (.reg a cb) t).isNone)
          voidD := maskOf (fun t => inMask e.act t && srcVoid [e.src ty b] t)
          asks := (sumGroups ty ((threads.filter (inMask e.act)).map (fun t =>
            (t, (e.addr (.reg a cb) t).getD 0, ((e.src ty b).at t).getD 0)))).map (fun (t, m, va, v) =>
              { thread := t, also := m, addr := va, va := va, size := ty.bytes, want := .scadd, misaligned := va.toNat % ty.bytes != 0
                data := v }) })

/-- R203, R129: the groups of an SCADD are the distinct addresses of its threads in the order of their lowest threads, and for an integer type
the sum of a group is the sum of its threads' values. -/
def Claims.ConflictFreeSums : Prop :=
  ∀ (ty : Ty) (xs : List (Nat × DWord × DWord)), ty.int32or64 = true → (∀ x ∈ xs, x.2.2 = lowBits ty x.2.2) → (xs.map Prod.fst).Nodup →
    (∀ x ∈ xs, x.1 < 32) →
    ((sumGroups ty xs).map (fun g => g.2.2.1)).Nodup ∧
    ∀ g ∈ sumGroups ty xs,
      g.2.2.2 = lowBits ty ((xs.filter (fun x => x.2.1 == g.2.2.1)).map (fun x => x.2.2)).sum ∧
      (∀ t < 32, inMask g.2.1 t = xs.any (fun x => x.1 == t && x.2.1 == g.2.2.1)) ∧
      ((xs.filter (fun x => x.2.1 == g.2.2.1)).head?).map Prod.fst = some g.1

/-- Atomics ask, and conflict-free sums: AtomicsAsk and ConflictFreeSums above. -/
def Obligations.AtomicsAsk : Prop :=
  Claims.AtomicsAsk ∧ Claims.ConflictFreeSums

/-- R206 to R209: the level counter instructions, each with the draw of its thread where the level it leaves depends on one. -/
def Claims.LevelCounterInstructionsAsk : Prop :=
  ∀ (h : Head) (sc : Scope) (d a b data base : Opnd) (cb : Option (Fin 64)) (off : BitVec 18),
    let wide := if sc = .dflt then Scope.device else sc
    let f : AddrForm := .off base (off.signExtend 64)
    let put := fun (op : AccOp) (ty : Ty) (level : Bool) (e : Env) => ({
      op := op, ty := .n8, scope := wide, addrRegs := opndRegs false a ++ (match cb with | some c => [.s c.val] | none => [])
      dataRegs := opndRegs ty.wide b
      voidA := maskOf (fun t => inMask e.act t && (e.addr (.reg a cb) t).isNone)
      voidD := maskOf (fun t => inMask e.act t && srcVoid [e.src ty b] t)
      asks := (threads.filter (inMask e.act)).map (fun t =>
        { thread := t, addr := (e.addr (.reg a cb) t).getD 0, va := (e.addr (.reg a cb) t).getD 0, size := 1
          want := .lc (if level then some ((((e.src ty b).at t).getD 0).toNat % 256) else none)
          data := ((e.src ty b).at t).getD 0, cmp := e.draw t }) } : MemOp)
    let get := fun (op : AccOp) (e : Env) => ({
      op := op, ty := .n32, scope := .device, groups := [opndRegs false d], addrRegs := opndRegs false base
      voidA := maskOf (fun t => inMask e.act t && (e.addr f t).isNone)
      asks := (threads.filter (inMask e.act)).map (fun t =>
        { thread := t, addr := (e.addr f t).getD 0, va := (e.addr f t).getD 0, size := 1, want := .lc none }) } : MemOp)
    Asks (.lcadd h sc a b cb) (memNeed h (.reg a cb) [(.f32, b)] [] true) (fun _ => True) (put .lcadd .f32 false) ∧
    Asks (.lcmrg h sc a b cb) (memNeed h (.reg a cb) [(.n32, b)] [] true) (fun _ => True) (put .lcmrg .n32 true) ∧
    Asks (.lcrd h d base off) (memNeed h f [] [opndRegs false d]) (fun _ => True) (get .lcrd) ∧
    Asks (.lcrdRaw h d base off) (memNeed h f [] [opndRegs false d]) (fun _ => True) (get .lcrdRaw) ∧
    Asks (.lcinit h data base off) (memNeed h f [(.n8, data)] []) (fun _ => True)
      (fun e =>
        { op := .lcinit, ty := .n8, scope := .device, addrRegs := opndRegs false base, dataRegs := opndRegs false data
          voidA := maskOf (fun t => inMask e.act t && (e.addr f t).isNone)
          voidD := maskOf (fun t => inMask e.act t && srcVoid [e.src .n8 data] t)
          asks := (threads.filter (inMask e.act)).map (fun t =>
            { thread := t, addr := (e.addr f t).getD 0, va := (e.addr f t).getD 0, size := 1
              want := .lc (some ((((e.src .n8 data).at t).getD 0).toNat % 256)), data := ((e.src .n8 data).at t).getD 0 }) })

/-- R226 to R231, R233 to R235: the counter instructions and LAUNCH, where no line that a release would write back is refused (R214). With an
S address the warp asks once. -/
def Claims.CounterInstructionsAsk : Prop :=
  ∀ (h : Head) (sc : Scope) (sem : Sem) (ext : Bool) (d : Option Opnd) (d1 a b : Opnd) (cb : Option (Fin 64)) (imm : BitVec 18) (pd : Fin 7)
    (dl al : Fin 64) (q : Fin 16),
    let clean := fun (e : Env) => e.s.refusedLine (e.s.clusterOf e.w) (e.s.asid (e.s.ctxIx e.w)) = none
    let dflt := fun (m : Sem) => if sem = .dflt then m else sem
    let groups := match d with | some d => [opndRegs true d] | none => []
    let ask := fun (opc : Nat) (op : AccOp) (m : Sem) (g : List (List Reg)) (f : AddrForm) (x : Env → Src) (dr : List Reg) (e : Env) => ({
      op := op, opc := opc, ty := .n64, scope := sc, sem := m, groups := g, once := a.isS, whole := a.isS, addrRegs := f.regs, dataRegs := dr
      voidA := maskOf (fun t => inMask e.act t && (e.addr f t).isNone), voidD := maskOf (fun t => inMask e.act t && srcVoid [x e] t)
      asks := (if a.isS then [lowestOf e.act] else threads.filter (inMask e.act)).map (fun t =>
        { thread := t, addr := (e.addr f t).getD 0, va := (e.addr f t).getD 0, size := 8, want := .ctr op
          misaligned := ((e.addr f t).getD 0).toNat % 8 != 0, data := ((x e).at t).getD 0 }) } : MemOp)
    let none_ : Env → Src := fun _ => .bcast 0
    Asks (.ctrinit h sc sem ext a b cb) (ctrNeed h (.reg a cb) [(.n64, b)] []) clean
      (ask 0xA0 (.ctrInit ext) (dflt .rel) [] (.reg a cb) (fun e => e.src .n64 b) (opndRegs true b)) ∧
    Asks (.ctradd h sc sem d a b cb) (ctrNeed h (.reg a cb) [(.n64, b)] groups) clean
      (ask 0xA1 .ctrAdd (dflt .rel) groups (.reg a cb) (fun e => e.src .n64 b) (opndRegs true b)) ∧
    Asks (.ctraddImm h sc sem d a imm) (ctrNeed h (.reg a none) [] groups) clean
      (ask 0xA2 .ctrAdd (dflt .rel) groups (.reg a none) (fun _ => .bcast (imm.setWidth 64)) []) ∧
    Asks (.ctrrd h sc sem d1 a cb) (ctrNeed h (.reg a cb) [] [opndRegs true d1]) clean
      (ask 0xA6 .ctrRead (dflt .acq) [opndRegs true d1] (.reg a cb) none_ []) ∧
    Asks (.ctrkill h sc sem a cb) (ctrNeed h (.reg a cb) [] []) clean (ask 0xA7 .ctrKill (dflt .rel) [] (.reg a cb) none_ []) ∧
    Asks (.ctrkillFree h sc sem a cb) (ctrNeed h (.reg a cb) [] []) clean (ask 0xA7 .ctrFree (dflt .rel) [] (.reg a cb) none_ []) ∧
    Asks (.ctrarv h sc sem pd a b) { ctrNeed h (.reg a none) [(.n64, b)] [] with writes := [.p pd.val] } clean
      (fun e =>
        let va := (e.addr (.reg a none) 0).getD 0
        { op := .ctrArv, opc := 0xA5, ty := .n64, scope := sc, sem := dflt .ar, once := true, whole := true, addrRegs := opndRegs false a
          dataRegs := opndRegs true b
          wait := some { addr := va, target := e.scalar .n64 b, pd := pd, mask := e.act, rel := false, acq := semAcq (dflt .ar)
                         scope := ctrScope sc va, opc := 0xA5 }
          asks := [{ thread := lowestOf e.act, addr := va, va := va, size := 8, want := .ctr .ctrArv, misaligned := va.toNat % 8 != 0
                     data := 1 }] }) ∧
    Asks (.launch h dl al q) { memNeed h (.off (.s al) 0) [] [[Reg.s dl.val]] with cls := some 6, memory := false } clean
      (fun e =>
        let va := e.regs.s.getD al.val 0
        { op := .launch q, ty := .n64, scope := .device, sem := .rel, groups := [[Reg.s dl.val]], once := true, whole := true
          addrRegs := [.s al.val]
          asks := (List.range 20).map (fun i =>
            { thread := lowestOf e.act, addr := va, va := va + BitVec.ofNat 64 (8 * i), size := 8, want := .read
              misaligned := va.toNat % 16 != 0 }) })


/-- Level counter and counter instructions: LevelCounterInstructionsAsk and CounterInstructionsAsk above. -/
def Obligations.CountersAsk : Prop :=
  Claims.LevelCounterInstructionsAsk ∧ Claims.CounterInstructionsAsk

/-- R197 to R199: the line instructions ask once for each distinct line of the global region that an active thread names; CFLUSH and CINV
of a scope of whole dies hold their warp until their lines are done, and at a narrower scope do nothing. -/
def Claims.LineInstructionsAsk : Prop :=
  ∀ (h : Head) (sc : Scope) (hint : Hint) (base idx : Opnd) (off : BitVec 18) (sh : Fin 4) (disp : BitVec 7),
    let maint := if sc = .dflt then Scope.device else sc
    let lines := fun (e : Env) (f : AddrForm) =>
      (((threads.filter (inMask e.act)).map (fun t => (e.addr f t).getD 0)).filter (fun a =>
        canonical a && regionOf a.toNat == .global)).map (fun a => a &&& ~~~0x7F#64) |>.eraseDups
    let leaves := fun (i : Instr) (f : AddrForm) (op : AccOp) (scope : Scope) (waits : Bool) =>
      ∀ s e, i.wf = true → s.shaped = true → s.ready? (memNeed h f [] []) = some e →
        (∀ t < 32, inMask e.act t = true → (e.addr f t).isSome = true) →
        ∃ t, exec i s = .next t ∧ (wcrStep e.x.wcr = false → t.mem = s.mem) ∧
          (lines e f = [] ∨ (waits = true ∧ scopeWide scope = false) → t.accs = s.accs) ∧
          (lines e f ≠ [] → (waits = true → scopeWide scope = true) →
            ∃ a, t.accs = s.accs ++ [a] ∧ a.op = op ∧ a.scope = scope ∧ a.warp = s.cur ∧ a.reqs.map Req.va = lines e f ∧
              (∀ r ∈ a.reqs, r.done = false) ∧
              (waits = true → (t.warp? s.cur).map Warp.hold = some (.accept s.accs.length)))
    let off18 : AddrForm := .off base (off.signExtend 64)
    leaves (.prefetch h sc hint base off) off18 .prefetch sc false ∧
    leaves (.prefetchIdx h sc hint base idx sh disp) (.idx base idx sh.val (disp.signExtend 64)) .prefetch sc false ∧
    leaves (.cflush h sc hint base off) off18 .cflush maint true ∧
    leaves (.cinv h sc hint base off) off18 .cinv maint true ∧
    leaves (.cdemote h sc base off) off18 .cdemote maint false

/-- R232: CTRWAIT on a word of this module whose condition holds ends at once, and its predicate says whether the word is in error or retired;
otherwise the wait is kept for the end of the clause, and no predicate is written. -/
def Obligations.CounterWaits : Prop :=
  ∀ (h : Head) (sc : Scope) (sem : Sem) (pd : Fin 7) (a b : Opnd) (imm : BitVec 18),
    let waits := fun (i : Instr) (data : List (Ty × Opnd)) (target : Env → DWord) (opc : Nat) =>
      ∀ s e p l, i.wf = true → s.shaped = true → s.ready? { ctrNeed h (.reg a none) data [] with writes := [.p pd.val] } = some e →
        let va := (e.addr (.reg a none) 0).getD 0
        let m := if sem = .dflt then Sem.acq else sem
        s.accept s.cur e.act true [{ thread := lowestOf e.act, addr := va, va := va, size := 8, want := .ctr .ctrAdd
                                     misaligned := va.toNat % 8 != 0 }] = .go [(p, l)] →
        isPeer l.place = false → semRel m = false →
        (ctrReached (s.ctrWordAt l) (target e) = true → s.openOn s.cur l = false →
          ∃ t, exec i s = .next t ∧ ∀ u < 32, inMask ((t.regs s.cur).p.getD pd.val 0) u =
            if inMask e.act u then ctrErr (s.ctrWordAt l) || ctrRetired (s.ctrWordAt l) else inMask (e.regs.p.getD pd.val 0) u) ∧
        (ctrReached (s.ctrWordAt l) (target e) = false → e.c.idx + 1 < e.c.words.length → wcrStep e.x.wcr = false →
          ∃ t, exec i s = .next t ∧ Leaves s t [] false ∧ (t.warp? s.cur).map Warp.pendWait = some (e.x.pendWait ++
            [{ addr := va, target := target e, pd := pd, mask := e.act, rel := false, acq := semAcq m, scope := ctrScope sc va
               before := s.accs.length, opc := opc }]))
    waits (.ctrwait h sc sem pd a b) [(.n64, b)] (fun e => e.scalar .n64 b) 0xA3 ∧
    waits (.ctrwaitImm h sc sem pd a imm) [] (fun _ => imm.setWidth 64) 0xA4

/-- R211 to R213, R215: FENCE holds its warp until it completes; FENCEOP takes its place among the accesses of its warp; DRAIN is waited for from
the end of its clause; LEASE takes effect at the next clause boundary. -/
def Claims.OrderingInstructions : Prop :=
  ∀ (h : Head) (sc : Scope) (mode : FenceMode) (mem : DrainMem) (gran : Fin 256),
    (∀ s e, (Instr.fence h sc mode).wf = true → s.ready? { head := h, cls := some 5 } = some e →
      ∃ t, exec (.fence h sc mode) s = .next t ∧ Leaves s t [] false ∧ (t.warp? s.cur).map Warp.hold = some (.fence sc mode) ∧
        (t.warp? s.cur).map Warp.clause = some (some e.c)) ∧
    (∀ s e, (Instr.fenceop h).wf = true → s.ready? { head := h, cls := some 5 } = some e →
      ∃ t a, exec (.fenceop h) s = .next t ∧ t.accs = s.accs ++ [a] ∧ a.warp = s.cur ∧ a.op = .fenceop ∧ a.wb = false ∧ a.reqs = [] ∧
        (wcrStep e.x.wcr = false → Leaves s { t with accs := s.accs } [] false)) ∧
    (∀ s e, (Instr.drain h mem).wf = true → s.ready? { head := h, cls := some 5 } = some e → wcrStep e.x.wcr = false →
      ∃ t, exec (.drain h mem) s = .next t ∧ Leaves s t [] false ∧
        (e.c.idx + 1 < e.c.words.length → (t.warp? s.cur).map Warp.pendDrain = some (e.x.pendDrain ++ [mem]))) ∧
    ∀ i ∈ [(Instr.leaseDecl h gran, BitVec.ofNat 9 gran.val), (Instr.leaseMeas h gran, BitVec.ofNat 9 (256 + gran.val))],
      ∀ s e, i.1.wf = true → s.ready? { head := h, cls := some 6 } = some e → wcrStep e.x.wcr = false →
        ∃ t, exec i.1 s = .next t ∧ Leaves s t [] false ∧
          (e.c.idx + 1 < e.c.words.length → (t.warp? s.cur).map Warp.nextLease = some (some i.2) ∧
            (t.warp? s.cur).map Warp.lease = some e.x.lease) ∧
          (e.c.idx + 1 = e.c.words.length →
            (t.warp? s.cur).map (fun x => x.lease.extractLsb' 0 9) = some i.2 ∧ (t.warp? s.cur).map Warp.nextLease = some none)

/-- Line instructions, fences and drains: LineInstructionsAsk and OrderingInstructions above. -/
def Obligations.LinesAndOrder : Prop :=
  Claims.LineInstructionsAsk ∧ Claims.OrderingInstructions

/-- R239, R240, R243, R246: a copy takes its descriptor from six S registers and an entry of its core's queue; a BCOPY slice waits in its
block's collector until the last slice of its generation enters the whole; with 64 entries in the queue the warp waits. -/
def Claims.CopyInstructions : Prop :=
  ∀ (h : Head) (sc : Scope) (ord : Bool) (bucket : Byte) (hint : Hint) (a : Fin 64) (ix : IdxTy) (fmt : Bfmt) (parts : Fin 128) (coll : Fin 16),
    let need : Need := { head := h, cls := some 3, reads := descRegs a }
    let desc := fun (e : Env) => ([0, 1, 2, 3, 4, 5] : List Nat).map (fun j => e.regs.s.getD (a.val + j) 0)
    let queued := fun (i : Instr) (kind : CopyKind) =>
      ∀ s e, i.wf = true → s.shaped = true → s.ready? need = some e →
        (s.portEntries s.cur < 64 →
          ∃ t c, exec i s = .next t ∧ t.copies = s.copies ++ [c] ∧ c.warp = s.cur ∧ c.kind = kind ∧ c.scope = sc ∧ c.ord = ord ∧
            c.bucket = bucket ∧ c.hint = hint ∧ c.desc = desc e ∧ c.state = .queued ∧ c.reads = [] ∧ c.done = [] ∧
            (wcrStep e.x.wcr = false → Leaves s { t with copies := s.copies, flows := s.flows } [] false)) ∧
        (64 ≤ s.portEntries s.cur → ∃ t, exec i s = .next t ∧ t.copies = s.copies ∧ Leaves s t [] false ∧
          (t.warp? s.cur).map Warp.hold = some (.issue .copies))
    queued (.copy h sc ord bucket hint a) .copy ∧ queued (.gather h sc ord bucket hint ix a) (.gather ix) ∧
    queued (.scatter h sc ord bucket hint ix a) (.scatter ix) ∧ queued (.unpack h sc ord bucket hint fmt a) (.unpack fmt) ∧
    ∀ s e, (Instr.bcopy h sc ord bucket hint parts coll a).wf = true → s.shaped = true → s.ready? need = some e →
      let before := s.collected e.x.block coll.val
      let want := ((before.head?.bind (fun i => s.copies[i]?)).map Copy.parts).getD parts.val
      (before.length + 1 < want → e.x.block < s.blocks.length →
        ∃ t c, exec (.bcopy h sc ord bucket hint parts coll a) s = .next t ∧ t.copies = s.copies ++ [c] ∧ c.state = .slice ∧ c.desc = desc e ∧
          t.collected e.x.block coll.val = before ++ [s.copies.length] ∧
          (wcrStep e.x.wcr = false → Leaves s { t with copies := s.copies, blocks := s.blocks, flows := s.flows } [] false)) ∧
      (want ≤ before.length + 1 → s.portEntries s.cur < 64 → e.x.block < s.blocks.length →
        ∃ t c g, exec (.bcopy h sc ord bucket hint parts coll a) s = .next t ∧ t.copies = s.copies ++ [c, g] ∧ c.desc = desc e ∧
          g.state = .queued ∧ g.gen = before ++ [s.copies.length] ∧ t.collected e.x.block coll.val = [])

/-- R249, R252, R267 to R270: an MMA leaves its 128-byte block in its core's queue; MACCWR and MACCZ write words of the accumulator store at once,
where no queued MMA names their segments; MACCRD reads a row at once and delivers it later. -/
def Claims.MatrixInstructions : Prop :=
  ∀ (h : Head) (ty : Ty) (d a b : Opnd) (sa : Fin 64) (first : Fin 16) (count : Fin 32),
    let store := fun (s : State) (e : Env) => s.core (s.clusterOf s.cur) e.x.core
    let sorted := fun (s : State) (e : Env) => ((store s e).acc.map Prod.fst).Pairwise (· < ·)
    (∀ s e off, (Instr.mma h sa).wf = true → s.shaped = true → s.ready? { head := h, cls := some 4, reads := [.s sa.val] } = some e →
      let va := e.regs.s.getD sa.val 0
      va.toNat % 128 = 0 → canonical va = true → regionOf va.toNat = .own off → off + 128 ≤ s.scratchOf e.x.block →
      (store s e).mmaq.length < 8 → s.openScratch s.cur (.scr e.x.block e.x.core) = false → wcrStep e.x.wcr = false →
      ∃ t m, exec (.mma h sa) s = .next t ∧ (store t e).mmaq = (store s e).mmaq ++ [m] ∧ m.warp = s.cur ∧ m.addr = va ∧
        m.thread = lowestOf e.act ∧ m.running = false ∧ m.blk.length = 128 ∧
        (∀ i < 128, m.blk.getD i 0 = s.mem.read (scrKey e.x.block e.x.core (off + i))) ∧
        (store t e).acc = (store s e).acc ∧ Leaves s { t with cores := s.cores } [] false) ∧
    (∀ s e, (Instr.maccwr h ty a b).wf = true → s.shaped = true →
      s.ready? { head := h, cls := some 4, reads := opndRegs true a ++ opndRegs false b, ls := readLs [(ty, b)] } = some e →
      (∀ t < 32, inMask e.act t = true → srcVoid [e.src ty b] t = false) →
      let row := (e.scalar .n64 a).toNat % 512
      (store s e).names (row / 32) = false → sorted s e → wcrStep e.x.wcr = false →
      ∃ t, exec (.maccwr h ty a b) s = .next t ∧ Leaves s { t with cores := s.cores } [] false ∧ (∀ u < 32,
        accRead (store t e).acc (32 * row + u) =
          if inMask e.act u then
            BitVec.ofNat 32 (if ty = .f16 ∨ ty = .bf16 then f2f .f32 ty {} ((((e.src ty b).at u).getD 0).toNat % 2 ^ 16)
              else (((e.src ty b).at u).getD 0).toNat % 2 ^ 32)
          else accRead (store s e).acc (32 * row + u)) ∧
        ∀ k, k / 32 ≠ row → accRead (store t e).acc k = accRead (store s e).acc k) ∧
    (∀ s e, (Instr.maccz h first count).wf = true → s.ready? { head := h, cls := some 4 } = some e →
      (∀ g, first.val ≤ g → g < first.val + count.val → (store s e).names g = false) → sorted s e → wcrStep e.x.wcr = false →
      ∃ t, exec (.maccz h first count) s = .next t ∧ Leaves s { t with cores := s.cores, poison := s.poison } [] false ∧ ∀ k, accRead (store t e).acc k =
        if 1024 * first.val ≤ k ∧ k < 1024 * (first.val + count.val) then 0 else accRead (store s e).acc k) ∧
    (∀ s e, (Instr.maccrd h ty d a).wf = true → s.shaped = true →
      s.ready? { head := h, cls := some 4, reads := opndRegs true a, writes := opndRegs false d } = some e →
      1 ≤ e.regs.freeTables →
      let row := (e.scalar .n64 a).toNat % 512
      (store s e).names (row / 32) = false → s.poison.contains (accPoison (s.clusterOf s.cur) e.x.core (row / 32)) = false →
      ∃ t r, exec (.maccrd h ty d a) s = .next t ∧ t.accs = s.accs ++ [r] ∧ r.warp = s.cur ∧ r.dregs = opndRegs false d ∧ r.wb = false ∧
        (∀ u < 32, inMask e.act u = true → r.value 0 u =
          if ty = .f16 ∨ ty = .bf16 then BitVec.ofNat 64 (f2f ty .f32 {} (accRead (store s e).acc (32 * row + u)).toNat)
          else (accRead (store s e).acc (32 * row + u)).setWidth 64) ∧
        (wcrStep e.x.wcr = false → Leaves s { t with accs := s.accs } (opndRegs false d) false (sbOf h)))


/-- Copy and matrix instructions: CopyInstructions and MatrixInstructions above. -/
def Obligations.EnginesAsk : Prop :=
  Claims.CopyInstructions ∧ Claims.MatrixInstructions

/-! ### Control, traps and special registers -/

/-- R17, R21, R73, R217: BRA moves the acting threads that take it to its target, and every other thread of the issue set to the word after the
clause; with U, threads that disagree trap before any moves. -/
def Claims.BranchMoves : Prop :=
  ∀ (h : Head) (u : Bool) (kind : BrKind) (cond : PredSpec) (off : BitVec 32) (s : State) (e : Env),
    (Instr.bra h u kind cond off).wf = true → s.shaped = true → s.ready? (branchNeed h (predReads cond) [] none) = some e →
    let c := inMask (predSpec e.regs cond)
    let acts := fun (t : Nat) => inMask e.act t
    let takes := fun (t : Nat) => acts t && (match kind with
      | .each => c t
      | .any => threads.any (fun v => acts v && c v)
      | .all => threads.all (fun v => !acts v || c v))
    let target := (e.c.addr + BitVec.ofNat 64 (8 * (e.c.idx + 1)) + off.signExtend 64 * 8).extractLsb' 3 54
    let out := fun (t : Nat) => if takes t then target else e.c.next
    (u = false ∨ ∀ t < 32, acts t = true → out t = out (lowestOf e.act)) →
    ∃ t, exec (.bra h u kind cond off) s = .next t ∧ (wcrStep e.x.wcr = false → Leaves s t [] false) ∧ Moves s t e out (fun _ l => l)

/-- R76, R218: CALL gives the threads that take it the address after it in the pair V0, V1, and moves them as BRA does. -/
def Claims.CallLinks : Prop :=
  ∀ (h : Head) (u : Bool) (kind : BrKind) (cond : PredSpec) (off : BitVec 32) (s : State) (e : Env),
    (Instr.call h u kind cond off).wf = true → s.shaped = true → s.ready? (branchNeed h (predReads cond) [.v 0, .v 1] (some 4)) = some e →
    let take := takers e.act kind (predSpec e.regs cond)
    let here := e.c.addr + BitVec.ofNat 64 (8 * (e.c.idx + 1))
    let out := fun (t : Nat) => if inMask take t then (here + off.signExtend 64 * 8).extractLsb' 3 54 else e.c.next
    (u = false ∨ ∀ t < 32, inMask e.act t = true → out t = out (lowestOf e.act)) → 1 ≤ e.regs.freeTables →
    ∃ t, exec (.call h u kind cond off) s = .next t ∧ Moves s t e out (fun _ l => l) ∧
      (∀ t' < 32, inMask take t' = true → (t.regs s.cur).element true (.v 0) t' = some (here + 8)) ∧
      (wcrStep e.x.wcr = false → Leaves s t [.v 0, .v 1] false)

/-- R219: BRX and RET move each acting thread to the address in its element, which must be aligned and canonical, and every other thread of the
issue set to the word after the clause. -/
def Claims.IndirectBranchMoves : Prop :=
  ∀ (h : Head) (u : Bool) (a : Opnd),
    ∀ i ∈ [Instr.brx h u a, Instr.ret h u a], ∀ s e, i.wf = true → s.shaped = true →
      s.ready? (branchNeed h (opndRegs true a) [] none) = some e →
      let dest := fun (t : Nat) => ((e.src .n64 a).at t).getD 0
      (∀ t < 32, inMask e.act t = true → (srcVoid [e.src .n64 a] t = false ∧ (dest t).toNat % 8 = 0 ∧ canonical (dest t) = true)) →
      (u = false ∨ ∀ t < 32, inMask e.act t = true → dest t = dest (lowestOf e.act)) →
      ∃ t, exec i s = .next t ∧ (wcrStep e.x.wcr = false → Leaves s t [] false) ∧
        Moves s t e (fun v => if inMask e.act v then (dest v).extractLsb' 3 54 else e.c.next) (fun _ l => l)

/-- Branches move threads: BranchMoves, CallLinks and IndirectBranchMoves above. -/
def Obligations.Branches : Prop :=
  Claims.BranchMoves ∧ Claims.CallLinks ∧ Claims.IndirectBranchMoves

/-- R18, R19, R220: EXIT and JOIN set STATE of the issue set's threads whose predicate holds. -/
def Claims.ExitAndJoin : Prop :=
  ∀ (h : Head), ∀ i ∈ [(Instr.exit h, LaneState.exited), (Instr.join h, LaneState.joined)],
    ∀ s e, i.1.wf = true → s.shaped = true → s.ready? (branchNeed h [] [] none) = some e →
      ∃ t, exec i.1 s = .next t ∧ (wcrStep e.x.wcr = false → Leaves s t [] false) ∧
        Moves s t e (fun _ => e.c.next) (fun v l => if inMask e.act v then i.2 else l)

/-- R221: NOP only advances its warp; after a YIELD its warp issues no clause for N clk from the end of its clause, the largest N of several in
it. -/
def Claims.NopAndYield : Prop :=
  ∀ (h : Head) (n : BitVec 16),
    (∀ s e, (Instr.nop h).wf = true → s.ready? { head := h } = some e → wcrStep e.x.wcr = false →
      ∃ t, exec (.nop h) s = .next t ∧ Leaves s t [] false ∧
        (e.c.idx + 1 < e.c.words.length → ((t.warp? s.cur).bind Warp.clause).map Clause.idx = some (e.c.idx + 1) ∧
          ((t.warp? s.cur).bind Warp.clause).map Clause.start = some (e.c.start + 1 + h.stall.val))) ∧
    (∀ s e, (Instr.yield h n).wf = true → s.ready? { head := h, cls := some 6 } = some e → wcrStep e.x.wcr = false →
      ∃ t, exec (.yield h n) s = .next t ∧ Leaves s t [] false ∧
        (e.c.idx + 1 < e.c.words.length → (t.warp? s.cur).map Warp.pendYield = some (some (max (e.x.pendYield.getD 0) n.toNat))) ∧
        (e.c.idx + 1 = e.c.words.length → e.x.allExited = false → e.x.pendWait = [] → e.x.pendDrain = [] → s.openArrival s.cur = none →
          n ≠ 0 → (t.warp? s.cur).map Warp.hold = some (.yield (s.clk + max (e.x.pendYield.getD 0) n.toNat)) ∧
            (t.warp? s.cur).map Warp.yielded = some true))

/-- R85, R222, R283, R284, R410: TRAP is done and then raises TRAPI for its acting threads; BRK raises BRK for the whole issue set, whatever
its predicate holds, and acts on nothing; a stepping warp raises STEP after an instruction. -/
def Claims.TrapAndBreak : Prop :=
  ∀ (h : Head) (imm : BitVec 32),
    (∀ s e, (Instr.trap h imm).wf = true → s.ready? { head := h, cls := some 6 } = some e →
      ∃ t, exec (.trap h imm) s = .next t ∧ Traps s t e { code := 0x20, mask := e.act, imm := imm } true) ∧
    (∀ s e, (Instr.brk h imm).wf = true → s.ready? { head := h, always := true } = some e →
      ∃ t, exec (.brk h imm) s = .next t ∧ Traps s t e { code := 0x21, mask := e.c.iset, imm := imm } false) ∧
    ∀ s e, (Instr.nop h).wf = true → s.ready? { head := h } = some e → wcrStep e.x.wcr = true →
      ∃ t, exec (.nop h) s = .next t ∧ Traps s t e { code := codeStep, mask := e.c.iset } true

/-- EXIT, JOIN, YIELD, NOP, TRAP and BRK: ExitAndJoin, NopAndYield and TrapAndBreak above. -/
def Obligations.ControlInstructions : Prop :=
  Claims.ExitAndJoin ∧ Claims.NopAndYield ∧ Claims.TrapAndBreak

/-- R183, R184: a load or a store of a type whose width does not divide some address raises ALIGN for the threads concerned, with the address of
the lowest, and asks nothing. -/
def Obligations.MisalignedAccessTraps : Prop :=
  ∀ (h : Head) (ty : Ty) (sc : Scope) (hint : Hint) (d base : Opnd) (off : BitVec 18),
    let f : AddrForm := .off base (off.signExtend 64)
    let traps := fun (i : Instr) (n : Need) => ∀ s e, i.wf = true → s.shaped = true → s.ready? n = some e →
      let bad := maskOf (fun t => inMask e.act t && ((e.addr f t).getD 0).toNat % ty.bytes != 0)
      (∀ t < 32, inMask e.act t = true → (e.addr f t).isSome = true ∧ srcVoid [e.src ty d] t = false) → bad ≠ 0 → d.isS = false →
      ∃ t, exec i s = .next t ∧ t.accs = s.accs ∧
        Traps s t e { code := codeAlign, mask := bad, lowv := true, lowest := lowestOf bad, addr := (e.addr f (lowestOf bad)).getD 0 } false
    traps (.ld h ty sc hint d base off) (memNeed h f [] [opndRegs ty.wide d]) ∧
    traps (.st h ty sc hint d base off) (memNeed h f [(ty, d)] [])

/-- R223, R224, R225, R287: RDSR gives its destination, an S register or a V or O pair, the value of the register it names. RDTIME, and an RDSR of TIME
(0x010), give a time that does not fall below the warp's last, nor lie more than 20 ns before the module's or after it (that R225's 20 ns lie before it is the
model's choice, log 66). An RDSR of an event counter gives no more than its count, and misses at most what other warps caused in the last 2,048 clk, once what
the warp itself had accepted has counted (R287). -/
def Claims.SpecialRegisterReads : Prop :=
  ∀ (h : Head) (d : Opnd) (num : Fin 1024) (dt : Fin 64),
    let need := fun (d : Opnd) => ({ head := h, cls := some 6, writes := opndRegs true d, lat := some (if d.isS then 3 else 4) } : Need)
    (num.val ≠ 0x010 → num.val < 0x080 →
      Yields (.rdsr h d num) (need d) d true (fun _ => []) (fun e _ _ => some (e.s.srRead e.w num.val 0))) ∧
    (∀ s e, (Instr.rdtime h dt).wf = true → s.shaped = true → s.ready? (need (.s dt)) = some e →
      (s.blockOf s.cur).isSome = true → (s.launchOf s.cur).isSome = true → e.x.lastTime.toNat ≤ s.time.toNat →
      ∃ t v, exec (.rdtime h dt) s = .next t ∧ (t.regs s.cur).s[dt.val]? = some v ∧ v.toNat ≤ s.time.toNat ∧ e.x.lastTime.toNat ≤ v.toNat ∧
        s.time.toNat ≤ v.toNat + 20 ∧ (t.warp? s.cur).map Warp.lastTime = some v ∧
        (wcrStep e.x.wcr = false → Leaves s { t with freeCtr := s.freeCtr } [.s dt.val] false)) ∧
    (∀ s e, (Instr.rdsr h d num).wf = true → s.shaped = true → s.ready? (need d) = some e → (s.blockOf s.cur).isSome = true →
      (s.launchOf s.cur).isSome = true →
      let an := anchorOf e.regs (opndRegs true d) e.act []
      (d.isS = true ∨ mapFits e.regs (opndRegs true d) (resultMap e.act an (fun _ => some 0)) = true) →
      let reads := fun (v : DWord) (t : State) => exec (.rdsr h d num) s = .next t ∧
        Delivered (t.regs s.cur) true d e.act an.slots (fun _ => some v) ∧
        (wcrStep e.x.wcr = false → Leaves s { t with freeCtr := s.freeCtr } (opndRegs true d) false)
      (num.val = 0x010 → e.x.lastTime.toNat ≤ s.time.toNat →
        ∃ t v, reads v t ∧ v.toNat ≤ s.time.toNat ∧ e.x.lastTime.toNat ≤ v.toNat ∧ s.time.toNat ≤ v.toNat + 20 ∧
          (t.warp? s.cur).map Warp.lastTime = some v) ∧
      (0x080 ≤ num.val → s.mayCount s.cur (num.val - 0x080) = false → ∃ t v, reads v t ∧ ∀ c, s.ctxs[s.ctxIx s.cur]? = some c →
        ∃ missed, v = c.events.getD (num.val - 0x080) 0 - BitVec.ofNat 64 missed ∧
          missed ≤ ((c.recent.filter (fun r => decide (r.ev = num.val - 0x080) && r.by_ != some s.cur && decide (s.clk < r.at_ + 2048))).map
            Counted.n).sum))

/-- R14, R34, R224, R277, R280, R281, R283: what each special register reads as. -/
def Claims.SpecialRegisterValues : Prop :=
  ∀ (s : State) (w : Nat) (x : Warp) (b : Block) (l : Launch) (c : Ctx), s.warp? w = some x → s.blockOf w = some b → s.launchOf w = some l →
    s.ctxs[l.ctx]? = some c →
    let rd := fun (n : Nat) => s.srRead w n 0
    rd 0x000 = x.wcr ∧ rd 0x001 = x.lease ∧ rd 0x002 = b.ragmask.setWidth 64 ∧ rd 0x003 = BitVec.ofNat 64 b.ix ∧
    (∀ g, s.gangs[b.gang]? = some g → rd 0x004 = BitVec.ofNat 64 g.ix) ∧ rd 0x005 = BitVec.ofNat 64 x.role ∧
    rd 0x006 = BitVec.ofNat 64 x.roleWarp ∧ rd 0x007 = BitVec.ofNat 64 x.blockWarp ∧ rd 0x008 = BitVec.ofNat 64 l.ix ∧
    rd 0x009 = BitVec.ofNat 64 (s.clusterOf w) ∧ rd 0x00A = BitVec.ofNat 64 x.core ∧
    (b.cores.Nodup → (∀ k ∈ b.cores, k < 8) → ∀ k < 64, (rd 0x00B).getLsbD k = decide (k ∈ b.cores)) ∧
    rd 0x00C = b.group.setWidth 64 ∧ rd 0x00D = b.rowbase.setWidth 64 ∧ rd 0x00E = b.rflags.setWidth 64 ∧ rd 0x00F = b.paramptr ∧
    rd 0x012 ++ rd 0x011 = l.seed ∧ (∀ i < 8, rd (0x018 + i) = c.lcbase.getD i 0) ∧ (∀ i < 4, rd (0x020 + i) = x.fault.getD i 0) ∧
    ∀ t < 32, ∀ y, x.regs.lpc[t]? = some y → y.age < 256 →
      rd (0x040 + t) = (match y.st with | .run => 0#2 | .due => 1#2 | .joined => 2#2 | .exited => 3#2) ++ BitVec.ofNat 8 y.age ++ y.waddr

/-- R223, R277, R278, R281: WRSR keeps a write of WCR's TAG, STEP and CHK for the next clause, and a 1 written to SAT of a base register. -/
def Claims.SpecialRegisterWrites : Prop :=
  ∀ (h : Head) (num : Fin 1024) (a : Opnd) (s : State) (e : Env), (Instr.wrsr h num a).wf = true → s.shaped = true →
    s.ready? { head := h, cls := some 6, reads := opndRegs true a } = some e →
    ∃ t, exec (.wrsr h num a) s = .next t ∧ (wcrStep e.x.wcr = false → Leaves s t [] false) ∧
      (num.val = 0 → ∃ v, (t.warp? s.cur).map Warp.nextWcr = some (some v) ∧
        ∀ k < 64, v.getLsbD k = (decide (k < 2 ∨ (8 ≤ k ∧ k < 16)) && (e.scalar .n64 a).getLsbD k)) ∧
      (0x018 ≤ num.val → (t.warp? s.cur).map Warp.nextSat = some
        (if (e.scalar .n64 a).getLsbD 16 then (num.val - 0x018) :: e.x.nextSat else e.x.nextSat))


/-- Special registers: SpecialRegisterReads, SpecialRegisterValues and SpecialRegisterWrites above. -/
def Obligations.SpecialRegisters : Prop :=
  Claims.SpecialRegisterReads ∧ Claims.SpecialRegisterValues ∧ Claims.SpecialRegisterWrites

/-! ### Requests as they are performed -/

/-- R187, R293, R183, R379: a load of scratch or of an NC page that does not migrate returns the bytes there; one of a line that its core's L1
holds, of a page with no writable alias (R300), returns the L1's bytes. It changes no memory and no register; its result is written later. -/
def Claims.LoadsPerform : Prop :=
  ∀ (s : State) (n i : Nat) (a : Access) (r : Req), s.May n i a r → s.foreign a.block r.loc r.va = false →
    (a.op = .load ∨ ∃ f, a.op = .loadRec f) →
    ((placeKey r.loc).isSome = true → (r.loc.place ≠ .nc ∨ s.migrations = []) →
      exec (.accessPerformed (.req n i)) s = .next { s with accs := s.accsWith n i (s.placeVal r.loc r.size) }) ∧
    (∀ k l, r.loc.place = .glob k → scopeNear a.scope = true → r.loc.addr % 128 + r.size ≤ 128 →
      findLine (s.core (s.clusterOf a.warp) (((s.warp? a.warp).map Warp.core).getD 0)).l1 k (r.loc.addr / 128) = some l →
      (∀ j < r.size, (l.byte (r.loc.addr % 128 + j)).st ≠ .invalid ∧ (s.frameByte k (r.loc.addr + j)).any s.aliased = false) →
      ∃ t, exec (.accessPerformed (.req n i)) s = .next t ∧
        t.accs = s.accsWith n i (BitVec.ofNat 64 (leNat ((List.range r.size).map (fun j => (l.byte (r.loc.addr % 128 + j)).v)))) ∧
        ∀ w, t.regs w = s.regs w)

/-- R187, R192, R293, R301, R382: a store to scratch or an NC page writes its bytes and no other byte of memory. A near store to a global line
stands in its core's L1 at once, pending its grant; a far one of a line that the LLC holds, of a page with no writable alias (R300), stands at its
home. No register changes. -/
def Claims.StoresPerform : Prop :=
  ∀ (s : State) (n i : Nat) (a : Access) (r : Req), s.May n i a r → a.op = .store →
    let cl := s.clusterOf a.warp
    let core := ((s.warp? a.warp).map Warp.core).getD 0
    ∃ t, exec (.accessPerformed (.req n i)) s = .next t ∧ t.accs = s.accsWith n i 0 ∧ (∀ w, t.regs w = s.regs w) ∧
      (∀ k, placeKey r.loc = some k → s.mem.wf = true → s.migrations = [] → Memory.with s.mem t.mem k r.size r.data) ∧
      (∀ k, r.loc.place = .glob k → r.loc.addr % 128 + r.size ≤ 128 →
        (scopeNear a.scope = true →
          (∀ ls ∈ [(s.core cl core).l1, s.ccLines cl, s.llc], ∀ l, findLine ls k (r.loc.addr / 128) = some l → l.bytes.length = 128) →
          ∃ l, findLine (t.core cl core).l1 k (r.loc.addr / 128) = some l ∧
            ∀ j < r.size, l.byte (r.loc.addr % 128 + j) = { v := r.data.extractLsb' (8 * j) 8, st := .pending }) ∧
        (scopeNear a.scope = false → ∀ l, findLine s.llc k (r.loc.addr / 128) = some l → l.bytes.length = 128 →
          ∀ j < r.size, (s.frameByte k (r.loc.addr + j)).any s.aliased = false → t.homeRead k (r.loc.addr + j) = r.data.extractLsb' (8 * j) 8))

/-- R200, R201, R202, R203: an atomic on scratch or an NC page takes the value there in one step, leaves the value its operation makes of it,
and returns the old one. -/
def Claims.AtomicsPerform : Prop :=
  (∀ (s : State) (n i : Nat) (a : Access) (r : Req), s.May n i a r → a.op.isAtomic = true → ∀ k, placeKey r.loc = some k →
    s.mem.wf = true → s.migrations = [] → r.size = a.ty.bytes →
    ∃ t, exec (.requestPerform n i) s = .next t ∧ t.accs = s.accsWith n i (loadForm a.ty (s.placeVal r.loc r.size)) ∧
      (∀ w, t.regs w = s.regs w) ∧
      Memory.with s.mem t.mem k r.size (rmwValue a.op a.ty (s.placeVal r.loc r.size) r.data r.cmp)) ∧
  ∀ (ty : Ty) (old data cmp : DWord), ty.int32or64 = true →
    let w := fun (op : AccOp) => lowBits ty (rmwValue op ty old data cmp)
    w .add = lowBits ty (old + data) ∧ w .min = lowBits ty (if ival ty data < ival ty old then data else old) ∧
    w .max = lowBits ty (if ival ty old < ival ty data then data else old) ∧ w .and = lowBits ty (old &&& data) ∧
    w .or = lowBits ty (old ||| data) ∧ w .xor = lowBits ty (old ^^^ data) ∧ w .exch = lowBits ty data ∧
    w .cas = lowBits ty (if lowBits ty old = lowBits ty cmp then data else old)

/-- Loads, stores and atomics are performed: LoadsPerform, StoresPerform and AtomicsPerform above. -/
def Obligations.AccessesPerform : Prop :=
  Claims.LoadsPerform ∧ Claims.StoresPerform ∧ Claims.AtomicsPerform

/-- R206, R207: what an add or a merge makes of a level. With est(l) = ((1 + 2^-k)^l - 1) 2^k, a sum T of at least est(l) and below
est(l + 1) leaves l + 1 where (T - est(l)) 2^32 exceeds draw (est(l + 1) - est(l)), else l; a level above the last saturates. -/
def Claims.LevelRule : Prop :=
  let est := fun (k l : Nat) => ((1 + 1 / (2 : ℚ) ^ k) ^ l - 1) * 2 ^ k
  let rule := fun (k last l : Nat) (T : ℚ) (draw : DWord) (out : Option Nat) =>
    ∃ m, l ≤ m ∧ est k m ≤ T ∧ T < est k (m + 1) ∧
      out = (let new := if ((draw.toNat % 2 ^ 32 : Nat) : ℚ) * (est k (m + 1) - est k m) < (T - est k m) * 2 ^ 32 then m + 1 else m
        if last < new then none else some new)
  ∀ (k last l : Nat) (draw : DWord), k ≤ 15 → last ≤ 255 → l ≤ last →
    (∀ w m e b, fdec .f32 w = .fin false m e b → 0 < m → rule k last l (est k l + m * (2 : ℚ) ^ e) draw (lcAddLevel k last l w draw)) ∧
    (∀ w, fdec .f32 w = .inf false → lcAddLevel k last l w draw = none) ∧
    (∀ w, (∃ q, fdec .f32 w = q ∧ (q = .nan ∨ q = .inf true ∨ ∃ neg m e b, q = .fin neg m e b ∧ (neg = true ∨ m = 0))) → lcAddLevel k last l w draw = some l) ∧
    (∀ b ≤ last, rule k last l (est k l + est k b) draw (lcMergeLevel k last l b draw))

/-- R205 to R210, R282: an LC request takes its counter in one step. LCADD, LCMRG and LCINIT leave the level of their rule; where it would pass the
last level and the policy is stick, the last one. An add or merge of an instruction that its warp waits for, and that is not its last, only
reserves its counter: it keeps the level it would leave, or that it would saturate, which traps under POLICY = trap in a launch that is not deterministic.
A request that takes effect after its instruction has been accepted saturates as under the stick policy, whatever POLICY is (the model's choice, log 92). LCRD and LCRD.RAW return the level's estimate and the level. -/
def Claims.LevelCountersPerform : Prop :=
  ∀ (s : State) (n i : Nat) (a : Access) (r : Req) (k : Nat), s.May n i a r → r.loc.place = .lcm k → s.mem.wf = true →
    let b := (s.lcOf k r.loc.addr).1
    let out := lcOutcome a.op b (min (s.levelAt k r.loc.addr) (lcMax b)) r.data r.cmp
    (a.op = .lcadd ∨ a.op = .lcmrg ∨ a.op = .lcinit → (s.warp? a.warp).map Warp.hold ≠ some (.accept n) →
      ∃ t, exec (.requestPerform n i) s = .next t ∧ t.did n i 0 ∧
        (∀ v < 256, out = some v → t.levelAt k r.loc.addr = v) ∧
        (out = none → lcTrap b = false ∨ s.detOf a.block = false → t.levelAt k r.loc.addr = lcMax b)) ∧
    (a.op = .lcadd ∨ a.op = .lcmrg → (s.warp? a.warp).map Warp.hold = some (.accept n) →
      (∀ q ∈ a.reqs.take i, q.loc ≠ r.loc) → (∃ j q, j ≠ i ∧ a.reqs[j]? = some q ∧ q.done = false ∧ isPeer q.loc.place = false ∧ s.parked a q = false) →
      exec (.requestPerform n i) s =
        .next { s with accs := s.accsWith n i (BitVec.ofNat 64 (out.getD (if lcTrap b = true ∧ s.detOf a.block = false then 257 else 256))) }) ∧
    (r.size = 1 → s.foreign a.block r.loc r.va = false → (s.warp? a.warp).map Warp.hold ≠ some (.accept n) →
      (a.op = .lcrdRaw → exec (.accessPerformed (.req n i)) s =
        .next { s with accs := s.accsWith n i (BitVec.ofNat 64 (s.levelAt k r.loc.addr % 256)) }) ∧
      (a.op = .lcrd → exec (.accessPerformed (.req n i)) s =
        .next { s with accs := s.accsWith n i (BitVec.ofNat 64 (lcEstimate b (s.levelAt k r.loc.addr % 256))) }))

/-- Level counters: LevelRule and LevelCountersPerform above. -/
def Obligations.LevelsAreRaised : Prop :=
  Claims.LevelRule ∧ Claims.LevelCountersPerform

/-- R228 to R236, R362: a counter operation on a word of scratch takes its place in the single order and acts as the word's state there has
it. -/
def Obligations.CountersPerform : Prop :=
  ∀ (s : State) (n i : Nat) (a : Access) (r : Req) (b c : Nat), s.May n i a r → a.op.isCtr = true → r.loc.place = .scr b c →
    s.mem.wf = true → r.size = 8 →
    let v := s.ctrWordAt r.loc
    let tagged := (s.ctrTag r.loc).isSome
    let busy := s.referenced r.loc
    ∃ t, exec (.requestPerform n i) s = .next t ∧
      (∀ ext, a.op = .ctrInit ext → (tagged = false ∨ ctrRetired v = true ∧ busy = false) → t.did n i v ∧
        t.ctrWordAt r.loc = 0#2 ++ r.data.extractLsb' 0 62 ∧ t.ctrTag r.loc = some { loc := r.loc, ext := ext }) ∧
      (a.op = .ctrAdd ∨ a.op = .ctrArv → tagged = true → t.did n i v ∧
        t.ctrWordAt r.loc = (if ctrRetired v then v else ctrPlus v r.data) ∧ t.ctrTag r.loc = s.ctrTag r.loc) ∧
      (a.op = .ctrRead → t.did n i v ∧ t.ctrWordAt r.loc = v ∧ t.ctrTag r.loc = s.ctrTag r.loc) ∧
      (a.op = .ctrKill → tagged = true → t.did n i v ∧ t.ctrWordAt r.loc = v ||| 0x8000000000000000#64 ∧ t.ctrTag r.loc = s.ctrTag r.loc) ∧
      (a.op = .ctrFree → tagged = true → ctrRetired v = true → busy = false → t.did n i v ∧ t.ctrWordAt r.loc = v ∧ t.ctrTag r.loc = none) ∧
      ((tagged = false ∧ a.op ≠ .ctrRead ∧ ∀ ext, a.op ≠ .ctrInit ext) ∨
        (tagged = true ∧ (ctrRetired v = false ∨ busy = true) ∧ (a.op = .ctrFree ∨ ∃ ext, a.op = .ctrInit ext)) →
        t.did n i v true ∧ t.ctrWordAt r.loc = v ∧ t.ctrTag r.loc = s.ctrTag r.loc)

/-- R230, R231, R232, R233: an add's sum sticks at 2^62 - 1 and sets ERR there; a wait has ended when the value reaches its threshold or ERR or
RETIRED is set; the target of a CTRARV is the next multiple of n above the value. -/
def Obligations.CounterArithmetic : Prop :=
  ∀ (w inc target : DWord),
    let value := fun (x : DWord) => x.toNat % 2 ^ 62
    value (ctrPlus w inc) = min (value w + value inc) (2 ^ 62 - 1) ∧
    (ctrPlus w inc).getLsbD 62 = (w.getLsbD 62 || inc.getLsbD 62 || decide (2 ^ 62 - 1 < value w + value inc)) ∧
    (ctrPlus w inc).getLsbD 63 = w.getLsbD 63 ∧
    ctrReached w target = (decide (target.toNat ≤ value w) || w.getLsbD 62 || w.getLsbD 63) ∧
    ∀ k, (target.toNat = 0 ∧ k = 1) ∨ (0 < target.toNat ∧ k = target.toNat) →
      (arvTarget (value w) target).toNat = min ((value w / k + 1) * k) (2 ^ 64 - 1)

/-- R82, R84, R131, R186, R197, R220: the result of an access is written once every request has been performed: an S register gets the first
value, and each thread's slot of the destination that thread's. Its scoreboard counts down. A warp that has ended drops it. -/
def Obligations.ResultWriteback : Prop :=
  ∀ (s : State) (n : Nat) (a : Access) (x : Warp), s.accs[n]? = some a → a.wb = false → a.op ≠ .fenceop →
    (a.dregs = [] ∨ ∀ r ∈ a.reqs, r.done = true) → s.warp? a.warp = some x → x.hold ≠ .accept n →
    ∃ t, exec (.resultWriteback n) s = .next t ∧ (t.accs[n]?).map Access.wb = some true ∧ t.mem = s.mem ∧
      (∀ w, w ≠ a.warp → t.regs w = s.regs w) ∧
      (x.state = .ended → t.regs a.warp = s.regs a.warp) ∧
      (x.state ≠ .ended → a.clob = [] →
        (t.regs a.warp).sb = (match a.sb with | some b => x.regs.sb.modify b.val (· - 1) | none => x.regs.sb) ∧
        (a.dregs = [] → (t.regs a.warp).v = x.regs.v ∧ (t.regs a.warp).o = x.regs.o ∧ (t.regs a.warp).s = x.regs.s) ∧
        (∀ k, a.dregs = [.s k] → k < x.regs.s.length → (t.regs a.warp).s[k]? = some (a.value 0 (lowestOf a.mask))) ∧
        (∀ g m, a.dregs = [.v g] → a.slots = [m] → a.ty.wide = false →
          (∀ u < 32, ∀ v < 32, inMask a.mask u = true → inMask a.mask v = true → m.at u = m.at v → u = v) →
          ∀ q, x.regs.v[g]? = some q → q.slots.length = 32 →
          (t.regs a.warp).s = x.regs.s ∧ ((t.regs a.warp).vreg (.v g)).tag = q.tag ∧
          ∀ u < 32, inMask a.mask u = true → ∀ p, m.at u = some p →
            ((t.regs a.warp).vreg (.v g)).slots[p.val]? = some ((a.value 0 u).setWidth 32)))


/-! ### Clauses, holds and the load -/

/-- R14, R15, R16, R61, R62, R278, R341: a warp of the load between clauses takes its next clause. While a thread is eligible, the PC is that of
the DUE thread with the largest AGE, the lowest on a tie, else the least of the eligible; where none is, the least of the parked threads, who are
released. The issue set is the eligible threads there. The header passes its checks, its class may run in the role, its WAIT is met, and a pipe of
its class is free for it (R80). -/
def Claims.ClausesStart : Prop :=
  ∀ (s : State) (w : Nat) (x : Warp) (pc : BitVec 54) (h : DWord) (ws : List DWord), s.warp? w = some x → x.state = .active →
    x.clause = none → x.hold = .none → x.pipe = none → s.stoppingWarp w = false → x.wback = none → x.ahead = false → x.regs.lpc.length = 32 →
    let l := x.regs.lpc
    let eligible := fun (e : Lpc) => e.st = .run ∨ e.st = .due
    let va : DWord := BitVec.signExtend 61 pc ++ 0#3
    let cls := (h.extractLsb' 56 4).toNat
    s.fetchWord w va = .word h → h.extractLsb' 60 4 = 0xA → cls < 7 → h.extractLsb' 0 45 = 0 →
    ws.length = (h.extractLsb' 52 4).toNat + 1 → (∀ i < ws.length, s.fetchWord w (va + BitVec.ofNat 64 (8 * (i + 1))) = .word (ws.getD i 0)) →
    kindRuns x.kind cls = true → (∀ i < 6, h.getLsbD (46 + i) = true → x.regs.sb.getD i 0 = 0) →
    (s.pipeFor w x cls).isSome = true →
    let starts := fun (m : Lpc → Bool) (new : Lpc → Lpc) =>
      ∃ t y c, exec (.clauseStart w) s = .next t ∧ t.warp? w = some y ∧ y.clause = some c ∧ y.pipe = s.pipeFor w x cls ∧
        c.addr = va ∧ c.words = ws ∧ c.cls = cls ∧ c.yld = h.getLsbD 45 ∧ c.idx = 0 ∧ c.start = 0 ∧ y.wcr = x.nextWcr.getD x.wcr ∧
        (∀ u < 32, inMask c.iset u = (l[u]?).any m) ∧ y.regs = { x.regs with lpc := l.map new } ∧ ∀ v, v ≠ w → t.warp? v = s.warp? v
    let issue := fun (e : Lpc) =>
      if e.st = .run ∨ e.st = .due then
        if e.waddr = pc then { e with st := .run, age := 0 }
        else if e.st = .run ∧ e.age = 255 then { e with st := .due, age := 0 }
        else { e with age := min (e.age + 1) 255 }
      else e
    (∀ (u : Nat) (e : Lpc), l[u]? = some e → e.st = .due → e.waddr = pc →
      (∀ (v : Nat) (f : Lpc), l[v]? = some f → f.st = .due → f.age < e.age ∨ (f.age = e.age ∧ u ≤ v)) →
      starts (fun e => (e.st == .run || e.st == .due) && e.waddr == pc) issue) ∧
    ((∀ e ∈ l, e.st ≠ .due) → (∃ e ∈ l, e.st = .run ∧ e.waddr = pc) → (∀ e ∈ l, e.st = .run → pc.toNat ≤ e.waddr.toNat) →
      starts (fun e => (e.st == .run || e.st == .due) && e.waddr == pc) issue) ∧
    ((∀ e ∈ l, ¬ eligible e) → (∃ e ∈ l, e.st = .joined ∧ e.waddr = pc) → (∀ e ∈ l, e.st = .joined → pc.toNat ≤ e.waddr.toNat) →
      starts (fun e => e.st == .joined && e.waddr == pc)
        (fun e => if e.st = .joined ∧ e.waddr = pc then { e with st := .run, age := 0 } else e))

/-- R63, R64, R85, R284: a header that fails its checks, or that may not be fetched, raises CLAUSE at the head of the clause, with its address. A
page that is absent and can be resolved is waited for. A warp whose threads are all EXITED fetches nothing and ends (R15). -/
def Claims.BadClausesTrap : Prop :=
  ∀ (s : State) (w : Nat) (x : Warp), s.warp? w = some x → x.state = .active → x.clause = none → x.hold = .none →
    x.pipe = none → s.stoppingWarp w = false → x.wback = none → x.ahead = false →
    let va := wordAddress (selectThreads x.regs.lpc).2.1
    let traps := fun (reason : BitVec 8) =>
      ∃ t y, exec (.clauseStart w) s = .next t ∧ t.warp? w = some y ∧ y.state = .trapped ∧ y.clause = none ∧
        y.fault[1]? = some (0#8 ++ reason ++ 0#8 ++ 0x02#8 ++ (selectThreads x.regs.lpc).1) ∧ y.fault[2]? = some va ∧
        y.resume.head = true ∧ y.resume.index = 0 ∧ y.resume.caddr = va.extractLsb' 3 54 ∧ ∀ v, v ≠ w → t.regs v = s.regs v
    ((∀ e ∈ x.regs.lpc, e.st = .exited) → ∃ t y, exec (.clauseStart w) s = .next t ∧ t.warp? w = some y ∧ y.state = .ended ∧ y.regs = x.regs) ∧
    ((∃ e ∈ x.regs.lpc, e.st ≠ .exited) →
    (∀ h, s.fetchWord w va = .word h →
      (h.extractLsb' 60 4 ≠ 0xA → traps 0) ∧
      (h.extractLsb' 60 4 = 0xA → 7 ≤ (h.extractLsb' 56 4).toNat → traps 1) ∧
      (h.extractLsb' 60 4 = 0xA → (h.extractLsb' 56 4).toNat < 7 → h.extractLsb' 0 45 ≠ 0 → traps 2)) ∧
    (s.fetchWord w va = .refused → traps 3) ∧
    (∀ p, s.fetchWord w va = .absent p → exec (.clauseStart w) s = .next { s with warps := s.warps.set w { x with hold := .fetch p } }))

/-- Clauses start, or trap at their head: ClausesStart and BadClausesTrap above. -/
def Obligations.ClausesStart : Prop :=
  Claims.ClausesStart ∧ Claims.BadClausesTrap

/-- R64, R80, R221, R287, R309, R310, R353: what holds a warp ends when what it waits for is there, and the warp is as it was otherwise. A warp whose
run-ahead stops is as its checkpoint has it, and waits for its batch. -/
def Obligations.HoldsEnd : Prop :=
  ∀ (s : State) (w : Nat) (x : Warp), s.warp? w = some x →
    let free := { s with warps := s.warps.set w { x with hold := .none } }
    let known := fun (p : Nat) => s.translate (s.ctxIx w) (p * 2 ^ 16) ≠ .absent ∨ s.resolvable (s.ctxIx w) (p * 2 ^ 16) = false
    (∀ p, x.hold = .fetch p → known p → exec (.clauseFetchResolved w) s = .next free) ∧
    (∀ i : Fin 6, x.hold = .issue (.sb i) → x.regs.sb.getD i.val 0 < 63 → exec (.issueWaitEnd w) s = .next free) ∧
    (x.hold = .issue .copies → s.portEntries w < 64 → exec (.issueWaitEnd w) s = .next free) ∧
    (x.hold = .issue .mmas → (s.core (s.clusterOf w) x.core).mmaq.length < 8 → exec (.issueWaitEnd w) s = .next free) ∧
    (x.hold = .issue .stage → s.direct x.block = true → exec (.issueWaitEnd w) s = .next free) ∧
    (∀ k, x.hold = .issue (.count k) → s.mayCount w k = false → exec (.issueWaitEnd w) s = .next free) ∧
    (∀ u, x.hold = .yield u → u ≤ s.clk → s.savedWarp w = false → exec (.yieldExpire w) s = .next free) ∧
    (∀ k, x.ahead = true → x.hold = .stop → s.checkpoints.find? (fun k => k.warp == w) = some k →
      ∃ t y, exec (.runaheadStop w) s = .next t ∧ t.warp? w = some y ∧ y.regs = k.regs ∧ y.clause = k.clause ∧ y.ahead = false ∧
        y.hold = .batch ∧ y.state = .waiting ∧ y.batch = x.batch ∧ ∀ v, v ≠ w → t.regs v = s.regs v) ∧
    (x.hold = .batch → s.savedWarp w = false → (∀ p ∈ x.batch, known p) →
      ∃ t y, exec (.pageBatchResolved w) s = .next t ∧ t.warp? w = some y ∧ y.hold = .none ∧ y.batch = [] ∧ y.regs = x.regs ∧
        y.clause = x.clause ∧ (y.state = .ready ∨ y.state = .active))

/-- R232, R237: a warp that waits for a counter in scratch wakes when the value reaches its threshold or ERR or RETIRED is set, with ERR or
RETIRED in its predicate for each thread that waited; until then it stays. One that releases stays too while an access before it is not performed at its
scope (R229), or a restack stops a wide release (R413). -/
def Obligations.CountersWake : Prop :=
  ∀ (s : State) (w : Nat) (x : Warp) (c : CtrWait) (p : Perm) (l : Loc) (b k : Nat) (entry : Bool), s.warp? w = some x →
    x.hold = .counter [(c, entry)] → s.savedWarp w = false → s.resolve w c.addr = .ok (p, l) → l.place = .scr b k →
    (s.ctrTag l).isSome = true → c.pd.val < x.regs.p.length → x.pendWait = [] → s.openArrival w = none →
    let v := s.ctrWordAt l
    let free := c.rel = false ∨ (s.performedAt w c.before c.scope = true ∧ (s.drainShelf = false ∨ scopeWide c.scope = false))
    let wakes := fun (i : Instr) =>
      (free → c.target.toNat ≤ v.toNat % 2 ^ 62 ∨ v.getLsbD 62 = true ∨ v.getLsbD 63 = true →
        ∃ t y, exec i s = .next t ∧ t.warp? w = some y ∧ (∀ cs, y.hold ≠ .counter cs) ∧
          ∀ u < 32, inMask (y.regs.p.getD c.pd.val 0) u =
            if inMask c.mask u then v.getLsbD 62 || v.getLsbD 63 else inMask (x.regs.p.getD c.pd.val 0) u) ∧
      (¬free ∨ (v.toNat % 2 ^ 62 < c.target.toNat ∧ v.getLsbD 62 = false ∧ v.getLsbD 63 = false) →
        ∃ t, exec i s = .next t ∧ t.warps = s.warps)
    wakes (.counterWake w) ∧ (entry = false → wakes (.counterPoll w))

/-- R338, R339: at a slice boundary, once, and after everything else of its clk (the turns that the agenda names, log 1), a core's load is formed again: some candidate is in it, it fits the limit unless it is one warp alone, and nothing
changes but which warps are in it; one that leaves is READY from now on. -/
def Claims.LoadIsFormedAgain : Prop :=
  ∀ (s : State) (cl core : Nat), (s.clkOver = false → exec (.sliceBoundary cl core) s = .next s) ∧
    (s.clk % 1024 = 0 → (s.core cl core).slicedAt ≠ s.clk → s.clkOver = true →
    ∃ t, exec (.sliceBoundary cl core) s = .next t ∧ { t with warps := s.warps, cores := s.cores } = s ∧ t.warps.length = s.warps.length ∧
      (∀ c k, t.core c k = if c = cl ∧ k = core then { s.core c k with slicedAt := s.clk } else s.core c k) ∧
      (∀ i x y, s.warp? i = some x → t.warp? i = some y →
        { y with state := x.state, readyAt := x.readyAt } = x ∧
        ((i, x) ∉ s.warpsOn cl core → y = x) ∧
        (x.state = .active → (y.state = .active ∧ y.readyAt = x.readyAt) ∨ (y.state = .ready ∧ y.readyAt = s.clk)) ∧
        (x.state = .ready → y.readyAt = x.readyAt ∧ (y.state = .active ∨ y.state = .ready)) ∧
        (x.state ≠ .active → x.state ≠ .ready → y = x)) ∧
      (charges (t.members cl core) ≤ s.leaseLimit cl core ∨ (t.members cl core).length = 1) ∧
      ((s.warpsOn cl core).any (fun p => p.2.state == .active || p.2.state == .ready) = true → t.members cl core ≠ []))

/-- R279, R280, R337, R339: at the end of a window, once, and after everything else of its clk (the turns that the agenda names, log 1), each warp of the core that issued in it has in LINES the count of the L1's lines that carry its
touch bit, LOST 0, and in measured mode GRAN of a sixteenth of LINES, at most 192; a warp that issued nothing keeps its LEASE. -/
def Claims.LeasesAreMeasured : Prop :=
  ∀ (s : State) (cl core : Nat), (s.clkOver = false → exec (.leaseWindowEnd cl core) s = .next s) ∧
    (s.clk % 4096 = 0 → (s.core cl core).windowAt ≠ s.clk → s.clkOver = true →
    let lines := fun (x : Warp) => min ((s.core cl core).l1.filter (fun l => x.touched.contains (lineKey l.asid l.vline))).length 3072
    ∃ t, exec (.leaseWindowEnd cl core) s = .next t ∧ (t.core cl core).loadLimit = none ∧
      ∀ i x, (i, x) ∈ s.warpsOn cl core → ∃ y, t.warp? i = some y ∧ y.touched = [] ∧ y.regs = x.regs ∧
        (x.issued = false → y.lease = x.lease) ∧
        (x.issued = true → y.issued = false ∧ (y.lease.extractLsb' 16 16).toNat = lines x ∧
          y.lease.extractLsb' 32 16 = 0 ∧ y.lease.getLsbD 8 = x.lease.getLsbD 8 ∧
          (y.lease.extractLsb' 0 8).toNat =
            if x.lease.getLsbD 8 then min ((lines x + 15) / 16) 192 else (x.lease.extractLsb' 0 8).toNat))


/-- Slice and window boundaries of the load: LoadIsFormedAgain and LeasesAreMeasured above. -/
def Obligations.LoadBoundaries : Prop :=
  Claims.LoadIsFormedAgain ∧ Claims.LeasesAreMeasured

/-! ### Packets, launches and gangs -/

/-- R324: a packet of 160 bytes submitted to a queue of a live context that exists and is not full stands at its end; else nothing changes. -/
def Claims.PacketsAreQueued : Prop :=
  ∀ (s : State) (ctx q : Nat) (pkt : List Byte) (addr : DWord) (c : Ctx) (d : Queue), s.ctxs[ctx]? = some c → c.queues[q]? = some d →
    (pkt.length = 160 → c.live = true → d.valid = true → d.pkts.length < 2 ^ d.logDepth →
      ∃ t, exec (.packetSubmit ctx q pkt addr) s = .next t ∧
        (t.ctxs[ctx]?).bind (fun c => c.queues[q]?) =
          some { d with pkts := d.pkts ++ [{ bytes := pkt, addr := addr, accepted := false, launch := none }] } ∧
        { t with ctxs := s.ctxs } = s) ∧
    (pkt.length ≠ 160 ∨ c.live = false ∨ d.valid = false ∨ 2 ^ d.logDepth ≤ d.pkts.length → exec (.packetSubmit ctx q pkt addr) s = .next s)

/-- R28, R31, R224, R326, R333, R359: the first packet of a queue that has not been accepted is accepted, where no later queue of the context went
before it at this clk, and gets the context's next launch number, the seed operation's new top and its place in the queue; or, where a condition of R28 is broken, it leaves the queue, starts nothing and changes no seed.
An accepted launch packet keeps R28. That a SIGNAL or a SEED packet takes a launch number too is the model's choice (log 9). -/
def Claims.PacketsAreAccepted : Prop :=
  (∀ (s : State) (ctx q k : Nat) (c : Ctx) (d : Queue) (p : QPkt), s.ctxs[ctx]? = some c → c.queues[q]? = some d → c.live = true →
    d.pkts.zipIdx.find? (fun p => !p.1.accepted) = some (p, k) → ¬(c.acceptedAt.1 = s.clk ∧ q < c.acceptedAt.2) →
    let own := if pktKind p.bytes == 1 && pktDet p.bytes && !pktFwd p.bytes then s.readOwn ctx (pktOwntab p.bytes) else some []
    let why := rejections c p.bytes
    (why = [] → own.isSome = true → ¬(pktKind p.bytes = 1 ∧ pktFwd p.bytes = true) →
      ∃ t c' l, exec (.packetAccept ctx q) s = .next t ∧ t.ctxs[ctx]? = some c' ∧ t.launches = s.launches ++ [l] ∧ l.ix = c.nextLaunch ∧
        c'.nextLaunch = c.nextLaunch + 1 ∧ l.ctx = ctx ∧ l.queue = q ∧ l.pkt = p.bytes ∧ l.started = false ∧ some l.own = own ∧
        l.seed = c'.seeds.headD 0 ∧
        (c'.queues[q]?).map Queue.pkts = some (d.pkts.set k { p with accepted := true, launch := some s.launches.length }) ∧
        (pktSeedop p.bytes = 0 → c'.seeds = c.seeds) ∧
        (pktSeedop p.bytes = 1 → c'.seeds = BitVec.ofNat 128 (leNat ((p.bytes.drop 0x10).take 16)) :: c.seeds) ∧
        (pktSeedop p.bytes = 2 → c'.seeds = c.seeds.drop 1) ∧
        (pktSeedop p.bytes = 3 → c'.seeds = BitVec.ofNat 128 (leNat (shake256
          (leBytes 16 (c.seeds.headD 0).toNat ++ leBytes 4 (pktForkix p.bytes)) 16)) :: c.seeds)) ∧
    (why ≠ [] ∨ own.isNone = true →
      ∃ t c', exec (.packetAccept ctx q) s = .next t ∧ t.ctxs[ctx]? = some c' ∧ t.launches = s.launches ∧ c'.seeds = c.seeds ∧
        (c'.queues[q]?).map Queue.pkts = some (d.pkts.eraseIdx k))) ∧
  ∀ (c : Ctx) (p : List Byte), pktKind p = 1 → rejections c p = [] →
    0 < pktTotalWarps p ∧ pktTotalWarps p ≤ 96 ∧ pktScratch p ≤ 320 * 1024 ∧ pktWaits p ≤ 64 ∧
    (∀ r < 4, 0 < pktWarps p r → roleRegs p r ≤ 320 ∧ (roleLease p r).toNat % 256 ≤ 192 ∧ roleEntry p r ≠ 0 ∧ (roleEntry p r).toNat % 8 = 0) ∧
    (pktRagged p = true → pktRecq p ≠ 0 ∧ pktRecctr p ≠ 0 ∧ (pktRecq p).toNat % 16 = 0) ∧
    (pktFwd p = true → pktNode p ≠ 255) ∧
    (pktFwd p = false → pktNode p = 0 ∧ (pktSeedop p = 1 ∨ pktSeedop p = 3 → c.seeds.length ≠ 16) ∧ (2 ≤ pktSeedop p → c.seeds ≠ []))

/-- Packets are queued and accepted: PacketsAreQueued and PacketsAreAccepted above. -/
def Obligations.PacketsEnterQueues : Prop :=
  Claims.PacketsAreQueued ∧ Claims.PacketsAreAccepted

/-- R29: a packet's DEPCTR lets it start when it is 0 or its value has reached DEPVAL; before that ERR, RETIRED and a lost tag fail it. -/
def Claims.DependencesAreJudged : Prop :=
  ∀ (s : State) (ctx : Nat) (p : List Byte) (t : Trans) (l : Loc),
    (pktDep p = 0 → s.judgeDep ctx p = .met) ∧
    (pktDep p ≠ 0 → (pktDep p).toNat % 8 = 0 → canonical (pktDep p) = true → s.translate ctx (pktDep p).toNat = .ok t →
      t.r = true → t.w = true → s.ctxLoc ctx (pktDep p) = some l → (l.place = .nc ∨ ∃ a, l.place = .glob a) →
      let v := s.ctrWordAt l
      s.judgeDep ctx p =
        if (s.ctrTag l).isNone then .failed 3
        else if (pktDepval p).toNat ≤ v.toNat % 2 ^ 62 then .met
        else if v.getLsbD 62 then .failed 1 else if v.getLsbD 63 then .failed 2 else .waits)

/-- R29, R32, R324, R325, R326: the head of a queue starts when it is accepted, HOLD is 0, device time has reached START and its dependence holds: it
leaves the queue and STARTS counts it. A launch's gangs become eligible, and one of no block finishes; a SIGNAL adds PARAM to DONECTR, a SEED adds 1, here on an NC page with no writable
alias. A failed dependence starts nothing, and the launch ends failed. -/
def Claims.QueueHeadsStart : Prop :=
  ∀ (s : State) (ctx q l : Nat) (c : Ctx) (d : Queue) (p : QPkt) (r : List QPkt) (x : Launch), s.ctxs[ctx]? = some c →
    c.queues[q]? = some d → d.pkts = p :: r → p.accepted = true → d.hold = false → c.live = true → c.switchedOut = false →
    (pktStart p.bytes).toNat ≤ s.time.toNat → p.launch = some l → s.launches[l]? = some x → x.pkt = p.bytes → x.finished = false →
    ¬(pktKind p.bytes = 1 ∧ pktFwd p.bytes = true) →
    let start := fun (i : Instr) (after : State → Prop) =>
      (s.judgeDep ctx p.bytes = .met →
        ∃ t, exec i s = .next t ∧ (t.launches[l]?).map Launch.started = some true ∧
          (t.ctxs[ctx]?).bind (fun c => (c.queues[q]?).map (fun d => (d.pkts, d.starts))) = some (r, (d.starts + 1) % 2 ^ 32) ∧ after t) ∧
      (s.judgeDep ctx p.bytes = .waits → ∃ t, exec i s = .next t ∧ { t with freeCtr := s.freeCtr } = s) ∧
      (∀ why, s.judgeDep ctx p.bytes = .failed why →
        ∃ t, exec i s = .next t ∧ (t.launches[l]?).map (fun x => (x.finished, x.failed)) = some (true, true) ∧
          (t.ctxs[ctx]?).bind (fun c => (c.queues[q]?).map (fun d => (d.pkts, d.starts))) = some (r, d.starts))
    let adds := fun (inc : DWord) (t : State) => ∀ k, s.ctxLoc ctx (pktDone p.bytes) = some k → k.place = .nc → k.addr + 8 ≤ shelfTable →
      (∀ j < 8, s.aliased (k.addr + j) = false) → s.mem.wf = true → s.migrations = [] → (s.ctrTag k).isSome = true → ctrRetired (s.ctrWordAt k) = false →
      t.ctrWordAt k = ctrPlus (s.ctrWordAt k) inc
    (pktKind p.bytes = 1 → start (.launchStart ctx q) (fun t =>
      (t.launches[l]?).map Launch.finished = some (if pktRagged p.bytes then
        x.recordsEnd && x.records.isEmpty && x.blocksDone == x.recordsRead else x.blocksDone == pktBlocks p.bytes))) ∧
    (pktKind p.bytes = 2 → start (.signal ctx q) (fun t => (t.launches[l]?).map Launch.finished = some true ∧
      adds (0#1 ++ (pktParam p.bytes).extractLsb' 0 63) t)) ∧
    (pktKind p.bytes = 3 → start (.seed ctx q) (fun t => (t.launches[l]?).map Launch.finished = some true ∧
      (pktDone p.bytes ≠ 0 → adds 1 t)))

/-- R30: the head of a queue with FWD set is sent to its node once, or, where no live route reaches it, leaves the queue. It leaves when the target has
answered. A packet from a peer enters the queue it is bound to, with FWD and NODE 0, if that queue has room and its saggar is in service. -/
def Claims.PacketsAreForwarded : Prop :=
  (∀ (s : State) (ctx q : Nat) (c : Ctx) (d : Queue) (p : QPkt) (r : List QPkt), s.ctxs[ctx]? = some c → c.queues[q]? = some d →
    d.pkts = p :: r → c.live = true →
    let queue := fun (t : State) => (t.ctxs[ctx]?).bind (fun c => (c.queues[q]?).map (fun d => (d.pkts, d.forwarding)))
    (p.accepted = true → d.hold = false → c.switchedOut = false → pktKind p.bytes = 1 → pktFwd p.bytes = true → d.forwarding = false →
      ∃ t, exec (.packetForward ctx q) s = .next t ∧ t.launches = s.launches ∧
        (s.routed (pktNode p.bytes) = true → queue t = some (d.pkts, true) ∧
          t.reports = s.reports ++ [{ kind := 3, fields := [pktNode p.bytes, c.asid, q] ++ p.bytes.map BitVec.toNat }]) ∧
        (s.routed (pktNode p.bytes) = false → queue t = some (r, false))) ∧
    (d.forwarding = true → ∀ held reason, (held = true ∨ reason = 1 ∨ reason = 3 ∨ reason = 4) →
      ∃ t, exec (.forwardAnswer ctx q held reason) s = .next t ∧ t.launches = s.launches ∧ queue t = some (r, false))) ∧
  ∀ (s : State) (node asid q : Nat) (pkt : List Byte) (b : Binding) (c : Ctx) (d : Queue), pkt.length = 160 →
    (s.bindings.filterMap id).find? (fun b => b.node == node && b.asid == asid && b.q == q) = some b → s.ctxs[b.ctx]? = some c →
    c.queues[b.tq]? = some d →
    (s.partition.serves c.saggar = true → c.live = true → d.valid = true → d.pkts.length < 2 ^ d.logDepth →
      ∃ t p, exec (.forwardReceive node asid q pkt) s = .next t ∧
        (t.ctxs[b.ctx]?).bind (fun c => (c.queues[b.tq]?).map Queue.pkts) = some (d.pkts ++ [p]) ∧ p.accepted = false ∧
        p.bytes.drop 8 = pkt.drop 8 ∧ pktFwd p.bytes = false ∧ pktNode p.bytes = 0 ∧ pktKind p.bytes = pktKind pkt) ∧
    (s.partition.serves c.saggar = false ∨ c.live = false ∨ d.valid = false ∨ 2 ^ d.logDepth ≤ d.pkts.length →
      ∃ t, exec (.forwardReceive node asid q pkt) s = .next t ∧ t.ctxs = s.ctxs)

/-- Queue heads start or are forwarded: DependencesAreJudged, QueueHeadsStart and PacketsAreForwarded above. -/
def Obligations.QueueHeadsStart : Prop :=
  Claims.DependencesAreJudged ∧ Claims.QueueHeadsStart ∧ Claims.PacketsAreForwarded

/-- R33, R34, R330: the scheduler reads the next record below RECCTR's value, no more than 64 ahead of the first block not placed. An invalid record
counts as a failed block. RECCTR untagged or with ERR ends the reading and fails the launch; RETIRED ends it when every record below is read. -/
def Claims.RecordsAreRead : Prop :=
  ∀ (s : State) (l : Nat) (x : Launch) (t : Trans) (k : Loc), s.launches[l]? = some x → x.started = true → x.finished = false →
    x.recordsEnd = false → pktRagged x.pkt = true → pktKind x.pkt = 1 → s.translate x.ctx (pktRecctr x.pkt).toNat = .ok t →
    s.ctxLoc x.ctx (pktRecctr x.pkt) = some k → (pktRecctr x.pkt).toNat % 8 = 0 → t.r = true → t.w = true →
    (k.place = .nc ∨ ∃ a, k.place = .glob a) →
    let v := s.ctrWordAt k
    let n := v.toNat % 2 ^ 62
    let ends := fun (failed : Bool) => ∃ t y, exec (.recordRead l) s = .next t ∧ t.launches[l]? = some y ∧ y.recordsEnd = true ∧
      y.failed = (x.failed || failed) ∧ y.recordsRead = x.recordsRead
    (s.ctrTag k = none → ends true) ∧
    ((s.ctrTag k).isSome = true → v.getLsbD 62 = true → ends true) ∧
    ((s.ctrTag k).isSome = true → v.getLsbD 62 = false → v.getLsbD 63 = true → n ≤ pktBlocks x.pkt → n ≤ x.recordsRead → ends false) ∧
    ((s.ctrTag k).isSome = true → v.getLsbD 62 = false → n ≤ pktBlocks x.pkt → x.recordsRead < n →
      x.recordsRead ≤ x.nextGang * pktGang x.pkt + 64 →
      ∀ r, s.ccRead x.ctx (pktRecq x.pkt + BitVec.ofNat 64 (16 * x.recordsRead)) 16 = some r →
        ∃ t y, exec (.recordRead l) s = .next t ∧ t.launches[l]? = some y ∧ y.recordsRead = x.recordsRead + 1 ∧
          y.records = x.records ++ [(r, x.recordsRead)] ∧
          let w := word64 r 0
          let bad := w.extractLsb' 48 6 = 0 ∨ 32 < (w.extractLsb' 48 6).toNat ∨ w.extractLsb' 54 2 ≠ 0 ∨ (word64 r 8).extractLsb' 32 32 ≠ 0
          (¬bad → y.blocksDone = x.blocksDone ∧ y.failed = x.failed ∧ t.blocks = s.blocks) ∧
          (bad → y.blocksDone = x.blocksDone + 1 ∧ y.failed = true))

/-- R11, R12, R15, R24, R34, R272, R327, R329: a launch whose turn it is places its next gang on a cluster where its blocks fit. Each block has its
warps, which start READY or in the load with their registers as R272 has them; blocks of a launch that is not ragged count on from the gangs placed.
No other warp's registers change. -/
def Claims.GangsArePlaced : Prop :=
  ∀ (s : State) (l cl : Nat) (seats : List (List Nat)) (x : Launch) (d : Due), s.launches[l]? = some x → s.due l = some d → d.again = none →
    let sag := s.saggarOfLaunch l
    d.specs ≠ [] → (s.candidates sag).contains l = true →
    (∀ k ∈ s.candidates sag, k = l ∨ lexLe (s.tryKey l) (s.tryKey k) = true ∨ s.roomFor k = none) → s.clusterServes sag cl = true →
    seatsFit x.pkt (s.clusterUse cl) d.specs.length seats = true →
    ∃ t, exec (.gangPlace l cl seats) s = .next t ∧
      (∃ g, t.gangs = s.gangs ++ [g] ∧ g.launch = l ∧ g.ix = x.nextGang ∧ g.cluster = cl ∧ g.placed = true) ∧
      (t.launches[l]?).map (fun y => (y.nextGang, y.stalled)) = some (x.nextGang + 1, false) ∧
      t.blocks.length = s.blocks.length + d.specs.length ∧
      t.warps.length = s.warps.length + d.specs.length * pktTotalWarps x.pkt ∧
      (∀ w < s.warps.length, t.regs w = s.regs w) ∧
      (∀ k z, d.specs[k]? = some z → ∃ b, t.blocks[s.blocks.length + k]? = some b ∧ b.launch = l ∧ b.gang = s.gangs.length ∧ b.ix = z.ix ∧
        b.ragmask = z.ragmask ∧ b.group = z.group ∧ b.rowbase = z.rowbase ∧ b.rflags = z.rflags ∧ b.paramptr = z.paramptr ∧ b.finished = false) ∧
      (∀ w y, s.warps.length ≤ w → t.warp? w = some y → y.regs = .start (roleRegs x.pkt y.role) (roleEntry x.pkt y.role) ∧ y.clause = none ∧
        (y.state = .ready ∨ y.state = .active) ∧ y.wcr = 0) ∧
      (pktRagged x.pkt = false → ∀ k z, d.specs[k]? = some z → z.ix = x.nextGang * pktGang x.pkt + k ∧ z.ix < pktBlocks x.pkt ∧
        z.ragmask = fullMask ∧ z.paramptr = pktParam x.pkt)

/-- Records are read and gangs placed: RecordsAreRead and GangsArePlaced above. -/
def Obligations.GangsArePlaced : Prop :=
  Claims.RecordsAreRead ∧ Claims.GangsArePlaced

/-- R328: the next gang of a started launch that has found no cluster for 2^20 clk starves. While one starves, the starving launch of the highest PRIO,
and among those the one that started earliest, is served: no gang of another launch of its PRIO or below is placed on the saggar, and launches of higher PRIO
go on. Of two that start at one clk the one accepted first is served (the model's choice, log 30). -/
def Obligations.PlacementStarves : Prop :=
  (∀ (s : State) (l : Nat) (x : Launch), s.launches[l]? = some x → x.stalled = false → (s.due l).isSome = true → s.roomFor l = none →
    (x.starvedAt + 2 ^ 20 ≤ s.clk → exec (.placementStarve l) s = .next { s with launches := s.launches.set l { x with stalled := true } }) ∧
    (s.clk < x.starvedAt + 2 ^ 20 → exec (.placementStarve l) s = .next s)) ∧
  ∀ (s : State) (l k : Nat) (x y : Launch), s.launches[l]? = some x → s.launches[k]? = some y → x.stalled = true → x.finished = false →
    s.saggarOfLaunch k = s.saggarOfLaunch l →
    (∀ (j : Nat) (z : Launch), s.launches[j]? = some z → z.stalled = true → z.finished = false → s.saggarOfLaunch j = s.saggarOfLaunch l →
      pktPrio z.pkt < pktPrio x.pkt ∨ (pktPrio z.pkt = pktPrio x.pkt ∧
        (x.startedAt < z.startedAt ∨ (x.startedAt = z.startedAt ∧ l ≤ j)))) →
    (k ≠ l → pktPrio y.pkt ≤ pktPrio x.pkt → ∀ cl seats, exec (.gangPlace k cl seats) s = .next s) ∧
    (k = l ∨ pktPrio x.pkt < pktPrio y.pkt → s.mayTry k = true)

/-- R32, R220, R250, R365, R386: a block whose work has ended, and whose turn it is in a deterministic launch, is finished: its scratch holds no
counter any more, its claims end, and its launch counts it, and is finished with its last block. While a write of it cannot be written back, or a counter that a
slice left in its collectors names stands on a page that is absent and can be resolved (R247), it is not finished. -/
def Claims.BlocksFinish : Prop :=
  ∀ (s : State) (b : Nat) (x : Block) (l : Launch), s.blocks[b]? = some x → s.launches[x.launch]? = some l → s.blockEnded b = true →
    (s.detOf b = false ∨ x.ix < l.next) →
    ((s.performDevice b).2.isSome = true ∨ s.orphansReady b = false → exec (.blockFinish b) s = .next s) ∧
    ((s.performDevice b).2 = none → s.orphansReady b = true →
    ∃ t, exec (.blockFinish b) s = .next t ∧ (t.blocks[b]?).map Block.finished = some true ∧
      (∀ g ∈ t.tags, ofBlock g.loc.place b = false) ∧ (∀ c ∈ t.cores, c.claim ≠ some b) ∧
      (t.launches[x.launch]?).map Launch.blocksDone = some (l.blocksDone + 1) ∧
      (l.started = true → l.finished = false → pktRagged l.pkt = false →
        (t.launches[x.launch]?).map Launch.finished = some (l.blocksDone + 1 == pktBlocks l.pkt)))

/-- R319, R351, R353: in a deterministic launch the staged writes of the block that NEXT names are released when it has ended, and NEXT goes on, once its
writes are at DEVICE scope (R393). A counter that an instruction with the trap policy has reserved is waited for (R318). -/
def Claims.TicketsAreReleased : Prop :=
  ∀ (s : State) (l b : Nat) (x : Launch), s.launches[l]? = some x → pktDet x.pkt = true →
    (List.range s.blocks.length).find? (fun b => ((s.blocks[b]?).map (fun k => k.launch == l && k.ix == x.next && !k.finished)).getD false) =
      some b → s.blockEnded b = true →
    (s.unreserved b = false → exec (.ticketRelease l) s = .next s) ∧
    (s.unreserved b = true →
    ∃ t, exec (.ticketRelease l) s = .next t ∧
      (((s.releaseStaged b).performDevice b).2 = none → (t.launches[l]?).map (fun y => (y.next, y.early)) = some (x.next + 1, none)) ∧
      (((s.releaseStaged b).performDevice b).2.isSome = true → (t.launches[l]?).map (fun y => (y.next, y.early)) = some (x.next, x.early)) ∧
      (∀ w, t.regs w = s.regs w) ∧
      ∀ k ∈ s.stagedReqs b, ∀ a, s.accs[k.1]? = some a → a.op.isLc = false → ∃ c r, t.accs[k.1]? = some c ∧ c.reqs[k.2]? = some r ∧ r.done = true)


/-- Blocks finish in their order: BlocksFinish and TicketsAreReleased above. -/
def Obligations.BlocksEnd : Prop :=
  Claims.BlocksFinish ∧ Claims.TicketsAreReleased

/-! ### Caches, pages and fences -/

/-- R301: a grant lays a core's pending bytes over the line of its cluster, here one that may be written, and they are the core's own; the cluster's other L1s keep only bytes that
wait for grants of their own. -/
def Claims.OwnershipIsGranted : Prop :=
  ∀ (s : State) (cl core asid vline : Nat) (l k : Line), findLine (s.core cl core).l1 asid vline = some l → l.pending = true →
    findLine (s.ccLines cl) asid vline = some k → k.w = true →
    (∀ c, ((s.core cl c).l1.filter (fun q => q.asid == asid && q.vline == vline)).length ≤ 1) →
    ∃ t y z, exec (.ownershipGrant cl core asid vline) s = .next t ∧ findLine (t.core cl core).l1 asid vline = some y ∧
      findLine (t.ccLines cl) asid vline = some z ∧
      (∀ i < 128, y.byte i = if (l.byte i).st = .pending ∨ (l.byte i).st = .dirty then { v := (l.byte i).v, st := .dirty }
        else { v := (z.byte i).v, st := .clean }) ∧
      (∀ c ≠ core, ∀ q, findLine (t.core cl c).l1 asid vline = some q → ∀ b ∈ q.bytes, b.st = .pending ∨ b.st = .invalid) ∧
      ∀ w, t.regs w = s.regs w

/-- R297, R298, R302: where a way of its set is free, a fill takes a line with its bytes and its page's permissions from the next level: the LLC's from
its frame, over a live shelf (R411), a cluster cache's from the LLC, an L1's from its cluster cache. A line that an L1 evicts leaves its dirty bytes in the cluster cache, which
takes them where it may be written. -/
def Claims.LinesFillAndLeave : Prop :=
  ∀ (s : State) (cl core asid vline : Nat),
    (∀ c t, (s.wanted cl core asid vline false).isSome = true → findLine s.llc asid vline = none → s.ctxOfAsid asid = some c →
      s.translate c (vline * 128) = .ok t → t.attr = 0 → (s.llcSet asid vline).length < s.llcWays asid vline → s.migrations = [] →
      (s.channelShelf t.phys).isSome = true →
      ∃ u l, exec (.lineFill .llc cl core asid vline none) s = .next u ∧ findLine u.llc asid vline = some l ∧
        (l.r, l.w, l.x) = (t.r, t.w, t.x) ∧ (∀ i < 128, l.byte i = { v := s.mem.read (t.phys + i), st := .clean }) ∧ u.mem = s.mem) ∧
    (∀ l, (s.wanted cl core asid vline true).isSome = true → findLine (s.ccLines cl) asid vline = none → findLine s.llc asid vline = some l →
      (s.ccSet cl vline).length < 16 →
      ∃ u k, exec (.lineFill .cc cl core asid vline none) s = .next u ∧ findLine (u.ccLines cl) asid vline = some k ∧
        (k.r, k.w, k.x) = (l.r, l.w, l.x) ∧ (∀ i, (k.byte i).v = (l.byte i).v) ∧ k.dirty = false) ∧
    (∀ k, (s.wanted cl core asid vline true).isSome = true → findLine (s.core cl core).l1 asid vline = none →
      findLine (s.ccLines cl) asid vline = some k → (s.l1Set cl core vline).length < s.l1Ways cl core →
      ∃ u l k', exec (.lineFill .l1 cl core asid vline none) s = .next u ∧ findLine (u.core cl core).l1 asid vline = some l ∧
        findLine (u.ccLines cl) asid vline = some k' ∧ (l.r, l.w, l.x) = (k.r, k.w, k.x) ∧ (∀ i, (l.byte i).v = (k'.byte i).v) ∧ l.dirty = false) ∧
    (∀ l k, core < 8 → findLine (s.core cl core).l1 asid vline = some l → l.pending = false → l.held = false →
      findLine (s.ccLines cl) asid vline = some k → (l.dirty = false ∨ k.w = true) →
      ∃ u k', exec (.accessPerformed (.writeBack cl core asid vline)) s = .next u ∧ findLine (u.core cl core).l1 asid vline = none ∧
        findLine (u.ccLines cl) asid vline = some k' ∧
        ∀ i < 128, k'.byte i = if (l.byte i).st = .dirty then l.byte i else k.byte i)

/-- Cache lines are granted, filled and evicted: OwnershipIsGranted and LinesFillAndLeave above. -/
def Obligations.LinesMove : Prop :=
  Claims.OwnershipIsGranted ∧ Claims.LinesFillAndLeave

/-- R299, R303, R304, R346, R347: while dies have power, a shelf is live and no restack has stopped injection, a walk enters the translation it finds into
the first of its stations, none of which has it, and which stays what it was; the live-shelf table's page (R357) is not walked. A mapping is written where
none stood; a recall changes one, drops its translations, and gives its cached lines the new permissions, or drops them where the page is not normal any
more. Both hold at every place where tables of live contexts reach the entry. A recall waits for accesses to those pages and takes no frame that a window
exports (R423). An entry that maps LCM pages, or names a table, is stated of an LLC that need write nothing back for its pinned lines. -/
def Claims.MappingsChange : Prop :=
  (∀ (s : State) (asid va c : Nat) (t : Trans), s.ctxOfAsid asid = some c → va < 2 ^ 57 → s.translate c va = .ok t →
    (s.tlb.any (fun e => (s.stationsAt asid va).contains e.station && e.asid == asid && e.va ≤ va && va < e.va + e.size)) = false →
    (s.tlb.filter (fun e => e.station == s.stationAt asid va)).length < 8192 → va / 2 ^ 16 ≠ shelfVa / 2 ^ 16 → s.mayWalk c = true →
    ∃ u e, exec (.pageWalk asid va) s = .next u ∧ u.tlb = e :: s.tlb ∧ e.station = s.stationAt asid va ∧ e.asid = asid ∧ e.va ≤ va ∧ va < e.va + e.size ∧
      u.translate c va = .ok t) ∧
  ∀ (s : State) (asid va level a : Nat) (old pte : DWord), s.pteAt asid va level = some (a, old) → s.mem.wf = true →
    let size := levelSize level
    let base := va % 2 ^ 57 / size * size
    let sites := s.sitesOf asid base level a
    s.refusedAt level pte sites = false → a + 8 ≤ lcmKey 0 0 →
    (leafAttr pte = some 1 ∨ (pte.getLsbD 0 = true ∧ pte.getLsbD 1 = false) → ∀ l ∈ s.llc, l.dirty = false) →
    let permits := fun (t : State) =>
      let ls := t.llc ++ t.clusters.flatMap Cluster.lines ++ t.cores.flatMap Core.l1
      ∀ l ∈ ls, lineIn asid base size l = true →
        (leafAttr pte = some 0 → l.r = pte.getLsbD 2 ∧ l.w = pte.getLsbD 3 ∧ l.x = pte.getLsbD 4) ∧
        (leafAttr pte = none → l.r = false ∧ l.w = false ∧ l.x = false) ∧ (∀ k, leafAttr pte = some k → k = 0)
    (old.getLsbD 0 = false → pte.getLsbD 0 = true →
      ∃ t, exec (.mapPage asid va level pte) s = .next t ∧ read64 t.mem a = pte ∧ (pte.getLsbD 1 = true → 2 ≤ level → permits t)) ∧
    (old.getLsbD 0 = true → old.getLsbD 1 = true →
      s.migrations.any (fun g => g.asid == asid && g.va < base + size && base < g.va + g.size) = false →
      s.sitesBusy level old sites = false → s.takesExport size old pte = false →
      ∃ t, exec (.recall asid va level pte) s = .next t ∧ read64 t.mem a = pte ∧
        ((pte.getLsbD 0 = true → pte.getLsbD 1 = true) → permits t) ∧
        (∀ e ∈ t.tlb, ¬(e.asid = asid ∧ e.va < base + size ∧ base < e.va + e.size)) ∧
        (leafAttr pte ≠ leafAttr old → ∀ g ∈ t.tags, ¬(g.loc.place = .glob asid ∧ base ≤ g.loc.addr ∧ g.loc.addr < base + size)))

/-- R311, R348: a migration points the page's entry at the new frame, with MIG, and holds a record with no valid line; a pull of a line that is not the
page's last moves it into the new frame, over a live shelf (R411) and but while a restack stops injection (R413), so that reads of it find what they
found before. A page that may be written does not go to frames that a window exports (R422). -/
def Claims.PagesMigrate : Prop :=
  (∀ (s : State) (asid va frame c a : Nat) (t : Trans) (e : DWord), s.ctxOfAsid asid = some c → s.translate c va = .ok t →
    s.pteAt asid (va % 2 ^ 57) (if t.size = 2 ^ 21 then 3 else 4) = some (a, e) → t.size ≠ 2 ^ 30 → (t.attr = 0 ∨ t.attr = 2) →
    e.getLsbD 11 = false → frame % t.size = 0 → frame < 2 ^ 52 → s.exported (leafFrame e) t.size = false →
    (s.migrations.filter (fun g => s.stationAt g.asid g.va == s.stationAt asid t.page)).length < 16 → s.noRoom asid t.page frame t.size = false →
    leafAttr e = some t.attr → s.mem.wf = true → s.powered = true →
    (t.attr = 0 → e.getLsbD 3 = true → s.exported frame t.size = false) →
    ∃ u p, exec (.migrationStart asid va frame) s = .next u ∧ read64 u.mem a = p ∧ leafFrame p = frame ∧ p.getLsbD 11 = true ∧
      p.extractLsb' 0 11 = e.extractLsb' 0 11 ∧ p.extractLsb' 52 12 = e.extractLsb' 52 12 ∧
      u.migrations = s.migrations ++ [{ asid := asid, va := t.page, size := t.size, old := leafFrame e, new := frame, valid := [] }] ∧
      ∀ w, u.regs w = s.regs w) ∧
  ∀ (s : State) (asid va : Nat) (g : Migration), s.mem.wf = true → s.recalls = [] → va < 2 ^ 57 →
    s.migrations.find? (fun g => g.asid == asid && g.va ≤ va && va < g.va + g.size) = some g →
    s.migrations.find? (fun h => h.new ≤ g.new + (va - g.va) && g.new + (va - g.va) < h.new + h.size) = some g →
    s.migrations.find? (fun h => h.asid == asid && h.va == g.va) = some g →
    let i := (va - g.va) / 128
    g.valid.contains i = false → g.valid.length + 1 < g.size / 128 → s.powered = true → s.drainShelf = false →
    (s.channelShelf (g.old + (va - g.va))).isSome = true →
    ∃ u, exec (.migrationPull asid va) s = .next u ∧
      (∀ j < 128, u.mem.read (g.new + 128 * i + j) = s.mem.read (g.old + 128 * i + j)) ∧
      (∀ x, x < g.new + 128 * i ∨ g.new + 128 * i + 128 ≤ x → u.mem.read x = s.mem.read x) ∧
      u.migrations.find? (fun g => g.asid == asid && g.va ≤ va && va < g.va + g.size) = some { g with valid := i :: g.valid }

/-- Mappings change and pages migrate: MappingsChange and PagesMigrate above. -/
def Obligations.PagesChange : Prop :=
  Claims.MappingsChange ∧ Claims.PagesMigrate

/-- R211, R212, R214: a fence ends when the accesses it orders have been performed and its write-backs are taken, which a restack may delay (R413); a refused one raises WBACK with the line's
address. A FENCEOP that no fence precedes ends when the warp's stores before it have been performed and it has observed none that waits for a
grant. -/
def Obligations.FencesComplete : Prop :=
  ∀ (s : State) (w : Nat) (x : Warp), s.warp? w = some x →
    (∀ sc m f, x.clause.isSome = true → x.hold = .fence sc m → x.pending = some f →
      (m = .rel ∨ m = .ar → s.performedAt w s.accs.length sc = true) → (m = .acq ∨ m = .ar → s.readsDone w = true) →
      (m = .acq ∨ scopeWide sc = false ∨ s.drainShelf = false) →
      ((m = .acq ∨ (s.release w sc).2 = none) → ∃ t, exec (.fenceComplete w) s = .next t ∧ (t.warp? w).map Warp.hold ≠ some (.fence sc m)) ∧
      (∀ ln c, m ≠ .acq → (s.release w sc).2 = some ln → x.clause = some c →
        ∃ t y, exec (.fenceComplete w) s = .next t ∧ t.warp? w = some y ∧ y.state = .trapped ∧
          y.fault[1]? = some (0x19#32 ++ x.acting) ∧ y.fault[2]? = some (BitVec.ofNat 64 (128 * ln)) ∧ y.regs = x.regs)) ∧
    (∀ a n, (∀ sc m, x.hold ≠ .fence sc m) → x.observed = [] →
      s.accs.zipIdx.find? (fun (a, _) => a.warp == w && a.op == .fenceop && !a.wb) = some (a, n) →
      (∀ b ∈ s.accs.take n, b.warp = w → b.op = .store → ∀ r ∈ b.reqs, r.done = true) →
      exec (.fenceComplete w) s = .next { s with accs := s.accs.modify n (fun a => { a with wb := true }) })


/-! ### Copies and the matrix engine as they run -/

/-- R239, R240, R241: the byte count of a copy, and where each byte comes from and goes to. -/
def Claims.CopyAddresses : Prop :=
  ∀ (c : Copy),
    let d := fun (i lo n : Nat) => ((c.d i).toNat / 2 ^ lo) % 2 ^ n
    let plus := fun (x : DWord) (n : Nat) => x + BitVec.ofNat 64 n
    (c.kind = .copy → c.ownCount = (d 2 32 16 + 1) * d 2 0 32 ∧
      ∀ row i, i < d 2 0 32 → c.addrs (row * d 2 0 32 + i) = some (plus (c.d 0) (row * d 3 0 32 + i), plus (c.d 1) (row * d 3 32 32 + i))) ∧
    (∀ ix, c.kind = .gather ix → c.ownCount = d 3 0 32 * d 3 32 16 ∧
      ∀ j i x, i < d 3 32 16 → c.ixs.find? (fun y => y.1 == j) = some (j, x) → c.addrs (j * d 3 32 16 + i) =
        some (plus (c.d 0 + x * BitVec.ofNat 64 (d 3 32 16)) i, plus (c.d 1) (j * d 3 32 16 + i))) ∧
    (∀ ix, c.kind = .scatter ix → c.ownCount = d 3 0 32 * d 3 32 16 ∧
      ∀ j i x, i < d 3 32 16 → c.ixs.find? (fun y => y.1 == j) = some (j, x) → c.addrs (j * d 3 32 16 + i) =
        some (plus (c.d 0) (j * d 3 32 16 + i), plus (c.d 1 + x * BitVec.ofNat 64 (d 3 32 16)) i)) ∧
    (∀ f, c.kind = .unpack f → c.ownCount = d 3 0 32 * (1 + 4 * bfpBits f) ∧
      ∀ j, c.addrs (j * (1 + 4 * bfpBits f)) = some (plus (c.d 0) (j * (1 + 4 * bfpBits f)), plus (c.d 2) j) ∧
        ∀ i < 4 * bfpBits f, c.addrs (j * (1 + 4 * bfpBits f) + 1 + i) =
          some (plus (c.d 0) (j * (1 + 4 * bfpBits f) + 1 + i), plus (c.d 1) (j * (4 * bfpBits f) + i)))

/-- R239, R241, R246, R248: a running copy reads each index and each byte once, and writes each byte that it has read once, to its place, here in
scratch or on an NC page that does not migrate; the byte of a later item of a SCATTER remains. In a gang that is being stopped it begins no new sector or
item (R407). -/
def Claims.CopiesMoveBytes : Prop :=
  ∀ (s : State) (i k : Nat) (c : Copy), s.copies[i]? = some c → s.copyRuns i c = true → s.copyStatic i c = none → c.gen = [] →
    s.detOf (((s.warp? c.warp).map Warp.block).getD 0) = false →
    (∀ sa da p l, k < c.ownCount → c.addrs k = some (sa, da) → (∀ x ∈ c.reads, x.1 ≠ k) → k ∉ c.done → s.copyReads c sa = .ok p l →
      (placeKey l).isSome = true → (l.place ≠ .nc ∨ s.migrations = []) → s.injects l = true → s.enginePoison c.warp l 1 = false →
      exec (.accessPerformed (.copyRead i k)) s =
        .next { s with copies := s.copies.modify i (fun c => { c with reads := c.reads ++ [(k, s.placeRead l 0)] }) }) ∧
    (∀ sa da p l q v, k < c.ownCount → c.addrs k = some (sa, da) → c.reads.find? (fun x => x.1 == k) = some (k, v) → k ∉ c.done →
      s.flowWaits i = false → s.copyWrites c da = .ok p l → s.injects l = true → placeKey l = some q → s.mem.wf = true → s.migrations = [] →
      (s.stoppingWarp c.warp = false ∨ c.done.any (fun j => s.sameUnit i c j k) = true) →
      ∃ t, exec (.accessPerformed (.copyWrite i k)) s = .next t ∧
        t.copies = s.copies.modify i (fun c => { c with done := c.done ++ [k] }) ∧ (∀ w, t.regs w = s.regs w) ∧
        (if s.laterItem i k c da then t.mem = s.mem else Memory.with s.mem t.mem q 1 (v.setWidth 64))) ∧
    (s.stoppingWarp c.warp = true → c.done.any (fun j => s.sameUnit i c j k) = false →
      exec (.accessPerformed (.copyWrite i k)) s = .next s) ∧
    (∀ ty p l, c.idx = some ty → k < c.indexCount → (∀ x ∈ c.ixs, x.1 ≠ k) → s.indexReads c k = .ok p l → (placeKey l).isSome = true →
      (l.place ≠ .nc ∨ s.migrations = []) → s.injects l = true → s.enginePoison c.warp l (idxBytes ty) = false →
      exec (.accessPerformed (.copyRead i (c.ownCount + k))) s =
        .next { s with copies := s.copies.modify i (fun c => { c with ixs := c.ixs ++
          [(k, if ty = .i32 then ((s.placeVal l 4).setWidth 32).signExtend 64 else s.placeVal l (idxBytes ty))] }) })

/-- R242, R246, R247, R331, R356: a port that runs fewer than 8 copies starts one of the context whose turn it is: one passed over 4,096 times, else
that of the highest bucket priority, else the earliest. A copy's release counter receives N when its sources have been read, its visibility
counter when every byte has been written and, in an ordered flow, every earlier copy of it has ended, and the copy ends with both. The priority is the byte
that stands in memory as the port picks (the model's choice, log 69: R356 lets it be 2,048 clk old). A copy that fails sets ERR in each of its counters. -/
def Claims.CopiesStartAndEnd : Prop :=
  (∀ (s : State) (cl core ctx i : Nat), s.pickCopy cl core = some (ctx, i) →
    (s.copies.filter (fun c => c.state == .running && s.seat c.warp == (cl, core))).length < 8 →
    (∃ t, exec (.copyStart cl core) s = .next t ∧ (t.copies[i]?).map Copy.state = some .running ∧ (t.core cl core).served = ctx ∧
      ∀ j, j ≠ i → (t.copies[j]?).map Copy.state = (s.copies[j]?).map Copy.state) ∧
    ∃ c, s.copies[i]? = some c ∧ c.state = .queued ∧ s.seat c.warp = (cl, core) ∧ s.ctxIx c.warp = ctx ∧
      ∀ j d, s.copies[j]? = some d → d.state = .queued → s.seat d.warp = (cl, core) → s.savedWarp d.warp = false → s.ctxIx d.warp = ctx →
        4096 ≤ c.passed ∨ (d.passed < 4096 ∧ (s.bucketPrio ctx d.bucket < s.bucketPrio ctx c.bucket ∨
          (s.bucketPrio ctx d.bucket = s.bucketPrio ctx c.bucket ∧ i ≤ j)))) ∧
  ∀ (s : State) (i : Nat) (c : Copy), s.copies[i]? = some c → s.copyRuns i c = true → c.gen = [] → s.mem.wf = true →
    let adds := fun (ctr : DWord) (t : State) =>
      ∀ l, LiveCounter s c.warp ctr l → t.ctrWordAt l = ctrPlus (s.ctrWordAt l) (BitVec.ofNat 64 c.ownCount)
    (s.copyStatic i c = none → s.allRead i c = true → c.rels = false → s.ctrReady c.warp (c.d 4) = true →
      ∃ t, exec (.copySourceReadDone i) s = .next t ∧ adds (c.d 4) t ∧
        (t.copies[i]?).map (fun c => (c.rels, c.state)) = some (true, if c.vis then .done else .running)) ∧
    (s.copyStatic i c = none → s.allRead i c = true → c.vis = false → (∀ k < c.ownCount, k ∈ c.done) →
      s.ctrReady c.warp (c.d 5) = true → s.flowAhead i = false →
      ∃ t, exec (.copyComplete i) s = .next t ∧ adds (c.d 5) t ∧
        (t.copies[i]?).map (fun c => (c.vis, c.state)) = some (true, if c.rels then .done else .running)) ∧
    (s.flowAhead i = true → exec (.copyComplete i) s = .next s) ∧
    (∀ r item x, s.copyFault i c = some (r, item, x) → s.ctrReady c.warp (c.d 4) = true → s.ctrReady c.warp (c.d 5) = true →
      ∃ t, exec (.copyFail i) s = .next t ∧ (t.copies[i]?).map Copy.state = some .failed ∧
        ∀ ctr ∈ [c.d 4, c.d 5], ∀ l, LiveCounter s c.warp ctr l →
          t.ctrWordAt l = ctrPlus (s.ctrWordAt l) (BitVec.ofNat 64 (2 ^ 62)))

/-- R247, R310: a copy that waits for a page goes on when the page has come, or is declared unresolvable. In a deterministic launch it may then be
known to stage a write, and counts as one staged item (R351). -/
def Claims.CopiesWaitForPages : Prop :=
  ∀ (s : State) (i p : Nat) (c : Copy), s.copies[i]? = some c → c.waitPage = some p →
    (s.translate (s.ctxIx c.warp) (p * 2 ^ 16) ≠ .absent ∨ s.resolvable (s.ctxIx c.warp) (p * 2 ^ 16) = false →
      ∃ t b, exec (.copyPageResolved i) s = .next t ∧ t.copies = s.copies.set i { c with waitPage := none, staged := b } ∧
        { t with copies := s.copies, ctxs := s.ctxs } = s ∧
        (s.detOf (((s.warp? c.warp).map Warp.block).getD 0) = false → b = c.staged ∧ t.ctxs = s.ctxs)) ∧
    (s.translate (s.ctxIx c.warp) (p * 2 ^ 16) = .absent → s.resolvable (s.ctxIx c.warp) (p * 2 ^ 16) = true →
      exec (.copyPageResolved i) s = .next s)

/-- Copies run: CopyAddresses, CopiesMoveBytes, CopiesStartAndEnd and CopiesWaitForPages above. -/
def Obligations.CopiesRun : Prop :=
  Claims.CopyAddresses ∧ Claims.CopiesMoveBytes ∧ Claims.CopiesStartAndEnd ∧ Claims.CopiesWaitForPages

/-- R259, R261, R262, R264: the next MMA of an engine's queue starts with its progress register BUSY at ROWS 0; one whose block breaks R259 or R258 leaves
the queue and sets ERR in its counter. -/
def Claims.MatrixOperationsStart : Prop :=
  ∀ (s : State) (cl core : Nat) (m : Mma) (r : List Mma), (s.core cl core).mmaq = m :: r → m.running = false → s.savedWarp m.warp = false →
    (s.core cl core).prog.length = 16 →
    (mmaStatic m.blk = none →
      ∃ t, exec (.mmaStart cl core) s = .next t ∧ (t.core cl core).mmaq = { m with running := true } :: r ∧
        (t.core cl core).acc = (s.core cl core).acc ∧
        (t.core cl core).prog[mmaPROG m.blk]? = some (1#1 ++ 0#31 ++ m.addr.extractLsb' 0 32)) ∧
    (∀ why, mmaStatic m.blk = some why → s.ctrReady m.warp (mmaCtr m.blk) = true →
      ∃ t, exec (.mmaStart cl core) s = .next t ∧ (t.core cl core).mmaq = r ∧ (t.core cl core).acc = (s.core cl core).acc ∧
        ∀ l, s.mem.wf = true → LiveCounter s m.warp (mmaCtr m.blk) l → t.ctrWordAt l = ctrPlus (s.ctrWordAt l) (BitVec.ofNat 64 (2 ^ 62)))

/-- R251, R258, R259, R261, R263: a band commits together: its words of the store change and no other, and ROWS counts it. INT32 accumulators add, modulo
2^32, the sum over k of the products of the elements of row i of A and row j of B; here the rows lie in the own window. -/
def Claims.MatrixBandsCommit : Prop :=
  ∀ (s : State) (cl core : Nat) (m : Mma), MayRun s cl core m →
    let b := m.blk
    let band := progRows (s.progOf cl core m) / 32
    let k := s.core cl core
    band < mmaMB b → mmaMB b ≤ 4 → s.anyStopped ((s.bandJudges m band).map (fun x => x.2.2)) = false →
    ((∃ x ∈ s.bandJudges m band, x.2.2.isAbsent = true) → (∀ x ∈ s.bandJudges m band, x.2.2.reason = none) →
      ∃ t, exec (.mmaBandCommit cl core) s = .next t ∧ (t.core cl core).acc = k.acc ∧ (t.core cl core).mmaq = k.mmaq ∧
        progWait (t.progOf cl core m) = true ∧ progRows (t.progOf cl core m) = progRows (s.progOf cl core m)) ∧
    ((∀ x ∈ s.bandJudges m band, ∃ p l, x.2.2 = .ok p l) → s.bandPoison cl core m band = false →
      ∃ t, exec (.mmaBandCommit cl core) s = .next t ∧ (t.core cl core).mmaq = k.mmaq ∧ (∀ w, t.regs w = s.regs w) ∧
        progRows (t.progOf cl core m) = 32 * (band + 1) ∧ progWait (t.progOf cl core m) = false ∧
        (∀ n, (∀ i < 32, ∀ j < 32 * mmaNB b, n ≠ tileWord b (32 * band + i) j) → accRead (t.core cl core).acc n = accRead k.acc n) ∧
        ∀ x, s.warp? m.warp = some x → (mmaA b).bfp = false → (mmaB b).bfp = false → (mmaA b).ty = some .i8 → (mmaB b).ty = some .i8 →
          k.undef = [] →
          let off := fun (o : Operand) => o.addr.toNat - winBase
          let fits := fun (o : Operand) (rows : Nat) => winBase ≤ o.addr.toNat ∧ s.scratchOf x.block ≤ 0x50000 ∧
            ∀ i < rows, off o + i * o.stride + 32 * mmaKB b ≤ s.scratchOf x.block
          let elem := fun (o : Operand) (i q : Nat) => (s.mem.read (scrKey x.block x.core (off o + i * o.stride + q))).toInt
          fits (mmaA b) (32 * (band + 1)) → fits (mmaB b) (32 * mmaNB b) →
          ∀ i < 32, ∀ j < 32 * mmaNB b,
            accRead (t.core cl core).acc (tileWord b (32 * band + i) j) = accRead k.acc (tileWord b (32 * band + i) j) +
              BitVec.ofInt 32 (((List.range (32 * mmaKB b)).map (fun q => elem (mmaA b) (32 * band + i) q * elem (mmaB b) j q)).sum))

/-- R251, R257, R261, R262, R266: after its last band an MMA spills each element of its tile to its place, clears its segments where ZERO asks for
it, but for words that R270 leaves undefined, adds 1 to its counter, and leaves the queue, with its progress register no longer BUSY. -/
def Claims.MatrixOperationsEnd : Prop :=
  ∀ (s : State) (cl core : Nat) (m : Mma), MayRun s cl core m → s.mem.wf = true → s.migrations = [] →
    let b := m.blk
    let k := s.core cl core
    let p := s.progOf cl core m
    mmaMB b ≤ progRows p / 32 → s.ctrReady m.warp (mmaCtr b) = true →
    (mmaOut b ≠ 0 → s.spillHeld m = false ∧ s.spillFault cl core m = none ∧ s.anyStopped ((spillElems b).map (s.spillJudge m)) = false ∧
      ∀ e ∈ spillElems b, ∃ q l, s.spillJudge m e = .ok q l) →
    ∃ t, exec (.mmaBandCommit cl core) s = .next t ∧ (t.core cl core).mmaq = k.mmaq.drop 1 ∧
      progRows (t.progOf cl core m) = progRows p ∧ (t.progOf cl core m).getLsbD 63 = false ∧ (∀ w, t.regs w = s.regs w) ∧
      (∀ l, LiveCounter s m.warp (mmaCtr b) l → t.ctrWordAt l = ctrPlus (s.ctrWordAt l) 1) ∧
      (mmaOut b = 0 → (t.core cl core).acc = k.acc) ∧
      (mmaOut b ≠ 0 →
        (∀ n, n ∉ k.undef → accRead (t.core cl core).acc n =
          if fmtBits (mmaOfmt b) 8 1 = 1 ∧ mmaACC b ≤ n / 1024 ∧ n / 1024 < mmaACC b + mmaMB b * mmaNB b then 0 else accRead k.acc n) ∧
        ((∀ e ∈ spillElems b, ∀ q l, s.spillJudge m e = .ok q l → ∃ c d, l.place = .scr c d) →
          (spillElems b).Pairwise (fun e f => ∀ q l q' l', s.spillJudge m e = .ok q l → s.spillJudge m f = .ok q' l' →
            l.place ≠ l'.place ∨ l.addr + spillSize b ≤ l'.addr ∨ l'.addr + spillSize b ≤ l.addr) →
          mmaCtr b = 0 → ∀ e ∈ spillElems b, ∀ q l, s.spillJudge m e = .ok q l →
            t.placeVal l (spillSize b) = BitVec.ofNat 64 (boundValue (s.spillValue cl core m e) % 2 ^ (8 * spillSize b))))

/-- R263, R264, R266: the running MMA goes on when the pages it waits for have come. One that meets a fault leaves the queue with ERR in its counter
and its committed rows as they are. -/
def Claims.MatrixOperationsWaitAndFail : Prop :=
  (∀ (s : State) (cl core : Nat) (m : Mma), s.runningMma cl core = some m → (s.core cl core).prog.length = 16 →
    progWait (s.progOf cl core m) = true →
    (if progRows (s.progOf cl core m) / 32 < mmaMB m.blk then
      ∀ x ∈ s.bandJudges m (progRows (s.progOf cl core m) / 32), x.2.2.isAbsent = false
    else ∀ e ∈ spillElems m.blk, (s.spillJudge m e).isAbsent = false) →
    ∃ t, exec (.mmaRestart cl core) s = .next t ∧ progWait (t.progOf cl core m) = false ∧
      progRows (t.progOf cl core m) = progRows (s.progOf cl core m) ∧ (t.core cl core).acc = (s.core cl core).acc ∧
      (t.core cl core).mmaq = (s.core cl core).mmaq) ∧
  ∀ (s : State) (cl core r : Nat) (m : Mma), MayRun s cl core m → s.mem.wf = true →
    (if progRows (s.progOf cl core m) / 32 < mmaMB m.blk then
      (s.bandJudges m (progRows (s.progOf cl core m) / 32)).findSome? (fun x => x.2.2.reason) = some r
    else mmaOut m.blk ≠ 0 ∧ s.spillHeld m = false ∧ ∃ n, s.spillFault cl core m = some (r, n)) →
    s.ctrReady m.warp (mmaCtr m.blk) = true →
    ∃ t, exec (.mmaFail cl core) s = .next t ∧ (t.core cl core).mmaq = (s.core cl core).mmaq.drop 1 ∧
      (t.core cl core).acc = (s.core cl core).acc ∧ (t.progOf cl core m).getLsbD 63 = false ∧
      ∀ l, LiveCounter s m.warp (mmaCtr m.blk) l → t.ctrWordAt l = ctrPlus (s.ctrWordAt l) (BitVec.ofNat 64 (2 ^ 62))


/-- Matrix operations run: MatrixOperationsStart, MatrixBandsCommit, MatrixOperationsEnd and MatrixOperationsWaitAndFail above. -/
def Obligations.MatrixOperationsRun : Prop :=
  Claims.MatrixOperationsStart ∧ Claims.MatrixBandsCommit ∧ Claims.MatrixOperationsEnd ∧ Claims.MatrixOperationsWaitAndFail

/-! ### Resuming, pre-emption, the cone and the control complex -/

/-- R397, R399, R400, R401: a resume command of a trapped warp. RETRY runs the instruction again, with the words as they stand now (the model's
choice, log 31); SKIP passes over it, with no effect but its encoded time, an empty L entry, and no STEP (the model's choice, log 53); DIVERGE clears U of its branch; KILL kills the gang, and its blocks fail. A
command that names no such warp, or carries a reserved field or an action not allowed for the trap, changes nothing, and one for a warp that is saved
trapped is held. -/
def Claims.WarpsResume : Prop :=
  ∀ (s : State) (cmd : ResumeCmd),
    let action := cmd.w0.toNat % 8
    let rows := [Instr.resumeRetry cmd, .resumeSkip cmd, .resumeDiverge cmd, .resumeKill cmd]
    let allows := fun (x : Warp) => action = 0 ∨ action = 3 ∨
      (action = 1 ∧ x.trapCode ≠ codeClause ∧ x.trapCode ≠ codeClass ∧ x.trapCode ≠ codeTrapi ∧ x.trapCode ≠ codeStep) ∨
      (action = 2 ∧ x.trapCode = codeUniform)
    let goesOn := fun (y : Warp) => y.state = .ready ∨ y.state = .active
    (s.named cmd = none ∨ reservedCmd cmd = true → ∀ i ∈ rows, exec i s = .next s) ∧
    ∀ w x, s.named cmd = some w → s.warp? w = some x →
      (¬allows x ∨ (x.state ≠ .trapped ∧ x.state ≠ .saved true) → ∀ i ∈ rows, exec i s = .next s) ∧
      (reservedCmd cmd = false → allows x → x.state = .saved true → ∀ i, rows[action]? = some i →
        exec i s = .next { s with heldCmds := s.heldCmds ++ [cmd] }) ∧
      (reservedCmd cmd = false → allows x → x.state = .trapped →
        (action = 0 → x.resume.head = false → x.resume.done = false →
          ∃ t y, exec (.resumeRetry cmd) s = .next t ∧ t.warp? w = some y ∧ goesOn y ∧ y.clause = x.clause.map (s.reword w) ∧
            ∀ v, t.regs v = s.regs v) ∧
        (action = 0 → x.resume.head = true → x.trapCode ≠ codeWback →
          ∃ t y, exec (.resumeRetry cmd) s = .next t ∧ t.warp? w = some y ∧ goesOn y ∧ y.clause = x.clause ∧ ∀ v, t.regs v = s.regs v) ∧
        (∀ c, action = 1 → x.clause = some c → c.idx < c.words.length → (∀ p ∈ c.pend, p.2.2 ≠ 0) →
          let stall := (c.words.getD c.idx 0).toNat / 2 ^ 52 % 16
          ∃ t y, exec (.resumeSkip cmd) s = .next t ∧ t.warp? w = some y ∧ y.state ≠ .trapped ∧
            (c.idx + 1 < c.words.length → t.regs w = x.regs ∧
              y.clause = some { c with idx := c.idx + 1, start := c.start + 1 + stall, lfile := (none :: c.lfile).take 4 }) ∧
            (c.idx + 1 = c.words.length → y.clause = none ∧
              t.regs w = { x.regs with lpc := x.regs.lpc.zipIdx.map (fun (e, u) => if inMask c.iset u then { e with waddr := c.next } else e) })) ∧
        (action = 2 →
          ∃ t y, exec (.resumeDiverge cmd) s = .next t ∧ t.warp? w = some y ∧ goesOn y ∧ y.regs = x.regs ∧
            y.clause = x.clause.map (fun c => { c with words := c.words.modify c.idx divergeWord })) ∧
        (∀ g k l, action = 3 → s.gangOf w = some g → s.gangs[g]? = some k → k.killed = false → s.blocksOf g ≠ [] →
          s.launches[k.launch]? = some l →
          ∃ t, exec (.resumeKill cmd) s = .next t ∧ (t.gangs[g]?).map Gang.killed = some true ∧ t.gangs.length = s.gangs.length ∧
            (t.launches[k.launch]?).map Launch.failed = some true ∧
            ∀ b ∈ s.blocksOf g, (t.blocks[b]?).map (fun y => (y.finished, y.failed)) = some (true, true)))

/-- R400: the word of a branch with U = 0 is the word of the same branch with U clear. -/
def Claims.DivergedBranchesDecode : Prop :=
  ∀ (v : DWord) (h : Head) (u : Bool) (kind : BrKind) (cond : PredSpec) (off : BitVec 32) (a : Opnd),
    (decodeWord v = some (.bra h u kind cond off) → decodeWord (divergeWord v) = some (.bra h false kind cond off)) ∧
    (decodeWord v = some (.call h u kind cond off) → decodeWord (divergeWord v) = some (.call h false kind cond off)) ∧
    (decodeWord v = some (.brx h u a) → decodeWord (divergeWord v) = some (.brx h false a)) ∧
    (decodeWord v = some (.ret h u a) → decodeWord (divergeWord v) = some (.ret h false a))

/-- Trapped warps resume: WarpsResume and DivergedBranchesDecode above. -/
def Obligations.WarpsResume : Prop :=
  Claims.WarpsResume ∧ Claims.DivergedBranchesDecode

/-- R404, R405, R406, R407, R408, R409: a gang whose warps have all stopped, and whose copies stand at boundaries, is saved, each warp with its registers,
clause and fault record, one that was TRAPPED as such; before that no clause of it starts. Restored on a cluster where it fits, its warps have what they
had. A context is switched out with all its gangs. That a first PREEMPT marks the gang and a later one saves it, and that CONTEXT_SWITCH of a switched-out
context none of whose gangs is left to be restored switches it in, is the model's choice (log 55). -/
def Obligations.GangsArePreempted : Prop :=
  (∀ (s : State) (g : Nat) (x : Gang), s.gangs[g]? = some x → x.placed = true → x.saved = false → x.killed = false → s.blocksOf g ≠ [] →
    (∀ w ∈ s.warpsOfGang g, ∀ y, s.warp? w = some y → y.ahead = false) →
    let s1 := s.modGang g (fun x => { x with stopping := true })
    ((∀ w ∈ s.warpsOfGang g, s1.stopped w = true) →
      (∀ i c, s.copies[i]? = some c → c.warp ∈ s.warpsOfGang g → s1.copyRests i c = true) →
      ∃ t, exec (.preempt g) s = .next t ∧ t.gangs[g]? = some { x with saved := true, stopping := false } ∧
        ∀ w ∈ s.warpsOfGang g, ∀ y, s.warp? w = some y → y.state ≠ .ended → ∃ z, t.warp? w = some z ∧ z.state = .saved (y.state == .trapped) ∧
          z.regs = y.regs ∧ z.clause = y.clause ∧ z.fault = y.fault ∧ z.resume = y.resume ∧ z.wcr = y.wcr ∧ z.lease = y.lease) ∧
    ((∃ w ∈ s.warpsOfGang g, s1.stopped w = false) ∨ (∃ i c, s.copies[i]? = some c ∧ c.warp ∈ s.warpsOfGang g ∧ s1.copyRests i c = false) →
      exec (.preempt g) s = .next s1 ∧ ∀ v ∈ s.warpsOfGang g, exec (.clauseStart v) s1 = .next s1)) ∧
  (∀ (s : State) (g cl : Nat) (seats : List (List Nat)) (x : Gang), s.gangs[g]? = some x → x.saved = true → x.killed = false →
    x.damaged = false → s.clusterServes (s.saggarOfLaunch x.launch) cl = true → s.restoreFits g cl seats = true → s.heldCmds = [] →
    ∃ t, exec (.restore g cl seats) s = .next t ∧ (t.gangs[g]?).map (fun y => (y.saved, y.cluster)) = some (false, cl) ∧
      ∀ w ∈ s.warpsOfGang g, ∀ y b, s.warp? w = some y → y.state = .saved b → ∃ z, t.warp? w = some z ∧ z.clause = y.clause ∧
        z.fault = y.fault ∧ z.resume = y.resume ∧ z.regs = y.regs ∧ (y.hold = .none → if b then z.state = .trapped else z.state = .ready ∨ z.state = .active)) ∧
  ∀ (s : State) (c : Nat) (x : Ctx), s.ctxs[c]? = some x → x.live = true →
    (x.switchedOut = true → (∀ g ∈ s.gangsOfCtx c, s.blocksOf g = []) →
      exec (.contextSwitch c) s = .next { s with ctxs := s.ctxs.modify c (fun x => { x with switchedOut := false }) }) ∧
    (x.switchedOut = false ∨ (∃ g ∈ s.gangsOfCtx c, s.blocksOf g ≠ []) →
      ∃ t, exec (.contextSwitch c) s = .next t ∧ (t.ctxs[c]?).map Ctx.switchedOut = some true ∧
        ∀ g ∈ s.gangsOfCtx c, ∀ k, s.gangs[g]? = some k → k.placed = true → s.blocksOf g ≠ [] →
          (t.gangs[g]?).map (fun y => y.saved || y.stopping) = some true)

/-- R371, R372, R374, R433, R443: a tick lets its clk pass, but none beyond the next slice boundary, which the next tick passes (the tick turn is the
model's own, log 1). A context's cone counts the clk during which the conditions of R371 hold, and else returns to 0. Device time never decreases: before lock
it advances by the ns that the clk take at the clock of STEP (R443); after lock its rate differs from that of the clk by at most 200 ppm, slower while it is
ahead, to a ns (how it is rounded, and how a module that is ahead is slowed, is the model's choice, log 6). After 2^26 clk the cone fires, and does so too
where only an ECCKILL of the same clk has taken warps from it (R433): the context's queues are held, its accepted packets dropped, its gangs killed with none
relaunched, and its launches finished as failed. -/
def Obligations.ConeCountsAndFires : Prop :=
  (∀ (s : State) (n ns : Nat) (r : List Turn), s.agenda = .tick n ns :: r →
    let m := min n (1024 - s.clk % 1024)
    let base := s.nsOf m
    (n = 0 → step s = .next { s with agenda := r }) ∧
    (0 < n → ∃ (t : State) (dt : Nat), step s = .next t ∧ t.clk = s.clk + m ∧ t.time = s.time + BitVec.ofNat 64 dt ∧ t.agenda = r ∧ t.locked = s.locked ∧
      (s.locked = false → dt = base) ∧
      (s.locked = true → s.slew = 0 → base ≤ dt + base / 5000 ∧ dt ≤ base + base / 5000) ∧
      (s.locked = true → 0 < s.slew → dt ≤ base ∧ base ≤ dt + base / 5000 + 1 ∧ t.slew = s.slew - base) ∧
      ∀ (c : Nat) (x : Ctx), s.ctxs[c]? = some x →
        (t.ctxs[c]?).map Ctx.cone = some (if { s with agenda := r }.coneHolds c then x.cone + m else 0))) ∧
  ∀ (s : State) (c : Nat) (x : Ctx), s.ctxs[c]? = some x →
    (s.coneHolds c = true → s.coneMeets c = true) ∧
    (s.coneMeets c = true → 2 ^ 26 ≤ x.cone →
      ∃ t, exec (.cone c) s = .next t ∧
        (t.ctxs[c]?).map (fun y => (y.queues, y.cone)) =
          some (x.queues.map (fun q => { q with hold := true, pkts := q.pkts.filter (fun p => !p.accepted) }), 0) ∧
        t.gangs.length = s.gangs.length ∧
        ∀ (l : Nat) (k : Launch), s.launches[l]? = some k → k.ctx = c → k.finished = false →
          (t.launches[l]?).map (fun y => (y.finished, y.failed)) = some (true, true) ∧
          ∀ (g : Nat) (y : Gang), t.gangs[g]? = some y → y.launch = l → y.killed = true) ∧
    (s.coneMeets c = false ∨ x.cone < 2 ^ 26 → exec (.cone c) s = .next s)

/-- R282, R354, R355, R360, R361, R374: LCBASE_WRITE, BOUNDS_ENTRY_WRITE, BOUNDS_HIT_CLEAR, PARTITION_WRITE, PTP_LOCK and CONTROL_WRITE complete. A base
register takes VALID, POLICY, K and WIDTH and keeps SAT; a reserved bit has no effect. A bounds entry in memory takes BASE, END, LOW, HIGH and ACTION
and keeps its STATUS (the model's choice, log 22), and one with a NaN or LOW above HIGH, as values, is refused; its HIT is cleared unless an action has just
set it. MODE is written while no context is live, for the next reset. At lock device time steps once where the disciplined time is ahead, and never back: by
how much it is ahead is kept in 1/5,000 ns (the model's choice, log 6). -/
def Claims.TablesAreWritten : Prop :=
  ∀ (s : State),
    (∀ (ctx i : Nat) (v old : DWord) (x : Ctx), s.ctxs[ctx]? = some x → x.lcbase[i]? = some old →
      (∀ p ∈ s.pinned, ¬(p.asid = s.asid ctx ∧ p.lcb = i)) →
      ∃ t, exec (.lcbaseWrite ctx i v) s = .next t ∧
        t.ctxs = s.ctxs.set ctx { x with lcbase := x.lcbase.set i ((old &&& 0x10000#64) ||| (v &&& 0x371#64)) }) ∧
    (∀ (ctx table entry : Nat) (v : BoundsVal) (x : Ctx), s.ctxs[ctx]? = some x → table < 7 → entry < 32 → s.mem.wf = true →
      let at_ := x.btbase.toNat + 1024 * table + 32 * entry
      let nan := fun (f : Word) => f.extractLsb' 23 8 = 0xFF ∧ f.extractLsb' 0 23 ≠ 0
      let val := fun (f : Word) =>  -- the value of an FP32 number in units of 2^-149; an infinity stands as ±2^128
        (if f.getLsbD 31 then -1 else 1 : ℤ) *
          (if f.extractLsb' 23 8 = 0 then ((f.extractLsb' 0 23).toNat : ℤ)
            else (2 ^ 23 + (f.extractLsb' 0 23).toNat) * 2 ^ ((f.extractLsb' 23 8).toNat - 1))
      let old := boundsEntry s.mem at_
      (nan v.low ∨ nan v.high ∨ val v.high < val v.low → exec (.boundsEntryWrite ctx table entry v) s = .next s) ∧
      (¬nan v.low → ¬nan v.high → val v.low ≤ val v.high → ∃ t, exec (.boundsEntryWrite ctx table entry v) s = .next t ∧ { t with mem := s.mem } = s ∧
        boundsEntry t.mem at_ = { base := v.base, top := v.top, low := v.low, high := v.high, action := v.action, hit := old.hit } ∧
        ∀ k, k < at_ ∨ at_ + 28 ≤ k → t.mem.read k = s.mem.read k) ∧
      (hitKey at_ ∉ s.justSet → ∃ t, exec (.boundsHitClear ctx table entry) s = .next t ∧ { t with mem := s.mem } = s ∧
        boundsEntry t.mem at_ = { old with hit := false } ∧ ∀ k, k ≠ at_ + 28 → t.mem.read k = s.mem.read k) ∧
      (hitKey at_ ∈ s.justSet → exec (.boundsHitClear ctx table entry) s = .next s)) ∧
    (∀ (mode : Nat),
      (mode < 3 → (∀ c ∈ s.ctxs, c.live = false) → ∃ t, exec (.partitionWrite mode) s = .next t ∧ t.partition.mode = s.partition.mode ∧
        t.partition.nextMode = (if s.fullService = true ∧ mode = s.partition.mode then none else some mode)) ∧
      (3 ≤ mode ∨ (mode ≠ s.partition.mode ∧ ∃ c ∈ s.ctxs, c.live = true) → exec (.partitionWrite mode) s = .next s)) ∧
    (∀ (now : DWord), (s.locked = true → exec (.ptpLock now) s = .next s) ∧
      (s.locked = false → ∃ t, exec (.ptpLock now) s = .next t ∧ t.locked = true ∧ t.time.toNat = max s.time.toNat now.toNat ∧
        t.slew = 5000 * (s.time.toNat - now.toNat) ∧ { t with locked := s.locked, time := s.time, slew := s.slew } = s)) ∧
    ∀ (c : CtlWrite), ∃ t, exec (.controlWrite c) s = .next t

/-- R276, R289, R290, R324, R343: the writes of the control complex that have no row of their own. A warp's registers change only while it is stopped:
trapped, saved or not begun. A context is created with an ASID that no other has; ASID changes only where no warp is resident; a zero LOADF is
refused, and the write of a reserved bit has no effect. The pages of a context's tables must find room in its saggar, and its LCM pages under a new ASID (R1,
R297); none is created while a change of MODE is to come (R361). -/
def Claims.ControlWritesRegisters : Prop :=
  (∀ (s : State) (w : Nat) (x : Warp), s.warp? w = some x →
    let stopped := x.begun = false ∨ x.state = .trapped ∨ x.state = .saved false ∨ x.state = .saved true
    (¬stopped → ∀ (n m : Nat) (v hi : DWord) (u : Word) (tag : BitVec 16) (b : Bool) (e : Option (Fin 32)) (ms : List DrainMem),
      ∀ c ∈ [CtlWrite.wcr w v, .lpc w n v, .sreg w n v, .preg w n u, .slot w n m u, .tag w n tag, .tableEntry w n m e, .tableMeta w n b m, .draw w n v,
        .lease w v, .fault w n v, .lslot w n m u, .resumePoint w hi v, .sbCount w n m, .keptWait w n v hi, .keptDrain w ms,
        .yieldLeft w n, .lmap w n m e], exec (.controlWrite c) s = .next s) ∧
    (stopped →
      (∀ v, ∃ t, exec (.controlWrite (.wcr w v)) s = .next t ∧ (t.warp? w).map Warp.wcr = some (v &&& 0xFF03#64)) ∧
      (∀ n v, n < x.regs.s.length → ∃ t, exec (.controlWrite (.sreg w n v)) s = .next t ∧ (t.regs w).s = x.regs.s.set n v ∧
        (t.regs w).v = x.regs.v) ∧
      (∀ n v, ∃ t, exec (.controlWrite (.preg w n v)) s = .next t ∧ (t.regs w).p = x.regs.p.set n v) ∧
      (∀ n v, ∃ t, exec (.controlWrite (.lpc w n v)) s = .next t ∧ (n < x.regs.lpc.length →
        ((t.regs w).lpc[n]?).map (fun e => (e.age, e.waddr)) = some (v.toNat / 2 ^ 54 % 256, v.extractLsb' 0 54))) ∧
      (∀ n v, ∃ t, exec (.controlWrite (.draw w n v)) s = .next t ∧ (t.regs w).draws = x.regs.draws.set n v))) ∧
  ∀ (s : State),
    (∀ (asid : BitVec 16) (root : DWord) (saggar func : Nat),
      let ok := s.ctxOfAsid asid.toNat = none ∧ (s.ctxs.filter Ctx.live).length < 64 ∧ s.partition.serves saggar = true ∧
        (s.fullService = false ∨ s.partition.nextMode = none) ∧
        s.tablesFit saggar (fun _ _ => false) (fun k => (Ctx.fresh saggar).lcbase.getD k 0) asid.toNat root = true
      (ok → ∃ t c, exec (.controlWrite (.newContext asid root saggar func)) s = .next t ∧ t.ctxs = s.ctxs ++ [c] ∧ c.live = true ∧
        c.asid = asid.toNat ∧ c.root = root &&& 0x000FFFFFFFFFF000#64 ∧ c.saggar = saggar ∧ c.loadF = 16 ∧ c.lostMax = 64 ∧ c.events = List.replicate 8 0) ∧
      (¬ok → exec (.controlWrite (.newContext asid root saggar func)) s = .next s)) ∧
    (∀ (ctx : Nat) (x : Ctx) (v : DWord), s.ctxs[ctx]? = some x →
      let same := v.toNat % 2 ^ 16 = x.asid
      let moves := s.residents ctx = [] ∧ s.ctxOfAsid (v.toNat % 2 ^ 16) = none ∧ s.waysUnder x.saggar x.asid (v.toNat % 2 ^ 16) = true
      let new := v &&& 0x0000FF1F0000FFFF#64
      (v.extractLsb' 32 5 ≠ 0 → same →
        exec (.controlWrite (.cxctl ctx v)) s = .next { s with ctxs := s.ctxs.set ctx { x with cxctl := new } }) ∧
      (v.extractLsb' 32 5 ≠ 0 → ¬same → moves →
        ∃ t, exec (.controlWrite (.cxctl ctx v)) s = .next t ∧ (t.ctxs[ctx]?).map Ctx.cxctl = some new) ∧
      (v.extractLsb' 32 5 = 0 ∨ (¬same ∧ ¬moves) → exec (.controlWrite (.cxctl ctx v)) s = .next s)) ∧
    (∀ watts, exec (.controlWrite (.powerLimit watts)) s =
      .next (if 1200 ≤ watts ∧ watts ≤ 2400 then { s with powerLimit := watts } else s))


/-- The writes of the control complex complete: TablesAreWritten and ControlWritesRegisters above. -/
def Obligations.ControlComplexWrites : Prop :=
  Claims.TablesAreWritten ∧ Claims.ControlWritesRegisters

/-! ### Peers and the host -/

/-- R204, R403, R424: an access that waits for peers is performed by their answers, each request with its own; a refusal raises REMOTE with its reason, and a
silence of 2^20 clk RTIMEOUT, and nothing more of the access is performed. One that had been issued only after a restack stopped injection is not
answered until it ends (R413). -/
def Obligations.PeersAnswer : Prop :=
  ∀ (s : State) (n : Nat) (a : Access) (x : Warp) (c : Clause), s.awaited n = some a → s.warp? a.warp = some x → x.clause = some c →
    let traps := fun (t : State) (code : BitVec 8) (p : BitVec 8 → Prop) => ∃ y, t.warp? a.warp = some y ∧ y.state = .trapped ∧ y.regs = x.regs ∧
      (y.fault.getD 1 0).extractLsb' 32 8 = code ∧ p ((y.fault.getD 1 0).extractLsb' 48 8) ∧
      ∃ b, t.accs[n]? = some b ∧ ∀ r ∈ b.reqs, r.done = true
    (a.issuedAt + 2 ^ 20 ≤ s.clk → ∃ t, exec (.rtimeout n) s = .next t ∧ traps t 0x18 (fun _ => True)) ∧
    (s.clk < a.issuedAt + 2 ^ 20 → exec (.rtimeout n) s = .next s) ∧
    (s.drainShelf = true → s.drainAt ≤ a.issuedAt → ∀ vals, exec (.peerAnswer n vals) s = .next s) ∧
    (∀ reason, (∀ r ∈ a.asked, s.refusedHere a r ≠ none ∨ if r.loc.place = .peer 255 then reason = 0x0C else 1 ≤ reason ∧ reason ≤ 0x0A ∧ reason ≠ 0x09) →
      ∃ t, exec (.remote n reason) s = .next t ∧
        traps t 0x17 (fun v => ∃ r ∈ a.asked, v = BitVec.ofNat 8 ((s.refusedHere a r).getD reason))) ∧
    (∀ vals, a.op.isCtr = false → a.op.isLc = false → a.wait = none → x.pending.isSome = true → a.reqs = a.asked →
      vals.length = a.reqs.length → s.clk < a.issuedAt + 2 ^ 20 → (s.drainShelf = false ∨ a.issuedAt < s.drainAt) →
      (∀ r ∈ a.reqs, s.refusedHere a r = none ∧ ∀ b ∈ s.accs.take n, b.warp = a.warp → s.holdsBack b a r = false) →
      ∃ (t : State) (b : Access), exec (.peerAnswer n vals) s = .next t ∧ t.accs[n]? = some b ∧ (t.warp? a.warp).map Warp.hold ≠ some (.accept n) ∧
        ∀ (i : Nat) (r : Req) (v : DWord), a.reqs[i]? = some r → vals[i]? = some v →
          (b.reqs[i]?).map (fun (q : Req) => (q.done, q.res)) = some (true, v &&& BitVec.ofNat 64 (2 ^ (8 * r.size) - 1)))

/-- R413, R421, R422, R423, R424, R426, R428, R440: in full service, while no restack has stopped injection, an inbound request is refused with RESET where
its frame lies in a saggar out of service, or one reset at this clk (before the window table is looked at, the model's choice, logs 60 and 115). One of the
host that is no load or store, or that BAR2 does not reach, is refused with NOWINDOW (the model's choice, log 109); so is one that no valid window of its
source covers, and one whose first such window lacks its permission with NOPERM. Else a load answers the bytes at the frame, a store writes them and no other
byte, and an atomic does both in one step; a store or atomic of a tagged word is refused. A wait of a peer's warp answers the word, and is kept as a watch
where its value has not been reached. A level counter operation, which needs the permission of an atomic, reads, writes or raises the byte that it names; what
a raise leaves and an estimate answers is a free value (log 110). -/
def Claims.InboundRequests : Prop :=
  ∀ (s : State) (r : InReq), r.flow = none →
    (s.drainShelf = true ∨ s.fullService = false → exec (.inboundRequest r) s = .next s) ∧
    (s.drainShelf = false → s.fullService = true →
    let covers := fun (st : Nat) (w : DWord × DWord) => (w.1.extractLsb' 54 2).toNat = st ∧ (w.1.extractLsb' 56 8).toNat = r.node ∧
      (w.1.extractLsb' 16 36).toNat ≤ r.paddr / 2 ^ 16 ∧ (r.paddr + r.size - 1) / 2 ^ 16 ≤ (w.2.extractLsb' 16 36).toNat
    let bitOf : Nat := match r.op with
      | .load => 53
      | .store => 52
      | .add | .min | .max | .and | .or | .xor | .exch | .cas | .lc _ => 15
      | .ctrInit _ | .ctrAdd | .ctrWait | .ctrArv | .ctrRead | .ctrKill | .ctrFree => 14
    let saggar := s.partition.saggarOf (Config.frameDie (r.paddr / 2 ^ 16)).val
    let served := s.partition.serves saggar = true ∧ (saggar, s.clk) ∉ s.resetAt
    let barred := r.node = 255 ∧ ((r.op ≠ .load ∧ r.op ≠ .store) ∨ s.bar2 < r.paddr + r.size)
    let answers := fun (t : State) (reason v : Nat) => t.reports = s.reports ++ [{ kind := 5, fields := [r.node, r.paddr, reason, v] }]
    let refused := fun (reason : Nat) => ∃ t, exec (.inboundRequest r) s = .next t ∧ answers t reason 0
    (¬served → refused 0x0A) ∧
    (served → barred → refused 0x01) ∧
    (served → ¬barred → (∀ w ∈ s.inWindows, ¬covers 1 w) → refused (if s.inWindows.any (fun w => decide (covers 2 w)) then 0x08 else 0x01)) ∧
    ∀ (i : Nat) (w : DWord × DWord), served → ¬barred → s.inWindows[i]? = some w → covers 1 w →
      (∀ j < i, ∀ v, s.inWindows[j]? = some v → ¬covers 1 v) →
      (w.1.getLsbD bitOf = false → refused 0x02) ∧
      (w.1.getLsbD bitOf = true →
        let l : Loc := { place := .nc, addr := r.paddr }
        let data : DWord := r.data.setWidth 64
        (inCounter r.op = none → r.op ≠ .load → r.op ≠ .lc .raw → r.op ≠ .lc .est → s.tagHit l r.size = true → refused 0x03) ∧
        (r.op = .load ∨ r.op = .lc .raw ∨ r.op = .lc .est → s.inPoison r = true → refused 0x07) ∧
        (r.op = .load → s.inPoison r = false → exec (.inboundRequest r) s =
          .next { s with reports := s.reports ++ [{ kind := 5, fields := [r.node, r.paddr, 0, leNat ((List.range r.size).map (s.placeRead l))] }] }) ∧
        (r.op = .lc .raw → s.inPoison r = false → ∃ t, exec (.inboundRequest r) s = .next t ∧ answers t 0 (s.placeRead l 0).toNat ∧ t.mem = s.mem) ∧
        (r.op = .lc .est → s.inPoison r = false → ∃ t v, exec (.inboundRequest r) s = .next t ∧ answers t 0 v ∧ t.mem = s.mem) ∧
        (s.mem.wf = true → s.migrations = [] →
          (r.op = .store → s.tagHit l r.size = false → ∃ t, exec (.inboundRequest r) s = .next t ∧ answers t 0 0 ∧
            ∀ x, t.mem.read x = if r.paddr ≤ x ∧ x < r.paddr + r.size then r.data.extractLsb' (8 * (x - r.paddr)) 8 else s.mem.read x) ∧
          (∀ op, inAtomic r.op = some op → s.tagHit l r.size = false → s.inPoison r = false →
            ∃ t, exec (.inboundRequest r) s = .next t ∧ answers t 0 (s.placeVal l r.size).toNat ∧
              Memory.with s.mem t.mem r.paddr r.size (rmwValue op r.ty (s.placeVal l r.size) data r.cmp)) ∧
          (r.op = .lc .init → s.tagHit l r.size = false → ∃ t, exec (.inboundRequest r) s = .next t ∧ answers t 0 0 ∧
            Memory.with s.mem t.mem r.paddr 1 data) ∧
          (r.op = .lc .raise → s.tagHit l r.size = false → s.inPoison r = false → ∃ t v, exec (.inboundRequest r) s = .next t ∧ answers t 0 0 ∧
            Memory.with s.mem t.mem r.paddr 1 v) ∧
          (r.op = .ctrAdd → r.paddr + 8 ≤ shelfTable → (∀ i < 8, s.aliased (r.paddr + i) = false) → (s.ctrTag l).isSome = true → ctrRetired (s.ctrWordAt l) = false →
            ∃ t, exec (.inboundRequest r) s = .next t ∧ answers t 0 (s.ctrWordAt l).toNat ∧ t.ctrWordAt l = ctrPlus (s.ctrWordAt l) data)) ∧
        (s.migrations = [] → r.op = .ctrWait → (s.ctrTag l).isSome = true →
          exec (.inboundRequest r) s = .next { s with
            inWatches := s.inWatches ++ (if ctrReached (s.ctrWordAt l) data then [] else [{ node := r.node, loc := l, target := data }])
            reports := s.reports ++ [{ kind := 5, fields := [r.node, r.paddr, 0, (s.ctrWordAt l).toNat] }] }) ∧
        (r.op = .ctrAdd ∨ r.op = .ctrWait ∨ r.op = .ctrArv → s.ctrTag l = none → refused 0x04)))

/-- R420, R421, R423: a write of an ordered flow that no window accepts is refused; one whose turn it is is performed as any other, and the flow goes on after the last of its
copy; one of a later copy is held, where its port has room for 512 sectors. A broken flow fails its copies, once their counters can be reached, or drops what
it holds; a skip passes over the number of a failed copy, at the port, or, of a flow to a peer, at the target, to which it is sent. A valid window that is withdrawn is
recalling, which its source node is told, and then, once no write that it has accepted is held, invalid. -/
def Claims.FlowsAndWindows : Prop :=
  ∀ (s : State),
    (∀ (r : InReq) (o : InFlow), r.flow = some o → s.drainShelf = false → s.fullService = true →
      let f := s.inFlow r.node o.id
      (∀ k, s.windowRefuses r = some k → ∃ t, exec (.inboundRequest r) s = .next t ∧ t.inFlows = s.inFlows ∧
        t.reports = s.reports ++ [{ kind := 5, fields := [r.node, r.paddr, k, 0] }]) ∧
      (s.windowRefuses r = none →
      (f.next.getD o.seq = o.seq → f.held = [] → exec (.inboundRequest r) s =
        exec (.inboundRequest { r with flow := none }) (s.setInFlow { f with next := some (if o.last then (o.seq + 1) % 2 ^ 16 else o.seq) })) ∧
      (f.next.getD o.seq ≠ o.seq → s.inHeld o.port < 512 → exec (.inboundRequest r) s =
        .next (s.setInFlow { f with next := some (f.next.getD o.seq), held := f.held ++ [(r, s.clk)] })) ∧
      (f.next.getD o.seq ≠ o.seq → 512 ≤ s.inHeld o.port → exec (.inboundRequest r) s = .next s))) ∧
    (∀ (i : Nat) (f : Flow), s.flows[i]? = some f →
      let ready := ∀ j ∈ f.held, ∀ k c x, s.runOf j = some (k, c, x) → ∀ a ∈ s.failCtrs k c false, s.ctrReady c.warp a = true
      (3 ≤ f.mem → f.held ≠ [] → ready → ∃ t, exec (.flowbroken (.own i)) s = .next t ∧
        (t.flows[i]?).map (fun g => (g.held, g.seqDone == g.seqSent)) = some ([], true) ∧
        ∀ j ∈ f.held, ∀ c, s.copies[j]? = some c → c.live = true → (t.copies[j]?).map Copy.state = some .failed) ∧
      (f.mem < 3 ∨ f.held = [] ∨ ¬ready → exec (.flowbroken (.own i)) s = .next s) ∧
      (∀ p j r c, 3 ≤ f.mem → f.held = p ++ j :: r → s.copies[j]? = some c → c.state = .failed →
        (∀ k ∈ p, ∃ d, s.copies[k]? = some d ∧ d.state ≠ .failed) →
        exec (.flowSkip (.own i)) s = .next { s with
          flows := s.flows.set i { f with held := p ++ r, seqDone := (f.seqDone + 1) % 2 ^ 16 }
          reports := s.reports ++ [{ kind := 14, fields := [f.mem - 3, f.warp, c.seq, s.node] }] }) ∧
      (∀ j r c, f.mem < 3 → f.held = j :: r → s.copies[j]? = some c →
        (c.state = .failed → exec (.flowSkip (.own i)) s =
          .next { s with flows := s.flows.set i { f with held := r, seqDone := (f.seqDone + 1) % 2 ^ 16 } }) ∧
        (c.state ≠ .failed → exec (.flowSkip (.own i)) s = .next s))) ∧
    (∀ (node id : Nat),
      let g := s.inFlow node id
      ((∃ h ∈ g.held, h.2 + 2 ^ 20 ≤ s.clk) → ∃ t, exec (.flowbroken (.inbound node id)) s = .next t ∧ (t.inFlow node id).held = []) ∧
      ((∀ h ∈ g.held, s.clk < h.2 + 2 ^ 20) → exec (.flowbroken (.inbound node id)) s = .next s) ∧
      (∀ k, g.next = some k → g.held = [] → exec (.flowSkip (.inbound node id)) s =
        .next (s.setInFlow { g with next := some ((k + 1) % 2 ^ 16) }))) ∧
    (∀ (i : Nat) (w : DWord × DWord), s.inWindows[i]? = some w →
      let st := (w.1.extractLsb' 54 2).toNat
      let held := ∃ f ∈ s.inFlows, ∃ h ∈ f.held, windowCovers 2 h.1 w = true
      (st = 1 ∨ (st = 2 ∧ ¬held) → ∃ t v, exec (.windowRecall i) s = .next t ∧ t.inWindows = s.inWindows.set i (v, w.2) ∧
        t.reports = s.reports ++ (if st = 1 then [{ kind := 15, fields := [i, (w.1.extractLsb' 56 8).toNat] }] else []) ∧
        v.extractLsb' 0 54 = w.1.extractLsb' 0 54 ∧ v.extractLsb' 56 8 = w.1.extractLsb' 56 8 ∧
        (v.extractLsb' 54 2).toNat = (if st = 1 then 2 else 0)) ∧
      (st = 0 ∨ st = 3 ∨ (st = 2 ∧ held) → exec (.windowRecall i) s = .next s))

/-- Inbound requests, flows and windows: InboundRequests and FlowsAndWindows above. -/
def Obligations.InboundRequests : Prop :=
  Claims.InboundRequests ∧ Claims.FlowsAndWindows

/-- R366, R399, R428: the mailbox submits a packet as PACKET_SUBMIT does, and reports whether it was taken; it carries out a resume command as its row does,
adds to a live counter, clears a HOLD, and keeps a key of link IDE (R442). -/
def Obligations.MailboxActs : Prop :=
  ∀ (s : State),
    (∀ (ctx q : Nat) (pkt : List Byte) (addr : DWord),
      (pkt.length = 160 → ∃ t k, exec (.mailboxMessage (.submit ctx q pkt addr)) s = .next t ∧
        t.reports = s.reports ++ [{ kind := 6, fields := [ctx, q, k] }] ∧
        exec (.packetSubmit ctx q pkt addr) s = .next { t with reports := s.reports } ∧
        ∀ (c : Ctx) (d : Queue), s.ctxs[ctx]? = some c → c.queues[q]? = some d →
          (k = 0 ↔ c.live = true ∧ d.valid = true ∧ d.pkts.length < 2 ^ d.logDepth)) ∧
      (pkt.length ≠ 160 → exec (.mailboxMessage (.submit ctx q pkt addr)) s = .next s)) ∧
    (∀ (cmd : ResumeCmd) (i : Instr), [Instr.resumeRetry cmd, .resumeSkip cmd, .resumeDiverge cmd, .resumeKill cmd][cmd.w0.toNat % 8]? = some i →
      exec (.mailboxMessage (.resume cmd)) s = exec i s) ∧
    (∀ (ctx : Nat) (va inc : DWord) (l : Loc), s.ctxLoc ctx va = some l → l.place = .nc → l.addr + 8 ≤ shelfTable →
      (∀ i < 8, s.aliased (l.addr + i) = false) → s.mem.wf = true → s.migrations = [] → (s.ctrTag l).isSome = true → ctrRetired (s.ctrWordAt l) = false →
      ∃ t, exec (.mailboxMessage (.ctrAdd ctx va inc)) s = .next t ∧ t.ctrWordAt l = ctrPlus (s.ctrWordAt l) inc ∧ t.tags = s.tags) ∧
    (∀ (ctx q : Nat) (c : Ctx) (d : Queue), s.ctxs[ctx]? = some c → c.queues[q]? = some d →
      exec (.mailboxMessage (.clearHold ctx q)) s =
        .next { s with ctxs := s.ctxs.set ctx { c with queues := c.queues.set q { d with hold := false } } }) ∧
    (∀ (stream : Nat) (key : List Byte), exec (.mailboxMessage (.ideKey stream key)) s =
      .next { s with ideKeys := (stream, key) :: s.ideKeys.filter (fun k => k.1 != stream) }) ∧
    (∀ (ctx : Nat) (k : LogKind), ∃ r, exec (.mailboxMessage (.readLog ctx k)) s = .next { s with reports := s.reports ++ [r] } ∧ r.kind = 7)

/-! ### Errors, resets and the module -/

/-- R357, R413, R416, R419: a live shelf that misses its heartbeat is to be removed; injection stops, and within 50 µs, once what was injected has drained, the
table switches in one write, with EPOCH one more, DRAIN 0 and the route table that is to come; after that the restack ends with resets. A route changes through
these steps, without routes over dead links; one asked for while DRAIN is 1 is refused (the model's choice, log 61). A flit is sent again up to 16 times; one
damaged once more finds its link dead (the model's choice, log 106), and every route over that link goes through a restack. -/
def Obligations.ShelvesRestack : Prop :=
  ∀ (s : State),
    let routes := s.routesTo.getD s.routes
    let live := s.restackTo.getD s.liveShelves
    let field := fun (e : BitVec 24) (k : Nat) => e.extractLsb' (3 * k) 3
    (∀ (k : Nat),
      (k < 8 → live.getLsbD k = true → ∃ n, exec (.shelfHeartbeatTimeout k) s = .next { s with restackTo := some n } ∧
        ∀ j < 8, n.getLsbD j = (live.getLsbD j && decide (j ≠ k))) ∧
      (8 ≤ k ∨ live.getLsbD k = false → exec (.shelfHeartbeatTimeout k) s = .next s)) ∧
    (s.restackTo.isSome = true → s.drainShelf = false →
      exec .restack s = .next { s with drainShelf := true, restackAt := s.time.toNat, drainAt := s.clk }) ∧
    (s.restackTo = none ∨ s.drainShelf = true → exec .restack s = .next s) ∧
    (∀ (n : BitVec 8), s.restackTo = some n →
      (s.drainShelf = true → n ≠ 0 → s.drained = true → s.time.toNat ≤ s.restackAt + 50000 → exec .restackSwitch s =
        .next { s with liveShelves := n, restackTo := none, drainShelf := false, epoch := (s.epoch + 1) % 2 ^ 16, routes := routes, routesTo := none }) ∧
      (s.drainShelf = false ∨ n = 0 ∨ s.drained = false ∨ s.restackAt + 50000 < s.time.toNat → exec .restackSwitch s = .next s) ∧
      (s.drainShelf = true → n ≠ 0 → s.restackAt + 50000 < s.time.toNat →
        ∃ t, exec .restackOverrun s = .next t ∧ t.liveShelves = n ∧ t.restackTo = none ∧ t.drainShelf = false ∧ t.routes = routes) ∧
      (s.drainShelf = false ∨ (n ≠ 0 ∧ s.time.toNat ≤ s.restackAt + 50000) → exec .restackOverrun s = .next s)) ∧
    (∀ (node : Nat) (e : BitVec 24),
      (s.fullService = true → node < 255 → s.drainShelf = false → ∃ e', exec (.routeChange node e) s =
          .next { s with routesTo := some (routes.set node e'), restackTo := some live, drainShelf := true, restackAt := s.time.toNat, drainAt := s.clk } ∧
        ∀ k < 8, field e' k = if ∃ p ∈ s.deadLinks, p / 3 = k ∧ (field e k).toNat = 4 + p % 3 then 0 else field e k) ∧
      (s.fullService = false ∨ 255 ≤ node ∨ s.drainShelf = true → exec (.routeChange node e) s = .next s)) ∧
    (∀ (port : Nat) (again : Bool), port < 24 → port ∉ s.deadLinks → s.replays.length = 24 →
      let n := if again then s.replays.getD port 0 else 0
      (n < 16 → exec (.flitReplay port again) s = .next { s with replays := s.replays.set port (n + 1) }) ∧
      (16 ≤ n → ∃ t rs, exec (.flitReplay port again) s = .next t ∧ t.deadLinks = s.deadLinks ++ [port] ∧ t.drainShelf = true ∧ t.routesTo = some rs ∧
        t.restackTo.isSome = true ∧ rs.length = routes.length ∧
        (∀ (i : Nat) (e : BitVec 24), routes[i]? = some e → ∃ e', rs[i]? = some e' ∧ ∀ k < 8, field e' k =
          if port / 3 = k ∧ (field e k).toNat = 4 + port % 3 then 0 else field e k) ∧
        { t with deadLinks := s.deadLinks, reports := s.reports, routesTo := s.routesTo, restackTo := s.restackTo, drainShelf := s.drainShelf,
                 restackAt := s.restackAt, drainAt := s.drainAt } = s))

/-- R413, R429, R430, R431, R432, R433, R434: an uncorrectable error poisons data where it lies; drops a clean line or a cached translation; sets ERR and RETIRED in
a counter word; kills the gang whose warp it struck, or marks its saved image; ends a context; and in shared state resets the saggar. A shelf whose switch fails is declared dead. -/
def Claims.ErrorsAreHandled : Prop :=
  ∀ (s : State),
    (∀ k, ∃ t, exec (.eccError (.stackLine k)) s = .next t ∧ t.poisonLine k = true ∧ t.mem = s.mem ∧ (∀ w, t.regs w = s.regs w) ∧
      ∀ j, j ≠ k → t.poisonLine j = s.poisonLine j) ∧
    (∀ asid vline l, findLine s.llc asid vline = some l → ∀ cl core,
      ((∀ p ∈ s.pinned, ¬(p.asid = asid ∧ p.va ≤ 128 * vline ∧ 128 * vline < p.va + p.size)) →
        ∃ t, exec (.eccError (.cacheData .llc cl core asid vline)) s = .next t ∧ findLine t.llc asid vline = some { l with poison := true }) ∧
      (l.dirty = false → l.pending = false → ∃ t, exec (.eccError (.cleanTag .llc cl core asid vline)) s = .next t ∧
        { t with llc := s.llc } = s ∧ ∀ m ∈ t.llc, m ∈ s.llc ∧ m ≠ l)) ∧
    (∀ asid va, ∃ t, exec (.eccError (.tlbEntry asid va)) s = .next t ∧ { t with tlb := s.tlb } = s ∧
      ∀ e ∈ t.tlb, ¬(e.asid = asid ∧ e.va ≤ va % 2 ^ 57 ∧ va % 2 ^ 57 < e.va + e.size)) ∧
    (∀ (l : Loc), l.place = .nc → l.addr + 8 ≤ shelfTable → (∀ i < 8, s.aliased (l.addr + i) = false) → s.mem.wf = true → s.migrations = [] → (s.ctrTag l).isSome = true →
      (∀ x ∈ s.warps, ∀ ws, x.hold ≠ .counter ws) →
      ∃ t, exec (.eccError (.counterWord l)) s = .next t ∧ ctrErr (t.ctrWordAt l) = true ∧ ctrRetired (t.ctrWordAt l) = true ∧ t.tags = s.tags) ∧
    (∀ (w g : Nat) (x : Warp) (k : Gang) (l : Launch), s.warp? w = some x → x.state ≠ .ended → s.gangOf w = some g → s.gangs[g]? = some k →
      k.killed = false → s.launches[k.launch]? = some l →
      (k.saved = true → exec (.eccError (.warpState w)) s = .next { s with gangs := s.gangs.set g { k with damaged := true } }) ∧
      (k.saved = false → ∃ t, exec (.eccError (.warpState w)) s = .next t ∧ (t.gangs[g]?).map Gang.killed = some true)) ∧
    (∀ (c : Nat) (x : Ctx) (log : Bool), s.ctxs[c]? = some x → x.live = true →
      ∃ t, exec (.eccError (.contextState c log)) s = .next t ∧ (t.ctxs[c]?).map Ctx.live = some false ∧
        t.reports.getLast? = some { kind := 1, fields := [c] }) ∧
    (∀ saggar, exec (.eccError (.shared saggar none)) s = exec (.saggarReset saggar 1 [] [] []) s) ∧
    (∀ k, exec (.eccError (.shelfSwitch k none)) s = exec (.shelfHeartbeatTimeout k) s)

/-- R426, R434, R435, R436: a reset of a saggar takes the live bits of its faulty units, and it is in service after it just where R436 holds; a cause that
arises during a reset, at its clk (the model's choice, log 115), is absorbed into it. A
function-level reset ends every context of its function. -/
def Claims.SaggarsReset : Prop :=
  (∀ (s : State) (saggar cause : Nat) (cs ss hs : List (Nat × Nat)),
    (cause = 0 ∨ 4 < cause → exec (.saggarReset saggar cause cs ss hs) s = .next s) ∧
    (1 ≤ cause → cause ≤ 4 → ∃ t, exec (.saggarReset saggar cause cs ss hs) s = .next t ∧
      ((saggar, s.clk) ∈ s.resetAt → t.partition = s.partition) ∧
      (s.partition.dies saggar ≠ [] → (saggar, s.clk) ∉ s.resetAt →
        (∀ u, s.partition.saggarOf u.1 = saggar → (u ∈ cs → u ∈ t.partition.deadClusters) ∧ (u ∈ ss → u ∈ t.partition.deadSlices) ∧
          (u ∈ hs → u ∈ t.partition.deadChannels)) ∧
        (saggar < s.partition.inService.length → t.partition.serves saggar = t.viable saggar)))) ∧
  ∀ (s : State) (func : Nat),
    (func = 0 ∨ 63 < func → exec (.flr func) s = .next s) ∧
    (0 < func → func ≤ 63 → ∃ t, exec (.flr func) s = .next t ∧
      ∀ (c : Nat) (x : Ctx), s.ctxs[c]? = some x → x.func = func → (t.ctxs[c]?).map Ctx.live = some false)

/-- Uncorrectable errors and resets: ErrorsAreHandled and SaggarsReset above. -/
def Obligations.ErrorsAreHandled : Prop :=
  Claims.ErrorsAreHandled ∧ Claims.SaggarsReset

/-- R360, R439, R440, R441, R442, R443, R444: a module reset that finds a good image brings up one die, with memory, contexts, caches and time as at reset,
burns the fuses, and measures each stage; a bad image leaves no saggar in service. A bank that no update has written holds the factory's image (log 78). Full
service takes the live bits of the units that failed their tests, sets the route table (which units and which routes is free, logs 2 and 78) and ends every context. An image is taken to the inactive bank alone. An
index signs once. The clock is lowered by steps, and raised after 10 ms. At 105 °C no saggar stays in service. -/
def Obligations.ModuleIsServed : Prop :=
  ∀ (s : State),
    (let img := (s.banks.getD s.nextBank none).getD factoryImage
     ∃ t, exec .moduleReset s = .next t ∧
      t.mem = [] ∧ t.ctxs = [] ∧ t.warps = [] ∧ t.llc = [] ∧ t.clk = 0 ∧ t.time = 0 ∧ t.liveShelves = 0xFF ∧ t.epoch = 0 ∧ t.fullService = false ∧
      (s.goodImage img = true → t.bootDone = true ∧ t.fuse = max s.fuse img.version.toNat ∧
        t.measurements = (img.body :: img.stages).map (fun b => shake256 b 32) ∧ ∃ d < 4, ∀ k, t.partition.serves k = decide (k = d)) ∧
      (s.goodImage img = false → t.bootDone = false ∧ t.fuse = s.fuse ∧ ∀ k, t.partition.serves k = false)) ∧
    (let drawn := fun (k : Nat) => Config.freeBits (s.freeCtr + k);
      (s.bootDone = true → s.fullService = false → ∃ t, exec .fullService s = .next t ∧ t.fullService = true ∧
        (∀ c ∈ t.ctxs, c.live = false) ∧
        (∀ d k, (d, k) ∈ t.partition.deadClusters ↔ d < 4 ∧ k < 64 ∧ (drawn (64 * d + k)).getLsbD 0 = true) ∧
        (∀ d k, (d, k) ∈ t.partition.deadSlices ↔ d < 4 ∧ k < 96 ∧ (drawn (256 + 96 * d + k)).getLsbD 0 = true) ∧
        (∀ d k, (d, k) ∈ t.partition.deadChannels ↔ d < 4 ∧ k < 192 ∧ (drawn (640 + 192 * d + k)).getLsbD 0 = true) ∧
        (∀ n < 255, t.routes[n]? = some ((drawn (1408 + n)).setWidth 24)) ∧ ∀ k < 4, t.partition.serves k = t.viable k) ∧
      (s.bootDone = false ∨ s.fullService = true → exec .fullService s = .next s)) ∧
    (∀ img, (s.goodImage img = true → exec (.firmwareUpdate img) s =
        .next { s with banks := s.banks.set (1 - s.bootBank) (some img), nextBank := 1 - s.bootBank }) ∧
      (s.goodImage img = false → exec (.firmwareUpdate img) s = .next s)) ∧
    (∀ nonce, (s.bootDone = true → nonce.length = 64 → s.attestIx < 2 ^ 20 → ∃ t r, exec (.attestationReport nonce) s = .next t ∧
        t.attestIx = s.attestIx + 1 ∧ t.reports = s.reports ++ [r] ∧ r.kind = 10 ∧ r.fields.take 64 = nonce.map BitVec.toNat) ∧
      (s.bootDone = false ∨ nonce.length ≠ 64 ∨ 2 ^ 20 ≤ s.attestIx → exec (.attestationReport nonce) s = .next s)) ∧
    (0 < s.powerStep → exec .throttleStep s = .next { s with powerStep := s.powerStep - 1, throt := true, powerAt := s.time.toNat }) ∧
    (s.powerStep = 0 → exec .throttleStep s = .next s) ∧
    (s.powerStep < 8 → s.powerAt + 10000000 ≤ s.time.toNat →
      ∃ t, exec .throttleRaise s = .next t ∧ t.powerStep = s.powerStep + 1 ∧ (t.throt = true ↔ t.powerStep < 8)) ∧
    (8 ≤ s.powerStep ∨ s.time.toNat < s.powerAt + 10000000 → exec .throttleRaise s = .next s) ∧
    (∃ t, exec .thermalThrottle s = .next t ∧ t.powerStep = 0 ∧ t.throt = true ∧ t.time = s.time ∧ ∀ w, t.regs w = s.regs w) ∧
    (∃ t, exec .thermalTrip s = .next t ∧ t.powered = false ∧ ∀ k, t.partition.serves k = false)


/-! ### Words, steps and the machine -/

/-- R66, R67, R68, R69, R74, R92, R101, R103: every well-formed instruction has one word, which decodes to it with every operand; and a word that decodes is
the word of the well-formed instruction that it decodes to. -/
def Obligations.DecodeIsInverseOfEncode : Prop :=
  (∀ i : Instr, i.wf = true → i.isWord = true → decodeWord (encode i) = some i) ∧
  ∀ (w : DWord) (i : Instr), decodeWord w = some i → i.wf = true ∧ i.isWord = true ∧ encode i = w

/-- R66, R68, R70, R71, R88, R93 to R99: the words of the panels of R88, and words of other opcode groups written out from their tables, are the instructions
they stand for; a word whose opcode no table assigns is none. -/
def Obligations.SpecWordsDecode : Prop :=
  decodeWord 0x2051C07030100009 = some (.fadd ⟨5, 0, 7, false⟩ .f32 .rn (.v 7) (.v 6) (.v 4)) ∧
  decodeWord 0x014080200FFFFA06 = some (.iaddImm ⟨4, 0, 2, false⟩ .i32 false (.v 2) (.v 1) 0x3FFFD) ∧
  decodeWord 0x1E41C093C003C002 = some (.movi ⟨4, 0, 7, false⟩ .n32 (.v 9) 0x3C003C00) ∧
  decodeWord 0x7005C0CA20008002 = some (.ld ⟨0, 2, 7, false⟩ .n32 .dflt .normal (.v 12) (.s 4) 0x40) ∧
  decodeWord 0x7105C0DA100E2002 = some (.ldIdx ⟨0, 2, 7, false⟩ .n32 .dflt .normal (.v 13) (.s 2) (.v 3) 2 16) ∧
  decodeWord 0xD001D1C0FFFFFFF8 = some (.bra ⟨0, 0, 7, false⟩ true .each ⟨3, true⟩ 0xFFFFFFF8) ∧
  decodeWord 0x5211C0603000CE00 = some (.vrev ⟨1, 0, 7, false⟩ 3 (.v 6) (.v 6) 7) ∧
  decodeWord 0x8003C050301C0002 = some (.atomAdd ⟨0, 1, 7, false⟩ .n32 .dflt .normal (.v 5) (.v 6) (.v 7) none) ∧
  decodeWord 0xA101C00A25140000 = some (.ctradd ⟨0, 0, 7, false⟩ .dflt .dflt none (.s 4) (.s 5) none) ∧
  decodeWord 0xA801C00005C00000 = some (.fence ⟨0, 0, 7, false⟩ .device .ar) ∧
  decodeWord 0xDB01C0000000BAD0 = some (.trap ⟨0, 0, 7, false⟩ 0xBAD) ∧
  decodeWord 0x1B01C00000000000 = none

/-- R17, R61, R66, R85, R103: where the agenda names a warp that stands at a word of a clause that holds a pipe, a step runs the instruction that the word
decodes to for that warp, whose context's cone returns to 0 (R371); a word that is no instruction raises ILLEGAL for the issue set. A clause that holds no
pipe first takes one, and waits where it cannot (R80, R341). Where the agenda names an event of the table, a step is that event. The agenda is the model's own (log 1). -/
def Obligations.StepRunsDecoded : Prop :=
  (∀ (s : State) (w : Nat) (r : List Turn) (x : Warp) (c : Clause) (v : DWord), s.agenda = .issue w :: r → s.warp? w = some x → x.state = .active →
    x.clause = some c → c.words[c.idx]? = some v → x.pipe.isSome = true →
    (∀ i, decodeWord v = some i → step s = exec i { ({ s with agenda := r } : State).coneReset w with cur := w }) ∧
    (decodeWord v = none → x.hold = .none → x.ahead = false →
      ∃ t y, step s = .next t ∧ t.warp? w = some y ∧ y.state = .trapped ∧ y.regs = x.regs ∧ y.fault[1]? = some (0x01#32 ++ c.iset) ∧
        y.resume.index = c.idx ∧ y.resume.done = false)) ∧
  (∀ (s : State) (w : Nat) (r : List Turn) (x : Warp) (c : Clause), s.agenda = .issue w :: r → s.warp? w = some x → x.clause = some c →
    c.idx < c.words.length → x.pipe = none → x.state = .active → x.hold = .none →
    let s' := { s with agenda := r }
    let p := s'.pipeFor w x c.cls
    let t := s'.modWarp w (fun y => { y with pipe := p, candAt := none })
    step s = if p.isSome then step { t with agenda := .issue w :: r } else .next s') ∧
  ∀ (s : State) (i : Instr) (r : List Turn), s.agenda = .event i :: r → i.isWord = false → step s = exec i { s with agenda := r }

/-- R65, R85, R276, R305: the machine never stops: from every state a step leads to a next state, which an instruction or event that cannot have its effect
leaves by its trap or as it was. The turns that a step takes are the model's own (log 1). -/
def Obligations.EveryStepGoesOn : Prop := ∀ s : State, ∃ t, step s = .next t

/-- R5, R294, R313: every step keeps memory in its canonical form, so that equal memories are equal data. The form is the model's own (log 3). -/
def Obligations.StepsKeepMemoryForm : Prop := ∀ s t : State, s.mem.wf = true → step s = .next t → t.mem.wf = true

/-- R272, R38, R40: every step keeps the register files of all warps and checkpoints as R272 has them, and the maps of L entries as their tags say. -/
def Obligations.StepsKeepRegisterFiles : Prop := ∀ s t : State, s.shaped = true → step s = .next t → t.shaped = true

/-- R357, R374, R434, R439, R443: the module right after reset: no context, launch or warp, nothing cached, device time 0, not locked, every shelf live and
EPOCH 0, STEP 8, LIMIT 2400 and THROT 0; and the invariants hold. That an unwritten byte of a stack reads 0 is the model's choice (log 3). -/
def Obligations.ResetIsAsStated : Prop :=
  let s := State.reset
  s.ctxs = [] ∧ s.launches = [] ∧ s.gangs = [] ∧ s.blocks = [] ∧ s.warps = [] ∧ s.llc = [] ∧ s.clusters = [] ∧ s.cores = [] ∧ s.tags = [] ∧
  s.time = 0 ∧ s.locked = false ∧ s.shelfWord = 0x8FF ∧ s.powerStep = 8 ∧ s.powerLimit = 2400 ∧ s.throt = false ∧
  (∀ a, s.mem.read a = 0) ∧ s.mem.wf = true ∧ s.shaped = true

/-- R5: a value of n bytes in memory is little-endian: bit i of it is bit i mod 8 of the byte i / 8 after its first, as it is read and as it is written. -/
def Obligations.MemoryIsLittleEndian : Prop :=
  (∀ (m : Memory) (a i : Nat), i < 64 → (read64 m a).getLsbD i = (m.read (a + i / 8)).getLsbD (i % 8)) ∧
  (∀ (s : State) (l : Loc) (n i : Nat), n ≤ 8 → i < 64 →
    (s.placeVal l n).getLsbD i = (decide (i < 8 * n) && (s.placeRead l (i / 8)).getLsbD (i % 8))) ∧
  ∀ (s : State) (l : Loc) (n k : Nat) (v : DWord), n ≤ 8 → placeKey l = some k → s.mem.wf = true → s.migrations = [] →
    ∀ i < 8 * n, ((s.placePut l n v).mem.read (k + i / 8)).getLsbD (i % 8) = v.getLsbD i
end

