-- ==== Sys2Proof/Laws/Lanes.lean ====
section
/-! SUPPORT. Laws of lane maps: what writing a map leaves in registers and tables, and what computing under the anchor rule delivers. -/
namespace Sys2Proof.Machine

/-! ### Threads -/

theorem mem_threads {t : Nat} : t ∈ threads ↔ t < 32 := by simp [threads]

theorem ofFn_at (f : Nat → Option (Fin 32)) {t : Nat} (h : t < 32) : (LMap.ofFn f).at t = f t := by
  simp [LMap.ofFn, LMap.at, threads, h]

theorem ident_at {t : Nat} (h : t < 32) : LMap.ident.at t = some (Fin.ofNat 32 t) := ofFn_at _ h

/-! ### Registers by name -/

/-- A register stands in the file. -/
def Regs.has (r : Regs) : Reg → Prop
  | .v n => n < r.v.length
  | .o n => n < r.o.length
  | .s n => n < r.s.length
  | .p n => n < r.p.length

/-- A V or O register. -/
def Reg.isVec : Reg → Prop
  | .v _ | .o _ => True
  | .s _ | .p _ => False

theorem Regs.vreg_setVreg_self (r : Regs) (d : Reg) (y : VReg) (hv : d.isVec) (hd : r.has d) : (r.setVreg d y).vreg d = y := by
  cases d <;> simp_all [Regs.setVreg, Regs.vreg, Regs.has, Reg.isVec, List.getD]

theorem Regs.vreg_setVreg_ne (r : Regs) {d e : Reg} (y : VReg) (h : e ≠ d) : (r.setVreg d y).vreg e = r.vreg e := by
  cases d <;> cases e <;> simp_all [Regs.setVreg, Regs.vreg, List.getD, List.getElem?_set]
  all_goals (rw [if_neg (fun hne => h hne.symm)])

@[simp] theorem Regs.setVreg_mt (r : Regs) (d : Reg) (y : VReg) : (r.setVreg d y).mt = r.mt := by cases d <;> rfl
@[simp] theorem Regs.setVreg_s (r : Regs) (d : Reg) (y : VReg) : (r.setVreg d y).s = r.s := by cases d <;> rfl
@[simp] theorem Regs.setVreg_p (r : Regs) (d : Reg) (y : VReg) : (r.setVreg d y).p = r.p := by cases d <;> rfl
@[simp] theorem Regs.setVreg_lpc (r : Regs) (d : Reg) (y : VReg) : (r.setVreg d y).lpc = r.lpc := by cases d <;> rfl
@[simp] theorem Regs.setVreg_sb (r : Regs) (d : Reg) (y : VReg) : (r.setVreg d y).sb = r.sb := by cases d <;> rfl
@[simp] theorem Regs.setVreg_draws (r : Regs) (d : Reg) (y : VReg) : (r.setVreg d y).draws = r.draws := by cases d <;> rfl

@[simp] theorem Regs.has_setVreg (r : Regs) (d e : Reg) (y : VReg) : (r.setVreg d y).has e ↔ r.has e := by
  cases d <;> cases e <;> simp [Regs.setVreg, Regs.has]

/-- Everything of a register file but its V and O registers and tables. -/
def Regs.sameRest (r q : Regs) : Prop := r.s = q.s ∧ r.p = q.p ∧ r.lpc = q.lpc ∧ r.sb = q.sb ∧ r.draws = q.draws

theorem Regs.sameRest_refl (r : Regs) : r.sameRest r := ⟨rfl, rfl, rfl, rfl, rfl⟩

theorem Regs.sameRest.trans {a b c : Regs} (h : a.sameRest b) (k : b.sameRest c) : a.sameRest c :=
  ⟨h.1.trans k.1, h.2.1.trans k.2.1, h.2.2.1.trans k.2.2.1, h.2.2.2.1.trans k.2.2.2.1, h.2.2.2.2.trans k.2.2.2.2⟩

theorem Regs.sameRest_setVreg (r : Regs) (d : Reg) (y : VReg) : (r.setVreg d y).sameRest r := by cases d <;> simp [Regs.sameRest]

/-! ### Tables -/

theorem refTag_ents (mt : List MapTable) (t : BitVec 16) (f : Nat → Nat) (k : Nat) :
    ((refTag mt t f).getD k .free).ents = (mt.getD k .free).ents := by
  unfold refTag
  split
  · simp only [List.getD, List.getElem?_modify]
    split <;> cases mt[k]? <;> rfl
  · rfl

theorem refTag_length (mt : List MapTable) (t : BitVec 16) (f : Nat → Nat) : (refTag mt t f).length = mt.length := by
  unfold refTag; split <;> simp

theorem foldl_refTag_ents {α : Type} (ds : List α) (g : α → BitVec 16) (f : Nat → Nat) (mt : List MapTable) (k : Nat) :
    ((ds.foldl (fun mt d => refTag mt (g d) f) mt).getD k .free).ents = (mt.getD k .free).ents := by
  induction ds generalizing mt with
  | nil => rfl
  | cons d ds ih => rw [List.foldl_cons, ih, refTag_ents]

theorem foldl_refTag_length {α : Type} (ds : List α) (g : α → BitVec 16) (f : Nat → Nat) (mt : List MapTable) :
    (ds.foldl (fun mt d => refTag mt (g d) f) mt).length = mt.length := by
  induction ds generalizing mt with
  | nil => rfl
  | cons d ds ih => rw [List.foldl_cons, ih, refTag_length]

/-- A tag's map depends on the entries of tables alone. -/
theorem tagMap_congr {mt mt' : List MapTable} (h : ∀ k, (mt.getD k .free).ents = (mt'.getD k .free).ents) (t : BitVec 16) :
    tagMap mt t = tagMap mt' t := by
  unfold tagMap
  split
  · exact h _
  · rfl
  · rfl

@[simp] theorem releaseTags_vreg (r : Regs) (ds : List Reg) (d : Reg) : (releaseTags r ds).vreg d = r.vreg d := by cases d <;> rfl

@[simp] theorem releaseTags_has (r : Regs) (ds : List Reg) (d : Reg) : (releaseTags r ds).has d ↔ r.has d := by cases d <;> rfl

theorem releaseTags_sameRest (r : Regs) (ds : List Reg) : (releaseTags r ds).sameRest r := ⟨rfl, rfl, rfl, rfl, rfl⟩

theorem releaseTags_tagMap (r : Regs) (ds : List Reg) (t : BitVec 16) : tagMap (releaseTags r ds).mt t = tagMap r.mt t :=
  tagMap_congr (fun k => foldl_refTag_ents ds (fun d => (r.vreg d).tag) (· - 1) r.mt k) t

theorem releaseTags_length (r : Regs) (ds : List Reg) : (releaseTags r ds).mt.length = r.mt.length :=
  foldl_refTag_length ds _ _ _

/-- Setting one function of each register of a list. -/
theorem foldl_setVreg_vreg (ds : List Reg) (g : VReg → VReg) (r : Regs) (hn : ds.Nodup) (hv : ∀ d ∈ ds, d.isVec) (hd : ∀ d ∈ ds, r.has d)
    (e : Reg) : (ds.foldl (fun r d => r.setVreg d (g (r.vreg d))) r).vreg e = if e ∈ ds then g (r.vreg e) else r.vreg e := by
  induction ds generalizing r with
  | nil => simp
  | cons d ds ih =>
    obtain ⟨hd1, hn⟩ := List.nodup_cons.mp hn
    rw [List.foldl_cons, ih _ hn (fun x hx => hv x (by simp [hx])) (fun x hx => by simpa using hd x (by simp [hx]))]
    by_cases he : e = d
    · subst he
      simp [hd1, Regs.vreg_setVreg_self r e _ (hv e (by simp)) (hd e (by simp))]
    · rw [Regs.vreg_setVreg_ne r _ he]
      simp [he]

theorem foldl_setVreg_sameRest (ds : List Reg) (g : Regs → Reg → VReg) (r : Regs) :
    (ds.foldl (fun r d => r.setVreg d (g r d)) r).sameRest r := by
  induction ds generalizing r with
  | nil => exact r.sameRest_refl
  | cons d ds ih => exact (ih _).trans (r.sameRest_setVreg d _)

theorem foldl_setVreg_mt (ds : List Reg) (g : Regs → Reg → VReg) (r : Regs) :
    (ds.foldl (fun r d => r.setVreg d (g r d)) r).mt = r.mt := by
  induction ds generalizing r with
  | nil => rfl
  | cons d ds ih => rw [List.foldl_cons, ih]; simp

theorem foldl_setVreg_has (ds : List Reg) (g : Regs → Reg → VReg) (r : Regs) (e : Reg) :
    (ds.foldl (fun r d => r.setVreg d (g r d)) r).has e ↔ r.has e := by
  induction ds generalizing r with
  | nil => rfl
  | cons d ds ih => rw [List.foldl_cons, ih]; simp

theorem giveTag_vreg (r : Regs) (ds : List Reg) (t : BitVec 16) (hn : ds.Nodup) (hv : ∀ d ∈ ds, d.isVec) (hd : ∀ d ∈ ds, r.has d) (e : Reg) :
    (giveTag r ds t).vreg e = if e ∈ ds then { r.vreg e with tag := t } else r.vreg e := by
  unfold giveTag
  rw [foldl_setVreg_vreg ds (fun y => { y with tag := t }) _ hn hv (fun d h => by have := hd d h; cases d <;> exact this)]
  cases e <;> rfl

theorem giveTag_tagMap (r : Regs) (ds : List Reg) (t u : BitVec 16) : tagMap (giveTag r ds t).mt u = tagMap r.mt u := by
  unfold giveTag
  rw [foldl_setVreg_mt ds (fun r d => { r.vreg d with tag := t })]
  exact tagMap_congr (fun k => foldl_refTag_ents ds (fun _ => t) (· + 1) r.mt k) u

theorem giveTag_sameRest (r : Regs) (ds : List Reg) (t : BitVec 16) : (giveTag r ds t).sameRest r :=
  (foldl_setVreg_sameRest ds (fun r d => { r.vreg d with tag := t }) _).trans ⟨rfl, rfl, rfl, rfl, rfl⟩

theorem giveTag_has (r : Regs) (ds : List Reg) (t : BitVec 16) (e : Reg) : (giveTag r ds t).has e ↔ r.has e := by
  unfold giveTag
  rw [foldl_setVreg_has ds (fun r d => { r.vreg d with tag := t })]
  cases e <;> rfl

theorem canonTag_map {m : LMap} {t : BitVec 16} (h : canonTag m = some t) (mt : List MapTable) {i : Nat} (hi : i < 32) :
    (tagMap mt t).at i = m.at i := by
  unfold canonTag at h
  split at h
  · obtain rfl := Option.some.inj h
    rename_i hm
    rw [eq_of_beq hm]
    rw [show tagMap mt (mkTag 0 0 0 0) = .ofFn (fun j => some (Fin.ofNat 32 (patAt 0 0 0 j))) from rfl, ofFn_at _ hi, ident_at hi]
    rfl
  · split at h
    · obtain rfl := Option.some.inj h
      rename_i _ hm
      have := List.all_eq_true.mp hm i (mem_threads.mpr hi)
      rw [show tagMap mt (mkTag 6 0 0 0) = LMap.void from rfl, LMap.void, ofFn_at _ hi]
      exact (Option.isNone_iff_eq_none.mp this).symm
    · cases h

theorem freeTable_lt {mt : List MapTable} {k : Nat} (h : freeTable mt = some k) : k < 16 := by
  have := List.mem_of_find?_eq_some h
  simpa using this

theorem tableTag (k : Nat) (hk : k < 16) : tagClass (mkTag 5 0 0 k) = 5 ∧ tagTix (mkTag 5 0 0 k) = k := by
  have : ∀ k : Fin 16, tagClass (mkTag 5 0 0 k.val) = 5 ∧ tagTix (mkTag 5 0 0 k.val) = k.val := by decide
  exact this ⟨k, hk⟩

theorem fireMap_at (m : LMap) {t : Nat} (h : t < 32) : (fireMap m).at t = (m.at t).map (fun _ => Fin.ofNat 32 t) := ofFn_at _ h

theorem fireSlots_get (slots : List Word) (m : LMap) {t : Nat} (h : t < 32) {p : Fin 32} (hp : m.at t = some p) :
    (fireSlots slots m).getD t 0 = slots.getD p.val 0 := by
  simp [fireSlots, threads, h, hp]

/-- What writing a map says once (R41, R46, R47): each register of the result reads its old slots through the map, every other register and
everything that is no V or O register or table is as it was. -/
theorem writeMap_spec {r : Regs} {ds : List Reg} {m : LMap} {byRef : Option (BitVec 16)} {l : LaneRes} (h : writeMap r ds m byRef = .ok l)
    (hn : ds.Nodup) (hv : ∀ d ∈ ds, d.isVec) (hd : ∀ d ∈ ds, r.has d) (hmt : r.mt.length = 16)
    (hb : ∀ t, byRef = some t → ∀ i < 32, (tagMap r.mt t).at i = m.at i) :
    (∀ d ∈ ds, ∀ i < 32, l.regs.elem d i = (m.at i).map (fun p => (r.vreg d).slots.getD p.val 0)) ∧
    (∀ e, e ∉ ds → l.regs.vreg e = r.vreg e) ∧ l.regs.sameRest r := by
  have hd' : ∀ d ∈ ds, (releaseTags r ds).has d := fun d h => (releaseTags_has r ds d).mpr (hd d h)
  have given : ∀ (q : Regs) (t : BitVec 16), q.sameRest r → (∀ d, q.vreg d = r.vreg d) → (∀ d ∈ ds, q.has d) →
      (∀ i < 32, (tagMap q.mt t).at i = m.at i) →
      (∀ d ∈ ds, ∀ i < 32, (giveTag q ds t).elem d i = (m.at i).map (fun p => (r.vreg d).slots.getD p.val 0)) ∧
      (∀ e, e ∉ ds → (giveTag q ds t).vreg e = r.vreg e) ∧ (giveTag q ds t).sameRest r := by
    intro q t hq hvr hqd ht
    refine ⟨fun d hdm i hi => ?_, fun e he => ?_, (giveTag_sameRest q ds t).trans hq⟩
    · simp only [Regs.elem, Regs.map, giveTag_vreg q ds t hn hv hqd d, if_pos hdm, giveTag_tagMap, ht i hi, hvr]
    · rw [giveTag_vreg q ds t hn hv hqd e, if_neg he, hvr]
  unfold writeMap at h
  simp only at h
  split at h
  · obtain rfl := Except.ok.inj h
    exact given _ _ (releaseTags_sameRest r ds) (releaseTags_vreg r ds) hd' (fun i hi => by
      rw [releaseTags_tagMap]; exact hb _ rfl i hi)
  · split at h
    · obtain rfl := Except.ok.inj h
      exact given _ _ (releaseTags_sameRest r ds) (releaseTags_vreg r ds) hd' (fun i hi => canonTag_map ‹_› _ hi)
    · split at h
      · rename_i k hk
        obtain rfl := Except.ok.inj h
        have hk16 := freeTable_lt hk
        obtain ⟨hc, ht⟩ := tableTag k hk16
        refine given _ _ ⟨rfl, rfl, rfl, rfl, rfl⟩ (fun d => by cases d <;> rfl) (fun d h => by have := hd' d h; cases d <;> exact this)
          (fun i hi => ?_)
        simp [tagMap, hc, ht, releaseTags_length, hmt, hk16, List.getD]
      · split at h
        · cases h
        · rename_i t ht
          obtain rfl := Except.ok.inj h
          set q := ds.foldl (fun r d => r.setVreg d { r.vreg d with slots := fireSlots (r.vreg d).slots m }) (releaseTags r ds) with hq
          have hqv : ∀ e, q.vreg e = if e ∈ ds then { r.vreg e with slots := fireSlots (r.vreg e).slots m } else r.vreg e := by
            intro e
            rw [hq, foldl_setVreg_vreg ds (fun y => { y with slots := fireSlots y.slots m }) _ hn hv hd' e]
            simp
          have hqd : ∀ d ∈ ds, q.has d := fun d h => by
            rw [hq, foldl_setVreg_has ds (fun r d => { r.vreg d with slots := fireSlots (r.vreg d).slots m })]; exact hd' d h
          have hqr : q.sameRest r := (foldl_setVreg_sameRest ds (fun r d => { r.vreg d with slots := fireSlots (r.vreg d).slots m }) _).trans
            (releaseTags_sameRest r ds)
          refine ⟨fun d hdm i hi => ?_, fun e he => ?_, (giveTag_sameRest q ds t).trans hqr⟩
          · simp only [Regs.elem, Regs.map, giveTag_vreg q ds t hn hv hqd d, if_pos hdm, giveTag_tagMap, hqv d, canonTag_map ht q.mt hi,
              fireMap_at m hi]
            cases hm : m.at i with
            | none => rfl
            | some p =>
              have : (Fin.ofNat 32 i).val = i := by simp [Nat.mod_eq_of_lt hi]
              exact congrArg some ((congrArg (fun k => (fireSlots (r.vreg d).slots m).getD k 0) this).trans (fireSlots_get _ m hi hm))
          · rw [giveTag_vreg q ds t hn hv hqd e, if_neg he, hqv e, if_neg he]

/-- Writing a map succeeds where the map fits (R41, R46, R47). -/
theorem writeMap_ok {r : Regs} {ds : List Reg} {m : LMap} (byRef : Option (BitVec 16)) (h : mapFits r ds m = true) :
    ∃ l, writeMap r ds m byRef = .ok l := by
  unfold writeMap
  cases byRef with
  | some t => exact ⟨_, rfl⟩
  | none =>
    cases hc : canonTag m with
    | some t => exact ⟨_, rfl⟩
    | none =>
      cases hf : freeTable (releaseTags r ds).mt with
      | some k => exact ⟨_, by simp only [hf]; rfl⟩
      | none =>
        cases hm : canonTag (fireMap m) with
        | some t => exact ⟨_, by simp only [hf, hm]; rfl⟩
        | none => simp [mapFits, hc, hf, hm] at h

end Sys2Proof.Machine
end

