-- ==== Sys2Proof/Laws/LaneWrite.lean ====
section
/-! SUPPORT. Laws of results: what writing slots at an anchor leaves in the registers of a destination and in all others. -/
namespace Sys2Proof.Machine

/-! ### Writing slots -/

/-- One word written into its slot. -/
def putStep (g : Nat → Option (Fin 32 × Word)) (sl : List Word) (t : Nat) : List Word :=
  match g t with
  | some x => sl.set x.1.val x.2
  | none => sl

theorem putStep_length (g : Nat → Option (Fin 32 × Word)) (sl : List Word) (t : Nat) : (putStep g sl t).length = sl.length := by
  unfold putStep; split <;> simp

/-- Words written one after another into slots. -/
def putSlots (g : Nat → Option (Fin 32 × Word)) (ts : List Nat) (sl : List Word) : List Word := ts.foldl (putStep g) sl

theorem putSlots_length (g : Nat → Option (Fin 32 × Word)) (ts : List Nat) (sl : List Word) : (putSlots g ts sl).length = sl.length := by
  induction ts generalizing sl with
  | nil => rfl
  | cons t ts ih => exact (ih _).trans (putStep_length g sl t)

/-- A slot holds the last word written to it. -/
theorem putSlots_get (g : Nat → Option (Fin 32 × Word)) (ts : List Nat) (sl : List Word) (hl : sl.length = 32) (p : Fin 32) :
    (putSlots g ts sl).getD p.val 0 =
      match ts.reverse.find? (fun u => (g u).any (fun x => x.1 == p)) with
      | some u => ((g u).map Prod.snd).getD 0
      | none => sl.getD p.val 0 := by
  induction ts generalizing sl with
  | nil => rfl
  | cons t ts ih =>
    show (putSlots g ts (putStep g sl t)).getD _ _ = _
    rw [ih _ ((putStep_length g sl t).trans hl), List.reverse_cons, List.find?_append]
    cases hf : ts.reverse.find? (fun u => (g u).any (fun x => x.1 == p)) with
    | some u => simp
    | none =>
      cases hg : g t with
      | none => simp [hg, putStep]
      | some x =>
        by_cases hx : x.1 = p
        · subst hx; simp [hg, hl, putStep]
        · have : x.1.val ≠ p.val := fun h => hx (Fin.ext h)
          simp [hg, hx, this, putStep]

/-- What one thread writes: its slot and its half of the result. -/
def slotWrite (act : Mask) (slots : LMap) (res : Nat → Option DWord) (half : DWord → Word) (t : Nat) : Option (Fin 32 × Word) :=
  if inMask act t then
    match res t, slots.at t with
    | some x, some p => some (p, half x)
    | _, _ => none
  else none

/-- One turn of the loop of `writeAt`. -/
def writeStep (ds : List Reg) (act : Mask) (slots : LMap) (res : Nat → Option DWord) (r : Regs) (t : Nat) : Regs :=
  if inMask act t then
    match res t, slots.at t with
    | some x, some p => writeSlot r ds p.val x
    | _, _ => r
  else r

/-- The loop of `writeAt`. -/
def writeLoop (ds : List Reg) (act : Mask) (slots : LMap) (res : Nat → Option DWord) (ts : List Nat) (r : Regs) : Regs :=
  ts.foldl (writeStep ds act slots res) r

theorem writeSlot_has (r : Regs) (ds : List Reg) (p : Nat) (x : DWord) (e : Reg) : (writeSlot r ds p x).has e ↔ r.has e := by
  unfold writeSlot; split <;> simp

theorem writeSlot_mt (r : Regs) (ds : List Reg) (p : Nat) (x : DWord) : (writeSlot r ds p x).mt = r.mt := by
  unfold writeSlot; split <;> simp

theorem writeSlot_sameRest (r : Regs) (ds : List Reg) (p : Nat) (x : DWord) : (writeSlot r ds p x).sameRest r := by
  unfold writeSlot
  split
  · exact r.sameRest_refl
  · exact r.sameRest_setVreg _ _
  · exact (Regs.sameRest_setVreg _ _ _).trans (r.sameRest_setVreg _ _)

theorem writeLoop_keeps (P : Regs → Prop) (ds : List Reg) (act : Mask) (slots : LMap) (res : Nat → Option DWord)
    (h : ∀ r p x, P r → P (writeSlot r ds p x)) (ts : List Nat) (r : Regs) (hr : P r) : P (writeLoop ds act slots res ts r) := by
  induction ts generalizing r with
  | nil => exact hr
  | cons t ts ih =>
    refine ih _ ?_
    unfold writeStep
    split
    · split
      · exact h _ _ _ hr
      · exact hr
    · exact hr

theorem writeLoop_vreg {ds : List Reg} {e : Reg} {half : DWord → Word} (act : Mask) (slots : LMap) (res : Nat → Option DWord)
    (h : ∀ r : Regs, (∀ d ∈ ds, r.has d) → ∀ p x, (writeSlot r ds p x).vreg e = { r.vreg e with slots := (r.vreg e).slots.set p (half x) })
    (ts : List Nat) (r : Regs) (hd : ∀ d ∈ ds, r.has d) :
    (writeLoop ds act slots res ts r).vreg e =
      { r.vreg e with slots := putSlots (slotWrite act slots res half) ts (r.vreg e).slots } := by
  induction ts generalizing r with
  | nil => rfl
  | cons t ts ih =>
    show (writeLoop ds act slots res ts (writeStep ds act slots res r t)).vreg e =
      VReg.mk (putSlots (slotWrite act slots res half) ts (putStep (slotWrite act slots res half) (r.vreg e).slots t)) (r.vreg e).tag
    have hstep : (∀ d ∈ ds, (writeStep ds act slots res r t).has d) ∧ (writeStep ds act slots res r t).vreg e =
        VReg.mk (putStep (slotWrite act slots res half) (r.vreg e).slots t) (r.vreg e).tag := by
      unfold writeStep putStep slotWrite
      by_cases ha : inMask act t = true
      · cases hr : res t with
        | none => exact ⟨by simpa [ha] using hd, by simp [ha]⟩
        | some x =>
          cases hs : slots.at t with
          | none => exact ⟨by simpa [ha] using hd, by simp [ha]⟩
          | some p =>
            simp only [ha, if_true]
            exact ⟨fun d hdm => (writeSlot_has r ds p.val x d).mpr (hd d hdm), h r hd p.val x⟩
      · exact ⟨by simpa [ha] using hd, by simp [ha]⟩
    rw [ih _ hstep.1, hstep.2]

/-- The registers of a destination: one, or a pair of different ones (R76). -/
def DstRegs (wide : Bool) (d : Reg) (ds : List Reg) : Prop := ds = if wide then [d, d.succ] else [d]

theorem succ_ne (d : Reg) (h : d.isVec) : d.succ ≠ d := by
  cases d <;> simp_all [Reg.succ, Reg.isVec]

theorem DstRegs.nodup {wide : Bool} {d : Reg} {ds : List Reg} (h : DstRegs wide d ds) (hv : d.isVec) : ds.Nodup := by
  subst h; cases wide <;> simp [(succ_ne d hv).symm]

theorem DstRegs.isVec {wide : Bool} {d : Reg} {ds : List Reg} (h : DstRegs wide d ds) (hv : d.isVec) : ∀ e ∈ ds, e.isVec := by
  subst h; cases wide <;> cases d <;> simp_all [Reg.succ, Reg.isVec]

/-- The half of a result that a register of its destination holds (R76). -/
def halfOf (d e : Reg) (x : DWord) : Word := if e = d then x.setWidth 32 else x.extractLsb' 32 32

theorem writeSlot_vreg {wide : Bool} {d : Reg} {ds : List Reg} (h : DstRegs wide d ds) (hv : d.isVec) {r : Regs} (hd : ∀ e ∈ ds, r.has e)
    {e : Reg} (he : e ∈ ds) (p : Nat) (x : DWord) :
    (writeSlot r ds p x).vreg e = { r.vreg e with slots := (r.vreg e).slots.set p (halfOf d e x) } := by
  have hs := h.isVec hv
  subst h
  cases wide with
  | false =>
    obtain rfl : e = d := by simpa using he
    simp only [writeSlot, halfOf]
    exact r.vreg_setVreg_self e _ hv (hd e he)
  | true =>
    have hne := succ_ne d hv
    rcases (by simpa using he : e = d ∨ e = d.succ) with rfl | rfl
    · simp only [if_true, writeSlot, halfOf]
      rw [Regs.vreg_setVreg_ne _ _ hne.symm, r.vreg_setVreg_self e _ hv (hd e he)]
    · simp only [if_true, writeSlot, halfOf, if_neg hne]
      rw [Regs.vreg_setVreg_self _ _ _ (hs _ he) (by simpa using hd _ he), Regs.vreg_setVreg_ne _ _ hne]

theorem writeSlot_vreg_ne {ds : List Reg} {e : Reg} (he : e ∉ ds) (r : Regs) (p : Nat) (x : DWord) :
    (writeSlot r ds p x).vreg e = r.vreg e := by
  unfold writeSlot
  split
  · rfl
  · exact r.vreg_setVreg_ne _ (by simpa using he)
  · rename_i d f _
    have : e ≠ d ∧ e ≠ f := by simp at he; exact ⟨he.1, he.2.1⟩
    rw [Regs.vreg_setVreg_ne _ _ this.2, Regs.vreg_setVreg_ne _ _ this.1]

/-! ### Computing at an anchor -/

/-- An anchor's tag describes the map that the destination keeps, and every thread that is not active keeps its slot. -/
def Anchor.ok (an : Anchor) (mt : List MapTable) : Prop := ∀ t, an.byRef = some t → ∀ i < 32, (tagMap mt t).at i = an.keep.at i

theorem fireDst_vreg_ne (r : Regs) (ds : List Reg) {e : Reg} (he : e ∉ ds) : (fireDst r ds).regs.vreg e = r.vreg e := by
  unfold fireDst
  simp only
  suffices ∀ q : Regs, (ds.foldl (fun r' d => r'.setVreg d { r'.vreg d with slots := fireSlots (r.vreg d).slots (r.map d) }) q).vreg e = q.vreg e from this r
  induction ds with
  | nil => exact fun q => rfl
  | cons d ds ih =>
    intro q
    rw [List.foldl_cons, ih (fun h => he (by simp [h])), Regs.vreg_setVreg_ne _ _ (fun h => he (by simp [h]))]

theorem fireDst_length (r : Regs) (ds : List Reg) (h : ∀ e, (r.vreg e).slots.length = 32) (e : Reg) :
    ((fireDst r ds).regs.vreg e).slots.length = 32 := by
  unfold fireDst
  simp only
  suffices ∀ q : Regs, (∀ e, (q.vreg e).slots.length = 32) →
      (((ds.foldl (fun r' d => r'.setVreg d { r'.vreg d with slots := fireSlots (r.vreg d).slots (r.map d) }) q).vreg e)).slots.length = 32 from
    this r h
  induction ds with
  | nil => exact fun q hq => hq e
  | cons d ds ih =>
    intro q hq
    refine ih _ (fun x => ?_)
    by_cases hx : x = d
    · subst hx
      have : (fireSlots (r.vreg x).slots (r.map x)).length = 32 := by simp [fireSlots, threads]
      cases x with
      | v n =>
        by_cases hn : n < q.v.length
        · rw [Regs.vreg_setVreg_self q (.v n) _ trivial hn]; exact this
        · have := hq (.v n)
          simp_all [Regs.setVreg, Regs.vreg, List.getD]
      | o n =>
        by_cases hn : n < q.o.length
        · rw [Regs.vreg_setVreg_self q (.o n) _ trivial hn]; exact this
        · have := hq (.o n)
          simp_all [Regs.setVreg, Regs.vreg, List.getD]
      | s n => exact hq (.s n)
      | p n => exact hq (.p n)
    · rw [Regs.vreg_setVreg_ne q _ hx]; exact hq x

theorem fireDst_rest (r : Regs) (ds : List Reg) :
    (fireDst r ds).regs.mt = r.mt ∧ (fireDst r ds).regs.sameRest r ∧ ∀ e, (fireDst r ds).regs.has e ↔ r.has e :=
  ⟨foldl_setVreg_mt ds (fun r' d => { r'.vreg d with slots := fireSlots (r.vreg d).slots (r.map d) }) r,
   foldl_setVreg_sameRest ds (fun r' d => { r'.vreg d with slots := fireSlots (r.vreg d).slots (r.map d) }) r,
   foldl_setVreg_has ds (fun r' d => { r'.vreg d with slots := fireSlots (r.vreg d).slots (r.map d) }) r⟩

theorem map_eq_ok {ε α β : Type} {f : α → β} {x : Except ε α} {y : β} (h : x.map f = .ok y) : ∃ a, x = .ok a ∧ f a = y := by
  cases x with
  | error e => cases h
  | ok a => exact ⟨a, rfl, Except.ok.inj h⟩

/-- What writing results at an anchor says once (R50 to R53, R55): every active thread with a result finds the result computed last in
its slot, every other active thread finds VOID, and registers that are not the destination are as they were. -/
theorem writeAt_spec {r : Regs} {wide : Bool} {d : Reg} {ds : List Reg} {act : Mask} {an : Anchor} {res : Nat → Option DWord} {l : LaneRes}
    (h : writeAt r ds act an res = .ok l) (hds : DstRegs wide d ds) (hv : d.isVec) (hd : ∀ e ∈ ds, r.has e) (hmt : r.mt.length = 16)
    (hlen : ∀ e, (r.vreg e).slots.length = 32) (han : an.ok r.mt) (hsl : ∀ t < 32, inMask act t = true → (res t).isSome → (an.slots.at t).isSome) :
    (∀ t < 32, inMask act t = true →
      l.regs.element wide d t = (res t).bind (fun _ => (res (lastThere act an.slots res t)).map (fitWidth wide))) ∧
    (∀ e, e ∉ ds → l.regs.vreg e = r.vreg e) ∧ l.regs.sameRest r := by
  unfold writeAt at h
  simp only at h
  obtain ⟨f, hf⟩ : ∃ f, f = (if an.fire then fireDst r ds else { regs := r }) := ⟨_, rfl⟩
  rw [← hf] at h
  have hfr : f.regs.mt = r.mt ∧ f.regs.sameRest r ∧ ∀ e, f.regs.has e ↔ r.has e := by
    rw [hf]; split
    · exact fireDst_rest r ds
    · exact ⟨rfl, r.sameRest_refl, fun _ => Iff.rfl⟩
  have hfl : ∀ e, (f.regs.vreg e).slots.length = 32 := by
    rw [hf]; split
    · exact fireDst_length r ds hlen
    · exact hlen
  have hfn : ∀ e, e ∉ ds → f.regs.vreg e = r.vreg e := by
    intro e he
    rw [hf]; split
    · exact fireDst_vreg_ne r ds he
    · rfl
  clear hf
  obtain ⟨q, hq⟩ : ∃ q, q = writeLoop ds act an.slots res threads f.regs := ⟨_, rfl⟩
  have hqmt : q.mt = r.mt := by
    rw [hq]; exact writeLoop_keeps (fun x => x.mt = r.mt) ds act an.slots res (fun x p y hx => by rw [writeSlot_mt]; exact hx) threads _ hfr.1
  have hqr : q.sameRest r := by
    rw [hq]; exact writeLoop_keeps (fun x => x.sameRest r) ds act an.slots res (fun x p y hx => (writeSlot_sameRest x ds p y).trans hx) threads _ hfr.2.1
  have hqh : ∀ e, q.has e ↔ r.has e := by
    intro e
    rw [hq]; exact writeLoop_keeps (fun x => x.has e ↔ r.has e) ds act an.slots res (fun x p y hx => (writeSlot_has x ds p y e).trans hx) threads _ (hfr.2.2 e)
  have hfd : ∀ e ∈ ds, f.regs.has e := fun e he => (hfr.2.2 e).mpr (hd e he)
  have hqv : ∀ e ∈ ds, q.vreg e = { f.regs.vreg e with slots := putSlots (slotWrite act an.slots res (halfOf d e)) threads (f.regs.vreg e).slots } := by
    intro e he
    rw [hq]
    exact writeLoop_vreg act an.slots res (fun x hx p y => writeSlot_vreg hds hv hx he p y) threads _ hfd
  have hqn : ∀ e, e ∉ ds → q.vreg e = r.vreg e := by
    intro e he
    rw [hq]
    exact writeLoop_keeps (fun x => x.vreg e = r.vreg e) ds act an.slots res (fun x p y hx => by rw [writeSlot_vreg_ne he]; exact hx) threads _ (hfn e he)
  obtain ⟨m, hm⟩ : ∃ m, m = resultMap act an res := ⟨_, rfl⟩
  have hw : ∃ w, writeMap q ds m (if m == an.keep then an.byRef else none) = .ok w ∧ l.regs = w.regs := by
    obtain ⟨w, hw, hl⟩ := map_eq_ok h
    exact ⟨w, by rw [hm, hq]; exact hw, by rw [← hl]⟩
  obtain ⟨w, hw, hlw⟩ := hw
  have hspec := writeMap_spec hw (hds.nodup hv) (hds.isVec hv) (fun e he => (hqh e).mpr (hd e he)) (hqmt ▸ hmt) (by
    intro t ht i hi
    split at ht
    · rename_i hk
      rw [hqmt, han t ht i hi, eq_of_beq hk]
    · cases ht)
  obtain ⟨h1, h2, h3⟩ := hspec
  refine ⟨fun t ht hact => ?_, fun e he => ?_, hlw ▸ h3.trans hqr⟩
  · have hmat : m.at t = if (res t).isSome then an.slots.at t else none := by
      rw [hm, resultMap, ofFn_at _ ht, if_pos hact]
    have key : ∀ e ∈ ds, w.regs.elem e t = (res t).bind (fun _ => (res (lastThere act an.slots res t)).map (halfOf d e)) := by
      intro e he
      rw [h1 e he t ht, hmat]
      cases hr : res t with
      | none => rfl
      | some x =>
        have hs := hsl t ht hact (by simp [hr])
        obtain ⟨p, hp⟩ := Option.isSome_iff_exists.mp hs
        simp only [Option.isSome_some, if_true, hp, Option.map_some, Option.bind_some]
        rw [hqv e he]
        simp only
        rw [putSlots_get _ threads _ (hfl e) p]
        have hpred : (fun u => (slotWrite act an.slots res (halfOf d e) u).any (fun x => x.1 == p)) =
            (fun u => inMask act u && (res u).isSome && an.slots.at u == an.slots.at t) := by
          funext u
          unfold slotWrite
          rw [hp]
          cases inMask act u <;> cases res u <;> cases an.slots.at u <;> simp
        rw [hpred]
        unfold lastThere
        have hfound : ∃ u, threads.reverse.find? (fun u => inMask act u && (res u).isSome && an.slots.at u == an.slots.at t) = some u := by
          have : (threads.reverse.find? (fun u => inMask act u && (res u).isSome && an.slots.at u == an.slots.at t)).isSome := by
            rw [List.find?_isSome]
            exact ⟨t, by simpa using mem_threads.mpr ht, by simp [hact, hr]⟩
          exact Option.isSome_iff_exists.mp this
        obtain ⟨u, hu⟩ := hfound
        have hup := List.find?_some hu
        simp only [Bool.and_eq_true, beq_iff_eq] at hup
        obtain ⟨y, hy⟩ := Option.isSome_iff_exists.mp hup.1.2
        have hsw : slotWrite act an.slots res (halfOf d e) u = some (p, halfOf d e y) := by
          unfold slotWrite
          rw [if_pos hup.1.1, hy, hup.2, hp]
        rw [hu]
        simp only [Option.getD_some, hsw, hy, Option.map_some]
    rw [hlw]
    unfold Regs.element
    subst hds
    cases wide with
    | false =>
      simp only [Bool.false_eq_true, if_false]
      rw [key d (by simp)]
      cases res t with
      | none => rfl
      | some x => cases res (lastThere act an.slots res t) <;> simp [halfOf, fitWidth]
    | true =>
      simp only [if_true]
      rw [key d (by simp), key d.succ (by simp)]
      cases res t with
      | none => rfl
      | some x =>
        cases res (lastThere act an.slots res t) with
        | none => rfl
        | some y =>
          simp only [Option.bind_some, Option.map_some, halfOf, if_true, if_neg (succ_ne d hv), fitWidth]
          exact congrArg some (by
            apply BitVec.eq_of_getLsbD_eq
            intro i hi
            simp only [BitVec.getLsbD_append, BitVec.getLsbD_setWidth, BitVec.getLsbD_extractLsb']
            by_cases h32 : i < 32
            · simp [h32]
            · have h2 : i - 32 < 32 := by omega
              simp [h32, h2, show 32 + (i - 32) = i by omega])
  · rw [hlw, h2 e he, hqn e he]

/-- Results can be written where their map fits (R41, R46, R47). -/
theorem mapFits_congr {r q : Regs} {ds : List Reg} {m : LMap} (h : mapFits r ds m = true) (hmt : q.mt = r.mt)
    (ht : ∀ d ∈ ds, (q.vreg d).tag = (r.vreg d).tag) : mapFits q ds m = true := by
  have : (releaseTags q ds).mt = (releaseTags r ds).mt := by
    show ds.foldl _ q.mt = ds.foldl _ r.mt
    rw [hmt]
    clear h
    generalize r.mt = mt
    induction ds generalizing mt with
    | nil => rfl
    | cons d ds ih =>
      simp only [List.foldl_cons, ht d (by simp)]
      exact ih (fun x hx => ht x (by simp [hx])) _
  rw [mapFits, this]
  exact h

end Sys2Proof.Machine
end

