-- ==== Sys2Proof/Laws/State.lean ====
section
/-! SUPPORT. The small laws of the state's updates: what each leaves of every field, so that no later proof unfolds a record update. -/
namespace Sys2Proof.Machine

/-! ### Lists by number -/

theorem upd_length {α : Type} (l : List α) (i : Nat) (f : α → α) : (upd l i f).length = l.length := by simp [upd]

theorem upd_get {α : Type} (l : List α) (i j : Nat) (f : α → α) : (upd l i f)[j]? = if i = j then l[j]?.map f else l[j]? := by
  simp only [upd, List.getElem?_modify]
  split <;> simp

theorem upd_id {α : Type} (l : List α) (i : Nat) : upd l i (fun x => x) = l := by
  apply List.ext_getElem?
  intro j
  rw [upd_get]
  split <;> simp

theorem upd_upd {α : Type} (l : List α) (i : Nat) (f g : α → α) : upd (upd l i f) i g = upd l i (fun x => g (f x)) := by
  apply List.ext_getElem?
  intro j
  simp only [upd_get]
  split
  · cases l[j]? <;> rfl
  · rfl

/-! ### modWarp -/

@[simp] theorem State.modWarp_warps (s : State) (w : Nat) (f : Warp → Warp) : (s.modWarp w f).warps = upd s.warps w f := rfl
@[simp] theorem State.modWarp_mem (s : State) (w : Nat) (f : Warp → Warp) : (s.modWarp w f).mem = s.mem := rfl
@[simp] theorem State.modWarp_tags (s : State) (w : Nat) (f : Warp → Warp) : (s.modWarp w f).tags = s.tags := rfl
@[simp] theorem State.modWarp_lcUndef (s : State) (w : Nat) (f : Warp → Warp) : (s.modWarp w f).lcUndef = s.lcUndef := rfl
@[simp] theorem State.modWarp_poison (s : State) (w : Nat) (f : Warp → Warp) : (s.modWarp w f).poison = s.poison := rfl
@[simp] theorem State.modWarp_losses (s : State) (w : Nat) (f : Warp → Warp) : (s.modWarp w f).losses = s.losses := rfl
@[simp] theorem State.modWarp_sound (s : State) (w : Nat) (f : Warp → Warp) : (s.modWarp w f).sound = s.sound := rfl
@[simp] theorem State.modWarp_pinned (s : State) (w : Nat) (f : Warp → Warp) : (s.modWarp w f).pinned = s.pinned := rfl
@[simp] theorem State.modWarp_llc (s : State) (w : Nat) (f : Warp → Warp) : (s.modWarp w f).llc = s.llc := rfl
@[simp] theorem State.modWarp_clusters (s : State) (w : Nat) (f : Warp → Warp) : (s.modWarp w f).clusters = s.clusters := rfl
@[simp] theorem State.modWarp_cores (s : State) (w : Nat) (f : Warp → Warp) : (s.modWarp w f).cores = s.cores := rfl
@[simp] theorem State.modWarp_ctxs (s : State) (w : Nat) (f : Warp → Warp) : (s.modWarp w f).ctxs = s.ctxs := rfl
@[simp] theorem State.modWarp_launches (s : State) (w : Nat) (f : Warp → Warp) : (s.modWarp w f).launches = s.launches := rfl
@[simp] theorem State.modWarp_gangs (s : State) (w : Nat) (f : Warp → Warp) : (s.modWarp w f).gangs = s.gangs := rfl
@[simp] theorem State.modWarp_blocks (s : State) (w : Nat) (f : Warp → Warp) : (s.modWarp w f).blocks = s.blocks := rfl
@[simp] theorem State.modWarp_checkpoints (s : State) (w : Nat) (f : Warp → Warp) : (s.modWarp w f).checkpoints = s.checkpoints := rfl
@[simp] theorem State.modWarp_accs (s : State) (w : Nat) (f : Warp → Warp) : (s.modWarp w f).accs = s.accs := rfl
@[simp] theorem State.modWarp_copies (s : State) (w : Nat) (f : Warp → Warp) : (s.modWarp w f).copies = s.copies := rfl
@[simp] theorem State.modWarp_images (s : State) (w : Nat) (f : Warp → Warp) : (s.modWarp w f).images = s.images := rfl
@[simp] theorem State.modWarp_tlb (s : State) (w : Nat) (f : Warp → Warp) : (s.modWarp w f).tlb = s.tlb := rfl
@[simp] theorem State.modWarp_migrations (s : State) (w : Nat) (f : Warp → Warp) : (s.modWarp w f).migrations = s.migrations := rfl
@[simp] theorem State.modWarp_frames (s : State) (w : Nat) (f : Warp → Warp) : (s.modWarp w f).frames = s.frames := rfl
@[simp] theorem State.modWarp_recalls (s : State) (w : Nat) (f : Warp → Warp) : (s.modWarp w f).recalls = s.recalls := rfl
@[simp] theorem State.modWarp_inWatches (s : State) (w : Nat) (f : Warp → Warp) : (s.modWarp w f).inWatches = s.inWatches := rfl
@[simp] theorem State.modWarp_dueAdds (s : State) (w : Nat) (f : Warp → Warp) : (s.modWarp w f).dueAdds = s.dueAdds := rfl
@[simp] theorem State.modWarp_slew (s : State) (w : Nat) (f : Warp → Warp) : (s.modWarp w f).slew = s.slew := rfl
@[simp] theorem State.modWarp_justSet (s : State) (w : Nat) (f : Warp → Warp) : (s.modWarp w f).justSet = s.justSet := rfl
@[simp] theorem State.modWarp_drainAt (s : State) (w : Nat) (f : Warp → Warp) : (s.modWarp w f).drainAt = s.drainAt := rfl
@[simp] theorem State.modWarp_routesTo (s : State) (w : Nat) (f : Warp → Warp) : (s.modWarp w f).routesTo = s.routesTo := rfl
@[simp] theorem State.modWarp_resetAt (s : State) (w : Nat) (f : Warp → Warp) : (s.modWarp w f).resetAt = s.resetAt := rfl
@[simp] theorem State.modWarp_deadPorts (s : State) (w : Nat) (f : Warp → Warp) : (s.modWarp w f).deadPorts = s.deadPorts := rfl
@[simp] theorem State.modWarp_bar2 (s : State) (w : Nat) (f : Warp → Warp) : (s.modWarp w f).bar2 = s.bar2 := rfl
@[simp] theorem State.modWarp_ideKeys (s : State) (w : Nat) (f : Warp → Warp) : (s.modWarp w f).ideKeys = s.ideKeys := rfl
@[simp] theorem State.modWarp_powerAt (s : State) (w : Nat) (f : Warp → Warp) : (s.modWarp w f).powerAt = s.powerAt := rfl
@[simp] theorem State.modWarp_flows (s : State) (w : Nat) (f : Warp → Warp) : (s.modWarp w f).flows = s.flows := rfl
@[simp] theorem State.modWarp_inFlows (s : State) (w : Nat) (f : Warp → Warp) : (s.modWarp w f).inFlows = s.inFlows := rfl
@[simp] theorem State.modWarp_clk (s : State) (w : Nat) (f : Warp → Warp) : (s.modWarp w f).clk = s.clk := rfl
@[simp] theorem State.modWarp_time (s : State) (w : Nat) (f : Warp → Warp) : (s.modWarp w f).time = s.time := rfl
@[simp] theorem State.modWarp_locked (s : State) (w : Nat) (f : Warp → Warp) : (s.modWarp w f).locked = s.locked := rfl
@[simp] theorem State.modWarp_epoch (s : State) (w : Nat) (f : Warp → Warp) : (s.modWarp w f).epoch = s.epoch := rfl
@[simp] theorem State.modWarp_liveShelves (s : State) (w : Nat) (f : Warp → Warp) : (s.modWarp w f).liveShelves = s.liveShelves := rfl
@[simp] theorem State.modWarp_drainShelf (s : State) (w : Nat) (f : Warp → Warp) : (s.modWarp w f).drainShelf = s.drainShelf := rfl
@[simp] theorem State.modWarp_restackTo (s : State) (w : Nat) (f : Warp → Warp) : (s.modWarp w f).restackTo = s.restackTo := rfl
@[simp] theorem State.modWarp_restackAt (s : State) (w : Nat) (f : Warp → Warp) : (s.modWarp w f).restackAt = s.restackAt := rfl
@[simp] theorem State.modWarp_partition (s : State) (w : Nat) (f : Warp → Warp) : (s.modWarp w f).partition = s.partition := rfl
@[simp] theorem State.modWarp_routes (s : State) (w : Nat) (f : Warp → Warp) : (s.modWarp w f).routes = s.routes := rfl
@[simp] theorem State.modWarp_inWindows (s : State) (w : Nat) (f : Warp → Warp) : (s.modWarp w f).inWindows = s.inWindows := rfl
@[simp] theorem State.modWarp_bindings (s : State) (w : Nat) (f : Warp → Warp) : (s.modWarp w f).bindings = s.bindings := rfl
@[simp] theorem State.modWarp_replays (s : State) (w : Nat) (f : Warp → Warp) : (s.modWarp w f).replays = s.replays := rfl
@[simp] theorem State.modWarp_deadLinks (s : State) (w : Nat) (f : Warp → Warp) : (s.modWarp w f).deadLinks = s.deadLinks := rfl
@[simp] theorem State.modWarp_inLog (s : State) (w : Nat) (f : Warp → Warp) : (s.modWarp w f).inLog = s.inLog := rfl
@[simp] theorem State.modWarp_lastServed (s : State) (w : Nat) (f : Warp → Warp) : (s.modWarp w f).lastServed = s.lastServed := rfl
@[simp] theorem State.modWarp_node (s : State) (w : Nat) (f : Warp → Warp) : (s.modWarp w f).node = s.node := rfl
@[simp] theorem State.modWarp_throt (s : State) (w : Nat) (f : Warp → Warp) : (s.modWarp w f).throt = s.throt := rfl
@[simp] theorem State.modWarp_powerLimit (s : State) (w : Nat) (f : Warp → Warp) : (s.modWarp w f).powerLimit = s.powerLimit := rfl
@[simp] theorem State.modWarp_powerStep (s : State) (w : Nat) (f : Warp → Warp) : (s.modWarp w f).powerStep = s.powerStep := rfl
@[simp] theorem State.modWarp_powered (s : State) (w : Nat) (f : Warp → Warp) : (s.modWarp w f).powered = s.powered := rfl
@[simp] theorem State.modWarp_bootDone (s : State) (w : Nat) (f : Warp → Warp) : (s.modWarp w f).bootDone = s.bootDone := rfl
@[simp] theorem State.modWarp_fullService (s : State) (w : Nat) (f : Warp → Warp) : (s.modWarp w f).fullService = s.fullService := rfl
@[simp] theorem State.modWarp_banks (s : State) (w : Nat) (f : Warp → Warp) : (s.modWarp w f).banks = s.banks := rfl
@[simp] theorem State.modWarp_bootBank (s : State) (w : Nat) (f : Warp → Warp) : (s.modWarp w f).bootBank = s.bootBank := rfl
@[simp] theorem State.modWarp_nextBank (s : State) (w : Nat) (f : Warp → Warp) : (s.modWarp w f).nextBank = s.nextBank := rfl
@[simp] theorem State.modWarp_fuse (s : State) (w : Nat) (f : Warp → Warp) : (s.modWarp w f).fuse = s.fuse := rfl
@[simp] theorem State.modWarp_attestIx (s : State) (w : Nat) (f : Warp → Warp) : (s.modWarp w f).attestIx = s.attestIx := rfl
@[simp] theorem State.modWarp_measurements (s : State) (w : Nat) (f : Warp → Warp) : (s.modWarp w f).measurements = s.measurements := rfl
@[simp] theorem State.modWarp_heldCmds (s : State) (w : Nat) (f : Warp → Warp) : (s.modWarp w f).heldCmds = s.heldCmds := rfl
@[simp] theorem State.modWarp_reports (s : State) (w : Nat) (f : Warp → Warp) : (s.modWarp w f).reports = s.reports := rfl
@[simp] theorem State.modWarp_agenda (s : State) (w : Nat) (f : Warp → Warp) : (s.modWarp w f).agenda = s.agenda := rfl
@[simp] theorem State.modWarp_cur (s : State) (w : Nat) (f : Warp → Warp) : (s.modWarp w f).cur = s.cur := rfl
@[simp] theorem State.modWarp_freeCtr (s : State) (w : Nat) (f : Warp → Warp) : (s.modWarp w f).freeCtr = s.freeCtr := rfl

/-! ### modBlock -/

@[simp] theorem State.modBlock_blocks (s : State) (b : Nat) (f : Block → Block) : (s.modBlock b f).blocks = upd s.blocks b f := rfl
@[simp] theorem State.modBlock_mem (s : State) (b : Nat) (f : Block → Block) : (s.modBlock b f).mem = s.mem := rfl
@[simp] theorem State.modBlock_tags (s : State) (b : Nat) (f : Block → Block) : (s.modBlock b f).tags = s.tags := rfl
@[simp] theorem State.modBlock_lcUndef (s : State) (b : Nat) (f : Block → Block) : (s.modBlock b f).lcUndef = s.lcUndef := rfl
@[simp] theorem State.modBlock_poison (s : State) (b : Nat) (f : Block → Block) : (s.modBlock b f).poison = s.poison := rfl
@[simp] theorem State.modBlock_losses (s : State) (b : Nat) (f : Block → Block) : (s.modBlock b f).losses = s.losses := rfl
@[simp] theorem State.modBlock_sound (s : State) (b : Nat) (f : Block → Block) : (s.modBlock b f).sound = s.sound := rfl
@[simp] theorem State.modBlock_pinned (s : State) (b : Nat) (f : Block → Block) : (s.modBlock b f).pinned = s.pinned := rfl
@[simp] theorem State.modBlock_llc (s : State) (b : Nat) (f : Block → Block) : (s.modBlock b f).llc = s.llc := rfl
@[simp] theorem State.modBlock_clusters (s : State) (b : Nat) (f : Block → Block) : (s.modBlock b f).clusters = s.clusters := rfl
@[simp] theorem State.modBlock_cores (s : State) (b : Nat) (f : Block → Block) : (s.modBlock b f).cores = s.cores := rfl
@[simp] theorem State.modBlock_ctxs (s : State) (b : Nat) (f : Block → Block) : (s.modBlock b f).ctxs = s.ctxs := rfl
@[simp] theorem State.modBlock_launches (s : State) (b : Nat) (f : Block → Block) : (s.modBlock b f).launches = s.launches := rfl
@[simp] theorem State.modBlock_gangs (s : State) (b : Nat) (f : Block → Block) : (s.modBlock b f).gangs = s.gangs := rfl
@[simp] theorem State.modBlock_warps (s : State) (b : Nat) (f : Block → Block) : (s.modBlock b f).warps = s.warps := rfl
@[simp] theorem State.modBlock_checkpoints (s : State) (b : Nat) (f : Block → Block) : (s.modBlock b f).checkpoints = s.checkpoints := rfl
@[simp] theorem State.modBlock_accs (s : State) (b : Nat) (f : Block → Block) : (s.modBlock b f).accs = s.accs := rfl
@[simp] theorem State.modBlock_copies (s : State) (b : Nat) (f : Block → Block) : (s.modBlock b f).copies = s.copies := rfl
@[simp] theorem State.modBlock_images (s : State) (b : Nat) (f : Block → Block) : (s.modBlock b f).images = s.images := rfl
@[simp] theorem State.modBlock_tlb (s : State) (b : Nat) (f : Block → Block) : (s.modBlock b f).tlb = s.tlb := rfl
@[simp] theorem State.modBlock_migrations (s : State) (b : Nat) (f : Block → Block) : (s.modBlock b f).migrations = s.migrations := rfl
@[simp] theorem State.modBlock_frames (s : State) (b : Nat) (f : Block → Block) : (s.modBlock b f).frames = s.frames := rfl
@[simp] theorem State.modBlock_recalls (s : State) (b : Nat) (f : Block → Block) : (s.modBlock b f).recalls = s.recalls := rfl
@[simp] theorem State.modBlock_inWatches (s : State) (b : Nat) (f : Block → Block) : (s.modBlock b f).inWatches = s.inWatches := rfl
@[simp] theorem State.modBlock_dueAdds (s : State) (b : Nat) (f : Block → Block) : (s.modBlock b f).dueAdds = s.dueAdds := rfl
@[simp] theorem State.modBlock_slew (s : State) (b : Nat) (f : Block → Block) : (s.modBlock b f).slew = s.slew := rfl
@[simp] theorem State.modBlock_justSet (s : State) (b : Nat) (f : Block → Block) : (s.modBlock b f).justSet = s.justSet := rfl
@[simp] theorem State.modBlock_drainAt (s : State) (b : Nat) (f : Block → Block) : (s.modBlock b f).drainAt = s.drainAt := rfl
@[simp] theorem State.modBlock_routesTo (s : State) (b : Nat) (f : Block → Block) : (s.modBlock b f).routesTo = s.routesTo := rfl
@[simp] theorem State.modBlock_resetAt (s : State) (b : Nat) (f : Block → Block) : (s.modBlock b f).resetAt = s.resetAt := rfl
@[simp] theorem State.modBlock_deadPorts (s : State) (b : Nat) (f : Block → Block) : (s.modBlock b f).deadPorts = s.deadPorts := rfl
@[simp] theorem State.modBlock_bar2 (s : State) (b : Nat) (f : Block → Block) : (s.modBlock b f).bar2 = s.bar2 := rfl
@[simp] theorem State.modBlock_ideKeys (s : State) (b : Nat) (f : Block → Block) : (s.modBlock b f).ideKeys = s.ideKeys := rfl
@[simp] theorem State.modBlock_powerAt (s : State) (b : Nat) (f : Block → Block) : (s.modBlock b f).powerAt = s.powerAt := rfl
@[simp] theorem State.modBlock_flows (s : State) (b : Nat) (f : Block → Block) : (s.modBlock b f).flows = s.flows := rfl
@[simp] theorem State.modBlock_inFlows (s : State) (b : Nat) (f : Block → Block) : (s.modBlock b f).inFlows = s.inFlows := rfl
@[simp] theorem State.modBlock_clk (s : State) (b : Nat) (f : Block → Block) : (s.modBlock b f).clk = s.clk := rfl
@[simp] theorem State.modBlock_time (s : State) (b : Nat) (f : Block → Block) : (s.modBlock b f).time = s.time := rfl
@[simp] theorem State.modBlock_locked (s : State) (b : Nat) (f : Block → Block) : (s.modBlock b f).locked = s.locked := rfl
@[simp] theorem State.modBlock_epoch (s : State) (b : Nat) (f : Block → Block) : (s.modBlock b f).epoch = s.epoch := rfl
@[simp] theorem State.modBlock_liveShelves (s : State) (b : Nat) (f : Block → Block) : (s.modBlock b f).liveShelves = s.liveShelves := rfl
@[simp] theorem State.modBlock_drainShelf (s : State) (b : Nat) (f : Block → Block) : (s.modBlock b f).drainShelf = s.drainShelf := rfl
@[simp] theorem State.modBlock_restackTo (s : State) (b : Nat) (f : Block → Block) : (s.modBlock b f).restackTo = s.restackTo := rfl
@[simp] theorem State.modBlock_restackAt (s : State) (b : Nat) (f : Block → Block) : (s.modBlock b f).restackAt = s.restackAt := rfl
@[simp] theorem State.modBlock_partition (s : State) (b : Nat) (f : Block → Block) : (s.modBlock b f).partition = s.partition := rfl
@[simp] theorem State.modBlock_routes (s : State) (b : Nat) (f : Block → Block) : (s.modBlock b f).routes = s.routes := rfl
@[simp] theorem State.modBlock_inWindows (s : State) (b : Nat) (f : Block → Block) : (s.modBlock b f).inWindows = s.inWindows := rfl
@[simp] theorem State.modBlock_bindings (s : State) (b : Nat) (f : Block → Block) : (s.modBlock b f).bindings = s.bindings := rfl
@[simp] theorem State.modBlock_replays (s : State) (b : Nat) (f : Block → Block) : (s.modBlock b f).replays = s.replays := rfl
@[simp] theorem State.modBlock_deadLinks (s : State) (b : Nat) (f : Block → Block) : (s.modBlock b f).deadLinks = s.deadLinks := rfl
@[simp] theorem State.modBlock_inLog (s : State) (b : Nat) (f : Block → Block) : (s.modBlock b f).inLog = s.inLog := rfl
@[simp] theorem State.modBlock_lastServed (s : State) (b : Nat) (f : Block → Block) : (s.modBlock b f).lastServed = s.lastServed := rfl
@[simp] theorem State.modBlock_node (s : State) (b : Nat) (f : Block → Block) : (s.modBlock b f).node = s.node := rfl
@[simp] theorem State.modBlock_throt (s : State) (b : Nat) (f : Block → Block) : (s.modBlock b f).throt = s.throt := rfl
@[simp] theorem State.modBlock_powerLimit (s : State) (b : Nat) (f : Block → Block) : (s.modBlock b f).powerLimit = s.powerLimit := rfl
@[simp] theorem State.modBlock_powerStep (s : State) (b : Nat) (f : Block → Block) : (s.modBlock b f).powerStep = s.powerStep := rfl
@[simp] theorem State.modBlock_powered (s : State) (b : Nat) (f : Block → Block) : (s.modBlock b f).powered = s.powered := rfl
@[simp] theorem State.modBlock_bootDone (s : State) (b : Nat) (f : Block → Block) : (s.modBlock b f).bootDone = s.bootDone := rfl
@[simp] theorem State.modBlock_fullService (s : State) (b : Nat) (f : Block → Block) : (s.modBlock b f).fullService = s.fullService := rfl
@[simp] theorem State.modBlock_banks (s : State) (b : Nat) (f : Block → Block) : (s.modBlock b f).banks = s.banks := rfl
@[simp] theorem State.modBlock_bootBank (s : State) (b : Nat) (f : Block → Block) : (s.modBlock b f).bootBank = s.bootBank := rfl
@[simp] theorem State.modBlock_nextBank (s : State) (b : Nat) (f : Block → Block) : (s.modBlock b f).nextBank = s.nextBank := rfl
@[simp] theorem State.modBlock_fuse (s : State) (b : Nat) (f : Block → Block) : (s.modBlock b f).fuse = s.fuse := rfl
@[simp] theorem State.modBlock_attestIx (s : State) (b : Nat) (f : Block → Block) : (s.modBlock b f).attestIx = s.attestIx := rfl
@[simp] theorem State.modBlock_measurements (s : State) (b : Nat) (f : Block → Block) : (s.modBlock b f).measurements = s.measurements := rfl
@[simp] theorem State.modBlock_heldCmds (s : State) (b : Nat) (f : Block → Block) : (s.modBlock b f).heldCmds = s.heldCmds := rfl
@[simp] theorem State.modBlock_reports (s : State) (b : Nat) (f : Block → Block) : (s.modBlock b f).reports = s.reports := rfl
@[simp] theorem State.modBlock_agenda (s : State) (b : Nat) (f : Block → Block) : (s.modBlock b f).agenda = s.agenda := rfl
@[simp] theorem State.modBlock_cur (s : State) (b : Nat) (f : Block → Block) : (s.modBlock b f).cur = s.cur := rfl
@[simp] theorem State.modBlock_freeCtr (s : State) (b : Nat) (f : Block → Block) : (s.modBlock b f).freeCtr = s.freeCtr := rfl

/-! ### modGang -/

@[simp] theorem State.modGang_gangs (s : State) (g : Nat) (f : Gang → Gang) : (s.modGang g f).gangs = upd s.gangs g f := rfl
@[simp] theorem State.modGang_mem (s : State) (g : Nat) (f : Gang → Gang) : (s.modGang g f).mem = s.mem := rfl
@[simp] theorem State.modGang_tags (s : State) (g : Nat) (f : Gang → Gang) : (s.modGang g f).tags = s.tags := rfl
@[simp] theorem State.modGang_lcUndef (s : State) (g : Nat) (f : Gang → Gang) : (s.modGang g f).lcUndef = s.lcUndef := rfl
@[simp] theorem State.modGang_poison (s : State) (g : Nat) (f : Gang → Gang) : (s.modGang g f).poison = s.poison := rfl
@[simp] theorem State.modGang_losses (s : State) (g : Nat) (f : Gang → Gang) : (s.modGang g f).losses = s.losses := rfl
@[simp] theorem State.modGang_sound (s : State) (g : Nat) (f : Gang → Gang) : (s.modGang g f).sound = s.sound := rfl
@[simp] theorem State.modGang_pinned (s : State) (g : Nat) (f : Gang → Gang) : (s.modGang g f).pinned = s.pinned := rfl
@[simp] theorem State.modGang_llc (s : State) (g : Nat) (f : Gang → Gang) : (s.modGang g f).llc = s.llc := rfl
@[simp] theorem State.modGang_clusters (s : State) (g : Nat) (f : Gang → Gang) : (s.modGang g f).clusters = s.clusters := rfl
@[simp] theorem State.modGang_cores (s : State) (g : Nat) (f : Gang → Gang) : (s.modGang g f).cores = s.cores := rfl
@[simp] theorem State.modGang_ctxs (s : State) (g : Nat) (f : Gang → Gang) : (s.modGang g f).ctxs = s.ctxs := rfl
@[simp] theorem State.modGang_launches (s : State) (g : Nat) (f : Gang → Gang) : (s.modGang g f).launches = s.launches := rfl
@[simp] theorem State.modGang_blocks (s : State) (g : Nat) (f : Gang → Gang) : (s.modGang g f).blocks = s.blocks := rfl
@[simp] theorem State.modGang_warps (s : State) (g : Nat) (f : Gang → Gang) : (s.modGang g f).warps = s.warps := rfl
@[simp] theorem State.modGang_checkpoints (s : State) (g : Nat) (f : Gang → Gang) : (s.modGang g f).checkpoints = s.checkpoints := rfl
@[simp] theorem State.modGang_accs (s : State) (g : Nat) (f : Gang → Gang) : (s.modGang g f).accs = s.accs := rfl
@[simp] theorem State.modGang_copies (s : State) (g : Nat) (f : Gang → Gang) : (s.modGang g f).copies = s.copies := rfl
@[simp] theorem State.modGang_images (s : State) (g : Nat) (f : Gang → Gang) : (s.modGang g f).images = s.images := rfl
@[simp] theorem State.modGang_tlb (s : State) (g : Nat) (f : Gang → Gang) : (s.modGang g f).tlb = s.tlb := rfl
@[simp] theorem State.modGang_migrations (s : State) (g : Nat) (f : Gang → Gang) : (s.modGang g f).migrations = s.migrations := rfl
@[simp] theorem State.modGang_frames (s : State) (g : Nat) (f : Gang → Gang) : (s.modGang g f).frames = s.frames := rfl
@[simp] theorem State.modGang_recalls (s : State) (g : Nat) (f : Gang → Gang) : (s.modGang g f).recalls = s.recalls := rfl
@[simp] theorem State.modGang_inWatches (s : State) (g : Nat) (f : Gang → Gang) : (s.modGang g f).inWatches = s.inWatches := rfl
@[simp] theorem State.modGang_dueAdds (s : State) (g : Nat) (f : Gang → Gang) : (s.modGang g f).dueAdds = s.dueAdds := rfl
@[simp] theorem State.modGang_slew (s : State) (g : Nat) (f : Gang → Gang) : (s.modGang g f).slew = s.slew := rfl
@[simp] theorem State.modGang_justSet (s : State) (g : Nat) (f : Gang → Gang) : (s.modGang g f).justSet = s.justSet := rfl
@[simp] theorem State.modGang_drainAt (s : State) (g : Nat) (f : Gang → Gang) : (s.modGang g f).drainAt = s.drainAt := rfl
@[simp] theorem State.modGang_routesTo (s : State) (g : Nat) (f : Gang → Gang) : (s.modGang g f).routesTo = s.routesTo := rfl
@[simp] theorem State.modGang_resetAt (s : State) (g : Nat) (f : Gang → Gang) : (s.modGang g f).resetAt = s.resetAt := rfl
@[simp] theorem State.modGang_deadPorts (s : State) (g : Nat) (f : Gang → Gang) : (s.modGang g f).deadPorts = s.deadPorts := rfl
@[simp] theorem State.modGang_bar2 (s : State) (g : Nat) (f : Gang → Gang) : (s.modGang g f).bar2 = s.bar2 := rfl
@[simp] theorem State.modGang_ideKeys (s : State) (g : Nat) (f : Gang → Gang) : (s.modGang g f).ideKeys = s.ideKeys := rfl
@[simp] theorem State.modGang_powerAt (s : State) (g : Nat) (f : Gang → Gang) : (s.modGang g f).powerAt = s.powerAt := rfl
@[simp] theorem State.modGang_flows (s : State) (g : Nat) (f : Gang → Gang) : (s.modGang g f).flows = s.flows := rfl
@[simp] theorem State.modGang_inFlows (s : State) (g : Nat) (f : Gang → Gang) : (s.modGang g f).inFlows = s.inFlows := rfl
@[simp] theorem State.modGang_clk (s : State) (g : Nat) (f : Gang → Gang) : (s.modGang g f).clk = s.clk := rfl
@[simp] theorem State.modGang_time (s : State) (g : Nat) (f : Gang → Gang) : (s.modGang g f).time = s.time := rfl
@[simp] theorem State.modGang_locked (s : State) (g : Nat) (f : Gang → Gang) : (s.modGang g f).locked = s.locked := rfl
@[simp] theorem State.modGang_epoch (s : State) (g : Nat) (f : Gang → Gang) : (s.modGang g f).epoch = s.epoch := rfl
@[simp] theorem State.modGang_liveShelves (s : State) (g : Nat) (f : Gang → Gang) : (s.modGang g f).liveShelves = s.liveShelves := rfl
@[simp] theorem State.modGang_drainShelf (s : State) (g : Nat) (f : Gang → Gang) : (s.modGang g f).drainShelf = s.drainShelf := rfl
@[simp] theorem State.modGang_restackTo (s : State) (g : Nat) (f : Gang → Gang) : (s.modGang g f).restackTo = s.restackTo := rfl
@[simp] theorem State.modGang_restackAt (s : State) (g : Nat) (f : Gang → Gang) : (s.modGang g f).restackAt = s.restackAt := rfl
@[simp] theorem State.modGang_partition (s : State) (g : Nat) (f : Gang → Gang) : (s.modGang g f).partition = s.partition := rfl
@[simp] theorem State.modGang_routes (s : State) (g : Nat) (f : Gang → Gang) : (s.modGang g f).routes = s.routes := rfl
@[simp] theorem State.modGang_inWindows (s : State) (g : Nat) (f : Gang → Gang) : (s.modGang g f).inWindows = s.inWindows := rfl
@[simp] theorem State.modGang_bindings (s : State) (g : Nat) (f : Gang → Gang) : (s.modGang g f).bindings = s.bindings := rfl
@[simp] theorem State.modGang_replays (s : State) (g : Nat) (f : Gang → Gang) : (s.modGang g f).replays = s.replays := rfl
@[simp] theorem State.modGang_deadLinks (s : State) (g : Nat) (f : Gang → Gang) : (s.modGang g f).deadLinks = s.deadLinks := rfl
@[simp] theorem State.modGang_inLog (s : State) (g : Nat) (f : Gang → Gang) : (s.modGang g f).inLog = s.inLog := rfl
@[simp] theorem State.modGang_lastServed (s : State) (g : Nat) (f : Gang → Gang) : (s.modGang g f).lastServed = s.lastServed := rfl
@[simp] theorem State.modGang_node (s : State) (g : Nat) (f : Gang → Gang) : (s.modGang g f).node = s.node := rfl
@[simp] theorem State.modGang_throt (s : State) (g : Nat) (f : Gang → Gang) : (s.modGang g f).throt = s.throt := rfl
@[simp] theorem State.modGang_powerLimit (s : State) (g : Nat) (f : Gang → Gang) : (s.modGang g f).powerLimit = s.powerLimit := rfl
@[simp] theorem State.modGang_powerStep (s : State) (g : Nat) (f : Gang → Gang) : (s.modGang g f).powerStep = s.powerStep := rfl
@[simp] theorem State.modGang_powered (s : State) (g : Nat) (f : Gang → Gang) : (s.modGang g f).powered = s.powered := rfl
@[simp] theorem State.modGang_bootDone (s : State) (g : Nat) (f : Gang → Gang) : (s.modGang g f).bootDone = s.bootDone := rfl
@[simp] theorem State.modGang_fullService (s : State) (g : Nat) (f : Gang → Gang) : (s.modGang g f).fullService = s.fullService := rfl
@[simp] theorem State.modGang_banks (s : State) (g : Nat) (f : Gang → Gang) : (s.modGang g f).banks = s.banks := rfl
@[simp] theorem State.modGang_bootBank (s : State) (g : Nat) (f : Gang → Gang) : (s.modGang g f).bootBank = s.bootBank := rfl
@[simp] theorem State.modGang_nextBank (s : State) (g : Nat) (f : Gang → Gang) : (s.modGang g f).nextBank = s.nextBank := rfl
@[simp] theorem State.modGang_fuse (s : State) (g : Nat) (f : Gang → Gang) : (s.modGang g f).fuse = s.fuse := rfl
@[simp] theorem State.modGang_attestIx (s : State) (g : Nat) (f : Gang → Gang) : (s.modGang g f).attestIx = s.attestIx := rfl
@[simp] theorem State.modGang_measurements (s : State) (g : Nat) (f : Gang → Gang) : (s.modGang g f).measurements = s.measurements := rfl
@[simp] theorem State.modGang_heldCmds (s : State) (g : Nat) (f : Gang → Gang) : (s.modGang g f).heldCmds = s.heldCmds := rfl
@[simp] theorem State.modGang_reports (s : State) (g : Nat) (f : Gang → Gang) : (s.modGang g f).reports = s.reports := rfl
@[simp] theorem State.modGang_agenda (s : State) (g : Nat) (f : Gang → Gang) : (s.modGang g f).agenda = s.agenda := rfl
@[simp] theorem State.modGang_cur (s : State) (g : Nat) (f : Gang → Gang) : (s.modGang g f).cur = s.cur := rfl
@[simp] theorem State.modGang_freeCtr (s : State) (g : Nat) (f : Gang → Gang) : (s.modGang g f).freeCtr = s.freeCtr := rfl

/-! ### modLaunch -/

@[simp] theorem State.modLaunch_launches (s : State) (l : Nat) (f : Launch → Launch) : (s.modLaunch l f).launches = upd s.launches l f := rfl
@[simp] theorem State.modLaunch_mem (s : State) (l : Nat) (f : Launch → Launch) : (s.modLaunch l f).mem = s.mem := rfl
@[simp] theorem State.modLaunch_tags (s : State) (l : Nat) (f : Launch → Launch) : (s.modLaunch l f).tags = s.tags := rfl
@[simp] theorem State.modLaunch_lcUndef (s : State) (l : Nat) (f : Launch → Launch) : (s.modLaunch l f).lcUndef = s.lcUndef := rfl
@[simp] theorem State.modLaunch_poison (s : State) (l : Nat) (f : Launch → Launch) : (s.modLaunch l f).poison = s.poison := rfl
@[simp] theorem State.modLaunch_losses (s : State) (l : Nat) (f : Launch → Launch) : (s.modLaunch l f).losses = s.losses := rfl
@[simp] theorem State.modLaunch_sound (s : State) (l : Nat) (f : Launch → Launch) : (s.modLaunch l f).sound = s.sound := rfl
@[simp] theorem State.modLaunch_pinned (s : State) (l : Nat) (f : Launch → Launch) : (s.modLaunch l f).pinned = s.pinned := rfl
@[simp] theorem State.modLaunch_llc (s : State) (l : Nat) (f : Launch → Launch) : (s.modLaunch l f).llc = s.llc := rfl
@[simp] theorem State.modLaunch_clusters (s : State) (l : Nat) (f : Launch → Launch) : (s.modLaunch l f).clusters = s.clusters := rfl
@[simp] theorem State.modLaunch_cores (s : State) (l : Nat) (f : Launch → Launch) : (s.modLaunch l f).cores = s.cores := rfl
@[simp] theorem State.modLaunch_ctxs (s : State) (l : Nat) (f : Launch → Launch) : (s.modLaunch l f).ctxs = s.ctxs := rfl
@[simp] theorem State.modLaunch_gangs (s : State) (l : Nat) (f : Launch → Launch) : (s.modLaunch l f).gangs = s.gangs := rfl
@[simp] theorem State.modLaunch_blocks (s : State) (l : Nat) (f : Launch → Launch) : (s.modLaunch l f).blocks = s.blocks := rfl
@[simp] theorem State.modLaunch_warps (s : State) (l : Nat) (f : Launch → Launch) : (s.modLaunch l f).warps = s.warps := rfl
@[simp] theorem State.modLaunch_checkpoints (s : State) (l : Nat) (f : Launch → Launch) : (s.modLaunch l f).checkpoints = s.checkpoints := rfl
@[simp] theorem State.modLaunch_accs (s : State) (l : Nat) (f : Launch → Launch) : (s.modLaunch l f).accs = s.accs := rfl
@[simp] theorem State.modLaunch_copies (s : State) (l : Nat) (f : Launch → Launch) : (s.modLaunch l f).copies = s.copies := rfl
@[simp] theorem State.modLaunch_images (s : State) (l : Nat) (f : Launch → Launch) : (s.modLaunch l f).images = s.images := rfl
@[simp] theorem State.modLaunch_tlb (s : State) (l : Nat) (f : Launch → Launch) : (s.modLaunch l f).tlb = s.tlb := rfl
@[simp] theorem State.modLaunch_migrations (s : State) (l : Nat) (f : Launch → Launch) : (s.modLaunch l f).migrations = s.migrations := rfl
@[simp] theorem State.modLaunch_frames (s : State) (l : Nat) (f : Launch → Launch) : (s.modLaunch l f).frames = s.frames := rfl
@[simp] theorem State.modLaunch_recalls (s : State) (l : Nat) (f : Launch → Launch) : (s.modLaunch l f).recalls = s.recalls := rfl
@[simp] theorem State.modLaunch_inWatches (s : State) (l : Nat) (f : Launch → Launch) : (s.modLaunch l f).inWatches = s.inWatches := rfl
@[simp] theorem State.modLaunch_dueAdds (s : State) (l : Nat) (f : Launch → Launch) : (s.modLaunch l f).dueAdds = s.dueAdds := rfl
@[simp] theorem State.modLaunch_slew (s : State) (l : Nat) (f : Launch → Launch) : (s.modLaunch l f).slew = s.slew := rfl
@[simp] theorem State.modLaunch_justSet (s : State) (l : Nat) (f : Launch → Launch) : (s.modLaunch l f).justSet = s.justSet := rfl
@[simp] theorem State.modLaunch_drainAt (s : State) (l : Nat) (f : Launch → Launch) : (s.modLaunch l f).drainAt = s.drainAt := rfl
@[simp] theorem State.modLaunch_routesTo (s : State) (l : Nat) (f : Launch → Launch) : (s.modLaunch l f).routesTo = s.routesTo := rfl
@[simp] theorem State.modLaunch_resetAt (s : State) (l : Nat) (f : Launch → Launch) : (s.modLaunch l f).resetAt = s.resetAt := rfl
@[simp] theorem State.modLaunch_deadPorts (s : State) (l : Nat) (f : Launch → Launch) : (s.modLaunch l f).deadPorts = s.deadPorts := rfl
@[simp] theorem State.modLaunch_bar2 (s : State) (l : Nat) (f : Launch → Launch) : (s.modLaunch l f).bar2 = s.bar2 := rfl
@[simp] theorem State.modLaunch_ideKeys (s : State) (l : Nat) (f : Launch → Launch) : (s.modLaunch l f).ideKeys = s.ideKeys := rfl
@[simp] theorem State.modLaunch_powerAt (s : State) (l : Nat) (f : Launch → Launch) : (s.modLaunch l f).powerAt = s.powerAt := rfl
@[simp] theorem State.modLaunch_flows (s : State) (l : Nat) (f : Launch → Launch) : (s.modLaunch l f).flows = s.flows := rfl
@[simp] theorem State.modLaunch_inFlows (s : State) (l : Nat) (f : Launch → Launch) : (s.modLaunch l f).inFlows = s.inFlows := rfl
@[simp] theorem State.modLaunch_clk (s : State) (l : Nat) (f : Launch → Launch) : (s.modLaunch l f).clk = s.clk := rfl
@[simp] theorem State.modLaunch_time (s : State) (l : Nat) (f : Launch → Launch) : (s.modLaunch l f).time = s.time := rfl
@[simp] theorem State.modLaunch_locked (s : State) (l : Nat) (f : Launch → Launch) : (s.modLaunch l f).locked = s.locked := rfl
@[simp] theorem State.modLaunch_epoch (s : State) (l : Nat) (f : Launch → Launch) : (s.modLaunch l f).epoch = s.epoch := rfl
@[simp] theorem State.modLaunch_liveShelves (s : State) (l : Nat) (f : Launch → Launch) : (s.modLaunch l f).liveShelves = s.liveShelves := rfl
@[simp] theorem State.modLaunch_drainShelf (s : State) (l : Nat) (f : Launch → Launch) : (s.modLaunch l f).drainShelf = s.drainShelf := rfl
@[simp] theorem State.modLaunch_restackTo (s : State) (l : Nat) (f : Launch → Launch) : (s.modLaunch l f).restackTo = s.restackTo := rfl
@[simp] theorem State.modLaunch_restackAt (s : State) (l : Nat) (f : Launch → Launch) : (s.modLaunch l f).restackAt = s.restackAt := rfl
@[simp] theorem State.modLaunch_partition (s : State) (l : Nat) (f : Launch → Launch) : (s.modLaunch l f).partition = s.partition := rfl
@[simp] theorem State.modLaunch_routes (s : State) (l : Nat) (f : Launch → Launch) : (s.modLaunch l f).routes = s.routes := rfl
@[simp] theorem State.modLaunch_inWindows (s : State) (l : Nat) (f : Launch → Launch) : (s.modLaunch l f).inWindows = s.inWindows := rfl
@[simp] theorem State.modLaunch_bindings (s : State) (l : Nat) (f : Launch → Launch) : (s.modLaunch l f).bindings = s.bindings := rfl
@[simp] theorem State.modLaunch_replays (s : State) (l : Nat) (f : Launch → Launch) : (s.modLaunch l f).replays = s.replays := rfl
@[simp] theorem State.modLaunch_deadLinks (s : State) (l : Nat) (f : Launch → Launch) : (s.modLaunch l f).deadLinks = s.deadLinks := rfl
@[simp] theorem State.modLaunch_inLog (s : State) (l : Nat) (f : Launch → Launch) : (s.modLaunch l f).inLog = s.inLog := rfl
@[simp] theorem State.modLaunch_lastServed (s : State) (l : Nat) (f : Launch → Launch) : (s.modLaunch l f).lastServed = s.lastServed := rfl
@[simp] theorem State.modLaunch_node (s : State) (l : Nat) (f : Launch → Launch) : (s.modLaunch l f).node = s.node := rfl
@[simp] theorem State.modLaunch_throt (s : State) (l : Nat) (f : Launch → Launch) : (s.modLaunch l f).throt = s.throt := rfl
@[simp] theorem State.modLaunch_powerLimit (s : State) (l : Nat) (f : Launch → Launch) : (s.modLaunch l f).powerLimit = s.powerLimit := rfl
@[simp] theorem State.modLaunch_powerStep (s : State) (l : Nat) (f : Launch → Launch) : (s.modLaunch l f).powerStep = s.powerStep := rfl
@[simp] theorem State.modLaunch_powered (s : State) (l : Nat) (f : Launch → Launch) : (s.modLaunch l f).powered = s.powered := rfl
@[simp] theorem State.modLaunch_bootDone (s : State) (l : Nat) (f : Launch → Launch) : (s.modLaunch l f).bootDone = s.bootDone := rfl
@[simp] theorem State.modLaunch_fullService (s : State) (l : Nat) (f : Launch → Launch) : (s.modLaunch l f).fullService = s.fullService := rfl
@[simp] theorem State.modLaunch_banks (s : State) (l : Nat) (f : Launch → Launch) : (s.modLaunch l f).banks = s.banks := rfl
@[simp] theorem State.modLaunch_bootBank (s : State) (l : Nat) (f : Launch → Launch) : (s.modLaunch l f).bootBank = s.bootBank := rfl
@[simp] theorem State.modLaunch_nextBank (s : State) (l : Nat) (f : Launch → Launch) : (s.modLaunch l f).nextBank = s.nextBank := rfl
@[simp] theorem State.modLaunch_fuse (s : State) (l : Nat) (f : Launch → Launch) : (s.modLaunch l f).fuse = s.fuse := rfl
@[simp] theorem State.modLaunch_attestIx (s : State) (l : Nat) (f : Launch → Launch) : (s.modLaunch l f).attestIx = s.attestIx := rfl
@[simp] theorem State.modLaunch_measurements (s : State) (l : Nat) (f : Launch → Launch) : (s.modLaunch l f).measurements = s.measurements := rfl
@[simp] theorem State.modLaunch_heldCmds (s : State) (l : Nat) (f : Launch → Launch) : (s.modLaunch l f).heldCmds = s.heldCmds := rfl
@[simp] theorem State.modLaunch_reports (s : State) (l : Nat) (f : Launch → Launch) : (s.modLaunch l f).reports = s.reports := rfl
@[simp] theorem State.modLaunch_agenda (s : State) (l : Nat) (f : Launch → Launch) : (s.modLaunch l f).agenda = s.agenda := rfl
@[simp] theorem State.modLaunch_cur (s : State) (l : Nat) (f : Launch → Launch) : (s.modLaunch l f).cur = s.cur := rfl
@[simp] theorem State.modLaunch_freeCtr (s : State) (l : Nat) (f : Launch → Launch) : (s.modLaunch l f).freeCtr = s.freeCtr := rfl

/-! ### modCtx -/

@[simp] theorem State.modCtx_ctxs (s : State) (c : Nat) (f : Ctx → Ctx) : (s.modCtx c f).ctxs = upd s.ctxs c f := rfl
@[simp] theorem State.modCtx_mem (s : State) (c : Nat) (f : Ctx → Ctx) : (s.modCtx c f).mem = s.mem := rfl
@[simp] theorem State.modCtx_tags (s : State) (c : Nat) (f : Ctx → Ctx) : (s.modCtx c f).tags = s.tags := rfl
@[simp] theorem State.modCtx_lcUndef (s : State) (c : Nat) (f : Ctx → Ctx) : (s.modCtx c f).lcUndef = s.lcUndef := rfl
@[simp] theorem State.modCtx_poison (s : State) (c : Nat) (f : Ctx → Ctx) : (s.modCtx c f).poison = s.poison := rfl
@[simp] theorem State.modCtx_losses (s : State) (c : Nat) (f : Ctx → Ctx) : (s.modCtx c f).losses = s.losses := rfl
@[simp] theorem State.modCtx_sound (s : State) (c : Nat) (f : Ctx → Ctx) : (s.modCtx c f).sound = s.sound := rfl
@[simp] theorem State.modCtx_pinned (s : State) (c : Nat) (f : Ctx → Ctx) : (s.modCtx c f).pinned = s.pinned := rfl
@[simp] theorem State.modCtx_llc (s : State) (c : Nat) (f : Ctx → Ctx) : (s.modCtx c f).llc = s.llc := rfl
@[simp] theorem State.modCtx_clusters (s : State) (c : Nat) (f : Ctx → Ctx) : (s.modCtx c f).clusters = s.clusters := rfl
@[simp] theorem State.modCtx_cores (s : State) (c : Nat) (f : Ctx → Ctx) : (s.modCtx c f).cores = s.cores := rfl
@[simp] theorem State.modCtx_launches (s : State) (c : Nat) (f : Ctx → Ctx) : (s.modCtx c f).launches = s.launches := rfl
@[simp] theorem State.modCtx_gangs (s : State) (c : Nat) (f : Ctx → Ctx) : (s.modCtx c f).gangs = s.gangs := rfl
@[simp] theorem State.modCtx_blocks (s : State) (c : Nat) (f : Ctx → Ctx) : (s.modCtx c f).blocks = s.blocks := rfl
@[simp] theorem State.modCtx_warps (s : State) (c : Nat) (f : Ctx → Ctx) : (s.modCtx c f).warps = s.warps := rfl
@[simp] theorem State.modCtx_checkpoints (s : State) (c : Nat) (f : Ctx → Ctx) : (s.modCtx c f).checkpoints = s.checkpoints := rfl
@[simp] theorem State.modCtx_accs (s : State) (c : Nat) (f : Ctx → Ctx) : (s.modCtx c f).accs = s.accs := rfl
@[simp] theorem State.modCtx_copies (s : State) (c : Nat) (f : Ctx → Ctx) : (s.modCtx c f).copies = s.copies := rfl
@[simp] theorem State.modCtx_images (s : State) (c : Nat) (f : Ctx → Ctx) : (s.modCtx c f).images = s.images := rfl
@[simp] theorem State.modCtx_tlb (s : State) (c : Nat) (f : Ctx → Ctx) : (s.modCtx c f).tlb = s.tlb := rfl
@[simp] theorem State.modCtx_migrations (s : State) (c : Nat) (f : Ctx → Ctx) : (s.modCtx c f).migrations = s.migrations := rfl
@[simp] theorem State.modCtx_frames (s : State) (c : Nat) (f : Ctx → Ctx) : (s.modCtx c f).frames = s.frames := rfl
@[simp] theorem State.modCtx_recalls (s : State) (c : Nat) (f : Ctx → Ctx) : (s.modCtx c f).recalls = s.recalls := rfl
@[simp] theorem State.modCtx_inWatches (s : State) (c : Nat) (f : Ctx → Ctx) : (s.modCtx c f).inWatches = s.inWatches := rfl
@[simp] theorem State.modCtx_dueAdds (s : State) (c : Nat) (f : Ctx → Ctx) : (s.modCtx c f).dueAdds = s.dueAdds := rfl
@[simp] theorem State.modCtx_slew (s : State) (c : Nat) (f : Ctx → Ctx) : (s.modCtx c f).slew = s.slew := rfl
@[simp] theorem State.modCtx_justSet (s : State) (c : Nat) (f : Ctx → Ctx) : (s.modCtx c f).justSet = s.justSet := rfl
@[simp] theorem State.modCtx_drainAt (s : State) (c : Nat) (f : Ctx → Ctx) : (s.modCtx c f).drainAt = s.drainAt := rfl
@[simp] theorem State.modCtx_routesTo (s : State) (c : Nat) (f : Ctx → Ctx) : (s.modCtx c f).routesTo = s.routesTo := rfl
@[simp] theorem State.modCtx_resetAt (s : State) (c : Nat) (f : Ctx → Ctx) : (s.modCtx c f).resetAt = s.resetAt := rfl
@[simp] theorem State.modCtx_deadPorts (s : State) (c : Nat) (f : Ctx → Ctx) : (s.modCtx c f).deadPorts = s.deadPorts := rfl
@[simp] theorem State.modCtx_bar2 (s : State) (c : Nat) (f : Ctx → Ctx) : (s.modCtx c f).bar2 = s.bar2 := rfl
@[simp] theorem State.modCtx_ideKeys (s : State) (c : Nat) (f : Ctx → Ctx) : (s.modCtx c f).ideKeys = s.ideKeys := rfl
@[simp] theorem State.modCtx_powerAt (s : State) (c : Nat) (f : Ctx → Ctx) : (s.modCtx c f).powerAt = s.powerAt := rfl
@[simp] theorem State.modCtx_flows (s : State) (c : Nat) (f : Ctx → Ctx) : (s.modCtx c f).flows = s.flows := rfl
@[simp] theorem State.modCtx_inFlows (s : State) (c : Nat) (f : Ctx → Ctx) : (s.modCtx c f).inFlows = s.inFlows := rfl
@[simp] theorem State.modCtx_clk (s : State) (c : Nat) (f : Ctx → Ctx) : (s.modCtx c f).clk = s.clk := rfl
@[simp] theorem State.modCtx_time (s : State) (c : Nat) (f : Ctx → Ctx) : (s.modCtx c f).time = s.time := rfl
@[simp] theorem State.modCtx_locked (s : State) (c : Nat) (f : Ctx → Ctx) : (s.modCtx c f).locked = s.locked := rfl
@[simp] theorem State.modCtx_epoch (s : State) (c : Nat) (f : Ctx → Ctx) : (s.modCtx c f).epoch = s.epoch := rfl
@[simp] theorem State.modCtx_liveShelves (s : State) (c : Nat) (f : Ctx → Ctx) : (s.modCtx c f).liveShelves = s.liveShelves := rfl
@[simp] theorem State.modCtx_drainShelf (s : State) (c : Nat) (f : Ctx → Ctx) : (s.modCtx c f).drainShelf = s.drainShelf := rfl
@[simp] theorem State.modCtx_restackTo (s : State) (c : Nat) (f : Ctx → Ctx) : (s.modCtx c f).restackTo = s.restackTo := rfl
@[simp] theorem State.modCtx_restackAt (s : State) (c : Nat) (f : Ctx → Ctx) : (s.modCtx c f).restackAt = s.restackAt := rfl
@[simp] theorem State.modCtx_partition (s : State) (c : Nat) (f : Ctx → Ctx) : (s.modCtx c f).partition = s.partition := rfl
@[simp] theorem State.modCtx_routes (s : State) (c : Nat) (f : Ctx → Ctx) : (s.modCtx c f).routes = s.routes := rfl
@[simp] theorem State.modCtx_inWindows (s : State) (c : Nat) (f : Ctx → Ctx) : (s.modCtx c f).inWindows = s.inWindows := rfl
@[simp] theorem State.modCtx_bindings (s : State) (c : Nat) (f : Ctx → Ctx) : (s.modCtx c f).bindings = s.bindings := rfl
@[simp] theorem State.modCtx_replays (s : State) (c : Nat) (f : Ctx → Ctx) : (s.modCtx c f).replays = s.replays := rfl
@[simp] theorem State.modCtx_deadLinks (s : State) (c : Nat) (f : Ctx → Ctx) : (s.modCtx c f).deadLinks = s.deadLinks := rfl
@[simp] theorem State.modCtx_inLog (s : State) (c : Nat) (f : Ctx → Ctx) : (s.modCtx c f).inLog = s.inLog := rfl
@[simp] theorem State.modCtx_lastServed (s : State) (c : Nat) (f : Ctx → Ctx) : (s.modCtx c f).lastServed = s.lastServed := rfl
@[simp] theorem State.modCtx_node (s : State) (c : Nat) (f : Ctx → Ctx) : (s.modCtx c f).node = s.node := rfl
@[simp] theorem State.modCtx_throt (s : State) (c : Nat) (f : Ctx → Ctx) : (s.modCtx c f).throt = s.throt := rfl
@[simp] theorem State.modCtx_powerLimit (s : State) (c : Nat) (f : Ctx → Ctx) : (s.modCtx c f).powerLimit = s.powerLimit := rfl
@[simp] theorem State.modCtx_powerStep (s : State) (c : Nat) (f : Ctx → Ctx) : (s.modCtx c f).powerStep = s.powerStep := rfl
@[simp] theorem State.modCtx_powered (s : State) (c : Nat) (f : Ctx → Ctx) : (s.modCtx c f).powered = s.powered := rfl
@[simp] theorem State.modCtx_bootDone (s : State) (c : Nat) (f : Ctx → Ctx) : (s.modCtx c f).bootDone = s.bootDone := rfl
@[simp] theorem State.modCtx_fullService (s : State) (c : Nat) (f : Ctx → Ctx) : (s.modCtx c f).fullService = s.fullService := rfl
@[simp] theorem State.modCtx_banks (s : State) (c : Nat) (f : Ctx → Ctx) : (s.modCtx c f).banks = s.banks := rfl
@[simp] theorem State.modCtx_bootBank (s : State) (c : Nat) (f : Ctx → Ctx) : (s.modCtx c f).bootBank = s.bootBank := rfl
@[simp] theorem State.modCtx_nextBank (s : State) (c : Nat) (f : Ctx → Ctx) : (s.modCtx c f).nextBank = s.nextBank := rfl
@[simp] theorem State.modCtx_fuse (s : State) (c : Nat) (f : Ctx → Ctx) : (s.modCtx c f).fuse = s.fuse := rfl
@[simp] theorem State.modCtx_attestIx (s : State) (c : Nat) (f : Ctx → Ctx) : (s.modCtx c f).attestIx = s.attestIx := rfl
@[simp] theorem State.modCtx_measurements (s : State) (c : Nat) (f : Ctx → Ctx) : (s.modCtx c f).measurements = s.measurements := rfl
@[simp] theorem State.modCtx_heldCmds (s : State) (c : Nat) (f : Ctx → Ctx) : (s.modCtx c f).heldCmds = s.heldCmds := rfl
@[simp] theorem State.modCtx_reports (s : State) (c : Nat) (f : Ctx → Ctx) : (s.modCtx c f).reports = s.reports := rfl
@[simp] theorem State.modCtx_agenda (s : State) (c : Nat) (f : Ctx → Ctx) : (s.modCtx c f).agenda = s.agenda := rfl
@[simp] theorem State.modCtx_cur (s : State) (c : Nat) (f : Ctx → Ctx) : (s.modCtx c f).cur = s.cur := rfl
@[simp] theorem State.modCtx_freeCtr (s : State) (c : Nat) (f : Ctx → Ctx) : (s.modCtx c f).freeCtr = s.freeCtr := rfl

/-! ### modAcc -/

@[simp] theorem State.modAcc_accs (s : State) (a : Nat) (f : Access → Access) : (s.modAcc a f).accs = upd s.accs a f := rfl
@[simp] theorem State.modAcc_mem (s : State) (a : Nat) (f : Access → Access) : (s.modAcc a f).mem = s.mem := rfl
@[simp] theorem State.modAcc_tags (s : State) (a : Nat) (f : Access → Access) : (s.modAcc a f).tags = s.tags := rfl
@[simp] theorem State.modAcc_lcUndef (s : State) (a : Nat) (f : Access → Access) : (s.modAcc a f).lcUndef = s.lcUndef := rfl
@[simp] theorem State.modAcc_poison (s : State) (a : Nat) (f : Access → Access) : (s.modAcc a f).poison = s.poison := rfl
@[simp] theorem State.modAcc_losses (s : State) (a : Nat) (f : Access → Access) : (s.modAcc a f).losses = s.losses := rfl
@[simp] theorem State.modAcc_sound (s : State) (a : Nat) (f : Access → Access) : (s.modAcc a f).sound = s.sound := rfl
@[simp] theorem State.modAcc_pinned (s : State) (a : Nat) (f : Access → Access) : (s.modAcc a f).pinned = s.pinned := rfl
@[simp] theorem State.modAcc_llc (s : State) (a : Nat) (f : Access → Access) : (s.modAcc a f).llc = s.llc := rfl
@[simp] theorem State.modAcc_clusters (s : State) (a : Nat) (f : Access → Access) : (s.modAcc a f).clusters = s.clusters := rfl
@[simp] theorem State.modAcc_cores (s : State) (a : Nat) (f : Access → Access) : (s.modAcc a f).cores = s.cores := rfl
@[simp] theorem State.modAcc_ctxs (s : State) (a : Nat) (f : Access → Access) : (s.modAcc a f).ctxs = s.ctxs := rfl
@[simp] theorem State.modAcc_launches (s : State) (a : Nat) (f : Access → Access) : (s.modAcc a f).launches = s.launches := rfl
@[simp] theorem State.modAcc_gangs (s : State) (a : Nat) (f : Access → Access) : (s.modAcc a f).gangs = s.gangs := rfl
@[simp] theorem State.modAcc_blocks (s : State) (a : Nat) (f : Access → Access) : (s.modAcc a f).blocks = s.blocks := rfl
@[simp] theorem State.modAcc_warps (s : State) (a : Nat) (f : Access → Access) : (s.modAcc a f).warps = s.warps := rfl
@[simp] theorem State.modAcc_checkpoints (s : State) (a : Nat) (f : Access → Access) : (s.modAcc a f).checkpoints = s.checkpoints := rfl
@[simp] theorem State.modAcc_copies (s : State) (a : Nat) (f : Access → Access) : (s.modAcc a f).copies = s.copies := rfl
@[simp] theorem State.modAcc_images (s : State) (a : Nat) (f : Access → Access) : (s.modAcc a f).images = s.images := rfl
@[simp] theorem State.modAcc_tlb (s : State) (a : Nat) (f : Access → Access) : (s.modAcc a f).tlb = s.tlb := rfl
@[simp] theorem State.modAcc_migrations (s : State) (a : Nat) (f : Access → Access) : (s.modAcc a f).migrations = s.migrations := rfl
@[simp] theorem State.modAcc_frames (s : State) (a : Nat) (f : Access → Access) : (s.modAcc a f).frames = s.frames := rfl
@[simp] theorem State.modAcc_recalls (s : State) (a : Nat) (f : Access → Access) : (s.modAcc a f).recalls = s.recalls := rfl
@[simp] theorem State.modAcc_inWatches (s : State) (a : Nat) (f : Access → Access) : (s.modAcc a f).inWatches = s.inWatches := rfl
@[simp] theorem State.modAcc_dueAdds (s : State) (a : Nat) (f : Access → Access) : (s.modAcc a f).dueAdds = s.dueAdds := rfl
@[simp] theorem State.modAcc_slew (s : State) (a : Nat) (f : Access → Access) : (s.modAcc a f).slew = s.slew := rfl
@[simp] theorem State.modAcc_justSet (s : State) (a : Nat) (f : Access → Access) : (s.modAcc a f).justSet = s.justSet := rfl
@[simp] theorem State.modAcc_drainAt (s : State) (a : Nat) (f : Access → Access) : (s.modAcc a f).drainAt = s.drainAt := rfl
@[simp] theorem State.modAcc_routesTo (s : State) (a : Nat) (f : Access → Access) : (s.modAcc a f).routesTo = s.routesTo := rfl
@[simp] theorem State.modAcc_resetAt (s : State) (a : Nat) (f : Access → Access) : (s.modAcc a f).resetAt = s.resetAt := rfl
@[simp] theorem State.modAcc_deadPorts (s : State) (a : Nat) (f : Access → Access) : (s.modAcc a f).deadPorts = s.deadPorts := rfl
@[simp] theorem State.modAcc_bar2 (s : State) (a : Nat) (f : Access → Access) : (s.modAcc a f).bar2 = s.bar2 := rfl
@[simp] theorem State.modAcc_ideKeys (s : State) (a : Nat) (f : Access → Access) : (s.modAcc a f).ideKeys = s.ideKeys := rfl
@[simp] theorem State.modAcc_powerAt (s : State) (a : Nat) (f : Access → Access) : (s.modAcc a f).powerAt = s.powerAt := rfl
@[simp] theorem State.modAcc_flows (s : State) (a : Nat) (f : Access → Access) : (s.modAcc a f).flows = s.flows := rfl
@[simp] theorem State.modAcc_inFlows (s : State) (a : Nat) (f : Access → Access) : (s.modAcc a f).inFlows = s.inFlows := rfl
@[simp] theorem State.modAcc_clk (s : State) (a : Nat) (f : Access → Access) : (s.modAcc a f).clk = s.clk := rfl
@[simp] theorem State.modAcc_time (s : State) (a : Nat) (f : Access → Access) : (s.modAcc a f).time = s.time := rfl
@[simp] theorem State.modAcc_locked (s : State) (a : Nat) (f : Access → Access) : (s.modAcc a f).locked = s.locked := rfl
@[simp] theorem State.modAcc_epoch (s : State) (a : Nat) (f : Access → Access) : (s.modAcc a f).epoch = s.epoch := rfl
@[simp] theorem State.modAcc_liveShelves (s : State) (a : Nat) (f : Access → Access) : (s.modAcc a f).liveShelves = s.liveShelves := rfl
@[simp] theorem State.modAcc_drainShelf (s : State) (a : Nat) (f : Access → Access) : (s.modAcc a f).drainShelf = s.drainShelf := rfl
@[simp] theorem State.modAcc_restackTo (s : State) (a : Nat) (f : Access → Access) : (s.modAcc a f).restackTo = s.restackTo := rfl
@[simp] theorem State.modAcc_restackAt (s : State) (a : Nat) (f : Access → Access) : (s.modAcc a f).restackAt = s.restackAt := rfl
@[simp] theorem State.modAcc_partition (s : State) (a : Nat) (f : Access → Access) : (s.modAcc a f).partition = s.partition := rfl
@[simp] theorem State.modAcc_routes (s : State) (a : Nat) (f : Access → Access) : (s.modAcc a f).routes = s.routes := rfl
@[simp] theorem State.modAcc_inWindows (s : State) (a : Nat) (f : Access → Access) : (s.modAcc a f).inWindows = s.inWindows := rfl
@[simp] theorem State.modAcc_bindings (s : State) (a : Nat) (f : Access → Access) : (s.modAcc a f).bindings = s.bindings := rfl
@[simp] theorem State.modAcc_replays (s : State) (a : Nat) (f : Access → Access) : (s.modAcc a f).replays = s.replays := rfl
@[simp] theorem State.modAcc_deadLinks (s : State) (a : Nat) (f : Access → Access) : (s.modAcc a f).deadLinks = s.deadLinks := rfl
@[simp] theorem State.modAcc_inLog (s : State) (a : Nat) (f : Access → Access) : (s.modAcc a f).inLog = s.inLog := rfl
@[simp] theorem State.modAcc_lastServed (s : State) (a : Nat) (f : Access → Access) : (s.modAcc a f).lastServed = s.lastServed := rfl
@[simp] theorem State.modAcc_node (s : State) (a : Nat) (f : Access → Access) : (s.modAcc a f).node = s.node := rfl
@[simp] theorem State.modAcc_throt (s : State) (a : Nat) (f : Access → Access) : (s.modAcc a f).throt = s.throt := rfl
@[simp] theorem State.modAcc_powerLimit (s : State) (a : Nat) (f : Access → Access) : (s.modAcc a f).powerLimit = s.powerLimit := rfl
@[simp] theorem State.modAcc_powerStep (s : State) (a : Nat) (f : Access → Access) : (s.modAcc a f).powerStep = s.powerStep := rfl
@[simp] theorem State.modAcc_powered (s : State) (a : Nat) (f : Access → Access) : (s.modAcc a f).powered = s.powered := rfl
@[simp] theorem State.modAcc_bootDone (s : State) (a : Nat) (f : Access → Access) : (s.modAcc a f).bootDone = s.bootDone := rfl
@[simp] theorem State.modAcc_fullService (s : State) (a : Nat) (f : Access → Access) : (s.modAcc a f).fullService = s.fullService := rfl
@[simp] theorem State.modAcc_banks (s : State) (a : Nat) (f : Access → Access) : (s.modAcc a f).banks = s.banks := rfl
@[simp] theorem State.modAcc_bootBank (s : State) (a : Nat) (f : Access → Access) : (s.modAcc a f).bootBank = s.bootBank := rfl
@[simp] theorem State.modAcc_nextBank (s : State) (a : Nat) (f : Access → Access) : (s.modAcc a f).nextBank = s.nextBank := rfl
@[simp] theorem State.modAcc_fuse (s : State) (a : Nat) (f : Access → Access) : (s.modAcc a f).fuse = s.fuse := rfl
@[simp] theorem State.modAcc_attestIx (s : State) (a : Nat) (f : Access → Access) : (s.modAcc a f).attestIx = s.attestIx := rfl
@[simp] theorem State.modAcc_measurements (s : State) (a : Nat) (f : Access → Access) : (s.modAcc a f).measurements = s.measurements := rfl
@[simp] theorem State.modAcc_heldCmds (s : State) (a : Nat) (f : Access → Access) : (s.modAcc a f).heldCmds = s.heldCmds := rfl
@[simp] theorem State.modAcc_reports (s : State) (a : Nat) (f : Access → Access) : (s.modAcc a f).reports = s.reports := rfl
@[simp] theorem State.modAcc_agenda (s : State) (a : Nat) (f : Access → Access) : (s.modAcc a f).agenda = s.agenda := rfl
@[simp] theorem State.modAcc_cur (s : State) (a : Nat) (f : Access → Access) : (s.modAcc a f).cur = s.cur := rfl
@[simp] theorem State.modAcc_freeCtr (s : State) (a : Nat) (f : Access → Access) : (s.modAcc a f).freeCtr = s.freeCtr := rfl

/-! ### modCopy -/

@[simp] theorem State.modCopy_copies (s : State) (c : Nat) (f : Copy → Copy) : (s.modCopy c f).copies = upd s.copies c f := rfl
@[simp] theorem State.modCopy_mem (s : State) (c : Nat) (f : Copy → Copy) : (s.modCopy c f).mem = s.mem := rfl
@[simp] theorem State.modCopy_tags (s : State) (c : Nat) (f : Copy → Copy) : (s.modCopy c f).tags = s.tags := rfl
@[simp] theorem State.modCopy_lcUndef (s : State) (c : Nat) (f : Copy → Copy) : (s.modCopy c f).lcUndef = s.lcUndef := rfl
@[simp] theorem State.modCopy_poison (s : State) (c : Nat) (f : Copy → Copy) : (s.modCopy c f).poison = s.poison := rfl
@[simp] theorem State.modCopy_losses (s : State) (c : Nat) (f : Copy → Copy) : (s.modCopy c f).losses = s.losses := rfl
@[simp] theorem State.modCopy_sound (s : State) (c : Nat) (f : Copy → Copy) : (s.modCopy c f).sound = s.sound := rfl
@[simp] theorem State.modCopy_pinned (s : State) (c : Nat) (f : Copy → Copy) : (s.modCopy c f).pinned = s.pinned := rfl
@[simp] theorem State.modCopy_llc (s : State) (c : Nat) (f : Copy → Copy) : (s.modCopy c f).llc = s.llc := rfl
@[simp] theorem State.modCopy_clusters (s : State) (c : Nat) (f : Copy → Copy) : (s.modCopy c f).clusters = s.clusters := rfl
@[simp] theorem State.modCopy_cores (s : State) (c : Nat) (f : Copy → Copy) : (s.modCopy c f).cores = s.cores := rfl
@[simp] theorem State.modCopy_ctxs (s : State) (c : Nat) (f : Copy → Copy) : (s.modCopy c f).ctxs = s.ctxs := rfl
@[simp] theorem State.modCopy_launches (s : State) (c : Nat) (f : Copy → Copy) : (s.modCopy c f).launches = s.launches := rfl
@[simp] theorem State.modCopy_gangs (s : State) (c : Nat) (f : Copy → Copy) : (s.modCopy c f).gangs = s.gangs := rfl
@[simp] theorem State.modCopy_blocks (s : State) (c : Nat) (f : Copy → Copy) : (s.modCopy c f).blocks = s.blocks := rfl
@[simp] theorem State.modCopy_warps (s : State) (c : Nat) (f : Copy → Copy) : (s.modCopy c f).warps = s.warps := rfl
@[simp] theorem State.modCopy_checkpoints (s : State) (c : Nat) (f : Copy → Copy) : (s.modCopy c f).checkpoints = s.checkpoints := rfl
@[simp] theorem State.modCopy_accs (s : State) (c : Nat) (f : Copy → Copy) : (s.modCopy c f).accs = s.accs := rfl
@[simp] theorem State.modCopy_images (s : State) (c : Nat) (f : Copy → Copy) : (s.modCopy c f).images = s.images := rfl
@[simp] theorem State.modCopy_tlb (s : State) (c : Nat) (f : Copy → Copy) : (s.modCopy c f).tlb = s.tlb := rfl
@[simp] theorem State.modCopy_migrations (s : State) (c : Nat) (f : Copy → Copy) : (s.modCopy c f).migrations = s.migrations := rfl
@[simp] theorem State.modCopy_frames (s : State) (c : Nat) (f : Copy → Copy) : (s.modCopy c f).frames = s.frames := rfl
@[simp] theorem State.modCopy_recalls (s : State) (c : Nat) (f : Copy → Copy) : (s.modCopy c f).recalls = s.recalls := rfl
@[simp] theorem State.modCopy_inWatches (s : State) (c : Nat) (f : Copy → Copy) : (s.modCopy c f).inWatches = s.inWatches := rfl
@[simp] theorem State.modCopy_dueAdds (s : State) (c : Nat) (f : Copy → Copy) : (s.modCopy c f).dueAdds = s.dueAdds := rfl
@[simp] theorem State.modCopy_slew (s : State) (c : Nat) (f : Copy → Copy) : (s.modCopy c f).slew = s.slew := rfl
@[simp] theorem State.modCopy_justSet (s : State) (c : Nat) (f : Copy → Copy) : (s.modCopy c f).justSet = s.justSet := rfl
@[simp] theorem State.modCopy_drainAt (s : State) (c : Nat) (f : Copy → Copy) : (s.modCopy c f).drainAt = s.drainAt := rfl
@[simp] theorem State.modCopy_routesTo (s : State) (c : Nat) (f : Copy → Copy) : (s.modCopy c f).routesTo = s.routesTo := rfl
@[simp] theorem State.modCopy_resetAt (s : State) (c : Nat) (f : Copy → Copy) : (s.modCopy c f).resetAt = s.resetAt := rfl
@[simp] theorem State.modCopy_deadPorts (s : State) (c : Nat) (f : Copy → Copy) : (s.modCopy c f).deadPorts = s.deadPorts := rfl
@[simp] theorem State.modCopy_bar2 (s : State) (c : Nat) (f : Copy → Copy) : (s.modCopy c f).bar2 = s.bar2 := rfl
@[simp] theorem State.modCopy_ideKeys (s : State) (c : Nat) (f : Copy → Copy) : (s.modCopy c f).ideKeys = s.ideKeys := rfl
@[simp] theorem State.modCopy_powerAt (s : State) (c : Nat) (f : Copy → Copy) : (s.modCopy c f).powerAt = s.powerAt := rfl
@[simp] theorem State.modCopy_flows (s : State) (c : Nat) (f : Copy → Copy) : (s.modCopy c f).flows = s.flows := rfl
@[simp] theorem State.modCopy_inFlows (s : State) (c : Nat) (f : Copy → Copy) : (s.modCopy c f).inFlows = s.inFlows := rfl
@[simp] theorem State.modCopy_clk (s : State) (c : Nat) (f : Copy → Copy) : (s.modCopy c f).clk = s.clk := rfl
@[simp] theorem State.modCopy_time (s : State) (c : Nat) (f : Copy → Copy) : (s.modCopy c f).time = s.time := rfl
@[simp] theorem State.modCopy_locked (s : State) (c : Nat) (f : Copy → Copy) : (s.modCopy c f).locked = s.locked := rfl
@[simp] theorem State.modCopy_epoch (s : State) (c : Nat) (f : Copy → Copy) : (s.modCopy c f).epoch = s.epoch := rfl
@[simp] theorem State.modCopy_liveShelves (s : State) (c : Nat) (f : Copy → Copy) : (s.modCopy c f).liveShelves = s.liveShelves := rfl
@[simp] theorem State.modCopy_drainShelf (s : State) (c : Nat) (f : Copy → Copy) : (s.modCopy c f).drainShelf = s.drainShelf := rfl
@[simp] theorem State.modCopy_restackTo (s : State) (c : Nat) (f : Copy → Copy) : (s.modCopy c f).restackTo = s.restackTo := rfl
@[simp] theorem State.modCopy_restackAt (s : State) (c : Nat) (f : Copy → Copy) : (s.modCopy c f).restackAt = s.restackAt := rfl
@[simp] theorem State.modCopy_partition (s : State) (c : Nat) (f : Copy → Copy) : (s.modCopy c f).partition = s.partition := rfl
@[simp] theorem State.modCopy_routes (s : State) (c : Nat) (f : Copy → Copy) : (s.modCopy c f).routes = s.routes := rfl
@[simp] theorem State.modCopy_inWindows (s : State) (c : Nat) (f : Copy → Copy) : (s.modCopy c f).inWindows = s.inWindows := rfl
@[simp] theorem State.modCopy_bindings (s : State) (c : Nat) (f : Copy → Copy) : (s.modCopy c f).bindings = s.bindings := rfl
@[simp] theorem State.modCopy_replays (s : State) (c : Nat) (f : Copy → Copy) : (s.modCopy c f).replays = s.replays := rfl
@[simp] theorem State.modCopy_deadLinks (s : State) (c : Nat) (f : Copy → Copy) : (s.modCopy c f).deadLinks = s.deadLinks := rfl
@[simp] theorem State.modCopy_inLog (s : State) (c : Nat) (f : Copy → Copy) : (s.modCopy c f).inLog = s.inLog := rfl
@[simp] theorem State.modCopy_lastServed (s : State) (c : Nat) (f : Copy → Copy) : (s.modCopy c f).lastServed = s.lastServed := rfl
@[simp] theorem State.modCopy_node (s : State) (c : Nat) (f : Copy → Copy) : (s.modCopy c f).node = s.node := rfl
@[simp] theorem State.modCopy_throt (s : State) (c : Nat) (f : Copy → Copy) : (s.modCopy c f).throt = s.throt := rfl
@[simp] theorem State.modCopy_powerLimit (s : State) (c : Nat) (f : Copy → Copy) : (s.modCopy c f).powerLimit = s.powerLimit := rfl
@[simp] theorem State.modCopy_powerStep (s : State) (c : Nat) (f : Copy → Copy) : (s.modCopy c f).powerStep = s.powerStep := rfl
@[simp] theorem State.modCopy_powered (s : State) (c : Nat) (f : Copy → Copy) : (s.modCopy c f).powered = s.powered := rfl
@[simp] theorem State.modCopy_bootDone (s : State) (c : Nat) (f : Copy → Copy) : (s.modCopy c f).bootDone = s.bootDone := rfl
@[simp] theorem State.modCopy_fullService (s : State) (c : Nat) (f : Copy → Copy) : (s.modCopy c f).fullService = s.fullService := rfl
@[simp] theorem State.modCopy_banks (s : State) (c : Nat) (f : Copy → Copy) : (s.modCopy c f).banks = s.banks := rfl
@[simp] theorem State.modCopy_bootBank (s : State) (c : Nat) (f : Copy → Copy) : (s.modCopy c f).bootBank = s.bootBank := rfl
@[simp] theorem State.modCopy_nextBank (s : State) (c : Nat) (f : Copy → Copy) : (s.modCopy c f).nextBank = s.nextBank := rfl
@[simp] theorem State.modCopy_fuse (s : State) (c : Nat) (f : Copy → Copy) : (s.modCopy c f).fuse = s.fuse := rfl
@[simp] theorem State.modCopy_attestIx (s : State) (c : Nat) (f : Copy → Copy) : (s.modCopy c f).attestIx = s.attestIx := rfl
@[simp] theorem State.modCopy_measurements (s : State) (c : Nat) (f : Copy → Copy) : (s.modCopy c f).measurements = s.measurements := rfl
@[simp] theorem State.modCopy_heldCmds (s : State) (c : Nat) (f : Copy → Copy) : (s.modCopy c f).heldCmds = s.heldCmds := rfl
@[simp] theorem State.modCopy_reports (s : State) (c : Nat) (f : Copy → Copy) : (s.modCopy c f).reports = s.reports := rfl
@[simp] theorem State.modCopy_agenda (s : State) (c : Nat) (f : Copy → Copy) : (s.modCopy c f).agenda = s.agenda := rfl
@[simp] theorem State.modCopy_cur (s : State) (c : Nat) (f : Copy → Copy) : (s.modCopy c f).cur = s.cur := rfl
@[simp] theorem State.modCopy_freeCtr (s : State) (c : Nat) (f : Copy → Copy) : (s.modCopy c f).freeCtr = s.freeCtr := rfl

/-! ### modCore -/

@[simp] theorem State.modCore_mem (s : State) (cl c : Nat) (f : Core → Core) : (s.modCore cl c f).mem = s.mem := by
  unfold State.modCore; split <;> rfl
@[simp] theorem State.modCore_tags (s : State) (cl c : Nat) (f : Core → Core) : (s.modCore cl c f).tags = s.tags := by
  unfold State.modCore; split <;> rfl
@[simp] theorem State.modCore_lcUndef (s : State) (cl c : Nat) (f : Core → Core) : (s.modCore cl c f).lcUndef = s.lcUndef := by
  unfold State.modCore; split <;> rfl
@[simp] theorem State.modCore_poison (s : State) (cl c : Nat) (f : Core → Core) : (s.modCore cl c f).poison = s.poison := by
  unfold State.modCore; split <;> rfl
@[simp] theorem State.modCore_losses (s : State) (cl c : Nat) (f : Core → Core) : (s.modCore cl c f).losses = s.losses := by
  unfold State.modCore; split <;> rfl
@[simp] theorem State.modCore_sound (s : State) (cl c : Nat) (f : Core → Core) : (s.modCore cl c f).sound = s.sound := by
  unfold State.modCore; split <;> rfl
@[simp] theorem State.modCore_pinned (s : State) (cl c : Nat) (f : Core → Core) : (s.modCore cl c f).pinned = s.pinned := by
  unfold State.modCore; split <;> rfl
@[simp] theorem State.modCore_llc (s : State) (cl c : Nat) (f : Core → Core) : (s.modCore cl c f).llc = s.llc := by
  unfold State.modCore; split <;> rfl
@[simp] theorem State.modCore_clusters (s : State) (cl c : Nat) (f : Core → Core) : (s.modCore cl c f).clusters = s.clusters := by
  unfold State.modCore; split <;> rfl
@[simp] theorem State.modCore_ctxs (s : State) (cl c : Nat) (f : Core → Core) : (s.modCore cl c f).ctxs = s.ctxs := by
  unfold State.modCore; split <;> rfl
@[simp] theorem State.modCore_launches (s : State) (cl c : Nat) (f : Core → Core) : (s.modCore cl c f).launches = s.launches := by
  unfold State.modCore; split <;> rfl
@[simp] theorem State.modCore_gangs (s : State) (cl c : Nat) (f : Core → Core) : (s.modCore cl c f).gangs = s.gangs := by
  unfold State.modCore; split <;> rfl
@[simp] theorem State.modCore_blocks (s : State) (cl c : Nat) (f : Core → Core) : (s.modCore cl c f).blocks = s.blocks := by
  unfold State.modCore; split <;> rfl
@[simp] theorem State.modCore_warps (s : State) (cl c : Nat) (f : Core → Core) : (s.modCore cl c f).warps = s.warps := by
  unfold State.modCore; split <;> rfl
@[simp] theorem State.modCore_checkpoints (s : State) (cl c : Nat) (f : Core → Core) : (s.modCore cl c f).checkpoints = s.checkpoints := by
  unfold State.modCore; split <;> rfl
@[simp] theorem State.modCore_accs (s : State) (cl c : Nat) (f : Core → Core) : (s.modCore cl c f).accs = s.accs := by
  unfold State.modCore; split <;> rfl
@[simp] theorem State.modCore_copies (s : State) (cl c : Nat) (f : Core → Core) : (s.modCore cl c f).copies = s.copies := by
  unfold State.modCore; split <;> rfl
@[simp] theorem State.modCore_images (s : State) (cl c : Nat) (f : Core → Core) : (s.modCore cl c f).images = s.images := by
  unfold State.modCore; split <;> rfl
@[simp] theorem State.modCore_tlb (s : State) (cl c : Nat) (f : Core → Core) : (s.modCore cl c f).tlb = s.tlb := by
  unfold State.modCore; split <;> rfl
@[simp] theorem State.modCore_migrations (s : State) (cl c : Nat) (f : Core → Core) : (s.modCore cl c f).migrations = s.migrations := by
  unfold State.modCore; split <;> rfl
@[simp] theorem State.modCore_frames (s : State) (cl c : Nat) (f : Core → Core) : (s.modCore cl c f).frames = s.frames := by
  unfold State.modCore; split <;> rfl
@[simp] theorem State.modCore_recalls (s : State) (cl c : Nat) (f : Core → Core) : (s.modCore cl c f).recalls = s.recalls := by
  unfold State.modCore; split <;> rfl
@[simp] theorem State.modCore_inWatches (s : State) (cl c : Nat) (f : Core → Core) : (s.modCore cl c f).inWatches = s.inWatches := by
  unfold State.modCore; split <;> rfl
@[simp] theorem State.modCore_dueAdds (s : State) (cl c : Nat) (f : Core → Core) : (s.modCore cl c f).dueAdds = s.dueAdds := by
  unfold State.modCore; split <;> rfl
@[simp] theorem State.modCore_slew (s : State) (cl c : Nat) (f : Core → Core) : (s.modCore cl c f).slew = s.slew := by
  unfold State.modCore; split <;> rfl
@[simp] theorem State.modCore_justSet (s : State) (cl c : Nat) (f : Core → Core) : (s.modCore cl c f).justSet = s.justSet := by
  unfold State.modCore; split <;> rfl
@[simp] theorem State.modCore_drainAt (s : State) (cl c : Nat) (f : Core → Core) : (s.modCore cl c f).drainAt = s.drainAt := by
  unfold State.modCore; split <;> rfl
@[simp] theorem State.modCore_routesTo (s : State) (cl c : Nat) (f : Core → Core) : (s.modCore cl c f).routesTo = s.routesTo := by
  unfold State.modCore; split <;> rfl
@[simp] theorem State.modCore_resetAt (s : State) (cl c : Nat) (f : Core → Core) : (s.modCore cl c f).resetAt = s.resetAt := by
  unfold State.modCore; split <;> rfl
@[simp] theorem State.modCore_deadPorts (s : State) (cl c : Nat) (f : Core → Core) : (s.modCore cl c f).deadPorts = s.deadPorts := by
  unfold State.modCore; split <;> rfl
@[simp] theorem State.modCore_bar2 (s : State) (cl c : Nat) (f : Core → Core) : (s.modCore cl c f).bar2 = s.bar2 := by
  unfold State.modCore; split <;> rfl
@[simp] theorem State.modCore_ideKeys (s : State) (cl c : Nat) (f : Core → Core) : (s.modCore cl c f).ideKeys = s.ideKeys := by
  unfold State.modCore; split <;> rfl
@[simp] theorem State.modCore_powerAt (s : State) (cl c : Nat) (f : Core → Core) : (s.modCore cl c f).powerAt = s.powerAt := by
  unfold State.modCore; split <;> rfl
@[simp] theorem State.modCore_flows (s : State) (cl c : Nat) (f : Core → Core) : (s.modCore cl c f).flows = s.flows := by
  unfold State.modCore; split <;> rfl
@[simp] theorem State.modCore_inFlows (s : State) (cl c : Nat) (f : Core → Core) : (s.modCore cl c f).inFlows = s.inFlows := by
  unfold State.modCore; split <;> rfl
@[simp] theorem State.modCore_clk (s : State) (cl c : Nat) (f : Core → Core) : (s.modCore cl c f).clk = s.clk := by
  unfold State.modCore; split <;> rfl
@[simp] theorem State.modCore_time (s : State) (cl c : Nat) (f : Core → Core) : (s.modCore cl c f).time = s.time := by
  unfold State.modCore; split <;> rfl
@[simp] theorem State.modCore_locked (s : State) (cl c : Nat) (f : Core → Core) : (s.modCore cl c f).locked = s.locked := by
  unfold State.modCore; split <;> rfl
@[simp] theorem State.modCore_epoch (s : State) (cl c : Nat) (f : Core → Core) : (s.modCore cl c f).epoch = s.epoch := by
  unfold State.modCore; split <;> rfl
@[simp] theorem State.modCore_liveShelves (s : State) (cl c : Nat) (f : Core → Core) : (s.modCore cl c f).liveShelves = s.liveShelves := by
  unfold State.modCore; split <;> rfl
@[simp] theorem State.modCore_drainShelf (s : State) (cl c : Nat) (f : Core → Core) : (s.modCore cl c f).drainShelf = s.drainShelf := by
  unfold State.modCore; split <;> rfl
@[simp] theorem State.modCore_restackTo (s : State) (cl c : Nat) (f : Core → Core) : (s.modCore cl c f).restackTo = s.restackTo := by
  unfold State.modCore; split <;> rfl
@[simp] theorem State.modCore_restackAt (s : State) (cl c : Nat) (f : Core → Core) : (s.modCore cl c f).restackAt = s.restackAt := by
  unfold State.modCore; split <;> rfl
@[simp] theorem State.modCore_partition (s : State) (cl c : Nat) (f : Core → Core) : (s.modCore cl c f).partition = s.partition := by
  unfold State.modCore; split <;> rfl
@[simp] theorem State.modCore_routes (s : State) (cl c : Nat) (f : Core → Core) : (s.modCore cl c f).routes = s.routes := by
  unfold State.modCore; split <;> rfl
@[simp] theorem State.modCore_inWindows (s : State) (cl c : Nat) (f : Core → Core) : (s.modCore cl c f).inWindows = s.inWindows := by
  unfold State.modCore; split <;> rfl
@[simp] theorem State.modCore_bindings (s : State) (cl c : Nat) (f : Core → Core) : (s.modCore cl c f).bindings = s.bindings := by
  unfold State.modCore; split <;> rfl
@[simp] theorem State.modCore_replays (s : State) (cl c : Nat) (f : Core → Core) : (s.modCore cl c f).replays = s.replays := by
  unfold State.modCore; split <;> rfl
@[simp] theorem State.modCore_deadLinks (s : State) (cl c : Nat) (f : Core → Core) : (s.modCore cl c f).deadLinks = s.deadLinks := by
  unfold State.modCore; split <;> rfl
@[simp] theorem State.modCore_inLog (s : State) (cl c : Nat) (f : Core → Core) : (s.modCore cl c f).inLog = s.inLog := by
  unfold State.modCore; split <;> rfl
@[simp] theorem State.modCore_lastServed (s : State) (cl c : Nat) (f : Core → Core) : (s.modCore cl c f).lastServed = s.lastServed := by
  unfold State.modCore; split <;> rfl
@[simp] theorem State.modCore_node (s : State) (cl c : Nat) (f : Core → Core) : (s.modCore cl c f).node = s.node := by
  unfold State.modCore; split <;> rfl
@[simp] theorem State.modCore_throt (s : State) (cl c : Nat) (f : Core → Core) : (s.modCore cl c f).throt = s.throt := by
  unfold State.modCore; split <;> rfl
@[simp] theorem State.modCore_powerLimit (s : State) (cl c : Nat) (f : Core → Core) : (s.modCore cl c f).powerLimit = s.powerLimit := by
  unfold State.modCore; split <;> rfl
@[simp] theorem State.modCore_powerStep (s : State) (cl c : Nat) (f : Core → Core) : (s.modCore cl c f).powerStep = s.powerStep := by
  unfold State.modCore; split <;> rfl
@[simp] theorem State.modCore_powered (s : State) (cl c : Nat) (f : Core → Core) : (s.modCore cl c f).powered = s.powered := by
  unfold State.modCore; split <;> rfl
@[simp] theorem State.modCore_bootDone (s : State) (cl c : Nat) (f : Core → Core) : (s.modCore cl c f).bootDone = s.bootDone := by
  unfold State.modCore; split <;> rfl
@[simp] theorem State.modCore_fullService (s : State) (cl c : Nat) (f : Core → Core) : (s.modCore cl c f).fullService = s.fullService := by
  unfold State.modCore; split <;> rfl
@[simp] theorem State.modCore_banks (s : State) (cl c : Nat) (f : Core → Core) : (s.modCore cl c f).banks = s.banks := by
  unfold State.modCore; split <;> rfl
@[simp] theorem State.modCore_bootBank (s : State) (cl c : Nat) (f : Core → Core) : (s.modCore cl c f).bootBank = s.bootBank := by
  unfold State.modCore; split <;> rfl
@[simp] theorem State.modCore_nextBank (s : State) (cl c : Nat) (f : Core → Core) : (s.modCore cl c f).nextBank = s.nextBank := by
  unfold State.modCore; split <;> rfl
@[simp] theorem State.modCore_fuse (s : State) (cl c : Nat) (f : Core → Core) : (s.modCore cl c f).fuse = s.fuse := by
  unfold State.modCore; split <;> rfl
@[simp] theorem State.modCore_attestIx (s : State) (cl c : Nat) (f : Core → Core) : (s.modCore cl c f).attestIx = s.attestIx := by
  unfold State.modCore; split <;> rfl
@[simp] theorem State.modCore_measurements (s : State) (cl c : Nat) (f : Core → Core) : (s.modCore cl c f).measurements = s.measurements := by
  unfold State.modCore; split <;> rfl
@[simp] theorem State.modCore_heldCmds (s : State) (cl c : Nat) (f : Core → Core) : (s.modCore cl c f).heldCmds = s.heldCmds := by
  unfold State.modCore; split <;> rfl
@[simp] theorem State.modCore_reports (s : State) (cl c : Nat) (f : Core → Core) : (s.modCore cl c f).reports = s.reports := by
  unfold State.modCore; split <;> rfl
@[simp] theorem State.modCore_agenda (s : State) (cl c : Nat) (f : Core → Core) : (s.modCore cl c f).agenda = s.agenda := by
  unfold State.modCore; split <;> rfl
@[simp] theorem State.modCore_cur (s : State) (cl c : Nat) (f : Core → Core) : (s.modCore cl c f).cur = s.cur := by
  unfold State.modCore; split <;> rfl
@[simp] theorem State.modCore_freeCtr (s : State) (cl c : Nat) (f : Core → Core) : (s.modCore cl c f).freeCtr = s.freeCtr := by
  unfold State.modCore; split <;> rfl

/-! ### modCC -/

@[simp] theorem State.modCC_mem (s : State) (cl : Nat) (f : List Line → List Line) : (s.modCC cl f).mem = s.mem := by
  unfold State.modCC; split <;> rfl
@[simp] theorem State.modCC_tags (s : State) (cl : Nat) (f : List Line → List Line) : (s.modCC cl f).tags = s.tags := by
  unfold State.modCC; split <;> rfl
@[simp] theorem State.modCC_lcUndef (s : State) (cl : Nat) (f : List Line → List Line) : (s.modCC cl f).lcUndef = s.lcUndef := by
  unfold State.modCC; split <;> rfl
@[simp] theorem State.modCC_poison (s : State) (cl : Nat) (f : List Line → List Line) : (s.modCC cl f).poison = s.poison := by
  unfold State.modCC; split <;> rfl
@[simp] theorem State.modCC_losses (s : State) (cl : Nat) (f : List Line → List Line) : (s.modCC cl f).losses = s.losses := by
  unfold State.modCC; split <;> rfl
@[simp] theorem State.modCC_sound (s : State) (cl : Nat) (f : List Line → List Line) : (s.modCC cl f).sound = s.sound := by
  unfold State.modCC; split <;> rfl
@[simp] theorem State.modCC_pinned (s : State) (cl : Nat) (f : List Line → List Line) : (s.modCC cl f).pinned = s.pinned := by
  unfold State.modCC; split <;> rfl
@[simp] theorem State.modCC_llc (s : State) (cl : Nat) (f : List Line → List Line) : (s.modCC cl f).llc = s.llc := by
  unfold State.modCC; split <;> rfl
@[simp] theorem State.modCC_cores (s : State) (cl : Nat) (f : List Line → List Line) : (s.modCC cl f).cores = s.cores := by
  unfold State.modCC; split <;> rfl
@[simp] theorem State.modCC_ctxs (s : State) (cl : Nat) (f : List Line → List Line) : (s.modCC cl f).ctxs = s.ctxs := by
  unfold State.modCC; split <;> rfl
@[simp] theorem State.modCC_launches (s : State) (cl : Nat) (f : List Line → List Line) : (s.modCC cl f).launches = s.launches := by
  unfold State.modCC; split <;> rfl
@[simp] theorem State.modCC_gangs (s : State) (cl : Nat) (f : List Line → List Line) : (s.modCC cl f).gangs = s.gangs := by
  unfold State.modCC; split <;> rfl
@[simp] theorem State.modCC_blocks (s : State) (cl : Nat) (f : List Line → List Line) : (s.modCC cl f).blocks = s.blocks := by
  unfold State.modCC; split <;> rfl
@[simp] theorem State.modCC_warps (s : State) (cl : Nat) (f : List Line → List Line) : (s.modCC cl f).warps = s.warps := by
  unfold State.modCC; split <;> rfl
@[simp] theorem State.modCC_checkpoints (s : State) (cl : Nat) (f : List Line → List Line) : (s.modCC cl f).checkpoints = s.checkpoints := by
  unfold State.modCC; split <;> rfl
@[simp] theorem State.modCC_accs (s : State) (cl : Nat) (f : List Line → List Line) : (s.modCC cl f).accs = s.accs := by
  unfold State.modCC; split <;> rfl
@[simp] theorem State.modCC_copies (s : State) (cl : Nat) (f : List Line → List Line) : (s.modCC cl f).copies = s.copies := by
  unfold State.modCC; split <;> rfl
@[simp] theorem State.modCC_images (s : State) (cl : Nat) (f : List Line → List Line) : (s.modCC cl f).images = s.images := by
  unfold State.modCC; split <;> rfl
@[simp] theorem State.modCC_tlb (s : State) (cl : Nat) (f : List Line → List Line) : (s.modCC cl f).tlb = s.tlb := by
  unfold State.modCC; split <;> rfl
@[simp] theorem State.modCC_migrations (s : State) (cl : Nat) (f : List Line → List Line) : (s.modCC cl f).migrations = s.migrations := by
  unfold State.modCC; split <;> rfl
@[simp] theorem State.modCC_frames (s : State) (cl : Nat) (f : List Line → List Line) : (s.modCC cl f).frames = s.frames := by
  unfold State.modCC; split <;> rfl
@[simp] theorem State.modCC_recalls (s : State) (cl : Nat) (f : List Line → List Line) : (s.modCC cl f).recalls = s.recalls := by
  unfold State.modCC; split <;> rfl
@[simp] theorem State.modCC_inWatches (s : State) (cl : Nat) (f : List Line → List Line) : (s.modCC cl f).inWatches = s.inWatches := by
  unfold State.modCC; split <;> rfl
@[simp] theorem State.modCC_dueAdds (s : State) (cl : Nat) (f : List Line → List Line) : (s.modCC cl f).dueAdds = s.dueAdds := by
  unfold State.modCC; split <;> rfl
@[simp] theorem State.modCC_slew (s : State) (cl : Nat) (f : List Line → List Line) : (s.modCC cl f).slew = s.slew := by
  unfold State.modCC; split <;> rfl
@[simp] theorem State.modCC_justSet (s : State) (cl : Nat) (f : List Line → List Line) : (s.modCC cl f).justSet = s.justSet := by
  unfold State.modCC; split <;> rfl
@[simp] theorem State.modCC_drainAt (s : State) (cl : Nat) (f : List Line → List Line) : (s.modCC cl f).drainAt = s.drainAt := by
  unfold State.modCC; split <;> rfl
@[simp] theorem State.modCC_routesTo (s : State) (cl : Nat) (f : List Line → List Line) : (s.modCC cl f).routesTo = s.routesTo := by
  unfold State.modCC; split <;> rfl
@[simp] theorem State.modCC_resetAt (s : State) (cl : Nat) (f : List Line → List Line) : (s.modCC cl f).resetAt = s.resetAt := by
  unfold State.modCC; split <;> rfl
@[simp] theorem State.modCC_deadPorts (s : State) (cl : Nat) (f : List Line → List Line) : (s.modCC cl f).deadPorts = s.deadPorts := by
  unfold State.modCC; split <;> rfl
@[simp] theorem State.modCC_bar2 (s : State) (cl : Nat) (f : List Line → List Line) : (s.modCC cl f).bar2 = s.bar2 := by
  unfold State.modCC; split <;> rfl
@[simp] theorem State.modCC_ideKeys (s : State) (cl : Nat) (f : List Line → List Line) : (s.modCC cl f).ideKeys = s.ideKeys := by
  unfold State.modCC; split <;> rfl
@[simp] theorem State.modCC_powerAt (s : State) (cl : Nat) (f : List Line → List Line) : (s.modCC cl f).powerAt = s.powerAt := by
  unfold State.modCC; split <;> rfl
@[simp] theorem State.modCC_flows (s : State) (cl : Nat) (f : List Line → List Line) : (s.modCC cl f).flows = s.flows := by
  unfold State.modCC; split <;> rfl
@[simp] theorem State.modCC_inFlows (s : State) (cl : Nat) (f : List Line → List Line) : (s.modCC cl f).inFlows = s.inFlows := by
  unfold State.modCC; split <;> rfl
@[simp] theorem State.modCC_clk (s : State) (cl : Nat) (f : List Line → List Line) : (s.modCC cl f).clk = s.clk := by
  unfold State.modCC; split <;> rfl
@[simp] theorem State.modCC_time (s : State) (cl : Nat) (f : List Line → List Line) : (s.modCC cl f).time = s.time := by
  unfold State.modCC; split <;> rfl
@[simp] theorem State.modCC_locked (s : State) (cl : Nat) (f : List Line → List Line) : (s.modCC cl f).locked = s.locked := by
  unfold State.modCC; split <;> rfl
@[simp] theorem State.modCC_epoch (s : State) (cl : Nat) (f : List Line → List Line) : (s.modCC cl f).epoch = s.epoch := by
  unfold State.modCC; split <;> rfl
@[simp] theorem State.modCC_liveShelves (s : State) (cl : Nat) (f : List Line → List Line) : (s.modCC cl f).liveShelves = s.liveShelves := by
  unfold State.modCC; split <;> rfl
@[simp] theorem State.modCC_drainShelf (s : State) (cl : Nat) (f : List Line → List Line) : (s.modCC cl f).drainShelf = s.drainShelf := by
  unfold State.modCC; split <;> rfl
@[simp] theorem State.modCC_restackTo (s : State) (cl : Nat) (f : List Line → List Line) : (s.modCC cl f).restackTo = s.restackTo := by
  unfold State.modCC; split <;> rfl
@[simp] theorem State.modCC_restackAt (s : State) (cl : Nat) (f : List Line → List Line) : (s.modCC cl f).restackAt = s.restackAt := by
  unfold State.modCC; split <;> rfl
@[simp] theorem State.modCC_partition (s : State) (cl : Nat) (f : List Line → List Line) : (s.modCC cl f).partition = s.partition := by
  unfold State.modCC; split <;> rfl
@[simp] theorem State.modCC_routes (s : State) (cl : Nat) (f : List Line → List Line) : (s.modCC cl f).routes = s.routes := by
  unfold State.modCC; split <;> rfl
@[simp] theorem State.modCC_inWindows (s : State) (cl : Nat) (f : List Line → List Line) : (s.modCC cl f).inWindows = s.inWindows := by
  unfold State.modCC; split <;> rfl
@[simp] theorem State.modCC_bindings (s : State) (cl : Nat) (f : List Line → List Line) : (s.modCC cl f).bindings = s.bindings := by
  unfold State.modCC; split <;> rfl
@[simp] theorem State.modCC_replays (s : State) (cl : Nat) (f : List Line → List Line) : (s.modCC cl f).replays = s.replays := by
  unfold State.modCC; split <;> rfl
@[simp] theorem State.modCC_deadLinks (s : State) (cl : Nat) (f : List Line → List Line) : (s.modCC cl f).deadLinks = s.deadLinks := by
  unfold State.modCC; split <;> rfl
@[simp] theorem State.modCC_inLog (s : State) (cl : Nat) (f : List Line → List Line) : (s.modCC cl f).inLog = s.inLog := by
  unfold State.modCC; split <;> rfl
@[simp] theorem State.modCC_lastServed (s : State) (cl : Nat) (f : List Line → List Line) : (s.modCC cl f).lastServed = s.lastServed := by
  unfold State.modCC; split <;> rfl
@[simp] theorem State.modCC_node (s : State) (cl : Nat) (f : List Line → List Line) : (s.modCC cl f).node = s.node := by
  unfold State.modCC; split <;> rfl
@[simp] theorem State.modCC_throt (s : State) (cl : Nat) (f : List Line → List Line) : (s.modCC cl f).throt = s.throt := by
  unfold State.modCC; split <;> rfl
@[simp] theorem State.modCC_powerLimit (s : State) (cl : Nat) (f : List Line → List Line) : (s.modCC cl f).powerLimit = s.powerLimit := by
  unfold State.modCC; split <;> rfl
@[simp] theorem State.modCC_powerStep (s : State) (cl : Nat) (f : List Line → List Line) : (s.modCC cl f).powerStep = s.powerStep := by
  unfold State.modCC; split <;> rfl
@[simp] theorem State.modCC_powered (s : State) (cl : Nat) (f : List Line → List Line) : (s.modCC cl f).powered = s.powered := by
  unfold State.modCC; split <;> rfl
@[simp] theorem State.modCC_bootDone (s : State) (cl : Nat) (f : List Line → List Line) : (s.modCC cl f).bootDone = s.bootDone := by
  unfold State.modCC; split <;> rfl
@[simp] theorem State.modCC_fullService (s : State) (cl : Nat) (f : List Line → List Line) : (s.modCC cl f).fullService = s.fullService := by
  unfold State.modCC; split <;> rfl
@[simp] theorem State.modCC_banks (s : State) (cl : Nat) (f : List Line → List Line) : (s.modCC cl f).banks = s.banks := by
  unfold State.modCC; split <;> rfl
@[simp] theorem State.modCC_bootBank (s : State) (cl : Nat) (f : List Line → List Line) : (s.modCC cl f).bootBank = s.bootBank := by
  unfold State.modCC; split <;> rfl
@[simp] theorem State.modCC_nextBank (s : State) (cl : Nat) (f : List Line → List Line) : (s.modCC cl f).nextBank = s.nextBank := by
  unfold State.modCC; split <;> rfl
@[simp] theorem State.modCC_fuse (s : State) (cl : Nat) (f : List Line → List Line) : (s.modCC cl f).fuse = s.fuse := by
  unfold State.modCC; split <;> rfl
@[simp] theorem State.modCC_attestIx (s : State) (cl : Nat) (f : List Line → List Line) : (s.modCC cl f).attestIx = s.attestIx := by
  unfold State.modCC; split <;> rfl
@[simp] theorem State.modCC_measurements (s : State) (cl : Nat) (f : List Line → List Line) : (s.modCC cl f).measurements = s.measurements := by
  unfold State.modCC; split <;> rfl
@[simp] theorem State.modCC_heldCmds (s : State) (cl : Nat) (f : List Line → List Line) : (s.modCC cl f).heldCmds = s.heldCmds := by
  unfold State.modCC; split <;> rfl
@[simp] theorem State.modCC_reports (s : State) (cl : Nat) (f : List Line → List Line) : (s.modCC cl f).reports = s.reports := by
  unfold State.modCC; split <;> rfl
@[simp] theorem State.modCC_agenda (s : State) (cl : Nat) (f : List Line → List Line) : (s.modCC cl f).agenda = s.agenda := by
  unfold State.modCC; split <;> rfl
@[simp] theorem State.modCC_cur (s : State) (cl : Nat) (f : List Line → List Line) : (s.modCC cl f).cur = s.cur := by
  unfold State.modCC; split <;> rfl
@[simp] theorem State.modCC_freeCtr (s : State) (cl : Nat) (f : List Line → List Line) : (s.modCC cl f).freeCtr = s.freeCtr := by
  unfold State.modCC; split <;> rfl

/-! ### bump -/

@[simp] theorem State.bump_mem (s : State) (c e n : Nat) (b : Option Nat) : (s.bump c e n b).mem = s.mem := by
  unfold State.bump; split <;> rfl
@[simp] theorem State.bump_tags (s : State) (c e n : Nat) (b : Option Nat) : (s.bump c e n b).tags = s.tags := by
  unfold State.bump; split <;> rfl
@[simp] theorem State.bump_lcUndef (s : State) (c e n : Nat) (b : Option Nat) : (s.bump c e n b).lcUndef = s.lcUndef := by
  unfold State.bump; split <;> rfl
@[simp] theorem State.bump_poison (s : State) (c e n : Nat) (b : Option Nat) : (s.bump c e n b).poison = s.poison := by
  unfold State.bump; split <;> rfl
@[simp] theorem State.bump_losses (s : State) (c e n : Nat) (b : Option Nat) : (s.bump c e n b).losses = s.losses := by
  unfold State.bump; split <;> rfl
@[simp] theorem State.bump_sound (s : State) (c e n : Nat) (b : Option Nat) : (s.bump c e n b).sound = s.sound := by
  unfold State.bump; split <;> rfl
@[simp] theorem State.bump_pinned (s : State) (c e n : Nat) (b : Option Nat) : (s.bump c e n b).pinned = s.pinned := by
  unfold State.bump; split <;> rfl
@[simp] theorem State.bump_llc (s : State) (c e n : Nat) (b : Option Nat) : (s.bump c e n b).llc = s.llc := by
  unfold State.bump; split <;> rfl
@[simp] theorem State.bump_clusters (s : State) (c e n : Nat) (b : Option Nat) : (s.bump c e n b).clusters = s.clusters := by
  unfold State.bump; split <;> rfl
@[simp] theorem State.bump_cores (s : State) (c e n : Nat) (b : Option Nat) : (s.bump c e n b).cores = s.cores := by
  unfold State.bump; split <;> rfl
@[simp] theorem State.bump_launches (s : State) (c e n : Nat) (b : Option Nat) : (s.bump c e n b).launches = s.launches := by
  unfold State.bump; split <;> rfl
@[simp] theorem State.bump_gangs (s : State) (c e n : Nat) (b : Option Nat) : (s.bump c e n b).gangs = s.gangs := by
  unfold State.bump; split <;> rfl
@[simp] theorem State.bump_blocks (s : State) (c e n : Nat) (b : Option Nat) : (s.bump c e n b).blocks = s.blocks := by
  unfold State.bump; split <;> rfl
@[simp] theorem State.bump_warps (s : State) (c e n : Nat) (b : Option Nat) : (s.bump c e n b).warps = s.warps := by
  unfold State.bump; split <;> rfl
@[simp] theorem State.bump_checkpoints (s : State) (c e n : Nat) (b : Option Nat) : (s.bump c e n b).checkpoints = s.checkpoints := by
  unfold State.bump; split <;> rfl
@[simp] theorem State.bump_accs (s : State) (c e n : Nat) (b : Option Nat) : (s.bump c e n b).accs = s.accs := by
  unfold State.bump; split <;> rfl
@[simp] theorem State.bump_copies (s : State) (c e n : Nat) (b : Option Nat) : (s.bump c e n b).copies = s.copies := by
  unfold State.bump; split <;> rfl
@[simp] theorem State.bump_images (s : State) (c e n : Nat) (b : Option Nat) : (s.bump c e n b).images = s.images := by
  unfold State.bump; split <;> rfl
@[simp] theorem State.bump_tlb (s : State) (c e n : Nat) (b : Option Nat) : (s.bump c e n b).tlb = s.tlb := by
  unfold State.bump; split <;> rfl
@[simp] theorem State.bump_migrations (s : State) (c e n : Nat) (b : Option Nat) : (s.bump c e n b).migrations = s.migrations := by
  unfold State.bump; split <;> rfl
@[simp] theorem State.bump_frames (s : State) (c e n : Nat) (b : Option Nat) : (s.bump c e n b).frames = s.frames := by
  unfold State.bump; split <;> rfl
@[simp] theorem State.bump_recalls (s : State) (c e n : Nat) (b : Option Nat) : (s.bump c e n b).recalls = s.recalls := by
  unfold State.bump; split <;> rfl
@[simp] theorem State.bump_inWatches (s : State) (c e n : Nat) (b : Option Nat) : (s.bump c e n b).inWatches = s.inWatches := by
  unfold State.bump; split <;> rfl
@[simp] theorem State.bump_dueAdds (s : State) (c e n : Nat) (b : Option Nat) : (s.bump c e n b).dueAdds = s.dueAdds := by
  unfold State.bump; split <;> rfl
@[simp] theorem State.bump_slew (s : State) (c e n : Nat) (b : Option Nat) : (s.bump c e n b).slew = s.slew := by
  unfold State.bump; split <;> rfl
@[simp] theorem State.bump_justSet (s : State) (c e n : Nat) (b : Option Nat) : (s.bump c e n b).justSet = s.justSet := by
  unfold State.bump; split <;> rfl
@[simp] theorem State.bump_drainAt (s : State) (c e n : Nat) (b : Option Nat) : (s.bump c e n b).drainAt = s.drainAt := by
  unfold State.bump; split <;> rfl
@[simp] theorem State.bump_routesTo (s : State) (c e n : Nat) (b : Option Nat) : (s.bump c e n b).routesTo = s.routesTo := by
  unfold State.bump; split <;> rfl
@[simp] theorem State.bump_resetAt (s : State) (c e n : Nat) (b : Option Nat) : (s.bump c e n b).resetAt = s.resetAt := by
  unfold State.bump; split <;> rfl
@[simp] theorem State.bump_deadPorts (s : State) (c e n : Nat) (b : Option Nat) : (s.bump c e n b).deadPorts = s.deadPorts := by
  unfold State.bump; split <;> rfl
@[simp] theorem State.bump_bar2 (s : State) (c e n : Nat) (b : Option Nat) : (s.bump c e n b).bar2 = s.bar2 := by
  unfold State.bump; split <;> rfl
@[simp] theorem State.bump_ideKeys (s : State) (c e n : Nat) (b : Option Nat) : (s.bump c e n b).ideKeys = s.ideKeys := by
  unfold State.bump; split <;> rfl
@[simp] theorem State.bump_powerAt (s : State) (c e n : Nat) (b : Option Nat) : (s.bump c e n b).powerAt = s.powerAt := by
  unfold State.bump; split <;> rfl
@[simp] theorem State.bump_flows (s : State) (c e n : Nat) (b : Option Nat) : (s.bump c e n b).flows = s.flows := by
  unfold State.bump; split <;> rfl
@[simp] theorem State.bump_inFlows (s : State) (c e n : Nat) (b : Option Nat) : (s.bump c e n b).inFlows = s.inFlows := by
  unfold State.bump; split <;> rfl
@[simp] theorem State.bump_clk (s : State) (c e n : Nat) (b : Option Nat) : (s.bump c e n b).clk = s.clk := by
  unfold State.bump; split <;> rfl
@[simp] theorem State.bump_time (s : State) (c e n : Nat) (b : Option Nat) : (s.bump c e n b).time = s.time := by
  unfold State.bump; split <;> rfl
@[simp] theorem State.bump_locked (s : State) (c e n : Nat) (b : Option Nat) : (s.bump c e n b).locked = s.locked := by
  unfold State.bump; split <;> rfl
@[simp] theorem State.bump_epoch (s : State) (c e n : Nat) (b : Option Nat) : (s.bump c e n b).epoch = s.epoch := by
  unfold State.bump; split <;> rfl
@[simp] theorem State.bump_liveShelves (s : State) (c e n : Nat) (b : Option Nat) : (s.bump c e n b).liveShelves = s.liveShelves := by
  unfold State.bump; split <;> rfl
@[simp] theorem State.bump_drainShelf (s : State) (c e n : Nat) (b : Option Nat) : (s.bump c e n b).drainShelf = s.drainShelf := by
  unfold State.bump; split <;> rfl
@[simp] theorem State.bump_restackTo (s : State) (c e n : Nat) (b : Option Nat) : (s.bump c e n b).restackTo = s.restackTo := by
  unfold State.bump; split <;> rfl
@[simp] theorem State.bump_restackAt (s : State) (c e n : Nat) (b : Option Nat) : (s.bump c e n b).restackAt = s.restackAt := by
  unfold State.bump; split <;> rfl
@[simp] theorem State.bump_partition (s : State) (c e n : Nat) (b : Option Nat) : (s.bump c e n b).partition = s.partition := by
  unfold State.bump; split <;> rfl
@[simp] theorem State.bump_routes (s : State) (c e n : Nat) (b : Option Nat) : (s.bump c e n b).routes = s.routes := by
  unfold State.bump; split <;> rfl
@[simp] theorem State.bump_inWindows (s : State) (c e n : Nat) (b : Option Nat) : (s.bump c e n b).inWindows = s.inWindows := by
  unfold State.bump; split <;> rfl
@[simp] theorem State.bump_bindings (s : State) (c e n : Nat) (b : Option Nat) : (s.bump c e n b).bindings = s.bindings := by
  unfold State.bump; split <;> rfl
@[simp] theorem State.bump_replays (s : State) (c e n : Nat) (b : Option Nat) : (s.bump c e n b).replays = s.replays := by
  unfold State.bump; split <;> rfl
@[simp] theorem State.bump_deadLinks (s : State) (c e n : Nat) (b : Option Nat) : (s.bump c e n b).deadLinks = s.deadLinks := by
  unfold State.bump; split <;> rfl
@[simp] theorem State.bump_inLog (s : State) (c e n : Nat) (b : Option Nat) : (s.bump c e n b).inLog = s.inLog := by
  unfold State.bump; split <;> rfl
@[simp] theorem State.bump_lastServed (s : State) (c e n : Nat) (b : Option Nat) : (s.bump c e n b).lastServed = s.lastServed := by
  unfold State.bump; split <;> rfl
@[simp] theorem State.bump_node (s : State) (c e n : Nat) (b : Option Nat) : (s.bump c e n b).node = s.node := by
  unfold State.bump; split <;> rfl
@[simp] theorem State.bump_throt (s : State) (c e n : Nat) (b : Option Nat) : (s.bump c e n b).throt = s.throt := by
  unfold State.bump; split <;> rfl
@[simp] theorem State.bump_powerLimit (s : State) (c e n : Nat) (b : Option Nat) : (s.bump c e n b).powerLimit = s.powerLimit := by
  unfold State.bump; split <;> rfl
@[simp] theorem State.bump_powerStep (s : State) (c e n : Nat) (b : Option Nat) : (s.bump c e n b).powerStep = s.powerStep := by
  unfold State.bump; split <;> rfl
@[simp] theorem State.bump_powered (s : State) (c e n : Nat) (b : Option Nat) : (s.bump c e n b).powered = s.powered := by
  unfold State.bump; split <;> rfl
@[simp] theorem State.bump_bootDone (s : State) (c e n : Nat) (b : Option Nat) : (s.bump c e n b).bootDone = s.bootDone := by
  unfold State.bump; split <;> rfl
@[simp] theorem State.bump_fullService (s : State) (c e n : Nat) (b : Option Nat) : (s.bump c e n b).fullService = s.fullService := by
  unfold State.bump; split <;> rfl
@[simp] theorem State.bump_banks (s : State) (c e n : Nat) (b : Option Nat) : (s.bump c e n b).banks = s.banks := by
  unfold State.bump; split <;> rfl
@[simp] theorem State.bump_bootBank (s : State) (c e n : Nat) (b : Option Nat) : (s.bump c e n b).bootBank = s.bootBank := by
  unfold State.bump; split <;> rfl
@[simp] theorem State.bump_nextBank (s : State) (c e n : Nat) (b : Option Nat) : (s.bump c e n b).nextBank = s.nextBank := by
  unfold State.bump; split <;> rfl
@[simp] theorem State.bump_fuse (s : State) (c e n : Nat) (b : Option Nat) : (s.bump c e n b).fuse = s.fuse := by
  unfold State.bump; split <;> rfl
@[simp] theorem State.bump_attestIx (s : State) (c e n : Nat) (b : Option Nat) : (s.bump c e n b).attestIx = s.attestIx := by
  unfold State.bump; split <;> rfl
@[simp] theorem State.bump_measurements (s : State) (c e n : Nat) (b : Option Nat) : (s.bump c e n b).measurements = s.measurements := by
  unfold State.bump; split <;> rfl
@[simp] theorem State.bump_heldCmds (s : State) (c e n : Nat) (b : Option Nat) : (s.bump c e n b).heldCmds = s.heldCmds := by
  unfold State.bump; split <;> rfl
@[simp] theorem State.bump_reports (s : State) (c e n : Nat) (b : Option Nat) : (s.bump c e n b).reports = s.reports := by
  unfold State.bump; split <;> rfl
@[simp] theorem State.bump_agenda (s : State) (c e n : Nat) (b : Option Nat) : (s.bump c e n b).agenda = s.agenda := by
  unfold State.bump; split <;> rfl
@[simp] theorem State.bump_cur (s : State) (c e n : Nat) (b : Option Nat) : (s.bump c e n b).cur = s.cur := by
  unfold State.bump; split <;> rfl
@[simp] theorem State.bump_freeCtr (s : State) (c e n : Nat) (b : Option Nat) : (s.bump c e n b).freeCtr = s.freeCtr := by
  unfold State.bump; split <;> rfl

/-! ### Warps -/

/-- A warp after a change of a warp. -/
theorem State.warp?_modWarp (s : State) (w v : Nat) (f : Warp → Warp) :
    (s.modWarp w f).warp? v = if w = v then (s.warp? v).map f else s.warp? v := upd_get s.warps w v f

@[simp] theorem State.modWarp_self (s : State) (w : Nat) : s.modWarp w (fun x => x) = s := by
  unfold State.modWarp; rw [upd_id]

theorem State.modWarp_modWarp (s : State) (w : Nat) (f g : Warp → Warp) :
    (s.modWarp w f).modWarp w g = s.modWarp w (fun x => g (f x)) := by
  unfold State.modWarp; rw [upd_upd]

@[simp] theorem State.warp?_bump (s : State) (c e n : Nat) (b : Option Nat) (w : Nat) : (s.bump c e n b).warp? w = s.warp? w := by
  unfold State.warp?; rw [State.bump_warps]

end Sys2Proof.Machine
end

