-- ==== Sys2Proof/Laws/MemSys.lean ====
section
/-! SUPPORT. Laws of the memory system and the logs: what they change is memory, caches, poison, migrations, translation caches, contexts, the inbound log,
reports and the count of free values, and nothing else of the module. -/
namespace Sys2Proof.Machine

/-- A state with all that the memory system and the logs act on taken away. -/
def State.quiet (s : State) : State :=
  { s with
    mem := [], llc := [], clusters := [], cores := [], poison := [], sound := [], migrations := [], tlb := [], ctxs := [], inLog := .zero
    reports := [], freeCtr := 0 }

theorem foldl_quiet {α : Type} (f : State → α → State) (h : ∀ s a, (f s a).quiet = s.quiet) (l : List α) (s : State) :
    (l.foldl f s).quiet = s.quiet := by
  induction l generalizing s with
  | nil => rfl
  | cons a l ih => rw [List.foldl_cons, ih, h]

@[simp] theorem State.quiet_modCtx (s : State) (c : Nat) (f : Ctx → Ctx) : (s.modCtx c f).quiet = s.quiet := rfl

@[simp] theorem State.quiet_modCore (s : State) (cl c : Nat) (f : Core → Core) : (s.modCore cl c f).quiet = s.quiet := by
  unfold State.modCore; split <;> rfl

@[simp] theorem State.quiet_modCC (s : State) (cl : Nat) (f : List Line → List Line) : (s.modCC cl f).quiet = s.quiet := by
  unfold State.modCC; split <;> rfl

@[simp] theorem State.quiet_bump (s : State) (c e n : Nat) (b : Option Nat) : (s.bump c e n b).quiet = s.quiet := by
  unfold State.bump; split <;> rfl

@[simp] theorem State.quiet_setPoison (s : State) (k : Nat) (b : Bool) : (s.setPoison k b).quiet = s.quiet := rfl

@[simp] theorem State.quiet_dropTlb (s : State) (a v n : Nat) : (s.dropTlb a v n).quiet = s.quiet := rfl

@[simp] theorem State.quiet_endMigration (s : State) (a v : Nat) : (s.endMigration a v).quiet = s.quiet := by
  unfold State.endMigration
  split
  · rfl
  · split
    · rfl
    · simp only
      split <;> rfl

@[simp] theorem State.quiet_pull (s : State) (p : Nat) : (s.pull p).quiet = s.quiet := by
  unfold State.pull
  split
  · rfl
  · simp only
    split
    · rfl
    · rw [State.quiet_endMigration]
      simp only [State.quiet, State.setPoison]

@[simp] theorem State.quiet_pullAt (s : State) (l : Loc) : (s.pullAt l).quiet = s.quiet := by
  unfold State.pullAt
  split
  · exact State.quiet_pull ..
  · split
    · exact State.quiet_pull ..
    · rfl
  all_goals rfl

@[simp] theorem State.quiet_stackTake (s : State) (l : Line) (p : Nat) : (s.stackTake l p).quiet = s.quiet := State.quiet_pull s p

theorem State.quiet_withLlc (s : State) (x : List Line) : State.quiet { s with llc := x } = s.quiet := rfl

@[simp] theorem State.quiet_llcClean (s : State) (a v : Nat) : (s.llcClean a v).1.quiet = s.quiet := by
  unfold State.llcClean
  split
  · rfl
  · split
    · rfl
    · split
      · rfl
      · exact (State.quiet_withLlc _ _).trans (State.quiet_stackTake s _ _)

/-- Making room leaves what each eviction leaves. -/
theorem makeRoom_quiet (set : State → List Line) (ways : Nat) (evict : Line → State → State) (h : ∀ v s, (evict v s).quiet = s.quiet)
    (n : Nat) (s : State) : (makeRoom set ways evict n s).quiet = s.quiet := by
  induction n generalizing s with
  | zero => rfl
  | succ n ih =>
    unfold makeRoom
    split
    · rfl
    · split
      · rfl
      · rw [ih, h]

@[simp] theorem State.quiet_llcEvict (v : Line) (s : State) : (s.llcEvict v).quiet = s.quiet := State.quiet_llcClean ..

@[simp] theorem State.quiet_llcRoom (s : State) (a v : Nat) : (s.llcRoom a v).quiet = s.quiet :=
  makeRoom_quiet _ _ _ State.quiet_llcEvict _ _

@[simp] theorem State.quiet_llcFill (s : State) (a v : Nat) (h : Hint) : (s.llcFill a v h).quiet = s.quiet := by
  unfold State.llcFill
  split
  · rfl
  · split
    · rfl
    · simp only
      split
      · exact (State.quiet_pull _ _).trans (State.quiet_llcRoom s a v)
      · exact State.quiet_llcRoom ..

@[simp] theorem State.quiet_homeWrite (s : State) (a va : Nat) (v : Byte) : (s.homeWrite a va v).quiet = s.quiet := by
  unfold State.homeWrite
  simp only
  split
  · exact (State.quiet_pull _ _).trans (State.quiet_llcFill ..)
  · exact State.quiet_llcFill s a (va / 128) .normal

@[simp] theorem State.quiet_homeTake (s : State) (l : Line) : (s.homeTake l).1.quiet = s.quiet := by
  unfold State.homeTake
  split
  · rfl
  · simp only
    split
    · split
      · exact State.quiet_llcFill s l.asid l.vline .normal
      · exact State.quiet_llcFill ..
    · split
      · exact (State.quiet_stackTake ..).trans (State.quiet_llcFill ..)
      · exact State.quiet_llcFill ..
    · exact State.quiet_llcFill ..

@[simp] theorem State.quiet_l1ToCC (s : State) (cl c a v : Nat) : (s.l1ToCC cl c a v).1.quiet = s.quiet := by
  unfold State.l1ToCC
  split
  · rfl
  · split
    · rfl
    · simp only
      split
      · split <;> simp
      · split <;> simp

@[simp] theorem State.quiet_takeL1s (cl a v : Nat) (l : List Nat) (s : State) : (takeL1s cl a v l s).1.quiet = s.quiet := by
  induction l generalizing s with
  | nil => rfl
  | cons c l ih => exact (ih _).trans (State.quiet_l1ToCC ..)

@[simp] theorem State.quiet_flushLine (s : State) (cl a v : Nat) : (s.flushLine cl a v).1.quiet = s.quiet := by
  unfold State.flushLine
  simp only
  split
  · simp
  · split <;> simp

@[simp] theorem State.quiet_refreshCC (s : State) (cl a v : Nat) : (s.refreshCC cl a v).quiet = s.quiet := State.quiet_modCC ..

@[simp] theorem State.quiet_invalLine (s : State) (cl a v : Nat) : (s.invalLine cl a v).quiet = s.quiet := by
  unfold State.invalLine
  simp only
  split
  · exact State.quiet_modCC ..
  · exact State.quiet_refreshCC ..

@[simp] theorem State.quiet_ccEvict (cl : Nat) (v : Line) (s : State) : (State.ccEvict cl v s).quiet = s.quiet := by
  unfold State.ccEvict
  simp only
  split <;> simp

@[simp] theorem State.quiet_ccFill (s : State) (cl a v : Nat) (h : Hint) : (s.ccFill cl a v h).quiet = s.quiet := by
  have room : (s.ccRoom cl v).quiet = s.quiet := makeRoom_quiet _ _ _ (State.quiet_ccEvict cl) _ _
  unfold State.ccFill
  split
  · exact State.quiet_modCC ..
  · simp only
    split
    · exact (State.quiet_llcFill ..).trans room
    · split
      · exact ((State.quiet_modCC ..).trans (State.quiet_llcFill ..)).trans room
      · exact (State.quiet_llcFill ..).trans room

@[simp] theorem State.quiet_recallOwners (s : State) (a v : Nat) : (s.recallOwners a v).quiet = s.quiet :=
  foldl_quiet _ (fun _ _ => by simp) _ _

@[simp] theorem State.quiet_homeReady (s : State) (cl : Option Nat) (l : Loc) : (s.homeReady cl l).quiet = s.quiet := by
  unfold State.homeReady
  split
  · simp only
    split <;> simp
  all_goals simp

@[simp] theorem State.quiet_placeWrite (s : State) (l : Loc) (i : Nat) (v : Byte) : (s.placeWrite l i v).quiet = s.quiet := by
  unfold State.placeWrite
  split
  · simp
  · exact State.quiet_pull s _
  all_goals rfl

@[simp] theorem State.quiet_placePut (s : State) (l : Loc) (n : Nat) (v : DWord) : (s.placePut l n v).quiet = s.quiet :=
  foldl_quiet _ (fun _ _ => by simp) _ _

@[simp] theorem State.quiet_fresh (s : State) (n : Nat) : (s.fresh n).2.quiet = s.quiet := rfl

@[simp] theorem State.quiet_ctrUpdate (s : State) (l : Loc) (inc : DWord) : (s.ctrUpdate l inc).1.quiet = s.quiet := by
  unfold State.ctrUpdate
  split
  · split
    · rfl
    · split <;> rfl
  all_goals
    split
    · rfl
    · simp only
      split <;> simp

@[simp] theorem State.quiet_modLog (s : State) (c : Nat) (k : LogKind) (f : Log → Log) : (s.modLog c k f).quiet = s.quiet := by
  unfold State.modLog; split <;> rfl

@[simp] theorem State.quiet_ccWrite (s : State) (c : Nat) (va : DWord) (bs : List Byte) : (s.ccWrite c va bs).quiet = s.quiet := by
  induction bs generalizing s va with
  | nil => rfl
  | cons b r ih =>
    unfold State.ccWrite
    simp only
    rw [ih]
    split <;> simp

@[simp] theorem State.quiet_logWrite (s : State) (c : Nat) (k : LogKind) (va : DWord) (bs : List Byte) :
    (s.logWrite c k va bs).quiet = s.quiet := by
  unfold State.logWrite
  split
  · exact foldl_quiet _ (fun _ _ => by simp) _ _
  all_goals simp

@[simp] theorem State.quiet_putEntry (s : State) (c : Nat) (k : LogKind) (w : Nat) (r : List DWord) :
    (s.putEntry c k w r).1.quiet = s.quiet := by
  unfold State.putEntry
  simp only
  split
  · rfl
  · split
    · simp
    · rw [State.quiet_modLog]
      split <;> simp

@[simp] theorem State.quiet_lostAdd (s : State) (c l : Nat) (va : DWord) (r n : Nat) : (s.lostAdd c l va r n).quiet = s.quiet :=
  State.quiet_putEntry ..

@[simp] theorem State.quiet_logEntry (s : State) (c : Nat) (k : LogKind) (w : Nat) (r : List DWord) : (s.logEntry c k w r).quiet = s.quiet := by
  unfold State.logEntry
  simp only
  split <;> simp

@[simp] theorem State.quiet_freeHeld (s : State) (a v : Nat) : (s.freeHeld a v).quiet = s.quiet := rfl

@[simp] theorem State.quiet_trapEntry (s : State) (c src : Nat) (code : BitVec 8) (b l k : Nat) (d : List DWord) :
    (s.trapEntry c src code b l k d).quiet = s.quiet := State.quiet_logEntry ..

@[simp] theorem State.quiet_copyEntry (s : State) (w op r t n : Nat) (i : DWord) (d : List DWord) :
    (s.copyEntry w op r t n i d).quiet = s.quiet := State.quiet_logEntry ..

@[simp] theorem State.quiet_engineAdd (s : State) (w op : Nat) (c i : DWord) (d : List DWord) (t : Nat) :
    (s.engineAdd w op c i d t).quiet = s.quiet := by
  unfold State.engineAdd
  split
  · simp
  · simp only
    split <;> simp
  · simp

/-- What a change of the memory system or of a log leaves of the warps. -/
theorem State.warps_of_quiet {s t : State} (h : t.quiet = s.quiet) : t.warps = s.warps :=
  (congrArg State.warps h : t.quiet.warps = s.quiet.warps)

end Sys2Proof.Machine
end

