-- ==== Sys2Proof/Laws/Issue.lean ====
section
/-! SUPPORT. Laws of issue: a ready instruction runs its body on what it sees; what completing, trapping and the ends of clauses leave of
registers. -/
namespace Sys2Proof.Machine

/-! ### Registers through changes of warps -/

/-- Every warp holds the registers it held. -/
structure SameRegs (s t : State) : Prop where
  same : ∀ w, (t.warp? w).map Warp.regs = (s.warp? w).map Warp.regs

theorem SameRegs.refl (s : State) : SameRegs s s := ⟨fun _ => rfl⟩

theorem SameRegs.trans {s t u : State} (h : SameRegs s t) (k : SameRegs t u) : SameRegs s u := ⟨fun w => (k.same w).trans (h.same w)⟩

theorem SameRegs.of_warps {s t : State} (h : t.warps = s.warps) : SameRegs s t := ⟨fun w => by
  show (t.warps[w]?).map _ = (s.warps[w]?).map _
  rw [h]⟩

theorem SameRegs.of_quiet {s t : State} (h : t.quiet = s.quiet) : SameRegs s t := .of_warps (State.warps_of_quiet h)

theorem SameRegs.modWarp (s : State) (w : Nat) (f : Warp → Warp) (h : ∀ x, (f x).regs = x.regs) : SameRegs s (s.modWarp w f) := ⟨fun v => by
  rw [State.warp?_modWarp]
  split
  · cases s.warp? v <;> simp [h]
  · rfl⟩

/-- The same where the change rests on the warp as it stands. -/
theorem SameRegs.modWarp_at {s : State} {w : Nat} {x y : Warp} (hx : s.warp? w = some x) (h : y.regs = x.regs) :
    SameRegs s (s.modWarp w (fun _ => y)) := ⟨fun v => by
  rw [State.warp?_modWarp]
  split
  · subst_vars; simp [hx, h]
  · rfl⟩

theorem SameRegs.foldl {α : Type} (f : State → α → State) (h : ∀ s a, SameRegs s (f s a)) (l : List α) (s : State) : SameRegs s (l.foldl f s) := by
  induction l generalizing s with
  | nil => exact .refl s
  | cons a l ih => exact (h s a).trans (ih _)

theorem SameRegs.ite {s a b : State} {p : Prop} [Decidable p] (h : SameRegs s a) (k : SameRegs s b) : SameRegs s (if p then a else b) := by
  split
  · exact h
  · exact k

theorem SameRegs.regs {s t : State} (h : SameRegs s t) (w : Nat) : t.regs w = s.regs w := by
  unfold State.regs; rw [h.same w]

theorem SameRegs.fillLoad (s : State) (cl c : Nat) : SameRegs s (s.fillLoad cl c) := by
  unfold State.fillLoad
  refine SameRegs.foldl _ ?_ _ s
  intro s p
  exact SameRegs.modWarp s p.1 _ (by intro x; split <;> rfl)

theorem SameRegs.fillLoadAt (s : State) (w : Nat) : SameRegs s (s.fillLoadAt w) := by
  unfold State.fillLoadAt
  split
  · exact .refl s
  · exact .fillLoad ..

theorem SameRegs.ready (s : State) (w : Nat) : SameRegs s (s.ready w) :=
  (SameRegs.modWarp s w _ (by intro x; rfl)).trans (.fillLoadAt _ w)

theorem SameRegs.releaseCharge (s : State) (w o : Nat) : SameRegs s (s.releaseCharge w o) := by
  unfold State.releaseCharge
  split
  · exact .refl s
  · simp only
    split
    · exact .ready s w
    · split
      · exact .fillLoadAt s w
      · exact .refl s

theorem SameRegs.settleHold (s : State) (w : Nat) : SameRegs s (s.settleHold w) := by
  unfold State.settleHold
  split
  · exact .refl s
  · split
    · exact (SameRegs.modWarp s w _ (by intro x; rfl)).trans (.fillLoadAt _ w)
    · split
      · exact (SameRegs.modWarp s w _ (by intro x; rfl)).trans (.fillLoadAt _ w)
      · split
        · exact (SameRegs.modWarp s w _ (by intro x; rfl)).trans (.fillLoadAt _ w)
        · split
          · exact .modWarp s w _ (by intro x; rfl)
          · exact .modWarp s w _ (by intro x; rfl)

theorem SameRegs.meetLoad (s : State) (w : Nat) : SameRegs s (s.meetLoad w) := by
  unfold State.meetLoad
  split
  · exact .refl s
  · exact .modWarp s w _ (by intro x; rfl)

theorem SameRegs.clobber (s : State) (w : Nat) (gs : List Reg) (m : Mask) (n : Nat) : SameRegs s (s.clobber w gs m n) := by
  unfold State.clobber
  split
  · exact .refl s
  · exact .of_warps rfl

theorem SameRegs.reread (s : State) (w : Nat) (gs : List Reg) (n : Nat) : SameRegs s (s.reread w gs n) := by
  unfold State.reread
  split
  · exact .refl s
  · simp only
    split
    · exact .refl s
    · exact .of_warps rfl

theorem SameRegs.boundary (s : State) (w : Nat) : SameRegs s (s.boundary w) := by
  unfold State.boundary
  split
  · exact .refl s
  · exact .ite (.modWarp s w _ (by intro x; rfl)) (.ite ((SameRegs.modWarp s w _ (by intro x; rfl)).trans (.fillLoadAt _ w))
      ((((SameRegs.meetLoad s w).trans (.modWarp _ w _ (by intro x; rfl))).trans (.releaseCharge _ w _)).trans (.settleHold _ w)))

/-- Taking a trap leaves every warp's registers (R85, R395). -/
theorem SameRegs.takeTrap (s : State) (w : Nat) (t : TrapInfo) (iset : Mask) (caddr : DWord) (index : Nat) (done head : Bool) :
    SameRegs s (s.takeTrap w t iset caddr index done head) := by
  unfold State.takeTrap
  split
  · exact .refl s
  · exact (SameRegs.ite (SameRegs.of_quiet (State.quiet_freeHeld ..)) (.refl s)).trans
      (((SameRegs.modWarp _ w _ (by intro x; rfl)).trans (.fillLoadAt _ w)).trans (.of_quiet (State.quiet_trapEntry ..)))

/-- A trap of the instruction a warp stands at leaves every warp's registers (R85). -/
theorem SameRegs.trapHere (s : State) (w : Nat) (t : TrapInfo) : SameRegs s (s.trapHere w t) := by
  unfold State.trapHere
  split
  · exact .refl s
  · exact .takeTrap ..

/-! ### Completing -/

/-- Two register files agree on V, O, S and P registers and tables. -/
def Regs.sameData (r q : Regs) : Prop := r.v = q.v ∧ r.o = q.o ∧ r.s = q.s ∧ r.p = q.p ∧ r.mt = q.mt

theorem Regs.sameData.element {r q : Regs} (h : r.sameData q) (wide : Bool) (x : Reg) (t : Nat) : r.element wide x t = q.element wide x t := by
  have hv : ∀ y, r.vreg y = q.vreg y := fun y => by cases y <;> simp [Regs.vreg, h.1, h.2.1]
  have he : ∀ y, r.elem y t = q.elem y t := fun y => by simp [Regs.elem, Regs.map, hv, h.2.2.2.2]
  simp [Regs.element, he]

/-- What completing an instruction leaves of its warp's registers: all but lane program counters, scoreboards and draw counts. -/
theorem complete_data {s : State} {w : Nat} {x : Warp} {c : Clause} (hx : s.warp? w = some x) (hc : x.clause = some c) (f : Finish) :
    ((s.complete w f).regs w).sameData x.regs := by
  have key : ∀ y : Warp, y.regs.sameData x.regs → ∀ t, SameRegs (s.modWarp w (fun _ => y)) t → (t.regs w).sameData x.regs := by
    intro y hd t hy
    have hr : (s.modWarp w (fun _ => y)).regs w = y.regs := by
      unfold State.regs
      rw [State.warp?_modWarp]
      simp [hx]
    rw [hy.regs w, hr]
    exact hd
  unfold State.complete
  simp only [hx, hc]
  refine key (x.completed c f) ⟨rfl, rfl, rfl, rfl, rfl⟩ _ ?_
  refine ((SameRegs.clobber _ w (if x.ahead then [] else f.early) f.wrote f.accsBefore).trans
    (SameRegs.reread _ w ((if x.ahead then [] else f.early).filter (f.writes ++ f.also.map Prod.fst).contains) f.accsBefore)).trans ?_
  cases f.trap
  case some => exact .takeTrap ..
  case none => exact .ite (.takeTrap ..) (.ite (.boundary ..) (.refl _))

/-! ### A ready instruction -/

/-- What being ready says. -/
theorem ready?_spec {s : State} {d : Need} {e : Env} (h : s.ready? d = some e) :
    s.warp? s.cur = some e.x ∧ e.x.clause = some e.c ∧ e.x.state = .active ∧ e.x.hold = .none ∧ e.x.ahead = false ∧
    e.c.idx < e.c.words.length ∧ s.timely d e.x e.c = true ∧ e.act ≠ 0 ∧
    e = { s := s, w := s.cur, x := e.x, c := e.c, act := e.c.acting d e.x.regs, regs := e.x.regs, l := e.c.seenL s.freeCtr } := by
  unfold State.ready? at h
  split at h
  · cases h
  · split at h
    · cases h
    · split at h
      · rename_i x hx _ c hc hcond
        obtain rfl := Option.some.inj h
        simp only [Bool.and_eq_true, Bool.not_eq_true', decide_eq_true_eq, beq_iff_eq, bne_iff_ne] at hcond
        exact ⟨hx, hc, hcond.1.1.1.1.1, hcond.1.1.1.1.2, hcond.1.1.1.2, hcond.1.1.2, hcond.1.2, hcond.2, rfl⟩
      · cases h

/-- The issue of a ready instruction runs its body on what it sees. -/
theorem issue_ready {s : State} {d : Need} {e : Env} (h : s.ready? d = some e) (body : Env → Res) :
    issue d body s = .next (s.settle s.cur e.regs { act := if d.whole then fullMask else e.act } (body e)) := by
  obtain ⟨hx, hc, hact, hhold, hah, hidx, ht, hne, he⟩ := ready?_spec h
  simp only [State.timely, Bool.and_eq_true, Bool.not_eq_true'] at ht
  obtain ⟨⟨⟨⟨⟨hill, hrd⟩, hp⟩, hw⟩, hl⟩, hsb⟩ := ht
  have hlate : d.reads.filter (e.x.late e.c.start e.c.pend) = [] := by
    rw [List.filter_eq_nil_iff]
    intro g hg
    simpa using List.all_eq_true.mp hrd g hg
  have hlateP : (d.head.pred.val != 7 && !d.always && e.x.late e.c.start e.c.pend (.p d.head.pred.val)) = false := by
    revert hp
    cases d.always <;> cases (e.x.late e.c.start e.c.pend (.p d.head.pred.val)) <;> simp
  have hearly : (d.writes ++ d.also.map Prod.fst).filter (s.unwritten s.cur) = [] := by
    rw [List.filter_eq_nil_iff]
    intro g hg
    simpa using List.all_eq_true.mp hw g hg
  have hbadL : d.ls.any (fun n => !lReadable e.c.lfile e.c.start n) = false := by
    rw [List.any_eq_false]
    intro n hn
    simpa using List.all_eq_true.mp hl n hn
  have hroom : (sbOf d.head).filter (fun i => e.x.regs.sb.getD i.val 0 == 63) = none := by
    cases hb : sbOf d.head with
    | none => rfl
    | some i =>
      rw [hb] at hsb
      simp only [Option.any_some] at hsb
      simp only [Option.filter, hsb]
      rfl
  have hactv : e.act = e.c.acting d e.x.regs := by rw [he]
  have hact0 : e.c.acting d e.x.regs ≠ 0 := hactv ▸ hne
  unfold issue
  have hruns : e.x.runs = true := by simp [Warp.runs, hact]
  simp only [hx, hc, hruns, hhold, hah, hill, hlate, hlateP, hearly, hbadL, hroom]
  rw [if_neg (by simp; omega), if_neg (by simp), if_neg (by simp), if_neg (by simp), if_neg (by simp)]
  simp only [List.nil_append, Bool.false_eq_true, if_false, List.isEmpty_nil, Bool.not_true, Bool.or_false, Bool.not_false, Bool.and_true,
    Bool.and_false, if_true, spoil]
  have hmask : (if d.always = true then e.c.iset
      else e.c.iset &&& (predMask e.x.regs d.head.pred.val ^^^ if d.head.pneg = true then fullMask else 0)) = e.c.acting d e.x.regs := rfl
  rw [hmask, if_neg (by simpa using hact0)]
  have henv : ({ s := s, w := s.cur, x := e.x, c := e.c, act := e.c.acting d e.x.regs, regs := e.x.regs, l := e.c.seenL s.freeCtr } : Env) = e := he.symm
  have hregs : e.regs = e.x.regs := by rw [he]
  rw [hregs]
  congr 2
  rw [← henv]
  congr 1

/-- The end of an issue whose reads and writes were timely. -/
theorem settle_done {s : State} {w : Nat} {old : Regs} {m : Mask} {s' : State} {f : Finish} :
    s.settle w old { act := m } (.done s' f) = s'.complete w { f with wrote := m, early := [], accsBefore := s.accs.length } := by
  show (s'.modWarp w (fun x => { x with regs := unspoil old (f.writes ++ f.also.map Prod.fst) m [] x.regs })).complete w _ = _
  have : (fun x : Warp => { x with regs := unspoil old (f.writes ++ f.also.map Prod.fst) m [] x.regs }) = fun x => x := rfl
  rw [this, State.modWarp_self]

theorem settle_held {s : State} {w : Nat} {old : Regs} {m : Mask} {s' : State} {f : Finish} {h : Hold} :
    s.settle w old { act := m } (.held s' f h) =
      s'.modWarp w (fun x => { x with pending := some { f with wrote := m, early := [], accsBefore := s.accs.length }, hold := h }) := by
  show (s'.modWarp w (fun x => { x with regs := unspoil old (f.writes ++ f.also.map Prod.fst) m [] x.regs })).modWarp w _ = _
  have : (fun x : Warp => { x with regs := unspoil old (f.writes ++ f.also.map Prod.fst) m [] x.regs }) = fun x => x := rfl
  rw [this, State.modWarp_self]

theorem settle_stay {s : State} {w : Nat} {old : Regs} {k : Issued} {s' : State} : s.settle w old k (.stay s') = s' := rfl

/-- A trap of a ready instruction is taken where it stands (R85). -/
theorem settle_trap {s : State} {d : Need} {e : Env} (h : s.ready? d = some e) (old : Regs) (k : Issued) (t : TrapInfo) :
    s.settle s.cur old k (.trap t) = s.trapHere s.cur t := by
  obtain ⟨hx, -, -, -, hah, -⟩ := ready?_spec h
  show s.raiseHere s.cur t = _
  unfold State.raiseHere
  simp [hx, hah]

end Sys2Proof.Machine
end

