-- ==== Sys2Proof/Laws/Memory.lean ====
section
/-! SUPPORT. Laws of memory: what a byte reads as after a write, and that every memory operation keeps the canonical form. -/
namespace Sys2Proof.Machine

/-- Every address listed lies above a bound. -/
def Memory.above (x : Nat) : Memory → Prop
  | [] => True
  | (a, _) :: r => x < a ∧ Memory.above x r

theorem Memory.above_mono {x y : Nat} (h : y ≤ x) : {m : Memory} → m.above x → m.above y
  | [], _ => trivial
  | (_, _) :: _, ⟨h1, h2⟩ => ⟨by omega, Memory.above_mono h h2⟩

theorem Memory.wf_cons {a : Nat} {b : Byte} {r : Memory} :
    Memory.wf ((a, b) :: r) = true ↔ b ≠ 0 ∧ Memory.above a r ∧ Memory.wf r = true := by
  induction r generalizing a b with
  | nil => simp [Memory.wf, Memory.above]
  | cons c r ih =>
    obtain ⟨c, d⟩ := c
    simp only [Memory.wf, Bool.and_eq_true, decide_eq_true_eq, bne_iff_ne, Memory.above]
    rw [ih]
    constructor
    · rintro ⟨⟨h1, h2⟩, h3, h4, h5⟩
      exact ⟨h2, ⟨h1, Memory.above_mono (by omega) h4⟩, h3, h4, h5⟩
    · rintro ⟨h1, ⟨h2, -⟩, h3, h4, h5⟩
      exact ⟨⟨h2, h1⟩, h3, h4, h5⟩

theorem Memory.write_above {x a : Nat} {v : Byte} (hx : x < a) : {m : Memory} → m.above x → (m.write a v).above x
  | [], _ => by unfold Memory.write; split <;> simp [Memory.above, hx]
  | (c, d) :: r, ⟨h1, h2⟩ => by
    unfold Memory.write
    split
    · split
      · exact h2
      · exact ⟨by omega, h2⟩
    · split
      · split
        · exact ⟨h1, h2⟩
        · exact ⟨hx, h1, h2⟩
      · exact ⟨h1, Memory.write_above hx h2⟩

/-- A write keeps the canonical form. -/
theorem Memory.wf_write (a : Nat) (v : Byte) : {m : Memory} → m.wf = true → (m.write a v).wf = true
  | [], _ => by unfold Memory.write; split <;> simp_all [Memory.wf]
  | (c, d) :: r, h => by
    obtain ⟨h1, h2, h3⟩ := Memory.wf_cons.mp h
    unfold Memory.write
    split
    · subst_vars
      split
      · exact h3
      · exact Memory.wf_cons.mpr ⟨‹_›, h2, h3⟩
    · split
      · split
        · exact h
        · exact Memory.wf_cons.mpr ⟨‹_›, ⟨‹_›, Memory.above_mono (by omega) h2⟩, h⟩
      · exact Memory.wf_cons.mpr ⟨h1, Memory.write_above (by omega) h2, Memory.wf_write a v h3⟩

/-- Writes of several bytes keep the canonical form. -/
theorem Memory.wf_writeN (bs : List Byte) : (a : Nat) → {m : Memory} → m.wf = true → (m.writeN a bs).wf = true := by
  induction bs with
  | nil => exact fun _ _ h => h
  | cons b r ih => exact fun a _ h => ih (a + 1) (Memory.wf_write a b h)

theorem Memory.read_above {x y : Nat} (h : y ≤ x) : {m : Memory} → m.above x → m.read y = 0
  | [], _ => rfl
  | (_, _) :: _, ⟨h1, _⟩ => by unfold Memory.read; rw [if_neg (by omega), if_pos (by omega)]

/-- A byte reads as the last write left it. -/
theorem Memory.read_write (a x : Nat) (v : Byte) : {m : Memory} → m.wf = true → (m.write a v).read x = if x = a then v else m.read x
  | [], _ => by
    unfold Memory.write
    split
    · subst_vars; simp [Memory.read]
    · simp only [Memory.read]; split <;> simp
  | (c, d) :: r, h => by
    obtain ⟨h1, h2, h3⟩ := Memory.wf_cons.mp h
    unfold Memory.write
    by_cases ha : a = c
    · subst ha
      by_cases hv : v = 0
      · subst hv
        simp only [Memory.read]
        by_cases hx : x = a
        · subst hx; simp [Memory.read_above (Nat.le_refl x) h2]
        · by_cases hl : x < a
          · simp [hx, hl, Memory.read_above (Nat.le_of_lt hl) h2]
          · simp [hx, hl]
      · simp only [if_neg hv]
        by_cases hx : x = a <;> simp [Memory.read, hx]
    · by_cases hl : a < c
      · by_cases hv : v = 0
        · subst hv
          simp only [if_neg ha, if_pos hl]
          by_cases hx : x = a
          · subst hx; simp [Memory.read, ha, hl]
          · simp [hx]
        · simp only [if_neg ha, if_pos hl, if_neg hv, Memory.read]
          by_cases hx : x = a
          · simp [hx]
          · by_cases hxa : x < a
            · simp [hx, hxa, show x ≠ c by omega, show x < c by omega]
            · simp [hx, hxa]
      · simp only [if_neg ha, if_neg hl, Memory.read]
        rw [Memory.read_write a x v h3]
        by_cases hx : x = a
        · subst hx; simp [ha, hl]
        · simp [hx]

/-- Memory right after reset has the canonical form. -/
theorem Memory.wf_reset : State.reset.mem.wf = true := rfl

end Sys2Proof.Machine
end

