-- ==== Sys2Proof/Laws/PerInstr.lean ====
section
/-! SUPPORT. What holds of every row's word as syntax: its fields fill 64 bits, and the value of each fits its field (R66 to R102), so that laying the
fields out loses nothing. -/
namespace Sys2Proof.Laws

/-- Every value fits its field. -/
def fits : List (Nat × Nat) → Bool
  | [] => true
  | (n, v) :: r => decide (v < 2 ^ n) && fits r

/-- An instruction's fields fill a word, an event has none, and every value fits its field. -/
def Encoding.Statement (i : Instr) : Prop :=
  (i.fields.map Prod.fst).sum = (if i.isWord then 64 else 0) ∧ fits i.fields = true

theorem fits_append (a b : List (Nat × Nat)) : fits (a ++ b) = (fits a && fits b) := by
  induction a with
  | nil => rfl
  | cons x r ih => simp [fits, ih, Bool.and_assoc]

theorem ty_code_lt (t : Ty) : t.code < 16 := by cases t <;> decide
theorem rm_code_lt (t : Rm) : t.code < 8 := by cases t <;> decide
theorem icond_code_lt (t : ICond) : t.code < 16 := by cases t <;> decide
theorem fcond_code_lt (t : FCond) : t.code < 16 := by cases t <;> decide
theorem redop_code_lt (t : RedOp) : t.code < 16 := by cases t <;> decide
theorem scope_code_lt (t : Scope) : t.code < 8 := by cases t <;> decide
theorem hint_code_lt (t : Hint) : t.code < 4 := by cases t <;> decide
theorem sem_code_lt (t : Sem) : t.code < 4 := by cases t <;> decide
theorem fenceMode_code_lt (t : FenceMode) : t.code < 4 := by cases t <;> decide
theorem bfmt_code_lt (t : Bfmt) : t.code < 4 := by cases t <;> decide
theorem idxTy_code_lt (t : IdxTy) : t.code < 4 := by cases t <;> decide
theorem drainMem_code_lt (t : DrainMem) : t.code < 8 := by cases t <;> decide
theorem brKind_code_lt (t : BrKind) : t.code < 4 := by cases t <;> decide

theorem opnd_code_lt (x : Opnd) : x.code < 512 := by cases x <;> simp only [Opnd.code] <;> omega
theorem predSpec_code_lt (p : PredSpec) : p.code < 512 := by
  obtain ⟨p, n⟩ := p
  cases n <;> simp [PredSpec.code] <;> omega
theorem optS_lt (s : Option (Fin 64)) : optS s < 512 := by cases s <;> simp only [optS] <;> omega
theorem optV_lt (s : Option (Fin 320)) : optV s < 512 := by cases s <;> simp only [optV] <;> omega
theorem optO_lt (s : Option Opnd) : optO s < 512 := by
  cases s with
  | none => simp [optO]
  | some x => exact opnd_code_lt x
theorem bool_lt (b : Bool) : b.toNat < 2 := by cases b <;> decide

/-- The head takes 19 bits (R66). -/
theorem head_sum (h : Head) (op : Nat) : ((headFields h op).map Prod.fst).sum = 19 := rfl

/-- The head's values fit (R66). -/
theorem head_fits (h : Head) (op : Nat) (ho : op < 256) : fits (headFields h op) = true := by
  have := bool_lt h.pneg
  simp only [headFields, fits, Bool.and_true, Bool.and_eq_true, decide_eq_true_eq]
  omega

theorem fa_sum (h : Head) (op d a b c : Nat) (m : List (Nat × Nat)) (hm : (m.map Prod.fst).sum = 9) :
    ((fa h op d a b c m).map Prod.fst).sum = 64 := by simp [fa, head_sum, hm]
theorem fb_sum (h : Head) (op d a i : Nat) (m : List (Nat × Nat)) (hm : (m.map Prod.fst).sum = 9) :
    ((fb h op d a i m).map Prod.fst).sum = 64 := by simp [fb, head_sum, hm]
theorem fmx_sum (h : Head) (op d a i s p : Nat) (m : List (Nat × Nat)) (hm : (m.map Prod.fst).sum = 9) :
    ((fmx h op d a i s p m).map Prod.fst).sum = 64 := by simp [fmx, head_sum, hm]
theorem fx_sum (h : Head) (op d a : Nat) (m : List (Nat × Nat)) (hm : (m.map Prod.fst).sum = 27) :
    ((fx h op d a m).map Prod.fst).sum = 64 := by simp [fx, head_sum, hm]

theorem fa_fits (h : Head) (op d a b c : Nat) (m : List (Nat × Nat)) (ho : op < 256) (hd : d < 512) (ha : a < 512) (hb : b < 512)
    (hc : c < 512) (hm : fits m = true) : fits (fa h op d a b c m) = true := by
  simp [fa, fits_append, fits, head_fits, *]
theorem fb_fits (h : Head) (op d a i : Nat) (m : List (Nat × Nat)) (ho : op < 256) (hd : d < 512) (ha : a < 512) (hi : i < 2 ^ 18)
    (hm : fits m = true) : fits (fb h op d a i m) = true := by
  simp_all [fb, fits_append, fits, head_fits]
theorem fmx_fits (h : Head) (op d a i s p : Nat) (m : List (Nat × Nat)) (ho : op < 256) (hd : d < 512) (ha : a < 512) (hi : i < 512)
    (hs : s < 4) (hp : p < 128) (hm : fits m = true) : fits (fmx h op d a i s p m) = true := by
  simp [fmx, fits_append, fits, head_fits, *]
theorem fx_fits (h : Head) (op d a : Nat) (m : List (Nat × Nat)) (ho : op < 256) (hd : d < 512) (ha : a < 512)
    (hm : fits m = true) : fits (fx h op d a m) = true := by
  simp [fx, fits_append, fits, head_fits, *]
theorem fc_fits (h : Head) (op d i m : Nat) (ho : op < 256) (hd : d < 512) (hi : i < 2 ^ 32) (hm : m < 16) : fits (fc h op d i m) = true := by
  simp_all [fc, fits, head_fits]
theorem fj_fits (h : Head) (op u k : Nat) (c : PredSpec) (off : Nat) (ho : op < 256) (hu : u < 2) (hk : k < 4) (hf : off < 2 ^ 32) :
    fits (fj h op u k c off) = true := by
  have := bool_lt c.neg
  have := c.p.isLt
  simp_all [fj, fits, head_fits]

/-! ### The rows -/

theorem Encoding.iadd (h : Head) (ty : Ty) (sat : Bool) (d a b : Opnd) : Encoding.Statement (.iadd h ty sat d a b) := 
  ⟨fa_sum _ _ _ _ _ _ _ rfl, fa_fits _ _ _ _ _ _ _ (by decide) (by have := opnd_code_lt d; omega) (by have := opnd_code_lt a; omega) (by have := opnd_code_lt b; omega) (by decide) (by have := ty_code_lt ty; have := bool_lt sat; simp [fits, *])⟩
theorem Encoding.iaddImm (h : Head) (ty : Ty) (sat : Bool) (d a : Opnd) (imm : BitVec 18) : Encoding.Statement (.iaddImm h ty sat d a imm) := 
  ⟨fb_sum _ _ _ _ _ _ rfl, fb_fits _ _ _ _ _ _ (by decide) (by have := opnd_code_lt d; omega) (by have := opnd_code_lt a; omega) (by have := imm.isLt; omega) (by have := ty_code_lt ty; have := bool_lt sat; simp [fits, *])⟩
theorem Encoding.isub (h : Head) (ty : Ty) (sat : Bool) (d a b : Opnd) : Encoding.Statement (.isub h ty sat d a b) := 
  ⟨fa_sum _ _ _ _ _ _ _ rfl, fa_fits _ _ _ _ _ _ _ (by decide) (by have := opnd_code_lt d; omega) (by have := opnd_code_lt a; omega) (by have := opnd_code_lt b; omega) (by decide) (by have := ty_code_lt ty; have := bool_lt sat; simp [fits, *])⟩
theorem Encoding.isubImm (h : Head) (ty : Ty) (sat : Bool) (d a : Opnd) (imm : BitVec 18) : Encoding.Statement (.isubImm h ty sat d a imm) := 
  ⟨fb_sum _ _ _ _ _ _ rfl, fb_fits _ _ _ _ _ _ (by decide) (by have := opnd_code_lt d; omega) (by have := opnd_code_lt a; omega) (by have := imm.isLt; omega) (by have := ty_code_lt ty; have := bool_lt sat; simp [fits, *])⟩
theorem Encoding.imul (h : Head) (ty : Ty) (d a b : Opnd) : Encoding.Statement (.imul h ty d a b) := 
  ⟨fa_sum _ _ _ _ _ _ _ rfl, fa_fits _ _ _ _ _ _ _ (by decide) (by have := opnd_code_lt d; omega) (by have := opnd_code_lt a; omega) (by have := opnd_code_lt b; omega) (by decide) (by have := ty_code_lt ty; simp [fits, *])⟩
theorem Encoding.imulImm (h : Head) (ty : Ty) (d a : Opnd) (imm : BitVec 18) : Encoding.Statement (.imulImm h ty d a imm) := 
  ⟨fb_sum _ _ _ _ _ _ rfl, fb_fits _ _ _ _ _ _ (by decide) (by have := opnd_code_lt d; omega) (by have := opnd_code_lt a; omega) (by have := imm.isLt; omega) (by have := ty_code_lt ty; simp [fits, *])⟩
theorem Encoding.imulhi (h : Head) (ty : Ty) (d a b : Opnd) : Encoding.Statement (.imulhi h ty d a b) := 
  ⟨fa_sum _ _ _ _ _ _ _ rfl, fa_fits _ _ _ _ _ _ _ (by decide) (by have := opnd_code_lt d; omega) (by have := opnd_code_lt a; omega) (by have := opnd_code_lt b; omega) (by decide) (by have := ty_code_lt ty; simp [fits, *])⟩
theorem Encoding.imad (h : Head) (ty : Ty) (d a b c : Opnd) : Encoding.Statement (.imad h ty d a b c) := 
  ⟨fa_sum _ _ _ _ _ _ _ rfl, fa_fits _ _ _ _ _ _ _ (by decide) (by have := opnd_code_lt d; omega) (by have := opnd_code_lt a; omega) (by have := opnd_code_lt b; omega) (by have := opnd_code_lt c; omega) (by have := ty_code_lt ty; simp [fits, *])⟩
theorem Encoding.imadw (h : Head) (ty : Ty) (d a b c : Opnd) : Encoding.Statement (.imadw h ty d a b c) := 
  ⟨fa_sum _ _ _ _ _ _ _ rfl, fa_fits _ _ _ _ _ _ _ (by decide) (by have := opnd_code_lt d; omega) (by have := opnd_code_lt a; omega) (by have := opnd_code_lt b; omega) (by have := opnd_code_lt c; omega) (by have := ty_code_lt ty; simp [fits, *])⟩
theorem Encoding.imin (h : Head) (ty : Ty) (d a b : Opnd) : Encoding.Statement (.imin h ty d a b) := 
  ⟨fa_sum _ _ _ _ _ _ _ rfl, fa_fits _ _ _ _ _ _ _ (by decide) (by have := opnd_code_lt d; omega) (by have := opnd_code_lt a; omega) (by have := opnd_code_lt b; omega) (by decide) (by have := ty_code_lt ty; simp [fits, *])⟩
theorem Encoding.imax (h : Head) (ty : Ty) (d a b : Opnd) : Encoding.Statement (.imax h ty d a b) := 
  ⟨fa_sum _ _ _ _ _ _ _ rfl, fa_fits _ _ _ _ _ _ _ (by decide) (by have := opnd_code_lt d; omega) (by have := opnd_code_lt a; omega) (by have := opnd_code_lt b; omega) (by decide) (by have := ty_code_lt ty; simp [fits, *])⟩
theorem Encoding.iabs (h : Head) (ty : Ty) (sat : Bool) (d a : Opnd) : Encoding.Statement (.iabs h ty sat d a) := 
  ⟨fa_sum _ _ _ _ _ _ _ rfl, fa_fits _ _ _ _ _ _ _ (by decide) (by have := opnd_code_lt d; omega) (by have := opnd_code_lt a; omega) (by decide) (by decide) (by have := ty_code_lt ty; have := bool_lt sat; simp [fits, *])⟩
theorem Encoding.ineg (h : Head) (ty : Ty) (sat : Bool) (d a : Opnd) : Encoding.Statement (.ineg h ty sat d a) := 
  ⟨fa_sum _ _ _ _ _ _ _ rfl, fa_fits _ _ _ _ _ _ _ (by decide) (by have := opnd_code_lt d; omega) (by have := opnd_code_lt a; omega) (by decide) (by decide) (by have := ty_code_lt ty; have := bool_lt sat; simp [fits, *])⟩
theorem Encoding.iclamp (h : Head) (ty : Ty) (d a b c : Opnd) : Encoding.Statement (.iclamp h ty d a b c) := 
  ⟨fa_sum _ _ _ _ _ _ _ rfl, fa_fits _ _ _ _ _ _ _ (by decide) (by have := opnd_code_lt d; omega) (by have := opnd_code_lt a; omega) (by have := opnd_code_lt b; omega) (by have := opnd_code_lt c; omega) (by have := ty_code_lt ty; simp [fits, *])⟩
theorem Encoding.lea (h : Head) (ty : Ty) (sh : Fin 8) (d a b : Opnd) : Encoding.Statement (.lea h ty sh d a b) := 
  ⟨fa_sum _ _ _ _ _ _ _ rfl, fa_fits _ _ _ _ _ _ _ (by decide) (by have := opnd_code_lt d; omega) (by have := opnd_code_lt a; omega) (by have := opnd_code_lt b; omega) (by decide) (by have := ty_code_lt ty; have := sh.isLt; simp [fits, *])⟩
theorem Encoding.and (h : Head) (ty : Ty) (d a b : Opnd) : Encoding.Statement (.and h ty d a b) := 
  ⟨fa_sum _ _ _ _ _ _ _ rfl, fa_fits _ _ _ _ _ _ _ (by decide) (by have := opnd_code_lt d; omega) (by have := opnd_code_lt a; omega) (by have := opnd_code_lt b; omega) (by decide) (by have := ty_code_lt ty; simp [fits, *])⟩
theorem Encoding.andImm (h : Head) (ty : Ty) (d a : Opnd) (imm : BitVec 18) : Encoding.Statement (.andImm h ty d a imm) := 
  ⟨fb_sum _ _ _ _ _ _ rfl, fb_fits _ _ _ _ _ _ (by decide) (by have := opnd_code_lt d; omega) (by have := opnd_code_lt a; omega) (by have := imm.isLt; omega) (by have := ty_code_lt ty; simp [fits, *])⟩
theorem Encoding.or (h : Head) (ty : Ty) (d a b : Opnd) : Encoding.Statement (.or h ty d a b) := 
  ⟨fa_sum _ _ _ _ _ _ _ rfl, fa_fits _ _ _ _ _ _ _ (by decide) (by have := opnd_code_lt d; omega) (by have := opnd_code_lt a; omega) (by have := opnd_code_lt b; omega) (by decide) (by have := ty_code_lt ty; simp [fits, *])⟩
theorem Encoding.orImm (h : Head) (ty : Ty) (d a : Opnd) (imm : BitVec 18) : Encoding.Statement (.orImm h ty d a imm) := 
  ⟨fb_sum _ _ _ _ _ _ rfl, fb_fits _ _ _ _ _ _ (by decide) (by have := opnd_code_lt d; omega) (by have := opnd_code_lt a; omega) (by have := imm.isLt; omega) (by have := ty_code_lt ty; simp [fits, *])⟩
theorem Encoding.xor (h : Head) (ty : Ty) (d a b : Opnd) : Encoding.Statement (.xor h ty d a b) := 
  ⟨fa_sum _ _ _ _ _ _ _ rfl, fa_fits _ _ _ _ _ _ _ (by decide) (by have := opnd_code_lt d; omega) (by have := opnd_code_lt a; omega) (by have := opnd_code_lt b; omega) (by decide) (by have := ty_code_lt ty; simp [fits, *])⟩
theorem Encoding.xorImm (h : Head) (ty : Ty) (d a : Opnd) (imm : BitVec 18) : Encoding.Statement (.xorImm h ty d a imm) := 
  ⟨fb_sum _ _ _ _ _ _ rfl, fb_fits _ _ _ _ _ _ (by decide) (by have := opnd_code_lt d; omega) (by have := opnd_code_lt a; omega) (by have := imm.isLt; omega) (by have := ty_code_lt ty; simp [fits, *])⟩
theorem Encoding.andn (h : Head) (ty : Ty) (d a b : Opnd) : Encoding.Statement (.andn h ty d a b) := 
  ⟨fa_sum _ _ _ _ _ _ _ rfl, fa_fits _ _ _ _ _ _ _ (by decide) (by have := opnd_code_lt d; omega) (by have := opnd_code_lt a; omega) (by have := opnd_code_lt b; omega) (by decide) (by have := ty_code_lt ty; simp [fits, *])⟩
theorem Encoding.andnImm (h : Head) (ty : Ty) (d a : Opnd) (imm : BitVec 18) : Encoding.Statement (.andnImm h ty d a imm) := 
  ⟨fb_sum _ _ _ _ _ _ rfl, fb_fits _ _ _ _ _ _ (by decide) (by have := opnd_code_lt d; omega) (by have := opnd_code_lt a; omega) (by have := imm.isLt; omega) (by have := ty_code_lt ty; simp [fits, *])⟩
theorem Encoding.not (h : Head) (ty : Ty) (d a : Opnd) : Encoding.Statement (.not h ty d a) := 
  ⟨fa_sum _ _ _ _ _ _ _ rfl, fa_fits _ _ _ _ _ _ _ (by decide) (by have := opnd_code_lt d; omega) (by have := opnd_code_lt a; omega) (by decide) (by decide) (by have := ty_code_lt ty; simp [fits, *])⟩
theorem Encoding.shl (h : Head) (ty : Ty) (d a b : Opnd) : Encoding.Statement (.shl h ty d a b) := 
  ⟨fa_sum _ _ _ _ _ _ _ rfl, fa_fits _ _ _ _ _ _ _ (by decide) (by have := opnd_code_lt d; omega) (by have := opnd_code_lt a; omega) (by have := opnd_code_lt b; omega) (by decide) (by have := ty_code_lt ty; simp [fits, *])⟩
theorem Encoding.shlImm (h : Head) (ty : Ty) (d a : Opnd) (imm : BitVec 18) : Encoding.Statement (.shlImm h ty d a imm) := 
  ⟨fb_sum _ _ _ _ _ _ rfl, fb_fits _ _ _ _ _ _ (by decide) (by have := opnd_code_lt d; omega) (by have := opnd_code_lt a; omega) (by have := imm.isLt; omega) (by have := ty_code_lt ty; simp [fits, *])⟩
theorem Encoding.shr (h : Head) (ty : Ty) (d a b : Opnd) : Encoding.Statement (.shr h ty d a b) := 
  ⟨fa_sum _ _ _ _ _ _ _ rfl, fa_fits _ _ _ _ _ _ _ (by decide) (by have := opnd_code_lt d; omega) (by have := opnd_code_lt a; omega) (by have := opnd_code_lt b; omega) (by decide) (by have := ty_code_lt ty; simp [fits, *])⟩
theorem Encoding.shrImm (h : Head) (ty : Ty) (d a : Opnd) (imm : BitVec 18) : Encoding.Statement (.shrImm h ty d a imm) := 
  ⟨fb_sum _ _ _ _ _ _ rfl, fb_fits _ _ _ _ _ _ (by decide) (by have := opnd_code_lt d; omega) (by have := opnd_code_lt a; omega) (by have := imm.isLt; omega) (by have := ty_code_lt ty; simp [fits, *])⟩
theorem Encoding.sar (h : Head) (ty : Ty) (d a b : Opnd) : Encoding.Statement (.sar h ty d a b) := 
  ⟨fa_sum _ _ _ _ _ _ _ rfl, fa_fits _ _ _ _ _ _ _ (by decide) (by have := opnd_code_lt d; omega) (by have := opnd_code_lt a; omega) (by have := opnd_code_lt b; omega) (by decide) (by have := ty_code_lt ty; simp [fits, *])⟩
theorem Encoding.sarImm (h : Head) (ty : Ty) (d a : Opnd) (imm : BitVec 18) : Encoding.Statement (.sarImm h ty d a imm) := 
  ⟨fb_sum _ _ _ _ _ _ rfl, fb_fits _ _ _ _ _ _ (by decide) (by have := opnd_code_lt d; omega) (by have := opnd_code_lt a; omega) (by have := imm.isLt; omega) (by have := ty_code_lt ty; simp [fits, *])⟩
theorem Encoding.rotl (h : Head) (ty : Ty) (d a b : Opnd) : Encoding.Statement (.rotl h ty d a b) := 
  ⟨fa_sum _ _ _ _ _ _ _ rfl, fa_fits _ _ _ _ _ _ _ (by decide) (by have := opnd_code_lt d; omega) (by have := opnd_code_lt a; omega) (by have := opnd_code_lt b; omega) (by decide) (by have := ty_code_lt ty; simp [fits, *])⟩
theorem Encoding.rotlImm (h : Head) (ty : Ty) (d a : Opnd) (imm : BitVec 18) : Encoding.Statement (.rotlImm h ty d a imm) := 
  ⟨fb_sum _ _ _ _ _ _ rfl, fb_fits _ _ _ _ _ _ (by decide) (by have := opnd_code_lt d; omega) (by have := opnd_code_lt a; omega) (by have := imm.isLt; omega) (by have := ty_code_lt ty; simp [fits, *])⟩
theorem Encoding.bfx (h : Head) (ty : Ty) (d a b : Opnd) : Encoding.Statement (.bfx h ty d a b) := 
  ⟨fa_sum _ _ _ _ _ _ _ rfl, fa_fits _ _ _ _ _ _ _ (by decide) (by have := opnd_code_lt d; omega) (by have := opnd_code_lt a; omega) (by have := opnd_code_lt b; omega) (by decide) (by have := ty_code_lt ty; simp [fits, *])⟩
theorem Encoding.bfxImm (h : Head) (ty : Ty) (d a : Opnd) (imm : BitVec 18) : Encoding.Statement (.bfxImm h ty d a imm) := 
  ⟨fb_sum _ _ _ _ _ _ rfl, fb_fits _ _ _ _ _ _ (by decide) (by have := opnd_code_lt d; omega) (by have := opnd_code_lt a; omega) (by have := imm.isLt; omega) (by have := ty_code_lt ty; simp [fits, *])⟩
theorem Encoding.bfi (h : Head) (ty : Ty) (d a b c : Opnd) : Encoding.Statement (.bfi h ty d a b c) := 
  ⟨fa_sum _ _ _ _ _ _ _ rfl, fa_fits _ _ _ _ _ _ _ (by decide) (by have := opnd_code_lt d; omega) (by have := opnd_code_lt a; omega) (by have := opnd_code_lt b; omega) (by have := opnd_code_lt c; omega) (by have := ty_code_lt ty; simp [fits, *])⟩
theorem Encoding.bfiImm (h : Head) (ty : Ty) (d a : Opnd) (imm : BitVec 18) : Encoding.Statement (.bfiImm h ty d a imm) := 
  ⟨fb_sum _ _ _ _ _ _ rfl, fb_fits _ _ _ _ _ _ (by decide) (by have := opnd_code_lt d; omega) (by have := opnd_code_lt a; omega) (by have := imm.isLt; omega) (by have := ty_code_lt ty; simp [fits, *])⟩
theorem Encoding.clz (h : Head) (ty : Ty) (d a : Opnd) : Encoding.Statement (.clz h ty d a) := 
  ⟨fa_sum _ _ _ _ _ _ _ rfl, fa_fits _ _ _ _ _ _ _ (by decide) (by have := opnd_code_lt d; omega) (by have := opnd_code_lt a; omega) (by decide) (by decide) (by have := ty_code_lt ty; simp [fits, *])⟩
theorem Encoding.popc (h : Head) (ty : Ty) (d a : Opnd) : Encoding.Statement (.popc h ty d a) := 
  ⟨fa_sum _ _ _ _ _ _ _ rfl, fa_fits _ _ _ _ _ _ _ (by decide) (by have := opnd_code_lt d; omega) (by have := opnd_code_lt a; omega) (by decide) (by decide) (by have := ty_code_lt ty; simp [fits, *])⟩
theorem Encoding.brev (h : Head) (ty : Ty) (d a : Opnd) : Encoding.Statement (.brev h ty d a) := 
  ⟨fa_sum _ _ _ _ _ _ _ rfl, fa_fits _ _ _ _ _ _ _ (by decide) (by have := opnd_code_lt d; omega) (by have := opnd_code_lt a; omega) (by decide) (by decide) (by have := ty_code_lt ty; simp [fits, *])⟩
theorem Encoding.icmp (h : Head) (ty : Ty) (cond : ICond) (pd : Fin 7) (a b : Opnd) : Encoding.Statement (.icmp h ty cond pd a b) := 
  ⟨fa_sum _ _ _ _ _ _ _ rfl, fa_fits _ _ _ _ _ _ _ (by decide) (by have := pd.isLt; omega) (by have := opnd_code_lt a; omega) (by have := opnd_code_lt b; omega) (by decide) (by have := ty_code_lt ty; have := icond_code_lt cond; simp [fits, *])⟩
theorem Encoding.icmpImm (h : Head) (ty : Ty) (cond : ICond) (pd : Fin 7) (a : Opnd) (imm : BitVec 18) : Encoding.Statement (.icmpImm h ty cond pd a imm) := 
  ⟨fb_sum _ _ _ _ _ _ rfl, fb_fits _ _ _ _ _ _ (by decide) (by have := pd.isLt; omega) (by have := opnd_code_lt a; omega) (by have := imm.isLt; omega) (by have := ty_code_lt ty; have := icond_code_lt cond; simp [fits, *])⟩
theorem Encoding.sel (h : Head) (ty : Ty) (d a b : Opnd) (ps : PredSpec) : Encoding.Statement (.sel h ty d a b ps) := 
  ⟨fa_sum _ _ _ _ _ _ _ rfl, fa_fits _ _ _ _ _ _ _ (by decide) (by have := opnd_code_lt d; omega) (by have := opnd_code_lt a; omega) (by have := opnd_code_lt b; omega) (by have := predSpec_code_lt ps; omega) (by have := ty_code_lt ty; simp [fits, *])⟩
theorem Encoding.mov (h : Head) (ty : Ty) (d a : Opnd) : Encoding.Statement (.mov h ty d a) := 
  ⟨fa_sum _ _ _ _ _ _ _ rfl, fa_fits _ _ _ _ _ _ _ (by decide) (by have := opnd_code_lt d; omega) (by have := opnd_code_lt a; omega) (by decide) (by decide) (by have := ty_code_lt ty; simp [fits, *])⟩
theorem Encoding.movi (h : Head) (ty : Ty) (d : Opnd) (imm : BitVec 32) : Encoding.Statement (.movi h ty d imm) := 
  ⟨rfl, fc_fits _ _ _ _ _ (by decide) (by have := opnd_code_lt d; omega) (by have := imm.isLt; omega) (by have := ty_code_lt ty; omega)⟩
theorem Encoding.movh (h : Head) (d : Opnd) (imm : BitVec 32) : Encoding.Statement (.movh h d imm) := 
  ⟨rfl, fc_fits _ _ _ _ _ (by decide) (by have := opnd_code_lt d; omega) (by have := imm.isLt; omega) (by decide)⟩
theorem Encoding.i2i (h : Head) (dty sty : Ty) (sat : Bool) (d a : Opnd) : Encoding.Statement (.i2i h dty sty sat d a) := 
  ⟨fa_sum _ _ _ _ _ _ _ rfl, fa_fits _ _ _ _ _ _ _ (by decide) (by have := opnd_code_lt d; omega) (by have := opnd_code_lt a; omega) (by decide) (by decide) (by have := ty_code_lt dty; have := ty_code_lt sty; have := bool_lt sat; simp [fits, *])⟩
theorem Encoding.fadd (h : Head) (ty : Ty) (rm : Rm) (d a b : Opnd) : Encoding.Statement (.fadd h ty rm d a b) := 
  ⟨fa_sum _ _ _ _ _ _ _ rfl, fa_fits _ _ _ _ _ _ _ (by decide) (by have := opnd_code_lt d; omega) (by have := opnd_code_lt a; omega) (by have := opnd_code_lt b; omega) (by decide) (by have := ty_code_lt ty; have := rm_code_lt rm; simp [fits, *])⟩
theorem Encoding.faddImm (h : Head) (ty : Ty) (rm : Rm) (d a : Opnd) (imm : BitVec 18) : Encoding.Statement (.faddImm h ty rm d a imm) := 
  ⟨fb_sum _ _ _ _ _ _ rfl, fb_fits _ _ _ _ _ _ (by decide) (by have := opnd_code_lt d; omega) (by have := opnd_code_lt a; omega) (by have := imm.isLt; omega) (by have := ty_code_lt ty; have := rm_code_lt rm; simp [fits, *])⟩
theorem Encoding.fsub (h : Head) (ty : Ty) (rm : Rm) (d a b : Opnd) : Encoding.Statement (.fsub h ty rm d a b) := 
  ⟨fa_sum _ _ _ _ _ _ _ rfl, fa_fits _ _ _ _ _ _ _ (by decide) (by have := opnd_code_lt d; omega) (by have := opnd_code_lt a; omega) (by have := opnd_code_lt b; omega) (by decide) (by have := ty_code_lt ty; have := rm_code_lt rm; simp [fits, *])⟩
theorem Encoding.fmul (h : Head) (ty : Ty) (rm : Rm) (d a b : Opnd) : Encoding.Statement (.fmul h ty rm d a b) := 
  ⟨fa_sum _ _ _ _ _ _ _ rfl, fa_fits _ _ _ _ _ _ _ (by decide) (by have := opnd_code_lt d; omega) (by have := opnd_code_lt a; omega) (by have := opnd_code_lt b; omega) (by decide) (by have := ty_code_lt ty; have := rm_code_lt rm; simp [fits, *])⟩
theorem Encoding.fmulImm (h : Head) (ty : Ty) (rm : Rm) (d a : Opnd) (imm : BitVec 18) : Encoding.Statement (.fmulImm h ty rm d a imm) := 
  ⟨fb_sum _ _ _ _ _ _ rfl, fb_fits _ _ _ _ _ _ (by decide) (by have := opnd_code_lt d; omega) (by have := opnd_code_lt a; omega) (by have := imm.isLt; omega) (by have := ty_code_lt ty; have := rm_code_lt rm; simp [fits, *])⟩
theorem Encoding.ffma (h : Head) (ty : Ty) (rm : Rm) (d a b c : Opnd) : Encoding.Statement (.ffma h ty rm d a b c) := 
  ⟨fa_sum _ _ _ _ _ _ _ rfl, fa_fits _ _ _ _ _ _ _ (by decide) (by have := opnd_code_lt d; omega) (by have := opnd_code_lt a; omega) (by have := opnd_code_lt b; omega) (by have := opnd_code_lt c; omega) (by have := ty_code_lt ty; have := rm_code_lt rm; simp [fits, *])⟩
theorem Encoding.fmin (h : Head) (ty : Ty) (d a b : Opnd) : Encoding.Statement (.fmin h ty d a b) := 
  ⟨fa_sum _ _ _ _ _ _ _ rfl, fa_fits _ _ _ _ _ _ _ (by decide) (by have := opnd_code_lt d; omega) (by have := opnd_code_lt a; omega) (by have := opnd_code_lt b; omega) (by decide) (by have := ty_code_lt ty; simp [fits, *])⟩
theorem Encoding.fminImm (h : Head) (ty : Ty) (d a : Opnd) (imm : BitVec 18) : Encoding.Statement (.fminImm h ty d a imm) := 
  ⟨fb_sum _ _ _ _ _ _ rfl, fb_fits _ _ _ _ _ _ (by decide) (by have := opnd_code_lt d; omega) (by have := opnd_code_lt a; omega) (by have := imm.isLt; omega) (by have := ty_code_lt ty; simp [fits, *])⟩
theorem Encoding.fmax (h : Head) (ty : Ty) (d a b : Opnd) : Encoding.Statement (.fmax h ty d a b) := 
  ⟨fa_sum _ _ _ _ _ _ _ rfl, fa_fits _ _ _ _ _ _ _ (by decide) (by have := opnd_code_lt d; omega) (by have := opnd_code_lt a; omega) (by have := opnd_code_lt b; omega) (by decide) (by have := ty_code_lt ty; simp [fits, *])⟩
theorem Encoding.fmaxImm (h : Head) (ty : Ty) (d a : Opnd) (imm : BitVec 18) : Encoding.Statement (.fmaxImm h ty d a imm) := 
  ⟨fb_sum _ _ _ _ _ _ rfl, fb_fits _ _ _ _ _ _ (by decide) (by have := opnd_code_lt d; omega) (by have := opnd_code_lt a; omega) (by have := imm.isLt; omega) (by have := ty_code_lt ty; simp [fits, *])⟩
theorem Encoding.fcmp (h : Head) (ty : Ty) (cond : FCond) (pd : Fin 7) (a b : Opnd) : Encoding.Statement (.fcmp h ty cond pd a b) := 
  ⟨fa_sum _ _ _ _ _ _ _ rfl, fa_fits _ _ _ _ _ _ _ (by decide) (by have := pd.isLt; omega) (by have := opnd_code_lt a; omega) (by have := opnd_code_lt b; omega) (by decide) (by have := ty_code_lt ty; have := fcond_code_lt cond; simp [fits, *])⟩
theorem Encoding.fcmpImm (h : Head) (ty : Ty) (cond : FCond) (pd : Fin 7) (a : Opnd) (imm : BitVec 18) : Encoding.Statement (.fcmpImm h ty cond pd a imm) := 
  ⟨fb_sum _ _ _ _ _ _ rfl, fb_fits _ _ _ _ _ _ (by decide) (by have := pd.isLt; omega) (by have := opnd_code_lt a; omega) (by have := imm.isLt; omega) (by have := ty_code_lt ty; have := fcond_code_lt cond; simp [fits, *])⟩
theorem Encoding.fclass (h : Head) (ty : Ty) (d a : Opnd) : Encoding.Statement (.fclass h ty d a) := 
  ⟨fa_sum _ _ _ _ _ _ _ rfl, fa_fits _ _ _ _ _ _ _ (by decide) (by have := opnd_code_lt d; omega) (by have := opnd_code_lt a; omega) (by decide) (by decide) (by have := ty_code_lt ty; simp [fits, *])⟩
theorem Encoding.frcp (h : Head) (ty : Ty) (d a : Opnd) : Encoding.Statement (.frcp h ty d a) := 
  ⟨fa_sum _ _ _ _ _ _ _ rfl, fa_fits _ _ _ _ _ _ _ (by decide) (by have := opnd_code_lt d; omega) (by have := opnd_code_lt a; omega) (by decide) (by decide) (by have := ty_code_lt ty; simp [fits, *])⟩
theorem Encoding.frsq (h : Head) (ty : Ty) (d a : Opnd) : Encoding.Statement (.frsq h ty d a) := 
  ⟨fa_sum _ _ _ _ _ _ _ rfl, fa_fits _ _ _ _ _ _ _ (by decide) (by have := opnd_code_lt d; omega) (by have := opnd_code_lt a; omega) (by decide) (by decide) (by have := ty_code_lt ty; simp [fits, *])⟩
theorem Encoding.fsqrt (h : Head) (ty : Ty) (d a : Opnd) : Encoding.Statement (.fsqrt h ty d a) := 
  ⟨fa_sum _ _ _ _ _ _ _ rfl, fa_fits _ _ _ _ _ _ _ (by decide) (by have := opnd_code_lt d; omega) (by have := opnd_code_lt a; omega) (by decide) (by decide) (by have := ty_code_lt ty; simp [fits, *])⟩
theorem Encoding.fexp2 (h : Head) (ty : Ty) (d a : Opnd) : Encoding.Statement (.fexp2 h ty d a) := 
  ⟨fa_sum _ _ _ _ _ _ _ rfl, fa_fits _ _ _ _ _ _ _ (by decide) (by have := opnd_code_lt d; omega) (by have := opnd_code_lt a; omega) (by decide) (by decide) (by have := ty_code_lt ty; simp [fits, *])⟩
theorem Encoding.flog2 (h : Head) (ty : Ty) (d a : Opnd) : Encoding.Statement (.flog2 h ty d a) := 
  ⟨fa_sum _ _ _ _ _ _ _ rfl, fa_fits _ _ _ _ _ _ _ (by decide) (by have := opnd_code_lt d; omega) (by have := opnd_code_lt a; omega) (by decide) (by decide) (by have := ty_code_lt ty; simp [fits, *])⟩
theorem Encoding.fsin (h : Head) (ty : Ty) (d a : Opnd) : Encoding.Statement (.fsin h ty d a) := 
  ⟨fa_sum _ _ _ _ _ _ _ rfl, fa_fits _ _ _ _ _ _ _ (by decide) (by have := opnd_code_lt d; omega) (by have := opnd_code_lt a; omega) (by decide) (by decide) (by have := ty_code_lt ty; simp [fits, *])⟩
theorem Encoding.fcos (h : Head) (ty : Ty) (d a : Opnd) : Encoding.Statement (.fcos h ty d a) := 
  ⟨fa_sum _ _ _ _ _ _ _ rfl, fa_fits _ _ _ _ _ _ _ (by decide) (by have := opnd_code_lt d; omega) (by have := opnd_code_lt a; omega) (by decide) (by decide) (by have := ty_code_lt ty; simp [fits, *])⟩
theorem Encoding.fdiv (h : Head) (ty : Ty) (rm : Rm) (d a b : Opnd) : Encoding.Statement (.fdiv h ty rm d a b) := 
  ⟨fa_sum _ _ _ _ _ _ _ rfl, fa_fits _ _ _ _ _ _ _ (by decide) (by have := opnd_code_lt d; omega) (by have := opnd_code_lt a; omega) (by have := opnd_code_lt b; omega) (by decide) (by have := ty_code_lt ty; have := rm_code_lt rm; simp [fits, *])⟩
theorem Encoding.frnd (h : Head) (ty : Ty) (rm : Rm) (d a : Opnd) : Encoding.Statement (.frnd h ty rm d a) := 
  ⟨fa_sum _ _ _ _ _ _ _ rfl, fa_fits _ _ _ _ _ _ _ (by decide) (by have := opnd_code_lt d; omega) (by have := opnd_code_lt a; omega) (by decide) (by have := rm_code_lt rm; omega) (by have := ty_code_lt ty; simp [fits, *])⟩
theorem Encoding.f2f (h : Head) (dty sty : Ty) (sat : Bool) (rm : Rm) (d a : Opnd) : Encoding.Statement (.f2f h dty sty sat rm d a) := 
  ⟨fa_sum _ _ _ _ _ _ _ rfl, fa_fits _ _ _ _ _ _ _ (by decide) (by have := opnd_code_lt d; omega) (by have := opnd_code_lt a; omega) (by decide) (by have := rm_code_lt rm; omega) (by have := ty_code_lt dty; have := ty_code_lt sty; have := bool_lt sat; simp [fits, *])⟩
theorem Encoding.f2i (h : Head) (dty sty : Ty) (sat : Bool) (rm : Rm) (d a : Opnd) : Encoding.Statement (.f2i h dty sty sat rm d a) := 
  ⟨fa_sum _ _ _ _ _ _ _ rfl, fa_fits _ _ _ _ _ _ _ (by decide) (by have := opnd_code_lt d; omega) (by have := opnd_code_lt a; omega) (by decide) (by have := rm_code_lt rm; omega) (by have := ty_code_lt dty; have := ty_code_lt sty; have := bool_lt sat; simp [fits, *])⟩
theorem Encoding.i2f (h : Head) (dty sty : Ty) (rm : Rm) (d a : Opnd) : Encoding.Statement (.i2f h dty sty rm d a) := 
  ⟨fa_sum _ _ _ _ _ _ _ rfl, fa_fits _ _ _ _ _ _ _ (by decide) (by have := opnd_code_lt d; omega) (by have := opnd_code_lt a; omega) (by decide) (by have := rm_code_lt rm; omega) (by have := ty_code_lt dty; have := ty_code_lt sty; simp [fits, *])⟩
theorem Encoding.fdot2 (h : Head) (ty : Ty) (rm : Rm) (d a b c : Opnd) : Encoding.Statement (.fdot2 h ty rm d a b c) := 
  ⟨fa_sum _ _ _ _ _ _ _ rfl, fa_fits _ _ _ _ _ _ _ (by decide) (by have := opnd_code_lt d; omega) (by have := opnd_code_lt a; omega) (by have := opnd_code_lt b; omega) (by have := opnd_code_lt c; omega) (by have := ty_code_lt ty; have := rm_code_lt rm; simp [fits, *])⟩
theorem Encoding.bcvt (h : Head) (fmt : Bfmt) (rm : Rm) (d a : Opnd) : Encoding.Statement (.bcvt h fmt rm d a) := 
  ⟨fa_sum _ _ _ _ _ _ _ rfl, fa_fits _ _ _ _ _ _ _ (by decide) (by have := opnd_code_lt d; omega) (by have := opnd_code_lt a; omega) (by decide) (by decide) (by have := bfmt_code_lt fmt; have := rm_code_lt rm; simp [fits, *])⟩
theorem Encoding.bdot (h : Head) (fmt : Bfmt) (d a b c : Opnd) : Encoding.Statement (.bdot h fmt d a b c) := 
  ⟨fa_sum _ _ _ _ _ _ _ rfl, fa_fits _ _ _ _ _ _ _ (by decide) (by have := opnd_code_lt d; omega) (by have := opnd_code_lt a; omega) (by have := opnd_code_lt b; omega) (by have := opnd_code_lt c; omega) (by have := bfmt_code_lt fmt; simp [fits, *])⟩
theorem Encoding.bunp (h : Head) (fmt : Bfmt) (d a : Opnd) : Encoding.Statement (.bunp h fmt d a) := 
  ⟨fa_sum _ _ _ _ _ _ _ rfl, fa_fits _ _ _ _ _ _ _ (by decide) (by have := opnd_code_lt d; omega) (by have := opnd_code_lt a; omega) (by decide) (by decide) (by have := bfmt_code_lt fmt; simp [fits, *])⟩
theorem Encoding.rand (h : Head) (ty : Ty) (d : Opnd) : Encoding.Statement (.rand h ty d) := 
  ⟨fa_sum _ _ _ _ _ _ _ rfl, fa_fits _ _ _ _ _ _ _ (by decide) (by have := opnd_code_lt d; omega) (by decide) (by decide) (by decide) (by have := ty_code_lt ty; simp [fits, *])⟩
theorem Encoding.vxor (h : Head) (d a : Opnd) (k : Fin 32) : Encoding.Statement (.vxor h d a k) := 
  ⟨fb_sum _ _ _ _ _ _ rfl, fb_fits _ _ _ _ _ _ (by decide) (by have := opnd_code_lt d; omega) (by have := opnd_code_lt a; omega) (by have := k.isLt; omega) (by decide)⟩
theorem Encoding.vrot (h : Head) (g : Fin 8) (d a : Opnd) (k : Fin 32) : Encoding.Statement (.vrot h g d a k) := 
  ⟨fb_sum _ _ _ _ _ _ rfl, fb_fits _ _ _ _ _ _ (by decide) (by have := opnd_code_lt d; omega) (by have := opnd_code_lt a; omega) (by omega) (by decide)⟩
theorem Encoding.vrev (h : Head) (g : Fin 8) (d a : Opnd) (k : Fin 32) : Encoding.Statement (.vrev h g d a k) := 
  ⟨fb_sum _ _ _ _ _ _ rfl, fb_fits _ _ _ _ _ _ (by decide) (by have := opnd_code_lt d; omega) (by have := opnd_code_lt a; omega) (by omega) (by decide)⟩
theorem Encoding.vbcast (h : Head) (g : Fin 8) (d a : Opnd) (k : Fin 32) : Encoding.Statement (.vbcast h g d a k) := 
  ⟨fb_sum _ _ _ _ _ _ rfl, fb_fits _ _ _ _ _ _ (by decide) (by have := opnd_code_lt d; omega) (by have := opnd_code_lt a; omega) (by omega) (by decide)⟩
theorem Encoding.vshuf (h : Head) (d a b : Opnd) : Encoding.Statement (.vshuf h d a b) := 
  ⟨fa_sum _ _ _ _ _ _ _ rfl, fa_fits _ _ _ _ _ _ _ (by decide) (by have := opnd_code_lt d; omega) (by have := opnd_code_lt a; omega) (by have := opnd_code_lt b; omega) (by decide) (by decide)⟩
theorem Encoding.vtrn (h : Head) (g : Fin 8) (d a : Opnd) : Encoding.Statement (.vtrn h g d a) := 
  ⟨fa_sum _ _ _ _ _ _ _ rfl, fa_fits _ _ _ _ _ _ _ (by decide) (by have := opnd_code_lt d; omega) (by have := opnd_code_lt a; omega) (by decide) (by decide) (by have := g.isLt; simp [fits, *])⟩
theorem Encoding.vcompact (h : Head) (d a : Opnd) (ps : PredSpec) (sc : Option (Fin 64)) : Encoding.Statement (.vcompact h d a ps sc) := 
  ⟨fa_sum _ _ _ _ _ _ _ rfl, fa_fits _ _ _ _ _ _ _ (by decide) (by have := opnd_code_lt d; omega) (by have := opnd_code_lt a; omega) (by have := predSpec_code_lt ps; omega) (by have := optS_lt sc; omega) (by decide)⟩
theorem Encoding.vexpand (h : Head) (d a : Opnd) (ps : PredSpec) : Encoding.Statement (.vexpand h d a ps) := 
  ⟨fa_sum _ _ _ _ _ _ _ rfl, fa_fits _ _ _ _ _ _ _ (by decide) (by have := opnd_code_lt d; omega) (by have := opnd_code_lt a; omega) (by have := predSpec_code_lt ps; omega) (by decide) (by decide)⟩
theorem Encoding.vfire (h : Head) (d a : Opnd) : Encoding.Statement (.vfire h d a) := 
  ⟨fa_sum _ _ _ _ _ _ _ rfl, fa_fits _ _ _ _ _ _ _ (by decide) (by have := opnd_code_lt d; omega) (by have := opnd_code_lt a; omega) (by decide) (by decide) (by decide)⟩
theorem Encoding.vmaprd (h : Head) (form : Bool) (d a : Opnd) : Encoding.Statement (.vmaprd h form d a) := 
  ⟨fa_sum _ _ _ _ _ _ _ rfl, fa_fits _ _ _ _ _ _ _ (by decide) (by have := opnd_code_lt d; omega) (by have := opnd_code_lt a; omega) (by decide) (by decide) (by have := bool_lt form; simp [fits, *])⟩
theorem Encoding.vfirst (h : Head) (ty : Ty) (d a : Opnd) : Encoding.Statement (.vfirst h ty d a) := 
  ⟨fa_sum _ _ _ _ _ _ _ rfl, fa_fits _ _ _ _ _ _ _ (by decide) (by have := opnd_code_lt d; omega) (by have := opnd_code_lt a; omega) (by decide) (by decide) (by have := ty_code_lt ty; simp [fits, *])⟩
theorem Encoding.vballot (h : Head) (d : Opnd) (ps : PredSpec) : Encoding.Statement (.vballot h d ps) := 
  ⟨fa_sum _ _ _ _ _ _ _ rfl, fa_fits _ _ _ _ _ _ _ (by decide) (by have := opnd_code_lt d; omega) (by have := predSpec_code_lt ps; omega) (by decide) (by decide) (by decide)⟩
theorem Encoding.vany (h : Head) (pd : Fin 7) (ps : PredSpec) : Encoding.Statement (.vany h pd ps) := 
  ⟨fa_sum _ _ _ _ _ _ _ rfl, fa_fits _ _ _ _ _ _ _ (by decide) (by have := pd.isLt; omega) (by have := predSpec_code_lt ps; omega) (by decide) (by decide) (by decide)⟩
theorem Encoding.vall (h : Head) (pd : Fin 7) (ps : PredSpec) : Encoding.Statement (.vall h pd ps) := 
  ⟨fa_sum _ _ _ _ _ _ _ rfl, fa_fits _ _ _ _ _ _ _ (by decide) (by have := pd.isLt; omega) (by have := predSpec_code_lt ps; omega) (by decide) (by decide) (by decide)⟩
theorem Encoding.vmatch (h : Head) (ty : Ty) (d a : Opnd) : Encoding.Statement (.vmatch h ty d a) := 
  ⟨fa_sum _ _ _ _ _ _ _ rfl, fa_fits _ _ _ _ _ _ _ (by decide) (by have := opnd_code_lt d; omega) (by have := opnd_code_lt a; omega) (by decide) (by decide) (by have := ty_code_lt ty; simp [fits, *])⟩
theorem Encoding.vactive (h : Head) (d : Opnd) : Encoding.Statement (.vactive h d) := 
  ⟨fa_sum _ _ _ _ _ _ _ rfl, fa_fits _ _ _ _ _ _ _ (by decide) (by have := opnd_code_lt d; omega) (by decide) (by decide) (by decide) (by decide)⟩
theorem Encoding.vred (h : Head) (ty : Ty) (op : RedOp) (d a : Opnd) : Encoding.Statement (.vred h ty op d a) := 
  ⟨fa_sum _ _ _ _ _ _ _ rfl, fa_fits _ _ _ _ _ _ _ (by decide) (by have := opnd_code_lt d; omega) (by have := opnd_code_lt a; omega) (by decide) (by decide) (by have := ty_code_lt ty; have := redop_code_lt op; simp [fits, *])⟩
theorem Encoding.vscan (h : Head) (ty : Ty) (op : RedOp) (excl : Bool) (d a : Opnd) : Encoding.Statement (.vscan h ty op excl d a) := 
  ⟨fa_sum _ _ _ _ _ _ _ rfl, fa_fits _ _ _ _ _ _ _ (by decide) (by have := opnd_code_lt d; omega) (by have := opnd_code_lt a; omega) (by decide) (by decide) (by have := ty_code_lt ty; have := redop_code_lt op; have := bool_lt excl; simp [fits, *])⟩
theorem Encoding.vsegred (h : Head) (ty : Ty) (op : RedOp) (d a : Opnd) (ps : PredSpec) : Encoding.Statement (.vsegred h ty op d a ps) := 
  ⟨fa_sum _ _ _ _ _ _ _ rfl, fa_fits _ _ _ _ _ _ _ (by decide) (by have := opnd_code_lt d; omega) (by have := opnd_code_lt a; omega) (by have := predSpec_code_lt ps; omega) (by decide) (by have := ty_code_lt ty; have := redop_code_lt op; simp [fits, *])⟩
theorem Encoding.vsort (h : Head) (ty : Ty) (asc move : Bool) (d a : Opnd) (ci : Option (Fin 320)) : Encoding.Statement (.vsort h ty asc move d a ci) := 
  ⟨fa_sum _ _ _ _ _ _ _ rfl, fa_fits _ _ _ _ _ _ _ (by decide) (by have := opnd_code_lt d; omega) (by have := opnd_code_lt a; omega) (by decide) (by have := optV_lt ci; omega) (by have := ty_code_lt ty; have := bool_lt asc; have := bool_lt move; have := bool_lt ci.isSome; simp [fits, *])⟩
theorem Encoding.vtopk (h : Head) (ty : Ty) (asc : Bool) (d a k : Opnd) (ci : Fin 320) : Encoding.Statement (.vtopk h ty asc d a k ci) := 
  ⟨fa_sum _ _ _ _ _ _ _ rfl, fa_fits _ _ _ _ _ _ _ (by decide) (by have := opnd_code_lt d; omega) (by have := opnd_code_lt a; omega) (by have := opnd_code_lt k; omega) (by have := ci.isLt; omega) (by have := ty_code_lt ty; have := bool_lt asc; simp [fits, *])⟩
theorem Encoding.vtopkMulti (h : Head) (ty : Ty) (asc : Bool) (m : Fin 8) (d a k : Opnd) (ci : Fin 320) : Encoding.Statement (.vtopkMulti h ty asc m d a k ci) := 
  ⟨fa_sum _ _ _ _ _ _ _ rfl, fa_fits _ _ _ _ _ _ _ (by decide) (by have := opnd_code_lt d; omega) (by have := opnd_code_lt a; omega) (by have := opnd_code_lt k; omega) (by have := ci.isLt; omega) (by have := ty_code_lt ty; have := m.isLt; have := bool_lt asc; simp [fits, *])⟩
theorem Encoding.vbin (h : Head) (sn : Fin 64) (d a : Opnd) (ps : PredSpec) (nb : Opnd) : Encoding.Statement (.vbin h sn d a ps nb) := 
  ⟨fa_sum _ _ _ _ _ _ _ rfl, fa_fits _ _ _ _ _ _ _ (by decide) (by have := opnd_code_lt d; omega) (by have := opnd_code_lt a; omega) (by have := predSpec_code_lt ps; omega) (by have := opnd_code_lt nb; omega) (by have := sn.isLt; simp [fits, *])⟩
theorem Encoding.ld (h : Head) (ty : Ty) (sc : Scope) (hint : Hint) (d base : Opnd) (off : BitVec 18) : Encoding.Statement (.ld h ty sc hint d base off) := 
  ⟨fb_sum _ _ _ _ _ _ rfl, fb_fits _ _ _ _ _ _ (by decide) (by have := opnd_code_lt d; omega) (by have := opnd_code_lt base; omega) (by have := off.isLt; omega) (by have := ty_code_lt ty; have := hint_code_lt hint; have := scope_code_lt sc; simp [fits, *])⟩
theorem Encoding.ldIdx (h : Head) (ty : Ty) (sc : Scope) (hint : Hint) (d base idx : Opnd) (sh : Fin 4) (disp : BitVec 7) : Encoding.Statement (.ldIdx h ty sc hint d base idx sh disp) := 
  ⟨fmx_sum _ _ _ _ _ _ _ _ rfl, fmx_fits _ _ _ _ _ _ _ _ (by decide) (by have := opnd_code_lt d; omega) (by have := opnd_code_lt base; omega) (by have := opnd_code_lt idx; omega) (by have := sh.isLt; omega) (by have := disp.isLt; omega) (by have := ty_code_lt ty; have := hint_code_lt hint; have := scope_code_lt sc; simp [fits, *])⟩
theorem Encoding.st (h : Head) (ty : Ty) (sc : Scope) (hint : Hint) (data base : Opnd) (off : BitVec 18) : Encoding.Statement (.st h ty sc hint data base off) := 
  ⟨fb_sum _ _ _ _ _ _ rfl, fb_fits _ _ _ _ _ _ (by decide) (by have := opnd_code_lt data; omega) (by have := opnd_code_lt base; omega) (by have := off.isLt; omega) (by have := ty_code_lt ty; have := hint_code_lt hint; have := scope_code_lt sc; simp [fits, *])⟩
theorem Encoding.stIdx (h : Head) (ty : Ty) (sc : Scope) (hint : Hint) (data base idx : Opnd) (sh : Fin 4) (disp : BitVec 7) : Encoding.Statement (.stIdx h ty sc hint data base idx sh disp) := 
  ⟨fmx_sum _ _ _ _ _ _ _ _ rfl, fmx_fits _ _ _ _ _ _ _ _ (by decide) (by have := opnd_code_lt data; omega) (by have := opnd_code_lt base; omega) (by have := opnd_code_lt idx; omega) (by have := sh.isLt; omega) (by have := disp.isLt; omega) (by have := ty_code_lt ty; have := hint_code_lt hint; have := scope_code_lt sc; simp [fits, *])⟩
theorem Encoding.ldx (h : Head) (ty : Ty) (nreg : Fin 8) (sc : Scope) (hint : Hint) (d base : Opnd) (off : BitVec 15) : Encoding.Statement (.ldx h ty nreg sc hint d base off) := 
  ⟨fx_sum _ _ _ _ _ rfl, fx_fits _ _ _ _ _ (by decide) (by have := opnd_code_lt d; omega) (by have := opnd_code_lt base; omega) (by have := off.isLt; have := ty_code_lt ty; have := hint_code_lt hint; have := scope_code_lt sc; have := nreg.isLt; simp [fits, *])⟩
theorem Encoding.stx (h : Head) (ty : Ty) (nreg : Fin 8) (sc : Scope) (hint : Hint) (data base : Opnd) (off : BitVec 15) : Encoding.Statement (.stx h ty nreg sc hint data base off) := 
  ⟨fx_sum _ _ _ _ _ rfl, fx_fits _ _ _ _ _ (by decide) (by have := opnd_code_lt data; omega) (by have := opnd_code_lt base; omega) (by have := off.isLt; have := ty_code_lt ty; have := hint_code_lt hint; have := scope_code_lt sc; have := nreg.isLt; simp [fits, *])⟩
theorem Encoding.ldrec (h : Head) (fmt : Bfmt) (sc : Scope) (hint : Hint) (d base : Opnd) (off : BitVec 18) : Encoding.Statement (.ldrec h fmt sc hint d base off) := 
  ⟨fb_sum _ _ _ _ _ _ rfl, fb_fits _ _ _ _ _ _ (by decide) (by have := opnd_code_lt d; omega) (by have := opnd_code_lt base; omega) (by have := off.isLt; omega) (by have := bfmt_code_lt fmt; have := hint_code_lt hint; have := scope_code_lt sc; simp [fits, *])⟩
theorem Encoding.ststash (h : Head) (ty : Ty) (sc : Scope) (hint : Hint) (data base : Opnd) (off : BitVec 18) : Encoding.Statement (.ststash h ty sc hint data base off) := 
  ⟨fb_sum _ _ _ _ _ _ rfl, fb_fits _ _ _ _ _ _ (by decide) (by have := opnd_code_lt data; omega) (by have := opnd_code_lt base; omega) (by have := off.isLt; omega) (by have := ty_code_lt ty; have := hint_code_lt hint; have := scope_code_lt sc; simp [fits, *])⟩
theorem Encoding.prefetch (h : Head) (sc : Scope) (hint : Hint) (base : Opnd) (off : BitVec 18) : Encoding.Statement (.prefetch h sc hint base off) := 
  ⟨fb_sum _ _ _ _ _ _ rfl, fb_fits _ _ _ _ _ _ (by decide) (by decide) (by have := opnd_code_lt base; omega) (by have := off.isLt; omega) (by have := hint_code_lt hint; have := scope_code_lt sc; simp [fits, *])⟩
theorem Encoding.prefetchIdx (h : Head) (sc : Scope) (hint : Hint) (base idx : Opnd) (sh : Fin 4) (disp : BitVec 7) : Encoding.Statement (.prefetchIdx h sc hint base idx sh disp) := 
  ⟨fmx_sum _ _ _ _ _ _ _ _ rfl, fmx_fits _ _ _ _ _ _ _ _ (by decide) (by decide) (by have := opnd_code_lt base; omega) (by have := opnd_code_lt idx; omega) (by have := sh.isLt; omega) (by have := disp.isLt; omega) (by have := hint_code_lt hint; have := scope_code_lt sc; simp [fits, *])⟩
theorem Encoding.cflush (h : Head) (sc : Scope) (hint : Hint) (base : Opnd) (off : BitVec 18) : Encoding.Statement (.cflush h sc hint base off) := 
  ⟨fb_sum _ _ _ _ _ _ rfl, fb_fits _ _ _ _ _ _ (by decide) (by decide) (by have := opnd_code_lt base; omega) (by have := off.isLt; omega) (by have := hint_code_lt hint; have := scope_code_lt sc; simp [fits, *])⟩
theorem Encoding.cinv (h : Head) (sc : Scope) (hint : Hint) (base : Opnd) (off : BitVec 18) : Encoding.Statement (.cinv h sc hint base off) := 
  ⟨fb_sum _ _ _ _ _ _ rfl, fb_fits _ _ _ _ _ _ (by decide) (by decide) (by have := opnd_code_lt base; omega) (by have := off.isLt; omega) (by have := hint_code_lt hint; have := scope_code_lt sc; simp [fits, *])⟩
theorem Encoding.cdemote (h : Head) (sc : Scope) (base : Opnd) (off : BitVec 18) : Encoding.Statement (.cdemote h sc base off) := 
  ⟨fb_sum _ _ _ _ _ _ rfl, fb_fits _ _ _ _ _ _ (by decide) (by decide) (by have := opnd_code_lt base; omega) (by have := off.isLt; omega) (by have := scope_code_lt sc; simp [fits, *])⟩
theorem Encoding.atomAdd (h : Head) (ty : Ty) (sc : Scope) (hint : Hint) (d a b : Opnd) (cb : Option (Fin 64)) : Encoding.Statement (.atomAdd h ty sc hint d a b cb) := 
  ⟨fa_sum _ _ _ _ _ _ _ rfl, fa_fits _ _ _ _ _ _ _ (by decide) (by have := opnd_code_lt d; omega) (by have := opnd_code_lt a; omega) (by have := opnd_code_lt b; omega) (by have := optS_lt cb; omega) (by have := ty_code_lt ty; have := hint_code_lt hint; have := scope_code_lt sc; simp [fits, *])⟩
theorem Encoding.atomMin (h : Head) (ty : Ty) (sc : Scope) (hint : Hint) (d a b : Opnd) (cb : Option (Fin 64)) : Encoding.Statement (.atomMin h ty sc hint d a b cb) := 
  ⟨fa_sum _ _ _ _ _ _ _ rfl, fa_fits _ _ _ _ _ _ _ (by decide) (by have := opnd_code_lt d; omega) (by have := opnd_code_lt a; omega) (by have := opnd_code_lt b; omega) (by have := optS_lt cb; omega) (by have := ty_code_lt ty; have := hint_code_lt hint; have := scope_code_lt sc; simp [fits, *])⟩
theorem Encoding.atomMax (h : Head) (ty : Ty) (sc : Scope) (hint : Hint) (d a b : Opnd) (cb : Option (Fin 64)) : Encoding.Statement (.atomMax h ty sc hint d a b cb) := 
  ⟨fa_sum _ _ _ _ _ _ _ rfl, fa_fits _ _ _ _ _ _ _ (by decide) (by have := opnd_code_lt d; omega) (by have := opnd_code_lt a; omega) (by have := opnd_code_lt b; omega) (by have := optS_lt cb; omega) (by have := ty_code_lt ty; have := hint_code_lt hint; have := scope_code_lt sc; simp [fits, *])⟩
theorem Encoding.atomAnd (h : Head) (ty : Ty) (sc : Scope) (hint : Hint) (d a b : Opnd) (cb : Option (Fin 64)) : Encoding.Statement (.atomAnd h ty sc hint d a b cb) := 
  ⟨fa_sum _ _ _ _ _ _ _ rfl, fa_fits _ _ _ _ _ _ _ (by decide) (by have := opnd_code_lt d; omega) (by have := opnd_code_lt a; omega) (by have := opnd_code_lt b; omega) (by have := optS_lt cb; omega) (by have := ty_code_lt ty; have := hint_code_lt hint; have := scope_code_lt sc; simp [fits, *])⟩
theorem Encoding.atomOr (h : Head) (ty : Ty) (sc : Scope) (hint : Hint) (d a b : Opnd) (cb : Option (Fin 64)) : Encoding.Statement (.atomOr h ty sc hint d a b cb) := 
  ⟨fa_sum _ _ _ _ _ _ _ rfl, fa_fits _ _ _ _ _ _ _ (by decide) (by have := opnd_code_lt d; omega) (by have := opnd_code_lt a; omega) (by have := opnd_code_lt b; omega) (by have := optS_lt cb; omega) (by have := ty_code_lt ty; have := hint_code_lt hint; have := scope_code_lt sc; simp [fits, *])⟩
theorem Encoding.atomXor (h : Head) (ty : Ty) (sc : Scope) (hint : Hint) (d a b : Opnd) (cb : Option (Fin 64)) : Encoding.Statement (.atomXor h ty sc hint d a b cb) := 
  ⟨fa_sum _ _ _ _ _ _ _ rfl, fa_fits _ _ _ _ _ _ _ (by decide) (by have := opnd_code_lt d; omega) (by have := opnd_code_lt a; omega) (by have := opnd_code_lt b; omega) (by have := optS_lt cb; omega) (by have := ty_code_lt ty; have := hint_code_lt hint; have := scope_code_lt sc; simp [fits, *])⟩
theorem Encoding.atomExch (h : Head) (ty : Ty) (sc : Scope) (hint : Hint) (d a b : Opnd) (cb : Option (Fin 64)) : Encoding.Statement (.atomExch h ty sc hint d a b cb) := 
  ⟨fa_sum _ _ _ _ _ _ _ rfl, fa_fits _ _ _ _ _ _ _ (by decide) (by have := opnd_code_lt d; omega) (by have := opnd_code_lt a; omega) (by have := opnd_code_lt b; omega) (by have := optS_lt cb; omega) (by have := ty_code_lt ty; have := hint_code_lt hint; have := scope_code_lt sc; simp [fits, *])⟩
theorem Encoding.atomcas (h : Head) (ty : Ty) (sc : Scope) (hint : Hint) (d a b c : Opnd) : Encoding.Statement (.atomcas h ty sc hint d a b c) := 
  ⟨fa_sum _ _ _ _ _ _ _ rfl, fa_fits _ _ _ _ _ _ _ (by decide) (by have := opnd_code_lt d; omega) (by have := opnd_code_lt a; omega) (by have := opnd_code_lt b; omega) (by have := opnd_code_lt c; omega) (by have := ty_code_lt ty; have := hint_code_lt hint; have := scope_code_lt sc; simp [fits, *])⟩
theorem Encoding.redAdd (h : Head) (ty : Ty) (sc : Scope) (hint : Hint) (a b : Opnd) (cb : Option (Fin 64)) : Encoding.Statement (.redAdd h ty sc hint a b cb) := 
  ⟨fa_sum _ _ _ _ _ _ _ rfl, fa_fits _ _ _ _ _ _ _ (by decide) (by decide) (by have := opnd_code_lt a; omega) (by have := opnd_code_lt b; omega) (by have := optS_lt cb; omega) (by have := ty_code_lt ty; have := hint_code_lt hint; have := scope_code_lt sc; simp [fits, *])⟩
theorem Encoding.redMin (h : Head) (ty : Ty) (sc : Scope) (hint : Hint) (a b : Opnd) (cb : Option (Fin 64)) : Encoding.Statement (.redMin h ty sc hint a b cb) := 
  ⟨fa_sum _ _ _ _ _ _ _ rfl, fa_fits _ _ _ _ _ _ _ (by decide) (by decide) (by have := opnd_code_lt a; omega) (by have := opnd_code_lt b; omega) (by have := optS_lt cb; omega) (by have := ty_code_lt ty; have := hint_code_lt hint; have := scope_code_lt sc; simp [fits, *])⟩
theorem Encoding.redMax (h : Head) (ty : Ty) (sc : Scope) (hint : Hint) (a b : Opnd) (cb : Option (Fin 64)) : Encoding.Statement (.redMax h ty sc hint a b cb) := 
  ⟨fa_sum _ _ _ _ _ _ _ rfl, fa_fits _ _ _ _ _ _ _ (by decide) (by decide) (by have := opnd_code_lt a; omega) (by have := opnd_code_lt b; omega) (by have := optS_lt cb; omega) (by have := ty_code_lt ty; have := hint_code_lt hint; have := scope_code_lt sc; simp [fits, *])⟩
theorem Encoding.redAnd (h : Head) (ty : Ty) (sc : Scope) (hint : Hint) (a b : Opnd) (cb : Option (Fin 64)) : Encoding.Statement (.redAnd h ty sc hint a b cb) := 
  ⟨fa_sum _ _ _ _ _ _ _ rfl, fa_fits _ _ _ _ _ _ _ (by decide) (by decide) (by have := opnd_code_lt a; omega) (by have := opnd_code_lt b; omega) (by have := optS_lt cb; omega) (by have := ty_code_lt ty; have := hint_code_lt hint; have := scope_code_lt sc; simp [fits, *])⟩
theorem Encoding.redOr (h : Head) (ty : Ty) (sc : Scope) (hint : Hint) (a b : Opnd) (cb : Option (Fin 64)) : Encoding.Statement (.redOr h ty sc hint a b cb) := 
  ⟨fa_sum _ _ _ _ _ _ _ rfl, fa_fits _ _ _ _ _ _ _ (by decide) (by decide) (by have := opnd_code_lt a; omega) (by have := opnd_code_lt b; omega) (by have := optS_lt cb; omega) (by have := ty_code_lt ty; have := hint_code_lt hint; have := scope_code_lt sc; simp [fits, *])⟩
theorem Encoding.redXor (h : Head) (ty : Ty) (sc : Scope) (hint : Hint) (a b : Opnd) (cb : Option (Fin 64)) : Encoding.Statement (.redXor h ty sc hint a b cb) := 
  ⟨fa_sum _ _ _ _ _ _ _ rfl, fa_fits _ _ _ _ _ _ _ (by decide) (by decide) (by have := opnd_code_lt a; omega) (by have := opnd_code_lt b; omega) (by have := optS_lt cb; omega) (by have := ty_code_lt ty; have := hint_code_lt hint; have := scope_code_lt sc; simp [fits, *])⟩
theorem Encoding.scadd (h : Head) (ty : Ty) (sc : Scope) (a b : Opnd) (cb : Option (Fin 64)) : Encoding.Statement (.scadd h ty sc a b cb) := 
  ⟨fa_sum _ _ _ _ _ _ _ rfl, fa_fits _ _ _ _ _ _ _ (by decide) (by decide) (by have := opnd_code_lt a; omega) (by have := opnd_code_lt b; omega) (by have := optS_lt cb; omega) (by have := ty_code_lt ty; have := scope_code_lt sc; simp [fits, *])⟩
theorem Encoding.lcadd (h : Head) (sc : Scope) (a b : Opnd) (cb : Option (Fin 64)) : Encoding.Statement (.lcadd h sc a b cb) := 
  ⟨fa_sum _ _ _ _ _ _ _ rfl, fa_fits _ _ _ _ _ _ _ (by decide) (by decide) (by have := opnd_code_lt a; omega) (by have := opnd_code_lt b; omega) (by have := optS_lt cb; omega) (by have := scope_code_lt sc; simp [fits, *])⟩
theorem Encoding.lcrd (h : Head) (d base : Opnd) (off : BitVec 18) : Encoding.Statement (.lcrd h d base off) := 
  ⟨fb_sum _ _ _ _ _ _ rfl, fb_fits _ _ _ _ _ _ (by decide) (by have := opnd_code_lt d; omega) (by have := opnd_code_lt base; omega) (by have := off.isLt; omega) (by decide)⟩
theorem Encoding.lcrdRaw (h : Head) (d base : Opnd) (off : BitVec 18) : Encoding.Statement (.lcrdRaw h d base off) := 
  ⟨fb_sum _ _ _ _ _ _ rfl, fb_fits _ _ _ _ _ _ (by decide) (by have := opnd_code_lt d; omega) (by have := opnd_code_lt base; omega) (by have := off.isLt; omega) (by decide)⟩
theorem Encoding.lcmrg (h : Head) (sc : Scope) (a b : Opnd) (cb : Option (Fin 64)) : Encoding.Statement (.lcmrg h sc a b cb) := 
  ⟨fa_sum _ _ _ _ _ _ _ rfl, fa_fits _ _ _ _ _ _ _ (by decide) (by decide) (by have := opnd_code_lt a; omega) (by have := opnd_code_lt b; omega) (by have := optS_lt cb; omega) (by have := scope_code_lt sc; simp [fits, *])⟩
theorem Encoding.lcinit (h : Head) (data base : Opnd) (off : BitVec 18) : Encoding.Statement (.lcinit h data base off) := 
  ⟨fb_sum _ _ _ _ _ _ rfl, fb_fits _ _ _ _ _ _ (by decide) (by have := opnd_code_lt data; omega) (by have := opnd_code_lt base; omega) (by have := off.isLt; omega) (by decide)⟩
theorem Encoding.fence (h : Head) (sc : Scope) (mode : FenceMode) : Encoding.Statement (.fence h sc mode) := 
  ⟨fx_sum _ _ _ _ _ rfl, fx_fits _ _ _ _ _ (by decide) (by decide) (by decide) (by have := fenceMode_code_lt mode; have := scope_code_lt sc; simp [fits, *])⟩
theorem Encoding.fenceop (h : Head) : Encoding.Statement (.fenceop h) := 
  ⟨fx_sum _ _ _ _ _ rfl, fx_fits _ _ _ _ _ (by decide) (by decide) (by decide) (by decide)⟩
theorem Encoding.drain (h : Head) (mem : DrainMem) : Encoding.Statement (.drain h mem) := 
  ⟨fx_sum _ _ _ _ _ rfl, fx_fits _ _ _ _ _ (by decide) (by decide) (by decide) (by have := drainMem_code_lt mem; simp [fits, *])⟩
theorem Encoding.leaseDecl (h : Head) (gran : Fin 256) : Encoding.Statement (.leaseDecl h gran) := 
  ⟨fx_sum _ _ _ _ _ rfl, fx_fits _ _ _ _ _ (by decide) (by decide) (by decide) (by have := gran.isLt; simp [fits, *])⟩
theorem Encoding.leaseMeas (h : Head) (gran : Fin 256) : Encoding.Statement (.leaseMeas h gran) := 
  ⟨fx_sum _ _ _ _ _ rfl, fx_fits _ _ _ _ _ (by decide) (by decide) (by decide) (by have := gran.isLt; simp [fits, *])⟩
theorem Encoding.ctrinit (h : Head) (sc : Scope) (sem : Sem) (ext : Bool) (a b : Opnd) (cb : Option (Fin 64)) : Encoding.Statement (.ctrinit h sc sem ext a b cb) := 
  ⟨fa_sum _ _ _ _ _ _ _ rfl, fa_fits _ _ _ _ _ _ _ (by decide) (by decide) (by have := opnd_code_lt a; omega) (by have := opnd_code_lt b; omega) (by have := optS_lt cb; omega) (by have := bool_lt ext; have := sem_code_lt sem; have := scope_code_lt sc; simp [fits, *])⟩
theorem Encoding.ctradd (h : Head) (sc : Scope) (sem : Sem) (d : Option Opnd) (a b : Opnd) (cb : Option (Fin 64)) : Encoding.Statement (.ctradd h sc sem d a b cb) := 
  ⟨fa_sum _ _ _ _ _ _ _ rfl, fa_fits _ _ _ _ _ _ _ (by decide) (by have := optO_lt d; omega) (by have := opnd_code_lt a; omega) (by have := opnd_code_lt b; omega) (by have := optS_lt cb; omega) (by have := sem_code_lt sem; have := scope_code_lt sc; simp [fits, *])⟩
theorem Encoding.ctraddImm (h : Head) (sc : Scope) (sem : Sem) (d : Option Opnd) (a : Opnd) (imm : BitVec 18) : Encoding.Statement (.ctraddImm h sc sem d a imm) := 
  ⟨fb_sum _ _ _ _ _ _ rfl, fb_fits _ _ _ _ _ _ (by decide) (by have := optO_lt d; omega) (by have := opnd_code_lt a; omega) (by have := imm.isLt; omega) (by have := sem_code_lt sem; have := scope_code_lt sc; simp [fits, *])⟩
theorem Encoding.ctrwait (h : Head) (sc : Scope) (sem : Sem) (pd : Fin 7) (a b : Opnd) : Encoding.Statement (.ctrwait h sc sem pd a b) := 
  ⟨fa_sum _ _ _ _ _ _ _ rfl, fa_fits _ _ _ _ _ _ _ (by decide) (by have := pd.isLt; omega) (by have := opnd_code_lt a; omega) (by have := opnd_code_lt b; omega) (by decide) (by have := sem_code_lt sem; have := scope_code_lt sc; simp [fits, *])⟩
theorem Encoding.ctrwaitImm (h : Head) (sc : Scope) (sem : Sem) (pd : Fin 7) (a : Opnd) (imm : BitVec 18) : Encoding.Statement (.ctrwaitImm h sc sem pd a imm) := 
  ⟨fb_sum _ _ _ _ _ _ rfl, fb_fits _ _ _ _ _ _ (by decide) (by have := pd.isLt; omega) (by have := opnd_code_lt a; omega) (by have := imm.isLt; omega) (by have := sem_code_lt sem; have := scope_code_lt sc; simp [fits, *])⟩
theorem Encoding.ctrarv (h : Head) (sc : Scope) (sem : Sem) (pd : Fin 7) (a b : Opnd) : Encoding.Statement (.ctrarv h sc sem pd a b) := 
  ⟨fa_sum _ _ _ _ _ _ _ rfl, fa_fits _ _ _ _ _ _ _ (by decide) (by have := pd.isLt; omega) (by have := opnd_code_lt a; omega) (by have := opnd_code_lt b; omega) (by decide) (by have := sem_code_lt sem; have := scope_code_lt sc; simp [fits, *])⟩
theorem Encoding.ctrrd (h : Head) (sc : Scope) (sem : Sem) (d a : Opnd) (cb : Option (Fin 64)) : Encoding.Statement (.ctrrd h sc sem d a cb) := 
  ⟨fa_sum _ _ _ _ _ _ _ rfl, fa_fits _ _ _ _ _ _ _ (by decide) (by have := opnd_code_lt d; omega) (by have := opnd_code_lt a; omega) (by decide) (by have := optS_lt cb; omega) (by have := sem_code_lt sem; have := scope_code_lt sc; simp [fits, *])⟩
theorem Encoding.ctrkill (h : Head) (sc : Scope) (sem : Sem) (a : Opnd) (cb : Option (Fin 64)) : Encoding.Statement (.ctrkill h sc sem a cb) := 
  ⟨fa_sum _ _ _ _ _ _ _ rfl, fa_fits _ _ _ _ _ _ _ (by decide) (by decide) (by have := opnd_code_lt a; omega) (by decide) (by have := optS_lt cb; omega) (by have := sem_code_lt sem; have := scope_code_lt sc; simp [fits, *])⟩
theorem Encoding.ctrkillFree (h : Head) (sc : Scope) (sem : Sem) (a : Opnd) (cb : Option (Fin 64)) : Encoding.Statement (.ctrkillFree h sc sem a cb) := 
  ⟨fa_sum _ _ _ _ _ _ _ rfl, fa_fits _ _ _ _ _ _ _ (by decide) (by decide) (by have := opnd_code_lt a; omega) (by decide) (by have := optS_lt cb; omega) (by have := sem_code_lt sem; have := scope_code_lt sc; simp [fits, *])⟩
theorem Encoding.copy (h : Head) (sc : Scope) (ord : Bool) (bucket : Byte) (hint : Hint) (a : Fin 64) : Encoding.Statement (.copy h sc ord bucket hint a) := 
  ⟨fx_sum _ _ _ _ _ rfl, fx_fits _ _ _ _ _ (by decide) (by decide) (by omega) (by have := hint_code_lt hint; have := bucket.isLt; have := bool_lt ord; have := scope_code_lt sc; simp [fits, *])⟩
theorem Encoding.bcopy (h : Head) (sc : Scope) (ord : Bool) (bucket : Byte) (hint : Hint) (parts : Fin 128) (coll : Fin 16) (a : Fin 64) : Encoding.Statement (.bcopy h sc ord bucket hint parts coll a) := 
  ⟨fx_sum _ _ _ _ _ rfl, fx_fits _ _ _ _ _ (by decide) (by decide) (by omega) (by have := coll.isLt; have := parts.isLt; have := hint_code_lt hint; have := bucket.isLt; have := bool_lt ord; have := scope_code_lt sc; simp [fits, *])⟩
theorem Encoding.gather (h : Head) (sc : Scope) (ord : Bool) (bucket : Byte) (hint : Hint) (idx : IdxTy) (a : Fin 64) : Encoding.Statement (.gather h sc ord bucket hint idx a) := 
  ⟨fx_sum _ _ _ _ _ rfl, fx_fits _ _ _ _ _ (by decide) (by decide) (by omega) (by have := idxTy_code_lt idx; have := hint_code_lt hint; have := bucket.isLt; have := bool_lt ord; have := scope_code_lt sc; simp [fits, *])⟩
theorem Encoding.scatter (h : Head) (sc : Scope) (ord : Bool) (bucket : Byte) (hint : Hint) (idx : IdxTy) (a : Fin 64) : Encoding.Statement (.scatter h sc ord bucket hint idx a) := 
  ⟨fx_sum _ _ _ _ _ rfl, fx_fits _ _ _ _ _ (by decide) (by decide) (by omega) (by have := idxTy_code_lt idx; have := hint_code_lt hint; have := bucket.isLt; have := bool_lt ord; have := scope_code_lt sc; simp [fits, *])⟩
theorem Encoding.unpack (h : Head) (sc : Scope) (ord : Bool) (bucket : Byte) (hint : Hint) (fmt : Bfmt) (a : Fin 64) : Encoding.Statement (.unpack h sc ord bucket hint fmt a) := 
  ⟨fx_sum _ _ _ _ _ rfl, fx_fits _ _ _ _ _ (by decide) (by decide) (by omega) (by have := bfmt_code_lt fmt; have := hint_code_lt hint; have := bucket.isLt; have := bool_lt ord; have := scope_code_lt sc; simp [fits, *])⟩
theorem Encoding.mma (h : Head) (a : Fin 64) : Encoding.Statement (.mma h a) := 
  ⟨fx_sum _ _ _ _ _ rfl, fx_fits _ _ _ _ _ (by decide) (by decide) (by omega) (by decide)⟩
theorem Encoding.maccrd (h : Head) (ty : Ty) (d a : Opnd) : Encoding.Statement (.maccrd h ty d a) := 
  ⟨fa_sum _ _ _ _ _ _ _ rfl, fa_fits _ _ _ _ _ _ _ (by decide) (by have := opnd_code_lt d; omega) (by have := opnd_code_lt a; omega) (by decide) (by decide) (by have := ty_code_lt ty; simp [fits, *])⟩
theorem Encoding.maccwr (h : Head) (ty : Ty) (a b : Opnd) : Encoding.Statement (.maccwr h ty a b) := 
  ⟨fa_sum _ _ _ _ _ _ _ rfl, fa_fits _ _ _ _ _ _ _ (by decide) (by decide) (by have := opnd_code_lt a; omega) (by have := opnd_code_lt b; omega) (by decide) (by have := ty_code_lt ty; simp [fits, *])⟩
theorem Encoding.maccz (h : Head) (first : Fin 16) (count : Fin 32) : Encoding.Statement (.maccz h first count) := 
  ⟨fx_sum _ _ _ _ _ rfl, fx_fits _ _ _ _ _ (by decide) (by decide) (by decide) (by have := first.isLt; have := count.isLt; simp [fits, *])⟩
theorem Encoding.bra (h : Head) (u : Bool) (kind : BrKind) (cond : PredSpec) (off : BitVec 32) : Encoding.Statement (.bra h u kind cond off) := 
  ⟨rfl, fj_fits _ _ _ _ _ _ (by decide) (by have := bool_lt u; omega) (by have := brKind_code_lt kind; omega) off.isLt⟩
theorem Encoding.call (h : Head) (u : Bool) (kind : BrKind) (cond : PredSpec) (off : BitVec 32) : Encoding.Statement (.call h u kind cond off) := 
  ⟨rfl, fj_fits _ _ _ _ _ _ (by decide) (by have := bool_lt u; omega) (by have := brKind_code_lt kind; omega) off.isLt⟩
theorem Encoding.brx (h : Head) (u : Bool) (a : Opnd) : Encoding.Statement (.brx h u a) := 
  ⟨fx_sum _ _ _ _ _ rfl, fx_fits _ _ _ _ _ (by decide) (by decide) (by have := opnd_code_lt a; omega) (by have := bool_lt u; simp [fits, *])⟩
theorem Encoding.ret (h : Head) (u : Bool) (a : Opnd) : Encoding.Statement (.ret h u a) := 
  ⟨fx_sum _ _ _ _ _ rfl, fx_fits _ _ _ _ _ (by decide) (by decide) (by have := opnd_code_lt a; omega) (by have := bool_lt u; simp [fits, *])⟩
theorem Encoding.exit (h : Head) : Encoding.Statement (.exit h) := 
  ⟨fx_sum _ _ _ _ _ rfl, fx_fits _ _ _ _ _ (by decide) (by decide) (by decide) (by decide)⟩
theorem Encoding.join (h : Head) : Encoding.Statement (.join h) := 
  ⟨fx_sum _ _ _ _ _ rfl, fx_fits _ _ _ _ _ (by decide) (by decide) (by decide) (by decide)⟩
theorem Encoding.yield (h : Head) (n : BitVec 16) : Encoding.Statement (.yield h n) := 
  ⟨fx_sum _ _ _ _ _ rfl, fx_fits _ _ _ _ _ (by decide) (by decide) (by decide) (by have := n.isLt; simp [fits, *])⟩
theorem Encoding.nop (h : Head) : Encoding.Statement (.nop h) := 
  ⟨fx_sum _ _ _ _ _ rfl, fx_fits _ _ _ _ _ (by decide) (by decide) (by decide) (by decide)⟩
theorem Encoding.launch (h : Head) (d a : Fin 64) (q : Fin 16) : Encoding.Statement (.launch h d a q) := 
  ⟨fx_sum _ _ _ _ _ rfl, fx_fits _ _ _ _ _ (by decide) (by omega) (by omega) (by have := q.isLt; simp [fits, *])⟩
theorem Encoding.trap (h : Head) (imm : BitVec 32) : Encoding.Statement (.trap h imm) := 
  ⟨rfl, fc_fits _ _ _ _ _ (by decide) (by decide) (by have := imm.isLt; omega) (by decide)⟩
theorem Encoding.brk (h : Head) (imm : BitVec 32) : Encoding.Statement (.brk h imm) := 
  ⟨rfl, fc_fits _ _ _ _ _ (by decide) (by decide) (by have := imm.isLt; omega) (by decide)⟩
theorem Encoding.rdsr (h : Head) (d : Opnd) (num : Fin 1024) : Encoding.Statement (.rdsr h d num) := 
  ⟨fx_sum _ _ _ _ _ rfl, fx_fits _ _ _ _ _ (by decide) (by have := opnd_code_lt d; omega) (by decide) (by have := num.isLt; simp [fits, *])⟩
theorem Encoding.wrsr (h : Head) (num : Fin 1024) (a : Opnd) : Encoding.Statement (.wrsr h num a) := 
  ⟨fx_sum _ _ _ _ _ rfl, fx_fits _ _ _ _ _ (by decide) (by decide) (by have := opnd_code_lt a; omega) (by have := num.isLt; simp [fits, *])⟩
theorem Encoding.rdtime (h : Head) (d : Fin 64) : Encoding.Statement (.rdtime h d) := 
  ⟨fx_sum _ _ _ _ _ rfl, fx_fits _ _ _ _ _ (by decide) (by omega) (by decide) (by decide)⟩
theorem Encoding.clauseStart (w : Nat) : Encoding.Statement (.clauseStart w) := ⟨rfl, rfl⟩
theorem Encoding.clauseFetchResolved (w : Nat) : Encoding.Statement (.clauseFetchResolved w) := ⟨rfl, rfl⟩
theorem Encoding.issueWaitEnd (w : Nat) : Encoding.Statement (.issueWaitEnd w) := ⟨rfl, rfl⟩
theorem Encoding.resultWriteback (acc : Nat) : Encoding.Statement (.resultWriteback acc) := ⟨rfl, rfl⟩
theorem Encoding.ownershipGrant (cluster core asid vline : Nat) : Encoding.Statement (.ownershipGrant cluster core asid vline) := ⟨rfl, rfl⟩
theorem Encoding.lineFill (lvl : CacheLevel) (cluster core asid vline : Nat) (victim : Option (Nat × Nat)) : Encoding.Statement (.lineFill lvl cluster core asid vline victim) := ⟨rfl, rfl⟩
theorem Encoding.pageWalk (asid va : Nat) : Encoding.Statement (.pageWalk asid va) := ⟨rfl, rfl⟩
theorem Encoding.runaheadStop (w : Nat) : Encoding.Statement (.runaheadStop w) := ⟨rfl, rfl⟩
theorem Encoding.pageBatchResolved (w : Nat) : Encoding.Statement (.pageBatchResolved w) := ⟨rfl, rfl⟩
theorem Encoding.recall (asid va level : Nat) (pte : BitVec 64) : Encoding.Statement (.recall asid va level pte) := ⟨rfl, rfl⟩
theorem Encoding.mapPage (asid va level : Nat) (pte : BitVec 64) : Encoding.Statement (.mapPage asid va level pte) := ⟨rfl, rfl⟩
theorem Encoding.migrationStart (asid va frame : Nat) : Encoding.Statement (.migrationStart asid va frame) := ⟨rfl, rfl⟩
theorem Encoding.migrationPull (asid va : Nat) : Encoding.Statement (.migrationPull asid va) := ⟨rfl, rfl⟩
theorem Encoding.packetSubmit (ctx q : Nat) (pkt : List Byte) (addr : BitVec 64) : Encoding.Statement (.packetSubmit ctx q pkt addr) := ⟨rfl, rfl⟩
theorem Encoding.packetAccept (ctx q : Nat) : Encoding.Statement (.packetAccept ctx q) := ⟨rfl, rfl⟩
theorem Encoding.launchStart (ctx q : Nat) : Encoding.Statement (.launchStart ctx q) := ⟨rfl, rfl⟩
theorem Encoding.signal (ctx q : Nat) : Encoding.Statement (.signal ctx q) := ⟨rfl, rfl⟩
theorem Encoding.seed (ctx q : Nat) : Encoding.Statement (.seed ctx q) := ⟨rfl, rfl⟩
theorem Encoding.packetForward (ctx q : Nat) : Encoding.Statement (.packetForward ctx q) := ⟨rfl, rfl⟩
theorem Encoding.forwardReceive (node asid q : Nat) (pkt : List Byte) : Encoding.Statement (.forwardReceive node asid q pkt) := ⟨rfl, rfl⟩
theorem Encoding.forwardAnswer (ctx q : Nat) (held : Bool) (reason : Nat) : Encoding.Statement (.forwardAnswer ctx q held reason) := ⟨rfl, rfl⟩
theorem Encoding.gangPlace (launch cluster : Nat) (seats : List (List Nat)) : Encoding.Statement (.gangPlace launch cluster seats) := ⟨rfl, rfl⟩
theorem Encoding.placementStarve (launch : Nat) : Encoding.Statement (.placementStarve launch) := ⟨rfl, rfl⟩
theorem Encoding.recordRead (launch : Nat) : Encoding.Statement (.recordRead launch) := ⟨rfl, rfl⟩
theorem Encoding.blockFinish (block : Nat) : Encoding.Statement (.blockFinish block) := ⟨rfl, rfl⟩
theorem Encoding.sliceBoundary (cluster core : Nat) : Encoding.Statement (.sliceBoundary cluster core) := ⟨rfl, rfl⟩
theorem Encoding.leaseWindowEnd (cluster core : Nat) : Encoding.Statement (.leaseWindowEnd cluster core) := ⟨rfl, rfl⟩
theorem Encoding.yieldExpire (w : Nat) : Encoding.Statement (.yieldExpire w) := ⟨rfl, rfl⟩
theorem Encoding.counterWake (w : Nat) : Encoding.Statement (.counterWake w) := ⟨rfl, rfl⟩
theorem Encoding.counterPoll (w : Nat) : Encoding.Statement (.counterPoll w) := ⟨rfl, rfl⟩
theorem Encoding.requestPerform (acc i : Nat) : Encoding.Statement (.requestPerform acc i) := ⟨rfl, rfl⟩
theorem Encoding.fenceComplete (w : Nat) : Encoding.Statement (.fenceComplete w) := ⟨rfl, rfl⟩
theorem Encoding.copyStart (cluster core : Nat) : Encoding.Statement (.copyStart cluster core) := ⟨rfl, rfl⟩
theorem Encoding.copySourceReadDone (copy : Nat) : Encoding.Statement (.copySourceReadDone copy) := ⟨rfl, rfl⟩
theorem Encoding.copyComplete (copy : Nat) : Encoding.Statement (.copyComplete copy) := ⟨rfl, rfl⟩
theorem Encoding.copyFail (copy : Nat) : Encoding.Statement (.copyFail copy) := ⟨rfl, rfl⟩
theorem Encoding.copyPageResolved (copy : Nat) : Encoding.Statement (.copyPageResolved copy) := ⟨rfl, rfl⟩
theorem Encoding.mmaStart (cluster core : Nat) : Encoding.Statement (.mmaStart cluster core) := ⟨rfl, rfl⟩
theorem Encoding.mmaBandCommit (cluster core : Nat) : Encoding.Statement (.mmaBandCommit cluster core) := ⟨rfl, rfl⟩
theorem Encoding.mmaRestart (cluster core : Nat) : Encoding.Statement (.mmaRestart cluster core) := ⟨rfl, rfl⟩
theorem Encoding.mmaFail (cluster core : Nat) : Encoding.Statement (.mmaFail cluster core) := ⟨rfl, rfl⟩
theorem Encoding.ticketRelease (launch : Nat) : Encoding.Statement (.ticketRelease launch) := ⟨rfl, rfl⟩
theorem Encoding.cone (ctx : Nat) : Encoding.Statement (.cone ctx) := ⟨rfl, rfl⟩
theorem Encoding.resumeRetry (cmd : ResumeCmd) : Encoding.Statement (.resumeRetry cmd) := ⟨rfl, rfl⟩
theorem Encoding.resumeSkip (cmd : ResumeCmd) : Encoding.Statement (.resumeSkip cmd) := ⟨rfl, rfl⟩
theorem Encoding.resumeDiverge (cmd : ResumeCmd) : Encoding.Statement (.resumeDiverge cmd) := ⟨rfl, rfl⟩
theorem Encoding.resumeKill (cmd : ResumeCmd) : Encoding.Statement (.resumeKill cmd) := ⟨rfl, rfl⟩
theorem Encoding.preempt (gang : Nat) : Encoding.Statement (.preempt gang) := ⟨rfl, rfl⟩
theorem Encoding.restore (gang cluster : Nat) (seats : List (List Nat)) : Encoding.Statement (.restore gang cluster seats) := ⟨rfl, rfl⟩
theorem Encoding.contextSwitch (ctx : Nat) : Encoding.Statement (.contextSwitch ctx) := ⟨rfl, rfl⟩
theorem Encoding.eccError (site : EccSite) : Encoding.Statement (.eccError site) := ⟨rfl, rfl⟩
theorem Encoding.saggarReset (saggar cause : Nat) (deadClusters deadSlices deadChannels : List (Nat × Nat)) : Encoding.Statement (.saggarReset saggar cause deadClusters deadSlices deadChannels) := ⟨rfl, rfl⟩
theorem Encoding.shelfHeartbeatTimeout (shelf : Nat) : Encoding.Statement (.shelfHeartbeatTimeout shelf) := ⟨rfl, rfl⟩
theorem Encoding.routeChange (node : Nat) (entry : BitVec 24) : Encoding.Statement (.routeChange node entry) := ⟨rfl, rfl⟩
theorem Encoding.flitReplay (port : Nat) (again : Bool) : Encoding.Statement (.flitReplay port again) := ⟨rfl, rfl⟩
theorem Encoding.inboundRequest (r : InReq) : Encoding.Statement (.inboundRequest r) := ⟨rfl, rfl⟩
theorem Encoding.remote (acc reason : Nat) : Encoding.Statement (.remote acc reason) := ⟨rfl, rfl⟩
theorem Encoding.peerAnswer (acc : Nat) (vals : List (BitVec 64)) : Encoding.Statement (.peerAnswer acc vals) := ⟨rfl, rfl⟩
theorem Encoding.rtimeout (acc : Nat) : Encoding.Statement (.rtimeout acc) := ⟨rfl, rfl⟩
theorem Encoding.flowbroken (flow : FlowRef) : Encoding.Statement (.flowbroken flow) := ⟨rfl, rfl⟩
theorem Encoding.flowSkip (flow : FlowRef) : Encoding.Statement (.flowSkip flow) := ⟨rfl, rfl⟩
theorem Encoding.windowRecall (i : Nat) : Encoding.Statement (.windowRecall i) := ⟨rfl, rfl⟩
theorem Encoding.mailboxMessage (m : HostMsg) : Encoding.Statement (.mailboxMessage m) := ⟨rfl, rfl⟩
theorem Encoding.flr (func : Nat) : Encoding.Statement (.flr func) := ⟨rfl, rfl⟩
theorem Encoding.ptpLock (time : BitVec 64) : Encoding.Statement (.ptpLock time) := ⟨rfl, rfl⟩
theorem Encoding.firmwareUpdate (img : FwImage) : Encoding.Statement (.firmwareUpdate img) := ⟨rfl, rfl⟩
theorem Encoding.attestationReport (nonce : List Byte) : Encoding.Statement (.attestationReport nonce) := ⟨rfl, rfl⟩
theorem Encoding.lcbaseWrite (ctx i : Nat) (v : BitVec 64) : Encoding.Statement (.lcbaseWrite ctx i v) := ⟨rfl, rfl⟩
theorem Encoding.boundsEntryWrite (ctx table entry : Nat) (v : BoundsVal) : Encoding.Statement (.boundsEntryWrite ctx table entry v) := ⟨rfl, rfl⟩
theorem Encoding.boundsHitClear (ctx table entry : Nat) : Encoding.Statement (.boundsHitClear ctx table entry) := ⟨rfl, rfl⟩
theorem Encoding.partitionWrite (mode : Nat) : Encoding.Statement (.partitionWrite mode) := ⟨rfl, rfl⟩
theorem Encoding.controlWrite (c : CtlWrite) : Encoding.Statement (.controlWrite c) := ⟨rfl, rfl⟩
theorem Encoding.accessPerformed (r : AccRef) : Encoding.Statement (.accessPerformed r) := ⟨rfl, rfl⟩
theorem Encoding.restack  : Encoding.Statement (.restack) := ⟨rfl, rfl⟩
theorem Encoding.restackSwitch  : Encoding.Statement (.restackSwitch) := ⟨rfl, rfl⟩
theorem Encoding.restackOverrun  : Encoding.Statement (.restackOverrun) := ⟨rfl, rfl⟩
theorem Encoding.throttleStep  : Encoding.Statement (.throttleStep) := ⟨rfl, rfl⟩
theorem Encoding.throttleRaise  : Encoding.Statement (.throttleRaise) := ⟨rfl, rfl⟩
theorem Encoding.thermalThrottle  : Encoding.Statement (.thermalThrottle) := ⟨rfl, rfl⟩
theorem Encoding.thermalTrip  : Encoding.Statement (.thermalTrip) := ⟨rfl, rfl⟩
theorem Encoding.moduleReset  : Encoding.Statement (.moduleReset) := ⟨rfl, rfl⟩
theorem Encoding.fullService : Encoding.Statement .fullService := ⟨rfl, rfl⟩

end Sys2Proof.Laws
end

