-- ==== Sys2Proof/Tests/Slice0.lean ====
section
/-! SUPPORT. Tests: ill-formed terms that are refused, words of the spec that decode, single steps whose results are worked out from the rules by hand,
and for each statement a state that meets what it assumes. -/
namespace Sys2Proof.Tests
open Sys2Proof Sys2Proof.Machine
set_option Elab.async false

/-! ### Well-formedness: an ill-formed term for each check (R67, R75, R76, R103 and each group's table) -/

/-- A plain head: no predicate, no scoreboard. -/
def h0 : Head := ⟨0, 0, 7, false⟩

theorem test_wf_refuses_heads : [Instr.nop ⟨0, 7, 7, false⟩, .nop ⟨0, 0, 7, true⟩].all (fun i => !i.wf) = true := by decide +kernel

/-- Types, odd pairs, L pairs, an S destination with a V source, and constants out of range. -/
theorem test_wf_refuses_integers : [Instr.iadd h0 .f32 false (.v 1) (.v 2) (.v 3), .iadd h0 .n64 false (.v 1) (.v 2) (.v 4),
    .iadd h0 .n64 false (.v 2) (.v 3) (.v 4), .iadd h0 .n64 false (.v 2) (.v 4) (.l 0), .iadd h0 .n64 false (.o 1) (.v 2) (.v 4),
    .iadd h0 .n32 false (.s 1) (.v 2) (.s 3), .iadd h0 .n32 false (.c 1) (.v 2) (.v 3), .iadd h0 .n32 false .vz (.v 2) (.v 3),
    .iaddImm h0 .f32 false (.v 1) (.v 2) 0, .iabs h0 .n32 false (.s 1) (.v 2), .imulhi h0 .n8 (.v 1) (.v 2) (.v 3), .bfx h0 .n16 (.v 1) (.v 2) (.v 3),
    .imad h0 .f32 (.v 1) (.v 2) (.v 3) (.v 4), .imadw h0 .n64 (.v 2) (.v 4) (.v 6) (.v 8), .imadw h0 .n32 (.v 2) (.v 4) (.v 6) (.v 7),
    .lea h0 .n8 0 (.v 2) (.v 4) (.v 6), .lea h0 .n32 0 (.v 3) (.v 4) (.v 6), .bfxImm h0 .n32 (.v 1) (.v 2) 0x10000, .bfiImm h0 .n16 (.v 1) (.v 2) 0,
    .bfi h0 .n8 (.v 1) (.v 2) (.v 3) (.v 4), .icmp h0 .f32 .lt 0 (.v 1) (.v 2), .icmpImm h0 .n64 .lt 0 (.v 1) 0, .sel h0 .i32 (.v 1) (.v 2) (.v 3) ⟨0, false⟩,
    .mov h0 .f32 (.v 1) (.v 2), .movi h0 .n8 (.v 1) 0, .movh h0 (.v 1) 0, .i2i h0 .f32 .n32 false (.v 1) (.v 2), .i2i h0 .n32 .f32 false (.v 1) (.v 2)].all
    (fun i => !i.wf) = true := by decide +kernel

theorem test_wf_refuses_floats : [Instr.fadd h0 .e4m3 .rn (.v 1) (.v 2) (.v 3), .fadd h0 .f64 .rs (.v 2) (.v 4) (.v 6), .fadd h0 .f32 .rs (.s 1) (.s 2) (.s 3),
    .faddImm h0 .n32 .rn (.v 1) (.v 2) 0, .ffma h0 .e5m2 .rn (.v 1) (.v 2) (.v 3) (.v 4), .fmin h0 .e4m3 (.v 1) (.v 2) (.v 3),
    .fmaxImm h0 .n8 (.v 1) (.v 2) 0, .fcmp h0 .f16x2 .lt 0 (.v 1) (.v 2), .fcmpImm h0 .bf16x2 .lt 0 (.v 1) 0, .fclass h0 .f16x2 (.v 1) (.v 2),
    .frcp h0 .f16x2 (.v 1) (.v 2), .fexp2 h0 .f64 (.v 2) (.v 4), .fdiv h0 .f32 .rs (.v 1) (.v 2) (.v 3), .fdiv h0 .f16x2 .rn (.v 1) (.v 2) (.v 3),
    .frnd h0 .f32 .rs (.v 1) (.v 2), .f2f h0 .f16x2 .f32 false .rn (.v 1) (.v 2), .f2f h0 .f32 .f64 false .rs (.s 1) (.s 2),
    .f2i h0 .f32 .f32 false .rn (.v 1) (.v 2), .f2i h0 .n32 .f32 false .rs (.v 1) (.v 2), .i2f h0 .f32 .f32 .rn (.v 1) (.v 2),
    .fdot2 h0 .f32 .rn (.v 1) (.v 2) (.v 3) (.v 4), .bcvt h0 .bfp8 .rn (.s 1) (.v 2), .bunp h0 .bfp8 (.c 1) (.v 2), .bdot h0 .bfp8 (.s 1) (.v 2) (.v 3) (.v 4),
    .rand h0 .n8 (.v 1), .rand h0 .n64 (.v 1)].all (fun i => !i.wf) = true := by decide +kernel

theorem test_wf_refuses_lanes : [Instr.vxor h0 (.s 1) (.v 2) 1, .vxor h0 (.v 1) (.s 2) 1, .vrot h0 6 (.v 1) (.v 2) 0, .vrev h0 3 (.v 1) (.v 2) 8,
    .vbcast h0 2 (.v 1) (.v 2) 4, .vshuf h0 (.v 1) (.v 2) .vtid, .vtrn h0 0 (.v 0) (.v 2), .vtrn h0 4 (.v 0) (.v 16), .vtrn h0 3 (.v 0) (.v 4),
    .vtrn h0 3 (.v 313) (.v 0), .vcompact h0 (.v 1) (.s 2) ⟨0, false⟩ none, .vexpand h0 (.s 1) (.v 2) ⟨0, false⟩, .vfire h0 (.v 1) (.l 0),
    .vmaprd h0 true (.v 1) (.v 2), .vmaprd h0 false (.s 1) (.v 2), .vfirst h0 .n8 (.s 1) (.v 2), .vfirst h0 .n32 (.v 1) (.v 2),
    .vballot h0 (.v 1) ⟨0, false⟩, .vmatch h0 .i32 (.v 1) (.v 2), .vactive h0 (.v 1), .vred h0 .n8 .add (.v 1) (.v 2), .vred h0 .f32 .and (.v 1) (.v 2),
    .vscan h0 .n32 .add false (.s 1) (.v 2), .vsegred h0 .f32 .xor (.v 1) (.v 2) ⟨0, false⟩, .vsort h0 .n64 true false (.v 2) (.v 4) none,
    .vsort h0 .n32 true false (.v 1) (.v 2) (some 1), .vtopk h0 .n32 true (.v 1) (.v 2) (.c 33) 3, .vtopk h0 .n32 true (.v 1) (.v 2) (.c 0) 3,
    .vtopkMulti h0 .n32 true 7 (.v 0) (.v 8) (.c 1) 2, .vtopkMulti h0 .n32 true 0 (.v 1) (.v 8) (.c 1) 2, .vtopkMulti h0 .n32 true 0 (.v 0) (.v 8) (.c 1) 3,
    .vbin h0 1 (.v 0) (.v 4) ⟨7, false⟩ (.c 1), .vbin h0 0 (.v 318) (.v 4) ⟨7, false⟩ (.c 1), .vbin h0 0 (.v 0) (.v 4) ⟨7, false⟩ (.c 0)].all
    (fun i => !i.wf) = true := by decide +kernel

theorem test_wf_refuses_memory : [Instr.ld h0 .n32 .dflt .normal (.v 1) (.c 0) 0, .ld h0 .n32 .dflt .normal (.s 1) (.v 2) 0,
    .ld h0 .n64 .dflt .normal (.v 1) (.s 2) 0, .ldIdx h0 .n32 .dflt .normal (.v 1) (.v 2) (.v 3) 0 0, .ldIdx h0 .n32 .dflt .normal (.s 1) (.s 2) (.v 3) 0 0,
    .st h0 .n32 .dflt .normal .vtid (.s 2) 0, .st h0 .n32 .dflt .normal (.l 0) (.s 2) 0, .stIdx h0 .n32 .dflt .normal (.v 1) (.s 2) (.s 3) 0 0,
    .ldx h0 .n32 7 .dflt .normal (.v 0) (.s 2) 0, .ldx h0 .n8 0 .dflt .normal (.v 0) (.s 2) 0, .ldx h0 .n64 1 .dflt .normal (.v 0) (.s 2) 0,
    .stx h0 .n32 6 .dflt .normal (.o 1) (.s 2) 0, .stx h0 .n32 0 .dflt .normal (.v 319) (.s 2) 0, .ldrec h0 .bfp8 .dflt .normal (.v 1) (.v 2) 0,
    .ststash h0 .n8 .dflt .normal (.v 0) (.s 2) 0, .ststash h0 .n32 .dflt .normal (.v 289) (.s 2) 0, .prefetch ⟨0, 1, 7, false⟩ .dflt .normal (.s 2) 0,
    .prefetchIdx h0 .dflt .normal (.v 2) (.v 3) 0 0, .cflush h0 .dflt .normal (.c 2) 0, .cdemote h0 .dflt (.o 2) 0].all (fun i => !i.wf) = true := by
  decide +kernel

theorem test_wf_refuses_atomics : [Instr.atomAdd h0 .n8 .dflt .normal (.v 1) (.v 2) (.v 3) none, .atomAdd h0 .n32 .dflt .normal (.s 1) (.v 2) (.v 3) none,
    .atomMin h0 .f16x2 .dflt .normal (.v 1) (.v 2) (.v 3) none, .atomAnd h0 .f32 .dflt .normal (.v 1) (.v 2) (.v 3) none,
    .atomExch h0 .i32 .dflt .normal (.v 1) (.v 2) (.v 3) none, .atomcas h0 .i32 .dflt .normal (.v 1) (.v 2) (.v 3) (.v 4),
    .redAdd h0 .n32 .dflt .normal (.s 2) (.v 3) (some 1), .redMin h0 .n32 .dflt .normal (.v 2) .vtid none, .redXor h0 .f64 .dflt .normal (.v 2) (.v 4) none,
    .scadd h0 .n32 .device (.v 2) (.v 3) none, .lcadd h0 .core (.v 2) (.v 3) none, .lcmrg h0 .dflt (.c 2) (.v 3) none, .lcrd h0 (.s 1) (.v 2) 0,
    .lcrdRaw h0 (.v 1) (.c 2) 0, .lcinit h0 (.l 0) (.v 2) 0, .fence h0 .dflt .acq, .leaseDecl h0 193, .leaseMeas h0 193].all (fun i => !i.wf) = true := by
  decide +kernel

theorem test_wf_refuses_counters_engines_control : [Instr.ctrinit h0 .dflt .dflt false (.s 1) (.v 2) none, .ctrinit h0 .dflt .dflt false (.s 1) (.s 2) (some 3),
    .ctradd h0 .dflt .dflt (some (.v 0)) (.v 2) (.v 4) none, .ctradd h0 .dflt .dflt (some (.s 1)) (.v 2) (.v 4) none,
    .ctraddImm h0 .dflt .dflt (some (.v 1)) (.s 2) 0, .ctrwait h0 .dflt .dflt 0 (.v 1) (.s 2), .ctrwait h0 .dflt .dflt 0 (.s 1) (.v 2),
    .ctrwaitImm h0 .dflt .dflt 0 (.v 1) 0, .ctrarv h0 .dflt .dflt 0 (.s 1) (.c 0), .ctrrd h0 .dflt .dflt (.s 1) (.v 2) none,
    .ctrkill h0 .dflt .dflt (.c 1) none, .ctrkillFree h0 .dflt .dflt (.s 1) (some 2), .copy h0 .dflt false 0 .normal 59, .unpack h0 .dflt false 0 .normal .bfp8 59,
    .bcopy h0 .dflt false 0 .normal 0 0 0, .bcopy h0 .dflt false 0 .normal 97 0 0, .maccrd h0 .n32 (.v 1) (.s 1), .maccrd h0 .f32 (.s 1) (.s 1),
    .maccwr h0 .f32 (.v 1) (.v 2), .maccwr h0 .f32 (.s 1) (.l 0), .maccz h0 0 0, .maccz h0 15 2, .bra h0 false .each ⟨7, true⟩ 0,
    .call h0 false .each ⟨7, true⟩ 0, .brx h0 false (.v 1), .ret h0 false (.c 1), .rdsr h0 (.v 1) 0, .rdsr h0 (.s 1) 0x013, .wrsr h0 0x001 (.s 1),
    .wrsr h0 0x000 (.v 1)].all (fun i => !i.wf) = true := by decide +kernel

/-! ### Words of the spec (R66 to R71, R88, R93 to R99), written out from the tables bit by bit -/

/-- The panels of R88. -/
theorem test_decode_panels :
    decodeWord 0x2051C07030100009 = some (.fadd ⟨5, 0, 7, false⟩ .f32 .rn (.v 7) (.v 6) (.v 4)) ∧
    decodeWord 0x014080200FFFFA06 = some (.iaddImm ⟨4, 0, 2, false⟩ .i32 false (.v 2) (.v 1) 0x3FFFD) ∧
    decodeWord 0x1E41C093C003C002 = some (.movi ⟨4, 0, 7, false⟩ .n32 (.v 9) 0x3C003C00) ∧
    decodeWord 0x7005C0CA20008002 = some (.ld ⟨0, 2, 7, false⟩ .n32 .dflt .normal (.v 12) (.s 4) 0x40) ∧
    decodeWord 0x7105C0DA100E2002 = some (.ldIdx ⟨0, 2, 7, false⟩ .n32 .dflt .normal (.v 13) (.s 2) (.v 3) 2 16) ∧
    decodeWord 0xD001D1C0FFFFFFF8 = some (.bra ⟨0, 0, 7, false⟩ true .each ⟨3, true⟩ 0xFFFFFFF8) := by decide +kernel

/-- Moves and lane instructions. -/
theorem test_decode_moves_and_lanes :
    decodeWord 0x1E31D4789ABCDEF3 = some (.movi ⟨3, 0, 7, false⟩ .n64 (.s 7) 0x89ABCDEF) ∧
    decodeWord 0x1D31D47012345673 = some (.movh ⟨3, 0, 7, false⟩ (.s 7) 0x01234567) ∧
    decodeWord 0x5211C0603000CE00 = some (.vrev ⟨1, 0, 7, false⟩ 3 (.v 6) (.v 6) 7) ∧
    decodeWord 0x5A31D49060000002 = some (.vfirst ⟨3, 0, 7, false⟩ .n32 (.s 9) (.v 12)) := by decide +kernel

/-- Atomics, level counters, counters and fences. -/
theorem test_decode_memory_operations :
    decodeWord 0x8003C050301C0002 = some (.atomAdd ⟨0, 1, 7, false⟩ .n32 .dflt .normal (.v 5) (.v 6) (.v 7) none) ∧
    decodeWord 0x9001C00018100009 = some (.lcadd ⟨0, 0, 7, false⟩ .dflt (.v 3) (.v 4) none) ∧
    decodeWord 0xA101C00A25140000 = some (.ctradd ⟨0, 0, 7, false⟩ .dflt .dflt none (.s 4) (.s 5) none) ∧
    decodeWord 0xA801C00005C00000 = some (.fence ⟨0, 0, 7, false⟩ .device .ar) := by decide +kernel

/-- Copies, matrix and control instructions. -/
theorem test_decode_engines_and_control :
    decodeWord 0xB001C00A80000000 = some (.copy ⟨0, 0, 7, false⟩ .dflt false 0 .normal 16) ∧
    decodeWord 0xC001C00A80000000 = some (.mma ⟨0, 0, 7, false⟩ 16) ∧
    decodeWord 0xD201D38000000060 = some (.call ⟨0, 0, 7, false⟩ true .each ⟨7, false⟩ 0x60) ∧
    decodeWord 0xD301C00004000000 = some (.ret ⟨0, 0, 7, false⟩ true (.v 0)) ∧
    decodeWord 0xD101C00020000000 = some (.brx ⟨0, 0, 7, false⟩ false (.v 4)) ∧
    decodeWord 0xDB01C0000000BAD0 = some (.trap ⟨0, 0, 7, false⟩ 0xBAD) ∧
    decodeWord 0xDD31D45000000010 = some (.rdsr ⟨3, 0, 7, false⟩ (.s 5) 0x010) ∧
    decodeWord 0xE001C00000000030 = some (.leaseDecl ⟨0, 0, 7, false⟩ 48) ∧
    decodeWord 0xE001C00004000030 = some (.leaseMeas ⟨0, 0, 7, false⟩ 48) := by decide +kernel

/-- An opcode that no table assigns, a reserved SBW, a reserved predicate, and a reserved bit of NOP are no instructions (R67, R103). -/
theorem test_decode_refuses :
    decodeWord 0x1B01C00000000000 = none ∧ decodeWord 0x205FC07030100009 = none ∧ decodeWord 0x2053E07030100009 = none ∧
    decodeWord (encode (.nop h0) ||| 1) = none := by decide +kernel

/-! ### A small state: one warp of 64 V registers that stands at a clause -/

/-- A page table entry as a station caches it (R345): valid, a leaf, permissions as given. -/
def pte (frame attr perms : Nat) : DWord := BitVec.ofNat 64 (frame + 32 * attr + 4 * perms + 3)

/-- Three pages of context 0: one NC at 0x10000, one normal at 0x20000 that may be executed, and one LCM at 0x30000 of base register 0. -/
def tlb0 : List TlbEntry :=
  [{ station := 0, asid := 0, va := 0x10000, size := 0x10000, pte := pte 0x10000 2 7 }, { station := 0, asid := 0, va := 0x20000, size := 0x10000, pte := pte 0x20000 0 7 },
   { station := 0, asid := 0, va := 0x30000, size := 0x10000, pte := pte 0 1 3 }]

/-- A packet of 64 KiB of scratch, with 4 wait-table entries. -/
def pkt0 : List Byte := ((List.replicate 160 (0 : Byte)).set 0x24 0x08).set 0x25 0x01

/-- Registers: V1 the thread number, V2 all ones, the pair V4 V5 the address 8 t of the own scratch window, the pair V6 V7 the address 0x20000 + 8 t,
V8 = 1.0, V9 the odd numbers, the pair V10 V11 the address 0x30000 + t; S1 scratch, S2 = 7, S3 an NC address, S4 a global one, S5 an LCM one. -/
def regs0 : Regs :=
  let r := Regs.start 64 0x20000
  let reg := fun (f : Nat → Word) => ({ slots := threads.map f, tag := 0 } : VReg)
  { r with
    v := ((((((((((r.v.set 1 (reg (BitVec.ofNat 32))).set 2 (reg (fun _ => 0xFFFFFFFF))).set 4 (reg (fun t => BitVec.ofNat 32 (8 * t)))).set 5
      (reg (fun _ => 0xFF800000))).set 6 (reg (fun t => BitVec.ofNat 32 (0x20000 + 8 * t)))).set 7 (reg (fun _ => 0))).set 8
      (reg (fun _ => 0x3F800000))).set 9 (reg (fun t => BitVec.ofNat 32 (2 * t + 1)))).set 10 (reg (fun t => BitVec.ofNat 32 (0x30000 + t)))).set 11 (reg (fun _ => 0)))
    s := ((((r.s.set 1 0xFF80000000000100).set 2 7).set 3 0x10100).set 4 0x20100).set 5 0x30100
    p := r.p.set 0 0x0000FFFF }

/-- The state in which warp 0 stands at the first of some words. -/
def standWords (r : Regs) (ws : List DWord) : State :=
  let s := State.reset.place 0
  { s with
    partition := { s.partition with mode := 2 }
    tlb := tlb0
    ctxs := s.ctxs.map (fun c => { c with lcbase := c.lcbase.set 0 0x201 })
    launches := s.launches.map (fun l => { l with pkt := pkt0 })
    warps := s.warps.map (fun x => { x with
      regs := r
      clause := some { Clause.single 0 0 with words := ws, cls := wordClass (ws.headD 0).toNat } }) }

/-- The state in which warp 0 stands at an instruction that another follows. -/
def stand (i : Instr) : State := standWords regs0 [encode i, encode (.nop h0)]

/-- The state in which warp 0 stands at the last instruction of its clause. -/
def standLast (i : Instr) : State := standWords regs0 [encode i]

/-- The state after a step that goes on. -/
def ran (s : State) : State :=
  match step s with
  | .next t => t
  | .fault _ | .refused _ => s

/-- An element of warp 0 after one instruction. -/
def elemOf (i : Instr) (g : Reg) (t : Nat) : Option Word := ((ran (stand i)).regs 0).elem g t

/-- The state with more values in registers of warp 0. -/
def withRegs (s : State) (f : Regs → Regs) : State := { s with warps := s.warps.map (fun x => { x with regs := f x.regs }) }

/-! ### What the statements about instructions assume -/

/-- What an instruction sees where it is ready and nothing stands in its way. -/
def env? (i : Instr) (n : Need) : Option Env := if i.wf && (stand i).shaped then (stand i).ready? n else none

/-- The premises of Yields, Computes and ComputesOn. -/
def meetsOn (i : Instr) (n : Need) (d : Opnd) (wide : Bool) (srcs : Env → List Src) : Bool :=
  match env? i n with
  | none => false
  | some e =>
    let an := anchorOf e.regs (opndRegs wide d) e.act (srcs e)
    d.isS || mapFits e.regs (opndRegs wide d) (resultMap e.act an (resultOf (srcs e) an.slots (fun _ _ => 0)))

/-- The premises of ComputesOn. -/
def meets (i : Instr) (h : Head) (lat : Nat) (wide : Bool) (d : Opnd) (xs : List (Ty × Opnd)) (imm : List Src := []) (draws : Bool := false) : Bool :=
  meetsOn i (aluNeed h lat wide d xs draws) d wide (fun e => xs.map (fun x => e.src x.1 x.2) ++ imm)

/-- The premises of Compares and Decides. -/
def decides (i : Instr) (n : Need) (srcs : Env → List Src) : Bool :=
  match env? i n with
  | none => false
  | some e => threads.all (fun t => !inMask e.act t || !srcVoid (srcs e) t)

/-- The premises of Compares. -/
def compares (i : Instr) (h : Head) (lat : Nat) (ty : Ty) (pd : Nat) (xs : List Opnd) (imm : List Src := []) : Bool :=
  decides i { head := h, cls := some (if allBroadcast xs then 1 else 0), reads := readRegs (xs.map (fun x => (ty, x)))
              ls := readLs (xs.map (fun x => (ty, x))), writes := [.p pd], lat := some lat }
    (fun e => xs.map (fun x => e.src ty x) ++ imm)

/-- A predicated head, with a scoreboard. -/
def h1 : Head := ⟨3, 2, 0, false⟩

theorem witness_IntegerResults :
    (meets (.iadd h0 .n8 false (.v 3) (.v 1) (.v 2)) h0 4 false (.v 3) [(.n8, .v 1), (.n8, .v 2)] &&
    meets (.iadd h1 .n64 true (.s 9) (.s 1) (.c 63)) h1 4 true (.s 9) [(.n64, .s 1), (.n64, .c 63)] &&
    meets (.iaddImm h0 .i64 false (.v 2) (.v 4) 0x3FFFF) h0 4 true (.v 2) [(.i64, .v 4)] [immInt 0x3FFFF] &&
    meets (.isub h1 .i8 true (.v 3) (.v 1) (.v 3)) h1 4 false (.v 3) [(.i8, .v 1), (.i8, .v 3)] &&
    meets (.isubImm h0 .n32 true (.o 7) (.v 1) 0) h0 4 false (.o 7) [(.n32, .v 1)] [immInt 0] &&
    meets (.imul h0 .i16 (.v 63) .vtid .vlane) h0 4 false (.v 63) [(.i16, .vtid), (.i16, .vlane)] &&
    meets (.imulImm h0 .n16 (.v 0) .vz 0x1FFFF) h0 4 false (.v 0) [(.n16, .vz)] [immInt 0x1FFFF] &&
    meets (.imulhi h0 .n64 (.v 2) (.v 4) (.s 1)) h0 4 true (.v 2) [(.n64, .v 4), (.n64, .s 1)] &&
    meets (.imad h0 .n32 (.v 3) (.v 1) (.v 2) (.v 3)) h0 4 false (.v 3) [(.n32, .v 1), (.n32, .v 2), (.n32, .v 3)] &&
    meets (.imadw h0 .i32 (.v 12) (.v 1) (.v 2) (.v 4)) h0 4 true (.v 12) [(.i32, .v 1), (.i32, .v 2), (.n64, .v 4)] &&
    meets (.imin h0 .i64 (.v 2) (.v 4) (.v 6)) h0 4 true (.v 2) [(.i64, .v 4), (.i64, .v 6)] &&
    meets (.imax h0 .n8 (.s 3) (.s 1) (.c 0)) h0 4 false (.s 3) [(.n8, .s 1), (.n8, .c 0)] &&
    meets (.iabs h0 .i8 true (.v 3) (.v 2)) h0 4 false (.v 3) [(.i8, .v 2)] &&
    meets (.ineg h0 .n64 false (.v 2) (.v 4)) h0 4 true (.v 2) [(.n64, .v 4)] &&
    meets (.iclamp h0 .i32 (.v 3) (.v 1) (.c 0) (.s 2)) h0 4 false (.v 3) [(.i32, .v 1), (.i32, .c 0), (.i32, .s 2)] &&
    meets (.lea h0 .i32 7 (.v 2) (.s 1) (.v 1)) h0 4 true (.v 2) [(.n64, .s 1), (.i32, .v 1)]) = true := by decide +kernel

theorem witness_BitResults :
    (meets (.and h0 .n8 (.v 3) (.v 1) (.v 2)) h0 4 false (.v 3) [(.n8, .v 1), (.n8, .v 2)] &&
    meets (.andImm h0 .i64 (.v 2) (.v 4) 0x20000) h0 4 true (.v 2) [(.i64, .v 4)] [immInt 0x20000] &&
    meets (.or h0 .i32 (.s 3) (.s 1) (.s 2)) h0 4 false (.s 3) [(.i32, .s 1), (.i32, .s 2)] &&
    meets (.orImm h0 .n32 (.v 3) (.v 1) 1) h0 4 false (.v 3) [(.n32, .v 1)] [immInt 1] &&
    meets (.xor h0 .n16 (.v 3) (.v 1) (.v 2)) h0 4 false (.v 3) [(.n16, .v 1), (.n16, .v 2)] &&
    meets (.xorImm h0 .n32 (.v 3) (.v 1) 1) h0 4 false (.v 3) [(.n32, .v 1)] [immInt 1] &&
    meets (.andn h0 .n64 (.v 2) (.v 4) (.v 6)) h0 4 true (.v 2) [(.n64, .v 4), (.n64, .v 6)] &&
    meets (.andnImm h0 .n32 (.v 3) (.v 1) 1) h0 4 false (.v 3) [(.n32, .v 1)] [immInt 1] &&
    meets (.not h0 .i8 (.v 3) (.v 1)) h0 4 false (.v 3) [(.i8, .v 1)] &&
    meets (.shl h0 .n64 (.v 2) (.v 4) (.v 6)) h0 4 true (.v 2) [(.n64, .v 4), (.n64, .v 6)] &&
    meets (.shlImm h0 .n32 (.v 3) (.v 1) 32) h0 4 false (.v 3) [(.n32, .v 1)] [immInt 32] &&
    meets (.shr h0 .i8 (.v 3) (.v 2) (.v 1)) h0 4 false (.v 3) [(.i8, .v 2), (.i8, .v 1)] &&
    meets (.shrImm h0 .n32 (.v 3) (.v 1) 31) h0 4 false (.v 3) [(.n32, .v 1)] [immInt 31] &&
    meets (.sar h0 .i16 (.v 3) (.v 2) (.v 1)) h0 4 false (.v 3) [(.i16, .v 2), (.i16, .v 1)] &&
    meets (.sarImm h0 .i64 (.v 2) (.v 4) 63) h0 4 true (.v 2) [(.i64, .v 4)] [immInt 63] &&
    meets (.rotl h0 .n8 (.v 3) (.v 2) (.v 1)) h0 4 false (.v 3) [(.n8, .v 2), (.n8, .v 1)] &&
    meets (.rotlImm h0 .n32 (.v 3) (.v 1) 33) h0 4 false (.v 3) [(.n32, .v 1)] [immInt 33] &&
    meets (.bfx h0 .i32 (.v 3) (.v 2) (.s 2)) h0 4 false (.v 3) [(.i32, .v 2), (.i32, .s 2)] &&
    meets (.bfxImm h0 .n64 (.v 2) (.v 4) 0xFFFF) h0 4 true (.v 2) [(.n64, .v 4)] [immInt 0xFFFF] &&
    meets (.bfi h0 .n32 (.v 3) (.v 1) (.v 2) (.v 3)) h0 4 false (.v 3) [(.n32, .v 1), (.n32, .v 2), (.n32, .v 3)] &&
    meets (.bfiImm h0 .n32 (.v 3) (.v 1) 0x0804) h0 4 false (.v 3) [(.n32, .v 1), (.n32, .v 3)] [immInt 0x0804] &&
    meets (.clz h0 .n8 (.v 3) (.v 1)) h0 4 false (.v 3) [(.n8, .v 1)] && meets (.popc h0 .i64 (.v 2) (.v 4)) h0 4 true (.v 2) [(.i64, .v 4)] &&
    meets (.brev h0 .n16 (.s 3) (.s 2)) h0 4 false (.s 3) [(.n16, .s 2)]) = true := by decide +kernel

theorem witness_ChoiceResults :
    (meetsOn (.sel h0 .n32 (.v 3) (.v 1) (.v 2) ⟨0, true⟩)
      { aluNeed h0 4 false (.v 3) [(.n32, .v 1), (.n32, .v 2)] with reads := readRegs [(.n32, .v 1), (.n32, .v 2)] ++ predReads ⟨0, true⟩ } (.v 3) false
      (fun e => [e.src .n32 (.v 1), e.src .n32 (.v 2)]) &&
    meetsOn (.sel h0 .n64 (.s 9) (.s 1) (.c 2) ⟨7, false⟩)
      { aluNeed h0 4 true (.s 9) [(.n64, .s 1), (.n64, .c 2)] with reads := readRegs [(.n64, .s 1), (.n64, .c 2)] ++ predReads ⟨7, false⟩ } (.s 9) true
      (fun e => [e.src .n64 (.s 1), e.src .n64 (.c 2)]) &&
    meets (.mov h0 .n32 (.o 0) (.v 1)) h0 4 false (.o 0) [(.n32, .v 1)] && meets (.movi h0 .i64 (.v 2) 0x80000000) h0 4 true (.v 2) [] &&
    meets (.movi h0 .f32 (.s 9) 1) h0 4 false (.s 9) [] && meets (.movh h0 (.v 4) 5) h0 4 true (.v 4) [(.n64, .v 4)] &&
    meets (.i2i h0 .n8 .i64 true (.v 3) (.v 4)) h0 4 false (.v 3) [(.i64, .v 4)] &&
    compares (.icmp h0 .i8 .lt 0 (.v 1) (.v 2)) h0 4 .i8 0 [.v 1, .v 2] && compares (.icmp h0 .n64 .ge 6 (.s 1) (.c 0)) h0 4 .n64 6 [.s 1, .c 0] &&
    compares (.icmpImm h1 .n32 .eq 1 (.v 1) 5) h1 4 .n32 1 [.v 1] [immInt 5] && compares (.fcmp h0 .f64 .lt 0 (.v 4) (.v 6)) h0 8 .f64 0 [.v 4, .v 6] &&
    compares (.fcmpImm h0 .f32 .lt 0 (.v 8) 5) h0 5 .f32 0 [.v 8] [immFloat .f32 5] &&
    decides (.vany h0 1 ⟨0, false⟩) (laneNeed h0 2 [.p 1] [] (predReads ⟨0, false⟩)) (fun _ => []) &&
    decides (.vall h1 6 ⟨7, false⟩) (laneNeed h1 2 [.p 6] [] (predReads ⟨7, false⟩)) (fun _ => [])) = true := by decide +kernel

theorem witness_FloatResults :
    (meets (.fadd h0 .f64 .rn (.v 2) (.v 4) (.v 6)) h0 8 true (.v 2) [(.f64, .v 4), (.f64, .v 6)] &&
    meets (.fadd h0 .f32 .rs (.v 3) (.v 8) (.v 9)) h0 5 false (.v 3) [(.f32, .v 8), (.f32, .v 9)] [] true &&
    meets (.faddImm h0 .f16x2 .rz (.v 3) (.v 8) 1) h0 5 false (.v 3) [(.f16x2, .v 8)] [immFloat .f16x2 1] &&
    meets (.fsub h0 .bf16 .rd (.s 3) (.s 1) (.s 2)) h0 5 false (.s 3) [(.bf16, .s 1), (.bf16, .s 2)] &&
    meets (.fmul h0 .bf16x2 .ru (.v 3) (.v 8) (.v 9)) h0 5 false (.v 3) [(.bf16x2, .v 8), (.bf16x2, .v 9)] &&
    meets (.fmulImm h0 .f16 .rn (.v 3) (.v 8) 2) h0 5 false (.v 3) [(.f16, .v 8)] [immFloat .f16 2] &&
    meets (.ffma h0 .f32 .rn (.v 3) (.v 8) (.v 9) (.v 3)) h0 5 false (.v 3) [(.f32, .v 8), (.f32, .v 9), (.f32, .v 3)] &&
    meets (.fdiv h0 .f32 .ru (.v 3) (.v 8) (.v 9)) h0 12 false (.v 3) [(.f32, .v 8), (.f32, .v 9)] &&
    meets (.fmin h0 .f32 (.v 3) (.v 8) (.v 9)) h0 5 false (.v 3) [(.f32, .v 8), (.f32, .v 9)] &&
    meets (.fminImm h0 .f32 (.v 3) (.v 8) 1) h0 5 false (.v 3) [(.f32, .v 8)] [immFloat .f32 1] &&
    meets (.fmax h0 .f64 (.v 2) (.v 4) (.v 6)) h0 8 true (.v 2) [(.f64, .v 4), (.f64, .v 6)] &&
    meets (.fmaxImm h0 .f32 (.v 3) (.v 8) 1) h0 5 false (.v 3) [(.f32, .v 8)] [immFloat .f32 1] &&
    meets (.frnd h0 .f16x2 .rz (.v 3) (.v 8)) h0 5 false (.v 3) [(.f16x2, .v 8)] && meets (.frcp h0 .f64 (.v 2) (.v 4)) h0 12 true (.v 2) [(.f64, .v 4)] &&
    meets (.frsq h0 .f32 (.v 3) (.v 8)) h0 12 false (.v 3) [(.f32, .v 8)] && meets (.fsqrt h0 .f16 (.v 3) (.v 8)) h0 12 false (.v 3) [(.f16, .v 8)] &&
    meets (.fexp2 h0 .f32 (.v 3) (.v 8)) h0 12 false (.v 3) [(.f32, .v 8)] && meets (.flog2 h0 .f16 (.v 3) (.v 8)) h0 12 false (.v 3) [(.f16, .v 8)] &&
    meets (.fsin h0 .bf16 (.v 3) (.v 8)) h0 12 false (.v 3) [(.bf16, .v 8)] && meets (.fcos h0 .f32 (.s 3) (.s 2)) h0 12 false (.s 3) [(.f32, .s 2)] &&
    meets (.fclass h0 .e5m2 (.v 3) (.v 8)) h0 5 false (.v 3) [(.e5m2, .v 8)] && meets (.fclass h0 .f64 (.v 3) (.v 4)) h0 8 false (.v 3) [(.f64, .v 4)] &&
    meets (.f2f h0 .e4m3 .f64 true .rs (.v 3) (.v 4)) h0 8 false (.v 3) [(.f64, .v 4)] [] true &&
    meets (.i2f h0 .f64 .i8 .rz (.v 2) (.v 1)) h0 8 true (.v 2) [(.i8, .v 1)] &&
    meets (.fdot2 h0 .f16x2 .rn (.v 3) (.v 8) (.v 9) (.v 1)) h0 5 false (.v 3) [(.f16x2, .v 8), (.f16x2, .v 9), (.f32, .v 1)]) = true := by
  decide +kernel

theorem witness_BlockAndRandomResults :
    (meetsOn (.bcvt h0 .bfp6 .rs (.v 3) (.v 8)) (blockNeed h0 (.v 3) [.v 8] true) (.v 3) false (fun _ => []) &&
    meetsOn (.bcvt h1 .bfp8 .rn (.o 3) (.v 8)) (blockNeed h1 (.o 3) [.v 8] false) (.o 3) false (fun _ => []) &&
    meetsOn (.bunp h0 .bfp4 (.v 3) (.v 8)) (blockNeed h0 (.v 3) [.v 8] false) (.v 3) false (fun _ => []) &&
    meetsOn (.bdot h0 .bfp8 (.v 3) (.v 8) (.v 9) (.v 1)) (blockNeed h0 (.v 3) [.v 8, .v 9, .v 1] false) (.v 3) false (fun e => [e.src .f32 (.v 1)]) &&
    meets (.rand h0 .n64 (.v 2)) h0 4 true (.v 2) [] [] true && meets (.rand h1 .f32 (.v 3)) h1 4 false (.v 3) [] [] true) = true := by decide +kernel

theorem witness_SaturationClamps :
    (meets (.iadd h0 .i8 true (.v 3) (.v 1) (.v 2)) h0 4 false (.v 3) [(.i8, .v 1), (.i8, .v 2)] &&
    meets (.iaddImm h0 .n64 true (.v 2) (.v 4) 0x1FFFF) h0 4 true (.v 2) [(.n64, .v 4)] [immInt 0x1FFFF] &&
    meets (.isub h0 .n8 true (.v 3) (.v 1) (.v 2)) h0 4 false (.v 3) [(.n8, .v 1), (.n8, .v 2)] &&
    meets (.isubImm h0 .i64 true (.s 3) (.s 1) 1) h0 4 true (.s 3) [(.i64, .s 1)] [immInt 1] &&
    meets (.iabs h0 .i32 true (.v 3) (.v 2)) h0 4 false (.v 3) [(.i32, .v 2)] &&
    meets (.ineg h0 .n32 true (.v 3) (.v 2)) h0 4 false (.v 3) [(.n32, .v 2)]) = true := by decide +kernel

/-- 2.5 is a tie that rounds to the even 2, and 1.5 one that rounds to 2; NaN and both infinities are encodings. -/
theorem witness_FloatToInteger :
    (meets (.f2i h0 .i8 .f32 true .rn (.v 3) (.v 8)) h0 5 false (.v 3) [(.f32, .v 8)] &&
    meets (.f2i h0 .n64 .f64 false .ru (.v 2) (.v 4)) h0 8 true (.v 2) [(.f64, .v 4)]) = true ∧ fdec .f32 0x40200000 = .fin false 10485760 (-22) false ∧
    fdec .f32 0x7FC00000 = .nan ∧ fdec .f32 0x7F800000 = .inf false ∧ fdec .f32 0xFF800000 = .inf true ∧
    (10485760 * (2 : ℚ) ^ (-22 : Int) = 5 / 2 ∧ |(5 : ℚ) / 2 - (2 : Int)| ≤ 1 / 2 ∧ (2 : Int) % 2 = 0) := by
  refine ⟨by decide +kernel, by decide +kernel, by decide +kernel, by decide +kernel, by decide +kernel, ?_, ?_, by decide⟩ <;> norm_num

/-! ### Single steps of arithmetic instructions -/

/-- R134: all ones and 2 make 1 modulo 2^32. -/
theorem test_iadd_wraps : elemOf (.iaddImm h0 .n32 false (.v 3) (.v 2) 2) (.v 3) 5 = some 1 := by decide +kernel
/-- R135: with SAT the same unsigned sum is the largest number. -/
theorem test_iadd_saturates : elemOf (.iaddImm h0 .n32 true (.v 3) (.v 2) 2) (.v 3) 5 = some 0xFFFFFFFF := by decide +kernel
/-- R134: 5 less 7 is -2. -/
theorem test_isub : elemOf (.isub h0 .i32 false (.v 3) (.v 1) (.s 2)) (.v 3) 5 = some 0xFFFFFFFE := by decide +kernel
/-- R134: the high half of the product of all ones with itself. -/
theorem test_imulhi : elemOf (.imulhi h0 .n32 (.v 3) (.v 2) (.v 2)) (.v 3) 0 = some 0xFFFFFFFE := by decide +kernel
/-- R134: a multiply-add whose destination is its addend: 5 times 11 and 5. -/
theorem test_imad : elemOf (.imad h0 .n32 (.v 1) (.v 1) (.v 9) (.v 1)) (.v 1) 5 = some 60 := by decide +kernel
/-- R67: a thread that the predicate excludes keeps its element. -/
theorem test_predicate_excludes : elemOf (.mov ⟨0, 0, 0, false⟩ .n32 (.v 9) (.v 1)) (.v 9) 16 = some 33 := by decide +kernel
/-- R136: -1 is the smaller of -1 and 0 for a signed type. -/
theorem test_imin_signed : elemOf (.imin h0 .i32 (.v 3) (.v 2) (.v 1)) (.v 3) 0 = some 0xFFFFFFFF := by decide +kernel
/-- R139: a logical shift by the width gives 0, and an arithmetic one the sign. -/
theorem test_shifts_by_width : elemOf (.shrImm h0 .n32 (.v 3) (.v 2) 32) (.v 3) 0 = some 0 ∧
    elemOf (.sarImm h0 .i32 (.v 3) (.v 2) 32) (.v 3) 0 = some 0xFFFFFFFF := by decide +kernel
/-- R139: rotating thread 3's 3 left by 31 brings its low bit to the top. -/
theorem test_rotl : elemOf (.rotlImm h0 .n32 (.v 3) (.v 1) 31) (.v 3) 3 = some 0x80000001 := by decide +kernel
/-- R140: the four bits of 31 from bit 1 on, sign-extended, are all ones. -/
theorem test_bfx_signed : elemOf (.bfxImm h0 .i32 (.v 3) (.v 1) 0x0401) (.v 3) 31 = some 0xFFFFFFFF := by decide +kernel
/-- R141: 27 leading zeros and 5 ones in 31, as words. -/
theorem test_clz_popc : elemOf (.clz h0 .n32 (.v 3) (.v 1)) (.v 3) 31 = some 27 ∧ elemOf (.popc h0 .n32 (.v 3) (.v 1)) (.v 3) 31 = some 5 := by
  decide +kernel
/-- R144: MOVI of .N64 zero-extends and of .I64 sign-extends. -/
theorem test_movi : ((ran (stand (.movi h0 .n64 (.s 9) 0x80000000))).regs 0).s[9]? = some 0x80000000 ∧
    ((ran (stand (.movi h0 .i64 (.s 9) 0x80000000))).regs 0).s[9]? = some 0xFFFFFFFF80000000 := by decide +kernel
/-- R132: the compare writes the bits of the threads it acts on: t below 7. -/
theorem test_icmp : ((ran (stand (.icmp h0 .n32 .lt 1 (.v 1) (.s 2)))).regs 0).p[1]? = some 0x7F := by decide +kernel
/-- R146: 1.0 and 1.0 make 2.0. -/
theorem test_fadd : elemOf (.fadd h0 .f32 .rn (.v 3) (.v 8) (.v 8)) (.v 3) 0 = some 0x40000000 := by decide +kernel
/-- R115: a third of 1.0 rounds down toward zero and up away from it. -/
theorem test_fdiv_rounds :
    let s := fun (rm : Rm) => withRegs (stand (.fdiv h0 .f32 rm (.v 3) (.v 8) (.s 2))) (fun r => { r with s := r.s.set 2 0x40400000 })
    ((ran (s .rd)).regs 0).elem (.v 3) 0 = some 0x3EAAAAAA ∧ ((ran (s .ru)).regs 0).elem (.v 3) 0 = some 0x3EAAAAAB := by decide +kernel
/-- R118: 1.0 as an integer, and R149 the reciprocal of 1.0. -/
theorem test_f2i_frcp : elemOf (.f2i h0 .n32 .f32 false .rz (.v 3) (.v 8)) (.v 3) 0 = some 1 ∧
    elemOf (.frcp h0 .f32 (.v 3) (.v 8)) (.v 3) 0 = some 0x3F800000 := by decide +kernel
/-- R117: 3 as a half-precision number. -/
theorem test_i2f : elemOf (.i2f h0 .f16 .n32 .rn (.v 3) (.v 1)) (.v 3) 3 = some 0x4200 := by decide +kernel

/-! ### Lane instructions -/

/-- The premises of Gives. -/
def gives (i : Instr) (n : Need) (outs : Nat) (pre : Env → Bool := fun _ => true) : Bool :=
  match env? i n with
  | none => false
  | some e => pre e && decide (outs ≤ e.regs.freeTables) && (decide (outs ≤ 1) || e.regs.counted n.writes)

/-- The tag of rotation by 1 in groups of 32 (R38), and the map it describes. -/
theorem witness_LaneMapTags :
    (tagOk (mkTag 2 5 1 0) = true ∧ composeTag (mkTag 2 5 1 0) (canonPat 2 5 31) = some 0) ∧
    (tagOk (mkTag 5 0 0 15) = true ∧ 3 ≤ 5 ∧ (composeTag (mkTag 5 0 0 15) (canonPat 2 0 0)).isSome = true) ∧
    (tagOk (mkTag 1 1 1 0) = true ∧ (composeTag (mkTag 1 1 1 0) (canonPat 1 5 31)).isSome = true) ∧
    (LMap.ident.length = 32 ∧ canonTag .ident = some 0) ∧ (LMap.void.length = 32 ∧ (canonTag .void).isSome = true) := by decide +kernel

theorem witness_LaneResults :
    (gives (.vxor h0 (.v 3) (.v 1) 31) (laneNeed h0 2 [.v 3] [(.n32, .v 1)]) 1 (fun e => ((e.view (.v 1)).tag.map tagOk).getD true) &&
    gives (.vrot h1 5 (.v 1) (.v 1) 1) (laneNeed h1 2 [.v 1] [(.n32, .v 1)]) 1 (fun e => ((e.view (.v 1)).tag.map tagOk).getD true) &&
    gives (.vrev h0 0 (.v 3) (.v 1) 0) (laneNeed h0 2 [.v 3] [(.n32, .v 1)]) 1 && gives (.vbcast h0 5 (.o 3) (.v 1) 31) (laneNeed h0 2 [.o 3] [(.n32, .v 1)]) 1 &&
    gives (.vshuf h0 (.v 3) (.v 1) (.v 9)) (laneNeed h0 2 [.v 3] [(.n32, .v 1), (.n32, .v 9)]) 1 &&
    gives (.vtrn h0 3 (.v 16) (.v 0)) { head := h0, cls := some 0, reads := vRun (.v 0) 8, writes := vRun (.v 16) 8, lat := some 2 } 8
      (fun e => threads.any (fun u => !decide ((List.range 8).filterMap (fun j => (e.regs.map (.v j)).at u)).Nodup)) &&
    gives (.vcompact h0 (.v 3) (.v 1) ⟨0, false⟩ (some 9))
      { laneNeed h0 2 [.v 3] [(.n32, .v 1)] (predReads ⟨0, false⟩) with also := [(.s 9, 3)] } 1 &&
    gives (.vexpand h0 (.v 3) (.v 1) ⟨0, true⟩) (laneNeed h0 2 [.v 3] [(.n32, .v 1)] (predReads ⟨0, true⟩)) 1 &&
    gives (.vfire h0 (.v 3) (.v 1)) (laneNeed h0 6 [.v 3] [(.n32, .v 1)]) 1 && gives (.vmaprd h0 false (.v 3) (.v 1)) (laneNeed h0 2 [.v 3] [(.n32, .v 1)]) 1 &&
    gives (.vmaprd h0 true (.s 9) (.v 1)) (laneNeed h0 3 [.s 9] [(.n32, .v 1)]) 0) = true := by decide +kernel

theorem witness_WarpQueryResults :
    (gives (.vfirst h1 .n32 (.s 9) (.v 1)) (laneNeed h1 3 [.s 9] [(.n32, .v 1)]) 0 (fun e => ((e.lsrc .n32 (.v 1)).at (lowestOf e.act)).isSome) &&
    gives (.vballot h0 (.s 9) ⟨0, true⟩) (laneNeed h0 3 [.s 9] [] (predReads ⟨0, true⟩)) 0 && gives (.vactive h1 (.s 9)) (laneNeed h1 3 [.s 9] []) 0 &&
    meetsOn (.vmatch h0 .n64 (.v 3) (.v 4)) (laneNeed h0 6 [.v 3] [(.n64, .v 4)]) (.v 3) false (fun e => [e.lsrc .n64 (.v 4)])) = true := by decide +kernel

theorem witness_ReductionResults :
    (meetsOn (.vred h0 .f32 .add (.s 9) (.v 8)) (laneNeed h0 3 [.s 9] [(.f32, .v 8)]) (.s 9) false (fun _ => []) &&
    meetsOn (.vred h0 .i64 .min (.v 2) (.v 4)) (laneNeed h0 6 [.v 2, .v 3] [(.i64, .v 4)]) (.v 2) true (fun _ => []) &&
    meetsOn (.vscan h1 .n32 .xor true (.v 3) (.v 1)) (laneNeed h1 6 [.v 3] [(.n32, .v 1)]) (.v 3) false (fun e => [e.lsrc .n32 (.v 1)]) &&
    meetsOn (.vsegred h0 .i32 .add (.v 3) (.v 1) ⟨0, false⟩) (laneNeed h0 6 [.v 3] [(.i32, .v 1)] (predReads ⟨0, false⟩)) (.v 3) false
      (fun e => [e.lsrc .i32 (.v 1)])) = true ∧
    (Ty.i8.isInt = true ∧ (1 : DWord) = lowBits .i8 1 ∧ (redTree .i8 .add (threads.map (fun t => if t = 3 then none else some 1))).isSome = true ∧
      ((scanTree .i8 .add (threads.map (fun t => if t = 3 then none else some 1))).getD 31 none).isSome = true) := by decide +kernel

theorem witness_SelectionResults :
    (gives (.vsort h0 .i8 true true (.v 3) (.v 2) (some 12)) (laneNeed h0 6 [.v 3, .v 12] [(.n32, .v 2)]) 2 &&
    gives (.vsort h1 .f32 false false (.v 3) (.v 9) none) (laneNeed h1 2 [.v 3] [(.n32, .v 9)]) 1 &&
    gives (.vtopk h0 .n32 true (.v 3) (.v 1) (.c 32) 12) (laneNeed h0 2 [.v 3, .v 12] [(.n32, .v 1), (.n64, .c 32)]) 2 &&
    gives (.vtopkMulti h0 .n16 false 6 (.v 16) (.v 0) (.s 1) 18) (laneNeed h0 6 [.v 16, .v 17, .v 18, .v 19] [(.n64, .s 1)] (vRun (.v 0) 8)) 4 &&
    gives (.vbin h0 62 (.v 12) (.v 1) ⟨0, false⟩ (.c 63))
      { laneNeed h0 2 (vRun (.v 12) 3) [(.n32, .v 1), (.n64, .c 63)] (predReads ⟨0, false⟩) with also := [(.s 62, 3), (.s 63, 3)] } 3) = true ∧
    [3, 4, 31].Pairwise (· < ·) := by decide +kernel

/-- R167: thread 5 receives the element of thread 4. -/
theorem test_vxor : elemOf (.vxor h0 (.v 3) (.v 9) 1) (.v 3) 5 = some 9 := by decide +kernel
/-- R167: rotation by 3 in groups of 8: thread 6 receives the element of thread 1. -/
theorem test_vrot : elemOf (.vrot h0 3 (.v 3) (.v 1) 3) (.v 3) 6 = some 1 := by decide +kernel
/-- R168: thread 2 names thread 5; thread 16 names thread 33, which is none, and is VOID. -/
theorem test_vshuf : elemOf (.vshuf h0 (.v 3) (.v 1) (.v 9)) (.v 3) 2 = some 5 ∧ elemOf (.vshuf h0 (.v 3) (.v 1) (.v 9)) (.v 3) 16 = none := by
  decide +kernel
/-- R172: in a group of 2, the second element of the first register changes places with the first of the second. -/
theorem test_vtrn : elemOf (.vtrn h0 1 (.v 12) (.v 8)) (.v 12) 1 = some 1 ∧ elemOf (.vtrn h0 1 (.v 12) (.v 8)) (.v 13) 0 = some 0x3F800000 := by
  decide +kernel
/-- R173: the threads that P0 leaves out stand first, and the others are VOID. -/
theorem test_vcompact : elemOf (.vcompact h0 (.v 3) (.v 1) ⟨0, true⟩ none) (.v 3) 0 = some 16 ∧
    elemOf (.vcompact h0 (.v 3) (.v 1) ⟨0, true⟩ none) (.v 3) 16 = none := by decide +kernel
/-- R176: the sum of 0 to 31; the exclusive scan of thread 4 is 0 + 1 + 2 + 3. -/
theorem test_vred_vscan : ((ran (stand (.vred h0 .n32 .add (.s 9) (.v 1)))).regs 0).s[9]? = some 496 ∧
    elemOf (.vscan h0 .n32 .add true (.v 3) (.v 1)) (.v 3) 4 = some 6 := by decide +kernel
/-- R177: the largest comes first in a descending order, and its index with it. -/
theorem test_vsort : elemOf (.vsort h0 .n32 false false (.v 3) (.v 1) (some 12)) (.v 3) 0 = some 31 ∧
    elemOf (.vsort h0 .n32 false false (.v 3) (.v 1) (some 12)) (.v 12) 31 = some 0 := by decide +kernel
/-- R175: the threads of P0. -/
theorem test_vballot : ((ran (stand (.vballot h0 (.s 9) ⟨0, false⟩))).regs 0).s[9]? = some 0xFFFF := by decide +kernel

/-! ### Memory instructions as they issue -/

/-- The checks of R184 pass, so many requests are made, and a table is free for each destination: the premises of Asks. -/
def asks (i : Instr) (n : Need) (f : AddrForm) (groups : Nat) (whole : Bool) (data : Env → List Src) (qs : Env → List Ask)
    (s : State := stand i) (pre : Env → Bool := fun _ => true) : Bool :=
  match if i.wf && s.shaped then s.ready? n else none with
  | none => false
  | some e =>
    pre e && threads.all (fun t => !inMask e.act t || ((e.addr f t).isSome && !srcVoid (data e) t)) &&
    (match s.accept s.cur e.act whole (qs e) with
      | .go ps => ps.length == (qs e).length
      | .trap _ | .absent _ => false) &&
    decide ((s.stagedLines e.x.block).length + (qs e).length ≤ 16384) && decide (groups ≤ e.regs.freeTables)

/-- One request of each active thread, or one of all. -/
def each (f : AddrForm) (once : Bool) (size : Nat) (want : Env → Nat → Want) (align : Nat := size) (e : Env) : List Ask :=
  (if once then [lowestOf e.act] else threads.filter (inMask e.act)).map (fun t =>
    { thread := t, addr := (e.addr f t).getD 0, va := (e.addr f t).getD 0, size := size, want := want e t
      misaligned := ((e.addr f t).getD 0).toNat % align != 0 })

/-- Several requests of each active thread, each at its distance. -/
def several (f : AddrForm) (dist : List Nat) (size : Nat) (want : Want) (align : Nat) (e : Env) : List Ask :=
  (threads.filter (inMask e.act)).flatMap (fun t => dist.map (fun d =>
    { thread := t, addr := (e.addr f t).getD 0, va := (e.addr f t).getD 0 + BitVec.ofNat 64 d, size := size, want := want
      misaligned := ((e.addr f t).getD 0).toNat % align != 0 }))

theorem witness_LoadsAsk :
    (asks (.ld h1 .n64 .device .evictLast (.v 12) (.v 6) 8) (memNeed h1 (.off (.v 6) 8) [] [[.v 12, .v 13]]) (.off (.v 6) 8) 1 false (fun _ => [])
      (each (.off (.v 6) 8) false 8 (fun _ _ => .read)) &&
    asks (.ld h0 .n8 .dflt .normal (.s 9) (.s 1) 0x3FFFF) (memNeed h0 (.off (.s 1) (-1)) [] [[.s 9]]) (.off (.s 1) (-1)) 1 true (fun _ => [])
      (each (.off (.s 1) (-1)) true 1 (fun _ _ => .read)) &&
    asks (.ldIdx h0 .n32 .core .normal (.o 1) (.s 3) (.v 1) 3 0x40) (memNeed h0 (.idx (.s 3) (.v 1) 3 (-64)) [] [[.o 1]]) (.idx (.s 3) (.v 1) 3 (-64)) 1
      false (fun _ => []) (each (.idx (.s 3) (.v 1) 3 (-64)) false 4 (fun _ _ => .read)) &&
    asks (.ldx h0 .n32 6 .dflt .normal (.v 12) (.s 4) 0) (memNeed h0 (.off (.s 4) 0) [] (spanGroups .n32 (.v 12) 8)) (.off (.s 4) 0) 8 false (fun _ => [])
      (several (.off (.s 4) 0) ((List.range 8).map (4 * ·)) 4 .read 16) &&
    asks (.ldx h0 .f64 0 .dflt .normal (.v 12) (.s 4) 8) (memNeed h0 (.off (.s 4) 8) [] [[.v 12, .v 13]]) (.off (.s 4) 8) 1 false (fun _ => [])
      (several (.off (.s 4) 8) [0] 8 .read 8) &&
    asks (.ldrec h0 .bfp8 .dflt .normal (.v 12) (.s 1) 3) (memNeed h0 (.off (.s 1) 3) [] [[.v 12]]) (.off (.s 1) 3) 1 true (fun _ => [])
      (fun e => (List.range (bfpBytes .bfp8)).map (fun i => { thread := lowestOf e.act, addr := 0xFF80000000000103
                                                              va := 0xFF80000000000103 + BitVec.ofNat 64 i, size := 1, want := .read }))) = true := by
  decide +kernel

theorem witness_StoresAsk :
    (asks (.st h1 .n16 .dflt .normal (.s 2) (.v 6) 2) (memNeed h1 (.off (.v 6) 2) [(.n16, .s 2)] []) (.off (.v 6) 2) 0 false (fun e => [e.src .n16 (.s 2)])
      (each (.off (.v 6) 2) false 2 (fun _ _ => .write)) (pre := fun e => (e.s.boundsEntries e.w).isEmpty) &&
    asks (.stIdx h0 .f64 .dflt .normal (.v 4) (.s 1) (.v 4) 0 0) (memNeed h0 (.idx (.s 1) (.v 4) 0 0) [(.f64, .v 4)] []) (.idx (.s 1) (.v 4) 0 0) 0 false
      (fun e => [e.src .f64 (.v 4)]) (each (.idx (.s 1) (.v 4) 0 0) false 8 (fun _ _ => .write)) &&
    asks (.stx h0 .n32 1 .dflt .normal (.v 8) (.s 4) 0)
      { memNeed h0 (.off (.s 4) 0) [] [] with reads := [.s 4] ++ (spanGroups .n32 (.v 8) 3).flatten } (.off (.s 4) 0) 0 false
      (fun e => ((spanGroups .n32 (.v 8) 3).map (fun g => srcReg e.regs (g.headD (.v 0)) false)))
      (several (.off (.s 4) 0) [0, 4, 8] 4 .write 4) &&
    asks (.ststash h0 .n16 .dflt .normal (.v 0) (.s 1) 0x100) { memNeed h0 (.off (.s 1) 0x100) [] [] with reads := [.s 1] ++ regRun (.v 0) 32 }
      (.off (.s 1) 0x100) 0 false (fun e => (regRun (.v 0) 32).map (fun g => srcReg e.regs g false))
      (fun e => (threads.filter (inMask e.act)).flatMap (fun t => ([0, 4095] : List Nat).map (fun i =>
        { thread := t, addr := 0xFF80000000000200, va := 0xFF80000000000200 + BitVec.ofNat 64 i, size := 1, want := .write }))) &&
    decide ((stand (.nop h0)).boundsEntries 0 = [])) = true := by decide +kernel

theorem witness_AtomicsAsk :
    (let one := fun (i : Instr) (ty : Ty) (d : List (List Reg)) (a b : Opnd) (cb : Option (Fin 64)) (s : State) =>
      asks i (memNeed h0 (.reg a cb) [(ty, b)] d) (.reg a cb) d.length false (fun e => [e.src ty b]) (each (.reg a cb) false ty.bytes (fun _ _ => .rmw)) s
    let st := fun (i : Instr) => stand i
    let i1 : Instr := .atomAdd h0 .f16x2 .dflt .normal (.v 3) (.v 6) (.v 1) none
    let i2 : Instr := .atomMin h0 .f64 .die .normal (.v 12) (.s 1) (.s 2) none
    let i3 : Instr := .atomMax h0 .i64 .dflt .normal (.v 12) (.v 4) (.v 4) (some 1)
    let i4 : Instr := .atomAnd h0 .n32 .dflt .normal (.v 3) (.s 4) .vz none
    let i5 : Instr := .atomOr h0 .n32 .dflt .normal (.o 3) (.s 4) (.v 1) none
    let i6 : Instr := .atomXor h0 .n32 .dflt .normal (.v 3) (.s 4) (.v 1) none
    let i7 : Instr := .atomExch h0 .n32 .dflt .normal (.v 3) (.s 3) (.v 1) none
    let i8 : Instr := .redAdd h0 .bf16x2 .dflt .normal (.v 6) (.v 1) none
    let i9 : Instr := .redMin h0 .n32 .dflt .normal (.v 6) (.v 1) none
    let i10 : Instr := .redMax h0 .n32 .dflt .normal (.v 6) (.v 1) none
    let i11 : Instr := .redAnd h0 .n32 .dflt .normal (.v 6) (.v 1) none
    let i12 : Instr := .redOr h0 .n32 .dflt .normal (.v 6) (.v 1) none
    let i13 : Instr := .redXor h0 .n64 .dflt .normal (.v 6) (.v 4) none
    one i1 .f16x2 [[.v 3]] (.v 6) (.v 1) none (st i1) && one i2 .f64 [[.v 12, .v 13]] (.s 1) (.s 2) none (st i2) &&
    one i3 .i64 [[.v 12, .v 13]] (.v 4) (.v 4) (some 1) (st i3) && one i4 .n32 [[.v 3]] (.s 4) .vz none (st i4) &&
    one i5 .n32 [[.o 3]] (.s 4) (.v 1) none (st i5) && one i6 .n32 [[.v 3]] (.s 4) (.v 1) none (st i6) &&
    one i7 .n32 [[.v 3]] (.s 3) (.v 1) none (st i7) && one i8 .bf16x2 [] (.v 6) (.v 1) none (st i8) &&
    one i9 .n32 [] (.v 6) (.v 1) none (st i9) && one i10 .n32 [] (.v 6) (.v 1) none (st i10) && one i11 .n32 [] (.v 6) (.v 1) none (st i11) &&
    one i12 .n32 [] (.v 6) (.v 1) none (st i12) && one i13 .n64 [] (.v 6) (.v 4) none (st i13) &&
    asks (.atomcas h0 .n32 .dflt .normal (.v 3) (.v 6) (.v 1) (.v 9)) (memNeed h0 (.reg (.v 6) none) [(.n32, .v 1), (.n32, .v 9)] [[.v 3]]) (.reg (.v 6) none)
      1 false (fun e => [e.src .n32 (.v 1), e.src .n32 (.v 9)]) (each (.reg (.v 6) none) false 4 (fun _ _ => .rmw)) &&
    asks (.scadd h0 .f32 .dflt (.v 4) (.v 8) (some 1)) (memNeed h0 (.reg (.v 4) (some 1)) [(.f32, .v 8)] []) (.reg (.v 4) (some 1)) 0 false
      (fun e => [e.src .f32 (.v 8)]) (each (.reg (.v 4) (some 1)) false 4 (fun _ _ => .scadd))) = true ∧
    (Ty.i32.int32or64 = true ∧ (5 : DWord) = lowBits .i32 5 ∧ ([(3, 8, 5), (7, 8, 5), (31, 0, 5)] : List (Nat × DWord × DWord)).map Prod.fst =
      [3, 7, 31] ∧ (sumGroups .i32 [(3, 8, 5), (7, 8, 5), (31, 0, 5)]).length = 2) := by decide +kernel

/-- The state with a live counter at 0x400 of the warp's scratch and a retired one at 0x408, which S6 and S7 name. -/
def counters (i : Instr) : State :=
  let s := withRegs (stand i) (fun r => { r with s := (r.s.set 6 0xFF80000000000400).set 7 0xFF80000000000408 })
  { s with
    mem := [(scrKey 0 0 0x40F, 0x80)]
    tags := [{ loc := { place := .scr 0 0, addr := 0x400 }, ext := false }, { loc := { place := .scr 0 0, addr := 0x408 }, ext := true }] }

theorem witness_CountersAsk :
    (asks (.lcadd h0 .dflt (.v 10) (.v 8) none) (memNeed h0 (.reg (.v 10) none) [(.f32, .v 8)] [] true) (.reg (.v 10) none) 0 false
      (fun e => [e.src .f32 (.v 8)]) (each (.reg (.v 10) none) false 1 (fun _ _ => .lc none)) &&
    asks (.lcmrg h0 .die (.v 1) (.v 1) (some 5)) (memNeed h0 (.reg (.v 1) (some 5)) [(.n32, .v 1)] [] true) (.reg (.v 1) (some 5)) 0 false
      (fun e => [e.src .n32 (.v 1)]) (each (.reg (.v 1) (some 5)) false 1 (fun _ t => .lc (some t))) &&
    asks (.lcrd h0 (.v 3) (.s 5) 0) (memNeed h0 (.off (.s 5) 0) [] [[.v 3]]) (.off (.s 5) 0) 1 false (fun _ => [])
      (each (.off (.s 5) 0) false 1 (fun _ _ => .lc none)) &&
    asks (.lcrdRaw h1 (.o 3) (.v 10) 0x1FF) (memNeed h1 (.off (.v 10) 0x1FF) [] [[.o 3]]) (.off (.v 10) 0x1FF) 1 false (fun _ => [])
      (each (.off (.v 10) 0x1FF) false 1 (fun _ _ => .lc none)) &&
    asks (.lcinit h0 (.c 255) (.s 5) 0) (memNeed h0 (.off (.s 5) 0) [(.n8, .c 255)] []) (.off (.s 5) 0) 0 false (fun e => [e.src .n8 (.c 255)])
      (each (.off (.s 5) 0) false 1 (fun _ _ => .lc (some 255)))) = true ∧
    (let one := fun (i : Instr) (n : Need) (f : AddrForm) (once : Bool) (groups : Nat) (op : AccOp) (data : Env → List Src) =>
      asks i n f groups once data (each f once 8 (fun _ _ => .ctr op)) (counters i)
        (fun e => decide (e.s.refusedLine (e.s.clusterOf e.w) (e.s.asid (e.s.ctxIx e.w)) = none))
    one (.ctrinit h0 .dflt .dflt true (.v 4) (.v 4) (some 1)) (ctrNeed h0 (.reg (.v 4) (some 1)) [(.n64, .v 4)] []) (.reg (.v 4) (some 1)) false 0
      (.ctrInit true) (fun e => [e.src .n64 (.v 4)]) &&
    one (.ctradd h0 .core .acq (some (.s 9)) (.s 6) (.c 63) none) (ctrNeed h0 (.reg (.s 6) none) [(.n64, .c 63)] [[.s 9]]) (.reg (.s 6) none) true 1 .ctrAdd
      (fun e => [e.src .n64 (.c 63)]) &&
    one (.ctraddImm h0 .dflt .dflt none (.s 6) 0x3FFFF) (ctrNeed h0 (.reg (.s 6) none) [] []) (.reg (.s 6) none) true 0 .ctrAdd (fun _ => []) &&
    one (.ctrrd h0 .dflt .dflt (.s 9) (.s 1) none) (ctrNeed h0 (.reg (.s 1) none) [] [[.s 9]]) (.reg (.s 1) none) true 1 .ctrRead (fun _ => []) &&
    one (.ctrkill h0 .dflt .ar (.s 6) none) (ctrNeed h0 (.reg (.s 6) none) [] []) (.reg (.s 6) none) true 0 .ctrKill (fun _ => []) &&
    one (.ctrkillFree h0 .system .dflt (.s 7) none) (ctrNeed h0 (.reg (.s 7) none) [] []) (.reg (.s 7) none) true 0 .ctrFree (fun _ => []) &&
    one (.ctrarv h0 .dflt .dflt 6 (.s 6) (.c 63)) { ctrNeed h0 (.reg (.s 6) none) [(.n64, .c 63)] [] with writes := [.p 6] } (.reg (.s 6) none) true 0 .ctrArv
      (fun e => [e.src .n64 (.c 63)])) = true ∧
    asks (.launch h0 9 4 15) { memNeed h0 (.off (.s 4) 0) [] [[Reg.s 9]] with cls := some 6, memory := false } (.off (.s 4) 0) 1 true (fun _ => [])
      (fun e => (List.range 20).map (fun i => { thread := lowestOf e.act, addr := 0x20100, va := 0x20100 + BitVec.ofNat 64 (8 * i), size := 8, want := .read })) =
      true := by decide +kernel

/-- Each line instruction of a warp whose threads name three lines of the global region; a fence, a FENCEOP, a DRAIN and the LEASE forms. -/
theorem witness_LinesAndOrder :
    (let lines := fun (i : Instr) (f : AddrForm) =>
      match env? i (memNeed (i.head?.getD h0) f [] []) with
      | none => 0
      | some e => if threads.all (fun t => !inMask e.act t || (e.addr f t).isSome) then
          ((((threads.filter (inMask e.act)).map (fun t => (e.addr f t).getD 0)).filter (fun a =>
            canonical a && regionOf a.toNat == .global)).map (fun a => a &&& ~~~0x7F#64) |>.eraseDups).length else 0
    lines (.prefetch h0 .dflt .normal (.v 6) 8) (.off (.v 6) 8) = 3 ∧ lines (.prefetchIdx h0 .dflt .normal (.s 4) (.v 1) 3 0) (.idx (.s 4) (.v 1) 3 0) = 2 ∧
    lines (.cflush h0 .device .normal (.v 6) 0) (.off (.v 6) 0) = 2 ∧ lines (.cinv h0 .dflt .normal (.s 4) 0) (.off (.s 4) 0) = 1 ∧
    lines (.cflush h0 .core .normal (.s 1) 0) (.off (.s 1) 0) = 0 ∧ lines (.cdemote h0 .dflt (.s 4) 0) (.off (.s 4) 0) = 1) ∧
    ((env? (.fence h0 .core .ar) { head := h0, cls := some 5 }).isSome = true ∧ (env? (.fenceop h1) { head := h1, cls := some 5 }).isSome = true ∧
    (env? (.drain h0 .peer) { head := h0, cls := some 5 }).isSome = true ∧ (env? (.leaseDecl h0 192) { head := h0, cls := some 6 }).isSome = true ∧
    (env? (.leaseMeas h0 0) { head := h0, cls := some 6 }).isSome = true ∧
    ((standLast (.leaseMeas h0 192)).ready? { head := h0, cls := some 6 }).isSome = true) := by decide +kernel

/-- A wait for 0 is met by a live counter of 0; one for 63 is not; one that the retired counter ends. -/
theorem witness_CounterWaits :
    (let waits := fun (i : Instr) (n : Need) (va : DWord) (met : DWord → Bool) =>
      match if i.wf && (counters i).shaped then (counters i).ready? n else none with
      | none => false
      | some e =>
        (match (counters i).accept 0 e.act true [{ thread := lowestOf e.act, addr := va, va := va, size := 8, want := .ctr .ctrAdd }] with
          | .go [(_, l)] => isPeer l.place == false && met ((counters i).ctrWordAt l) && !(counters i).openOn 0 l
          | .go _ | .trap _ | .absent _ => false) && decide (e.c.idx + 1 < e.c.words.length) && !wcrStep e.x.wcr
    waits (.ctrwait h0 .dflt .dflt 0 (.s 6) (.c 0)) { ctrNeed h0 (.reg (.s 6) none) [(.n64, .c 0)] [] with writes := [.p 0] } 0xFF80000000000400
      (fun v => ctrReached v 0) &&
    waits (.ctrwait h0 .dflt .acq 6 (.s 6) (.c 63)) { ctrNeed h0 (.reg (.s 6) none) [(.n64, .c 63)] [] with writes := [.p 6] } 0xFF80000000000400
      (fun v => !ctrReached v 63) &&
    waits (.ctrwaitImm h0 .dflt .dflt 0 (.s 7) 5) { ctrNeed h0 (.reg (.s 7) none) [] [] with writes := [.p 0] } 0xFF80000000000408
      (fun v => ctrReached v 5)) = true := by decide +kernel

/-! ### Engines, control and special registers as they issue -/

/-- The state with n queued copies of warp 0. -/
def copying (s : State) (n : Nat) : State :=
  { s with copies := List.replicate n { warp := 0, kind := .copy, scope := .dflt, ord := false, bucket := 0, hint := .normal
                                        desc := List.replicate 6 0, state := .queued, after := 0 } }

/-- A slice of a generation of two that stands in collector 3 of block 0. -/
def slicing (s : State) : State :=
  { s with
    copies := [{ warp := 0, kind := .bcopy 2 3, scope := .dflt, ord := false, bucket := 0, hint := .normal, desc := List.replicate 6 0, state := .slice
                 after := 0 }]
    blocks := s.blocks.map (fun b => { b with slices := [{ coll := 3, copy := 0 }] }) }

theorem witness_EnginesAsk :
    (let need := fun (a : Fin 64) => ({ head := h0, cls := some 3, reads := descRegs a } : Need)
    let queued := fun (i : Instr) (a : Fin 64) (n : Nat) => i.wf && (copying (stand i) n).shaped && ((copying (stand i) n).ready? (need a)).isSome
    queued (.copy h0 .dflt true 255 .normal 58) 58 63 && queued (.copy h0 .dflt true 255 .normal 10) 10 64 && queued (.gather h0 .core false 0 .normal .i32 10) 10 0 &&
    queued (.scatter h0 .dflt false 0 .normal .n64 10) 10 64 && queued (.unpack h0 .dflt false 0 .normal .bfp4 10) 10 63 &&
    decide ((copying (stand (.nop h0)) 63).portEntries 0 = 63) && decide ((copying (stand (.nop h0)) 64).portEntries 0 = 64)) = true ∧
    (let i : Instr := .bcopy h0 .dflt false 0 .normal 2 3 10
    i.wf && ((slicing (stand i)).ready? { head := h0, cls := some 3, reads := descRegs 10 }).isSome &&
    decide ((slicing (stand i)).collected 0 3 = [0]) && decide ((slicing (stand i)).collected 0 4 = []) && decide ((slicing (stand i)).portEntries 0 < 64) &&
    (Instr.bcopy h0 .dflt false 0 .normal 96 4 10).wf) = true ∧
    (let i : Instr := .mma h0 8
    let s := withRegs (stand i) (fun r => { r with s := r.s.set 8 0xFF8000000000FF80 })
    i.wf && s.shaped && (match s.ready? { head := h0, cls := some 4, reads := [.s 8] } with
      | some e => e.regs.s.getD 8 0 == 0xFF8000000000FF80 && decide (0xFF80 + 128 ≤ s.scratchOf e.x.block) && regionOf 0xFF8000000000FF80 == .own 0xFF80 &&
          canonical 0xFF8000000000FF80 && decide ((s.core 0 0).mmaq.length < 8) && !s.openScratch 0 (.scr 0 0)
      | none => false)) = true ∧
    (let i : Instr := .maccwr h0 .bf16 (.s 2) (.v 1)
    (match env? i { head := h0, cls := some 4, reads := [.s 2, .v 1], ls := readLs [(.bf16, .v 1)] } with
      | some e => !(e.s.core 0 0).names 0 && threads.all (fun t => !srcVoid [e.src .bf16 (.v 1)] t) && (e.s.core 0 0).acc.isEmpty
      | none => false) &&
    (env? (.maccz h0 15 1) { head := h0, cls := some 4 }).isSome && (env? (.maccz h0 0 16) { head := h0, cls := some 4 }).isSome &&
    (match env? (.maccrd h1 .f16 (.v 3) (.c 63)) { head := h1, cls := some 4, reads := [], writes := [.v 3] } with
      | some e => decide (1 ≤ e.regs.freeTables) && !e.s.poison.contains (accPoison 0 0 1) && !(e.s.core 0 0).names 1
      | none => false)) = true := by decide +kernel

theorem witness_Branches :
    (let last := fun (i : Instr) (n : Need) => i.wf && (standLast i).shaped && ((standLast i).ready? n).isSome
    last (.bra h0 false .each ⟨0, false⟩ 0xFFFFFFF8) (branchNeed h0 (predReads ⟨0, false⟩) [] none) &&
    last (.bra h0 true .any ⟨0, true⟩ 2) (branchNeed h0 (predReads ⟨0, true⟩) [] none) &&
    last (.bra h1 true .all ⟨7, false⟩ 2) (branchNeed h1 (predReads ⟨7, false⟩) [] none) &&
    last (.call h0 true .each ⟨7, false⟩ 0x60) (branchNeed h0 (predReads ⟨7, false⟩) [.v 0, .v 1] (some 4)) &&
    last (.brx h0 false (.v 6)) (branchNeed h0 [.v 6, .v 7] [] none) && last (.ret h0 true (.s 4)) (branchNeed h0 [.s 4] [] none) &&
    (match (standLast (.brx h0 false (.v 6))).ready? (branchNeed h0 [.v 6, .v 7] [] none) with
      | some e => threads.all (fun t => !srcVoid [e.src .n64 (.v 6)] t && (((e.src .n64 (.v 6)).at t).getD 0).toNat % 8 == 0 &&
          canonical (((e.src .n64 (.v 6)).at t).getD 0)) && decide (1 ≤ e.regs.freeTables)
      | none => false) &&
    (match (standLast (.ret h0 true (.s 4))).ready? (branchNeed h0 [.s 4] [] none) with
      | some e => threads.all (fun t => ((e.src .n64 (.s 4)).at t).getD 0 == 0x20100)
      | none => false)) = true := by decide +kernel

theorem witness_ControlInstructions :
    (let last := fun (i : Instr) (n : Need) (s : State) => i.wf && s.shaped && (s.ready? n).isSome
    let i1 : Instr := .exit h1
    let i2 : Instr := .join h0
    let i3 : Instr := .yield h0 0xFFFF
    let i4 : Instr := .trap h1 7
    let i5 : Instr := .brk ⟨0, 0, 6, false⟩ 7
    let i6 : Instr := .nop h1
    last i1 (branchNeed h1 [] [] none) (standLast i1) && last i2 (branchNeed h0 [] [] none) (standLast i2) &&
    last i3 { head := h0, cls := some 6 } (stand i3) && last i3 { head := h0, cls := some 6 } (standLast i3) &&
    last i4 { head := h1, cls := some 6 } (stand i4) && last i5 { head := ⟨0, 0, 6, false⟩, always := true } (stand i5) &&
    last i6 { head := h1 } (stand i6) &&
    (let s := stand i6
     let t := { s with warps := s.warps.map (fun x => { x with wcr := 2 }) }
     wcrStep 2 && last i6 { head := h1 } t) &&
    decide ((standLast i3).openArrival 0 = none)) = true := by decide +kernel

theorem witness_MisalignedAccessTraps :
    (let bad := fun (i : Instr) (n : Need) (f : AddrForm) (ty : Ty) (d : Opnd) =>
      match env? i n with
      | some e => threads.all (fun t => !inMask e.act t || ((e.addr f t).isSome && !srcVoid [e.src ty d] t)) && !d.isS &&
          maskOf (fun t => inMask e.act t && ((e.addr f t).getD 0).toNat % ty.bytes != 0) != 0
      | none => false
    bad (.ld h0 .n64 .dflt .normal (.v 4) (.v 6) 1) (memNeed h0 (.off (.v 6) 1) [] [[.v 4, .v 5]]) (.off (.v 6) 1) .n64 (.v 4) &&
    bad (.st h1 .n16 .dflt .normal (.v 1) (.s 1) 0x3FFFF) (memNeed h1 (.off (.s 1) (-1)) [(.n16, .v 1)] []) (.off (.s 1) (-1)) .n16 (.v 1)) = true := by
  decide +kernel

theorem witness_SpecialRegisters :
    (let need := fun (d : Opnd) => ({ head := h0, cls := some 6, writes := opndRegs true d, lat := some (if d.isS then 3 else 4) } : Need)
    meetsOn (.rdsr h0 (.s 9) 0x05F) (need (.s 9)) (.s 9) true (fun _ => []) && meetsOn (.rdsr h0 (.v 12) 0x000) (need (.v 12)) (.v 12) true (fun _ => []) &&
    (env? (.rdtime h0 9) (need (.s 9))).isSome && meetsOn (.rdsr h0 (.v 12) 0x010) (need (.v 12)) (.v 12) true (fun _ => []) && (env? (.rdsr h0 (.s 9) 0x010) (need (.s 9))).isSome &&
    meetsOn (.rdsr h0 (.v 12) 0x087) (need (.v 12)) (.v 12) true (fun _ => []) && (env? (.rdsr h0 (.s 9) 0x087) (need (.s 9))).isSome && (env? (.rdsr h0 (.s 9) 0x080) (need (.s 9))).isSome && !(stand (.nop h0)).mayCount 0 7 &&
    (env? (.wrsr h0 0x000 (.s 1)) { head := h0, cls := some 6, reads := [.s 1] }).isSome &&
    (env? (.wrsr h0 0x01F (.c 5)) { head := h0, cls := some 6, reads := [] }).isSome &&
    (let s := stand (.nop h0)
    (s.warp? 0).isSome && (s.blockOf 0).isSome && (s.launchOf 0).isSome && (s.ctxs[0]?).isSome && decide (((s.warp? 0).map Warp.lastTime) = some 0) &&
    decide (((s.blockOf 0).map Block.cores) = some [0]) && (s.gangs[0]?).isSome && decide ((((s.regs 0).lpc[31]?).map Lpc.age) = some 0))) = true := by
  decide +kernel

/-- R217: P0 holds for threads 0 to 15, which go to the second word past the branch; the others go on after the clause. -/
theorem test_bra : ((ran (standLast (.bra h0 false .each ⟨0, false⟩ 2))).lane 15).map Lpc.waddr = some 3 ∧
    ((ran (standLast (.bra h0 false .each ⟨0, false⟩ 2))).lane 16).map Lpc.waddr = some 2 := by decide +kernel
/-- R73: with U the same branch traps for the threads that differ from the lowest. -/
theorem test_bra_uniform : ((ran (standLast (.bra h0 true .each ⟨0, false⟩ 2))).warp? 0).map (fun x => (x.state, x.fault[1]?)) =
    some (.trapped, some 0x3FFFF0000) := by decide +kernel
/-- R220: EXIT of the threads of P0. -/
theorem test_exit : ((ran (standLast (.exit ⟨0, 0, 0, false⟩))).lane 15).map Lpc.st = some .exited ∧
    ((ran (standLast (.exit ⟨0, 0, 0, false⟩))).lane 16).map Lpc.st = some .run := by decide +kernel
/-- R222: TRAP is done first: its record carries TRAPI and its immediate. -/
theorem test_trap : ((ran (stand (.trap h0 0xBAD))).warp? 0).map (fun x => (x.state, x.fault[1]?, x.fault[3]?, x.resume.done)) =
    some (.trapped, some 0x20FFFFFFFF, some 0xBAD, true) := by decide +kernel
/-- R103: a word that no table assigns raises ILLEGAL for the issue set. -/
theorem test_illegal : ((ran (standWords regs0 [0x1B01C00000000000])).warp? 0).map (fun x => (x.state, x.fault[1]?)) =
    some (.trapped, some 0x1FFFFFFFF) := by decide +kernel
/-- R184: a misaligned load raises ALIGN and asks nothing. -/
theorem test_ld_align : ((ran (stand (.ld h0 .n32 .dflt .normal (.v 3) (.s 1) 2))).warp? 0).map (fun x => (x.state, x.fault[2]?)) =
    some (.trapped, some 0xFF80000000000102) ∧ (ran (stand (.ld h0 .n32 .dflt .normal (.v 3) (.s 1) 2))).accs = [] := by decide +kernel
/-- R224: the cores of a block, here core 0. -/
theorem test_rdsr : ((ran (stand (.rdsr h0 (.s 9) 0x00B))).regs 0).s[9]? = some 1 := by decide +kernel
/-- R268: MACCWR writes row 7 of the store, whose words start at 224. -/
theorem test_maccwr : accRead ((ran (stand (.maccwr h0 .i32 (.s 2) (.v 9)))).core 0 0).acc 227 = 7 := by decide +kernel
/-- R81: a NOP with a stall of 3 passes 4 clk of its clause. -/
theorem test_nop_stall : (((ran (stand (.nop ⟨3, 0, 7, false⟩))).warp? 0).bind Warp.clause).map Clause.start = some 4 := by decide +kernel

/-! ### Requests as they are performed -/

/-- An access of warp 0 that stands as it issued. -/
def acc0 (op : AccOp) (ty : Ty) (reqs : List Req) : Access :=
  { warp := 0, op := op, ty := ty, scope := .dflt, hint := .normal, reqs := reqs, mask := fullMask, sb := none, block := 0, issuedAt := 0 }

/-- A request of a thread for a place, not yet performed. -/
def req0 (t va : Nat) (place : Place) (addr size : Nat) (data : DWord := 0) (done : Bool := false) : Req :=
  { thread := t, va := BitVec.ofNat 64 va, loc := { place := place, addr := addr }, size := size, data := data, done := done }

/-- The state with accesses of warp 0. -/
def asking (l : List Access) : State := { stand (.nop h0) with accs := l }

/-- A line of the page at 0x20000, all clean, in the L1 of core 0, the cluster's cache and the LLC. -/
def line0 (st : LSt) : Line :=
  { asid := 0, vline := 1024, bytes := (List.range 128).map (fun i => { v := BitVec.ofNat 8 i, st := st }), r := true, w := true, x := true, cls := 0
    held := false, poison := false }

/-- The state with the line in all its caches. -/
def cached (s : State) : State :=
  { s with
    llc := [line0 .clean]
    clusters := [{ cluster := 0, lines := [line0 .clean] }]
    cores := [{ Core.fresh 0 0 with l1 := [line0 .clean] }] }

/-- The premises of May. -/
def may (s : State) (n i : Nat) : Bool :=
  match s.accs[n]?, (s.accs[n]?).bind (fun a => a.reqs[i]?) with
  | some a, some r => s.mayPerform n i && !s.ticketHolds a r && !s.stages a.block a.op r.loc r.va &&
      [true, false].all (fun near => (List.range r.size).all (fun j =>
        !s.poisoned (s.clusterOf a.warp) (((s.warp? a.warp).map Warp.core).getD 0) near { r.loc with addr := r.loc.addr + j })) &&
      !s.foreign a.block r.loc r.va && s.mem.wf && s.migrations.isEmpty
  | _, _ => false

theorem witness_AccessesPerform :
    (may (asking [acc0 .load .n32 [req0 31 0x10100 .nc 0x10100 4]]) 0 0 && may (asking [acc0 .load .n8 [req0 0 (winBase + 0xFFFF) (.scr 0 0) 0xFFFF 1]]) 0 0 &&
    may (asking [acc0 (.loadRec .bfp8) .n32 [req0 0 0x10100 .nc 0x10100 1]]) 0 0 &&
    may (cached (asking [acc0 .load .n64 [req0 0 0x20078 (.glob 0) 0x20078 8]])) 0 0 && scopeNear .dflt &&
    may (asking [acc0 .store .n64 [req0 0 0x10100 .nc 0x10100 8 5]]) 0 0 && may (asking [acc0 .store .n8 [req0 0 winBase (.scr 0 0) 0 1 5]]) 0 0 &&
    may (asking [acc0 .store .n64 [req0 0 0x20078 (.glob 0) 0x20078 8 5]]) 0 0 && may (cached (asking [acc0 .store .n64 [req0 0 0x20078 (.glob 0) 0x20078 8 5]])) 0 0 &&
    may (cached (asking [{ acc0 .store .n64 [req0 0 0x20078 (.glob 0) 0x20078 8 5] with scope := .device }])) 0 0 && !scopeNear .device &&
    may (asking [acc0 .add .i32 [req0 0 winBase (.scr 0 0) 0 4 5]]) 0 0 && may (asking [acc0 .cas .n64 [req0 0 0x10100 .nc 0x10100 8 5]]) 0 0) = true ∧
    (findLine (((cached (asking [])).core 0 0).l1) 0 1024 = some (line0 .clean) ∧ (line0 .clean).bytes.length = 128 ∧
      findLine (cached (asking [])).llc 0 1024 = some (line0 .clean) ∧
      (List.range 8).all (fun j => !((cached (asking [])).frameByte 0 (0x20078 + j)).any (cached (asking [])).aliased) = true) := by decide +kernel

/-- The state with the trap policy in base register 0. -/
def trapping (s : State) : State := { s with ctxs := s.ctxs.map (fun c => { c with lcbase := c.lcbase.set 0 0x301 }) }

/-- 1.0 raises level 0 with any draw, infinity saturates, -1.0 and NaN leave the level; merges at the last level; and accesses to counters. -/
theorem witness_LevelsAreRaised :
    (fdec .f32 0x3F800000 = .fin false 8388608 (-23) false ∧ fdec .f32 0x7F800000 = .inf false ∧ fdec .f32 0xBF800000 = .fin true 8388608 (-23) false ∧
      fdec .f32 0 = .fin false 0 (-149) false ∧ fdec .f32 0x7FC00000 = .nan) ∧
    (may (asking [acc0 .lcadd .n8 [req0 0 0x30000 (.lcm 0) 0x30000 1 0x3F800000]]) 0 0 && may (asking [acc0 .lcinit .n8 [req0 0 0x3FFFF (.lcm 0) 0x3FFFF 1 255]]) 0 0 &&
      may (asking [acc0 .lcmrg .n8 [req0 0 0x30000 (.lcm 0) 0x30000 1 255]]) 0 0 && may (asking [acc0 .lcrd .n32 [req0 0 0x30000 (.lcm 0) 0x30000 1]]) 0 0 &&
      may (asking [acc0 .lcrdRaw .n32 [req0 0 0x30000 (.lcm 0) 0x30000 1]]) 0 0 &&
      may (trapping (asking [acc0 .lcadd .n8 [req0 0 0x30000 (.lcm 0) 0x30000 1 0x3F800000, req0 1 0x30001 (.lcm 0) 0x30001 1 0x3F800000]])) 0 0 &&
      (let s := trapping (asking [acc0 .lcmrg .n8 [req0 0 0x30000 (.lcm 0) 0x30000 1 255, req0 1 0x30001 (.lcm 0) 0x30001 1 3]])
       let t : State := { s with warps := s.warps.map (fun x => { x with hold := .accept 0 }) }
       may t 0 1 && (t.warp? 0).any (fun x => x.hold == .accept 0)) &&
      lcTrap ((trapping (asking [])).lcOf 0 0x30000).1 && !lcTrap ((asking []).lcOf 0 0x30000).1 && !(asking []).detOf 0 &&
      decide (lcMax ((asking []).lcOf 0 0x30000).1 = 255) &&
      decide (lcOutcome .lcadd 0x200 15 0x7F800000 0 = none) && (lcOutcome .lcadd 0x201 0 0x3F800000 0).isSome) = true := by decide +kernel

/-- A counter operation on a word of the state `counters`. -/
def ctrAcc (op : AccOp) (off : Nat) (data : DWord) : State :=
  { counters (.nop h0) with accs := [acc0 op .n64 [req0 0 (winBase + off) (.scr 0 0) off 8 data]] }

theorem witness_CountersPerform :
    (may (ctrAcc (.ctrInit true) 0x410 5) 0 0 && may (ctrAcc (.ctrInit false) 0x408 5) 0 0 && may (ctrAcc (.ctrInit false) 0x400 5) 0 0 &&
    may (ctrAcc .ctrAdd 0x400 5) 0 0 && may (ctrAcc .ctrArv 0x408 1) 0 0 && may (ctrAcc .ctrRead 0x410 0) 0 0 && may (ctrAcc .ctrKill 0x400 0) 0 0 &&
    may (ctrAcc .ctrFree 0x408 0) 0 0 && may (ctrAcc .ctrFree 0x400 0) 0 0 && may (ctrAcc .ctrAdd 0x410 5) 0 0 &&
    (let s := ctrAcc .ctrAdd 0x400 5
     let at_ := fun (o : Nat) => ({ place := .scr 0 0, addr := o } : Loc)
     (s.ctrTag (at_ 0x400)).isSome && (s.ctrTag (at_ 0x410)).isNone && ctrRetired (s.ctrWordAt (at_ 0x408)) && !ctrRetired (s.ctrWordAt (at_ 0x400)) &&
     !s.referenced (at_ 0x408))) = true := by decide +kernel

theorem witness_CounterArithmetic : (0 : DWord).toNat = 0 ∧ 0 < (63 : DWord).toNat := by decide

theorem witness_ResultWriteback :
    (let done := req0 0 0x10100 .nc 0x10100 4 0 true
    let ok := fun (s : State) => match s.accs[0]?, s.warp? 0 with
      | some a, some x => !a.wb && a.op != .fenceop && (a.dregs.isEmpty || a.reqs.all Req.done) && x.hold != .accept 0 && a.clob.isEmpty
      | _, _ => false
    let shape := fun (s : State) (r : Reg) => match s.warp? 0 with
      | some x => (match r with | .v g => ((x.regs.v[g]?).map (fun q => q.slots.length)) == some 32 | .s k => decide (k < x.regs.s.length) | .o _ | .p _ => false)
      | none => false
    let ended := fun (s : State) => { s with warps := s.warps.map (fun x => { x with state := .ended }) }
    ok (asking [acc0 .store .n32 [req0 0 0x10100 .nc 0x10100 4]]) && ok (asking [{ acc0 .load .n32 [done] with dregs := [.s 63], once := true, sb := some 5 }]) &&
    shape (asking []) (.s 63) && ok (asking [{ acc0 .load .n32 (threads.map (fun t => { done with thread := t })) with dregs := [.v 3], slots := [.ident] }]) &&
    shape (asking []) (.v 3) && threads.all (fun u => threads.all (fun v => u == v || LMap.ident.at u != LMap.ident.at v)) &&
    ok (ended (asking [{ acc0 .load .n32 [done] with dregs := [.s 5], once := true }]))) = true := by decide +kernel

/-- The state after an event. -/
def did0 (i : Instr) (s : State) : State := ran { s with agenda := [.event i] }

/-- R187: a store to an NC page writes its bytes, the lowest first, and leaves the byte after them. -/
theorem test_store_bytes :
    let m := (did0 (.accessPerformed (.req 0 0)) (asking [acc0 .store .n16 [req0 0 0x10100 .nc 0x10100 2 0xABCD]])).mem
    m.read 0x10100 = 0xCD ∧ m.read 0x10101 = 0xAB ∧ m.read 0x10102 = 0 := by decide +kernel
/-- R301: a near store stands in the L1 and not yet in the LLC. -/
theorem test_near_store :
    let s := did0 (.accessPerformed (.req 0 0)) (cached (asking [acc0 .store .n8 [req0 0 0x20000 (.glob 0) 0x20000 1 0xEE]]))
    ((findLine (s.core 0 0).l1 0 1024).map (fun l => l.byte 0)) = some { v := 0xEE, st := .pending } ∧ s.homeRead 0 0x20000 = 0 := by decide +kernel
/-- R200: an atomic add returns the old value, here 0, and leaves the sum. -/
theorem test_atomic_add :
    let s := did0 (.requestPerform 0 0) (asking [acc0 .add .n32 [req0 0 winBase (.scr 0 0) 0 4 7]])
    s.mem.read (scrKey 0 0 0) = 7 ∧ ((s.accs[0]?).bind (fun a => a.reqs[0]?)).map (fun r => (r.done, r.res)) = some (true, 0) := by decide +kernel
/-- R206: an add of 1.0 at level 0 with K = 0 reaches est(1) = 1: level 1. -/
theorem test_lcadd : (did0 (.requestPerform 0 0) (asking [acc0 .lcadd .n8 [req0 0 0x30000 (.lcm 0) 0x30000 1 0x3F800000]])).levelAt 0 0x30000 = 1 := by
  decide +kernel
/-- R231: a sum past 2^62 - 1 sticks there and sets ERR; R235: CTRKILL sets RETIRED. -/
theorem test_counters : ctrPlus 0x3FFFFFFFFFFFFFFF 1 = 0x7FFFFFFFFFFFFFFF ∧
    (did0 (.requestPerform 0 0) (ctrAcc .ctrKill 0x400 0)).ctrWordAt { place := .scr 0 0, addr := 0x400 } = 0x8000000000000000 := by decide +kernel
/-- R82: the first value of a load goes to its S register. -/
theorem test_writeback :
    ((did0 (.resultWriteback 0) (asking [{ acc0 .load .n32 [{ req0 0 0x10100 .nc 0x10100 4 0 true with res := 99 }] with dregs := [.s 9], once := true }])).regs 0).s[9]? =
      some 99 := by decide +kernel

/-! ### Clauses, holds and the load -/

/-- Words in memory from an address on. -/
def wordsAt (a : Nat) : List DWord → Memory → Memory
  | [], m => m
  | w :: r, m => wordsAt (a + 8) r (m.writeN a (leBytes 8 w.toNat))

/-- The state in which warp 0 is between clauses, with words at 0x20000. -/
def between (ws : List DWord) (f : Regs → Regs) : State :=
  let s := withRegs (stand (.nop h0)) f
  { s with mem := wordsAt 0x20000 ws [], warps := s.warps.map (fun x => { x with clause := none, pipe := none }) }

/-- A header of class CTL with two instructions, and the instructions. -/
def ctlWords : List DWord := [0xA610000000000000, encode (.nop h0), encode (.nop h0)]

/-- The LPC entries of R14 by thread. -/
def withLpc (f : Nat → Lpc) (r : Regs) : Regs := { r with lpc := threads.map f }

/-- A warp of the load between clauses whose words can be fetched. -/
def idle (s : State) : Bool :=
  match s.warp? 0 with
  | some x => x.state == .active && x.clause.isNone && x.hold == .none && x.pipe.isNone && !s.stoppingWarp 0 && x.wback.isNone && !x.ahead && x.regs.lpc.length == 32
  | none => false

/-- The three ways in which a clause is chosen: a DUE thread, here the lower of two of one age; the least of the eligible; and the parked. -/
theorem witness_ClausesStart :
    (let ok := fun (s : State) => idle s && s.fetchWord 0 0x20000 == .word 0xA610000000000000 && s.fetchWord 0 0x20008 == .word (encode (.nop h0)) &&
      s.fetchWord 0 0x20010 == .word (encode (.nop h0)) && (match s.warp? 0 with
        | some x => (s.pipeFor 0 x 6).isSome && kindRuns x.kind 6 && (List.range 6).all (fun i => x.regs.sb.getD i 0 == 0)
        | none => false)
    ok (between ctlWords (withLpc (fun t => if t = 3 ∨ t = 9 then { st := .due, age := 7, waddr := 0x4000 } else if t = 2 then { st := .due, age := 6, waddr := 0x10 } else
      { st := .run, age := 255, waddr := 0x10 }))) &&
    ok (between ctlWords (withLpc (fun t => if t < 5 then { st := .run, age := 255, waddr := 0x4000 } else if t < 9 then { st := .joined, age := 0, waddr := 1 } else
      { st := .run, age := 0, waddr := 0x4001 }))) &&
    ok (between ctlWords (withLpc (fun t => if t < 5 then { st := .joined, age := 9, waddr := 0x4000 } else if t < 9 then { st := .exited, age := 0, waddr := 1 } else
      { st := .joined, age := 0, waddr := 0x4001 }))) &&
    decide ((0xA610000000000000 : DWord).extractLsb' 60 4 = 0xA ∧ ((0xA610000000000000 : DWord).extractLsb' 56 4).toNat = 6 ∧
      (0xA610000000000000 : DWord).extractLsb' 0 45 = 0 ∧ ((0xA610000000000000 : DWord).extractLsb' 52 4).toNat + 1 = 2)) = true ∧
    (let at_ := fun (w : DWord) => between [w] id
    idle (at_ 0xB610000000000000) && (at_ 0xB610000000000000).fetchWord 0 0x20000 == .word 0xB610000000000000 &&
    (at_ 0xA700000000000000).fetchWord 0 0x20000 == .word 0xA700000000000000 && (at_ 0xA600000000000001).fetchWord 0 0x20000 == .word 0xA600000000000001 &&
    (between [] (withLpc (fun _ => { st := .run, age := 0, waddr := 0x6000 }))).fetchWord 0 0x30000 == .refused &&
    (between [] (withLpc (fun _ => { st := .run, age := 0, waddr := 0x8000 }))).fetchWord 0 0x40000 == .absent 4 &&
    idle (between [] (withLpc (fun _ => { st := .exited, age := 0, waddr := 0 })))) = true := by decide +kernel

/-- The state in which warp 0 is held. -/
def holding (h : Hold) (f : Warp → Warp := id) : State :=
  let s := stand (.nop h0)
  { s with warps := s.warps.map (fun x => f { x with hold := h }) }

theorem witness_HoldsEnd :
    (let known := fun (s : State) (p : Nat) => s.translate (s.ctxIx 0) (p * 2 ^ 16) != .absent
    known (holding (.fetch 2)) 2 && decide ((((holding (.issue (.sb 5))).regs 0).sb.getD 5 0) < 63) && decide ((holding (.issue .copies)).portEntries 0 < 64) &&
    decide (((holding (.issue .mmas)).core 0 0).mmaq.length < 8) && ({ holding (.issue .stage) with launches := (holding .none).launches.map (fun l => { l with early := some 0 }) } : State).direct 0 &&
    !(holding (.issue (.count 3))).mayCount 0 3 &&
    decide ((holding (.yield 0)).clk = 0) && !(holding (.yield 0)).savedWarp 0 &&
    (let s := holding .stop (fun x => { x with ahead := true, batch := [4] })
     ({ s with checkpoints := [{ warp := 0, regs := regs0, clause := none, outst := [], accs := 0 }] } : State).checkpoints.any (fun k => k.warp == 0)) &&
    known (holding .batch (fun x => { x with batch := [1, 2, 3] })) 1 && known (holding .batch) 3 && !known (holding .batch) 4 &&
    (holding .batch).resolvable 0 0x40000) = true := by decide +kernel

/-- The state in which warp 0 waits at a counter of the state `counters`. -/
def waiting (off target : Nat) (entry : Bool) (rel : Bool := false) : State :=
  let s := counters (.nop h0)
  { s with warps := s.warps.map (fun x => { x with
      hold := .counter [({ addr := BitVec.ofNat 64 (winBase + off), target := BitVec.ofNat 64 target, pd := 6, mask := 1, rel := rel, acq := false
                           scope := .device }, entry)] }) }

/-- A threshold that is met, one that a retired word ends, and one that is not met yet. -/
theorem witness_CountersWake :
    (let ok := fun (s : State) (off : Nat) => !s.savedWarp 0 && (match s.resolve 0 (BitVec.ofNat 64 (winBase + off)) with
      | .ok (_, l) => l.place == .scr 0 0 && (s.ctrTag l).isSome
      | .error _ => false) && decide ((s.openArrival 0) = none) && (match s.warp? 0 with | some x => decide (6 < x.regs.p.length) && x.pendWait.isEmpty | none => false)
    ok (waiting 0x400 0 false) 0x400 && ok (waiting 0x408 63 true) 0x408 && ok (waiting 0x400 1 false) 0x400 &&
    ok (waiting 0x400 0 false true) 0x400 && (waiting 0x400 0 false true).performedAt 0 0 .device && !(waiting 0x400 0 false).drainShelf &&
    ok { waiting 0x400 0 false true with drainShelf := true } 0x400 && scopeWide .device && decide ((waiting 0x400 0 false).ctrWordAt { place := .scr 0 0, addr := 0x400 } = 0) &&
    ((waiting 0x400 0 false).ctrWordAt { place := .scr 0 0, addr := 0x408 }).getLsbD 63) = true := by decide +kernel

/-- The state at a clk, with a warp beside warp 0 that is READY. -/
def atClk (n : Nat) : State :=
  let s := stand (.nop h0)
  { s with clk := n, agenda := [], warps := s.warps ++ s.warps.map (fun x => { x with state := .ready, issued := true, touched := [lineKey 0 1024] })
           cores := [{ Core.fresh 0 0 with l1 := [line0 .clean] }] }

theorem witness_LoadBoundaries :
    (atClk 1024).clk % 1024 = 0 ∧ ((atClk 1024).core 0 0).slicedAt ≠ 1024 ∧ (atClk 1024).clkOver = true ∧ ({ atClk 1024 with agenda := [.issue 0] } : State).clkOver = false ∧
    (atClk 4096).clkOver = true ∧ ({ atClk 4096 with agenda := [.event (.clauseStart 0)] } : State).clkOver = false ∧ (atClk 4096).clk % 4096 = 0 ∧ ((atClk 4096).core 0 0).windowAt ≠ 4096 ∧ ((atClk 4096).warpsOn 0 0).length = 2 ∧
    ((atClk 1024).warpsOn 0 0).any (fun p => p.2.state == .active || p.2.state == .ready) = true := by decide +kernel

/-- R61, R62: the clause at 0x20000 starts for every thread, with its two words. -/
theorem test_clause_starts :
    (((did0 (.clauseStart 0) (between ctlWords id)).warp? 0).bind Warp.clause).map (fun c => (c.iset, c.words.length, c.addr)) = some (fullMask, 2, 0x20000) := by
  decide +kernel
/-- R63: a header whose class is no class raises CLAUSE with reason 1. -/
theorem test_clause_traps :
    ((did0 (.clauseStart 0) (between [0xA700000000000000] id)).warp? 0).map (fun x => (x.state, x.fault[1]?)) = some (.trapped, some 0x00010002FFFFFFFF) := by
  decide +kernel
/-- R338: with room for both, the READY warp joins the load at the boundary. -/
theorem test_slice_boundary : ((did0 (.sliceBoundary 0 0) (atClk 1024)).warp? 1).map Warp.state = some .active := by decide +kernel
/-- R280: the warp that issued touched one line. -/
theorem test_lease_window : (((did0 (.leaseWindowEnd 0 0) (atClk 4096)).warp? 1).map (fun x => x.lease.extractLsb' 16 16)) = some 1 := by decide +kernel

/-! ### Packets, launches and gangs -/

/-- A packet of 160 bytes with words at given offsets. -/
def pktOf (l : List (Nat × DWord)) : List Byte :=
  l.foldl (fun p x => p.take x.1 ++ leBytes 8 x.2.toNat ++ p.drop (x.1 + 8)) (List.replicate 160 0)

/-- A launch packet: 3 blocks of one warp of 64 registers that enters at 0x20000, with more fields in its first words. -/
def launchPkt (ctl more : DWord) (l : List (Nat × DWord) := []) : List Byte :=
  pktOf ([(0, 0x1000000000000000 ||| ctl), (0x20, 3 ||| more), (0x60, 0x20000), (0x68, 0x107)] ++ l)

/-- A packet as it stands in a queue. -/
def inQueue (p : List Byte) (accepted : Bool) (launch : Option Nat := none) : QPkt := { bytes := p, addr := 0, accepted := accepted, launch := launch }

/-- A module with one context, whose queue 3 has 4 places and holds packets, and the launches of those accepted. -/
def queuing (ps : List QPkt) (ls : List (List Byte)) (f : Queue → Queue := id) : State :=
  let c := Ctx.fresh 0
  { State.reset with
    partition := { Partition.whole with mode := 2 }
    tlb := tlb0
    ctxs := [{ c with seeds := [5], queues := c.queues.set 3 (f { Queue.none_ with valid := true, hold := false, logDepth := 2, pkts := ps }) }]
    launches := ls.zipIdx.map (fun (p, i) => Launch.fresh 0 3 i p 0 [] 0) }

/-- A queue with room, a full one, and one that does not exist; packets of each seed operation; one broken in each way R28 names; and one to be forwarded. -/
theorem witness_PacketsEnterQueues :
    (let q := fun (s : State) (k : Nat) => (s.ctxs[0]?).bind (fun c => c.queues[k]?)
    decide ((q (queuing [] []) 3).map (fun d => (d.valid, d.pkts.length, 2 ^ d.logDepth)) = some (true, 0, 4)) &&
    decide ((q (queuing (List.replicate 4 (inQueue (launchPkt 0 0) false)) []) 3).map (fun d => (d.pkts.length, 2 ^ d.logDepth)) = some (4, 4)) &&
    decide ((q (queuing [] []) 15).map Queue.valid = some false) && decide ((launchPkt 0 0).length = 160) &&
    (let next := fun (p : List Byte) => match q (queuing [inQueue (launchPkt 0 0) true (some 0), inQueue p false] [launchPkt 0 0]) 3 with
       | some d => (d.pkts.zipIdx.find? (fun p => !p.1.accepted)).map Prod.snd == some 1
       | none => false
     let c : Ctx := { Ctx.fresh 0 with seeds := [5] }
     let why := fun (p : List Byte) => rejections c p
     next (launchPkt 0 0) && decide (why (launchPkt 0 0) = []) && decide (why (launchPkt 0x0004000000000000 0) = []) &&
     decide (why (launchPkt 0x0008000000000000 0) = []) && decide (why (launchPkt 0x000C000000000000 0) = []) &&
     decide (why (pktOf [(0, 0x2000000000000000), (0x50, 0x10100)]) = []) && decide (why (pktOf [(0, 0x3008000000000000)]) = []) &&
     decide (why (launchPkt 1 0) = [1]) && decide (why (launchPkt 0 0 [(0x68, 0x007)]) = [2]) && decide (why (launchPkt 0 0 [(0x60, 4)]) = [3]) &&
     decide (why (launchPkt 0 0x3000000000) = [4]) && decide (why (launchPkt 0x0080000000000000 0) = [6]) &&
     decide (rejections { c with seeds := [] } (launchPkt 0x0008000000000000 0) = [7]) && decide (why (pktOf [(0, 0x2000000000000000)]) = [8]) &&
     decide (why (launchPkt 0 0x104000000000) = [5, 9]) && decide (why (launchPkt 0x3FE000000 0) = [10]) && decide (why (pktOf []) = [1]) &&
     decide (why (launchPkt 0x0202000000 0) = []) && decide (pktFwd (launchPkt 0x0202000000 0) = true) &&
     (let s := queuing [] []
      decide (s.readOwn 0 0 = some []) && decide (s.readOwn 0 8 = none)))) = true := by decide +kernel

/-- Counter words at 0x10100: none, one that has reached 0, one retired, one with ERR. -/
def depending (word : Option DWord) : State :=
  { queuing [inQueue (launchPkt 0 0 [(0x40, 0x10100), (0x48, 5)]) true (some 0)] [launchPkt 0 0 [(0x40, 0x10100), (0x48, 5)]] with
    mem := wordsAt 0x10100 (match word with | some w => [w] | none => []) []
    tags := match word with | some _ => [{ loc := { place := .nc, addr := 0x10100 }, ext := true }] | none => [] }

theorem witness_QueueHeadsStart :
    (let dep := fun (w : Option DWord) => (depending w).judgeDep 0 (launchPkt 0 0 [(0x40, 0x10100), (0x48, 5)])
    decide (dep none = .failed 3) && decide (dep (some 5) = .met) && decide (dep (some 4) = .waits) && decide (dep (some 0x4000000000000004) = .failed 1) &&
    decide (dep (some 0x8000000000000004) = .failed 2) && decide (pktDep (launchPkt 0 0) = 0) &&
    (match (depending none).translate 0 0x10100 with | .ok t => t.r && t.w | .prot | .absent => false) &&
    decide ((depending none).ctxLoc 0 0x10100 = some { place := .nc, addr := 0x10100 })) = true ∧
    (let starts := fun (kind : Nat) (p : List Byte) => match (queuing [inQueue p true (some 0)] [p]).startable 0 3 kind with
       | some (_, l) => l == 0
       | none => false
    starts 1 (launchPkt 0 0) && starts 2 (pktOf [(0, 0x2000000000000000), (0x50, 0x10100)]) && starts 3 (pktOf [(0, 0x3008000000000000), (0x50, 0x10100)]) &&
    starts 1 (pktOf [(0, 0x1000000000000000), (0x60, 0x20000), (0x68, 0x107)])) = true ∧
    (let p := launchPkt 0x0202000000 0
    let s := queuing [inQueue p true] []
    pktNode p == 1 && pktFwd p && !s.routed 1 && ({ s with routes := s.routes.set 1 0xC } : State).routed 1 &&
    (let b : Binding := { node := 9, asid := 7, q := 1, ctx := 0, tq := 3 }
     let t : State := { s with bindings := s.bindings.set 255 (some b) }
     decide ((t.bindings.filterMap id).find? (fun b => b.node == 9 && b.asid == 7 && b.q == 1) = some b) && t.partition.serves 0)) = true := by decide +kernel

/-- A started ragged launch whose records lie at 0x20000 and whose counter at 0x10100 has a word. -/
def ragged (word : Option DWord) (read : Nat) (recs : List DWord) : State :=
  let s := depending word
  { s with
    mem := wordsAt 0x20000 recs s.mem
    launches := [{ Launch.fresh 0 3 0 (launchPkt 0x0080000000000000 0 [(0x30, 0x20000), (0x38, 0x10100)]) 0 [] 0 with started := true, recordsRead := read }] }

/-- A started launch of three blocks. -/
def placing : State :=
  let s := queuing [] [launchPkt 0 0]
  { s with partition := .whole, launches := s.launches.map (fun l => { l with started := true }) }

theorem witness_GangsArePlaced :
    (let s := ragged (some 3) 2 []
    decide ((s.launches[0]?).map (fun x => pktRagged x.pkt) = some true) && (match s.translate 0 0x10100 with | .ok _ => true | .prot | .absent => false) &&
    decide (s.ctxLoc 0 0x10100 = some { place := .nc, addr := 0x10100 }) && decide ((s.ccRead 0 0x20020 16).isSome = true) &&
    ((ragged none 0 []).ctrTag { place := .nc, addr := 0x10100 }).isNone && ((s.ctrTag { place := .nc, addr := 0x10100 }).isSome) &&
    decide ((ragged (some 0x8000000000000003) 3 []).ctrWordAt { place := .nc, addr := 0x10100 } = 0x8000000000000003)) = true ∧
    (match placing.due 0 with
      | some d => d.again.isNone && d.specs.length == 1
      | none => false) = true ∧
    (placing.candidates 0).contains 0 = true ∧ placing.clusterServes 0 255 = true ∧
    seatsFit (launchPkt 0 0) (placing.clusterUse 255) 1 [[7]] = true ∧ seatsFit (launchPkt 0 0) (placing.clusterUse 255) 1 [[8]] = false := by decide +kernel

/-- No cluster serves; 2^20 clk have passed or not; and a starving launch among launches of higher and of no higher priority. -/
theorem witness_PlacementStarves :
    (let out : State := { placing with partition := { Partition.whole with inService := [false, false, false, false] } }
    (out.due 0).isSome && (out.roomFor 0).isNone && decide (({ out with clk := 2 ^ 20 } : State).clk ≥ 2 ^ 20)) = true ∧
    (let s := queuing [] [launchPkt 0x0400000000000000 0, launchPkt 0x0400000000000000 0, launchPkt 0x0800000000000000 0]
    let t : State := { s with launches := s.launches.zipIdx.map (fun (l, i) => { l with started := true, stalled := i == 0, startedAt := 5 - i }) }
    t.starver 0 = some 0 ∧ (t.launches.map (fun l => pktPrio l.pkt)) = [1, 1, 2] ∧ t.saggarOfLaunch 1 = t.saggarOfLaunch 0 ∧
    t.saggarOfLaunch 2 = t.saggarOfLaunch 0) := by decide +kernel

/-- Block 0, all of whose warps have ended, of a launch with a packet. One write of it may be refused, or the page of an orphan's counter absent, or a
counter for which it has staged an add reserved by warp 1. -/
def endedBlock (p : List Byte) : State :=
  let s := stand (.nop h0)
  { s with launches := s.launches.map (fun l => { l with pkt := p }), warps := s.warps.map (fun x => { x with state := .ended, clause := none }) }

@[inherit_doc endedBlock]
def refusedBlock (p : List Byte) : State :=
  let l := { line0 .clean with w := false }
  { endedBlock p with llc := [l], clusters := [{ cluster := 0, lines := [{ line0 .dirty with w := false }] }] }

@[inherit_doc endedBlock]
def orphaned : State :=
  let s := endedBlock (launchPkt 0 0)
  { s with
    copies := [{ warp := 0, kind := .bcopy 2 3, scope := .dflt, ord := false, bucket := 0, hint := .normal, desc := [0, 0, 0, 0, 0x40000, 0], state := .slice
                 after := 0 }]
    blocks := s.blocks.map (fun b => { b with slices := [{ coll := 3, copy := 0 }] }) }

theorem witness_BlocksEnd :
    (((endedBlock (launchPkt 0 0)).performDevice 0).2 = none ∧ (endedBlock (launchPkt 0 0)).orphansReady 0 = true ∧
      ((refusedBlock (launchPkt 0 0)).blockEnded 0 && (((refusedBlock (launchPkt 0 0)).performDevice 0).2.isSome)) = true ∧
      (orphaned.blockEnded 0 && !orphaned.orphansReady 0) = true ∧
      (let d := launchPkt 0x0200000000000000 0
      (endedBlock d).unreserved 0 = true ∧ (((endedBlock d).releaseStaged 0).performDevice 0).2 = none ∧
        (refusedBlock d).unreserved 0 = true ∧ (((refusedBlock d).releaseStaged 0).performDevice 0).2.isSome = true)) ∧
    ((endedBlock (launchPkt 0 0)).blockEnded 0 = true ∧ (endedBlock (launchPkt 0 0)).detOf 0 = false) ∧
    ((endedBlock (launchPkt 0x0200000000000000 0)).blockEnded 0 = true ∧ (endedBlock (launchPkt 0x0200000000000000 0)).detOf 0 = true ∧
      ((endedBlock (launchPkt 0x0200000000000000 0)).blocks.map (fun k => (k.launch, k.ix, k.finished))) = [(0, 0, false)] ∧
      ((endedBlock (launchPkt 0x0200000000000000 0)).launches.map Launch.next) = [0]) := by decide +kernel

/-- R324: the packet stands in the queue. -/
theorem test_submit : ((did0 (.packetSubmit 0 3 (launchPkt 0 0) 0) (queuing [] [])).ctxs.map (fun c => (c.queues.getD 3 Queue.none_).pkts.length)) = [1] := by
  decide +kernel
/-- R31: SEEDOP 2 pops the only seed; the launch runs under seed 0. -/
theorem test_accept_pop :
    let s := did0 (.packetAccept 0 3) (queuing [inQueue (launchPkt 0x0008000000000000 0) false] [])
    s.ctxs.map Ctx.seeds = [[]] ∧ s.launches.map (fun l => (l.ix, l.seed)) = [(0, 0)] := by decide +kernel
/-- R28: a packet of no warps leaves its queue and starts nothing. -/
theorem test_reject :
    let s := did0 (.packetAccept 0 3) (queuing [inQueue (launchPkt 0 0 [(0x68, 7)]) false] [])
    s.launches = [] ∧ (s.ctxs.map (fun c => (c.queues.getD 3 Queue.none_).pkts.length)) = [0] := by decide +kernel
/-- R329: the first block is placed on core 7 of cluster 255 with its one warp at the entry address. -/
theorem test_gang_place :
    let s := did0 (.gangPlace 0 255 [[7]]) placing
    s.warps.map (fun x => (x.core, x.regs.v.length, (x.regs.lpc[0]?).map Lpc.waddr)) = [(7, 64, some 0x4000)] ∧ s.blocks.map (fun b => (b.ix, b.cores)) = [(0, [7])] := by
  decide +kernel
/-- R220: the block finishes, and its launch counts it. -/
theorem test_block_finish : (did0 (.blockFinish 0) (endedBlock (launchPkt 0 0))).launches.map Launch.blocksDone = [1] := by decide +kernel

/-! ### Caches, pages and fences -/

/-- The state with the line in the caches named, and an access that wants it. -/
def inCaches (llc cc l1 : List Line) : State :=
  { asking [acc0 .load .n8 [req0 0 0x20000 (.glob 0) 0x20000 1]] with
    llc := llc, clusters := [{ cluster := 0, lines := cc }], cores := [{ Core.fresh 0 0 with l1 := l1 }, { Core.fresh 0 7 with l1 := cc }] }

theorem witness_LinesMove :
    (let s := inCaches [] [line0 .clean] [line0 .pending]
    findLine (s.core 0 0).l1 0 1024 = some (line0 .pending) ∧ (line0 .pending).pending = true ∧ findLine (s.ccLines 0) 0 1024 = some (line0 .clean)) ∧
    (let s := inCaches [] [] []
    (s.wanted 0 0 0 1024 false).isSome = true ∧ (s.wanted 0 0 0 1024 true).isSome = true ∧ findLine s.llc 0 1024 = none ∧ s.ctxOfAsid 0 = some 0 ∧
    (match s.translate 0 0x20000 with | .ok _ => true | .prot | .absent => false) = true ∧ (s.llcSet 0 1024).length < s.llcWays 0 1024 ∧
      s.migrations.isEmpty = true ∧ (match s.translate 0 0x20000 with | .ok t => (s.channelShelf t.phys).isSome | .prot | .absent => false) = true) ∧
    (let s := inCaches [line0 .clean] [] []
    (s.wanted 0 0 0 1024 true).isSome = true ∧ findLine (s.ccLines 0) 0 1024 = none ∧ findLine s.llc 0 1024 = some (line0 .clean) ∧
    (s.ccSet 0 1024).length < 16) ∧
    (let s := inCaches [line0 .clean] [line0 .clean] []
    (s.wanted 0 0 0 1024 true).isSome = true ∧ findLine (s.core 0 0).l1 0 1024 = none ∧ findLine (s.ccLines 0) 0 1024 = some (line0 .clean) ∧
    (s.l1Set 0 0 1024).length < s.l1Ways 0 0) ∧
    (let s := inCaches [] [line0 .clean] [line0 .dirty]
    findLine (s.core 0 0).l1 0 1024 = some (line0 .dirty) ∧ (line0 .dirty).pending = false ∧ findLine (s.ccLines 0) 0 1024 = some (line0 .clean)) := by
  decide +kernel

/-- Page tables of context 0 from 0x100000 on, with one normal page of 64 KiB at 0x40000, the page after it absent. -/
def tables : State :=
  let s : State := { asking [] with tlb := [], partition := .whole }
  { s with
    mem := wordsAt 0x104020 [pte 0x40000 0 7] (wordsAt 0x103000 [0x104001] (wordsAt 0x102000 [0x103001] (wordsAt 0x101000 [0x102001] (wordsAt 0x100000 [0x101001] []))))
    ctxs := s.ctxs.map (fun c => { c with root := 0x100000 }) }

/-- The tables while the page moves to 0x80000. -/
def moving : State :=
  { tables with migrations := [{ asid := 0, va := 0x40000, size := 0x10000, old := 0x40000, new := 0x80000, valid := [511] }] }

theorem witness_PagesChange :
    (tables.ctxOfAsid 0 = some 0 ∧ (match tables.translate 0 0x4FFFF with | .ok t => t.size == 0x10000 && t.attr == 0 | .prot | .absent => false) = true ∧
      tables.tlb.isEmpty = true ∧ tables.mem.wf = true ∧ tables.llc.isEmpty = true ∧ tables.recalls.isEmpty = true ∧ 0x4FFFF / 2 ^ 16 ≠ shelfVa / 2 ^ 16) ∧
    (tables.mayWalk 0 = true ∧ (tables.stationsAt 0 0x4FFFF).length = 1) ∧
    (tables.pteAt 0 0x50000 4 = some (0x104028, 0) ∧ tables.refusedAt 4 (pte 0x50000 0 7) (tables.sitesOf 0 0x50000 4 0x104028) = false) ∧
    (tables.pteAt 0 0x40000 4 = some (0x104020, pte 0x40000 0 7) ∧ tables.refusedAt 4 (pte 0x40000 2 3) (tables.sitesOf 0 0x40000 4 0x104020) = false ∧
      tables.refusedAt 4 0 (tables.sitesOf 0 0x40000 4 0x104020) = false ∧ tables.takesExport 0x10000 (pte 0x40000 0 7) 0 = false ∧
      tables.migrations.isEmpty = true ∧ tables.sitesBusy 4 (pte 0x40000 0 7) (tables.sitesOf 0 0x40000 4 0x104020) = false ∧ 0x104020 + 8 ≤ lcmKey 0 0) ∧
    (tables.powered = true ∧ tables.exported 0x80000 0x10000 = false ∧ tables.exported 0x40000 0x10000 = false ∧ 0x80000 % 0x10000 = 0 ∧ leafAttr (pte 0x40000 0 7) = some 0 ∧ (pte 0x40000 0 7).getLsbD 11 = false ∧ tables.noRoom 0 0x40000 0x80000 0x10000 = false) ∧
    ((moving.migrations.find? (fun g => g.asid == 0 && g.va ≤ 0x40000 && 0x40000 < g.va + g.size)).isSome = true ∧
      moving.migrations.all (fun h => h.new ≤ 0x80000 && decide (0x80000 < h.new + h.size)) = true ∧ moving.migrations.all (fun g => !g.valid.contains 0) = true ∧
      [511].length + 1 < 0x10000 / 128 ∧
      moving.powered = true ∧ moving.drainShelf = false ∧ (moving.channelShelf 0x40000).isSome = true) := by decide +kernel

/-- A warp held by a fence, with its instruction to be ended, and lines of its cluster that may be written or not. -/
def fencing (m : FenceMode) (w : Bool) : State :=
  let s := inCaches [{ line0 .clean with w := w }] [{ line0 .dirty with w := w }] []
  { s with accs := [], warps := s.warps.map (fun x => { x with hold := .fence .device m, pending := some { head := h0 } }) }

theorem witness_FencesComplete :
    ((fencing .ar true).performedAt 0 0 .device = true ∧ (fencing .ar true).readsDone 0 = true ∧ ((fencing .ar true).release 0 .device).2 = none ∧
      ((fencing .rel false).release 0 .device).2 = some 1024 ∧ (fencing .ar true).drainShelf = false ∧ ((fencing .rel false).warp? 0).any (fun x => x.clause.isSome && x.pending.isSome) = true) ∧
    (let s := asking [acc0 .store .n8 [req0 0 0x10100 .nc 0x10100 1 0 true], { acc0 .fenceop .n8 [] with scope := .device }, acc0 .fenceop .n8 []]
    (s.accs.zipIdx.find? (fun (a, _) => a.warp == 0 && a.op == .fenceop && !a.wb)).map Prod.snd = some 1 ∧ ((s.warp? 0).map Warp.observed) = some [] ∧
    (s.accs.take 1).all (fun b => b.reqs.all Req.done) = true) := by decide +kernel

/-- R301: after the grant the core owns its bytes. -/
theorem test_grant :
    ((findLine ((did0 (.ownershipGrant 0 0 0 1024) (inCaches [] [line0 .clean] [line0 .pending])).core 0 0).l1 0 1024).map (fun l => l.byte 5)) =
      some { v := 5, st := .dirty } := by decide +kernel
/-- R347: a mapping is written where none stood, and is found. -/
theorem test_map_page :
    (match (did0 (.mapPage 0 0x50000 4 (pte 0x90000 0 1)) tables).translate 0 0x50004 with
      | .ok t => (t.phys, t.r, t.w)
      | .prot | .absent => (0, false, false)) = (0x90004, true, false) := by decide +kernel
/-- R303: the mapping is gone after a recall that removes it. -/
theorem test_recall : (did0 (.recall 0 0x40000 4 0) tables).translate 0 0x40000 = .absent := by decide +kernel
/-- R211: a release writes the dirty line home, and the warp goes on. -/
theorem test_fence :
    let s := did0 (.fenceComplete 0) (fencing .rel true)
    s.homeRead 0 0x20007 = 7 ∧ (s.warp? 0).map Warp.hold = some .none ∧ (findLine s.llc 0 1024).map (fun l => (l.byte 7).st) = some .dirty := by decide +kernel

/-! ### Copies and matrix operations as they run -/

/-- A running copy of warp 0. -/
def going (k : CopyKind) (d : List DWord) : Copy :=
  { warp := 0, kind := k, scope := .dflt, ord := false, bucket := 0, hint := .normal, desc := d, state := .running, after := 0 }

/-- The state with counters and one copy. -/
def moved (c : Copy) : State := { counters (.nop h0) with copies := [c] }

/-- A copy of 2 rows of 4 bytes from 0x10100, 8 apart, to offset 0x200 of scratch, 16 apart, with both its counters. -/
def copy2 : Copy := going .copy [0x10100, 0xFF80000000000200, 0x100000004, 0x1000000008, 0xFF80000000000400, 0xFF80000000000400]

/-- A SCATTER of 2 items of 2 bytes from scratch to 0x10100, both with index 0: item 1 has written its first byte. -/
def scatter2 : Copy :=
  { going (.scatter .n32) [0xFF80000000000200, 0x10100, 0x10180, 0x200000002, 0, 0] with ixs := [(0, 0), (1, 0)], reads := [(0, 9), (2, 8)], done := [2] }

/-- A GATHER of 2 items of 1 byte, of an index type. -/
def gather2 (t : IdxTy) : Copy := going (.gather t) [0x10100, 0xFF80000000000200, 0x10180, 0x100000002, 0, 0]

/-- The premises of a read of byte k, of a write of byte k, and of a read of index k. -/
def readsByte (c : Copy) (k : Nat) : Bool :=
  let s := moved c
  s.copyRuns 0 c && (s.copyStatic 0 c).isNone && c.gen.isEmpty && !s.detOf 0 && decide (k < c.ownCount) && !c.reads.any (fun x => x.1 == k) && !c.done.contains k &&
  (match c.addrs k with
    | some (sa, _) => (match s.copyReads c sa with
      | .ok _ l => (placeKey l).isSome && !s.enginePoison 0 l 1 && s.injects l && s.migrations.isEmpty
      | .bad _ _ _ | .absent => false)
    | none => false)

@[inherit_doc readsByte]
def writesByte (c : Copy) (k : Nat) (later : Bool) : Bool :=
  let s := moved c
  s.copyRuns 0 c && (s.copyStatic 0 c).isNone && decide (k < c.ownCount) && c.reads.any (fun x => x.1 == k) && !c.done.contains k && !s.flowWaits 0 && s.mem.wf &&
  (match c.addrs k with
    | some (_, da) => s.laterItem 0 k c da == later && (match s.copyWrites c da with
      | .ok _ l => (placeKey l).isSome && s.injects l && s.migrations.isEmpty
      | .bad _ _ _ | .absent => false)
    | none => false)

@[inherit_doc readsByte]
def readsIndex (c : Copy) (k : Nat) : Bool :=
  let s := moved c
  s.copyRuns 0 c && (s.copyStatic 0 c).isNone && decide (k < c.indexCount) && c.ixs.isEmpty && (match s.indexReads c k, c.idx with
    | .ok _ l, some t => (placeKey l).isSome && !s.enginePoison 0 l (idxBytes t) && s.injects l && s.migrations.isEmpty
    | _, _ => false)

/-- A port whose first context has a copy to start and whose last served is 0: two of one priority, or one passed over 4,096 times. -/
def queued2 (passed : Nat) : State :=
  { counters (.nop h0) with copies := [{ copy2 with state := .queued }, { copy2 with state := .queued, passed := passed }] }

theorem witness_CopiesRun :
    (copy2.kind = .copy ∧ 3 < (copy2.d 2).toNat % 2 ^ 32 ∧ (gather2 .n64).kind = .gather .n64 ∧ scatter2.kind = .scatter .n32 ∧
      scatter2.ixs.find? (fun y => y.1 == 1) = some (1, 0) ∧ 1 < (scatter2.d 3).toNat / 2 ^ 32 % 2 ^ 16 ∧ (going (.unpack .bfp4) []).kind = .unpack .bfp4) ∧
    (readsByte copy2 0 && readsByte copy2 7 && readsByte { going (.unpack .bfp8) [0x10100, 0xFF80000000000200, 0xFF80000000000240, 1, 0, 0] with done := [0] } 32 &&
      writesByte { copy2 with reads := [(7, 3)] } 7 false && writesByte scatter2 0 true && writesByte { scatter2 with done := [] } 0 false &&
      readsIndex (gather2 .i32) 0 && readsIndex (gather2 .n64) 1 && readsIndex { scatter2 with ixs := [] } 1) = true ∧
    (decide ((queued2 0).pickCopy 0 0 = some (0, 0)) && decide ((queued2 4096).pickCopy 0 0 = some (0, 1)) &&
      decide (((queued2 0).copies.filter (fun c => c.state == .running && (queued2 0).seat c.warp == (0, 0))).length < 8)) = true ∧
    (let all := { copy2 with reads := (List.range 8).map (fun k => (k, 5)), done := List.range 8 }
    let s := moved all
    let at_ : Loc := { place := .scr 0 0, addr := 0x400 }
    s.copyRuns 0 all && (s.copyStatic 0 all).isNone && s.allRead 0 all && s.ctrReady 0 (all.d 4) && s.ctrReady 0 (all.d 5) && s.mem.wf &&
    decide (s.ctrFault 0 (all.d 4) = none) && (s.ctrTag at_).isSome && !ctrRetired (s.ctrWordAt at_) && (match s.resolve 0 (all.d 4) with
      | .ok (_, l) => l == at_
      | .error _ => false) &&
    (let far : Copy := { copy2 with desc := copy2.desc.set 1 0x8000000000000000 }
     ((moved far).copyFault 0 far).isSome && (moved far).copyRuns 0 far) &&
    (let odd : Copy := { gather2 .n32 with desc := (gather2 .n32).desc.set 2 0x10182 }
     ((moved odd).copyFault 0 odd).isSome && (moved odd).copyRuns 0 odd)) = true ∧
    (let s : State := { moved { copy2 with reads := [(0, 5), (1, 5)], done := [0] } with gangs := (moved copy2).gangs.map (fun g => { g with stopping := true }) }
    s.stoppingWarp 0 && (s.copies[0]?).any (fun c => c.done.any (fun j => s.sameUnit 0 c j 1) && !c.done.any (fun j => s.sameUnit 0 c j 300)) &&
    !(moved copy2).stoppingWarp 0 && !(moved copy2).flowAhead 0 && !(moved scatter2).stoppingWarp 0 &&
    (let t : State := { moved copy2 with copies := [{ copy2 with reads := [(0, 5)] }, copy2], flows := [{ warp := 0, mem := 0, seqSent := 2, seqDone := 0, held := [1, 0] }] }
     t.flowAhead 0)) = true ∧
    (let stuck := fun (p : Nat) => (moved { copy2 with waitPage := some p }).translate 0 (p * 2 ^ 16)
    stuck 2 ≠ .absent ∧ stuck 4 = .absent ∧ (moved copy2).resolvable 0 (4 * 2 ^ 16) = true) := by decide +kernel

/-- A parameter block at 0xFF8000000000FF80: INT8 operands of one run at offsets 0x1000 and 0x2000 of scratch, rows 32 apart, one tile, with CTR, OUT,
OSTRIDE and OFMT. -/
def blockOf (a b ctr out : DWord) (last : DWord) : List Byte :=
  [a, 0x0000000400000020, 0, 0, b, 0x0000000400000020, 0, 0, 0x0000000000010101, ctr, out, last, 0, 0, 0, 0].flatMap (fun w => leBytes 8 w.toNat)

/-- The state whose engine holds an MMA of warp 0 with that block, running or not, with its progress register. -/
def engine (blk : List Byte) (running : Bool) (p : DWord) : State :=
  let s := counters (.nop h0)
  { s with
    cores := [{ Core.fresh 0 0 with acc := [(3, 7), (1024, 9)]
                                    mmaq := [{ warp := 0, thread := 0, addr := 0xFF8000000000FF80, blk := blk, running := running, after := 0 }]
                                    prog := (List.replicate 16 0).set 0 p }] }

/-- The block whose rows lie in scratch, one with an operand on an absent page, one that breaks R259, and one that spills. -/
def blk0 : List Byte := blockOf 0xFF80000000001000 0xFF80000000002000 0xFF80000000000400 0 0
@[inherit_doc blk0]
def blkFar : List Byte := blockOf 0x40000 0xFF80000000002000 0 0 0
@[inherit_doc blk0]
def blkBad : List Byte := blockOf 0xFF80000000001000 0xFF80000000002000 0xFF80000000000400 0 1
@[inherit_doc blk0]
def blkOut : List Byte := blockOf 0xFF80000000001000 0xFF80000000002000 0 0xFF80000000004000 0x0000010600000080

/-- The premises of MayRun. -/
def mayRun (s : State) : Bool :=
  match s.runningMma 0 0 with
  | some m => !progWait (s.progOf 0 0 m) && s.mmaFenced 0 0 m && !s.savedWarp m.warp && !s.mmaHeld m && decide ((s.core 0 0).prog.length = 16) &&
      decide ((s.core 0 0).acc.Pairwise (fun a b => a.1 < b.1)) && s.mem.wf && s.migrations.isEmpty
  | none => false

theorem witness_MatrixOperationsRun :
    (let starts := fun (s : State) (why : Option Nat) => match (s.core 0 0).mmaq with
      | m :: _ => !m.running && !s.savedWarp m.warp && decide ((s.core 0 0).prog.length = 16) && decide (mmaStatic m.blk = why)
      | [] => false
    starts (engine blk0 false 0) none && starts (engine blkBad false 0) (some 0x40)) = true ∧
    (let band := fun (s : State) => ((s.runningMma 0 0).map (fun m => (s.bandJudges m 0).map (fun x => x.2.2))).getD []
    let s := engine blk0 true 0x8000000000000000
    mayRun s && decide (0 < mmaMB blk0) && !s.anyStopped (band s) && (band s).all (fun j => j.loc?.isSome) && decide ((band s).length = 64) &&
      ((s.runningMma 0 0).map (fun m => s.bandPoison 0 0 m 0)) == some false && decide ((mmaA blk0).ty = some .i8) && decide ((mmaB blk0).ty = some .i8) &&
      !(mmaA blk0).bfp && !(mmaB blk0).bfp && (s.core 0 0).undef.isEmpty && decide (s.scratchOf 0 = 0x10000) && decide (mmaKB blk0 = 1) &&
      decide (0x1000 + 31 * (mmaA blk0).stride + 32 ≤ s.scratchOf 0) && decide (0x2000 + 31 * (mmaB blk0).stride + 32 ≤ s.scratchOf 0) &&
    (let t := engine blkFar true 0x8000000000000000
     mayRun t && (band t).any Judge.isAbsent && (band t).all (fun j => decide (j.reason = none)))) = true ∧
    (let s := engine blk0 true 0x8000200000000000
    mayRun s && decide (mmaMB blk0 ≤ progRows 0x8000200000000000 / 32) && s.ctrReady 0 (mmaCtr blk0) && decide (s.ctrFault 0 (mmaCtr blk0) = none) &&
      decide (mmaOut blk0 = 0) && (s.ctrTag { place := .scr 0 0, addr := 0x400 }).isSome &&
    (let t := engine blkOut true 0x8000200000000000
     mayRun t && decide (fmtBits (mmaOfmt blkOut) 8 1 = 1) && t.ctrReady 0 (mmaCtr blkOut) && (match t.runningMma 0 0 with
       | some m => !t.spillHeld m && decide (t.spillFault 0 0 m = none) && !t.anyStopped ((spillElems m.blk).map (t.spillJudge m)) && (spillElems m.blk).all (fun e => match t.spillJudge m e with
           | .ok _ l => l.place == .scr 0 0
           | .bad _ _ _ | .absent => false)
       | none => false))) = true ∧
    (let s := engine blk0 true 0xC000000000000000
    ((s.runningMma 0 0).map (fun m => progWait (s.progOf 0 0 m) && (s.bandJudges m 0).all (fun x => !x.2.2.isAbsent))) == some true &&
    (let t := engine (blockOf 0xFF8000000000FFF0 0xFF80000000002000 0xFF80000000000400 0 0) true 0x8000000000000000
     mayRun t && ((t.runningMma 0 0).map (fun m => ((t.bandJudges m 0).findSome? (fun x => x.2.2.reason)).isSome)) == some true)) = true := by decide +kernel

/-- R239: byte 5 of the copy, the second row's second, is written 0x11 bytes on. -/
theorem test_copy_write :
    (did0 (.accessPerformed (.copyWrite 0 5)) (moved { copy2 with reads := [(5, 0xAB)] })).mem.read (scrKey 0 0 0x211) = 0xAB := by decide +kernel
/-- R242: N = 8 is added to the visibility counter when all is written. -/
theorem test_copy_complete :
    (did0 (.copyComplete 0) (moved { copy2 with reads := (List.range 8).map (fun k => (k, 5)), done := List.range 8 })).ctrWordAt
      { place := .scr 0 0, addr := 0x400 } = 8 := by decide +kernel
/-- R262: the progress register of an MMA that starts: BUSY, ROWS 0, the block's address. -/
theorem test_mma_start : ((did0 (.mmaStart 0 0) (engine blk0 false 0)).core 0 0).prog[0]? = some 0x800000000000FF80 := by decide +kernel
/-- R261: at word 3 of the store, row 0 and column 3, 2 times -3 is added to 7. -/
theorem test_mma_band :
    let s := engine blk0 true 0x8000000000000000
    accRead ((did0 (.mmaBandCommit 0 0) { s with mem := [(scrKey 0 0 0x40F, 0x80), (scrKey 0 0 0x1001, 2), (scrKey 0 0 0x2061, 0xFD)] }).core 0 0).acc 3 = 1 := by
  decide +kernel

/-! ### Resuming, pre-emption, the cone and the control complex -/

/-- The state in which warp 0 is in a state, with a trap code in its fault record. -/
def halted (st : WarpState) (code : Nat) (f : Warp → Warp := id) : State :=
  let s := stand (.nop h0)
  { s with warps := s.warps.map (fun x => f { x with state := st, fault := [0, BitVec.ofNat 64 (code * 2 ^ 32), 0, 0] }) }

/-- A command of an action for block 0 of launch 0 and its warp 0. -/
def cmdOf (action : Nat) : ResumeCmd := { w0 := BitVec.ofNat 64 action, w1 := 0, w2 := 0 }

theorem witness_WarpsResume :
    (let bad : ResumeCmd := { w0 := 0x800001, w1 := 0, w2 := 0 }
    let s := halted .trapped 1
    s.named (cmdOf 0) = some 0 ∧ (s.named { w0 := 0x10000, w1 := 0, w2 := 0 }).isNone = true ∧ reservedCmd bad = true ∧ reservedCmd (cmdOf 3) = false ∧
    (∃ x, s.warp? 0 = some x ∧ x.trapCode = 1 ∧ x.state = .trapped ∧ x.resume.head = false ∧ x.resume.done = false ∧ x.trapCode ≠ codeClause ∧
      x.trapCode ≠ codeClass ∧ x.trapCode ≠ codeTrapi ∧ x.trapCode ≠ codeStep ∧ (x.clause.map (fun c => (c.idx, c.words.length))) = some (0, 2)) ∧
    s.gangOf 0 = some 0 ∧ (s.gangs[0]?).map (fun g => (g.killed, g.launch)) = some (false, 0) ∧ (s.launches[0]?).isSome = true ∧ s.blocksOf 0 = [0] ∧
      ((s.warp? 0).bind Warp.clause).map Clause.pend = some []) ∧
    ((halted .ready 1).named (cmdOf 1) = some 0 ∧ (halted (.saved true) 1).named (cmdOf 1) = some 0 ∧
      ((halted .trapped codeClause.toNat (fun x => { x with clause := none, resume := { x.resume with head := true } })).warp? 0).any (fun x =>
        x.trapCode == codeClause && x.resume.head && x.trapCode != codeWback) = true ∧
      ((halted .trapped codeUniform.toNat).warp? 0).any (fun x => x.trapCode == codeUniform) = true ∧
      (let s := withRegs (standLast (.nop h0)) id
       ({ s with warps := s.warps.map (fun x => { x with state := .trapped, fault := [0, 0x100000000, 0, 0] }) } : State).warps.any (fun x =>
         x.clause.any (fun c => c.idx + 1 == c.words.length)) = true)) ∧
    (decodeWord (encode (.bra h0 true .all ⟨0, false⟩ 2)) = some (.bra h0 true .all ⟨0, false⟩ 2) ∧
      decodeWord (encode (.call h0 true .each ⟨7, false⟩ 2)) = some (.call h0 true .each ⟨7, false⟩ 2) ∧
      decodeWord (encode (.brx h0 true (.v 6))) = some (.brx h0 true (.v 6)) ∧ decodeWord (encode (.ret h0 true (.s 4))) = some (.ret h0 true (.s 4))) := by
  decide +kernel

/-- The state whose gang has been saved, with its warp. -/
def savedGang (b : Bool) : State :=
  let s := halted (.saved b) 1
  { s with gangs := s.gangs.map (fun g => { g with saved := true }) }

theorem witness_GangsArePreempted :
    (let pre := fun (s : State) => (s.gangs[0]?).any (fun x => x.placed && !x.saved && !x.killed) && decide (s.blocksOf 0 ≠ []) &&
      decide (s.warpsOfGang 0 = [0]) && (s.warps.all (fun x => !x.ahead))
    let stopped := fun (s : State) => (s.modGang 0 (fun x => { x with stopping := true })).stopped 0
    pre (halted .trapped 1) && stopped (halted .trapped 1) && pre (between [] id) && stopped (between [] id) && pre (stand (.nop h0)) && !stopped (stand (.nop h0)) &&
      (halted .trapped 1).copies.isEmpty && (let c : Copy := { going .copy [0x10100, 0xFF80000000000200, 0x100000004, 0x1000000008, 0, 0] with done := [0] }
      let s : State := { halted .trapped 1 with copies := [c] }
      !s.copyRests 0 c && pre s)) = true ∧
    ([true, false].all (fun b =>
      let s := savedGang b
      (s.gangs[0]?).any (fun x => x.saved && !x.killed && !x.damaged && s.clusterServes (s.saggarOfLaunch x.launch) 5) && s.restoreFits 0 5 [[7]] &&
      s.heldCmds.isEmpty && decide ((s.warps.map (fun x => (x.state, x.hold))) = [(.saved b, .none)]))) = true ∧
    (let s := stand (.nop h0)
    (s.ctxs[0]?).any (fun x => x.live && !x.switchedOut) && decide (s.gangsOfCtx 0 = [0]) &&
      (let t : State := { queuing [] [] with ctxs := [{ Ctx.fresh 0 with switchedOut := true }] }
       (t.ctxs[0]?).any (fun x => x.live && x.switchedOut) && (t.gangsOfCtx 0).isEmpty) &&
      (let t : State := { savedGang true with ctxs := (savedGang true).ctxs.map (fun c => { c with switchedOut := true }) }
       (t.ctxs[0]?).any (fun x => x.live && x.switchedOut) && (t.gangsOfCtx 0).any (fun g => !(t.blocksOf g).isEmpty) && (t.gangs[0]?).any Gang.placed)) = true := by
  decide +kernel

/-- The state whose warp waits on a word that its context alone advances, with a count of its cone. -/
def stuck (n : Nat) : State :=
  let s := waiting 0x400 1 false
  { s with ctxs := s.ctxs.map (fun c => { c with cone := n }), agenda := [.tick 5 7] }

theorem witness_ConeCountsAndFires :
    (stuck 3).agenda = .tick 5 7 :: [] ∧ ({ stuck 3 with agenda := [.tick 0 7] } : State).agenda = .tick 0 7 :: [] ∧ (stuck (2 ^ 26)).coneMeets 0 = true ∧
    ({ stuck 3 with locked := true, slew := 9 } : State).slew = 9 ∧ (stuck 3).slew = 0 ∧ (atClk 0).coneMeets 0 = false ∧ (stuck (2 ^ 26)).coneHolds 0 = true ∧ ((stuck (2 ^ 26)).ctxs[0]?).map Ctx.cone = some (2 ^ 26) ∧
    ((stuck (2 ^ 26)).launches[0]?).map (fun k => (k.ctx, k.finished)) = some (0, false) ∧ (stuck 3).coneHolds 0 = true ∧ (atClk 0).coneHolds 0 = false := by
  decide +kernel

theorem witness_ControlComplexWrites :
    (let s := halted .trapped 1
    ((s.ctxs[0]?).any (fun x => (x.lcbase[7]?).isSome) && s.pinned.isEmpty && s.mem.wf && s.justSet.isEmpty &&
      ({ s with justSet := [hitKey (1024 * 6 + 32 * 31)] } : State).justSet.contains (hitKey (1024 * 6 + 32 * 31)) &&
      boundsOk { base := 0, top := 0, low := 0xFF800000, high := 0x7F800000, action := 1 } && !s.locked && ({ s with locked := true } : State).locked &&
      s.ctxs.any Ctx.live && State.reset.ctxs.all (fun c => !c.live))) = true ∧
    ((0x3F800000 : Word).extractLsb' 23 8 ≠ 0xFF ∧ ((0x3F800000 : Word).extractLsb' 23 8).toNat = 127 ∧ ((0xBF800001 : Word).extractLsb' 0 23).toNat = 1) ∧
    ((0x7FC00000 : Word).extractLsb' 23 8 = 0xFF ∧ (0x7FC00000 : Word).extractLsb' 0 23 ≠ 0) ∧
    ([WarpState.trapped, .saved false, .saved true].all (fun st => ((halted st 1).warp? 0).any (fun x => x.state == st && decide (63 < x.regs.s.length) &&
      decide (31 < x.regs.lpc.length))) && ((halted .active 0 (fun x => { x with begun := true })).warp? 0).any (fun x => x.state == .active && x.begun) &&
      ((halted .ready 0 (fun x => { x with begun := false })).warp? 0).any (fun x => !x.begun)) = true ∧
    (let s := halted .active 0
    (tables.tablesFit 0 (fun _ _ => false) (fun k => (Ctx.fresh 0).lcbase.getD k 0) 0 0x100000) && tables.fullService && decide (tables.partition.nextMode = none) && (queuing [] []).waysUnder 0 0 9 && decide (tables.ctxOfAsid 7 = none) && decide (s.ctxOfAsid 7 = none) &&
      decide ((s.ctxs.filter Ctx.live).length < 64) && s.partition.serves 0 && decide (s.residents 0 ≠ []) && decide ((queuing [] []).residents 0 = []) &&
      decide ((queuing [] []).ctxOfAsid 9 = none) && decide ((0x1F00000009 : DWord).extractLsb' 32 5 ≠ 0) && !s.partition.serves 1) = true := by
  decide +kernel

/-- R400: SKIP passes over the instruction. -/
theorem test_skip :
    (((did0 (.resumeSkip (cmdOf 1)) (halted .trapped 1)).warp? 0).bind Warp.clause).map Clause.idx = some 1 := by decide +kernel
/-- R406: the warp of a saved gang that was TRAPPED is saved as such. -/
theorem test_preempt : ((did0 (.preempt 0) (halted .trapped 1)).warp? 0).map Warp.state = some (.saved true) := by decide +kernel
/-- R408: a restored warp stands on its new core. -/
theorem test_restore : ((did0 (.restore 0 5 [[7]]) (savedGang true)).warp? 0).map (fun x => (x.state, x.core)) = some (.trapped, 7) := by decide +kernel
/-- R372: the launch of a context whose cone fires has failed. -/
theorem test_cone : ((did0 (.cone 0) (stuck (2 ^ 26))).launches[0]?).map (fun l => (l.finished, l.failed)) = some (true, true) := by decide +kernel

/-! ### Peers, the host and the module -/

/-- The state in which warp 0 waits for node 9's answer to one access, issued at clk 0; a live route leads there. -/
def awaiting (clk : Nat) (op : AccOp) (n : Nat) : State :=
  let s := asking [acc0 op .n32 (((List.range 2).map (fun t => req0 t (0xFF00000000000000 + 4 * t) (.peer n) (4 * t) 4)))]
  { s with
    clk := clk, routes := s.routes.set 9 0xC
    warps := s.warps.map (fun x => { x with state := .waiting, hold := .accept 0, pending := some { head := h0 } }) }

theorem witness_PeersAnswer :
    (let ok := fun (s : State) => match s.awaited 0 with
      | some a => a.warp == 0 && !a.op.isCtr && !a.op.isLc && a.wait.isNone && decide (a.reqs = a.asked) && decide (a.reqs.length = [(5 : DWord), 6].length) &&
          (s.accs.take 0).isEmpty && (s.warp? 0).any (fun x => x.clause.isSome && x.pending.isSome)
      | none => false
    ok (awaiting 0 .load 9) && ok (awaiting (2 ^ 20) .store 9) && decide ((awaiting 0 .load 9).clk < 0 + 2 ^ 20) && ok (awaiting 0 .exch 9) &&
    (awaiting 0 .load 9).accs.all (fun a => a.reqs.all (fun r => ((awaiting 0 .load 9).refusedHere a r).isNone)) &&
    (awaiting 0 .load 9).accs.all (fun a => a.asked.all (fun r => !decide (r.loc.place = .peer 255))) &&
    (awaiting 0 .load 255).accs.all (fun a => a.asked.all (fun r => decide (r.loc.place = .peer 255) && ((awaiting 0 .load 255).refusedHere a r).isNone)) &&
    !(awaiting 0 .load 9).drainShelf && ({ awaiting 0 .load 9 with drainShelf := true, drainAt := 0 } : State).accs.all (fun a => decide (0 ≤ a.issuedAt)) &&
    ({ awaiting 0 .load 9 with drainShelf := true, drainAt := 5 } : State).accs.all (fun a => decide (a.issuedAt < 5)) &&
    (awaiting 0 .load 8).accs.all (fun a => a.reqs.all (fun r => (awaiting 0 .load 8).refusedHere a r == some 0x0B))) = true := by decide +kernel

/-- The state with an inbound window of node 9 for pages 1 and 2, whose first word is given. -/
def opened (w : DWord) : State :=
  let s := asking []
  { s with partition := .whole, inWindows := s.inWindows.set 7 (w, 0x20000), tags := [{ loc := { place := .nc, addr := 0x10200 }, ext := true }] }

/-- A request of node 9. -/
def inReq (op : InOp) (a n : Nat) (data : BitVec 1024 := 0) : InReq := { node := 9, flow := none, op := op, ty := .n32, paddr := a, size := n, data := data, cmp := 0 }

/-- The flow 4 of node 9 with a next number and held writes. -/
def inflowing (next : Option Nat) (held : List (InReq × Nat)) (clk : Nat) : State :=
  { opened 0x097000000001C000 with clk := clk, inFlows := [{ node := 9, id := 4, next := next, held := held }] }

theorem witness_InboundRequests :
    (let full := opened 0x097000000001C000
    let covers := fun (s : State) (st : Nat) (r : InReq) => (s.inWindows[7]?).any (fun w => decide ((w.1.extractLsb' 54 2).toNat = st ∧
      (w.1.extractLsb' 56 8).toNat = r.node ∧ (w.1.extractLsb' 16 36).toNat ≤ r.paddr / 2 ^ 16 ∧
      (r.paddr + r.size - 1) / 2 ^ 16 ≤ (w.2.extractLsb' 16 36).toNat)) && r.flow.isNone
    let before := fun (s : State) => (s.inWindows.take 7).all (fun w => w == (0, 0))
    let served := fun (s : State) => s.partition.serves 0 && decide (s.partition.mode = 0)
    let l : Loc := { place := .nc, addr := 0x10200 }
    served full && before full && covers full 1 (inReq .load 0x10000 1) && covers full 1 (inReq .store 0x2FFF8 8) && !covers full 1 (inReq .load 0x2FFFC 8) &&
    (full.inWindows[7]?).any (fun w => w.1.getLsbD 53 && w.1.getLsbD 52 && w.1.getLsbD 15 && w.1.getLsbD 14) && full.mem.wf && full.migrations.isEmpty &&
    !full.inPoison (inReq .load 0x10000 1) && !full.tagHit { place := .nc, addr := 0x2FFF8 } 8 && full.tagHit { place := .nc, addr := 0x10207 } 1 &&
    (inAtomic InOp.add).isSome && (full.ctrTag l).isSome && !ctrRetired (full.ctrWordAt l) && (full.ctrTag { place := .nc, addr := 0x10000 }).isNone &&
    covers full 1 (inReq .ctrAdd 0x10200 8 3) && covers full 1 (inReq .add 0x10000 4 3) && covers full 1 (inReq .ctrWait 0x10200 8 3) && covers full 1 (inReq (.lc .raise) 0x10000 1) && covers full 1 (inReq (.lc .raw) 0x10000 1) && covers full 1 (inReq (.lc .init) 0x10000 1) &&
    covers full 1 (inReq (.lc .est) 0x10000 1) &&
    (List.range 8).all (fun i => !full.aliased (0x10200 + i)) &&
    ({ full with poison := [0x200] } : State).inPoison (inReq .load 0x10000 1) &&
    (let none_ := opened 0x0940000000010000
     covers none_ 1 (inReq .load 0x10000 1) && (none_.inWindows[7]?).any (fun w => !w.1.getLsbD 53 && !w.1.getLsbD 52 && !w.1.getLsbD 15 && !w.1.getLsbD 14)) &&
    covers (opened 0x098000000001C000) 2 (inReq .load 0x10000 1) &&
    !({ full with partition := { full.partition with inService := [false, false, false, false] } } : State).partition.serves 0 &&
    !full.drainShelf && full.fullService && full.resetAt.isEmpty && ({ full with resetAt := [(0, 0)] } : State).resetAt.contains (0, full.clk) &&
    ({ full with drainShelf := true } : State).drainShelf && decide (full.bar2 = 2 ^ 38) &&
    (let host : InReq := { inReq .store 0x10000 2 5 with node := 255 }
     decide (host.paddr + host.size ≤ full.bar2) && decide (full.bar2 < 2 ^ 38 - 1 + host.size))) = true ∧
    (let r := fun (seq : Nat) (last : Bool) => { inReq .store 0x10000 4 7 with flow := some { id := 4, seq := seq, last := last, port := 0 } }
    let f := fun (s : State) => s.inFlow 9 4
    (f (inflowing (some 5) [] 0)).next.getD 5 = 5 ∧ (f (inflowing (some 5) [] 0)).held.isEmpty = true ∧ (r 5 true).flow = some { id := 4, seq := 5, last := true, port := 0 } ∧
    (f (inflowing none [] 0)).next.getD 0xFFFF = 0xFFFF ∧ (f (inflowing (some 5) [] 0)).next.getD 6 ≠ 6 ∧ (inflowing (some 5) [] 0).inHeld 0 < 512 ∧
    ({ opened 0x097000000001C000 with inFlows := (List.range 512).map (fun j => { node := 9, id := j, next := some 5, held := [(r 6 true, 0)] }) } : State).inHeld 0 = 512 ∧ (inflowing (some 5) [] 0).windowRefuses (r 5 true) = none ∧
    (inflowing none [] 0).windowRefuses (r 6 true) = none ∧ ((opened 0x0940000000010000).windowRefuses (r 5 true)).isSome = true ∧
    (let s : State := { opened 0x098000000001C000 with inFlows := (inflowing (some 5) [(r 6 true, 0)] 0).inFlows }
     (s.inWindows[7]?).any s.heldUnder = true ∧ (s.inWindows[7]?).map (fun w => (w.1.extractLsb' 54 2).toNat) = some 2 ∧
     ((opened 0x098000000001C000).inWindows[7]?).any (opened 0x098000000001C000).heldUnder = false) ∧
    (f (inflowing (some 5) [(r 6 true, 0)] (2 ^ 20))).held.any (fun h => decide (h.2 + 2 ^ 20 ≤ 2 ^ 20)) = true ∧
    (f (inflowing (some 5) [(r 6 true, 1)] (2 ^ 20))).held.all (fun h => decide (2 ^ 20 < h.2 + 2 ^ 20)) = true ∧
    (let s : State := { moved copy2 with flows := [{ warp := 0, mem := 3, seqSent := 1, seqDone := 0, held := [0] }, { warp := 0, mem := 2, seqSent := 1, seqDone := 0, held := [0] }] }
     ((s.flows[0]?).map (fun f => (f.mem, f.held))) = some (3, [0]) ∧ ((s.copies[0]?).map (fun c => (c.live, c.state))) = some (true, .running) ∧
     ((s.flows[1]?).map Flow.mem) = some 2 ∧
     (s.runOf 0).any (fun k => (s.failCtrs k.1 k.2.1 false).all (s.ctrReady k.2.1.warp)) = true ∧
     (let far : Copy := { copy2 with desc := copy2.desc.set 4 0x40000 }
      let t : State := { moved far with flows := [{ warp := 0, mem := 3, seqSent := 1, seqDone := 0, held := [0] }] }
      (t.runOf 0).any (fun k => !(t.failCtrs k.1 k.2.1 false).all (t.ctrReady k.2.1.warp))) = true) ∧
    ((moved { copy2 with state := .failed }).copies[0]?).map Copy.state = some .failed ∧
    [opened 0x0940000000010000, opened 0x0980000000010000, opened 0x0900000000010000, opened 0x09C0000000010000].map (fun s =>
      ((s.inWindows[7]?).map (fun w => (w.1.extractLsb' 54 2).toNat))) = [some 1, some 2, some 0, some 3]) := by decide +kernel

theorem witness_MailboxActs :
    (let l : Loc := { place := .nc, addr := 0x10200 }
    let s : State := { opened 0 with partition := { Partition.whole with mode := 2 } }
    decide ((launchPkt 0 0).length = 160) && ((queuing [] []).ctxs[0]?).any (fun c => (c.queues[3]?).isSome) && decide (s.ctxLoc 0 0x10200 = some l) &&
    decide (l.addr + 8 ≤ shelfTable) && s.mem.wf && s.migrations.isEmpty && (s.ctrTag l).isSome && !ctrRetired (s.ctrWordAt l) &&
    (List.range 8).all (fun i => !s.aliased (l.addr + i)) && ((queuing [] []).ctxs[0]?).any Ctx.live &&
    [0, 1, 2, 3].all (fun a => decide ((cmdOf a).w0.toNat % 8 = a)) && decide ((cmdOf 7).w0.toNat % 8 = 7)) = true := by decide +kernel

theorem witness_ShelvesRestack :
    (let s := { State.reset with restackTo := some 0xFE }
    let t : State := { s with drainShelf := true, restackAt := 100 }
    s.restackTo.isSome && !s.drainShelf && t.drained && !({ awaiting 0 .load 9 with drainAt := 5, drainShelf := true, restackTo := some 0xFE } : State).drained && (s.restackTo.getD s.liveShelves).getLsbD 7 && !(s.restackTo.getD s.liveShelves).getLsbD 0 &&
    decide (t.time.toNat ≤ t.restackAt + 50000) && decide (({ t with time := 60000 } : State).restackAt + 50000 < ({ t with time := 60000 } : State).time.toNat) &&
    decide ((23 : Nat) ∉ s.deadLinks ∧ s.replays.length = 24 ∧ s.replays.getD 23 0 < 16) &&
    decide (16 ≤ ({ s with replays := List.replicate 24 16 } : State).replays.getD 23 0) &&
    s.fullService && !({ s with fullService := false } : State).fullService && decide ((s.routesTo.getD s.routes).length = 255) &&
    decide ((({ s with deadLinks := [14] } : State).deadLinks.map (fun p => (p / 3, 4 + p % 3))) = [(4, 6)])) = true := by decide +kernel

theorem witness_ErrorsAreHandled :
    (let s := cached (stand (.nop h0))
    findLine s.llc 0 1024 = some (line0 .clean) ∧ (line0 .clean).dirty = false ∧ (line0 .clean).pending = false ∧ (line0 .dirty).dirty = true) ∧
    (let l : Loc := { place := .nc, addr := 0x10200 }
    let s := opened 0
    l.addr + 8 ≤ shelfTable ∧ s.mem.wf = true ∧ s.migrations.isEmpty = true ∧ (s.ctrTag l).isSome = true ∧ (List.range 8).all (fun i => !s.aliased (l.addr + i)) = true ∧
      s.warps.all (fun x => match x.hold with | .counter _ => false | _ => true) = true) ∧
    (let s := stand (.nop h0)
    (s.warp? 0).map Warp.state = some .active ∧ s.gangOf 0 = some 0 ∧ (s.gangs[0]?).map (fun g => (g.killed, g.saved, g.launch)) = some (false, false, 0) ∧
      ((savedGang false).gangs[0]?).map Gang.saved = some true ∧ (s.ctxs[0]?).map Ctx.live = some true ∧ s.pinned.isEmpty = true ∧ Partition.whole.dies 0 = [0, 1, 2, 3] ∧
      Partition.whole.saggarOf 3 = 0 ∧ 0 < Partition.whole.inService.length ∧ ({ Ctx.fresh 0 with func := 63 } : Ctx).func = 63 ∧
      s.resetAt = [] ∧ (0, s.clk) ∈ ({ s with resetAt := [(0, s.clk)] } : State).resetAt) := by decide +kernel

/-- An image that is good where its signature is, and one whose version lies below the fuses. -/
theorem witness_ModuleIsServed :
    (let img : FwImage := { version := 3, body := [1, 2], sig := [] }
    let s : State := { State.reset with banks := [some img, none], fuse := 3 }
    s.banks.getD s.nextBank none = some img ∧ s.goodImage img = Config.xmssVerify (signedBytes img) img.sig ∧
    ({ s with fuse := 4 } : State).goodImage img = false ∧ s.bootDone = true ∧ ({ s with fullService := false } : State).fullService = false ∧
    (List.replicate 64 (0 : Byte)).length = 64 ∧ s.attestIx < 2 ^ 20 ∧ 0 < s.powerStep ∧ ({ s with powerStep := 7 } : State).powerStep < 8 ∧
      s.powerAt + 10000000 ≤ ({ s with time := 10000000 } : State).time.toNat ∧ s.time.toNat < s.powerAt + 10000000) := by
  refine ⟨by decide +kernel, by simp [State.goodImage], by simp [State.goodImage], ?_⟩
  decide +kernel

theorem witness_DecodeIsInverseOfEncode :
    (Instr.iadd h1 .n64 true (.s 9) (.s 1) (.c 63)).wf = true ∧ (Instr.iadd h1 .n64 true (.s 9) (.s 1) (.c 63)).isWord = true ∧
    decodeWord 0xDB01C0000000BAD0 = some (.trap h0 0xBAD) := by decide +kernel

theorem witness_StepRunsDecoded :
    (let s : State := { stand (.trap h0 0xBAD) with agenda := [.issue 0] }
    let v := encode (.trap h0 0xBAD)
    s.agenda = .issue 0 :: [] ∧ (s.warp? 0).any (fun x => x.state == .active && x.hold == .none && !x.ahead && x.pipe.isSome) = true ∧
    (let t : State := { s with warps := s.warps.map (fun x => { x with pipe := none }) }
     ((t.warp? 0).any (fun x => (t.pipeFor 0 x 6).isSome && x.pipe.isNone)) = true ∧ t.stoppingWarp 0 = false) ∧
    ((s.warp? 0).bind Warp.clause).bind (fun c => c.words[c.idx]?) = some v ∧ decodeWord v = some (.trap h0 0xBAD)) ∧
    ((((standWords regs0 [0x1B01C00000000000]).warp? 0).bind Warp.clause).bind (fun c => c.words[c.idx]?) = some 0x1B01C00000000000 ∧
      decodeWord 0x1B01C00000000000 = none) ∧
    ({ State.reset with agenda := [.event .restack] } : State).agenda = .event .restack :: [] ∧ Instr.restack.isWord = false := by decide +kernel

theorem witness_StepsKeepMemoryForm :
    (let s : State := { asking [acc0 .store .n16 [req0 0 0x10100 .nc 0x10100 2 0xABCD]] with agenda := [.event (.accessPerformed (.req 0 0))] }
    s.mem.wf = true ∧ (match step s with | .next t => t.mem != s.mem | .fault _ | .refused _ => false) = true) := by decide +kernel

theorem witness_StepsKeepRegisterFiles :
    (let s : State := { stand (.vxor h0 (.v 3) (.v 1) 1) with agenda := [.issue 0] }
    s.shaped = true ∧ (match step s with | .next t => t.regs 0 != s.regs 0 | .fault _ | .refused _ => false) = true) := by decide +kernel

theorem witness_MemoryIsLittleEndian :
    placeKey { place := .nc, addr := 0x10100 } = some 0x10100 ∧ placeKey { place := .scr 0 0, addr := 8 } = some (scrKey 0 0 8) ∧
    (asking []).mem.wf = true ∧ (asking []).migrations.isEmpty = true := by decide +kernel

/-- R422: an inbound store writes its bytes at the frame. -/
theorem test_inbound_store :
    (did0 (.inboundRequest (inReq .store 0x10000 2 0xABCD)) (opened 0x097000000001C000)).mem.read 0x10001 = 0xAB := by decide +kernel
/-- R413, R357: after the switch shelf 0 is out, EPOCH is 1 and DRAIN 0. -/
theorem test_restack :
    (did0 .restackSwitch { State.reset with restackTo := some 0xFE, drainShelf := true, restackAt := 0 }).shelfWord = 0x1000007FE := by decide +kernel
/-- R416: a flit that has been sent again 16 times and is damaged is the end of its link. -/
theorem test_flit_replay :
    [15, 16].map (fun n => (did0 (.flitReplay 5 true) { State.reset with replays := List.replicate 24 n }).deadLinks) = [[], [5]] := by decide +kernel
/-- R443: a step down lowers STEP and sets THROT. -/
theorem test_throttle : let s := did0 .throttleStep State.reset; (s.powerStep, s.throt) = (7, true) := by decide +kernel

end Sys2Proof.Tests
end

section
/-! SUPPORT. What leaves memory: for each function of the model that writes no byte of memory, that memory is the same after it. -/
namespace Sys2Proof.Machine
-- One proof after another: side by side they need more threads than a compile is given memory for.
set_option Elab.async false

/-- A fold whose every step leaves memory leaves memory. -/
theorem foldl_mem {α : Type} {f : State → α → State} (h : ∀ s x, (f s x).mem = s.mem) (l : List α) (s : State) :
    (l.foldl f s).mem = s.mem := by
  induction l generalizing s with
  | nil => rfl
  | cons x l ih => rw [List.foldl_cons, ih, h]

section
variable (s : State) (w c e n k i j q a v va size cl core asid vline l b p g ctx : Nat)

@[simp] theorem State.fresh_mem : (s.fresh n).2.mem = s.mem := rfl
@[simp] theorem State.setPoison_mem (b : Bool) : (s.setPoison k b).mem = s.mem := rfl
@[simp] theorem State.refreshCC_mem : (s.refreshCC cl asid vline).mem = s.mem := State.modCC_mem ..
@[simp] theorem State.invalLine_mem : (s.invalLine cl asid vline).mem = s.mem := by
  unfold State.invalLine; simp only; split <;> simp
@[simp] theorem State.freeHeld_mem : (s.freeHeld asid vline).mem = s.mem := rfl
@[simp] theorem State.modWarpsOn_mem (f : Warp → Warp) : (s.modWarpsOn cl core f).mem = s.mem := rfl
@[simp] theorem State.l1Put_mem (l : Line) : (s.l1Put cl core l).mem = s.mem := by
  unfold State.l1Put; simp only [State.modCore_mem]; split <;> simp
@[simp] theorem State.nearWrite_mem (b : Byte) : (s.nearWrite cl core asid va b).mem = s.mem := State.modCore_mem ..
@[simp] theorem State.touchCopies_mem (h : Hint) : (s.touchCopies cl core asid vline h).mem = s.mem := by simp [State.touchCopies]
@[simp] theorem State.ownWrite_mem (x : DWord) : (s.ownWrite cl core asid va n x).mem = s.mem := State.modCore_mem ..
@[simp] theorem State.clearPoison_mem (near : Bool) (l : Loc) : (s.clearPoison cl core near l).mem = s.mem := by
  unfold State.clearPoison; simp only; split
  · split <;> simp
  all_goals rfl
@[simp] theorem State.acquireCC_mem : (s.acquireCC cl asid).mem = s.mem :=
  (foldl_mem (fun _ _ => State.refreshCC_mem ..) _ _).trans (State.modCC_mem ..)
@[simp] theorem State.dropLines_mem : (s.dropLines a).mem = s.mem := rfl
@[simp] theorem State.relabel_mem (x : DWord) : (s.relabel asid va size x).mem = s.mem := rfl
@[simp] theorem State.noteFrame_mem (x : DWord) : (s.noteFrame asid va size x).mem = s.mem := rfl
@[simp] theorem State.atLine_mem (lvl : CacheLevel) (f : Line → Option Line) : (s.atLine lvl cl core asid vline f).mem = s.mem := by
  unfold State.atLine; cases lvl <;> simp
@[simp] theorem State.tagWord_mem (l : Loc) (x : Bool) : (s.tagWord l x).mem = s.mem := rfl
@[simp] theorem State.untag_mem (l : Loc) : (s.untag l).mem = s.mem := rfl

/-! ### Scheduling -/

@[simp] theorem State.fillLoad_mem : (s.fillLoad cl core).mem = s.mem := by
  unfold State.fillLoad; exact foldl_mem (fun _ _ => State.modWarp_mem ..) _ _
@[simp] theorem State.fillCores_mem (cs : List Nat) : (s.fillCores cl cs).mem = s.mem := foldl_mem (fun _ _ => State.fillLoad_mem ..) _ _
@[simp] theorem State.fillLoadAt_mem : (s.fillLoadAt w).mem = s.mem := by
  unfold State.fillLoadAt; split <;> simp
@[simp] theorem State.ready_mem : (s.ready w).mem = s.mem := State.fillLoadAt_mem ..
@[simp] theorem State.untrap_mem : (s.untrap w).mem = s.mem := State.ready_mem ..
@[simp] theorem State.sliceEnd_mem : (s.sliceEnd cl core).mem = s.mem := State.modCore_mem ..
@[simp] theorem State.windowEnd_mem : (s.windowEnd cl core).mem = s.mem := by
  unfold State.windowEnd
  rw [State.modCore_mem, State.sliceEnd_mem, State.modCore_mem]
  exact foldl_mem (fun _ _ => State.modWarp_mem ..) _ _
@[simp] theorem State.takeBoundaries_mem (l : List (Nat × Nat)) : (s.takeBoundaries l).mem = s.mem :=
  foldl_mem (fun s p => by simp only; split <;> split <;> simp) l s
@[simp] theorem State.noteCandidates_mem : s.noteCandidates.mem = s.mem := rfl
@[simp] theorem State.noteStarving_mem : s.noteStarving.mem = s.mem := rfl
@[simp] theorem State.shrink_mem : (s.shrink w).mem = s.mem := by
  unfold State.shrink; simp only; split
  · rfl
  · split <;> simp
@[simp] theorem State.victimHit_mem : (s.victimHit w asid vline).mem = s.mem := by
  unfold State.victimHit; simp only; split
  · rfl
  · split
    · split <;> simp
    · rfl
@[simp] theorem State.releaseCharge_mem : (s.releaseCharge w n).mem = s.mem := by
  unfold State.releaseCharge; simp only; split
  · rfl
  · split
    · simp
    · split <;> simp
@[simp] theorem State.settleHold_mem : (s.settleHold w).mem = s.mem := by
  unfold State.settleHold; simp only; split
  · rfl
  · split
    · simp
    · repeat' split
      all_goals simp
@[simp] theorem State.resumeHold_mem : (s.resumeHold w).mem = s.mem := by
  unfold State.resumeHold; simp only; split
  · simp
  · split <;> simp
@[simp] theorem State.meetLoad_mem : (s.meetLoad w).mem = s.mem := by
  unfold State.meetLoad; split <;> simp
@[simp] theorem State.boundary_mem : (s.boundary w).mem = s.mem := by
  unfold State.boundary; simp only; split
  · rfl
  · repeat' split
    all_goals simp
@[simp] theorem State.resumeEnded_mem : (s.resumeEnded w).mem = s.mem := by simp [State.resumeEnded]
@[simp] theorem State.diverge_mem : (s.diverge w).mem = s.mem := State.untrap_mem ..
@[simp] theorem State.takePipe_mem : (s.takePipe w).mem = s.mem := by
  unfold State.takePipe; split
  · rfl
  · split <;> rfl
@[simp] theorem State.coneReset_mem : (s.coneReset w).mem = s.mem := rfl
@[simp] theorem State.applyWrites_mem : (s.applyWrites w).mem = s.mem := by
  unfold State.applyWrites; split <;> rfl
@[simp] theorem State.writeWarp_mem (f : Warp → Warp) : (s.writeWarp w f).mem = s.mem := rfl
@[simp] theorem State.writeRegs_mem (f : Regs → Regs) : (s.writeRegs w f).mem = s.mem := rfl
@[simp] theorem State.rollBack_mem : (s.rollBack w).mem = s.mem := by
  unfold State.rollBack; split <;> simp
@[simp] theorem State.stopAhead_mem : (s.stopAhead w).mem = s.mem := by
  unfold State.stopAhead; split <;> simp
@[simp] theorem State.startAhead_mem (r : Regs) (ps : List Nat) : (s.startAhead w r ps).mem = s.mem := by
  unfold State.startAhead; split <;> simp
@[simp] theorem State.loadWarp_mem : (s.loadWarp w).mem = s.mem := by
  unfold State.loadWarp; split
  · rfl
  · split <;> rfl
@[simp] theorem State.discardWarp_mem : (s.discardWarp w).mem = s.mem := rfl
@[simp] theorem State.releaseClaims_mem : (s.releaseClaims b).mem = s.mem := rfl
@[simp] theorem State.claimCores_mem (cs : List Nat) : (s.claimCores b cl cs).mem = s.mem := by
  unfold State.claimCores; exact foldl_mem (fun _ _ => by simp) _ _
@[simp] theorem State.saveCores_mem : (s.saveCores b).mem = s.mem :=
  foldl_mem (fun s c => by simp only; split <;> simp) _ _

/-! ### Accesses -/

@[simp] theorem State.clobber_mem (gs : List Reg) (m : Mask) : (s.clobber w gs m n).mem = s.mem := by
  unfold State.clobber; split <;> rfl
@[simp] theorem State.reread_mem (gs : List Reg) : (s.reread w gs n).mem = s.mem := by
  unfold State.reread; split
  · rfl
  · simp only; split <;> rfl
@[simp] theorem State.reqDone_mem (x : DWord) (d : Bool) : (s.reqDone n i x d).mem = s.mem := rfl
@[simp] theorem State.keepClobbered_mem (r : Regs) (a : Access) (t : Regs) : (s.keepClobbered r a t).1.mem = s.mem := by
  unfold State.keepClobbered; split <;> rfl
@[simp] theorem State.writeBack_mem : (s.writeBack n).mem = s.mem := by
  unfold State.writeBack; simp only; split
  · rfl
  · split
    · rfl
    · split
      · rfl
      · split <;> simp
@[simp] theorem State.accPut_mem (ws : List (Nat × Word)) : (s.accPut cl core ws).mem = s.mem := by
  unfold State.accPut; simp only [State.modCore_mem]; split <;> rfl
@[simp] theorem State.sendAsked_mem (a : Access) : (s.sendAsked a).mem = s.mem := rfl

/-! ### Queues, copies and engines -/

@[simp] theorem State.modLog_mem (x : LogKind) (f : Log → Log) : (s.modLog ctx x f).mem = s.mem := by
  cases x <;> rfl
@[simp] theorem State.describeLog_mem (x : LogKind) (y : LogVal) : (s.describeLog ctx x y).mem = s.mem := by
  unfold State.describeLog; simp only; split <;> simp
@[simp] theorem State.modQueue_mem (f : Queue → Queue) : (s.modQueue ctx q f).mem = s.mem := rfl
@[simp] theorem State.popHead_mem (x : Bool) : (s.popHead ctx q x).mem = s.mem := rfl
@[simp] theorem State.submit_mem (p : List Byte) (x : DWord) : (s.submit ctx q p x).2.mem = s.mem := by
  unfold State.submit; split
  · rfl
  · repeat' split
    all_goals rfl
@[simp] theorem State.settleLaunch_mem : (s.settleLaunch n).mem = s.mem := by
  unfold State.settleLaunch; split
  · rfl
  · split
    · split <;> simp
    · rfl
@[simp] theorem State.spendPeer_mem (x : DWord) : (s.spendPeer x).mem = s.mem := by
  unfold State.spendPeer; split <;> rfl
@[simp] theorem State.joinFlow_mem (x : Copy) : (s.joinFlow x i).mem = s.mem := by
  unfold State.joinFlow; simp only; split
  · rfl
  · split <;> rfl
@[simp] theorem State.leaveFlow_mem : (s.leaveFlow j).mem = s.mem := rfl
@[simp] theorem State.noteStaged_mem : (s.noteStaged i).mem = s.mem := by
  unfold State.noteStaged; split
  · rfl
  · split <;> simp
@[simp] theorem State.copyWait_mem (x : DWord) : (s.copyWait i x).mem = s.mem := rfl
@[simp] theorem State.endDrains_mem : s.endDrains.mem = s.mem :=
  foldl_mem (fun s w => by split; (split <;> simp); rfl) _ _
@[simp] theorem State.copyEnd_mem (x : CopyState) : (s.copyEnd i x).mem = s.mem := by
  unfold State.copyEnd; simp only; split
  · rfl
  · rw [State.endDrains_mem]
    split
    · exact (foldl_mem State.leaveFlow_mem _ _).trans (foldl_mem (fun _ _ => State.modCopy_mem ..) _ _)
    · exact foldl_mem (fun _ _ => State.modCopy_mem ..) _ _
@[simp] theorem State.copyCheck_mem : (s.copyCheck i).mem = s.mem := by
  unfold State.copyCheck; split
  · rfl
  · split <;> simp
@[simp] theorem State.setProg_mem (m : Mma) (x : DWord) : (s.setProg cl core m x).mem = s.mem := State.modCore_mem ..
@[simp] theorem State.mmaEnd_mem (m : Mma) : (s.mmaEnd cl core m).mem = s.mem := by simp [State.mmaEnd]
@[simp] theorem State.zeroTile_mem (m : Mma) : (s.zeroTile cl core m).mem = s.mem := by
  unfold State.zeroTile; simp only [State.modCore_mem]; split <;> rfl

/-! ### The fabric and the module -/

@[simp] theorem State.answerIn_mem (r : InReq) : (s.answerIn r a v).mem = s.mem := rfl
@[simp] theorem State.watchIn_mem (r : InReq) (l : Loc) (x y : DWord) : (s.watchIn r l x y).mem = s.mem := by
  unfold State.watchIn; split <;> rfl
@[simp] theorem State.serveWatches_mem : s.serveWatches.mem = s.mem := rfl
@[simp] theorem State.setInFlow_mem (f : InOrder) : (s.setInFlow f).mem = s.mem := rfl
@[simp] theorem State.stopInjection_mem : s.stopInjection.mem = s.mem := by
  unfold State.stopInjection; split <;> rfl
@[simp] theorem State.shelfDies_mem : (s.shelfDies k).mem = s.mem := by
  unfold State.shelfDies; simp only; split <;> rfl
@[simp] theorem State.reroute_mem (f : List (BitVec 24) → List (BitVec 24)) : (s.reroute f).mem = s.mem := State.stopInjection_mem _
@[simp] theorem State.dropLink_mem : (s.dropLink p).mem = s.mem := State.reroute_mem ..
@[simp] theorem State.switchShelves_mem (x : BitVec 8) : (s.switchShelves x).mem = s.mem := rfl
@[simp] theorem State.modeReset_mem : (s.modeReset k).mem = s.mem := by
  unfold State.modeReset; simp only; split
  · rfl
  · split <;> rfl

end

end Sys2Proof.Machine
end

section
/-! SUPPORT. Every operation on the state keeps memory in its canonical form: it writes bytes, drops entries, or leaves memory as it is. -/
namespace Sys2Proof.Machine
-- One proof after another: side by side they need more threads than a compile is given memory for.
set_option Elab.async false

/-! ### Memory by itself -/

theorem Memory.above_filter {x : Nat} (p : Host.Cell → Bool) : {m : Memory} → m.above x → Memory.above x (m.filter p)
  | [], _ => trivial
  | c :: r, ⟨h, hr⟩ => by
    rw [List.filter_cons]
    split
    · exact ⟨h, above_filter p hr⟩
    · exact above_filter p hr

/-- Taking bytes out keeps the canonical form. -/
theorem Memory.wf_filter (p : Host.Cell → Bool) {m : Memory} (h : m.wf = true) : Memory.wf (m.filter p) = true := by
  induction m with
  | nil => rfl
  | cons c r ih =>
    obtain ⟨hb, ha, hr⟩ := Memory.wf_cons.mp h
    rw [List.filter_cons]
    split
    · exact Memory.wf_cons.mpr ⟨hb, Memory.above_filter p ha, ih hr⟩
    · exact ih hr

/-- A fold whose every step keeps the canonical form keeps it. -/
theorem Memory.wf_foldl {α : Type} {f : Memory → α → Memory} (hf : ∀ m x, m.wf = true → (f m x).wf = true) (l : List α) {m : Memory}
    (h : m.wf = true) : (l.foldl f m).wf = true := by
  induction l generalizing m with
  | nil => exact h
  | cons x l ih => exact ih (hf m x h)

/-! ### States -/

/-- The memory of a state is in its canonical form (log 3). -/
def State.Canon (s : State) : Prop := s.mem.wf = true

section
variable {s t : State}

theorem State.Canon.of_wf {m : Memory} (h : m.wf = true) (e : t.mem = m := by with_reducible rfl) : t.Canon := (congrArg Memory.wf e).trans h

/-- What leaves memory leaves its form. -/
theorem State.Canon.of_mem (h : s.Canon) (e : t.mem = s.mem := by with_reducible rfl) : t.Canon := .of_wf h e

theorem State.Canon.ite {p : Prop} [Decidable p] (hs : s.Canon) (ht : t.Canon) : (if p then s else t).Canon := by
  split
  · exact hs
  · exact ht

theorem State.Canon.foldl {α : Type} {f : State → α → State} {l : List α} (h : s.Canon) (hf : ∀ s x, s.Canon → (f s x).Canon) :
    (l.foldl f s).Canon := by
  induction l generalizing s with
  | nil => exact h
  | cons x l ih => exact ih (hf s x h)
end

section
variable {s : State} {a va at_ asid vline p w cl core i n lvl : Nat} {l : Line} {q : Loc} {x : DWord} {h : Hint} {b : Byte} {c : Option Nat}

/-! ### Units by number -/

theorem State.Canon.modWarp {f : Warp → Warp} (hs : s.Canon) : (s.modWarp w f).Canon := hs
theorem State.Canon.modBlock {f : Block → Block} (hs : s.Canon) : (s.modBlock n f).Canon := hs
theorem State.Canon.modGang {f : Gang → Gang} (hs : s.Canon) : (s.modGang n f).Canon := hs
theorem State.Canon.modLaunch {f : Launch → Launch} (hs : s.Canon) : (s.modLaunch n f).Canon := hs
theorem State.Canon.modCtx {f : Ctx → Ctx} (hs : s.Canon) : (s.modCtx n f).Canon := hs
theorem State.Canon.modAcc {f : Access → Access} (hs : s.Canon) : (s.modAcc n f).Canon := hs
theorem State.Canon.modCopy {f : Copy → Copy} (hs : s.Canon) : (s.modCopy n f).Canon := hs
theorem State.Canon.modCore {f : Core → Core} (hs : s.Canon) : (s.modCore cl core f).Canon := hs.of_mem (State.modCore_mem ..)
theorem State.Canon.modCC {f : List Line → List Line} (hs : s.Canon) : (s.modCC cl f).Canon := hs.of_mem (State.modCC_mem ..)
theorem State.Canon.bump (hs : s.Canon) : (s.bump i n a c).Canon := hs.of_mem (State.bump_mem ..)
theorem State.Canon.dropTlb (hs : s.Canon) : (s.dropTlb asid va n).Canon := hs
theorem State.Canon.invalLine (hs : s.Canon) : (s.invalLine cl asid vline).Canon := hs.of_mem (State.invalLine_mem ..)

/-! ### Stacks and caches -/

theorem State.Canon.writePte (hs : s.Canon) : (s.writePte at_ x).Canon := Memory.wf_writeN _ _ hs

theorem State.Canon.endMigration (hs : s.Canon) : (s.endMigration asid va).Canon := by
  unfold State.endMigration
  split
  · exact hs
  · refine .ite hs ?_
    simp only
    split
    · exact hs
    · exact hs.of_mem.writePte.dropTlb

theorem State.Canon.pull (hs : s.Canon) : (s.pull p).Canon := by
  unfold State.pull
  split
  · exact hs
  · exact .ite hs (endMigration (.of_wf (Memory.wf_writeN _ _ hs)))

theorem State.Canon.stackTake (hs : s.Canon) : (s.stackTake l p).Canon :=
  .of_wf (Memory.wf_foldl (fun m i hm => by split; exacts [Memory.wf_write _ _ hm, hm]) _ hs.pull) rfl

theorem State.Canon.llcClean (hs : s.Canon) : (s.llcClean asid vline).1.Canon := by
  unfold State.llcClean
  split
  · exact hs
  · split
    · exact hs
    · split
      · exact hs
      · exact hs.stackTake.of_mem

theorem State.Canon.llcEvict (hs : s.Canon) : (s.llcEvict l).Canon := by
  unfold State.llcEvict
  simp only
  exact hs.llcClean.of_mem

/-- Making room keeps the form where each eviction does. -/
theorem State.Canon.makeRoom {set : State → List Line} {ways : Nat} {evict : Line → State → State}
    (he : ∀ v s, s.Canon → (evict v s).Canon) (hs : s.Canon) : (makeRoom set ways evict n s).Canon := by
  induction n generalizing s with
  | zero => exact hs
  | succ n ih =>
    unfold Machine.makeRoom
    split
    · exact hs
    · split
      · exact hs
      · exact ih (he _ _ hs)

theorem State.Canon.llcRoom (hs : s.Canon) : (s.llcRoom asid vline).Canon := makeRoom (fun _ _ => llcEvict) hs

theorem State.Canon.llcFill (hs : s.Canon) : (s.llcFill asid vline h).Canon := by
  unfold State.llcFill
  split
  · exact hs.of_mem
  · split
    · exact hs
    · exact .ite (hs.llcRoom.pull.of_mem) hs.llcRoom

theorem State.Canon.homeWrite (hs : s.Canon) : (s.homeWrite asid va b).Canon := by
  unfold State.homeWrite
  simp only
  split
  · exact .of_wf (Memory.wf_write _ _ hs.llcFill.pull)
  · exact hs.llcFill.of_mem

theorem State.Canon.homeTake (hs : s.Canon) : (s.homeTake l).1.Canon := by
  unfold State.homeTake
  simp only
  split
  · exact hs
  · split
    · split
      · exact hs.llcFill.of_mem
      · exact hs.llcFill
    · split
      · exact hs.llcFill.stackTake
      · exact hs.llcFill
    · exact hs.llcFill

theorem State.Canon.l1ToCC (hs : s.Canon) : (s.l1ToCC cl core asid vline).1.Canon := by
  unfold State.l1ToCC
  simp only
  split
  · exact hs
  · split
    · exact hs
    · split
      · split
        · exact hs.modCC.modCore
        · exact hs
      · exact .ite hs.homeTake.modCore hs.homeTake

theorem State.Canon.takeL1s {cs : List Nat} (hs : s.Canon) : (takeL1s cl asid vline cs s).1.Canon := by
  induction cs generalizing s with
  | nil => exact hs
  | cons c cs ih => exact ih hs.l1ToCC

theorem State.Canon.flushLine (hs : s.Canon) : (s.flushLine cl asid vline).1.Canon := by
  unfold State.flushLine
  simp only
  split <;> dsimp only
  · exact hs.takeL1s
  · exact .ite hs.takeL1s.homeTake.modCC hs.takeL1s.homeTake.modCC

theorem State.Canon.ccEvict (hs : s.Canon) : (s.ccEvict cl l).Canon := by
  unfold State.ccEvict
  simp only
  exact .ite hs.flushLine.invalLine hs.flushLine.modCC

theorem State.Canon.ccRoom (hs : s.Canon) : (s.ccRoom cl vline).Canon := makeRoom (fun _ _ => ccEvict) hs
end

section
variable {s : State} {a va asid vline p w cl core i n k ctx op src lix bix reason nack thread idx : Nat} {l : Line} {q : Loc}
  {x y : DWord} {h : Hint}
  {b : Byte} {c : Option Nat} {empty near ext done head : Bool} {bs : List Byte} {ws : List DWord} {log : LogKind} {code : BitVec 8}
  {t : TrapInfo}
  {m : Mask} {f : Finish} {sc : Scope}

theorem State.Canon.ccFill (hs : s.Canon) : (s.ccFill cl asid vline h).Canon := by
  unfold State.ccFill
  simp only
  split
  · exact hs.modCC
  · split
    · exact hs.ccRoom.llcFill
    · exact .ite hs.ccRoom.llcFill.modCC hs.ccRoom.llcFill

theorem State.Canon.recall {cs : List Nat} (hs : s.Canon) : (s.recall asid vline cs).Canon := hs.foldl fun _ _ h => h.flushLine.invalLine

theorem State.Canon.recallOwners (hs : s.Canon) : (s.recallOwners asid vline).Canon := hs.recall

theorem State.Canon.clusterSync (hs : s.Canon) : (s.clusterSync cl core asid vline).Canon := hs.takeL1s

theorem State.Canon.l1Evict (hs : s.Canon) : (s.l1Evict cl core l).Canon := by
  unfold State.l1Evict
  simp only
  exact .ite (hs.l1ToCC.modCore.of_mem (State.modWarpsOn_mem ..)) hs.l1ToCC.modCore

theorem State.Canon.l1Room (hs : s.Canon) : (s.l1Room cl core vline).Canon := makeRoom (fun _ _ => l1Evict) hs

theorem State.Canon.l1Put (hs : s.Canon) : (s.l1Put cl core l).Canon := hs.of_mem (State.l1Put_mem ..)

theorem State.Canon.l1Fill (hs : s.Canon) : (s.l1Fill cl core asid vline h empty).Canon := by
  have room : (((s.clusterSync cl core asid vline).ccFill cl asid vline h).l1Room cl core vline).Canon := hs.clusterSync.ccFill.l1Room
  unfold State.l1Fill
  split
  · exact hs.modCore
  · simp only
    split
    · exact room
    · exact .ite room.l1Put room

theorem State.Canon.nearFill (hs : s.Canon) : (s.nearFill w cl core asid vline h empty).Canon := by
  unfold State.nearFill
  exact .ite hs.l1Fill.modWarp hs.l1Fill

theorem State.Canon.nearOpen (hs : s.Canon) : (s.nearOpen w cl core asid vline h empty).Canon :=
  nearFill (.ite hs (hs.of_mem (State.victimHit_mem ..)))

theorem State.Canon.grant (hs : s.Canon) : (s.grant cl core asid vline h).Canon := by
  unfold State.grant
  simp only
  split
  · exact l1Put hs.clusterSync.ccFill.of_mem
  · exact hs.clusterSync.ccFill.of_mem

theorem State.Canon.farWrite (hs : s.Canon) : (s.farWrite cl core asid va b).Canon := by
  unfold State.farWrite
  exact (hs.clusterSync.homeWrite.modCC).of_mem

/-! ### Bytes at their place -/

theorem State.Canon.placeWrite (hs : s.Canon) : (s.placeWrite q i b).Canon := by
  unfold State.placeWrite
  split
  · exact hs.homeWrite
  · exact .of_wf (Memory.wf_write _ _ hs.pull)
  · exact .of_wf (Memory.wf_write _ _ hs)
  · exact .of_wf (Memory.wf_write _ _ hs)
  · exact hs

theorem State.Canon.placePut (hs : s.Canon) : (s.placePut q n x).Canon := hs.foldl fun _ _ h => h.placeWrite

theorem State.Canon.pullAt (hs : s.Canon) : (s.pullAt q).Canon := by
  unfold State.pullAt
  split
  · exact hs.pull
  · split
    · exact hs.pull
    · exact hs
  all_goals exact hs

theorem State.Canon.homeReady (hs : s.Canon) : (s.homeReady c q).Canon := by
  unfold State.homeReady
  split
  · simp only
    split
    · exact hs.recallOwners.invalLine
    · exact hs.recallOwners
  all_goals exact hs.pullAt

/-! ### Counters and logs -/

theorem State.Canon.ctrUpdate (hs : s.Canon) : (s.ctrUpdate q x).1.Canon := by
  unfold State.ctrUpdate
  split
  · split
    · exact hs
    · split
      · exact hs
      · exact hs.of_mem rfl
  all_goals
    split
    · exact hs
    · simp only
      split
      · exact hs.homeReady
      · exact hs.homeReady.placePut

theorem State.Canon.modLog {f : Log → Log} (hs : s.Canon) : (s.modLog ctx log f).Canon := hs.of_mem (State.modLog_mem ..)

theorem State.Canon.ccWrite (hs : s.Canon) : (s.ccWrite ctx x bs).Canon := by
  induction bs generalizing s x with
  | nil => exact hs
  | cons b r ih =>
    unfold State.ccWrite
    simp only
    split
    · exact ih hs.homeReady.placeWrite
    · exact ih hs

theorem State.Canon.logWrite (hs : s.Canon) : (s.logWrite ctx log x bs).Canon := by
  unfold State.logWrite
  split
  · exact hs.foldl fun _ _ h => h.placeWrite
  all_goals exact hs.ccWrite

theorem State.Canon.putEntry (hs : s.Canon) : (s.putEntry ctx log k ws).1.Canon := by
  unfold State.putEntry
  simp only
  split
  · exact hs
  · split
    · exact hs.modLog
    · split
      · exact hs.logWrite.ctrUpdate.modLog
      · exact hs.logWrite.modLog

theorem State.Canon.lostAdd (hs : s.Canon) : (s.lostAdd ctx lix x reason nack).Canon := hs.putEntry

theorem State.Canon.logEntry (hs : s.Canon) : (s.logEntry ctx log k ws).Canon := by
  unfold State.logEntry
  simp only
  split
  · exact hs.putEntry.lostAdd
  · exact hs.putEntry.lostAdd
  · exact hs.putEntry

theorem State.Canon.trapEntry (hs : s.Canon) : (s.trapEntry ctx src code k lix bix ws).Canon := hs.logEntry

theorem State.Canon.copyEntry (hs : s.Canon) : (s.copyEntry w op reason thread nack x ws).Canon := hs.logEntry

theorem State.Canon.engineAdd (hs : s.Canon) : (s.engineAdd w op x y ws thread).Canon := by
  unfold State.engineAdd
  split
  · exact hs.copyEntry
  · simp only
    split
    · exact hs.ctrUpdate
    · exact hs.ctrUpdate.copyEntry
  · exact hs.copyEntry

theorem State.Canon.schedAdd (hs : s.Canon) : (s.schedAdd ctx lix x y).Canon := by
  unfold State.schedAdd
  simp only
  split
  · exact hs.of_mem
  · split
    · exact hs.lostAdd
    · split
      · exact hs.ctrUpdate
      · exact hs.ctrUpdate.lostAdd

/-! ### Traps and the end of an instruction -/

theorem State.Canon.fillLoadAt (hs : s.Canon) : (s.fillLoadAt w).Canon := hs.of_mem (State.fillLoadAt_mem ..)
theorem State.Canon.fillCores {cs : List Nat} (hs : s.Canon) : (s.fillCores cl cs).Canon := hs.of_mem (State.fillCores_mem ..)
theorem State.Canon.boundary (hs : s.Canon) : (s.boundary w).Canon := hs.of_mem (State.boundary_mem ..)

theorem State.Canon.takeTrap (hs : s.Canon) : (s.takeTrap w t m x idx done head).Canon := by
  unfold State.takeTrap
  split
  · exact hs
  · exact (fillLoadAt (modWarp (.ite (hs.of_mem (State.freeHeld_mem ..)) hs))).trapEntry

theorem State.Canon.trapHere (hs : s.Canon) : (s.trapHere w t).Canon := by
  unfold State.trapHere
  split
  · exact hs
  · exact hs.takeTrap

theorem State.Canon.raiseHere (hs : s.Canon) : (s.raiseHere w t).Canon := .ite hs.modWarp hs.trapHere

theorem State.Canon.complete (hs : s.Canon) : (s.complete w f).Canon := by
  unfold State.complete
  split
  · exact hs
  · simp only
    split
    · exact hs
    · have told {x : Warp} {gs rs : List Reg} {n k : Nat} {m : Mask} :
          (((s.modWarp w (fun _ => x)).clobber w gs m n).reread w rs k).Canon := hs.of_mem (by simp)
      split
      · exact told.takeTrap
      · exact .ite told.takeTrap (.ite told.boundary told)

end

section
variable {s : State} {a b g va asid vline p w cl core i n k ctx op src lix bix reason nack thread idx : Nat} {l : Line} {q : Loc}
  {x y : DWord} {h : Hint}
  {c : Option Nat} {near rel flag dropped : Bool} {bs : List Byte} {ws : List DWord} {code : BitVec 8} {t : TrapInfo}
  {m : Mask} {f : Finish} {sc : Scope} {wt : CtrWait} {acc : Access} {r : Req}

/-! ### Fences and waits -/

theorem State.Canon.flushAll {ls : List Nat} (hs : s.Canon) : (flushAll cl asid ls s).1.Canon := by
  induction ls generalizing s with
  | nil => exact hs
  | cons l ls ih =>
    unfold Machine.flushAll
    simp only
    exact ih hs.flushLine

theorem State.Canon.release (hs : s.Canon) : (s.release w sc).1.Canon := by
  unfold State.release
  split
  · exact hs.flushAll
  · exact hs

theorem State.Canon.acquireL1 (hs : s.Canon) : (s.acquireL1 cl core asid).Canon := modCore (hs.foldl fun _ _ h => h.l1ToCC)

theorem State.Canon.acquireCC (hs : s.Canon) : (s.acquireCC cl asid).Canon := hs.of_mem (State.acquireCC_mem ..)

theorem State.Canon.acquire (hs : s.Canon) : (s.acquire w sc).Canon := .ite hs.acquireL1.acquireCC hs

theorem State.Canon.gangAcquire (hs : s.Canon) : (s.gangAcquire cl asid).Canon := acquireCC (hs.foldl fun _ _ h => h.acquireL1)

theorem State.Canon.releaseLate (hs : s.Canon) : (s.releaseLate w sc).Canon := by
  unfold State.releaseLate
  simp only
  split
  · exact hs.release
  · exact hs.release.modWarp

theorem State.Canon.endWait (hs : s.Canon) : (s.endWait w wt flag).Canon := by
  have late : (if wt.rel then (s.modWarp w (fun x => { x with regs := x.regs.endWait wt flag })).releaseLate w wt.scope
      else s.modWarp w (fun x => { x with regs := x.regs.endWait wt flag })).Canon := .ite hs.modWarp.releaseLate hs.modWarp
  exact .ite late.acquire late

theorem State.Canon.judgeWaits {e : State → CtrWait → WaitEnd} {cs : List (CtrWait × Bool)} (hs : s.Canon) :
    (judgeWaits w e cs s).1.Canon := by
  induction cs generalizing s with
  | nil => exact hs
  | cons c cs ih =>
    unfold Machine.judgeWaits
    simp only
    split
    · exact ih hs
    · exact ih hs.endWait
    · exact ih hs.endWait.copyEntry

theorem State.Canon.resumeHold (hs : s.Canon) : (s.resumeHold w).Canon := hs.of_mem (State.resumeHold_mem ..)

theorem State.Canon.endWaits {e : State → CtrWait → WaitEnd} (hs : s.Canon) : (s.endWaits w e).Canon := by
  unfold State.endWaits
  split
  · split
    · exact hs
    · simp only
      exact .ite hs.judgeWaits.resumeHold hs.judgeWaits.modWarp
  · exact hs

/-! ### The ends of blocks, gangs and contexts -/

theorem State.Canon.retire (hs : s.Canon) : (s.retire q).Canon := hs.placePut

theorem State.Canon.releaseScratch (hs : s.Canon) : (s.releaseScratch b).Canon := by
  unfold State.releaseScratch
  simp only
  exact of_mem (foldl (hs.foldl fun _ _ h => h.retire) fun _ _ h => h.endWaits)

theorem State.Canon.splitPool (hs : s.Canon) : (s.splitPool cl core).Canon := by
  unfold State.splitPool
  simp only
  exact foldl (modCore (foldl (hs.foldl fun _ _ h => h.grant) fun _ _ h => h.l1ToCC)) fun _ _ h => h.modWarp

theorem State.Canon.splitPools (hs : s.Canon) : (s.splitPools b).Canon := .ite hs (hs.foldl fun _ _ h => h.splitPool)

theorem State.Canon.releaseClaims (hs : s.Canon) : (s.releaseClaims b).Canon := hs.of_mem (State.releaseClaims_mem ..)

theorem State.Canon.discardBlock (hs : s.Canon) : (s.discardBlock b).Canon :=
  modBlock (releaseClaims (splitPools (releaseScratch (hs.foldl fun _ _ h => h.of_mem (State.discardWarp_mem ..)))))

theorem State.Canon.signalDone {pkt : List Byte} (hs : s.Canon) : (s.signalDone ctx lix pkt flag).Canon := .ite hs hs.schedAdd

theorem State.Canon.launchCheck (hs : s.Canon) : (s.launchCheck i).Canon := by
  unfold State.launchCheck
  split
  · exact hs
  · exact .ite hs.modLaunch.signalDone hs

theorem State.Canon.launchFail (hs : s.Canon) : (s.launchFail i).Canon := by
  unfold State.launchFail
  split
  · exact hs
  · exact .ite hs hs.modLaunch.signalDone

theorem State.Canon.killGang (hs : s.Canon) : (s.killGang g code flag).Canon := by
  unfold State.killGang
  split
  · exact hs
  · split
    · exact hs
    · split
      · exact hs
      · extract_lets bs all ixs ran again at_ cores s₁ s₂ s₃ s₄ s₅ s₆ s₇
        have h₁ : s₁.Canon := hs.foldl fun _ _ h => h.discardBlock
        have h₄ : s₄.Canon := (modGang (.ite h₁ h₁.fillCores)).trapEntry
        split
        · exact hs.modGang
        · split
          · exact h₄.modLaunch.of_mem
          · exact (modLaunch (h₄.foldl fun _ _ h => h.trapEntry)).launchCheck

theorem State.Canon.eccKill (hs : s.Canon) : (s.eccKill w).Canon := by
  unfold State.eccKill
  split
  · exact hs
  · exact hs.killGang

theorem State.Canon.stopCtx (hs : s.Canon) : (s.stopCtx ctx code).Canon := by
  unfold State.stopCtx
  extract_lets s₁ ls s₂ gs s₃ s₄
  have h₂ : s₂.Canon := hs.modCtx.of_mem
  have h₃ : s₃.Canon := h₂.foldl fun _ _ h => h.killGang
  refine modCtx (h₃.foldl fun s l h => ?_)
  split
  · exact h
  · exact h.modLaunch.signalDone

theorem State.Canon.dropSpace (hs : s.Canon) : (s.dropSpace asid).Canon := of_wf (Memory.wf_filter _ hs) rfl

theorem State.Canon.destroyCtx (hs : s.Canon) : (s.destroyCtx ctx).Canon := by
  unfold State.destroyCtx
  split
  · exact hs
  · exact hs.dropSpace.of_mem

theorem State.Canon.writeBackCtx (hs : s.Canon) : (s.writeBackCtx ctx).Canon :=
  foldl (hs.foldl fun _ _ h => h.flushAll) fun _ _ h => h.llcClean

theorem State.Canon.endCtx (hs : s.Canon) : (s.endCtx ctx).Canon := by
  unfold State.endCtx
  exact hs.stopCtx.writeBackCtx.destroyCtx.of_mem

end

section
variable {s : State} {a b g va asid vline p w cl core i n k ctx op src lix bix reason nack thread idx : Nat} {l : Line} {q : Loc}
  {x y : DWord} {h : Hint}
  {c : Option Nat} {near rel flag dropped ahead : Bool} {bs : List Byte} {ws : List DWord} {code : BitVec 8} {t : TrapInfo}
  {m : Mask} {f : Finish} {sc : Scope} {wt : CtrWait} {acc : Access} {r : Req} {e : DWord → DWord} {o : AccOp}

/-! ### Accesses at their place -/

theorem State.Canon.settleRmw (hs : s.Canon) : (s.settleRmw n cl acc r).Canon := by
  unfold State.settleRmw
  split
  · exact .ite hs.flushLine hs
  all_goals exact hs

theorem State.Canon.ownNear (hs : s.Canon) : (s.ownNear cl core asid vline h).Canon :=
  grant (of_mem hs.recall.l1Fill (State.refreshCC_mem ..))

theorem State.Canon.rmwAt (hs : s.Canon) : (s.rmwAt cl core near h q n e).2.Canon := by
  unfold State.rmwAt
  simp only
  split
  · split
    · exact hs.ownNear.of_mem (State.ownWrite_mem ..)
    · exact hs.homeReady.llcFill.placePut
  all_goals exact hs.pullAt.placePut

theorem State.Canon.storeAt (hs : s.Canon) : (s.storeAt w cl core near h q n x).Canon := by
  unfold State.storeAt
  simp only
  split
  · split
    · exact modWarp (hs.nearOpen.foldl fun _ _ h => h.of_mem (State.nearWrite_mem ..))
    · exact (hs.llcFill.of_mem (State.touchCopies_mem ..)).foldl fun _ _ h => h.farWrite
  all_goals exact hs.placePut

theorem State.Canon.stagedWrite (hs : s.Canon) : (s.stagedWrite n i).Canon := by
  unfold State.stagedWrite
  split
  · exact .ite hs.storeAt hs.rmwAt
  · exact hs

theorem State.Canon.ctrPerform (hs : s.Canon) : (s.ctrPerform c o q x).2.2.Canon := by
  unfold State.ctrPerform
  extract_lets s₁ v tagged dead
  have h₁ : s₁.Canon := hs.homeReady
  split
  · split
    · exact h₁
    · exact h₁.placePut.of_mem (State.tagWord_mem ..)
  · split
    · exact h₁
    · split
      · exact h₁
      · exact h₁.placePut
  · split
    · exact h₁
    · split
      · exact h₁
      · exact h₁.placePut
  · split
    · exact h₁
    · split
      · exact h₁
      · exact h₁.retire
  · split
    · exact h₁
    · exact h₁.of_mem (State.untag_mem ..)
  · exact h₁

theorem State.Canon.readFill (hs : s.Canon) : (s.readFill w cl core near q h).Canon := by
  unfold State.readFill
  split
  · exact .ite hs.nearFill hs.llcFill
  all_goals exact hs.pullAt

theorem State.Canon.prefetch (hs : s.Canon) : (s.prefetch w sc h x ahead).Canon := by
  unfold State.prefetch
  extract_lets c cl core ok k ln
  exact .ite hs (.ite hs.llcFill (.ite hs.ccFill (.ite hs.nearFill hs.nearOpen)))

theorem State.Canon.evict (hs : s.Canon) : (s.evict cl core asid vline).Canon := by
  unfold State.evict
  split
  · split
    · exact hs
    · exact hs.l1Evict
  · split
    · exact hs
    · split
      · exact hs
      · exact hs.ccEvict

/-! ### Accepted and completed accesses -/

theorem State.Canon.setHit (hs : s.Canon) : (s.setHit a).Canon := of_wf (Memory.wf_write _ _ hs) rfl

theorem State.Canon.setHits {ns : List Nat} (hs : s.Canon) : (s.setHits w ns).Canon := by
  unfold State.setHits
  split
  · exact hs
  · exact hs.foldl fun _ _ h => h.setHit

theorem State.Canon.accepted (hs : s.Canon) : (s.accepted n acc).Canon := hs.setHits.bump.modAcc

theorem State.Canon.acceptHeld (hs : s.Canon) : (s.acceptHeld n).Canon := by
  unfold State.acceptHeld
  simp only
  split
  · exact hs
  · split
    · exact hs.accepted
    · split
      · exact hs.accepted
      · split
        · exact hs.accepted
        · split
          · exact hs.accepted.complete
          · exact hs.accepted.complete
          · split
            · exact hs.accepted.complete
            · exact hs.accepted.modAcc.modWarp.bump.bump.complete

theorem State.Canon.trapHeld (hs : s.Canon) : (s.trapHeld n t).Canon := by
  unfold State.trapHeld
  split
  · exact hs
  · exact hs.modAcc.trapHere

theorem State.Canon.startWait (hs : s.Canon) : (s.startWait n wt x dropped).Canon := by
  unfold State.startWait
  split
  · exact hs
  · extract_lets s₁
    have h₁ : s₁.Canon := .ite hs.endWait (.ite hs.endWait hs.modWarp)
    split
    · exact .ite h₁.resumeHold h₁
    · exact h₁

theorem State.Canon.reqDone (hs : s.Canon) : (s.reqDone n i x dropped).Canon := hs.of_mem (State.reqDone_mem ..)

theorem State.Canon.ite_modWarp {p : Prop} [Decidable p] {f : Warp → Warp} (hs : s.Canon) : (if p then s.modWarp w f else s).Canon :=
  .ite hs.modWarp hs

theorem State.Canon.of_fst {β : Type} {s : State} {p : State × β} {x : β} (h : p.1.Canon) (e : p = (s, x)) : s.Canon := by
  rw [e] at h; exact h

theorem State.Canon.of_snd {β : Type} {s : State} {p : β × State} {x : β} (h : p.2.Canon) (e : p = (x, s)) : s.Canon := by
  rw [e] at h; exact h

theorem State.Canon.of_snd_snd {α β : Type} {s : State} {p : α × β × State} {x : α} {y : β} (h : p.2.2.Canon) (e : p = (x, y, s)) :
    s.Canon := of_snd h (congrArg Prod.snd e)

theorem State.Canon.performPlain (hs : s.Canon) : (s.performPlain n i).Canon := by
  unfold State.performPlain
  split
  · refine .ite hs.eccKill ?_
    split
    case h_1 => exact .ite (hs.storeAt.reqDone.of_mem (State.clearPoison_mem ..)) hs.storeAt.reqDone
    case h_2 | h_3 | h_4 | h_5 =>
      refine reqDone (ite_modWarp (.ite ?_ ?_))
      · split
        · exact hs.llcFill.pullAt
        all_goals exact hs.pullAt
      · split
        · exact .ite hs.settleRmw.nearOpen hs.settleRmw.llcFill
        all_goals exact hs.settleRmw.pullAt
    case h_6 => exact hs.releaseLate.foldl fun _ _ h => h.readFill.reqDone
    case h_7 => exact hs.prefetch.reqDone
    case h_8 => exact reqDone hs.modCC.of_mem
    case h_9 | h_10 =>
      extract_lets +onlyGivenNames k ln
      split
      next s₁ ok e =>
      have h₁ : s₁.Canon := of_fst hs.flushLine e
      refine .ite h₁.trapHeld ?_
      split
      next s₂ ok e =>
      have h₂ : s₂.Canon := by
        refine of_fst ?_ e
        split
        · exact h₁.llcClean
        · exact h₁
      refine .ite h₂.trapHeld ?_
      extract_lets +onlyGivenNames s₃ s₄ s₅
      have h₃ : s₃.Canon := .ite h₂.invalLine h₂
      have h₅ : s₅.Canon := reqDone (.ite h₃.of_mem h₃)
      exact .ite h₅.acceptHeld h₅
    case h_11 => exact hs
  · exact hs

/-! ### Level counters and read-modify-writes -/

theorem State.Canon.setLevel (hs : s.Canon) : (s.setLevel asid va n).Canon := of_wf (Memory.wf_write _ _ hs) rfl

theorem State.Canon.lcStick (hs : s.Canon) : (s.lcStick acc asid va).Canon := by
  unfold State.lcStick
  simp only
  split
  · split
    · exact of_mem hs.setLevel.bump.modCtx
    · exact (modLaunch (of_mem hs.setLevel.bump.modCtx)).logEntry
  · exact of_mem hs.setLevel.bump.modCtx

theorem State.Canon.performLc (hs : s.Canon) : (s.performLc n i acc r).Canon := by
  unfold State.performLc
  split
  · refine .ite hs.reqDone (reqDone ?_)
    split
    · exact hs.setLevel
    · exact hs.lcStick
  all_goals exact hs

theorem State.Canon.lcCommit (hs : s.Canon) : (s.lcCommit acc).Canon := by
  unfold State.lcCommit
  refine hs.foldl fun s r h => ?_
  split
  · exact .ite h.setLevel h.lcStick
  all_goals exact h

theorem State.Canon.settleLc (hs : s.Canon) : (s.settleLc n).Canon := by
  unfold State.settleLc
  split
  · exact hs
  · exact .ite hs (.ite hs.trapHeld (.ite hs (acceptHeld (.ite hs.lcCommit hs))))

theorem State.Canon.performRmw (hs : s.Canon) : (s.performRmw n i).Canon := by
  unfold State.performRmw
  split
  · extract_lets +onlyGivenNames w cl core near bytes
    refine .ite hs.eccKill (.ite ?_ (.ite hs.performLc.settleLc ?_))
    · extract_lets +onlyGivenNames s₁
      have h₁ : s₁.Canon := .ite hs.releaseLate hs
      split
      next v dropped s₂ e =>
      have h₂ : s₂.Canon := of_snd_snd h₁.ctrPerform e
      extract_lets +onlyGivenNames s₃ s₄ s₅
      have h₄ : s₄.Canon := .ite h₂.reqDone.copyEntry h₂.reqDone
      have h₅ : s₅.Canon := .ite h₄.acquire h₄
      split
      · exact h₅
      · exact h₅.startWait
    · extract_lets +onlyGivenNames s₁
      have h₁ : s₁.Canon := by
        unfold s₁
        split
        · exact .ite hs.nearOpen hs
        all_goals exact hs
      split
      next old s₂ e =>
      exact reqDone (of_snd h₁.rmwAt e)
  · exact hs

theorem State.Canon.releaseBefore (hs : s.Canon) : (s.releaseBefore n i).Canon := by
  unfold State.releaseBefore
  split
  · refine .ite (hs.foldl fun s k h => ?_) hs
    split
    · exact .ite h.stagedWrite.reqDone h
    · exact h
  · exact hs

theorem State.Canon.performRef (hs : s.Canon) : (s.performRef n i).Canon := by
  unfold State.performRef
  split
  · exact .ite (settleLc (hs.performPlain.of_mem (State.settleLaunch_mem ..))) hs
  · exact hs

theorem State.Canon.releaseStaged (hs : s.Canon) : (s.releaseStaged b).Canon := by
  unfold State.releaseStaged
  refine hs.foldl fun s k h => ?_
  split
  · exact .ite h.performLc h.stagedWrite.reqDone
  · exact h

theorem State.Canon.performDevice (hs : s.Canon) : (s.performDevice b).1.Canon := hs.flushAll

theorem State.Canon.orphans (hs : s.Canon) : (s.orphans b).Canon := by
  unfold State.orphans
  refine hs.foldl fun s y h => ?_
  split
  · exact h
  · exact modCopy (copyEntry (h.foldl fun _ _ h => h.engineAdd))

end

section
variable {s : State} {a b g va asid vline p w cl core i j n k ctx op lix reason nack thread idx item : Nat} {l : Line} {q : Loc}
  {x y : DWord} {h : Hint}
  {oh : Option Hint} {on : Option Nat} {flag dropped : Bool} {pkt : List Byte} {ws : List DWord} {code code' : BitVec 8} {t : TrapInfo}
  {m : Mask} {sc : Scope} {wt : CtrWait} {acc : Access} {r : InReq} {c d : Copy} {ma : Mma} {wp : Warp}

/-! ### Copies -/

theorem State.Canon.engineRead (hs : s.Canon) : (s.engineRead w q x n oh).2.Canon := by
  unfold State.engineRead
  split
  next cl core _ =>
  extract_lets +onlyGivenNames b s₁
  have h₁ : s₁.Canon := by
    unfold s₁
    split
    · exact hs.pullAt
    · split
      · exact hs.l1Fill
      all_goals exact hs.pullAt
  split
  · exact h₁.of_mem rfl
  · split <;> dsimp only
    · exact h₁
    · exact h₁.takeL1s
  all_goals exact h₁

theorem State.Canon.noteStaged (hs : s.Canon) : (s.noteStaged i).Canon := hs.of_mem (State.noteStaged_mem ..)

theorem State.Canon.copyWait (hs : s.Canon) : (s.copyWait i x).Canon := hs.of_mem (State.copyWait_mem ..)

theorem State.Canon.readIndex (hs : s.Canon) : (s.readIndex i j c).Canon := by
  unfold State.readIndex
  split
  · exact hs
  · extract_lets +onlyGivenNames va
    split
    · exact hs.copyWait
    · exact hs
    · refine .ite hs (.ite hs.eccKill ?_)
      split
      next v s₁ e => exact (of_snd hs.engineRead e).modCopy.noteStaged

theorem State.Canon.copyRead (hs : s.Canon) : (s.copyRead i k).Canon := by
  unfold State.copyRead
  split
  · exact hs
  · extract_lets +onlyGivenNames n
    refine .ite hs (.ite (.ite hs.readIndex hs) (.ite hs (.ite hs ?_)))
    split
    · exact hs
    · split
      · exact hs
      · split
        · exact hs.copyWait
        · exact hs
        · refine .ite hs (.ite hs.eccKill ?_)
          split
          next v s₁ e => exact (of_snd hs.engineRead e).modCopy

theorem State.Canon.engineWrite (hs : s.Canon) : (s.engineWrite w h q n x on).Canon := by
  unfold State.engineWrite
  split
  split
  · exact hs.of_mem
  all_goals exact hs.storeAt

theorem State.Canon.copyWrite (hs : s.Canon) : (s.copyWrite i k).Canon := by
  unfold State.copyWrite
  split
  · exact hs
  · extract_lets +onlyGivenNames slices own stops
    refine .ite hs ?_
    split
    · split
      · exact hs
      · split
        · exact hs.copyWait
        · exact hs
        · refine .ite hs ?_
          extract_lets +onlyGivenNames s₁ s₂ s₃
          have h₂ : s₂.Canon := modCopy (.ite hs hs.engineWrite)
          have h₃ : s₃.Canon := .ite (h₂.of_mem (State.leaveFlow_mem ..)) h₂
          split
          exact .ite h₃ (.ite (h₃.of_mem (State.clearPoison_mem ..)) h₃)
    · exact hs

theorem State.Canon.copyEnd {st : CopyState} (hs : s.Canon) : (s.copyEnd i st).Canon := hs.of_mem (State.copyEnd_mem ..)

theorem State.Canon.copyCheck (hs : s.Canon) : (s.copyCheck i).Canon := hs.of_mem (State.copyCheck_mem ..)

theorem State.Canon.copyRelease (hs : s.Canon) : (s.copyRelease i c).Canon := hs.foldl fun _ _ h => h.release

theorem State.Canon.copyAdd (hs : s.Canon) : (s.copyAdd i c x).Canon := .ite hs hs.engineAdd

theorem State.Canon.copyFails (hs : s.Canon) : (s.copyFails i c d reason nack item).Canon :=
  copyEnd (hs.copyRelease.copyEntry.foldl fun _ _ h => h.engineAdd)

/-! ### Matrix engines -/

/-- A fold that carries the state beside a value. -/
theorem State.Canon.foldl_snd {α β : Type} {f : β × State → α → β × State} {l : List α} {p : β × State} (h : p.2.Canon)
    (hf : ∀ p x, p.2.Canon → (f p x).2.Canon) : (l.foldl f p).2.Canon := by
  induction l generalizing p with
  | nil => exact h
  | cons x l ih => exact ih (hf p x h)

theorem State.Canon.readSpan {sp : Span} (hs : s.Canon) : (s.readSpan w h sp).2.Canon := by
  unfold State.readSpan
  refine foldl_snd hs fun p y hp => ?_
  dsimp only
  split
  · exact foldl_snd hp fun p i hp => hp.engineRead
  all_goals exact hp

theorem State.Canon.setProg (hs : s.Canon) : (s.setProg cl core ma x).Canon := hs.of_mem (State.setProg_mem ..)

theorem State.Canon.mmaEnd (hs : s.Canon) : (s.mmaEnd cl core ma).Canon := hs.of_mem (State.mmaEnd_mem ..)

theorem State.Canon.mmaFails (hs : s.Canon) : (s.mmaFails cl core ma reason nack).Canon :=
  mmaEnd (.ite hs.copyEntry hs.copyEntry.release.engineAdd)

theorem State.Canon.spill (hs : s.Canon) : (s.spill cl core ma n).Canon := by
  unfold State.spill
  extract_lets +onlyGivenNames h hits value s₁
  have h₁ : s₁.Canon := hs.setHits
  refine h₁.foldl fun s e h => ?_
  split
  · extract_lets +onlyGivenNames v s₂
    have h₂ : s₂.Canon := h.engineWrite
    split
    exact .ite (h₂.of_mem (State.clearPoison_mem ..)) h₂
  all_goals exact h

theorem State.Canon.mmaFinish (hs : s.Canon) : (s.mmaFinish cl core ma).Canon := by
  unfold State.mmaFinish
  extract_lets +onlyGivenNames ctr out
  refine .ite hs (.ite hs.setProg (.ite hs ?_))
  extract_lets +onlyGivenNames s₁ s₂
  have h₁ : s₁.Canon := .ite hs.spill hs
  have h₂ : s₂.Canon := .ite (h₁.of_mem (State.zeroTile_mem ..)) h₁
  exact mmaEnd (.ite h₂ h₂.release.engineAdd)

theorem State.Canon.commitBand (hs : s.Canon) : (s.commitBand cl core ma n).Canon := by
  unfold State.commitBand
  extract_lets +onlyGivenNames b kb rows
  have read {s : State} {o : Operand} {is : List Nat} (h : s.Canon) : (rows s o is).2.Canon :=
    foldl_snd h fun p i hp => foldl_snd hp fun p x hp => hp.readSpan
  split
  next as s₁ e₁ =>
  split
  next bs s₂ e₂ =>
  have h₂ : s₂.Canon := of_snd (read (of_snd (read hs) e₁)) e₂
  extract_lets +onlyGivenNames k
  split
  next n s₃ e₃ =>
  have h₃ : s₃.Canon := by
    refine of_snd ?_ e₃
    split
    · exact h₂
    · exact h₂.of_mem (State.fresh_mem ..)
  exact h₃.modCore.setProg

end

section
variable {s : State} {a b g va asid vline p w cl core i j n k ctx op lix reason nack thread idx item v : Nat} {q : Loc} {x y : DWord}
  {h : Hint}
  {flag dropped : Bool} {pkt : List Byte} {ws : List DWord} {code code' : BitVec 8} {t : TrapInfo}
  {m : Mask} {sc : Scope} {wt : CtrWait} {acc : Access} {r : InReq} {cmd : ResumeCmd} {wp : Warp} {ln : Launch}

/-! ### Queues and placement -/

theorem State.Canon.queueEntry (hs : s.Canon) : (s.queueEntry ctx a b reason x y).Canon := hs.logEntry

theorem State.Canon.reject {p : QPkt} (hs : s.Canon) : (s.reject ctx a k p reason).Canon :=
  .ite (queueEntry (hs.of_mem (State.modQueue_mem ..))) (schedAdd (queueEntry (hs.of_mem (State.modQueue_mem ..))))

theorem State.Canon.startHead {f : State → Nat → State} (hf : ∀ s l, s.Canon → (f s l).Canon) (hs : s.Canon) :
    (s.startHead ctx a k f).Canon := by
  unfold State.startHead
  split
  · exact hs
  · extract_lets +onlyGivenNames dep s₁
    have h₁ : s₁.Canon := hs.of_mem (State.spendPeer_mem ..)
    clear_value dep
    split
    · exact h₁
    · exact hf _ _ (modLaunch (h₁.of_mem (State.popHead_mem ..)))
    · exact (queueEntry (h₁.of_mem (State.popHead_mem ..))).launchFail

theorem State.Canon.endRecords (hs : s.Canon) : (s.endRecords i flag).Canon := hs.modLaunch.launchCheck

theorem State.Canon.takeRecord {bs : List Byte} (hs : s.Canon) : (s.takeRecord i ln bs).Canon := by
  unfold State.takeRecord
  extract_lets +onlyGivenNames k s₁
  have h₁ : s₁.Canon := hs.modLaunch
  split
  · exact h₁
  · exact h₁.queueEntry.modLaunch.of_mem

theorem State.Canon.noRecords (hs : s.Canon) : (s.noRecords i ln).Canon := hs.queueEntry.endRecords

theorem State.Canon.noteExcess (hs : s.Canon) : (s.noteExcess i ln x).Canon := .ite hs.queueEntry.modLaunch hs

theorem State.Canon.placeBlock {spec : BlockSpec} {seats : List Nat} (hs : s.Canon) : (s.placeBlock i g cl pkt spec seats).Canon := by
  unfold State.placeBlock
  extract_lets +onlyGivenNames b cores blk
  split
  extract_lets +onlyGivenNames ws s₁ s₂
  have h₁ : s₁.Canon := hs.of_mem
  have h₂ : s₂.Canon := h₁.splitPools
  exact .ite (h₂.of_mem (State.claimCores_mem ..)) h₂

theorem State.Canon.placeGang {d : Due} {seats : List (List Nat)} (hs : s.Canon) : (s.placeGang i ln d cl seats).Canon := by
  unfold State.placeGang
  split
  next g s₁ e =>
  have h₁ : s₁.Canon := by
    refine of_snd ?_ e
    split
    · exact hs.modGang
    · exact hs.of_mem
  extract_lets +onlyGivenNames s₂ s₃ s₄ key s₅
  have h₂ : s₂.Canon := .ite h₁ h₁.gangAcquire
  have h₃ : s₃.Canon := h₂.foldl fun _ _ h => h.placeBlock
  have h₄ : s₄.Canon := h₃.fillCores
  have h₅ : s₅.Canon := h₄.of_mem
  exact h₅.modLaunch

/-! ### Resuming and pre-emption -/

theorem State.Canon.untrap (hs : s.Canon) : (s.untrap w).Canon := hs.of_mem (State.untrap_mem ..)

theorem State.Canon.retry (hs : s.Canon) : (s.retry w wp).Canon := by
  unfold State.retry
  refine .ite (.ite ?_ hs.untrap) (.ite (.ite (hs.of_mem (State.resumeEnded_mem ..)) hs.untrap) hs.modWarp.untrap)
  split
  next s₁ bad e => exact (of_fst hs.release e).modWarp.untrap

theorem State.Canon.skip (hs : s.Canon) : (s.skip w wp).Canon := by
  unfold State.skip
  split
  · exact hs.untrap
  · exact hs.modWarp.complete.modWarp.fillLoadAt

theorem State.Canon.resumeWarp (hs : s.Canon) : (s.resumeWarp w n).Canon := by
  unfold State.resumeWarp
  split
  · exact hs
  · refine .ite hs ?_
    split
    · exact hs.retry
    · exact hs.skip
    · exact hs.of_mem (State.diverge_mem ..)
    · split
      · exact hs.killGang
      · exact hs

theorem State.Canon.resume (hs : s.Canon) : (s.resume cmd).Canon := by
  unfold State.resume
  extract_lets +onlyGivenNames action
  split
  · exact hs
  · split
    · exact hs
    · exact .ite hs (.ite hs.of_mem hs.resumeWarp)

theorem State.Canon.resumeAs (hs : s.Canon) : (s.resumeAs n cmd).Canon := .ite hs.resume hs

theorem State.Canon.saveWarp (hs : s.Canon) : (s.saveWarp w).Canon := by
  unfold State.saveWarp
  split
  · exact hs
  · refine .ite hs ?_
    split
    next s₁ bad e => exact modWarp (of_mem (acquire (of_fst hs.release e)))

theorem State.Canon.saveGang (hs : s.Canon) : (s.saveGang g).Canon := by
  unfold State.saveGang
  extract_lets +onlyGivenNames bs ws cl s₁ s₂ s₃ s₄
  have h₁ : s₁.Canon := hs.foldl fun _ _ h => h.saveWarp
  have h₂ : s₂.Canon := h₁.foldl fun _ _ h => splitPools (h.of_mem (State.saveCores_mem ..))
  have h₃ : s₃.Canon := h₂.of_mem
  exact h₃.modGang.fillCores

theorem State.Canon.stopGang (hs : s.Canon) : (s.stopGang g).Canon := by
  unfold State.stopGang
  split
  · exact hs
  · have stopped : ((s.warpsOfGang g).foldl State.stopAhead s).Canon := hs.foldl fun _ _ h => h.of_mem (State.stopAhead_mem ..)
    exact .ite hs (.ite stopped.modGang.saveGang stopped.modGang)

theorem State.Canon.loadBlock {seats : List Nat} (hs : s.Canon) : (s.loadBlock cl b seats).Canon := by
  unfold State.loadBlock
  extract_lets +onlyGivenNames cores mine at_ bytes s₁ s₂ s₃ s₄
  have cleared : (bytes.foldl (fun m x => m.write x.1 0) s.mem).wf = true := Memory.wf_foldl (fun _ _ => Memory.wf_write _ _) _ hs
  have h₁ : s₁.Canon := of_wf (Memory.wf_foldl (fun _ _ => Memory.wf_write _ _) bytes cleared)
  have h₃ : s₃.Canon := h₁.modBlock.splitPools
  have h₄ : s₄.Canon := h₃.foldl fun _ _ h => modCore h.of_mem
  exact h₄.of_mem

theorem State.Canon.applyHeld {l : List Nat} (hs : s.Canon) : (s.applyHeld l).Canon := foldl hs.of_mem fun _ _ h => h.resume

theorem State.Canon.restoreGang {seats : List (List Nat)} (hs : s.Canon) : (s.restoreGang g cl seats).Canon := by
  unfold State.restoreGang
  extract_lets +onlyGivenNames bs ctx s₁ s₂ s₃ ws s₄
  have h₂ : s₂.Canon := hs.modGang.gangAcquire.modCtx
  have h₃ : s₃.Canon := h₂.foldl fun _ _ h => h.loadBlock
  have h₄ : s₄.Canon := fillCores (h₃.foldl fun _ _ h => h.of_mem (State.loadWarp_mem ..))
  exact applyHeld (h₄.of_mem (State.endDrains_mem _))

/-! ### The fabric -/

theorem State.Canon.peerWait (hs : s.Canon) : (s.peerWait n acc x).Canon := by
  unfold State.peerWait
  split
  · exact hs
  · exact .ite hs.startWait hs.startWait

theorem State.Canon.peerTrap (hs : s.Canon) : (s.peerTrap n acc code code' m).Canon := hs.trapHeld

theorem State.Canon.answerIn (hs : s.Canon) : (s.answerIn r a v).Canon := hs.of_mem (State.answerIn_mem ..)

theorem State.Canon.watchIn (hs : s.Canon) : (s.watchIn r q x y).Canon := hs.of_mem (State.watchIn_mem ..)

theorem State.Canon.nackIn (hs : s.Canon) : (s.nackIn r a).Canon := hs.logEntry.answerIn

theorem State.Canon.bytesIn (hs : s.Canon) : (s.bytesIn r q).Canon := hs.foldl fun _ _ h => h.placeWrite

theorem State.Canon.levelIn {lc : InLc} (hs : s.Canon) : (s.levelIn r q lc).Canon := by
  unfold State.levelIn
  split
  next n s₁ e =>
  have h₁ : s₁.Canon := of_snd (hs.of_mem (State.fresh_mem ..)) e
  split
  · exact h₁.answerIn
  · exact h₁.answerIn
  · exact h₁.placeWrite.answerIn
  · exact h₁.placeWrite.answerIn

theorem State.Canon.performIn (hs : s.Canon) : (s.performIn r).Canon := by
  unfold State.performIn
  extract_lets +onlyGivenNames l
  split
  · exact hs.nackIn
  · split
    · refine .ite hs.watchIn.answerIn ?_
      split
      next v d s₁ e => exact (of_snd_snd hs.ctrPerform e).watchIn.answerIn
    · split
      next v d s₁ e => exact (of_snd_snd hs.ctrPerform e).answerIn
    · split
      next old s₁ e => exact (of_snd hs.rmwAt e).answerIn
    · split
      · exact hs.levelIn
      · exact hs.bytesIn.answerIn
      · exact hs.answerIn

theorem State.Canon.setInFlow {f : InOrder} (hs : s.Canon) : (s.setInFlow f).Canon := hs.of_mem (State.setInFlow_mem ..)

theorem State.Canon.drainIn (hs : s.Canon) : (s.drainIn a b n).Canon := by
  induction n generalizing s with
  | zero => exact hs
  | succ n ih =>
    unfold State.drainIn
    extract_lets +onlyGivenNames f
    split
    · exact hs
    · exact ih hs.setInFlow.performIn

theorem State.Canon.breakFlow {f : Flow} (hs : s.Canon) : (s.breakFlow i f).Canon := by
  unfold State.breakFlow
  refine of_mem (s := f.held.foldl _ s) (hs.foldl fun s j h => ?_)
  split
  · exact h.copyFails
  · exact h

end

section
variable {s : State} {a b va asid p w cl core i n k ctx cause lvl size : Nat} {q : Loc} {x y z : DWord} {flag : Bool} {wp : Warp}
  {code reason : BitVec 8}
  {m : Mask} {cs ss hs' : List (Nat × Nat)} {gone : Option (CacheLevel × Nat × Nat × Nat × Nat)} {sites : List (Nat × Nat)}

/-! ### Pages -/

theorem State.Canon.discardPage (hs : s.Canon) : (s.discardPage asid va size x).Canon := of_wf (Memory.wf_filter _ hs) rfl

theorem State.Canon.relabel (hs : s.Canon) : (s.relabel asid va size x).Canon := hs.of_mem (State.relabel_mem ..)

theorem State.Canon.noteFrame (hs : s.Canon) : (s.noteFrame asid va size x).Canon := hs.of_mem (State.noteFrame_mem ..)

theorem State.Canon.llcTrim (hs : s.Canon) : s.llcTrim.Canon :=
  hs.foldl fun _ _ h => .ite h (makeRoom (fun _ _ => llcEvict) h)

theorem State.Canon.newPage (hs : s.Canon) : (s.newPage asid va size x).Canon := by
  unfold State.newPage
  exact .ite hs (llcTrim (of_wf (Memory.wf_filter _ hs)))

theorem State.Canon.noteEntry (hs : s.Canon) : (s.noteEntry asid va lvl x).Canon := hs.foldl fun _ _ h => h.relabel.noteFrame.newPage

theorem State.Canon.noteSites (hs : s.Canon) : (s.noteSites lvl x sites).Canon := by
  induction sites generalizing s with
  | nil => exact hs
  | cons p ps ih => exact ih hs.noteEntry

theorem State.Canon.changeAt (hs : s.Canon) : (s.changeAt asid va lvl x y).Canon :=
  .ite hs.dropTlb.relabel.noteFrame hs.dropTlb.relabel.noteFrame.discardPage.noteEntry

theorem State.Canon.recallPage (hs : s.Canon) : (s.recallPage asid va lvl x).Canon := by
  unfold State.recallPage
  split
  · exact hs
  · exact .ite hs (hs.writePte.foldl fun _ _ h => h.changeAt)

theorem State.Canon.dueRecalls (hs : s.Canon) : s.dueRecalls.Canon := by
  unfold State.dueRecalls
  refine hs.foldl fun s r h => ?_
  extract_lets +onlyGivenNames size
  split
  · exact h.of_mem
  · exact .ite h h.recallPage.of_mem

theorem State.Canon.flushLlc {ls : List Line} (hs : s.Canon) : (s.flushLlc ls).Canon := by
  unfold State.flushLlc
  refine hs.foldl fun s l h => .ite h.llcClean ?_
  split
  · exact h.of_mem (State.setPoison_mem ..)
  · exact h

theorem State.Canon.settleMoves (hs : s.Canon) : (s.settleMoves n).Canon :=
  hs.foldl fun _ _ h => endMigration (h.foldl fun _ _ h => h.pull)

theorem State.Canon.unmap (hs : s.Canon) : (s.unmap asid va size).Canon := by
  unfold State.unmap
  split
  · exact hs
  · extract_lets +onlyGivenNames s₁
    have h₁ : s₁.Canon := hs.writePte.dropTlb.discardPage.noteFrame
    split
    · exact h₁
    · exact h₁.modCtx

/-! ### Resets -/

theorem State.Canon.pageEntry (hs : s.Canon) : (s.pageEntry ctx va cause n).Canon := hs.trapEntry

theorem State.Canon.resetEntries {l : List Nat} (hs : s.Canon) : (s.resetEntries n cause flag l).Canon := hs.foldl fun _ _ h => h.trapEntry

theorem State.Canon.resetSaggar (hs : s.Canon) : (s.resetSaggar n cause cs ss hs' gone).Canon := by
  unfold State.resetSaggar
  refine .ite hs ?_
  extract_lets +onlyGivenNames mine
  split
  next cs ss hs' e =>
  extract_lets +onlyGivenNames ctxs s₁ s₂ ch loss named lost home stuck s₃ damaged keep p₄ s₄ s₅ ok p₆ s₆ s₇ s₈ s₉ s₁₀ s₁₁
  have h₁ : s₁.Canon := hs.foldl fun _ _ h => h.killGang
  have h₃ : s₃.Canon := h₁.settleMoves.dueRecalls.flushLlc
  have h₄ : s₄.Canon := h₃.of_mem
  have h₅ : s₅.Canon := h₄.foldl fun _ _ h => .ite h h.unmap
  have h₆ : s₆.Canon := h₅.of_mem
  have h₇ : s₇.Canon := h₆.of_mem (State.modeReset_mem ..)
  have h₈ : s₈.Canon := .ite h₇ (h₇.foldl fun _ _ h => h.stopCtx)
  have h₁₀ : s₁₀.Canon := h₈.resetEntries.foldl fun _ _ h => h.pageEntry
  have h₁₁ : s₁₁.Canon := .ite h₁₀ (h₁₀.foldl fun _ _ h => h.endCtx)
  exact h₁₁.of_mem

theorem State.Canon.resetFor (hs : s.Canon) : (s.resetFor n cause cs ss hs' gone).Canon := .ite hs.resetEntries hs.resetSaggar

theorem State.Canon.resetAll (hs : s.Canon) : (s.resetAll cause).Canon := hs.foldl fun _ _ h => h.resetFor

theorem State.Canon.counterError (hs : s.Canon) : (s.counterError q).Canon := by
  unfold State.counterError
  split
  · exact hs
  · split
    next n s₁ e => exact (homeReady (of_snd (hs.of_mem (State.fresh_mem ..)) e)).placePut.foldl fun _ _ h => h.endWaits

theorem State.Canon.coneEntries (hs : s.Canon) : (s.coneEntries ctx w wp).Canon := by
  unfold State.coneEntries
  extract_lets +onlyGivenNames entry
  split
  · exact hs.foldl fun _ _ h => h.trapEntry
  all_goals exact hs.trapEntry

/-! ### Time -/

theorem State.Canon.settleAdds (hs : s.Canon) : s.settleAdds.Canon := by
  unfold State.settleAdds
  exact foldl hs.of_mem fun _ _ h => h.schedAdd

theorem State.Canon.afterTick (hs : s.Canon) : s.afterTick.Canon := by
  unfold State.afterTick
  extract_lets +onlyGivenNames s₁
  have h₁ : s₁.Canon := of_mem (dueRecalls (of_mem hs.settleAdds (State.serveWatches_mem _))) (State.noteStarving_mem _)
  exact h₁.of_mem

theorem State.Canon.wakeMet (hs : s.Canon) : s.wakeMet.Canon := by
  unfold State.wakeMet
  refine .ite hs (hs.foldl fun s w h => ?_)
  split
  · exact h.endWaits
  · exact h

theorem State.Canon.pass (hs : s.Canon) : (s.pass n k).Canon := by
  unfold State.pass
  extract_lets +onlyGivenNames s₁ s₂ s₃ s₄
  have h₁ : s₁.Canon := hs.of_mem
  have h₂ : s₂.Canon := h₁.foldl fun _ _ h => .ite h.bump h
  have h₄ : s₄.Canon := h₂.wakeMet.of_mem (by simp [s₄, s₃])
  split
  exact afterTick h₄.of_mem

theorem State.Canon.tick (hs : s.Canon) : (s.tick n k).Canon := .ite hs hs.pass

/-! ### Writes of the control path -/

theorem State.Canon.noteLeaves (hs : s.Canon) : (s.noteLeaves ctx).Canon := hs.foldl fun _ _ h => h.noteFrame.newPage

theorem State.Canon.createCtx {as : BitVec 16} (hs : s.Canon) : (s.createCtx as x a b).Canon := by
  unfold State.createCtx
  extract_lets +onlyGivenNames c₀ c s₁
  have h₁ : s₁.Canon := hs.of_mem
  exact h₁.noteLeaves

theorem State.Canon.rekey (hs : s.Canon) : (s.rekey a b).Canon :=
  of_wf (Memory.wf_foldl (fun _ _ => Memory.wf_write _ _) _ (Memory.wf_filter _ hs)) rfl

theorem State.Canon.dropLines (hs : s.Canon) : (s.dropLines asid).Canon := hs.of_mem (State.dropLines_mem ..)

theorem State.Canon.writeCxctl (hs : s.Canon) : (s.writeCxctl ctx x).Canon := .ite hs.modCtx hs.writeBackCtx.dropLines.modCtx.rekey

theorem State.Canon.writeEntry (hs : s.Canon) : (s.writeEntry ctx x y z n).Canon :=
  .ite hs.writeBackCtx.dropSpace.modCtx.noteLeaves (.ite hs.writeBackCtx.dropLines.modCtx hs.modCtx)

/-! ### The start of a clause -/

theorem State.Canon.fetchPull (hs : s.Canon) : (s.fetchPull w x n).Canon := by
  unfold State.fetchPull
  refine hs.foldl fun s i h => ?_
  split
  · exact h.pullAt
  · exact h

theorem State.Canon.applyWrites (hs : s.Canon) : (s.applyWrites w).Canon := hs.of_mem (State.applyWrites_mem ..)

theorem State.Canon.headTrap (hs : s.Canon) : (s.headTrap w code reason m x).Canon := hs.takeTrap

theorem State.Canon.startClause (hs : s.Canon) : (s.startClause w wp).Canon := by
  unfold State.startClause
  split
  extract_lets +onlyGivenNames va chosen stop
  split
  · exact hs.modWarp.takeTrap
  · split
    · exact .ite hs.modWarp hs.eccKill
    · exact .ite hs.modWarp hs.modWarp
    · exact .ite hs.modWarp hs.applyWrites.modWarp.headTrap
    · exact .ite hs.modWarp (.ite hs.applyWrites.modWarp.headTrap (.ite hs (.ite hs hs.fetchPull.applyWrites.modWarp.modWarp)))

end

end Sys2Proof.Machine
end

section
/-! SUPPORT. Every instruction keeps the form: what issue does with the effect of an instruction, then the effect of each. -/
namespace Sys2Proof.Machine
-- One proof after another: side by side they need more threads than a compile is given memory for.
set_option Elab.async false

/-- The state that an instruction's effect leaves has memory in its canonical form. -/
def Res.Canon : Res → Prop
  | .trap _ => True
  | .done s _ | .held s _ _ | .stay s => s.Canon

/-- The next state, where a step has one, has memory in its canonical form. -/
def EndsCanon : Host.Outcome State Fault Refusal → Prop
  | .next s => s.Canon
  | .fault _ | .refused _ => True

theorem Res.Canon.ite {p : Prop} [Decidable p] {r q : Res} (hr : r.Canon) (hq : q.Canon) : (if p then r else q).Canon := by
  split
  · exact hr
  · exact hq

theorem EndsCanon.ite {p : Prop} [Decidable p] {r q : Host.Outcome State Fault Refusal} (hr : EndsCanon r) (hq : EndsCanon q) :
    EndsCanon (if p then r else q) := by
  split
  · exact hr
  · exact hq

theorem EndsCanon.when {b : Bool} {s t : State} (ht : t.Canon) (hs : s.Canon) : EndsCanon (when_ b t s) := State.Canon.ite ht hs

/-! ### Issue -/

theorem State.Canon.settle {s : State} {w : Nat} {old : Regs} {k : Issued} {r : Res} (hs : s.Canon) (hr : r.Canon) :
    (s.settle w old k r).Canon := by
  cases r with
  | trap t => exact hs.raiseHere
  | done t f => exact State.Canon.complete (State.Canon.modWarp hr)
  | held t f h => exact State.Canon.modWarp (State.Canon.modWarp hr)
  | stay t => exact hr

/-- An issue keeps the form where the instruction's effect does. -/
theorem State.Canon.issue {s : State} {d : Need} {body : Env → Res} (hs : s.Canon) (hb : ∀ e, e.s.Canon → (body e).Canon) :
    EndsCanon (issue d body s) := by
  unfold Machine.issue
  extract_lets +onlyGivenNames w
  split
  · trivial
  · split
    · trivial
    · refine .ite trivial (.ite hs (.ite hs.raiseHere (.ite hs.modWarp (.ite (.ite hs.modWarp hs.complete) ?_))))
      extract_lets +onlyGivenNames lateP late early badL
      split
      next n s₁ e =>
      have h₁ : s₁.Canon := by
        refine of_snd ?_ e
        split
        · exact hs
        · exact hs.of_mem (State.fresh_mem ..)
      refine .ite hs.modWarp.raiseHere ?_
      split
      · exact hs.modWarp
      · exact .ite hs.complete (h₁.settle (hb _ h₁))

section
variable {e : Env} {d : Need} {l : LaneRes} {x : Except Mask LaneRes} {n : Nat} {y : DWord} {o : Opnd} {wide : Bool}
  {srcs : List Src} {m : MemOp}

theorem Env.put_canon (he : e.s.Canon) : (e.put l).Canon := by
  unfold Env.put
  exact .ite he.modWarp he.modWarp.bump.bump

theorem Env.lanes_canon (he : e.s.Canon) : (e.lanes d x n).Canon := by
  unfold Env.lanes
  split
  · trivial
  · exact Env.put_canon he

theorem Env.putS_canon (he : e.s.Canon) : (e.putS d n y).Canon := Env.lanes_canon he

theorem Env.compute_canon {f : Nat → List DWord → DWord} (he : e.s.Canon) : (e.compute d o wide srcs f).Canon := by
  unfold Env.compute
  split
  · exact Env.putS_canon he
  all_goals exact Env.lanes_canon he

theorem Env.compare_canon {f : List DWord → Bool} (he : e.s.Canon) : (e.compare d n srcs f).Canon := by
  unfold Env.compare
  exact .ite trivial (Env.lanes_canon he)

theorem Env.branch_canon {u : Bool} {out : Nat → BitVec 54} (he : e.s.Canon) : (e.branch d u out l).Canon := by
  unfold Env.branch
  exact .ite trivial (Env.put_canon he)

theorem remap_canon {v : View} {p : Nat → Option Nat} {t : Option (BitVec 16)} (he : e.s.Canon) : (remap e d o v p t).Canon := by
  unfold remap
  exact .ite (Env.lanes_canon he) (Env.lanes_canon he)

theorem Env.releasing_canon {r : Res} {sc : Scope} (hr : r.Canon) : (e.releasing wide sc r).Canon := by
  unfold Env.releasing
  split
  · trivial
  · trivial
  · exact hr

theorem Env.ahead_canon (he : e.s.Canon) : (e.ahead d m).Canon := by
  unfold Env.ahead
  extract_lets +onlyGivenNames regs poison lost
  refine .ite he (.ite (he.foldl fun _ _ h => h.prefetch) ?_)
  extract_lets +onlyGivenNames dataBad
  refine .ite he.modWarp ?_
  split
  · exact he.modWarp
  · exact .ite he.modWarp he.modWarp
  · refine .ite he ?_
    split
    · exact he.modWarp
    · exact State.Canon.modWarp (he.foldl fun _ _ h => h.readFill)

theorem Env.access_canon (he : e.s.Canon) : (e.access d m).Canon := by
  unfold Env.access
  refine .ite (Env.ahead_canon he) (.ite trivial ?_)
  split
  · trivial
  · exact he.of_mem (State.startAhead_mem ..)
  · extract_lets +onlyGivenNames s b staged have_ lines
    refine .ite he.modWarp ?_
    split
    · trivial
    · refine .ite he.of_mem ?_
      extract_lets +onlyGivenNames s₁ s₂ s₃
      have h₂ : s₂.Canon := he.setHits.bump.of_mem
      exact h₂.modWarp.bump.bump

end

/-! ### Instructions -/

section
variable {s : State} {h : Head} {lat g k n : Nat} {wide b u : Bool} {ty : Ty} {rm : Rm} {d a o c : Opnd} {f : AddrForm} {op : AccOp}
  {sc : Scope} {hint : Hint}
  {sem : Sem} {pd : Fin 7} {ps : PredSpec} {bo : Option Opnd} {x : DWord}

theorem State.Canon.alu {xs : List (Ty × Opnd)} {imm : List Src} {r : Env → Nat → List DWord → DWord} (hs : s.Canon) :
    EndsCanon (alu h lat wide d xs imm r s b) := by
  unfold Machine.alu
  exact hs.issue fun _ he => Env.compute_canon he

theorem State.Canon.intAlu {xs : List Opnd} {imm : List Src} {r : List DWord → DWord} (hs : s.Canon) :
    EndsCanon (intAlu h ty d xs imm r s) := hs.alu

theorem State.Canon.cmpAlu {xs : List Opnd} {imm : List Src} {r : List DWord → Bool} (hs : s.Canon) :
    EndsCanon (cmpAlu h lat ty pd xs imm r s) := by
  unfold Machine.cmpAlu
  exact hs.issue fun _ he => Env.compare_canon he

theorem State.Canon.floatAlu {xs : List Opnd} {imm : List Src} {r : Rnd → List Nat → Nat} (hs : s.Canon) :
    EndsCanon (floatAlu h lat ty rm d xs imm r s) := hs.alu

theorem State.Canon.funAlu {r : FVal → FVal} (hs : s.Canon) : EndsCanon (funAlu h ty d a r s) := hs.floatAlu

theorem State.Canon.patEdit (hs : s.Canon) : EndsCanon (patEdit h n g k d a s) := by
  unfold Machine.patEdit
  exact hs.issue fun _ he => remap_canon he

theorem State.Canon.voteAlu {r : Mask → Mask → Bool} (hs : s.Canon) : EndsCanon (voteAlu h pd ps r s) := by
  unfold Machine.voteAlu
  exact hs.issue fun _ he => Env.lanes_canon he

theorem State.Canon.loadInstr (hs : s.Canon) : EndsCanon (loadInstr h ty sc hint d f s) := by
  unfold Machine.loadInstr
  exact hs.issue fun _ he => Env.access_canon he

theorem State.Canon.storeInstr (hs : s.Canon) : EndsCanon (storeInstr h ty sc hint d f s) := by
  unfold Machine.storeInstr
  exact hs.issue fun _ he => Env.access_canon he

theorem State.Canon.lineInstr (hs : s.Canon) : EndsCanon (lineInstr h op sc hint b f s) := by
  unfold Machine.lineInstr
  refine hs.issue fun e he => ?_
  refine .ite he (.ite (.ite he.modWarp trivial) (.ite he (.ite he ?_)))
  exact .ite he.of_mem he.of_mem

theorem State.Canon.atomInstr {r cmp : Option Opnd} (hs : s.Canon) : EndsCanon (atomInstr h op ty sc hint r f d cmp s) := by
  unfold Machine.atomInstr
  exact hs.issue fun _ he => Env.access_canon he

theorem State.Canon.lcAddInstr (hs : s.Canon) : EndsCanon (lcAddInstr h op ty sc b f d s) := by
  unfold Machine.lcAddInstr
  exact hs.issue fun _ he => Env.access_canon he

theorem State.Canon.lcReadInstr (hs : s.Canon) : EndsCanon (lcReadInstr h op d f s) := by
  unfold Machine.lcReadInstr
  exact hs.issue fun _ he => Env.access_canon he

theorem State.Canon.leaseInstr {v : BitVec 9} (hs : s.Canon) : EndsCanon (leaseInstr h v s) := by
  unfold Machine.leaseInstr
  exact hs.issue fun _ he => he.modWarp

theorem State.Canon.ctrInstr {cb : Option (Fin 64)} {d : Option Opnd} (hs : s.Canon) : EndsCanon (ctrInstr h n op sc sem d a cb bo x s) := by
  unfold Machine.ctrInstr
  exact hs.issue fun _ he => Env.releasing_canon (Env.access_canon he)

theorem State.Canon.waitInstr (hs : s.Canon) : EndsCanon (waitInstr h sc sem pd a bo x s) := by
  unfold Machine.waitInstr
  refine hs.issue fun e he => Env.releasing_canon ?_
  split
  · trivial
  · exact he.of_mem (State.startAhead_mem ..)
  · split
    · exact he
    · split
      · exact he.of_mem
      all_goals
        extract_lets +onlyGivenNames v
        refine .ite ?_ he.modWarp
        extract_lets +onlyGivenNames s₁ s₂
        have h₁ : s₁.Canon := .ite he.release he
        have h₂ : s₂.Canon := .ite h₁.acquire h₁
        exact h₂.modWarp

theorem State.Canon.joinFlow {c : Copy} (hs : s.Canon) : (s.joinFlow c n).Canon := hs.of_mem (State.joinFlow_mem ..)

theorem State.Canon.copyInstr {kind : CopyKind} {bk : Byte} {i : Fin 64} (hs : s.Canon) : EndsCanon (copyInstr h kind sc b bk hint i s) := by
  unfold Machine.copyInstr
  refine hs.issue fun e he => .ite he.modWarp ?_
  exact joinFlow he.of_mem

theorem State.Canon.execBcopy {bk : Byte} {parts : Fin 128} {coll : Fin 16} {i : Fin 64} (hs : s.Canon) :
    EndsCanon (execBcopy h sc b bk hint parts coll i s) := by
  unfold Machine.execBcopy
  refine hs.issue fun e he => .ite ?_ (.ite he.modWarp ?_)
  · exact modBlock (joinFlow he.of_mem)
  · exact modBlock (joinFlow he.of_mem)

theorem State.Canon.indirect (hs : s.Canon) : EndsCanon (indirect h u a s) := by
  unfold Machine.indirect
  exact hs.issue fun _ he => .ite trivial (.ite trivial (.ite trivial (Env.branch_canon he)))

theorem State.Canon.execCall {kind : BrKind} {off : BitVec 32} (hs : s.Canon) : EndsCanon (execCall h u kind ps off s) := by
  unfold Machine.execCall
  refine hs.issue fun e he => .ite trivial (.ite (Env.branch_canon he) ?_)
  split
  · trivial
  · exact Env.branch_canon he

theorem State.Canon.readSr (hs : s.Canon) : EndsCanon (readSr h d n s) := by
  unfold Machine.readSr
  refine hs.issue fun e he => .ite he.modWarp ?_
  split
  next free s₁ eq =>
  have h₁ : s₁.Canon := by
    refine of_snd ?_ eq
    split
    · exact he.of_mem (State.fresh_mem ..)
    · exact he
  extract_lets +onlyGivenNames v s₂ e₂
  have h₂ : e₂.s.Canon := .ite h₁.modWarp h₁
  split
  · exact Env.putS_canon h₂
  all_goals exact Env.lanes_canon h₂

theorem State.Canon.execVtrn {g : Fin 8} (hs : s.Canon) : EndsCanon (execVtrn h g d a s) := by
  unfold Machine.execVtrn
  exact hs.issue fun _ he => .ite (Env.lanes_canon he) (Env.lanes_canon he)

theorem State.Canon.execVmaprd (hs : s.Canon) : EndsCanon (execVmaprd h b d a s) := by
  unfold Machine.execVmaprd
  refine hs.issue fun e he => ?_
  extract_lets +onlyGivenNames v
  split
  · exact Env.putS_canon he
  · exact Env.lanes_canon he

theorem State.Canon.execVfirst (hs : s.Canon) : EndsCanon (execVfirst h ty d a s) := by
  unfold Machine.execVfirst
  refine hs.issue fun e he => ?_
  extract_lets +onlyGivenNames t
  split
  · exact Env.putS_canon he
  · trivial

theorem State.Canon.execVred {r : RedOp} (hs : s.Canon) : EndsCanon (execVred h ty r d a s) := by
  unfold Machine.execVred
  refine hs.issue fun e he => ?_
  extract_lets +onlyGivenNames v
  split
  · exact Env.putS_canon he
  all_goals exact Env.lanes_canon he

theorem State.Canon.execMma {i : Fin 64} (hs : s.Canon) : EndsCanon (execMma h i s) := by
  unfold Machine.execMma
  refine hs.issue fun e he => ?_
  extract_lets +onlyGivenNames va t bad
  refine .ite trivial ?_
  split
  · exact .ite trivial (.ite he.modWarp he.modCore)
  all_goals trivial

theorem State.Canon.accPut {core : Nat} {ws : List (Nat × Word)} (hs : s.Canon) : (s.accPut n core ws).Canon := hs.of_mem (State.accPut_mem ..)

theorem State.Canon.execMaccrd (hs : s.Canon) : EndsCanon (execMaccrd h ty d a s) := by
  unfold Machine.execMaccrd
  refine hs.issue fun e he => ?_
  split
  · trivial
  · extract_lets +onlyGivenNames k row
    refine .ite he.eccKill ?_
    split
    next n s₁ eq =>
    have h₁ : s₁.Canon := by
      refine of_snd ?_ eq
      split
      · exact he.of_mem (State.fresh_mem ..)
      · exact he
    extract_lets +onlyGivenNames word val acc i s₂
    have h₂ : s₂.Canon := h₁.of_mem
    exact h₂.modWarp.bump.bump

theorem State.Canon.execMaccwr (hs : s.Canon) : EndsCanon (execMaccwr h ty d a s) := by
  unfold Machine.execMaccwr
  exact hs.issue fun _ he => .ite trivial he.accPut

theorem State.Canon.execMaccz {i : Fin 16} {j : Fin 32} (hs : s.Canon) : EndsCanon (execMaccz h i j s) := by
  unfold Machine.execMaccz
  exact hs.issue fun _ he => accPut he.of_mem

end

/-! ### Instructions by what their effect ends with -/

section
variable {s : State}

theorem State.Canon.execRand {h : Head} {ty : Ty} {d : Opnd} (hs : s.Canon) : EndsCanon (execRand h ty d s) := by
  unfold Machine.execRand
  exact hs.alu

theorem State.Canon.execVcompact {h : Head} {d a : Opnd} {ps : PredSpec} {sc : Option (Fin 64)} (hs : s.Canon) :
    EndsCanon (execVcompact h d a ps sc s) := by
  unfold Machine.execVcompact
  exact hs.issue fun _ he => Env.lanes_canon he

theorem State.Canon.execVexpand {h : Head} {d a : Opnd} {ps : PredSpec} (hs : s.Canon) : EndsCanon (execVexpand h d a ps s) := by
  unfold Machine.execVexpand
  exact hs.issue fun _ he => Env.lanes_canon he

theorem State.Canon.execVfire {h : Head} {d a : Opnd} (hs : s.Canon) : EndsCanon (execVfire h d a s) := by
  unfold Machine.execVfire
  exact hs.issue fun _ he => Env.lanes_canon he

theorem State.Canon.execVmatch {h : Head} {ty : Ty} {d a : Opnd} (hs : s.Canon) : EndsCanon (execVmatch h ty d a s) := by
  unfold Machine.execVmatch
  exact hs.issue fun _ he => Env.lanes_canon he

theorem State.Canon.execVscan {h : Head} {ty : Ty} {op : RedOp} {excl : Bool} {d a : Opnd} (hs : s.Canon) :
    EndsCanon (execVscan h ty op excl d a s) := by
  unfold Machine.execVscan
  exact hs.issue fun _ he => Env.lanes_canon he

theorem State.Canon.execVsegred {h : Head} {ty : Ty} {op : RedOp} {d a : Opnd} {ps : PredSpec} (hs : s.Canon) :
    EndsCanon (execVsegred h ty op d a ps s) := by
  unfold Machine.execVsegred
  exact hs.issue fun _ he => Env.lanes_canon he

theorem State.Canon.execVsort {h : Head} {ty : Ty} {asc move : Bool} {d a : Opnd} {ci : Option (Fin 320)} (hs : s.Canon) :
    EndsCanon (execVsort h ty asc move d a ci s) := by
  unfold Machine.execVsort
  exact hs.issue fun _ he => Env.lanes_canon he

theorem State.Canon.execVtopk {h : Head} {ty : Ty} {asc : Bool} {d a k : Opnd} {ci : Fin 320} (hs : s.Canon) :
    EndsCanon (execVtopk h ty asc d a k ci s) := by
  unfold Machine.execVtopk
  exact hs.issue fun _ he => Env.lanes_canon he

theorem State.Canon.execVtopkMulti {h : Head} {ty : Ty} {asc : Bool} {m : Fin 8} {d a k : Opnd} {ci : Fin 320} (hs : s.Canon) :
    EndsCanon (execVtopkMulti h ty asc m d a k ci s) := by
  unfold Machine.execVtopkMulti
  exact hs.issue fun _ he => Env.lanes_canon he

theorem State.Canon.execVbin {h : Head} {sn : Fin 64} {d a : Opnd} {ps : PredSpec} {nb : Opnd} (hs : s.Canon) :
    EndsCanon (execVbin h sn d a ps nb s) := by
  unfold Machine.execVbin
  exact hs.issue fun _ he => Env.lanes_canon he

theorem State.Canon.execVballot {h : Head} {d : Opnd} {ps : PredSpec} (hs : s.Canon) : EndsCanon (execVballot h d ps s) := by
  unfold Machine.execVballot
  exact hs.issue fun _ he => Env.putS_canon he

theorem State.Canon.execVactive {h : Head} {d : Opnd} (hs : s.Canon) : EndsCanon (execVactive h d s) := by
  unfold Machine.execVactive
  exact hs.issue fun _ he => Env.putS_canon he

theorem State.Canon.execSel {h : Head} {ty : Ty} {d a b : Opnd} {ps : PredSpec} (hs : s.Canon) : EndsCanon (execSel h ty d a b ps s) := by
  unfold Machine.execSel
  exact hs.issue fun _ he => Env.compute_canon he

theorem State.Canon.execBcvt {h : Head} {fmt : Bfmt} {rm : Rm} {d a : Opnd} (hs : s.Canon) : EndsCanon (execBcvt h fmt rm d a s) := by
  unfold Machine.execBcvt
  exact hs.issue fun _ he => Env.compute_canon he

theorem State.Canon.execBdot {h : Head} {fmt : Bfmt} {d a b c : Opnd} (hs : s.Canon) : EndsCanon (execBdot h fmt d a b c s) := by
  unfold Machine.execBdot
  exact hs.issue fun _ he => Env.compute_canon he

theorem State.Canon.execBunp {h : Head} {fmt : Bfmt} {d a : Opnd} (hs : s.Canon) : EndsCanon (execBunp h fmt d a s) := by
  unfold Machine.execBunp
  exact hs.issue fun _ he => Env.compute_canon he

theorem State.Canon.execLdx {h : Head} {ty : Ty} {nreg : Fin 8} {sc : Scope} {hint : Hint} {d base : Opnd} {off : BitVec 15} (hs : s.Canon) :
    EndsCanon (execLdx h ty nreg sc hint d base off s) := by
  unfold Machine.execLdx
  exact hs.issue fun _ he => Env.access_canon he

theorem State.Canon.execLdrec {h : Head} {fmt : Bfmt} {sc : Scope} {hint : Hint} {d base : Opnd} {off : BitVec 18} (hs : s.Canon) :
    EndsCanon (execLdrec h fmt sc hint d base off s) := by
  unfold Machine.execLdrec
  exact hs.issue fun _ he => Env.access_canon he

theorem State.Canon.execStx {h : Head} {ty : Ty} {nreg : Fin 8} {sc : Scope} {hint : Hint} {data base : Opnd} {off : BitVec 15} (hs : s.Canon) :
    EndsCanon (execStx h ty nreg sc hint data base off s) := by
  unfold Machine.execStx
  exact hs.issue fun _ he => Env.access_canon he

theorem State.Canon.execStstash {h : Head} {ty : Ty} {sc : Scope} {hint : Hint} {data base : Opnd} {off : BitVec 18} (hs : s.Canon) :
    EndsCanon (execStstash h ty sc hint data base off s) := by
  unfold Machine.execStstash
  exact hs.issue fun _ he => Env.access_canon he

theorem State.Canon.execScadd {h : Head} {ty : Ty} {sc : Scope} {a b : Opnd} {cb : Option (Fin 64)} (hs : s.Canon) :
    EndsCanon (execScadd h ty sc a b cb s) := by
  unfold Machine.execScadd
  exact hs.issue fun _ he => Env.access_canon he

theorem State.Canon.execLcinit {h : Head} {data base : Opnd} {off : BitVec 18} (hs : s.Canon) :
    EndsCanon (execLcinit h data base off s) := by
  unfold Machine.execLcinit
  exact hs.issue fun _ he => Env.access_canon he

theorem State.Canon.execCtrarv {h : Head} {sc : Scope} {sem : Sem} {pd : Fin 7} {a b : Opnd} (hs : s.Canon) :
    EndsCanon (execCtrarv h sc sem pd a b s) := by
  unfold Machine.execCtrarv
  exact hs.issue fun _ he => Env.releasing_canon (Env.access_canon he)

theorem State.Canon.execLaunch {h : Head} {d a : Fin 64} {q : Fin 16} (hs : s.Canon) : EndsCanon (execLaunch h d a q s) := by
  unfold Machine.execLaunch
  exact hs.issue fun _ he => Env.releasing_canon (Env.access_canon he)

theorem State.Canon.execVshuf {h : Head} {d a b : Opnd} (hs : s.Canon) : EndsCanon (execVshuf h d a b s) := by
  unfold Machine.execVshuf
  exact hs.issue fun _ he => remap_canon he

theorem State.Canon.execBra {h : Head} {u : Bool} {kind : BrKind} {cond : PredSpec} {off : BitVec 32} (hs : s.Canon) :
    EndsCanon (execBra h u kind cond off s) := by
  unfold Machine.execBra
  exact hs.issue fun _ he => Env.branch_canon he

theorem State.Canon.execExit {h : Head} (hs : s.Canon) : EndsCanon (execExit h s) := by
  unfold Machine.execExit
  exact hs.issue fun _ he => he.modWarp

theorem State.Canon.execJoin {h : Head} (hs : s.Canon) : EndsCanon (execJoin h s) := by
  unfold Machine.execJoin
  exact hs.issue fun _ he => he.modWarp

theorem State.Canon.execYield {h : Head} {n : BitVec 16} (hs : s.Canon) : EndsCanon (execYield h n s) := by
  unfold Machine.execYield
  exact hs.issue fun _ he => he.modWarp

theorem State.Canon.execDrain {h : Head} {mem : DrainMem} (hs : s.Canon) : EndsCanon (execDrain h mem s) := by
  unfold Machine.execDrain
  exact hs.issue fun _ he => he.modWarp

theorem State.Canon.execWrsr {h : Head} {num : Fin 1024} {a : Opnd} (hs : s.Canon) : EndsCanon (execWrsr h num a s) := by
  unfold Machine.execWrsr
  exact hs.issue fun _ he => he.modWarp

theorem State.Canon.execNop {h : Head} (hs : s.Canon) : EndsCanon (execNop h s) := by
  unfold Machine.execNop
  exact hs.issue fun _ he => he

theorem State.Canon.execTrap {h : Head} {imm : BitVec 32} (hs : s.Canon) : EndsCanon (execTrap h imm s) := by
  unfold Machine.execTrap
  exact hs.issue fun _ he => he

theorem State.Canon.execFence {h : Head} {sc : Scope} {mode : FenceMode} (hs : s.Canon) : EndsCanon (execFence h sc mode s) := by
  unfold Machine.execFence
  exact hs.issue fun _ he => he

theorem State.Canon.execBrk {h : Head} {imm : BitVec 32} (hs : s.Canon) : EndsCanon (execBrk h imm s) := by
  unfold Machine.execBrk
  exact hs.issue fun _ _ => trivial

theorem State.Canon.execFenceop {h : Head} (hs : s.Canon) : EndsCanon (execFenceop h s) := by
  unfold Machine.execFenceop
  exact hs.issue fun _ he => he.of_mem

end

end Sys2Proof.Machine
end

section
/-! SUPPORT. Every event of the table keeps the form. -/
namespace Sys2Proof.Machine
-- One proof after another: side by side they need more threads than a compile is given memory for.
set_option Elab.async false

/-! ### Events of warps, accesses, copies and matrix engines -/

section
variable {s : State} {a w n i l b cl core asid vline : Nat}

theorem State.Canon.execClauseStart (hs : s.Canon) : EndsCanon (execClauseStart w s) := by
  unfold Machine.execClauseStart
  split
  · exact hs
  · exact .when (.ite hs.boundary hs.startClause) hs

theorem State.Canon.execClauseFetchResolved (hs : s.Canon) : EndsCanon (execClauseFetchResolved w s) := by
  unfold Machine.execClauseFetchResolved
  split
  · exact .when hs.modWarp hs
  · exact hs

theorem State.Canon.execIssueWaitEnd (hs : s.Canon) : EndsCanon (execIssueWaitEnd w s) := by
  unfold Machine.execIssueWaitEnd
  split
  · exact hs
  · split
    · exact .when hs.modWarp hs
    all_goals exact hs

theorem State.Canon.execYieldExpire (hs : s.Canon) : EndsCanon (execYieldExpire w s) := by
  unfold Machine.execYieldExpire
  split
  · exact .when hs.modWarp hs
  · exact hs

theorem State.Canon.execSliceBoundary (hs : s.Canon) : EndsCanon (execSliceBoundary cl core s) :=
  .when (hs.of_mem (State.sliceEnd_mem ..)) hs

theorem State.Canon.execLeaseWindowEnd (hs : s.Canon) : EndsCanon (execLeaseWindowEnd cl core s) :=
  .when (hs.of_mem (State.windowEnd_mem ..)) hs

theorem State.Canon.execCounterWake (hs : s.Canon) : EndsCanon (execCounterWake w s) := by
  unfold Machine.execCounterWake
  split
  next n s₁ e =>
  have h₁ : s₁.Canon := of_snd (hs.of_mem (State.fresh_mem ..)) e
  exact h₁.endWaits

theorem State.Canon.execCounterPoll (hs : s.Canon) : EndsCanon (execCounterPoll w s) := by
  unfold Machine.execCounterPoll
  split
  · exact hs.endWaits
  · exact hs

theorem State.Canon.execRunaheadStop (hs : s.Canon) : EndsCanon (execRunaheadStop w s) := by
  unfold Machine.execRunaheadStop
  split
  · exact hs
  · exact .when (hs.of_mem (State.rollBack_mem ..)) hs

theorem State.Canon.execPageBatchResolved (hs : s.Canon) : EndsCanon (execPageBatchResolved w s) := by
  unfold Machine.execPageBatchResolved
  split
  · exact hs
  · exact .when (hs.modWarp.of_mem (State.ready_mem ..)) hs

/-! Accesses -/

theorem State.Canon.execRequestPerform (hs : s.Canon) : EndsCanon (execRequestPerform n i s) := by
  unfold Machine.execRequestPerform
  split
  · exact .ite hs (.when hs.releaseBefore.performRmw hs)
  · exact hs

theorem State.Canon.execResultWriteback (hs : s.Canon) : EndsCanon (execResultWriteback n s) := by
  unfold Machine.execResultWriteback
  split
  · exact hs
  · exact .when (hs.of_mem (State.writeBack_mem ..)) hs

theorem State.Canon.execOwnershipGrant (hs : s.Canon) : EndsCanon (execOwnershipGrant cl core asid vline s) := by
  unfold Machine.execOwnershipGrant
  refine .ite ?_ hs
  extract_lets +onlyGivenNames s₁
  have h₁ : s₁.Canon := hs.grant
  exact .ite hs h₁.of_mem

theorem State.Canon.execLineFill {lvl : CacheLevel} {victim : Option (Nat × Nat)} (hs : s.Canon) :
    EndsCanon (execLineFill lvl cl core asid vline victim s) := by
  unfold Machine.execLineFill
  split
  · exact hs
  · extract_lets +onlyGivenNames out
    have hout : ∀ k, (out k).Canon := by
      intro k
      dsimp only [out]
      split
      · exact hs.evict
      · exact hs
    split
    · exact .when (hout _).nearOpen hs
    · exact .when (hout _).ccFill hs
    · exact .when hs.llcFill hs

theorem State.Canon.execFenceComplete (hs : s.Canon) : EndsCanon (execFenceComplete w s) := by
  unfold Machine.execFenceComplete
  split
  · exact hs
  · split
    · refine .ite hs ?_
      split
      next s₁ bad e =>
      have h₁ : s₁.Canon := by
        refine of_fst ?_ e
        split
        · exact hs.release
        · exact hs
      split
      · exact h₁.trapHere
      · exact complete (.ite h₁.acquire h₁)
    · split
      · exact hs
      · exact .when hs.modAcc hs

theorem State.Canon.execBlockFinish (hs : s.Canon) : EndsCanon (execBlockFinish b s) := by
  unfold Machine.execBlockFinish
  split
  · exact hs
  · refine .ite hs ?_
    split
    next s₁ bad e =>
    have h₁ : s₁.Canon := of_fst hs.performDevice e
    exact .ite h₁ h₁.orphans.releaseScratch.splitPools.releaseClaims.modBlock.modLaunch.launchCheck

theorem State.Canon.execAccessPerformed {r : AccRef} (hs : s.Canon) : EndsCanon (execAccessPerformed r s) := by
  unfold Machine.execAccessPerformed
  split
  · exact hs.performRef
  · exact hs.evict
  · exact hs.copyRead
  · exact hs.copyWrite

theorem State.Canon.execTicketRelease (hs : s.Canon) : EndsCanon (execTicketRelease l s) := by
  unfold Machine.execTicketRelease
  split
  · exact hs
  · refine .ite hs ?_
    extract_lets +onlyGivenNames of
    split
    · exact hs
    · refine .ite (.when hs.modLaunch hs) (.ite hs (.ite ?_ (.ite ?_ hs)))
      · split
        next s₁ bad e =>
        have h₁ : s₁.Canon := of_fst hs.releaseStaged.performDevice e
        exact State.Canon.ite h₁ h₁.modLaunch
      · exact hs.releaseStaged.modLaunch.foldl fun _ _ h => h.modWarp

/-! Copies -/

theorem State.Canon.execCopyStart (hs : s.Canon) : EndsCanon (execCopyStart cl core s) := by
  unfold Machine.execCopyStart
  split
  · exact hs
  · refine .when ?_ hs
    extract_lets +onlyGivenNames s₁
    have h₁ : s₁.Canon := hs.of_mem
    exact h₁.modCore.noteStaged

theorem State.Canon.execCopySourceReadDone (hs : s.Canon) : EndsCanon (execCopySourceReadDone i s) := by
  unfold Machine.execCopySourceReadDone
  split
  · exact hs
  · exact .when hs.copyAdd.modCopy.copyCheck hs

theorem State.Canon.execCopyComplete (hs : s.Canon) : EndsCanon (execCopyComplete i s) := by
  unfold Machine.execCopyComplete
  split
  · exact hs
  · exact .when hs.copyRelease.copyAdd.modCopy.copyCheck hs

theorem State.Canon.execCopyFail (hs : s.Canon) : EndsCanon (execCopyFail i s) := by
  unfold Machine.execCopyFail
  split
  · exact hs
  · refine .ite hs ?_
    split
    · exact .when hs.copyFails hs
    · refine .ite hs ?_
      split
      next n s₁ e =>
      have h₁ : s₁.Canon := of_snd (hs.of_mem (State.fresh_mem ..)) e
      extract_lets +onlyGivenNames ps
      split
      · exact hs
      · exact .ite h₁.copyFails h₁.copyFails

theorem State.Canon.execCopyPageResolved (hs : s.Canon) : EndsCanon (execCopyPageResolved i s) := by
  unfold Machine.execCopyPageResolved
  split
  · exact hs
  · split
    · exact hs
    · exact .when hs.modCopy.noteStaged hs

/-! Matrix engines -/

theorem State.Canon.execMmaStart (hs : s.Canon) : EndsCanon (execMmaStart cl core s) := by
  unfold Machine.execMmaStart
  split
  · exact hs
  · refine .ite hs ?_
    split
    · exact .when hs.mmaFails hs
    · exact hs.modCore.setProg

theorem State.Canon.execMmaBandCommit (hs : s.Canon) : EndsCanon (execMmaBandCommit cl core s) := by
  unfold Machine.execMmaBandCommit
  split
  · exact hs
  · refine .ite hs (.ite (.ite hs (.ite hs.setProg (.ite hs.eccKill ?_))) hs.mmaFinish)
    exact State.Canon.ite hs.commitBand.bump hs.commitBand

theorem State.Canon.execMmaRestart (hs : s.Canon) : EndsCanon (execMmaRestart cl core s) := by
  unfold Machine.execMmaRestart
  split
  · exact hs
  · exact .when hs.setProg hs

theorem State.Canon.execMmaFail (hs : s.Canon) : EndsCanon (execMmaFail cl core s) := by
  unfold Machine.execMmaFail
  split
  · exact hs
  · refine .ite hs (.ite ?_ (.ite hs ?_))
    · split
      · exact hs.mmaFails
      · exact hs
    · split
      · exact hs.spill.mmaFails
      · refine .ite hs ?_
        split
        next k s₁ e =>
        have h₁ : s₁.Canon := of_snd (hs.of_mem (State.fresh_mem ..)) e
        exact .ite h₁.spill.mmaFails h₁.spill.mmaFails

end

/-! ### Events of the scheduler, of other modules and of the host -/

section
variable {s : State} {a b c g l n k q w va ctx asid cl lvl frame held reason node : Nat} {x : DWord} {pkt : List Byte}
  {seats : List (List Nat)} {cmd : ResumeCmd} {f : FlowRef}

theorem State.Canon.modQueue {f : Queue → Queue} (hs : s.Canon) : (s.modQueue ctx q f).Canon := hs.of_mem (State.modQueue_mem ..)

theorem State.Canon.popHead {launched : Bool} (hs : s.Canon) : (s.popHead ctx q launched).Canon := hs.of_mem (State.popHead_mem ..)

theorem State.Canon.spendPeer (hs : s.Canon) : (s.spendPeer x).Canon := hs.of_mem (State.spendPeer_mem ..)

theorem State.Canon.submit (hs : s.Canon) : (s.submit ctx q pkt x).2.Canon := hs.of_mem (State.submit_mem ..)

theorem State.Canon.shelfDies (hs : s.Canon) : (s.shelfDies k).Canon := hs.of_mem (State.shelfDies_mem ..)

theorem State.Canon.execPacketSubmit (hs : s.Canon) : EndsCanon (execPacketSubmit ctx q pkt x s) := .when hs.submit hs

theorem State.Canon.execPacketAccept (hs : s.Canon) : EndsCanon (execPacketAccept ctx q s) := by
  unfold Machine.execPacketAccept
  split
  · split
    · exact hs
    · refine .ite hs ?_
      dsimp only
      have h₁ {f : Ctx → Ctx} : (s.modCtx ctx f).Canon := hs.modCtx
      split
      · exact h₁.reject
      · refine .ite h₁.modQueue ?_
        exact modQueue (State.Canon.modCtx (h₁.of_mem))
  · exact hs

theorem State.Canon.execLaunchStart (hs : s.Canon) : EndsCanon (execLaunchStart ctx q s) := hs.startHead fun _ _ h => h.launchCheck

theorem State.Canon.execSignal (hs : s.Canon) : EndsCanon (execSignal ctx q s) := by
  refine startHead (fun t l h => ?_) hs
  split
  · exact h
  · exact h.modLaunch.schedAdd

theorem State.Canon.execSeed (hs : s.Canon) : EndsCanon (execSeed ctx q s) := by
  refine startHead (fun t l h => ?_) hs
  split
  · exact h
  · exact h.modLaunch.signalDone

theorem State.Canon.execPacketForward (hs : s.Canon) : EndsCanon (execPacketForward ctx q s) := by
  unfold Machine.execPacketForward
  split
  · split
    · exact hs
    · refine .ite hs (.ite hs.popHead.queueEntry ?_)
      exact modQueue hs.of_mem
  · exact hs

theorem State.Canon.execForwardAnswer {held : Bool} (hs : s.Canon) : EndsCanon (execForwardAnswer ctx q held reason s) := by
  unfold Machine.execForwardAnswer
  split
  · exact hs
  · split
    · exact hs
    · exact .ite hs (State.Canon.ite hs.popHead.modQueue hs.popHead.modQueue.queueEntry)

theorem State.Canon.execForwardReceive (hs : s.Canon) : EndsCanon (execForwardReceive node asid q pkt s) := by
  unfold Machine.execForwardReceive
  extract_lets +onlyGivenNames answer
  have ha : ∀ {t : State} {m k}, t.Canon → (answer t m k).Canon := fun h => h.of_mem
  refine .ite hs ?_
  split
  · exact ha hs
  · extract_lets +onlyGivenNames saggar
    refine .ite (ha hs) ?_
    split
    all_goals
      next t e =>
      exact ha (of_snd hs.submit e)

theorem State.Canon.execRecordRead (hs : s.Canon) : EndsCanon (execRecordRead l s) := by
  unfold Machine.execRecordRead
  split
  · exact hs
  · extract_lets +onlyGivenNames a
    refine .ite hs ?_
    dsimp only
    have h₁ : (s.spendPeer a).Canon := hs.spendPeer
    split
    · exact h₁
    · exact h₁.noRecords
    · exact h₁.noRecords
    · refine .ite h₁.noteExcess.endRecords (.ite (.ite ?_ h₁.noteExcess) (.ite h₁.noteExcess.endRecords h₁.noteExcess))
      split
      · exact h₁.noteExcess
      · exact h₁.noteExcess.spendPeer.takeRecord

theorem State.Canon.execGangPlace (hs : s.Canon) : EndsCanon (execGangPlace l cl seats s) := by
  unfold Machine.execGangPlace
  split
  · exact .when hs.placeGang.launchCheck hs
  · exact hs

theorem State.Canon.execPlacementStarve (hs : s.Canon) : EndsCanon (execPlacementStarve l s) := by
  unfold Machine.execPlacementStarve
  split
  · exact hs
  · exact .when hs.modLaunch hs

theorem State.Canon.execContextSwitch (hs : s.Canon) : EndsCanon (execContextSwitch c s) := by
  unfold Machine.execContextSwitch
  split
  · exact hs
  · refine .ite hs (.ite hs.modCtx ?_)
    exact foldl hs.modCtx fun _ _ h => h.stopGang

theorem State.Canon.execRestore (hs : s.Canon) : EndsCanon (execRestore g cl seats s) := by
  unfold Machine.execRestore
  split
  · exact hs
  · exact .ite hs.killGang (.when hs.restoreGang hs)

/-! Other modules -/

theorem State.Canon.execPeerAnswer {vals : List DWord} (hs : s.Canon) : EndsCanon (execPeerAnswer n vals s) := by
  unfold Machine.execPeerAnswer
  split
  · exact hs
  · refine .ite hs ?_
    extract_lets +onlyGivenNames s₁ s₂ s₃ s₄
    have h₁ : s₁.Canon := of_mem (.ite hs.releaseLate hs) (State.sendAsked_mem ..)
    have h₃ : s₃.Canon := .ite h₁.modAcc.acquire h₁.modAcc
    exact State.Canon.ite h₃.peerWait.settleLc h₃.peerWait.acceptHeld

theorem State.Canon.execRemote (hs : s.Canon) : EndsCanon (execRemote n reason s) := by
  unfold Machine.execRemote
  split
  · exact hs
  · split
    next k s₁ e =>
    have h₁ : s₁.Canon := of_snd (hs.of_mem (State.fresh_mem ..)) e
    extract_lets +onlyGivenNames all here some_ m first
    split
    · exact h₁.peerTrap
    · exact .when h₁.peerTrap hs

theorem State.Canon.execRtimeout (hs : s.Canon) : EndsCanon (execRtimeout n s) := by
  unfold Machine.execRtimeout
  split
  · exact hs
  · exact .when hs.peerTrap hs

theorem State.Canon.execInboundRequest {r : InReq} (hs : s.Canon) : EndsCanon (execInboundRequest r s) := by
  unfold Machine.execInboundRequest
  refine .ite hs ?_
  split
  · exact hs.nackIn
  · exact hs.performIn
  · exact .ite hs.setInFlow.performIn.drainIn (.when hs.setInFlow hs)

theorem State.Canon.execFlowbroken (hs : s.Canon) : EndsCanon (execFlowbroken f s) := by
  unfold Machine.execFlowbroken
  split
  · split
    · exact hs
    · exact .when hs.breakFlow hs
  · exact .when (hs.setInFlow.foldl fun _ _ h => h.nackIn) hs

theorem State.Canon.execFlowSkip (hs : s.Canon) : EndsCanon (execFlowSkip f s) := by
  unfold Machine.execFlowSkip
  split
  · split
    · exact hs
    · extract_lets +onlyGivenNames gone
      split
      · exact hs
      · exact hs.of_mem
  · extract_lets +onlyGivenNames g
    split
    · exact hs
    · exact hs.setInFlow.drainIn

theorem State.Canon.execWindowRecall (hs : s.Canon) : EndsCanon (execWindowRecall n s) := by
  unfold Machine.execWindowRecall
  extract_lets +onlyGivenNames set
  split
  · exact hs
  · split
    · exact hs.of_mem
    · exact .when hs.of_mem hs
    · exact hs

theorem State.Canon.execFlitReplay {again : Bool} (hs : s.Canon) : EndsCanon (execFlitReplay n again s) := by
  unfold Machine.execFlitReplay
  refine .ite hs (.ite hs.of_mem ?_)
  extract_lets +onlyGivenNames s₁ s₂
  have h₁ : s₁.Canon := hs.of_mem
  have h₂ : s₂.Canon := .ite h₁.shelfDies h₁
  exact h₂.of_mem (State.dropLink_mem ..)

/-! The host -/

theorem State.Canon.execMailboxMessage {m : HostMsg} (hs : s.Canon) : EndsCanon (execMailboxMessage m s) := by
  unfold Machine.execMailboxMessage
  split
  · refine .ite hs ?_
    split
    next k s₁ e =>
    have h₁ : s₁.Canon := of_snd hs.submit e
    exact h₁.of_mem
  · exact hs.schedAdd
  · exact hs.resume
  · exact hs.of_mem
  · exact hs.modQueue
  · exact hs.of_mem

theorem State.Canon.execFlr (hs : s.Canon) : EndsCanon (execFlr n s) := .ite hs (hs.foldl fun _ _ h => h.endCtx)

/-! Pages -/

theorem State.Canon.execPageWalk (hs : s.Canon) : EndsCanon (execPageWalk asid va s) := by
  unfold Machine.execPageWalk
  split
  · exact hs
  · extract_lets +onlyGivenNames v
    split
    · exact hs
    · refine .ite hs ?_
      split
      · exact hs.of_mem
      · exact hs

theorem State.Canon.execRecall (hs : s.Canon) : EndsCanon (execRecall asid va lvl x s) := by
  unfold Machine.execRecall
  exact .ite hs.of_mem hs.recallPage

theorem State.Canon.execMapPage (hs : s.Canon) : EndsCanon (execMapPage asid va lvl x s) := by
  unfold Machine.execMapPage
  split
  · exact hs
  · exact .when hs.writePte.noteSites hs

theorem State.Canon.execMigrationStart (hs : s.Canon) : EndsCanon (execMigrationStart asid va frame s) := by
  unfold Machine.execMigrationStart
  split
  · extract_lets +onlyGivenNames v level records
    split
    · exact hs
    · refine .ite hs ?_
      extract_lets +onlyGivenNames pte move s₁
      have h₁ : s₁.Canon := foldl hs.writePte fun _ _ h => h.dropTlb.noteFrame
      exact h₁.of_mem
  · exact hs

theorem State.Canon.execMigrationPull (hs : s.Canon) : EndsCanon (execMigrationPull asid va s) := by
  unfold Machine.execMigrationPull
  extract_lets +onlyGivenNames v
  split
  · exact hs
  · exact .when hs.pull.dueRecalls hs

end

/-! ### Events of errors, resets, service and the control path -/

section
variable {s : State} {n k c g ctx table entry : Nat} {t : DWord}

theorem State.Canon.execLcbaseWrite (hs : s.Canon) : EndsCanon (execLcbaseWrite ctx n t s) := by
  unfold Machine.execLcbaseWrite
  split
  · exact hs
  · refine .ite hs ?_
    split
    next m s₁ e =>
    have h₁ : s₁.Canon := of_snd (hs.of_mem (State.fresh_mem ..)) e
    extract_lets +onlyGivenNames changed s₂
    have h₂ : s₂.Canon := .ite h₁.of_mem hs
    exact llcTrim (modCtx h₂.of_mem)

theorem State.Canon.setPoison {b : Bool} (hs : s.Canon) : (s.setPoison k b).Canon := hs.of_mem (State.setPoison_mem ..)

theorem State.Canon.atLine {lvl : CacheLevel} {cl core asid vline : Nat} {f : Line → Option Line} (hs : s.Canon) :
    (s.atLine lvl cl core asid vline f).Canon := hs.of_mem (State.atLine_mem ..)

theorem State.Canon.execEccError {site : EccSite} (hs : s.Canon) : EndsCanon (execEccError site s) := by
  unfold Machine.execEccError
  split
  case h_1 => exact .ite hs.setPoison hs.atLine
  case h_2 => exact hs.setPoison
  case h_3 | h_4 => exact .when hs.setPoison hs
  case h_5 => exact State.Canon.ite hs.invalLine hs
  case h_6 => exact hs.atLine
  case h_7 => exact hs.of_mem
  case h_8 => exact hs.counterError
  case h_9 =>
    split
    · exact .ite hs (.ite hs.modGang hs.killGang)
    · exact hs
  case h_10 => exact .when (endCtx (.ite hs.modCtx hs)) hs
  case h_11 => exact hs.resetFor
  case h_12 =>
    split
    · exact hs.shelfDies
    · exact hs.shelfDies.resetFor
  case h_13 =>
    extract_lets +onlyGivenNames s₁
    have h₁ : s₁.Canon := hs.of_mem
    exact State.Canon.ite h₁.shelfDies h₁
  case h_14 => exact hs.resetAll

theorem State.Canon.switchShelves {live : BitVec 8} (hs : s.Canon) : (s.switchShelves live).Canon := hs.of_mem (State.switchShelves_mem ..)

theorem State.Canon.execRestackSwitch (hs : s.Canon) : EndsCanon (execRestackSwitch s) := by
  unfold Machine.execRestackSwitch
  split
  · exact hs
  · exact .when hs.switchShelves hs

theorem State.Canon.execRestackOverrun (hs : s.Canon) : EndsCanon (execRestackOverrun s) := by
  unfold Machine.execRestackOverrun
  split
  · exact hs
  · refine .ite hs ?_
    extract_lets +onlyGivenNames s₁
    have h₁ : s₁.Canon := hs.foldl fun _ _ h => .ite h.resetFor h
    exact State.Canon.ite h₁ h₁.switchShelves

/-- A module reset leaves the memory of the reset state. -/
theorem State.Canon.execModuleReset : EndsCanon (execModuleReset s) := by
  unfold Machine.execModuleReset
  extract_lets +onlyGivenNames img
  split
  next m s₀ e =>
  extract_lets +onlyGivenNames die kept
  have h₁ : kept.Canon := of_wf Memory.wf_reset
  exact .ite h₁.of_mem h₁.of_mem

theorem State.Canon.execFullService (hs : s.Canon) : EndsCanon (execFullService s) := by
  unfold Machine.execFullService
  refine .ite hs ?_
  split
  next m s₁ e =>
  have h₁ : s₁.Canon := of_snd (hs.of_mem (State.fresh_mem ..)) e
  extract_lets +onlyGivenNames s₂ _ s₃
  have h₂ : s₂.Canon := h₁.foldl fun _ _ h => h.endCtx
  have h₃ : s₃.Canon := h₂.of_mem
  exact h₃.of_mem

theorem State.Canon.execThermalTrip (hs : s.Canon) : EndsCanon (execThermalTrip s) := by
  unfold Machine.execThermalTrip
  extract_lets +onlyGivenNames s₁
  have h₁ : s₁.Canon := foldl hs.of_mem fun _ _ h => h.resetSaggar
  exact h₁.of_mem

theorem State.Canon.execCone (hs : s.Canon) : EndsCanon (execCone c s) := by
  unfold Machine.execCone
  exact .when (modCtx (stopCtx (hs.foldl fun _ _ h => h.coneEntries))) hs

theorem State.Canon.execBoundsEntryWrite {v : BoundsVal} (hs : s.Canon) : EndsCanon (execBoundsEntryWrite ctx table entry v s) :=
  .when (of_wf (Memory.wf_writeN _ _ hs)) hs

theorem State.Canon.execBoundsHitClear (hs : s.Canon) : EndsCanon (execBoundsHitClear ctx table entry s) :=
  .when (of_wf (Memory.wf_write _ _ hs)) hs

theorem State.Canon.execControlWrite {w : CtlWrite} (hs : s.Canon) : EndsCanon (execControlWrite w s) := by
  unfold Machine.execControlWrite
  cases w with
  | newContext => exact .when hs.createCtx hs
  | cxctl =>
    dsimp only
    split
    · exact hs
    · exact .when hs.writeCxctl hs
  | ctxEntry => exact .when hs.writeEntry hs
  | queueDesc => exact .when hs.modQueue hs
  | logDesc => exact hs.of_mem (State.describeLog_mem ..)
  | unresolvable | zeroEvents => exact hs.modCtx
  | wcr | lease | fault | lslot | resumePoint | keptWait | keptDrain | yieldLeft | lmap => exact hs.of_mem (State.writeWarp_mem ..)
  | lpc | sreg | preg | slot | tag | tableEntry | tableMeta | draw | sbCount => exact hs.of_mem (State.writeRegs_mem ..)
  | word => exact .when hs.ccWrite hs
  | inWindow =>
    dsimp only
    split
    · exact hs
    · exact .when hs.of_mem hs
  | binding | unbind => exact hs.of_mem
  | node | powerLimit | bar2 => exact .when hs.of_mem hs

end

end Sys2Proof.Machine
end

section
/-! THEOREM. The canonical form of memory is an invariant of the step (O57). -/
namespace Sys2Proof.Machine
-- One proof after another: side by side they need more threads than a compile is given memory for.
set_option Elab.async false

/-! ### Every instruction, every event and every step -/

section
variable {s : State} {i : Instr} {w : Nat}

/-- Each instruction and each event keeps the form. -/
theorem State.Canon.exec (hs : s.Canon) : EndsCanon (exec i s) := by
  unfold Machine.exec
  cases i with
  | iadd | iaddImm | isub | isubImm | imul | imulImm | imulhi | imad | imin | imax | iabs | ineg | iclamp | and | andImm | or | orImm
  | xor | xorImm | andn | andnImm | not | shl | shlImm | shr | shrImm | sar | sarImm | rotl | rotlImm | bfx | bfxImm | bfi | bfiImm
  | clz | popc | brev | mov | movi | movh => exact hs.intAlu
  | imadw | lea | i2i | fclass | f2f | f2i | i2f | fdot2 => exact hs.alu
  | icmp | icmpImm | fcmp | fcmpImm => exact hs.cmpAlu
  | fadd | faddImm | fsub | fmul | fmulImm | ffma | fmin | fminImm | fmax | fmaxImm | fdiv | frnd => exact hs.floatAlu
  | frcp | frsq | fsqrt | fexp2 | flog2 | fsin | fcos => exact hs.funAlu
  | ld | ldIdx => exact hs.loadInstr
  | st | stIdx => exact hs.storeInstr
  | prefetch | prefetchIdx | cflush | cinv | cdemote => exact hs.lineInstr
  | atomAdd | atomMin | atomMax | atomAnd | atomOr | atomXor | atomExch | atomcas | redAdd | redMin | redMax | redAnd | redOr
  | redXor => exact hs.atomInstr
  | lcadd | lcmrg => exact hs.lcAddInstr
  | lcrd | lcrdRaw => exact hs.lcReadInstr
  | leaseDecl | leaseMeas => exact hs.leaseInstr
  | ctrinit | ctradd | ctraddImm | ctrrd | ctrkill | ctrkillFree => exact hs.ctrInstr
  | ctrwait | ctrwaitImm => exact hs.waitInstr
  | vxor | vrot | vrev | vbcast => exact hs.patEdit
  | vany | vall => exact hs.voteAlu
  | copy | gather | scatter | unpack => exact hs.copyInstr
  | brx | ret => exact hs.indirect
  | rdsr | rdtime => exact hs.readSr
  | sel => exact hs.execSel
  | bcvt => exact hs.execBcvt
  | bdot => exact hs.execBdot
  | bunp => exact hs.execBunp
  | rand => exact hs.execRand
  | vshuf => exact hs.execVshuf
  | vtrn => exact hs.execVtrn
  | vcompact => exact hs.execVcompact
  | vexpand => exact hs.execVexpand
  | vfire => exact hs.execVfire
  | vmaprd => exact hs.execVmaprd
  | vfirst => exact hs.execVfirst
  | vballot => exact hs.execVballot
  | vmatch => exact hs.execVmatch
  | vactive => exact hs.execVactive
  | vred => exact hs.execVred
  | vscan => exact hs.execVscan
  | vsegred => exact hs.execVsegred
  | vsort => exact hs.execVsort
  | vtopk => exact hs.execVtopk
  | vtopkMulti => exact hs.execVtopkMulti
  | vbin => exact hs.execVbin
  | ldx => exact hs.execLdx
  | stx => exact hs.execStx
  | ldrec => exact hs.execLdrec
  | ststash => exact hs.execStstash
  | scadd => exact hs.execScadd
  | lcinit => exact hs.execLcinit
  | fence => exact hs.execFence
  | fenceop => exact hs.execFenceop
  | drain => exact hs.execDrain
  | ctrarv => exact hs.execCtrarv
  | bcopy => exact hs.execBcopy
  | mma => exact hs.execMma
  | maccrd => exact hs.execMaccrd
  | maccwr => exact hs.execMaccwr
  | maccz => exact hs.execMaccz
  | bra => exact hs.execBra
  | call => exact hs.execCall
  | exit => exact hs.execExit
  | join => exact hs.execJoin
  | yield => exact hs.execYield
  | nop => exact hs.execNop
  | launch => exact hs.execLaunch
  | trap => exact hs.execTrap
  | brk => exact hs.execBrk
  | wrsr => exact hs.execWrsr
  | clauseStart => exact hs.execClauseStart
  | clauseFetchResolved => exact hs.execClauseFetchResolved
  | issueWaitEnd => exact hs.execIssueWaitEnd
  | resultWriteback => exact hs.execResultWriteback
  | ownershipGrant => exact hs.execOwnershipGrant
  | lineFill => exact hs.execLineFill
  | pageWalk => exact hs.execPageWalk
  | runaheadStop => exact hs.execRunaheadStop
  | pageBatchResolved => exact hs.execPageBatchResolved
  | mapPage => exact hs.execMapPage
  | migrationStart => exact hs.execMigrationStart
  | migrationPull => exact hs.execMigrationPull
  | packetSubmit => exact hs.execPacketSubmit
  | packetAccept => exact hs.execPacketAccept
  | launchStart => exact hs.execLaunchStart
  | signal => exact hs.execSignal
  | seed => exact hs.execSeed
  | packetForward => exact hs.execPacketForward
  | forwardReceive => exact hs.execForwardReceive
  | forwardAnswer => exact hs.execForwardAnswer
  | gangPlace => exact hs.execGangPlace
  | placementStarve => exact hs.execPlacementStarve
  | recordRead => exact hs.execRecordRead
  | blockFinish => exact hs.execBlockFinish
  | sliceBoundary => exact hs.execSliceBoundary
  | leaseWindowEnd => exact hs.execLeaseWindowEnd
  | yieldExpire => exact hs.execYieldExpire
  | counterWake => exact hs.execCounterWake
  | counterPoll => exact hs.execCounterPoll
  | requestPerform => exact hs.execRequestPerform
  | fenceComplete => exact hs.execFenceComplete
  | copyStart => exact hs.execCopyStart
  | copySourceReadDone => exact hs.execCopySourceReadDone
  | copyComplete => exact hs.execCopyComplete
  | copyFail => exact hs.execCopyFail
  | copyPageResolved => exact hs.execCopyPageResolved
  | mmaStart => exact hs.execMmaStart
  | mmaBandCommit => exact hs.execMmaBandCommit
  | mmaRestart => exact hs.execMmaRestart
  | mmaFail => exact hs.execMmaFail
  | ticketRelease => exact hs.execTicketRelease
  | cone => exact hs.execCone
  | resumeRetry | resumeSkip | resumeDiverge | resumeKill => exact hs.resumeAs
  | preempt => exact hs.stopGang
  | restore => exact hs.execRestore
  | contextSwitch => exact hs.execContextSwitch
  | eccError => exact hs.execEccError
  | saggarReset => exact .when hs.resetFor hs
  | shelfHeartbeatTimeout => exact hs.shelfDies
  | routeChange => exact .when (hs.of_mem (State.reroute_mem ..)) hs
  | flitReplay => exact hs.execFlitReplay
  | inboundRequest => exact hs.execInboundRequest
  | remote => exact hs.execRemote
  | peerAnswer => exact hs.execPeerAnswer
  | rtimeout => exact hs.execRtimeout
  | flowbroken => exact hs.execFlowbroken
  | flowSkip => exact hs.execFlowSkip
  | windowRecall => exact hs.execWindowRecall
  | mailboxMessage => exact hs.execMailboxMessage
  | flr => exact hs.execFlr
  | ptpLock | firmwareUpdate | attestationReport | partitionWrite | throttleStep | throttleRaise => exact .when hs.of_mem hs
  | lcbaseWrite => exact hs.execLcbaseWrite
  | boundsEntryWrite => exact hs.execBoundsEntryWrite
  | boundsHitClear => exact hs.execBoundsHitClear
  | controlWrite => exact hs.execControlWrite
  | accessPerformed => exact hs.execAccessPerformed
  | restack => exact .when (hs.of_mem (State.stopInjection_mem ..)) hs
  | restackSwitch => exact hs.execRestackSwitch
  | restackOverrun => exact hs.execRestackOverrun
  | thermalThrottle => exact hs.of_mem
  | thermalTrip => exact hs.execThermalTrip
  | moduleReset => exact State.Canon.execModuleReset
  | fullService => exact hs.execFullService
  -- What is left is the recall of a page, whose constructor's name Mathlib reads as a command.
  | _ => exact hs.execRecall

theorem State.Canon.illegalWord (hs : s.Canon) : EndsCanon (illegalWord s) := by
  unfold Machine.illegalWord
  split
  · trivial
  · split
    · trivial
    · exact .ite trivial (.ite hs hs.raiseHere)

theorem State.Canon.issueWord (hs : s.Canon) : EndsCanon (s.issueWord w) := by
  unfold State.issueWord
  extract_lets +onlyGivenNames s₁ s₂
  have h₁ : s₁.Canon := hs.of_mem (State.coneReset_mem ..)
  have h₂ : s₂.Canon := h₁.of_mem
  split
  · exact h₂.exec
  · exact h₂.illegalWord

theorem State.Canon.turn {t : Turn} (hs : s.Canon) : EndsCanon (s.turn t) := by
  cases t with
  | event i => exact .ite hs hs.exec
  | issue w =>
    have h₁ : (s.takePipe w).Canon := hs.of_mem (State.takePipe_mem ..)
    exact .ite h₁.issueWord hs
  | tick n ns => exact hs.tick

/-- The invariant's step: a step from a state that has memory in its canonical form leaves such a state. -/
theorem State.Canon.step (hs : s.Canon) : EndsCanon (step s) := by
  unfold Machine.step
  split
  · exact hs
  · exact turn hs.of_mem

end

end Sys2Proof.Machine

/-- Settles O57: the form is an invariant of `step` (`State.Canon.step`), since every instruction and event changes memory only by
writes and by dropping entries, or takes that of the reset state. -/
theorem stepsKeepMemoryForm : Obligations.StepsKeepMemoryForm := by
  unfold Obligations.StepsKeepMemoryForm
  intro s t hs ht
  have h : Sys2Proof.Machine.EndsCanon (Sys2Proof.Machine.step s) := Sys2Proof.Machine.State.Canon.step hs
  rwa [ht] at h

end

section
/-! THEOREM. Memory is little-endian (O60). -/
namespace Sys2Proof.Machine
-- One proof after another: side by side they need more threads than a compile is given memory for.
set_option Elab.async false

/-! ### Bytes to a number -/

theorem testBit_leNat (bs : List Byte) (i : Nat) : (leNat bs).testBit i = (bs.getD (i / 8) 0).getLsbD (i % 8) := by
  induction bs generalizing i with
  | nil => simp [leNat]
  | cons b r ih =>
    have hb : leNat (b :: r) = 2 ^ 8 * leNat r + b.toNat := by rw [leNat]; omega
    rw [hb, Nat.testBit_two_pow_mul_add _ b.isLt]
    split
    next h => rw [Nat.div_eq_of_lt h, Nat.mod_eq_of_lt h, List.getD_cons_zero, BitVec.testBit_toNat]
    next h => rw [ih, show i / 8 = (i - 8) / 8 + 1 by omega, List.getD_cons_succ, show i % 8 = (i - 8) % 8 by omega]

/-- A doubleword of n bytes has bit i mod 8 of the byte i / 8 as its bit i (R5). -/
theorem getLsbD_leNat_range (f : Nat → Byte) {n i : Nat} (hi : i < 64) :
    (BitVec.ofNat 64 (leNat ((List.range n).map f))).getLsbD i = (decide (i < 8 * n) && (f (i / 8)).getLsbD (i % 8)) := by
  rw [BitVec.getLsbD_ofNat, testBit_leNat, decide_eq_true hi, Bool.true_and]
  by_cases h : i < 8 * n
  · have hn : i / 8 < n := by omega
    simp [h, hn]
  · have hn : n ≤ i / 8 := by omega
    simp [h, hn]

/-! ### A value at its place -/

section
variable {s : State} {l : Loc} {k n : Nat} {v : DWord}

theorem State.pull_of_no_migrations (hm : s.migrations = []) (p : Nat) : s.pull p = s := by simp [State.pull, hm]

/-- A byte of scratch or of a page that caches do not hold is written at its key, and no migration begins. -/
theorem State.placeWrite_at_key (hk : placeKey l = some k) (hm : s.migrations = []) (i : Nat) (b : Byte) :
    (s.placeWrite l i b).mem = s.mem.write (k + i) b ∧ (s.placeWrite l i b).migrations = [] := by
  unfold placeKey at hk
  unfold State.placeWrite
  split at hk
  case h_1 block core place =>
    obtain rfl : scrKey block core l.addr = k := Option.some.inj hk
    simp only [place]
    exact ⟨by rw [scrKey, scrKey, Nat.add_assoc _ l.addr i], hm⟩
  case h_2 place =>
    obtain rfl : l.addr = k := Option.some.inj hk
    simp only [place, pull_of_no_migrations hm]
    exact ⟨trivial, hm⟩
  all_goals cases hk

theorem State.placePut_succ : s.placePut l (n + 1) v = (s.placePut l n v).placeWrite l n (v.extractLsb' (8 * n) 8) := by
  simp [State.placePut, List.range_succ]

theorem State.placePut_migrations (hk : placeKey l = some k) (hm : s.migrations = []) : (s.placePut l n v).migrations = [] := by
  induction n with
  | zero => exact hm
  | succ n ih => rw [placePut_succ]; exact (placeWrite_at_key hk ih n _).2

/-- Each of the bytes of a value that is put is in memory (R5). -/
theorem State.placePut_read (hk : placeKey l = some k) (hm : s.migrations = []) (hw : s.mem.wf = true) {j : Nat} (hj : j < n) :
    (s.placePut l n v).mem.read (k + j) = v.extractLsb' (8 * j) 8 := by
  induction n with
  | zero => omega
  | succ n ih =>
    rw [placePut_succ, (placeWrite_at_key hk (placePut_migrations hk hm) n _).1, Memory.read_write _ _ _ (Canon.placePut hw)]
    split
    next h => rw [show j = n by omega]
    next h => exact ih (by omega)

end

end Sys2Proof.Machine

open Sys2Proof.Machine in
/-- Settles O60: reads by `getLsbD_leNat_range`, writes by `State.placePut_read`. -/
theorem memoryIsLittleEndian : Obligations.MemoryIsLittleEndian := by
  unfold Obligations.MemoryIsLittleEndian
  refine ⟨fun m a i hi => ?_, fun s l n i _ hi => getLsbD_leNat_range _ hi, fun s l n k v _ hk hw hm i hi => ?_⟩
  · have h8 : i < 8 * 8 := hi
    rw [read64, Memory.readN, getLsbD_leNat_range _ hi, decide_eq_true h8, Bool.true_and]
  · rw [State.placePut_read hk hm hw (by omega), BitVec.getLsbD_extractLsb', show 8 * (i / 8) + i % 8 = i by omega]
    simp [Nat.mod_lt]

end

section
/-! SUPPORT. The counterexample to the claim that a block end whose write-back is refused leaves the whole state. -/
namespace Sys2Proof.Machine
set_option Elab.async false

/-- A line of ASID 0 whose 128 bytes all have one state; a copy without write permission refuses dirty bytes (R303). -/
def lineOf (vline : Nat) (st : LSt) (writable : Bool) : Line :=
  { asid := 0, vline := vline, bytes := List.replicate 128 { v := 1, st := st }, r := true, w := writable, x := false, cls := 0, held := false, poison := false }

/-- The block of a launch of one block, with no warp left and no slice in its collectors. -/
def endingBlock : Block :=
  { launch := 0, gang := 0, ix := 0, cores := [0], ragmask := 0, group := 0, rowbase := 0, rflags := 0, paramptr := 0, slices := [], finished := false
    failed := false }

/-- A launch that is not deterministic. -/
def plainLaunch : Launch := Launch.fresh 0 0 0 (List.replicate 160 0) 0 [] 0

/-- A block that has ended while its cluster holds two dirty lines. The home takes line 1024 and refuses line 1025. -/
def halfRefused : State :=
  { State.reset with
    launches := [plainLaunch]
    blocks := [endingBlock]
    llc := [lineOf 1024 .clean true, lineOf 1025 .clean false]
    clusters := [{ cluster := 0, lines := [lineOf 1024 .dirty true, lineOf 1025 .dirty true] }] }

/-- The block has ended, its launch is not deterministic, and the flush of its lines names one that was refused. -/
theorem halfRefused_refuses :
    halfRefused.blockEnded 0 = true ∧ halfRefused.detOf 0 = false ∧ (halfRefused.performDevice 0).2.isSome = true := by decide +kernel

/-- The waiting step keeps the write-back of the line that was taken: no dirty line 1024 is left. -/
theorem execBlockFinish_halfRefused :
    (match exec (.blockFinish 0) halfRefused with
      | .next t => decide (t.clusters = halfRefused.clusters)
      | _ => true) = false := by decide +kernel

end Sys2Proof.Machine

open Sys2Proof.Machine in
/-- Refutes O37: the claim that an unfinished block leaves the state as it was. The flush of `halfRefused` writes one dirty line home before the other is
refused, and the step that waits keeps that write. -/
theorem not_blocksEnd : ¬ Obligations.BlocksEnd := by
  unfold Obligations.BlocksEnd Claims.BlocksFinish
  rintro ⟨finish, -⟩
  obtain ⟨ended, notDet, refused⟩ := halfRefused_refuses
  have stays : exec (.blockFinish 0) halfRefused = .next halfRefused :=
    (finish halfRefused 0 endingBlock plainLaunch rfl rfl ended (.inl notDet)).1 (.inl refused)
  have kept := execBlockFinish_halfRefused
  rw [stays] at kept
  simp at kept
end

section
/-! SUPPORT. What the load, clause boundaries and traps do to warps: which fields of a warp each can change, and that the rest of the module stays. -/
namespace Sys2Proof.Machine
set_option Elab.async false

/-! ### Which warps are loaded -/

/-- The module without its warps. -/
def State.unwarped (s : State) : State := { s with warps := [] }

/-- A warp but for its place in the load and since when it is READY. -/
def Warp.unplaced (x : Warp) : Warp := { x with state := .ready, readyAt := 0 }

/-- Only the places of warps in the load have changed. -/
structure Reloaded (s t : State) : Prop where
  rest : t.unwarped = s.unwarped
  warps : ∀ v, (t.warp? v).map Warp.unplaced = (s.warp? v).map Warp.unplaced

/-- READY warps may have entered the load; every other warp is as it was. -/
structure Filled (s t : State) : Prop extends Reloaded s t where
  keeps : ∀ v x, s.warp? v = some x → x.state ≠ .ready → t.warp? v = some x

theorem Reloaded.refl (s : State) : Reloaded s s := ⟨rfl, fun _ => rfl⟩

theorem Reloaded.trans {s t u : State} (h : Reloaded s t) (k : Reloaded t u) : Reloaded s u :=
  ⟨k.rest.trans h.rest, fun v => (k.warps v).trans (h.warps v)⟩

theorem Filled.refl (s : State) : Filled s s := ⟨.refl s, fun _ _ h _ => h⟩

theorem Filled.trans {s t u : State} (h : Filled s t) (k : Filled t u) : Filled s u :=
  ⟨h.toReloaded.trans k.toReloaded, fun v x hx hn => k.keeps v x (h.keeps v x hx hn) hn⟩

/-- A change of one warp that its place hides. -/
theorem Reloaded.modWarp (s : State) (w : Nat) (f : Warp → Warp) (h : ∀ x, (f x).unplaced = x.unplaced) : Reloaded s (s.modWarp w f) where
  rest := rfl
  warps v := by
    rw [State.warp?_modWarp]
    split
    · cases s.warp? v <;> simp [h]
    · rfl

theorem Filled.enter (s : State) (w : Nat) :
    Filled s (s.modWarp w (fun x => if x.state == .ready then { x with state := .active } else x)) where
  toReloaded := .modWarp s w _ (by intro x; split <;> rfl)
  keeps v x hx hn := by
    rw [State.warp?_modWarp, hx]
    split
    · simp [hn]
    · rfl

theorem Filled.fillLoad (s : State) (cl core : Nat) : Filled s (s.fillLoad cl core) := by
  unfold State.fillLoad
  generalize takeFitting _ _ _ = entering
  induction entering generalizing s with
  | nil => exact .refl s
  | cons p ps ih => exact (Filled.enter s p.1).trans (ih _)

theorem Filled.fillLoadAt (s : State) (w : Nat) : Filled s (s.fillLoadAt w) := by
  unfold State.fillLoadAt
  split
  · exact .refl s
  · exact .fillLoad ..

theorem Reloaded.ready (s : State) (w : Nat) : Reloaded s (s.ready w) :=
  (Reloaded.modWarp s w _ (by intro x; rfl)).trans (Filled.fillLoadAt _ w).toReloaded

theorem Reloaded.releaseCharge (s : State) (w old : Nat) : Reloaded s (s.releaseCharge w old) := by
  unfold State.releaseCharge
  split
  · exact .refl s
  · simp only
    split
    · exact .ready s w
    · split
      · exact (Filled.fillLoadAt s w).toReloaded
      · exact .refl s

/-- A warp whose place the load may have changed has its other fields. -/
theorem Reloaded.warp? {s t : State} (h : Reloaded s t) {w : Nat} {x : Warp} (hx : s.warp? w = some x) :
    ∃ y, t.warp? w = some y ∧ y.unplaced = x.unplaced := by
  have := h.warps w
  rw [hx] at this
  cases hy : t.warp? w with
  | none => simp [hy] at this
  | some y => exact ⟨y, rfl, by simpa [hy] using this⟩

/-! ### Changes of warps that leave their registers and what controls them -/

/-- Registers, what controls a warp, and everything but warps and event counts are as they were. -/
structure SameFrame (s t : State) : Prop extends SameRegs s t where
  others : t.others = s.others
  control : ∀ v, (t.warp? v).map Warp.control = (s.warp? v).map Warp.control

theorem SameFrame.refl (s : State) : SameFrame s s := ⟨.refl s, rfl, fun _ => rfl⟩

theorem SameFrame.trans {s t u : State} (h : SameFrame s t) (k : SameFrame t u) : SameFrame s u :=
  ⟨h.toSameRegs.trans k.toSameRegs, k.others.trans h.others, fun v => (k.control v).trans (h.control v)⟩

theorem SameFrame.modWarp (s : State) (w : Nat) (f : Warp → Warp) (hr : ∀ x, (f x).regs = x.regs) (hc : ∀ x, (f x).control = x.control) :
    SameFrame s (s.modWarp w f) where
  toSameRegs := .modWarp s w f hr
  others := rfl
  control v := by
    rw [State.warp?_modWarp]
    split
    · cases s.warp? v <;> simp [hc]
    · rfl

theorem State.others_of_unwarped {s t : State} (h : t.unwarped = s.unwarped) : t.others = s.others := by
  show t.unwarped.others = s.unwarped.others
  rw [h]

/-- What does not look at a warp's place in the load is as it was. -/
theorem Reloaded.map {α : Type} {s t : State} (h : Reloaded s t) (f : Warp → α) (hf : ∀ x : Warp, f x.unplaced = f x) (v : Nat) :
    (t.warp? v).map f = (s.warp? v).map f := by
  have same := congrArg (Option.map f) (h.warps v)
  simpa only [Option.map_map, Function.comp_def, hf] using same

theorem Reloaded.frame {s t : State} (h : Reloaded s t) : SameFrame s t where
  same v := h.map Warp.regs (fun _ => rfl) v
  others := State.others_of_unwarped h.rest
  control v := h.map Warp.control (fun _ => rfl) v

theorem SameFrame.fillLoadAt (s : State) (w : Nat) : SameFrame s (s.fillLoadAt w) := (Filled.fillLoadAt s w).toReloaded.frame

theorem SameFrame.settleHold (s : State) (w : Nat) : SameFrame s (s.settleHold w) := by
  unfold State.settleHold
  have hold : ∀ f : Warp → Warp, (∀ x, (f x).regs = x.regs) → (∀ x, (f x).control = x.control) →
      SameFrame s ((s.modWarp w f).fillLoadAt w) := fun f hr hc => (SameFrame.modWarp s w f hr hc).trans (.fillLoadAt _ w)
  split
  · exact .refl s
  · split
    · exact hold _ (by intro x; rfl) (by intro x; rfl)
    · simp only
      split
      · exact hold _ (by intro x; rfl) (by intro x; rfl)
      · split
        · exact hold _ (by intro x; rfl) (by intro x; rfl)
        · split
          · exact .modWarp s w _ (by intro x; rfl) (by intro x; rfl)
          · exact .modWarp s w _ (by intro x; rfl) (by intro x; rfl)

theorem SameFrame.meetLoad (s : State) (w : Nat) : SameFrame s (s.meetLoad w) := by
  unfold State.meetLoad
  split
  · exact .refl s
  · exact .modWarp s w _ (by intro x; rfl) (by intro x; rfl)

theorem SameFrame.boundary (s : State) (w : Nat) : SameFrame s (s.boundary w) := by
  unfold State.boundary
  split
  · exact .refl s
  · simp only
    split
    · exact .modWarp s w _ (by intro x; rfl) (by intro x; rfl)
    · split
      · exact (SameFrame.modWarp s w _ (by intro x; rfl) (by intro x; rfl)).trans (.fillLoadAt _ w)
      · exact (((SameFrame.meetLoad s w).trans (.modWarp _ w _ (by intro x; rfl) (by intro x; rfl))).trans
          (Reloaded.releaseCharge _ w _).frame).trans (.settleHold _ w)

/-- A warp whose threads have all exited ends at its clause boundary (R220), its registers as they are. -/
theorem State.boundary_of_allExited {s : State} {w : Nat} {x : Warp} (hx : s.warp? w = some x) (hex : x.allExited = true) (ha : x.ahead = false) :
    ∃ y, (s.boundary w).warp? w = some y ∧ y.state = .ended ∧ y.regs = x.regs := by
  unfold State.boundary
  simp only [hx, hex, ha, Bool.and_false, Bool.false_eq_true, if_false, if_true]
  refine ⟨_, (Filled.fillLoadAt _ w).keeps w _ ((State.warp?_modWarp ..).trans ((if_pos rfl).trans (congrArg _ hx))) ?_, rfl, rfl⟩
  simp

/-! ### Traps (R283, R395, R398) -/

/-- The warp that a trap leaves (R395). -/
def Warp.trappedBy (x : Warp) (t : TrapInfo) (iset : Mask) (caddr : DWord) (index : Nat) (done head : Bool) : Warp :=
  { x with
    fault := faultRecord t index caddr (wcrTag x.wcr)
    state := .trapped
    hold := .none
    pending := none
    pipe := none
    resume := { iset := iset, done := done, head := head, index := if head then 0 else index, caddr := caddr.extractLsb' 3 54 } }

theorem State.warp?_of_quiet {s t : State} (h : t.quiet = s.quiet) (w : Nat) : t.warp? w = s.warp? w :=
  congrArg (·[w]?) (State.warps_of_quiet h)

/-- The warp that took a trap stands as the trap leaves it. -/
theorem State.warp?_takeTrap {s : State} {w : Nat} {x : Warp} (hx : s.warp? w = some x) (t : TrapInfo) (iset : Mask) (caddr : DWord) (index : Nat)
    (done head : Bool) : (s.takeTrap w t iset caddr index done head).warp? w = some (x.trappedBy t iset caddr index done head) := by
  unfold State.takeTrap
  simp only [hx]
  rw [State.warp?_of_quiet (State.quiet_trapEntry ..)]
  refine (Filled.fillLoadAt _ w).keeps w _ ?_ (by simp [Warp.trappedBy])
  rw [State.warp?_modWarp, if_pos rfl]
  have freed : (if t.code == codeWback then s.freeHeld (s.asid (s.ctxIx w)) (t.addr.toNat % 2 ^ 57 / 128) else s).warp? w = some x := by
    split
    · rw [State.warp?_of_quiet (State.quiet_freeHeld ..), hx]
    · exact hx
  rw [freed]
  rfl

/-- The same for a trap of the instruction that a warp's clause stands at (R85). -/
theorem State.warp?_trapHere {s : State} {w : Nat} {x : Warp} {c : Clause} (hx : s.warp? w = some x) (hc : x.clause = some c) (t : TrapInfo) :
    (s.trapHere w t).warp? w = some (x.trappedBy t c.iset c.addr c.idx false false) := by
  unfold State.trapHere
  simp only [hx, Option.bind_some, hc]
  exact State.warp?_takeTrap hx ..

/-- A concatenation as a number: the upper part stands above the lower. -/
theorem toNat_append_eq_add {n m : Nat} (x : BitVec n) (y : BitVec m) : (x ++ y).toNat = x.toNat * 2 ^ m + y.toNat := by
  rw [BitVec.toNat_append, Nat.shiftLeft_eq, Nat.mul_comm, Nat.two_pow_add_eq_or_of_lt y.isLt]

/-- FAULT0 of a record: the position in the clause above the clause's word address (R283). -/
theorem faultRecord_where (t : TrapInfo) (index : Nat) (caddr : DWord) (wtag : BitVec 8) :
    (faultRecord t index caddr wtag)[0]? = some (0#6 ++ BitVec.ofNat 4 index ++ caddr.extractLsb' 3 54) := by
  refine congrArg some (BitVec.eq_of_toNat_eq ?_)
  simp only [toNat_append_eq_add, BitVec.toNat_ofNat, BitVec.extractLsb'_toNat, Nat.shiftRight_eq_div_pow]
  omega

/-- FAULT1 of a record: reason, lowest thread, code and mask, from the top (R283). -/
theorem faultRecord_what (t : TrapInfo) (index : Nat) (caddr : DWord) (wtag : BitVec 8) :
    (faultRecord t index caddr wtag)[1]? =
      some (0#8 ++ t.reason ++ 0#2 ++ BitVec.ofBool t.lowv ++ (if t.lowv then BitVec.ofNat 5 t.lowest else 0) ++ t.code ++ t.mask) := by
  refine congrArg some (BitVec.eq_of_toNat_eq ?_)
  have reason := t.reason.isLt
  have code := t.code.isLt
  have mask := t.mask.isLt
  simp only [toNat_append_eq_add, BitVec.toNat_ofNat]
  cases t.lowv <;> simp <;> omega

/-- FAULT1 of a record that gives no reason and no address. -/
theorem faultRecord_plain (code : BitVec 8) (mask : Mask) (index : Nat) (caddr : DWord) (wtag : BitVec 8) :
    (faultRecord { code := code, mask := mask } index caddr wtag)[1]? = some (code.setWidth 32 ++ mask) := by
  refine (faultRecord_what ..).trans (congrArg some (BitVec.eq_of_toNat_eq ?_))
  have small := code.isLt
  simp only [toNat_append_eq_add, BitVec.toNat_setWidth, BitVec.toNat_ofNat, BitVec.ofNat_eq_ofNat, BitVec.ofBool_false, Bool.false_eq_true, if_false]
  omega

/-- FAULT3 of a record: WCR.TAG above the immediate (R283). -/
theorem faultRecord_tag (t : TrapInfo) (index : Nat) (caddr : DWord) (wtag : BitVec 8) :
    (faultRecord t index caddr wtag)[3]? = some (0#24 ++ wtag ++ t.imm) := by
  refine congrArg some (BitVec.eq_of_toNat_eq ?_)
  have tag := wtag.isLt
  have imm := t.imm.isLt
  simp only [toNat_append_eq_add, BitVec.toNat_ofNat]
  omega

end Sys2Proof.Machine
end

section
/-! SUPPORT. Turns: what a step does with the first turn of an agenda, and how a clause takes its pipe. -/
namespace Sys2Proof.Machine
set_option Elab.async false

/-- A step takes the first turn of its agenda. -/
theorem step_of_agenda {s : State} {t : Turn} {r : List Turn} (h : s.agenda = t :: r) : step s = ({ s with agenda := r } : State).turn t := by
  have planned : s.plan = t :: r := by rw [State.plan, h]; rfl
  unfold step
  rw [planned]

/-- A clause that holds a pipe takes none. -/
theorem State.takePipe_of_pipe {s : State} {w : Nat} {x : Warp} (hx : s.warp? w = some x) (hp : x.pipe.isSome = true) : s.takePipe w = s := by
  obtain ⟨p, hp⟩ := Option.isSome_iff_exists.mp hp
  unfold State.takePipe
  simp [hx, hp]

/-- A warp of the load that is not held and whose clause has a word and no pipe takes the pipe that is free for it, if one is. -/
theorem State.takePipe_of_candidate {s : State} {w : Nat} {x : Warp} {c : Clause} (hx : s.warp? w = some x) (hc : x.clause = some c)
    (hi : c.idx < c.words.length) (hp : x.pipe = none) (hs : x.state = .active) (hh : x.hold = .none) :
    s.takePipe w = s.modWarp w (fun y => { y with pipe := s.pipeFor w x c.cls, candAt := none }) := by
  have cand : s.candidate w x = some c.cls := by simp [State.candidate, hs, hh, hp, hc, hi]
  unfold State.takePipe
  simp [hx, hp, cand]

/-- A warp of the load issues where its clause has a word and holds a pipe. -/
theorem State.canIssue_eq {s : State} {w : Nat} {x : Warp} {c : Clause} (hx : s.warp? w = some x) (hs : x.state = .active) (hc : x.clause = some c)
    (hi : c.idx < c.words.length) : s.canIssue w = x.pipe.isSome := by
  simp [State.canIssue, hx, Warp.runs, hs, hc, hi]

/-- The turn of a warp whose clause holds a pipe issues the word it stands at. -/
theorem State.turn_issue_of_pipe {s : State} {w : Nat} {x : Warp} {c : Clause} (hx : s.warp? w = some x) (hs : x.state = .active)
    (hc : x.clause = some c) (hi : c.idx < c.words.length) (hp : x.pipe.isSome = true) : s.turn (.issue w) = s.issueWord w := by
  have can : (s.takePipe w).canIssue w = true := by rw [State.takePipe_of_pipe hx hp, State.canIssue_eq hx hs hc hi, hp]
  show (if (s.takePipe w).canIssue w then (s.takePipe w).issueWord w else .next s) = _
  rw [if_pos can, State.takePipe_of_pipe hx hp]

/-- The turn of a warp whose clause holds no pipe: it issues with the pipe that is free for it, and waits where none is (R80, R341). -/
theorem State.turn_issue_of_no_pipe {s : State} {w : Nat} {x : Warp} {c : Clause} (hx : s.warp? w = some x) (hs : x.state = .active)
    (hc : x.clause = some c) (hi : c.idx < c.words.length) (hp : x.pipe = none) (hh : x.hold = .none) :
    s.turn (.issue w) = if (s.pipeFor w x c.cls).isSome then
      (s.modWarp w (fun y => { y with pipe := s.pipeFor w x c.cls, candAt := none })).issueWord w else .next s := by
  show (if (s.takePipe w).canIssue w then (s.takePipe w).issueWord w else .next s) = _
  rw [State.takePipe_of_candidate hx hc hi hp hs hh]
  have hy : (s.modWarp w (fun y => { y with pipe := s.pipeFor w x c.cls, candAt := none })).warp? w =
      some { x with pipe := s.pipeFor w x c.cls, candAt := none } := by rw [State.warp?_modWarp, if_pos rfl, hx]; rfl
  rw [State.canIssue_eq hy hs hc hi]

/-- The word a warp stands at, decoded, is the instruction that issues. -/
theorem State.issueWord_of_decode {s : State} {w : Nat} {x : Warp} {c : Clause} {v : DWord} {i : Instr} (hx : s.warp? w = some x)
    (hc : x.clause = some c) (hv : c.words[c.idx]? = some v) (hd : decodeWord v = some i) :
    s.issueWord w = exec i { s.coneReset w with cur := w } := by
  have at_ : ({ s.coneReset w with cur := w } : State).nextInstr w = some i := by
    show ((s.warp? w).bind Warp.word).bind decodeWord = _
    simp [hx, Warp.word, hc, hv, hd]
  unfold State.issueWord
  simp only [at_]

/-- A word that is no instruction raises ILLEGAL for the issue set (R103). -/
theorem illegalWord_eq {s : State} {x : Warp} {c : Clause} (hx : s.warp? s.cur = some x) (hs : x.state = .active) (hc : x.clause = some c)
    (hi : c.idx < c.words.length) (hh : x.hold = .none) (ha : x.ahead = false) :
    illegalWord s = .next (s.trapHere s.cur { code := codeIllegal, mask := c.iset }) := by
  unfold illegalWord State.raiseHere
  simp [hx, hc, hh, ha, Warp.runs, hs, Nat.not_le.mpr hi]

/-- The issue of a word that is no instruction. -/
theorem State.issueWord_of_illegal {s : State} {w : Nat} {x : Warp} {c : Clause} {v : DWord} (hx : s.warp? w = some x)
    (hc : x.clause = some c) (hv : c.words[c.idx]? = some v) (hd : decodeWord v = none) :
    s.issueWord w = illegalWord { s.coneReset w with cur := w } := by
  have at_ : ({ s.coneReset w with cur := w } : State).nextInstr w = none := by
    show ((s.warp? w).bind Warp.word).bind decodeWord = _
    simp [hx, Warp.word, hc, hv, hd]
  unfold State.issueWord
  simp only [at_]

/-- The turn of an event that is no word. -/
theorem State.turn_event {s : State} {i : Instr} (h : i.isWord = false) : s.turn (.event i) = exec i s := by
  show (if i.head?.isSome then _ else _) = _
  rw [if_neg (by simpa [Instr.isWord] using h)]

end Sys2Proof.Machine

open Sys2Proof.Machine in
/-- Settles O55: a word by `State.issueWord_of_decode` and `State.issueWord_of_illegal`, a pipe by `State.turn_issue_of_no_pipe`, an event by
`State.turn_event`. -/
theorem stepRunsDecoded : Obligations.StepRunsDecoded := by
  unfold Obligations.StepRunsDecoded
  refine ⟨fun s w r x c v ha hx hs hc hv hp => ?_, fun s w r x c ha hx hc hi hp hs hh => ?_, fun s i r ha hw => ?_⟩
  · obtain ⟨u, hu⟩ : ∃ u : State, u = { s with agenda := r } := ⟨_, rfl⟩
    have hxu : u.warp? w = some x := hu ▸ hx
    have inside : c.idx < c.words.length := (List.getElem?_eq_some_iff.mp hv).1
    have issues : step s = u.issueWord w := by rw [step_of_agenda ha, ← hu, State.turn_issue_of_pipe hxu hs hc inside hp]
    refine ⟨fun i hd => by rw [issues, State.issueWord_of_decode hxu hc hv hd, hu], fun hd hh hah => ?_⟩
    have hxi : ({ u.coneReset w with cur := w } : State).warp? w = some x := hxu
    refine ⟨_, _, issues.trans ((State.issueWord_of_illegal hxu hc hv hd).trans (illegalWord_eq hxi hs hc inside hh hah)),
      State.warp?_trapHere hxi hc _, rfl, rfl, ?_, rfl, rfl⟩
    exact faultRecord_plain codeIllegal c.iset c.idx c.addr _
  · obtain ⟨u, hu⟩ : ∃ u : State, u = { s with agenda := r } := ⟨_, rfl⟩
    have hxu : u.warp? w = some x := hu ▸ hx
    rw [step_of_agenda ha, ← hu, State.turn_issue_of_no_pipe hxu hs hc hi hp hh]
    refine ite_congr rfl (fun free => ?_) (fun _ => rfl)
    have hy : (u.modWarp w (fun y => { y with pipe := u.pipeFor w x c.cls, candAt := none })).warp? w =
        some { x with pipe := u.pipeFor w x c.cls, candAt := none } := by rw [State.warp?_modWarp, if_pos rfl, hxu]; rfl
    have takes := State.turn_issue_of_pipe hy hs hc hi free
    rw [step_of_agenda (t := .issue w) (r := r) rfl, ← takes]
    rw [hu]
    rfl
  · rw [step_of_agenda ha, State.turn_event hw]
end

section
/-! SUPPORT. What follows a ready instruction that is done: its warp is completed, and traps, or meets its clause boundary, or goes on. -/
namespace Sys2Proof.Machine
set_option Elab.async false

/-! ### What follows completion -/

/-- What issue notes of a ready instruction as it ends: the threads it wrote for, no early write, and the accesses issued before it. -/
def Finish.noted (f : Finish) (m : Mask) (n : Nat) : Finish := { f with wrote := m, early := [], accsBefore := n }

/-- What follows the completion of an instruction (R85, R410): its trap, or STEP, or the clause boundary after the last word. -/
def State.aftermath (s : State) (w : Nat) (x : Warp) (c : Clause) (f : Finish) : State :=
  match f.trap with
  | some t => s.takeTrap w t c.iset c.addr c.idx true false
  | none =>
    if wcrStep x.wcr && !x.ahead then s.takeTrap w { code := codeStep, mask := c.iset } c.iset c.addr c.idx true false
    else if c.idx + 1 == c.words.length then s.boundary w
    else s

theorem State.clobber_nil (s : State) (w : Nat) (m : Mask) (n : Nat) : s.clobber w [] m n = s := rfl

theorem State.reread_nil (s : State) (w n : Nat) : s.reread w [] n = s := by
  unfold State.reread
  split
  · rfl
  · exact if_pos (List.all_eq_true.mpr (by simp))

/-- An instruction with no early write completes its warp, and what follows completion follows. -/
theorem State.complete_of_no_early {s : State} {w : Nat} {x : Warp} {c : Clause} (hx : s.warp? w = some x) (hc : x.clause = some c) (f : Finish)
    (he : f.early = []) : s.complete w f = (s.modWarp w (fun _ => x.completed c f)).aftermath w x c f := by
  unfold State.complete State.aftermath
  simp only [hx, hc, he, ite_self, List.filter_nil, State.clobber_nil, State.reread_nil]
  cases f.trap <;> rfl

/-- The registers of a warp as it stands. -/
theorem State.regs_of_warp? {s : State} {w : Nat} {x : Warp} (h : s.warp? w = some x) : s.regs w = x.regs := by simp [State.regs, h]

theorem State.warp?_modWarp_const {s : State} {w : Nat} {x : Warp} (h : s.warp? w = some x) (y : Warp) :
    (s.modWarp w (fun _ => y)).warp? w = some y := by rw [State.warp?_modWarp, if_pos rfl, h]; rfl

theorem State.regs_modWarp_ne (s : State) {w v : Nat} (h : v ≠ w) (f : Warp → Warp) : (s.modWarp w f).regs v = s.regs v := by
  simp [State.regs, State.warp?_modWarp, Ne.symm h]

/-- What follows completion leaves every warp's registers. -/
theorem SameRegs.aftermath (s : State) (w : Nat) (x : Warp) (c : Clause) (f : Finish) : SameRegs s (s.aftermath w x c f) := by
  unfold State.aftermath
  split
  · exact .takeTrap ..
  · exact .ite (.takeTrap ..) (.ite (.boundary ..) (.refl _))

theorem State.cur_of_others {s t : State} (h : t.others = s.others) : t.cur = s.cur := by
  show t.others.cur = s.others.cur
  rw [h]

theorem State.cur_of_quiet {s t : State} (h : t.quiet = s.quiet) : t.cur = s.cur := by
  show t.quiet.cur = s.quiet.cur
  rw [h]

theorem State.takeTrap_cur (s : State) (w : Nat) (t : TrapInfo) (iset : Mask) (caddr : DWord) (index : Nat) (done head : Bool) :
    (s.takeTrap w t iset caddr index done head).cur = s.cur := by
  unfold State.takeTrap
  split
  · rfl
  · simp only
    rw [State.cur_of_quiet (State.quiet_trapEntry ..), State.cur_of_others (SameFrame.fillLoadAt _ w).others]
    show (if _ then _ else _ : State).cur = _
    split <;> rfl

theorem State.aftermath_cur (s : State) (w : Nat) (x : Warp) (c : Clause) (f : Finish) : (s.aftermath w x c f).cur = s.cur := by
  unfold State.aftermath
  split
  · exact State.takeTrap_cur ..
  · split
    · exact State.takeTrap_cur ..
    · split
      · exact State.cur_of_others (SameFrame.boundary s w).others
      · rfl

/-- What follows an instruction that neither traps nor steps leaves all but the place of its warp. -/
theorem SameFrame.aftermath (s : State) (w : Nat) (x : Warp) (c : Clause) (f : Finish) (ht : f.trap = none) (hs : wcrStep x.wcr = false) :
    SameFrame s (s.aftermath w x c f) := by
  unfold State.aftermath
  simp only [ht, hs, Bool.false_and, Bool.false_eq_true, if_false]
  split
  · exact .boundary s w
  · exact .refl s

/-! ### Bodies that change the current warp alone -/

/-- The body of an instruction has left the current warp as given, and all else but event counts as it was. -/
structure Touched (s t : State) (x : Warp) : Prop where
  warp : t.warp? s.cur = some x
  others : t.others = s.others
  warps : ∀ v, v ≠ s.cur → t.regs v = s.regs v

theorem Touched.modWarp {s : State} {x : Warp} (hx : s.warp? s.cur = some x) (f : Warp → Warp) : Touched s (s.modWarp s.cur f) (f x) where
  warp := by rw [State.warp?_modWarp, if_pos rfl, hx]; rfl
  others := rfl
  warps _ hv := State.regs_modWarp_ne s hv f

theorem Touched.refl {s : State} {x : Warp} (hx : s.warp? s.cur = some x) : Touched s s x := ⟨hx, rfl, fun _ _ => rfl⟩

/-- An event count is no other part of the module. -/
theorem State.bump_others (s : State) (ctx ev n : Nat) (b : Option Nat) : (s.bump ctx ev n b).others = s.others := by
  unfold State.bump
  split
  · rfl
  · have same : ∀ f : Ctx → Ctx, (∀ c, ({ f c with events := [], recent := [] } : Ctx) = { c with events := [], recent := [] }) →
        (upd s.ctxs ctx f).map (fun c => ({ c with events := [], recent := [] } : Ctx)) = s.ctxs.map (fun c => { c with events := [], recent := [] }) := by
      intro f hf
      refine List.ext_getElem? fun i => ?_
      rw [List.getElem?_map, List.getElem?_map, upd_get]
      split
      · cases s.ctxs[i]? <;> simp [hf]
      · rfl
    exact congrArg (fun l => ({ s with warps := [], ctxs := l } : State)) (same _ (by intro c; rfl))

theorem Touched.bump {s t : State} {x : Warp} (h : Touched s t x) (ctx ev n : Nat) (b : Option Nat) : Touched s (t.bump ctx ev n b) x where
  warp := (congrArg (·[s.cur]?) (State.bump_warps ..)).trans h.warp
  others := (State.bump_others ..).trans h.others
  warps v hv := by
    rw [← h.warps v hv]
    exact (SameRegs.of_warps (State.bump_warps ..)).regs v

/-- A ready instruction that puts registers changes its warp's registers alone. -/
theorem Touched.put {s : State} {d : Need} {e : Env} (h : s.ready? d = some e) (l : LaneRes) : Touched s (e.put l) { e.x with regs := l.regs } := by
  obtain ⟨hx, -, -, -, hah, -, -, -, he⟩ := ready?_spec h
  have hs : e.s = s := by rw [he]
  have hw : e.w = s.cur := by rw [he]
  unfold Env.put
  simp only
  rw [if_neg (by simp [hah]), hs, hw]
  exact ((Touched.modWarp hx (fun x => { x with regs := l.regs })).bump ..).bump ..

/-- A ready instruction that is done: what it leaves. -/
theorem issue_done {s t : State} {d : Need} {e : Env} {x : Warp} {f : Finish} (h : s.ready? d = some e) {body : Env → Res} (hb : body e = .done t f)
    (ht : Touched s t x) (hc : x.clause = some e.c) :
    issue d body s = .next ((t.modWarp s.cur (fun _ => x.completed e.c (f.noted (if d.whole then fullMask else e.act) s.accs.length))).aftermath s.cur x e.c
      (f.noted (if d.whole then fullMask else e.act) s.accs.length)) := by
  rw [issue_ready h, hb, settle_done]
  exact congrArg _ (State.complete_of_no_early ht.warp hc (f.noted (if d.whole then fullMask else e.act) s.accs.length) rfl)

/-- The registers of the current warp after an instruction is done. -/
theorem Touched.regs {s t : State} {x : Warp} (h : Touched s t x) (c : Clause) (f : Finish) :
    (((t.modWarp s.cur (fun _ => x.completed c f)).aftermath s.cur x c f).regs s.cur) = (x.completed c f).regs := by
  rw [(SameRegs.aftermath ..).regs, State.regs_of_warp? (State.warp?_modWarp_const h.warp _)]

/-! ### The frame of an instruction that is done -/

/-- A register file has changed in the listed registers alone, and no table that others use. -/
structure RegsLeave (r q : Regs) (ds : List Reg) : Prop where
  vregs : ∀ g, g ∉ ds → q.vreg g = r.vreg g
  sregs : ∀ n, .s n ∉ ds → q.s[n]? = r.s[n]?
  pregs : ∀ n, .p n ∉ ds → q.p[n]? = r.p[n]?
  tables : ∀ k, (ds.filter (fun g => tagClass (r.vreg g).tag == 5 && tagTix (r.vreg g).tag == k)).length < (r.mt.getD k .free).ref →
    (q.mt.getD k .free).ents = (r.mt.getD k .free).ents

theorem Regs.sameData.vreg {r q : Regs} (h : r.sameData q) (g : Reg) : r.vreg g = q.vreg g := by
  obtain ⟨hv, ho, -⟩ := h
  cases g <;> simp [Regs.vreg, hv, ho]

theorem RegsLeave.of_sameData {r q : Regs} (h : q.sameData r) (ds : List Reg) : RegsLeave r q ds where
  vregs g _ := h.vreg g
  sregs n _ := by rw [h.2.2.1]
  pregs n _ := by rw [h.2.2.2.1]
  tables k _ := by rw [h.2.2.2.2]

theorem RegsLeave.trans_sameData {r q p : Regs} {ds : List Reg} (h : RegsLeave r q ds) (k : p.sameData q) : RegsLeave r p ds where
  vregs g hg := (k.vreg g).trans (h.vregs g hg)
  sregs n hn := by rw [k.2.2.1, h.sregs n hn]
  pregs n hn := by rw [k.2.2.2.1, h.pregs n hn]
  tables t ht := by rw [k.2.2.2.2, h.tables t ht]

theorem Warp.completed_sameData (x : Warp) (c : Clause) (f : Finish) : (x.completed c f).regs.sameData x.regs := ⟨rfl, rfl, rfl, rfl, rfl⟩

/-- The frame of a register instruction that is done and neither traps nor counts a result on a scoreboard (R17, R79 to R82). -/
theorem Touched.leaves {s t : State} {x y : Warp} {c : Clause} {f : Finish} {ds : List Reg} (h : Touched s t y) (hx : s.warp? s.cur = some x)
    (hctl : y.control = x.control) (hstep : wcrStep x.wcr = false) (hr : RegsLeave x.regs y.regs ds) (hsb : y.regs.sb = x.regs.sb)
    (hdraws : y.regs.draws = x.regs.draws) (htrap : f.trap = none) (hcount : f.counted = false) :
    Leaves s ((t.modWarp s.cur (fun _ => y.completed c f)).aftermath s.cur y c f) ds f.draws := by
  have hwcr : wcrStep y.wcr = false := by rw [show y.wcr = x.wcr from congrArg Prod.fst hctl, hstep]
  have frame := SameFrame.aftermath (t.modWarp s.cur (fun _ => y.completed c f)) s.cur y c f htrap hwcr
  have old := State.regs_of_warp? hx
  have data := hr.trans_sameData (Warp.completed_sameData y c f)
  constructor
  case others => exact frame.others.trans h.others
  case warps => exact fun v hv => by rw [frame.toSameRegs.regs, State.regs_modWarp_ne _ hv, h.warps v hv]
  case vregs => rw [h.regs, old]; exact data.vregs
  case sregs => rw [h.regs, old]; exact data.sregs
  case pregs => rw [h.regs, old]; exact data.pregs
  case tables => rw [h.regs, old]; exact data.tables
  case scoreboards =>
    rw [h.regs, old, ← hsb]
    show (match sbOf f.head with | some i => if f.counted then y.regs.sb.modify i.val (· + 1) else y.regs.sb | none => y.regs.sb) = _
    cases sbOf f.head <;> simp [hcount]
  case draws =>
    intro hd
    rw [h.regs, old, ← hdraws]
    simp [Warp.completed, hd]
  case control =>
    rw [frame.control, State.warp?_modWarp_const h.warp, hx]
    exact congrArg some hctl

/-! ### Where threads go -/

theorem lpc_zipIdx_map (l : List Lpc) (g : Lpc → Nat → Lpc) (u : Nat) :
    (l.zipIdx.map (fun p => g p.1 p.2))[u]? = (l[u]?).map (fun e => g e u) := by
  rw [List.getElem?_map, List.getElem?_zipIdx, Option.map_map, Nat.zero_add]
  rfl

/-- The LPC entry of a thread once its warp's instruction is completed (R17). -/
theorem Warp.completed_lane (x : Warp) (c : Clause) (f : Finish) (u : Nat) : (x.completed c f).regs.lpc[u]? =
    (x.regs.lpc[u]?).map (fun e => if c.idx + 1 = c.words.length ∧ inMask c.iset u = true ∧ inMask f.moved u = false then { e with waddr := c.next } else e) := by
  by_cases last : c.idx + 1 = c.words.length
  · simp only [Warp.completed, last, beq_self_eq_true, if_true, true_and]
    rw [lpc_zipIdx_map _ (fun e t => if inMask c.iset t && !inMask f.moved t then { e with waddr := _ } else e)]
    simp [Clause.next]
  · simp [Warp.completed, last]

theorem Regs.setWaddr_lane (r : Regs) (m : Mask) (f : Nat → BitVec 54) (u : Nat) :
    (r.setWaddr m f).lpc[u]? = (r.lpc[u]?).map (fun e => if inMask m u then { e with waddr := f u } else e) :=
  lpc_zipIdx_map _ (fun e t => if inMask m t then { e with waddr := f t } else e) u

theorem Regs.setLane_lane (r : Regs) (m : Mask) (st : LaneState) (u : Nat) :
    (r.setLane m st).lpc[u]? = (r.lpc[u]?).map (fun e => if inMask m u then { e with st := st } else e) :=
  lpc_zipIdx_map _ (fun e t => if inMask m t then { e with st := st } else e) u

theorem inMask_and (a b : Mask) (t : Nat) : inMask (a &&& b) t = (inMask a t && inMask b t) := by simp [inMask]

/-- A thread that acts is of the issue set (R67). -/
theorem ready?_act_sub {s : State} {d : Need} {e : Env} (h : s.ready? d = some e) {t : Nat} (ht : inMask e.act t = true) : inMask e.c.iset t = true := by
  obtain ⟨-, -, -, -, -, -, -, -, he⟩ := ready?_spec h
  have hact : e.act = e.c.acting d e.x.regs := by rw [he]
  rw [hact, Clause.acting] at ht
  split at ht
  · exact ht
  · rw [inMask_and, Bool.and_eq_true] at ht
    exact ht.1

/-- A ready branch stands last in its clause (R65). -/
theorem ready?_branch_last {s : State} {d : Need} {e : Env} (h : s.ready? d = some e) (hd : d.branch = true) : e.c.idx + 1 = e.c.words.length := by
  obtain ⟨-, -, -, -, -, -, ht, -⟩ := ready?_spec h
  simp only [State.timely, Bool.and_eq_true, Bool.not_eq_true', illegalHere, Bool.or_eq_false_iff, hd, Bool.true_and, bne_eq_false_iff_eq] at ht
  omega

end Sys2Proof.Machine
end

section
/-! SUPPORT. Control instructions: where a completed warp's threads stand, the traps that follow an instruction, and a clause that yields. -/
namespace Sys2Proof.Machine
set_option Elab.async false

/-! ### Traps at an instruction -/

/-- A fault record as it is laid out (R283). -/
theorem faultRecord_eq (t : TrapInfo) (index : Nat) (caddr : DWord) (wtag : BitVec 8) :
    faultRecord t index caddr wtag =
      [0#6 ++ BitVec.ofNat 4 index ++ caddr.extractLsb' 3 54,
       0#8 ++ t.reason ++ 0#2 ++ BitVec.ofBool t.lowv ++ (if t.lowv then BitVec.ofNat 5 t.lowest else 0) ++ t.code ++ t.mask,
       t.addr,
       0#24 ++ wtag ++ t.imm] :=
  congrArg₂ List.cons (Option.some.inj (faultRecord_where t index caddr wtag)) (congrArg₂ List.cons (Option.some.inj (faultRecord_what t index caddr wtag))
    (congrArg (t.addr :: ·) (congrArg (· :: []) (Option.some.inj (faultRecord_tag t index caddr wtag)))))

/-- A trap taken by a warp that the instruction's body left with its WCR is a trap of the instruction. -/
theorem Traps.of_takeTrap {s t : State} {e : Env} {y : Warp} (hw : t.warp? s.cur = some y) (hwcr : y.wcr = e.x.wcr)
    (others : ∀ v, v ≠ s.cur → t.regs v = s.regs v) (i : TrapInfo) (done : Bool) (before : done = false → t.regs s.cur = s.regs s.cur) :
    Traps s (t.takeTrap s.cur i e.c.iset e.c.addr e.c.idx done false) e i done where
  state := by rw [State.warp?_takeTrap hw]; rfl
  fault := by
    rw [State.warp?_takeTrap hw, ← hwcr]
    exact congrArg some (faultRecord_eq ..)
  resume := by rw [State.warp?_takeTrap hw]; rfl
  before hd := by rw [(SameRegs.takeTrap ..).regs, before hd]
  warps v hv := by rw [(SameRegs.takeTrap ..).regs, others v hv]

/-- A trap of a ready instruction that takes no effect (R85). -/
theorem Traps.of_ready {s : State} {d : Need} {e : Env} (h : s.ready? d = some e) {body : Env → Res} {i : TrapInfo} (hb : body e = .trap i) :
    ∃ t, issue d body s = .next t ∧ Traps s t e i false := by
  obtain ⟨hx, hc, -⟩ := ready?_spec h
  refine ⟨s.takeTrap s.cur i e.c.iset e.c.addr e.c.idx false false, ?_, Traps.of_takeTrap hx rfl (fun _ _ => rfl) i false (fun _ => rfl)⟩
  rw [issue_ready h, hb, settle_trap h, State.trapHere]
  simp [hx, hc]

/-- A trap that follows a ready instruction that is done (R85, R410): its own, or STEP. -/
theorem Traps.of_done {s t : State} {d : Need} {e : Env} {y : Warp} {f : Finish} (h : s.ready? d = some e) {body : Env → Res}
    (hb : body e = .done t f) (ht : Touched s t y) (hc : y.clause = some e.c) (hwcr : y.wcr = e.x.wcr) (ha : y.ahead = false) {i : TrapInfo}
    (hi : f.trap = some i ∨ f.trap = none ∧ wcrStep e.x.wcr = true ∧ i = { code := codeStep, mask := e.c.iset }) :
    ∃ u, issue d body s = .next u ∧ Traps s u e i true := by
  refine ⟨_, issue_done h hb ht hc, ?_⟩
  have taken : ∀ u : State, u.aftermath s.cur y e.c (f.noted (if d.whole then fullMask else e.act) s.accs.length) =
      u.takeTrap s.cur i e.c.iset e.c.addr e.c.idx true false := by
    intro u
    have noted : (f.noted (if d.whole then fullMask else e.act) s.accs.length).trap = f.trap := rfl
    unfold State.aftermath
    rcases hi with hi | ⟨hi, hstep, rfl⟩
    · rw [noted, hi]
    · rw [noted, hi]
      simp [hwcr, hstep, ha]
  rw [taken]
  refine Traps.of_takeTrap (y := y.completed e.c _) (State.warp?_modWarp_const ht.warp _) hwcr (fun v hv => ?_) i true (fun h => nomatch h)
  rw [State.regs_modWarp_ne _ hv, ht.warps v hv]

/-! ### What a ready instruction sees -/

theorem ready?_env {s : State} {d : Need} {e : Env} (h : s.ready? d = some e) : e.s = s ∧ e.w = s.cur ∧ e.regs = e.x.regs := by
  obtain ⟨-, -, -, -, -, -, -, -, he⟩ := ready?_spec h
  exact ⟨by rw [he], by rw [he], by rw [he]⟩

/-! ### Threads of a completed warp -/

/-- The LPC entry of a thread of the current warp after an instruction is done. -/
theorem Touched.lane {s t : State} {y : Warp} (h : Touched s t y) (c : Clause) (f : Finish) (u : Nat) :
    ((t.modWarp s.cur (fun _ => y.completed c f)).aftermath s.cur y c f).lane u = (y.completed c f).regs.lpc[u]? := by
  have cur : ((t.modWarp s.cur (fun _ => y.completed c f)).aftermath s.cur y c f).cur = s.cur :=
    (State.aftermath_cur ..).trans (State.cur_of_others h.others)
  rw [State.lane, cur, h.regs]

@[simp] theorem inMask_zero (u : Nat) : inMask 0#32 u = false := by simp [inMask]

@[simp] theorem Finish.noted_moved (f : Finish) (m : Mask) (n : Nat) : (f.noted m n).moved = f.moved := rfl

/-- A thread outside the issue set does not act. -/
theorem ready?_act_out {s : State} {d : Need} {e : Env} (h : s.ready? d = some e) {u : Nat} (hu : inMask e.c.iset u = false) : inMask e.act u = false := by
  by_contra acts
  rw [ready?_act_sub h (by simpa using acts)] at hu
  cases hu

/-- Where the threads of a clause go once its last instruction is done: those it moved as it says, the rest of the issue set to the word after the
clause (R17). -/
theorem Touched.moves {s t : State} {y : Warp} {e : Env} {f : Finish} (h : Touched s t y) {g : Nat → Lpc → Lpc} {dest : Nat → BitVec 54}
    {st : Nat → LaneState → LaneState} (last : e.c.idx + 1 = e.c.words.length) (lanes : ∀ u, y.regs.lpc[u]? = (s.lane u).map (g u))
    (inside : ∀ u l, inMask e.c.iset u = true →
      (if inMask f.moved u then g u l else { g u l with waddr := e.c.next }) = { st := st u l.st, age := l.age, waddr := dest u })
    (outside : ∀ u l, inMask e.c.iset u = false → g u l = l) :
    Moves s ((t.modWarp s.cur (fun _ => y.completed e.c f)).aftermath s.cur y e.c f) e dest st := by
  intro u _
  rw [h.lane, Warp.completed_lane, lanes, Option.map_map]
  cases hi : inMask e.c.iset u
  · cases s.lane u <;> simp [outside _ _ hi]
  · rw [if_pos rfl]
    congr 1
    funext l
    rw [← inside u l hi]
    cases inMask f.moved u <;> simp [last]

/-- An instruction inside its clause is followed by the next word (R17). -/
theorem State.aftermath_inside (s : State) (w : Nat) {x : Warp} {c : Clause} {f : Finish} (ht : f.trap = none) (hs : wcrStep x.wcr = false)
    (hi : c.idx + 1 < c.words.length) : s.aftermath w x c f = s := by
  simp [State.aftermath, ht, hs, hi.ne]

/-- An instruction that ends its clause is followed by the clause boundary. -/
theorem State.aftermath_last (s : State) (w : Nat) {x : Warp} {c : Clause} {f : Finish} (ht : f.trap = none) (hs : wcrStep x.wcr = false)
    (hi : c.idx + 1 = c.words.length) : s.aftermath w x c f = s.boundary w := by
  simp [State.aftermath, ht, hs, hi]

/-- Completing an instruction moves threads and ends none. -/
theorem Warp.completed_allExited (x : Warp) (c : Clause) (f : Finish) : (x.completed c f).allExited = x.allExited := by
  have states : (x.completed c f).regs.lpc.map Lpc.st = x.regs.lpc.map Lpc.st := by
    refine List.ext_getElem? fun u => ?_
    rw [List.getElem?_map, Warp.completed_lane, Option.map_map, List.getElem?_map]
    congr 1
    funext e
    simp only [Function.comp]
    split <;> rfl
  have exited : ∀ l : List Lpc, l.all (fun e => e.st == .exited) = (l.map Lpc.st).all (· == .exited) := fun l => by rw [List.all_map]; rfl
  rw [Warp.allExited, exited, states, ← exited, Warp.allExited]

/-! ### Clauses that yield (R221) -/

theorem State.openArrival_of_unwarped {s t : State} (h : t.unwarped = s.unwarped) (w : Nat) : t.openArrival w = s.openArrival w := by
  show t.unwarped.openArrival w = s.unwarped.openArrival w
  rw [h]

theorem State.clk_of_unwarped {s t : State} (h : t.unwarped = s.unwarped) : t.clk = s.clk := by
  show t.unwarped.clk = s.unwarped.clk
  rw [h]

/-- A warp with nothing to wait for but an interval is held by it. -/
theorem State.settleHold_yield {s : State} {w : Nat} {x : Warp} (hx : s.warp? w = some x) (ho : s.openArrival w = none) (hw : x.pendWait = [])
    (hd : x.pendDrain = []) (hl : s.clk < x.wakeAt) :
    (s.settleHold w).warp? w = some { x with hold := .yield x.wakeAt, pendDrain := [] } := by
  have waits : (!x.pendWait.isEmpty) = false := by rw [hw]; rfl
  have drains : (!x.pendDrain.all (s.drainMet w)) = false := by rw [hd]; rfl
  unfold State.settleHold
  simp only [hx, ho, waits, drains, Bool.false_eq_true, if_false, hl, if_true]
  rw [State.warp?_modWarp, if_pos rfl, hx]
  rfl

/-- Meeting its context's LOADF and LOSTMAX leaves a warp's other fields. -/
theorem State.warp?_meetLoad {s : State} {w : Nat} {x : Warp} (hx : s.warp? w = some x) :
    ∃ lf lm, (s.meetLoad w).warp? w = some { x with loadF := lf, lostMax := lm } := by
  unfold State.meetLoad
  split
  · exact ⟨x.loadF, x.lostMax, hx⟩
  · rename_i c _
    exact ⟨c.loadF, c.lostMax, by rw [State.warp?_modWarp, if_pos rfl, hx]; rfl⟩

theorem State.meetLoad_unwarped (s : State) (w : Nat) : (s.meetLoad w).unwarped = s.unwarped := by
  unfold State.meetLoad
  split <;> rfl

/-- A clause boundary after a YIELD: the warp issues nothing until the interval has passed, where nothing else holds it (R221). -/
theorem State.boundary_yield {s : State} {w : Nat} {x : Warp} {n : Nat} (hx : s.warp? w = some x) (hex : x.allExited = false)
    (ho : s.openArrival w = none) (hw : x.pendWait = []) (hd : x.pendDrain = []) (hy : x.pendYield = some n) (hn : 0 < n) :
    ∃ y, (s.boundary w).warp? w = some y ∧ y.hold = .yield (s.clk + n) ∧ y.yielded = true := by
  unfold State.boundary
  simp only [hx, hex, Bool.false_and, Bool.false_eq_true, if_false]
  obtain ⟨lf, lm, hm⟩ := State.warp?_meetLoad hx
  generalize hf : (fun x' : Warp => ({ x' with
    lease := _, nextLease := none, clause := none, pipe := none, pendYield := none
    wakeAt := (x'.pendYield.map (s.clk + ·)).getD x'.wakeAt
    yielded := x'.yielded || x'.pendYield.isSome } : Warp)) = f
  have hmod : ((s.meetLoad w).modWarp w f).warp? w = some (f { x with loadF := lf, lostMax := lm }) := by
    rw [State.warp?_modWarp, if_pos rfl, hm]; rfl
  have released := Reloaded.releaseCharge ((s.meetLoad w).modWarp w f) w (leaseGran x.lease)
  obtain ⟨y, hy', hyx⟩ := released.warp? hmod
  have rest : (((s.meetLoad w).modWarp w f).releaseCharge w (leaseGran x.lease)).unwarped = s.unwarped := released.rest.trans (State.meetLoad_unwarped s w)
  have wake : y.wakeAt = s.clk + n := by
    rw [show y.wakeAt = y.unplaced.wakeAt from rfl, hyx, ← hf]
    simp [Warp.unplaced, hy]
  refine ⟨_, State.settleHold_yield hy' ((State.openArrival_of_unwarped rest w).trans ho) ?_ ?_ ?_, congrArg Hold.yield wake, ?_⟩
  · rw [show y.pendWait = y.unplaced.pendWait from rfl, hyx, ← hf]; exact hw
  · rw [show y.pendDrain = y.unplaced.pendDrain from rfl, hyx, ← hf]; exact hd
  · rw [wake, State.clk_of_unwarped rest]; omega
  · show y.yielded = true
    rw [show y.yielded = y.unplaced.yielded from rfl, hyx, ← hf]
    simp [Warp.unplaced, hy]

/-- The warp that a YIELD leaves: the largest interval of its clause counts. -/
def Warp.yielding (x : Warp) (n : BitVec 16) : Warp := { x with pendYield := some (max (x.pendYield.getD 0) n.toNat) }

/-! ### The instructions -/

theorem RegsLeave.refl (r : Regs) (ds : List Reg) : RegsLeave r r ds := .of_sameData ⟨rfl, rfl, rfl, rfl, rfl⟩ ds

theorem RegsLeave.setLane (r : Regs) (m : Mask) (st : LaneState) (ds : List Reg) : RegsLeave r (r.setLane m st) ds :=
  .of_sameData (r := r) (q := r.setLane m st) ⟨rfl, rfl, rfl, rfl, rfl⟩ ds

/-- EXIT and JOIN: acting threads take the state, and the issue set goes to the word after the clause (R17 to R20). -/
theorem setLane_moves {s : State} {h : Head} {e : Env} (hr : s.ready? (branchNeed h [] [] none) = some e) (st : LaneState) :
    ∃ t, issue (branchNeed h [] [] none) (fun e =>
        .done (e.s.modWarp e.w (fun x => { x with regs := e.regs.setLane e.act st })) { head := h }) s = .next t ∧
      (wcrStep e.x.wcr = false → Leaves s t [] false) ∧
      Moves s t e (fun _ => e.c.next) (fun v l => if inMask e.act v then st else l) := by
  obtain ⟨hx, hc, -⟩ := ready?_spec hr
  obtain ⟨hes, hew, hregs⟩ := ready?_env hr
  have ht : Touched s (e.s.modWarp e.w (fun x => { x with regs := e.regs.setLane e.act st })) { e.x with regs := e.regs.setLane e.act st } := by
    rw [hes, hew]
    exact Touched.modWarp hx (fun x => { x with regs := e.regs.setLane e.act st })
  refine ⟨_, issue_done hr rfl ht hc, fun hs => ?_, ?_⟩
  · rw [hregs]
    rw [hregs] at ht
    exact ht.leaves hx rfl hs (.setLane ..) rfl rfl rfl rfl
  · refine ht.moves (g := fun u l => if inMask e.act u then { l with st := st } else l) (ready?_branch_last hr rfl)
      (fun u => ?_) (fun u l _ => ?_) (fun u l out => ?_)
    · rw [Regs.setLane_lane, hregs, State.lane, State.regs_of_warp? hx]
    · cases inMask e.act u <;> simp
    · rw [if_neg (by rw [ready?_act_out hr out]; exact Bool.false_ne_true)]

end Sys2Proof.Machine

open Sys2Proof.Machine in
/-- Settles O21: EXIT and JOIN by `setLane_moves`, YIELD by `State.boundary_yield`, the traps by `Traps.of_done` and `Traps.of_ready`. -/
theorem controlInstructions : Obligations.ControlInstructions := by
  unfold Obligations.ControlInstructions
  refine ⟨?exitJoin, fun h n => ⟨?nop, ?yield⟩, fun h imm => ⟨?trap, ?brk, ?step⟩⟩
  case exitJoin =>
    intro h i hi s e _ _ hr
    simp only [List.mem_cons, List.not_mem_nil, or_false] at hi
    obtain rfl | rfl := hi
    · exact setLane_moves hr .exited
    · exact setLane_moves hr .joined
  case nop =>
    intro s e _ hr hs
    obtain ⟨hx, hc, -⟩ := ready?_spec hr
    obtain ⟨hes, -, -⟩ := ready?_env hr
    have ht : Touched s e.s e.x := by rw [hes]; exact .refl hx
    have done : execNop h s = .next _ := issue_done hr rfl ht hc
    refine ⟨_, done, ht.leaves hx rfl hs (.refl ..) rfl rfl rfl rfl, fun hi => ?_⟩
    rw [State.aftermath_inside _ _ rfl hs hi, State.warp?_modWarp_const ht.warp]
    simp [Warp.completed, hi.ne, Finish.noted]
  case yield =>
    intro s e _ hr hs
    obtain ⟨hx, hc, -⟩ := ready?_spec hr
    obtain ⟨hes, hew, -⟩ := ready?_env hr
    have ht : Touched s (e.s.modWarp e.w (·.yielding n)) (e.x.yielding n) := by
      rw [hes, hew]
      exact Touched.modWarp hx (·.yielding n)
    have done : execYield h n s = .next _ := issue_done (t := e.s.modWarp e.w (·.yielding n)) hr rfl ht hc
    have hs' : wcrStep (e.x.yielding n).wcr = false := hs
    refine ⟨_, done, ht.leaves hx rfl hs (.refl ..) rfl rfl rfl rfl, fun hi => ?_, fun hi hex hw hd ho hn => ?_⟩
    · rw [State.aftermath_inside _ _ rfl hs' hi, State.warp?_modWarp_const ht.warp]
      rfl
    · rw [State.aftermath_last _ _ rfl hs' hi]
      have ho' : (e.s.modWarp e.w (·.yielding n)).openArrival s.cur = none := by rw [hes]; exact ho
      have pos : 0 < max (e.x.pendYield.getD 0) n.toNat := by
        have : n.toNat ≠ 0 := fun h0 => hn (BitVec.eq_of_toNat_eq h0)
        omega
      obtain ⟨y, hy, hold, yielded⟩ := State.boundary_yield (x := (e.x.yielding n).completed e.c _) (State.warp?_modWarp_const ht.warp _)
        ((Warp.completed_allExited ..).trans hex) ho' hw hd rfl pos
      rw [hy]
      refine ⟨congrArg some (hold.trans ?_), congrArg some yielded⟩
      rw [hes]
      rfl
  case trap =>
    intro s e _ hr
    obtain ⟨hx, hc, -, -, ha, -⟩ := ready?_spec hr
    obtain ⟨hes, -, -⟩ := ready?_env hr
    have ht : Touched s e.s e.x := by rw [hes]; exact .refl hx
    have done : ∃ t, execTrap h imm s = .next t ∧ Traps s t e { code := codeTrapi, mask := e.act, imm := imm } true :=
      Traps.of_done hr rfl ht hc rfl ha (.inl rfl)
    exact done
  case brk =>
    intro s e _ hr
    have taken : ∃ t, execBrk h imm s = .next t ∧ Traps s t e { code := codeBrk, mask := e.c.iset, imm := imm } false := Traps.of_ready hr rfl
    exact taken
  case step =>
    intro s e _ hr hs
    obtain ⟨hx, hc, -, -, ha, -⟩ := ready?_spec hr
    obtain ⟨hes, -, -⟩ := ready?_env hr
    have ht : Touched s e.s e.x := by rw [hes]; exact .refl hx
    have done : ∃ t, execNop h s = .next t ∧ Traps s t e { code := codeStep, mask := e.c.iset } true :=
      Traps.of_done hr rfl ht hc rfl ha (.inr ⟨rfl, hs, rfl⟩)
    exact done
end

section
/-! SUPPORT. Masks as sets of threads, and what writing results leaves of map tables. -/
namespace Sys2Proof.Machine
set_option Elab.async false

/-! ### Masks -/

theorem mask_eq_zero_iff (m : Mask) : m = 0 ↔ ∀ t < 32, inMask m t = false := by
  refine ⟨fun h t _ => by simp [h, inMask], fun h => BitVec.eq_of_getLsbD_eq fun t ht => ?_⟩
  rw [show m.getLsbD t = inMask m t from rfl, h t ht]
  simp

theorem inMask_not (m : Mask) {t : Nat} (h : t < 32) : inMask (~~~m) t = !inMask m t := by simp [inMask, h]

theorem foldl_or_getLsbD (p : Nat → Bool) (ts : List Nat) (m : Mask) {t : Nat} (h : t < 32) :
    (ts.foldl (fun m u => if p u then m ||| (1#32 <<< u) else m) m).getLsbD t = (m.getLsbD t || ts.any (fun u => u == t && p u)) := by
  induction ts generalizing m with
  | nil => simp
  | cons u us ih =>
    rw [List.foldl_cons, ih, List.any_cons]
    have bit : (1#32 <<< u).getLsbD t = (u == t) := by
      rw [← BitVec.twoPow_eq, BitVec.getLsbD_twoPow]
      by_cases hu : u = t
      · simp [hu, h]
      · simp [hu]
    cases hp : p u
    · simp
    · simp [bit, Bool.or_assoc]

/-- The mask of a test holds the threads that satisfy it. -/
theorem inMask_maskOf (p : Nat → Bool) {t : Nat} (h : t < 32) : inMask (maskOf p) t = p t := by
  rw [inMask, maskOf, foldl_or_getLsbD p threads 0 h]
  simp only [BitVec.ofNat_eq_ofNat, BitVec.getLsbD_zero, Bool.false_or]
  cases hp : p t
  · rw [List.any_eq_false]
    intro u _
    by_cases hu : u = t
    · simp [hu, hp]
    · simp [hu]
  · exact List.any_eq_true.mpr ⟨t, mem_threads.mpr h, by simp [hp]⟩

theorem maskOf_eq_zero {p : Nat → Bool} (h : ∀ t < 32, p t = false) : maskOf p = 0 :=
  (mask_eq_zero_iff _).mpr fun t ht => (inMask_maskOf p ht).trans (h t ht)

/-- Threads of one outcome do not dissent (R21). -/
theorem dissent_eq_zero {act : Mask} {out : Nat → BitVec 54} (h : ∀ t < 32, inMask act t = true → out t = out (lowestOf act)) : dissent act out = 0 := by
  refine maskOf_eq_zero fun t ht => ?_
  cases ha : inMask act t
  · rfl
  · simp [h t ht ha]

/-- The threads that take a branch, by its kind (R217). -/
theorem inMask_takers (act c : Mask) (kind : BrKind) (t : Nat) : inMask (takers act kind c) t = (inMask act t && (match kind with
    | .each => inMask c t
    | .any => threads.any (fun v => inMask act v && inMask c v)
    | .all => threads.all (fun v => !inMask act v || inMask c v))) := by
  cases kind with
  | each => exact inMask_and act c t
  | any =>
    show inMask (if act &&& c = 0 then 0 else act) t = (inMask act t && threads.any (fun v => inMask act v && inMask c v))
    have any_iff : threads.any (fun v => inMask act v && inMask c v) = true ↔ act &&& c ≠ 0 := by
      rw [Ne, mask_eq_zero_iff, List.any_eq_true]
      push Not
      simp only [mem_threads, inMask_and, ne_eq, Bool.not_eq_false]
    by_cases none_ : act &&& c = 0
    · rw [if_pos none_, Bool.eq_false_iff.mpr (fun h => any_iff.mp h none_)]
      simp
    · rw [if_neg none_, any_iff.mpr none_, Bool.and_true]
  | all =>
    show inMask (if act &&& ~~~c = 0 then act else 0) t = (inMask act t && threads.all (fun v => !inMask act v || inMask c v))
    have all_iff : threads.all (fun v => !inMask act v || inMask c v) = true ↔ act &&& ~~~c = 0 := by
      rw [mask_eq_zero_iff, List.all_eq_true]
      refine forall_congr' fun v => ⟨fun h hv => ?_, fun h hv => ?_⟩
      · have one := h (mem_threads.mpr hv)
        rw [inMask_and, inMask_not c hv]
        revert one
        cases inMask act v <;> cases inMask c v <;> simp
      · have one := h (mem_threads.mp hv)
        rw [inMask_and, inMask_not c (mem_threads.mp hv)] at one
        revert one
        cases inMask act v <;> cases inMask c v <;> simp
    by_cases all_ : act &&& ~~~c = 0
    · rw [if_pos all_, all_iff.mpr all_, Bool.and_true]
    · rw [if_neg all_, Bool.eq_false_iff.mpr (fun h => all_ (all_iff.mp h))]
      simp

/-! ### Tables that others use -/

/-- How many of a list of registers carry the tag of table k. -/
def Regs.usersOf (r : Regs) (ds : List Reg) (k : Nat) : Nat :=
  (ds.filter (fun g => tagClass (r.vreg g).tag == 5 && tagTix (r.vreg g).tag == k)).length

theorem refTag_release_ref (mt : List MapTable) (t : BitVec 16) (k : Nat) : ((refTag mt t (· - 1)).getD k .free).ref =
    (mt.getD k .free).ref - (if tagClass t == 5 && tagTix t == k then 1 else 0) := by
  unfold refTag
  split
  next h5 =>
    simp only [List.getD, List.getElem?_modify, h5, Bool.true_and, beq_iff_eq]
    split
    · cases mt[k]? <;> simp [MapTable.free]
    · simp
  next h5 => simp [h5]

/-- Releasing the tags of registers takes each off its table's references (R41). -/
theorem releaseTags_ref (r : Regs) (ds : List Reg) (k : Nat) :
    ((releaseTags r ds).mt.getD k .free).ref = (r.mt.getD k .free).ref - r.usersOf ds k := by
  show ((ds.foldl (fun mt d => refTag mt (r.vreg d).tag (· - 1)) r.mt).getD k .free).ref = _
  generalize r.mt = mt
  induction ds generalizing mt with
  | nil => rfl
  | cons d ds ih =>
    rw [List.foldl_cons, ih, refTag_release_ref]
    unfold Regs.usersOf
    rw [List.filter_cons]
    split
    · simp only [List.length_cons]
      omega
    · rfl

/-- A table with a reference is not free. -/
theorem freeTable_ref {mt : List MapTable} {k : Nat} (h : freeTable mt = some k) : (mt.getD k .free).ref = 0 := by
  simpa using List.find?_some h

/-- A table stays free as tags are released. -/
theorem freeTable_releaseTags {r : Regs} (ds : List Reg) (h : 1 ≤ r.freeTables) : (freeTable (releaseTags r ds).mt).isSome = true := by
  obtain ⟨k, hk⟩ := List.exists_mem_of_length_pos (show 0 < ((List.range 16).filter (fun k => (r.mt.getD k .free).ref == 0)).length from h)
  obtain ⟨h16, hfree⟩ := List.mem_filter.mp hk
  refine List.find?_isSome.mpr ⟨k, h16, ?_⟩
  rw [releaseTags_ref, eq_of_beq hfree, Nat.zero_sub]
  rfl

theorem releaseTags_ents (r : Regs) (ds : List Reg) (k : Nat) : ((releaseTags r ds).mt.getD k .free).ents = (r.mt.getD k .free).ents :=
  foldl_refTag_ents ds (fun d => (r.vreg d).tag) (· - 1) r.mt k

theorem giveTag_ents (r : Regs) (ds : List Reg) (t : BitVec 16) (k : Nat) : ((giveTag r ds t).mt.getD k .free).ents = (r.mt.getD k .free).ents := by
  unfold giveTag
  rw [foldl_setVreg_mt ds (fun r d => { r.vreg d with tag := t })]
  exact foldl_refTag_ents ds (fun _ => t) (· + 1) r.mt k

/-- Writing a map leaves the entries of every table that a register outside its destination uses (R40, R41). -/
theorem writeMap_ents {r : Regs} {ds : List Reg} {m : LMap} {byRef : Option (BitVec 16)} {l : LaneRes} (h : writeMap r ds m byRef = .ok l) {k : Nat}
    (hk : r.usersOf ds k < (r.mt.getD k .free).ref) : (l.regs.mt.getD k .free).ents = (r.mt.getD k .free).ents := by
  have released := releaseTags_ents r ds k
  unfold writeMap at h
  simp only at h
  split at h
  · obtain rfl := Except.ok.inj h
    rw [giveTag_ents, released]
  · split at h
    · obtain rfl := Except.ok.inj h
      rw [giveTag_ents, released]
    · split at h
      · rename_i j hj
        obtain rfl := Except.ok.inj h
        have used : ((releaseTags r ds).mt.getD k .free).ref ≠ 0 := by rw [releaseTags_ref]; omega
        have other : j ≠ k := fun hjk => used (hjk ▸ freeTable_ref hj)
        rw [giveTag_ents, ← released]
        simp [List.getD, other]
      · split at h
        · cases h
        · obtain rfl := Except.ok.inj h
          rw [giveTag_ents, foldl_setVreg_mt ds (fun r d => { r.vreg d with slots := fireSlots (r.vreg d).slots m }), released]

/-! ### Registers as results are written to their slots -/

/-- Slots written, tags and tables as they were. -/
structure SlotsOnly (r q : Regs) : Prop where
  mt : q.mt = r.mt
  tag : ∀ g, (q.vreg g).tag = (r.vreg g).tag

theorem SlotsOnly.refl (r : Regs) : SlotsOnly r r := ⟨rfl, fun _ => rfl⟩

theorem SlotsOnly.trans {r q p : Regs} (h : SlotsOnly r q) (k : SlotsOnly q p) : SlotsOnly r p :=
  ⟨k.mt.trans h.mt, fun g => (k.tag g).trans (h.tag g)⟩

theorem SlotsOnly.setVreg (r : Regs) (d : Reg) (sl : List Word) : SlotsOnly r (r.setVreg d { r.vreg d with slots := sl }) where
  mt := Regs.setVreg_mt ..
  tag g := by
    by_cases hg : g = d
    · subst hg
      cases g with
      | v n => by_cases hn : n < r.v.length <;> simp [Regs.setVreg, Regs.vreg, List.getD, hn]
      | o n => by_cases hn : n < r.o.length <;> simp [Regs.setVreg, Regs.vreg, List.getD, hn]
      | s n => rfl
      | p n => rfl
    · rw [Regs.vreg_setVreg_ne _ _ hg]

theorem SlotsOnly.writeSlot (r : Regs) (ds : List Reg) (p : Nat) (x : DWord) : SlotsOnly r (writeSlot r ds p x) := by
  unfold Sys2Proof.Machine.writeSlot
  split
  · exact .refl r
  · exact .setVreg ..
  · exact (SlotsOnly.setVreg ..).trans (.setVreg ..)

theorem SlotsOnly.fireDst (r : Regs) (ds : List Reg) : SlotsOnly r (fireDst r ds).regs := by
  unfold Sys2Proof.Machine.fireDst
  suffices ∀ q, SlotsOnly r q → SlotsOnly r (ds.foldl (fun r' d => r'.setVreg d { r'.vreg d with slots := fireSlots (r.vreg d).slots (r.map d) }) q) from
    this r (.refl r)
  induction ds with
  | nil => exact fun q hq => hq
  | cons d ds ih => exact fun q hq => ih _ (hq.trans (.setVreg ..))

theorem Regs.usersOf_congr {r q : Regs} (h : SlotsOnly r q) (ds : List Reg) (k : Nat) : q.usersOf ds k = r.usersOf ds k := by
  unfold Regs.usersOf
  simp only [h.tag]

/-- The registers of a destination once its results stand in their slots, before its map is written. -/
def placedResults (r : Regs) (ds : List Reg) (act : Mask) (an : Anchor) (res : Nat → Option DWord) : Regs :=
  writeLoop ds act an.slots res threads (if an.fire then fireDst r ds else { regs := r } : LaneRes).regs

theorem SlotsOnly.placedResults (r : Regs) (ds : List Reg) (act : Mask) (an : Anchor) (res : Nat → Option DWord) :
    SlotsOnly r (placedResults r ds act an res) := by
  refine writeLoop_keeps (SlotsOnly r) ds act an.slots res (fun q p x hq => hq.trans (.writeSlot ..)) threads _ ?_
  split
  · exact .fireDst r ds
  · exact .refl r

/-- Results are placed in their slots, then their map is written. -/
theorem writeAt_eq (r : Regs) (ds : List Reg) (act : Mask) (an : Anchor) (res : Nat → Option DWord) :
    writeAt r ds act an res =
      (writeMap (placedResults r ds act an res) ds (resultMap act an res) (if resultMap act an res == an.keep then an.byRef else none)).map (fun w =>
        { w with extra := w.extra + (if an.fire then fireDst r ds else { regs := r } : LaneRes).extra
                 autofire := w.autofire + (if an.fire then fireDst r ds else { regs := r } : LaneRes).autofire }) := rfl

/-- Results can be written where a table is free. -/
theorem writeAt_ok {r : Regs} (ds : List Reg) (act : Mask) (an : Anchor) (res : Nat → Option DWord) (h : 1 ≤ r.freeTables) :
    ∃ l, writeAt r ds act an res = .ok l := by
  have fits : mapFits r ds (resultMap act an res) = true := by simp [mapFits, freeTable_releaseTags ds h]
  have slots := SlotsOnly.placedResults r ds act an res
  obtain ⟨w, hw⟩ := writeMap_ok (if resultMap act an res == an.keep then an.byRef else none) (mapFits_congr fits slots.mt (fun d _ => slots.tag d))
  exact ⟨_, by rw [writeAt_eq, hw]; rfl⟩

/-- Writing results leaves the entries of every table that a register outside their destination uses. -/
theorem writeAt_ents {r : Regs} {ds : List Reg} {act : Mask} {an : Anchor} {res : Nat → Option DWord} {l : LaneRes} (h : writeAt r ds act an res = .ok l)
    {k : Nat} (hk : r.usersOf ds k < (r.mt.getD k .free).ref) : (l.regs.mt.getD k .free).ents = (r.mt.getD k .free).ents := by
  have slots := SlotsOnly.placedResults r ds act an res
  rw [writeAt_eq] at h
  obtain ⟨w, hw, rfl⟩ := map_eq_ok h
  rw [show ({ w with extra := _, autofire := _ } : LaneRes).regs = w.regs from rfl, writeMap_ents hw (by rw [Regs.usersOf_congr slots, slots.mt]; exact hk), slots.mt]

/-- The anchor of a result with no mapped source gives each active thread a slot, and its tag describes the map it keeps (R50 to R52). -/
theorem anchorOf_plain_ok (r : Regs) (ds : List Reg) (act : Mask) : (anchorOf r ds act []).ok r.mt := by
  unfold anchorOf
  split
  · intro t ht i hi
    obtain rfl : mkTag 0 0 0 0 = t := by simpa [fullAnchor, pickAnchor] using ht
    have keep : (fullAnchor []).keep = .ident := rfl
    rw [keep, canonTag_map (m := .ident) (by simp [canonTag]) r.mt hi]
  · intro t ht i hi
    unfold partAnchor at ht ⊢
    simp only at ht ⊢
    split at ht
    · cases ht
    · obtain rfl := Option.some.inj ht
      rename_i clean
      rw [if_neg clean]
      rfl

theorem anchorOf_plain_slot (r : Regs) (ds : List Reg) (act : Mask) {t : Nat} (ht : t < 32) : ((anchorOf r ds act []).slots.at t).isSome = true := by
  unfold anchorOf
  split
  · have slots : (fullAnchor []).slots = .ident := rfl
    rw [slots, ident_at ht]
    rfl
  · unfold partAnchor
    simp only
    rw [ofFn_at _ ht]
    rfl

/-! ### The shape of register files -/

theorem shaped_regs {s : State} {w : Nat} {x : Warp} (h : s.shaped = true) (hx : s.warp? w = some x) : x.regs.shaped = true := by
  have all := (Bool.and_eq_true_iff.mp h).1
  have mem : x ∈ s.warps := List.mem_of_getElem? hx
  exact (Bool.and_eq_true_iff.mp (List.all_eq_true.mp all x mem)).1

theorem Regs.shaped_slots {r : Regs} (h : r.shaped = true) (g : Reg) : (r.vreg g).slots.length = 32 := by
  simp only [Regs.shaped, Bool.and_eq_true, List.all_eq_true, beq_iff_eq] at h
  obtain ⟨⟨⟨⟨⟨⟨⟨⟨⟨hv, -⟩, ho⟩, -⟩, -⟩, -⟩, -⟩, -⟩, -⟩, -⟩ := h
  have zero : VReg.zero.slots.length = 32 := by simp [VReg.zero]
  have got : ∀ l : List VReg, (∀ x ∈ l, x.slots.length = 32) → ∀ n, (l.getD n .zero).slots.length = 32 := by
    intro l hl n
    rw [List.getD_eq_getElem?_getD]
    cases hn : l[n]? with
    | none => exact zero
    | some x => exact hl x (List.mem_of_getElem? hn)
  cases g with
  | v n => exact got r.v hv n
  | o n => exact got r.o ho n
  | s n => exact zero
  | p n => exact zero

theorem Regs.shaped_tables {r : Regs} (h : r.shaped = true) : r.mt.length = 16 := by
  simp only [Regs.shaped, Bool.and_eq_true, beq_iff_eq] at h
  obtain ⟨⟨⟨⟨⟨-, hmt⟩, -⟩, -⟩, -⟩, -⟩ := h
  exact hmt

end Sys2Proof.Machine
end

section
/-! SUPPORT. Branches: threads that agree move, and a call links them. -/
namespace Sys2Proof.Machine
set_option Elab.async false

theorem Moves.congr {s t : State} {e : Env} {dest dest' : Nat → BitVec 54} {st : Nat → LaneState → LaneState} (h : Moves s t e dest st)
    (same : ∀ u < 32, dest u = dest' u) : Moves s t e dest' st := by
  intro u hu
  rw [h u hu, same u hu]

theorem RegsLeave.setWaddr {r q : Regs} {ds : List Reg} (h : RegsLeave r q ds) (m : Mask) (f : Nat → BitVec 54) : RegsLeave r (q.setWaddr m f) ds :=
  h.trans_sameData (p := q.setWaddr m f) ⟨rfl, rfl, rfl, rfl, rfl⟩

/-- A branch whose acting threads agree, or need not, moves them to their outcomes and the rest of the issue set to the word after the clause (R17, R21). -/
theorem branch_done {s : State} {d d' : Need} {e : Env} (hr : s.ready? d = some e) (hb : d.branch = true) {u : Bool} {out : Nat → BitVec 54} {l : LaneRes}
    {body : Env → Res} (hbody : body e = e.branch d' u out l) (agree : u = false ∨ dissent e.act out = 0) {ds : List Reg}
    (hl : RegsLeave e.x.regs l.regs ds) (hlpc : l.regs.lpc = e.x.regs.lpc) (hsb : l.regs.sb = e.x.regs.sb) (hdraws : l.regs.draws = e.x.regs.draws) :
    ∃ t, issue d body s = .next t ∧ (wcrStep e.x.wcr = false → Leaves s t ds false) ∧
      Moves s t e (fun v => if inMask e.act v then out v else e.c.next) (fun _ l => l) ∧ (t.regs s.cur).sameData l.regs := by
  obtain ⟨hx, hc, -⟩ := ready?_spec hr
  have goes : (u && dissent e.act out != 0) = false := by
    rcases agree with hu | hd
    · rw [hu]; rfl
    · rw [hd]; simp
  have ht := Touched.put hr { l with regs := l.regs.setWaddr e.act out }
  have hdone : body e = .done (e.put { l with regs := l.regs.setWaddr e.act out })
      { head := d'.head, extra := l.extra + (if u then 0 else 1), lat := d'.lat, moved := e.act, writes := if d'.lat.isSome then d'.writes else [] } := by
    rw [hbody, Env.branch, if_neg (by rw [goes]; exact Bool.false_ne_true)]
  refine ⟨_, issue_done hr hdone ht hc, fun hs => ht.leaves hx rfl hs (hl.setWaddr ..) hsb hdraws rfl rfl, ?_, ?_⟩
  · refine ht.moves (g := fun v l => if inMask e.act v then { l with waddr := out v } else l) (ready?_branch_last hr hb) (fun v => ?_) (fun v l _ => ?_)
      (fun v l outside => ?_)
    · rw [Regs.setWaddr_lane, hlpc, State.lane, State.regs_of_warp? hx]
    · rw [Finish.noted_moved]
      cases inMask e.act v <;> rfl
    · rw [ready?_act_out hr outside]
      rfl
  · rw [ht.regs]
    exact ⟨rfl, rfl, rfl, rfl, rfl⟩

/-- Where a relative branch sends a thread: where it takes the branch, the target; else the word after the clause (R73, R217). -/
theorem relTarget_eq (e : Env) (take : Mask) (off : BitVec 32) (t : Nat) : e.relTarget take off t =
    if inMask take t then (e.c.addr + BitVec.ofNat 64 (8 * (e.c.idx + 1)) + off.signExtend 64 * 8).extractLsb' 3 54 else e.c.next := rfl

/-- A thread that takes a branch acts. -/
theorem takers_sub {act c : Mask} {kind : BrKind} {t : Nat} (h : inMask (takers act kind c) t = true) : inMask act t = true := by
  rw [inMask_takers, Bool.and_eq_true] at h
  exact h.1

/-- Threads that do not act go to the word after the clause, as a relative branch has them. -/
theorem relTarget_of_inactive {e : Env} {kind : BrKind} {c : Mask} {off : BitVec 32} (t : Nat) :
    (if inMask e.act t then e.relTarget (takers e.act kind c) off t else e.c.next) = e.relTarget (takers e.act kind c) off t := by
  cases acts : inMask e.act t
  · have stays : inMask (takers e.act kind c) t = false := by
      by_contra takes
      rw [takers_sub (by simpa using takes)] at acts
      cases acts
    rw [relTarget_eq, stays]
    rfl
  · rfl

/-- BRA (R217). -/
theorem bra_moves : Claims.BranchMoves := by
  intro h u kind cond off s e _ _ hr
  obtain ⟨-, -, hregs⟩ := ready?_env hr
  intro c acts takes target out agree
  have same : ∀ t, out t = e.relTarget (takers e.act kind (predSpec e.regs cond)) off t := fun t => by
    cases kind <;> simp only [relTarget_eq, inMask_takers] <;> rfl
  obtain ⟨t, hex, leaves, moves, -⟩ := branch_done (ds := []) (d' := branchNeed h (predReads cond) [] none)
    (body := fun e => e.branch (branchNeed h (predReads cond) [] none) u (e.relTarget (takers e.act kind (predSpec e.regs cond)) off) { regs := e.regs })
    hr rfl rfl (agree.imp_right fun h => dissent_eq_zero fun t ht ha => by rw [← same, ← same, h t ht ha]) (by rw [hregs]; exact .refl ..)
    (by rw [hregs]) (by rw [hregs]) (by rw [hregs])
  exact ⟨t, hex, leaves, moves.congr fun v _ => (relTarget_of_inactive v).trans (same v).symm⟩

/-- BRX and RET (R219). -/
theorem indirect_moves (h : Head) (u : Bool) (a : Opnd) {s : State} {e : Env} (hr : s.ready? (branchNeed h (opndRegs true a) [] none) = some e)
    (fit : ∀ t < 32, inMask e.act t = true → srcVoid [e.src .n64 a] t = false ∧ (((e.src .n64 a).at t).getD 0).toNat % 8 = 0 ∧
      canonical (((e.src .n64 a).at t).getD 0) = true)
    (agree : u = false ∨ ∀ t < 32, inMask e.act t = true → ((e.src .n64 a).at t).getD 0 = ((e.src .n64 a).at (lowestOf e.act)).getD 0) :
    ∃ t, indirect h u a s = .next t ∧ (wcrStep e.x.wcr = false → Leaves s t [] false) ∧
      Moves s t e (fun v => if inMask e.act v then (((e.src .n64 a).at v).getD 0).extractLsb' 3 54 else e.c.next) (fun _ l => l) := by
  obtain ⟨-, -, hregs⟩ := ready?_env hr
  have only : ∀ p : Nat → Bool, (∀ t < 32, inMask e.act t = true → p t = false) → maskOf (fun t => inMask e.act t && p t) = 0 := fun p hp =>
    maskOf_eq_zero fun t ht => by
      cases ha : inMask e.act t
      · rfl
      · rw [hp t ht ha]; rfl
  have void := only (srcVoid [e.src .n64 a]) fun t ht ha => (fit t ht ha).1
  have mis := only (fun t => (((e.src .n64 a).at t).getD 0).extractLsb' 0 3 != 0) fun t ht ha => by
    have aligned : (((e.src .n64 a).at t).getD 0).extractLsb' 0 3 = 0 := BitVec.eq_of_toNat_eq (by
      rw [BitVec.extractLsb'_toNat]
      exact (fit t ht ha).2.1)
    rw [aligned]
    rfl
  have non := only (fun t => !canonical (((e.src .n64 a).at t).getD 0)) fun t ht ha => by rw [(fit t ht ha).2.2]; rfl
  have runs : ∃ t, indirect h u a s = .next t ∧ (wcrStep e.x.wcr = false → Leaves s t [] false) ∧
      Moves s t e (fun v => if inMask e.act v then (((e.src .n64 a).at v).getD 0).extractLsb' 3 54 else e.c.next) (fun _ l => l) ∧
      (t.regs s.cur).sameData e.regs := by
    unfold indirect
    refine branch_done (l := { regs := e.regs }) (d' := branchNeed h (opndRegs true a) [] none) (u := u) hr rfl ?_
      (agree.imp_right fun h => dissent_eq_zero fun t ht ha => by rw [h t ht ha])
      (by rw [hregs]; exact .refl ..) (by rw [hregs]) (by rw [hregs]) (by rw [hregs])
    simp only [void, mis, non]
    rfl
  obtain ⟨t, hex, leaves, moves, -⟩ := runs
  exact ⟨t, hex, leaves, moves⟩

/-- A ready instruction writes registers of its allotment (R75). -/
theorem ready?_writes_has {s : State} {d : Need} {e : Env} (hr : s.ready? d = some e) {n : Nat} (hn : .v n ∈ d.writes) : n < e.x.regs.v.length := by
  obtain ⟨-, -, -, -, -, -, ht, -⟩ := ready?_spec hr
  simp only [State.timely, Bool.and_eq_true, Bool.not_eq_true', illegalHere, Bool.or_eq_false_iff] at ht
  obtain ⟨⟨⟨⟨⟨⟨⟨-, inside⟩, -⟩, -⟩, -⟩, -⟩, -⟩, -⟩ := ht
  have one := List.any_eq_false.mp inside (.v n) (by simp [hn])
  simpa [beyond] using one

/-- CALL gives the threads that take it the return address in the pair V0, V1 (R76, R218). -/
theorem call_links : Claims.CallLinks := by
  intro h u kind cond off s e _ hsh hr
  obtain ⟨hx, -⟩ := ready?_spec hr
  obtain ⟨-, -, hregs⟩ := ready?_env hr
  intro take here out agree room
  have dissents : u = false ∨ dissent e.act out = 0 := agree.imp_right fun h => dissent_eq_zero h
  have goes : ¬(u && dissent e.act out != 0) = true := by
    rcases dissents with hu | hd
    · rw [hu]; exact Bool.false_ne_true
    · rw [hd]; simp
  have goesOn : ∀ {t : State}, Moves s t e (fun v => if inMask e.act v then out v else e.c.next) (fun _ l => l) → Moves s t e out (fun _ l => l) :=
    fun moves => moves.congr fun v _ => relTarget_of_inactive v
  by_cases none_ : take = 0
  · have runs : ∃ t, execCall h u kind cond off s = .next t ∧ (wcrStep e.x.wcr = false → Leaves s t [.v 0, .v 1] false) ∧
        Moves s t e (fun v => if inMask e.act v then out v else e.c.next) (fun _ l => l) ∧ (t.regs s.cur).sameData e.regs := by
      unfold execCall
      refine branch_done (l := { regs := e.regs }) (d' := { branchNeed h (predReads cond) [.v 0, .v 1] (some 4) with lat := none }) (u := u)
        hr rfl ?_ dissents (by rw [hregs]; exact .refl ..) (by rw [hregs]) (by rw [hregs]) (by rw [hregs])
      exact (if_neg goes).trans (if_pos none_)
    obtain ⟨t, hex, leaves, moves, -⟩ := runs
    exact ⟨t, hex, goesOn moves, fun t' ht' taken => absurd taken (by rw [(mask_eq_zero_iff take).mp none_ t' ht']; exact Bool.false_ne_true), leaves⟩
  · have shape := shaped_regs hsh hx
    rw [← hregs] at shape
    have pair : DstRegs true (.v 0) [.v 0, .v 1] := rfl
    have has : ∀ g ∈ [Reg.v 0, .v 1], e.regs.has g := by
      intro g hg
      simp only [List.mem_cons, List.not_mem_nil, or_false] at hg
      rw [hregs]
      obtain rfl | rfl := hg
      · exact ready?_writes_has hr (by simp [branchNeed])
      · exact ready?_writes_has hr (by simp [branchNeed])
    obtain ⟨l, hl⟩ := writeAt_ok [.v 0, .v 1] take (anchorOf e.regs [.v 0, .v 1] take []) (fun _ => some (here + 8)) room
    obtain ⟨given, others, rest⟩ := writeAt_spec hl pair trivial has (Regs.shaped_tables shape) (Regs.shaped_slots shape) (anchorOf_plain_ok _ _ _)
      (fun t ht _ _ => anchorOf_plain_slot _ _ _ ht)
    have runs : ∃ t, execCall h u kind cond off s = .next t ∧ (wcrStep e.x.wcr = false → Leaves s t [.v 0, .v 1] false) ∧
        Moves s t e (fun v => if inMask e.act v then out v else e.c.next) (fun _ l => l) ∧ (t.regs s.cur).sameData l.regs := by
      unfold execCall
      obtain ⟨hs, hp, hlpc, hsb, hdr⟩ := rest
      refine branch_done (d' := branchNeed h (predReads cond) [.v 0, .v 1] (some 4)) (u := u) hr rfl ?_ dissents ?_
        (by rw [hlpc, hregs]) (by rw [hsb, hregs]) (by rw [hdr, hregs])
      · have linked : plainWrite [.v 0, .v 1] take (fun _ => some (e.c.wordAddr + 8)) e.regs = .ok l := hl
        refine (if_neg goes).trans ((if_neg none_).trans ?_)
        show (match plainWrite [.v 0, .v 1] take (fun _ => some (e.c.wordAddr + 8)) e.regs with
          | .error m => Res.trap { code := codeVoidop, mask := m }
          | .ok l => e.branch (branchNeed h (predReads cond) [.v 0, .v 1] (some 4)) u out l) = _
        rw [linked]
      · rw [← hregs]
        exact ⟨others, fun n _ => by rw [hs], fun n _ => by rw [hp], fun k hk => writeAt_ents hl hk⟩
    obtain ⟨t, hex, leaves, moves, data⟩ := runs
    refine ⟨t, hex, goesOn moves, fun t' ht' taken => ?_, leaves⟩
    rw [data.element, given t' ht' taken]
    rfl

end Sys2Proof.Machine

open Sys2Proof.Machine in
/-- Settles O20: BRA by `bra_moves`, CALL by `call_links`, BRX and RET by `indirect_moves`. -/
theorem branches : Obligations.Branches := by
  unfold Obligations.Branches
  refine ⟨bra_moves, call_links, fun h u a i hi s e _ _ hr => ?_⟩
  simp only [List.mem_cons, List.not_mem_nil, or_false] at hi
  obtain rfl | rfl := hi
  · exact indirect_moves h u a hr
  · exact indirect_moves h u a hr
end

section
/-! SUPPORT. The choice of threads (R16), the fetch of a clause (R61 to R64), and how a clause starts or traps at its head. -/
namespace Sys2Proof.Machine
set_option Elab.async false

/-! ### The choice of threads -/

/-- The least of a list is the element that none is below. -/
theorem leastOf_eq {l : List Nat} {m : Nat} (hm : m ∈ l) (least : ∀ x ∈ l, m ≤ x) : leastOf l = m := by
  have low : ∀ (l : List Nat) (d : Nat), (∀ x ∈ l, l.foldr min d ≤ x) ∧ (m ≤ d → (∀ x ∈ l, m ≤ x) → m ≤ l.foldr min d) := by
    intro l d
    induction l with
    | nil => exact ⟨fun x hx => (List.not_mem_nil hx).elim, fun h _ => h⟩
    | cons y ys ih =>
      refine ⟨fun x hx => ?_, fun hd hall => ?_⟩
      · rcases List.mem_cons.mp hx with rfl | hx
        · exact Nat.min_le_left ..
        · exact (Nat.min_le_right ..).trans (ih.1 x hx)
      · exact Nat.le_min.mpr ⟨hall y (by simp), ih.2 hd fun x hx => hall x (by simp [hx])⟩
  unfold leastOf
  obtain ⟨below, above⟩ := low l (l.headD 0)
  refine Nat.le_antisymm (below m hm) (above ?_ least)
  cases l with
  | nil => cases hm
  | cons y ys => exact least y (by simp)

/-- The largest of a list of numbers taken from its elements. -/
theorem foldl_max_eq {α : Type} (f : α → Nat) {l : List α} {a : α} (ha : a ∈ l) (most : ∀ b ∈ l, f b ≤ f a) : l.foldl (fun m b => max m (f b)) 0 = f a := by
  have bounds : ∀ (l : List α) (d : Nat), d ≤ l.foldl (fun m b => max m (f b)) d ∧ (∀ b ∈ l, f b ≤ l.foldl (fun m b => max m (f b)) d) ∧
      ∀ c, d ≤ c → (∀ b ∈ l, f b ≤ c) → l.foldl (fun m b => max m (f b)) d ≤ c := by
    intro l
    induction l with
    | nil => exact fun d => ⟨Nat.le_refl d, fun b hb => (List.not_mem_nil hb).elim, fun c hc _ => hc⟩
    | cons y ys ih =>
      intro d
      obtain ⟨base, each, top⟩ := ih (max d (f y))
      refine ⟨(Nat.le_max_left ..).trans base, fun b hb => ?_, fun c hc hall => ?_⟩
      · rcases List.mem_cons.mp hb with rfl | hb
        · exact (Nat.le_max_right ..).trans base
        · exact each b hb
      · exact top c (Nat.max_le.mpr ⟨hc, hall y (by simp)⟩) fun b hb => hall b (by simp [hb])
  obtain ⟨-, each, top⟩ := bounds l 0
  exact Nat.le_antisymm (top _ (Nat.zero_le _) most) (each a ha)

theorem Lpc.eligible_iff (e : Lpc) : e.eligible = true ↔ e.st = .run ∨ e.st = .due := by simp [Lpc.eligible]

/-- The PC of the DUE thread with the largest AGE, the lowest on a tie (R16). -/
theorem choosePc_due {l : List Lpc} {u : Nat} {e : Lpc} (hu : l[u]? = some e) (hdue : e.st = .due)
    (first : ∀ v f, l[v]? = some f → f.st = .due → f.age < e.age ∨ f.age = e.age ∧ u ≤ v) : choosePc l = e.waddr.toNat := by
  have member : e ∈ l.filter (fun e => e.st == .due) := List.mem_filter.mpr ⟨List.mem_of_getElem? hu, by simp [hdue]⟩
  have oldest : (l.filter (fun e => e.st == .due)).foldl (fun m e => max m e.age) 0 = e.age := by
    refine foldl_max_eq Lpc.age member fun f hf => ?_
    obtain ⟨hfl, hfd⟩ := List.mem_filter.mp hf
    obtain ⟨v, hv⟩ := List.mem_iff_getElem?.mp hfl
    rcases first v f hv (by simpa using hfd) with h | h
    · exact h.le
    · exact h.1.le
  have found : (l.filter (fun e => e.st == .due)).find? (fun f => f.age == e.age) = some e := by
    rw [List.find?_filter, List.find?_eq_some_iff_getElem]
    obtain ⟨hlt, hget⟩ := List.getElem?_eq_some_iff.mp hu
    refine ⟨by simp [hdue], u, hlt, hget, fun v hv => ?_⟩
    have hvl : l[v]? = some l[v] := List.getElem?_eq_getElem (hv.trans hlt)
    by_cases hd : l[v].st = .due
    · rcases first v _ hvl hd with h | h
      · simp [h.ne]
      · omega
    · simp [hd]
  unfold choosePc
  simp only [oldest, found]

/-- With no DUE thread the PC is the least of the eligible (R16). -/
theorem choosePc_least {l : List Lpc} {pc : BitVec 54} (none_ : ∀ e ∈ l, e.st ≠ .due) (some_ : ∃ e ∈ l, e.eligible = true ∧ e.waddr = pc)
    (least : ∀ e ∈ l, e.eligible = true → pc.toNat ≤ e.waddr.toNat) : choosePc l = pc.toNat := by
  have noDue : l.filter (fun e => e.st == .due) = [] := List.filter_eq_nil_iff.mpr fun e he => by simp [none_ e he]
  unfold choosePc
  simp only [noDue, List.foldl_nil, List.find?_nil]
  obtain ⟨e, he, hel, rfl⟩ := some_
  refine leastOf_eq (List.mem_map.mpr ⟨e, List.mem_filter.mpr ⟨he, hel⟩, rfl⟩) fun n hn => ?_
  obtain ⟨f, hf, rfl⟩ := List.mem_map.mp hn
  obtain ⟨hfl, hfe⟩ := List.mem_filter.mp hf
  exact least f hfl hfe

/-- Where a thread is eligible no parked thread is released (R16). -/
theorem releaseParked_of_eligible {l : List Lpc} (h : ∃ e ∈ l, e.eligible = true) : releaseParked l = l := by
  unfold releaseParked
  rw [if_pos (List.any_eq_true.mpr h)]

/-- A thread parked at an address, released (R16). -/
def Lpc.release (pc : BitVec 54) (e : Lpc) : Lpc := if e.st = .joined ∧ e.waddr = pc then { e with st := .run, age := 0 } else e

/-- Where none is eligible the threads parked lowest are released (R16). -/
theorem releaseParked_of_parked {l : List Lpc} {pc : BitVec 54} (none_ : ∀ e ∈ l, e.eligible = false) (some_ : ∃ e ∈ l, e.st = .joined ∧ e.waddr = pc)
    (least : ∀ e ∈ l, e.st = .joined → pc.toNat ≤ e.waddr.toNat) : releaseParked l = l.map (Lpc.release pc) := by
  have lowest : leastOf ((l.filter (fun e => e.st == .joined)).map (fun e => e.waddr.toNat)) = pc.toNat := by
    obtain ⟨e, he, hj, rfl⟩ := some_
    refine leastOf_eq (List.mem_map.mpr ⟨e, List.mem_filter.mpr ⟨he, by simp [hj]⟩, rfl⟩) fun n hn => ?_
    obtain ⟨f, hf, rfl⟩ := List.mem_map.mp hn
    obtain ⟨hfl, hfj⟩ := List.mem_filter.mp hf
    exact least f hfl (by simpa using hfj)
  unfold releaseParked
  rw [if_neg (by simpa using none_)]
  simp only [lowest]
  refine List.map_congr_left fun e _ => ?_
  simp only [Lpc.release, Bool.and_eq_true, beq_iff_eq, BitVec.toNat_inj]

/-- A choice of R16: the issue set holds the threads of a list that satisfy a test, at an address, and the entries change by a function. -/
structure Chooses (l : List Lpc) (pc : BitVec 54) (m : Lpc → Bool) (new : Lpc → Lpc) : Prop where
  pc : (selectThreads l).2.1 = pc.toNat
  iset : ∀ u < 32, inMask (selectThreads l).1 u = (l[u]?).any m
  lpc : (selectThreads l).2.2 = l.map new

/-- What is chosen, once parked threads are released and the PC is known. -/
theorem Chooses.of_released {l : List Lpc} {pc : BitVec 54} {r : Lpc → Lpc} (hr : releaseParked l = l.map r) (hpc : choosePc (l.map r) = pc.toNat)
    {m : Lpc → Bool} {new : Lpc → Lpc} (hm : ∀ e ∈ l, ((r e).eligible && (r e).waddr == pc) = m e) (hn : ∀ e ∈ l, (r e).issue pc.toNat = new e) :
    Chooses l pc m new where
  pc := by
    unfold selectThreads
    simp only [hr, hpc]
  iset u hu := by
    unfold selectThreads
    simp only [hr, hpc]
    rw [inMask_maskOf _ hu, List.getElem?_map]
    cases h : l[u]? with
    | none => rfl
    | some e =>
      rw [Option.any_some, ← hm e (List.mem_of_getElem? h)]
      exact congrArg ((r e).eligible && ·) (Bool.eq_iff_iff.mpr (by simp only [beq_iff_eq, BitVec.toNat_inj]))
  lpc := by
    unfold selectThreads
    simp only [hr, hpc, List.map_map]
    exact List.map_congr_left hn

/-- One issue as R16 states it. -/
def Lpc.issued (pc : BitVec 54) (e : Lpc) : Lpc :=
  if e.st = .run ∨ e.st = .due then
    if e.waddr = pc then { e with st := .run, age := 0 }
    else if e.st = .run ∧ e.age = 255 then { e with st := .due, age := 0 }
    else { e with age := min (e.age + 1) 255 }
  else e

theorem Lpc.issue_eq (pc : BitVec 54) (e : Lpc) : e.issue pc.toNat = e.issued pc := by
  unfold Lpc.issue Lpc.issued
  by_cases h : e.st = .run ∨ e.st = .due
  · rw [if_neg (by simpa using (Lpc.eligible_iff e).mpr h), if_pos h]
    simp [BitVec.toNat_inj]
  · rw [if_pos (by simpa using fun hel => h ((Lpc.eligible_iff e).mp hel)), if_neg h]

theorem Chooses.of_eligible {l : List Lpc} {pc : BitVec 54} (some_ : ∃ e ∈ l, e.eligible = true) (hpc : choosePc l = pc.toNat) :
    Chooses l pc (fun e => (e.st == .run || e.st == .due) && e.waddr == pc) (Lpc.issued pc) :=
  .of_released (r := id) (by rw [releaseParked_of_eligible some_, List.map_id]) (by rw [List.map_id, hpc]) (fun _ _ => rfl) (fun e _ => Lpc.issue_eq pc e)

theorem Chooses.of_parked {l : List Lpc} {pc : BitVec 54} (none_ : ∀ e ∈ l, ¬(e.st = .run ∨ e.st = .due)) (some_ : ∃ e ∈ l, e.st = .joined ∧ e.waddr = pc)
    (least : ∀ e ∈ l, e.st = .joined → pc.toNat ≤ e.waddr.toNat) :
    Chooses l pc (fun e => e.st == .joined && e.waddr == pc) (Lpc.release pc) := by
  have out : ∀ e ∈ l, e.eligible = false := fun e he => Bool.eq_false_iff.mpr fun h => none_ e he ((Lpc.eligible_iff e).mp h)
  have cases_ : ∀ e ∈ l, (e.st = .joined ∧ e.waddr = pc) ∧ e.release pc = { e with st := .run, age := 0 } ∨
      ¬(e.st = .joined ∧ e.waddr = pc) ∧ e.release pc = e := by
    intro e _
    by_cases h : e.st = .joined ∧ e.waddr = pc
    · exact .inl ⟨h, if_pos h⟩
    · exact .inr ⟨h, if_neg h⟩
  have chosen : choosePc (l.map (Lpc.release pc)) = pc.toNat := by
    refine choosePc_least (fun f hf => ?_) ?_ (fun f hf hel => ?_)
    · obtain ⟨e, he, rfl⟩ := List.mem_map.mp hf
      rcases cases_ e he with ⟨-, hr⟩ | ⟨-, hr⟩
      · rw [hr]; exact fun h => nomatch h
      · rw [hr]; exact fun h => none_ e he (.inr h)
    · obtain ⟨e, he, hj⟩ := some_
      refine ⟨e.release pc, List.mem_map.mpr ⟨e, he, rfl⟩, ?_⟩
      rw [Lpc.release, if_pos hj]
      exact ⟨rfl, hj.2⟩
    · obtain ⟨e, he, rfl⟩ := List.mem_map.mp hf
      rcases cases_ e he with ⟨hj, hr⟩ | ⟨-, hr⟩
      · rw [hr, hj.2]
      · rw [hr, out e he] at hel; cases hel
  refine .of_released (releaseParked_of_parked out some_ least) chosen (fun e he => ?_) (fun e he => ?_)
  · rcases cases_ e he with ⟨hj, hr⟩ | ⟨hj, hr⟩
    · rw [hr, hj.1, hj.2]; simp [Lpc.eligible]
    · rw [hr, out e he, Bool.false_and]
      exact (Bool.eq_false_iff.mpr (by simpa using hj)).symm
  · rcases cases_ e he with ⟨hj, hr⟩ | ⟨hj, hr⟩
    · rw [hr]; simp [Lpc.issue, Lpc.eligible, hj.2]
    · rw [hr, Lpc.issue, if_pos (by simp [out e he])]

/-! ### The fetch -/

/-- Words that can all be fetched are the words of the clause. -/
theorem State.fetchWords_eq (s : State) (w : Nat) (ws acc : List DWord) (va : DWord)
    (h : ∀ i < ws.length, s.fetchWord w (va + BitVec.ofNat 64 (8 * i)) = .word (ws.getD i 0)) : s.fetchWords w va ws.length acc = .clause 0 (acc ++ ws) := by
  induction ws generalizing acc va with
  | nil => simp [State.fetchWords]
  | cons v vs ih =>
    have head : s.fetchWord w va = .word v := by simpa using h 0 (by simp)
    rw [List.length_cons, State.fetchWords, head]
    refine (ih (acc ++ [v]) (va + 8) fun i hi => ?_).trans (by simp)
    have next := h (i + 1) (by simpa using hi)
    rw [show va + 8 + BitVec.ofNat 64 (8 * i) = va + BitVec.ofNat 64 (8 * (i + 1)) by
      rw [BitVec.add_assoc]; congr 1; rw [show 8 * (i + 1) = 8 + 8 * i by omega, BitVec.ofNat_add]; rfl]
    simpa using next

theorem bitsOf_eq (x : DWord) (lo n : Nat) : bitsOf x lo n = (x.extractLsb' lo n).toNat := by
  rw [bitsOf, BitVec.extractLsb'_toNat, Nat.shiftRight_eq_div_pow]

/-- The checks of a header (R63), in their order. -/
theorem headerFault_eq (h : DWord) : headerFault h = if h.extractLsb' 60 4 ≠ 0xA then some 0 else if 7 ≤ (h.extractLsb' 56 4).toNat then some 1
    else if h.extractLsb' 0 45 ≠ 0 then some 2 else none := by
  unfold headerFault headerClass
  simp only [bitsOf_eq, bne_iff_ne, ne_eq, ← BitVec.toNat_inj]
  rfl

/-- A WAIT is met where each scoreboard it names is clear (R62). -/
theorem waitMet_of_clear {x : Warp} {h : DWord} (clear : ∀ i < 6, h.getLsbD (46 + i) = true → x.regs.sb.getD i 0 = 0) : waitMet x (headerWait h) = true := by
  refine List.all_eq_true.mpr fun i hi => ?_
  have hi6 : i < 6 := List.mem_range.mp hi
  cases hb : h.getLsbD (46 + i)
  · have bit : (headerWait h).testBit i = false := by
      rw [headerWait, bitsOf_eq, BitVec.testBit_toNat, BitVec.getLsbD_extractLsb', hb, Bool.and_false]
    rw [Nat.testBit_eq_decide_div_mod_eq, decide_eq_false_iff_not] at bit
    simp only [Bool.or_eq_true, decide_eq_true_eq]
    exact .inl (by omega)
  · rw [clear i hi6 hb]
    simp

/-! ### The warp that starts -/

/-- What WRSR wrote, in effect. -/
def Warp.applied (x : Warp) : Warp := { x with wcr := x.nextWcr.getD x.wcr, nextWcr := none, nextSat := [] }

theorem State.warp?_applyWrites {s : State} {w : Nat} {x : Warp} (hx : s.warp? w = some x) (v : Nat) :
    (s.applyWrites w).warp? v = if w = v then some x.applied else s.warp? v := by
  unfold State.applyWrites
  simp only [hx]
  rw [State.warp?_modWarp]
  by_cases hv : w = v
  · subst hv
    rw [if_pos rfl, if_pos rfl]
    exact congrArg (Option.map _) hx
  · rw [if_neg hv, if_neg hv]
    rfl

theorem State.quiet_fetchPull (s : State) (w : Nat) (va : DWord) (n : Nat) : (s.fetchPull w va n).quiet = s.quiet := by
  refine foldl_quiet _ (fun s i => ?_) _ s
  split
  · exact State.quiet_pullAt ..
  · rfl

/-- The clause that a fetched header and its words begin (R61, R62). -/
def Clause.begun (va h : DWord) (ws : List DWord) (iset : Mask) : Clause :=
  { addr := va, cls := headerClass h, yld := headerYld h, words := ws, iset := iset, idx := 0, start := 0, pend := [], lfile := [] }

/-- A warp between clauses that nothing holds. -/
structure Between (s : State) (w : Nat) (x : Warp) : Prop where
  warp : s.warp? w = some x
  active : x.state = .active
  clause : x.clause = none
  hold : x.hold = .none
  pipe : x.pipe = none
  stop : s.stoppingWarp w = false
  wback : x.wback = none
  ahead : x.ahead = false

/-- Such a warp, with a thread left, starts its clause. -/
theorem Between.exec {s : State} {w : Nat} {x : Warp} (h : Between s w x) (hex : x.allExited = false) :
    execClauseStart w s = .next (s.startClause w x) := by
  unfold execClauseStart
  simp [h.warp, h.active, h.clause, h.hold, h.pipe, h.stop, hex, when_]

/-- A clause whose header passes its checks, whose words are fetched, whose class may run, whose WAIT is met and for which a pipe is free starts (R61 to
R63, R278, R341). -/
theorem Between.starts {s : State} {w : Nat} {x : Warp} (b : Between s w x) {h : DWord} {ws : List DWord}
    (fetch : s.fetchClause w (wordAddress (selectThreads x.regs.lpc).2.1) = .clause h ws) (runs : kindRuns x.kind (headerClass h) = true)
    (wait : waitMet x (headerWait h) = true) (free : (s.pipeFor w x (headerClass h)).isSome = true) :
    ∃ y, (s.startClause w x).warp? w = some y ∧
      y.clause = some (.begun (wordAddress (selectThreads x.regs.lpc).2.1) h ws (selectThreads x.regs.lpc).1) ∧
      y.pipe = s.pipeFor w x (headerClass h) ∧ y.wcr = x.nextWcr.getD x.wcr ∧
      y.regs = { x.regs with lpc := (selectThreads x.regs.lpc).2.2 } ∧ ∀ v, v ≠ w → (s.startClause w x).warp? v = s.warp? v := by
  have pulled : ∀ v, (s.fetchPull w (wordAddress (selectThreads x.regs.lpc).2.1) (ws.length + 1)).warp? v = s.warp? v :=
    State.warp?_of_quiet (State.quiet_fetchPull ..)
  have here := (pulled w).trans b.warp
  have someFree : (s.pipeFor w x (headerClass h)).isNone = false := by rw [← Option.not_isSome, free]; rfl
  unfold State.startClause
  simp only [b.wback, fetch, b.ahead, runs, wait, someFree, Bool.false_and, Bool.not_true, Bool.false_eq_true, if_false]
  rw [State.warp?_modWarp, if_pos rfl, State.warp?_modWarp, if_pos rfl, State.warp?_applyWrites here, if_pos rfl]
  refine ⟨_, rfl, rfl, rfl, rfl, rfl, fun v hv => ?_⟩
  rw [State.warp?_modWarp, if_neg hv.symm, State.warp?_modWarp, if_neg hv.symm, State.warp?_applyWrites here, if_neg hv.symm, pulled]

/-- FAULT1 of a trap at the head of a clause, which names no thread (R283, R284). -/
theorem faultRecord_head (code reason : BitVec 8) (mask : Mask) (addr : DWord) (index : Nat) (caddr : DWord) (wtag : BitVec 8) :
    (faultRecord { code := code, reason := reason, mask := mask, addr := addr } index caddr wtag)[1]? = some (0#8 ++ reason ++ 0#8 ++ code ++ mask) := by
  refine (faultRecord_what ..).trans (congrArg some (BitVec.eq_of_toNat_eq ?_))
  simp only [toNat_append_eq_add, BitVec.toNat_ofNat, BitVec.ofNat_eq_ofNat, BitVec.ofBool_false, Bool.false_eq_true, if_false]
  omega

/-- A clause that may not start traps at its head, with its address (R63, R85, R284). -/
theorem Between.traps {s : State} {w : Nat} {x : Warp} (b : Between s w x) {reason : BitVec 8}
    (fetch : s.fetchClause w (wordAddress (selectThreads x.regs.lpc).2.1) = .bad reason) :
    ∃ y, (s.startClause w x).warp? w = some y ∧ y.state = .trapped ∧ y.clause = none ∧
      y.fault[1]? = some (0#8 ++ reason ++ 0#8 ++ 0x02#8 ++ (selectThreads x.regs.lpc).1) ∧
      y.fault[2]? = some (wordAddress (selectThreads x.regs.lpc).2.1) ∧ y.resume.head = true ∧ y.resume.index = 0 ∧
      y.resume.caddr = (wordAddress (selectThreads x.regs.lpc).2.1).extractLsb' 3 54 ∧ ∀ v, v ≠ w → (s.startClause w x).regs v = s.regs v := by
  unfold State.startClause
  simp only [b.wback, fetch, b.ahead, Bool.false_eq_true, if_false]
  have chosen : ((s.applyWrites w).modWarp w (fun x' => { x' with begun := true, regs := { x'.regs with lpc := (selectThreads x.regs.lpc).2.2 } })).warp? w =
      some { x.applied with begun := true, regs := { x.regs with lpc := (selectThreads x.regs.lpc).2.2 } } := by
    rw [State.warp?_modWarp, if_pos rfl, State.warp?_applyWrites b.warp, if_pos rfl]
    rfl
  refine ⟨_, State.warp?_takeTrap chosen .., rfl, b.clause, faultRecord_head .., rfl, rfl, rfl, rfl, fun v hv => ?_⟩
  rw [State.headTrap, (SameRegs.takeTrap ..).regs, State.regs_modWarp_ne _ hv, State.regs, State.warp?_applyWrites b.warp, if_neg hv.symm]
  rfl

/-- A page that is absent and can be resolved is waited for (R64). -/
theorem Between.waits {s : State} {w : Nat} {x : Warp} (b : Between s w x) {p : Nat}
    (fetch : s.fetchClause w (wordAddress (selectThreads x.regs.lpc).2.1) = .absent p) :
    s.startClause w x = { s with warps := s.warps.set w { x with hold := .fetch p } } := by
  have held : s.startClause w x = s.modWarp w (fun x => { x with hold := .fetch p }) := by
    unfold State.startClause
    simp only [b.wback, fetch, b.ahead, Bool.false_eq_true, if_false]
  have same : upd s.warps w (fun x => { x with hold := .fetch p }) = s.warps.set w { x with hold := .fetch p } := by
    refine List.ext_getElem? fun i => ?_
    rw [upd_get, List.getElem?_set]
    by_cases hi : w = i
    · subst hi
      have hlt : w < s.warps.length := (List.getElem?_eq_some_iff.mp b.warp).1
      rw [if_pos rfl, if_pos rfl, if_pos hlt, show s.warps[w]? = some x from b.warp]
      rfl
    · rw [if_neg hi, if_neg hi]
  exact held.trans (congrArg (fun l => ({ s with warps := l } : State)) same)

/-- The address of a PC (R14, R292). -/
theorem wordAddress_toNat (pc : BitVec 54) : wordAddress pc.toNat = BitVec.signExtend 61 pc ++ 0#3 := by
  rw [wordAddress, BitVec.ofNat_toNat, BitVec.setWidth_eq]

/-- A clause is fetched where its header passes its checks and each of its words can be fetched (R61 to R64). -/
theorem State.fetchClause_ok {s : State} {w : Nat} {va h : DWord} {ws : List DWord} (head : s.fetchWord w va = .word h) (pass : headerFault h = none)
    (count : ws.length = (h.extractLsb' 52 4).toNat + 1) (rest : ∀ i < ws.length, s.fetchWord w (va + BitVec.ofNat 64 (8 * (i + 1))) = .word (ws.getD i 0)) :
    s.fetchClause w va = .clause h ws := by
  have words : s.fetchWords w (va + 8) (headerCount h) [] = .clause 0 ws := by
    rw [headerCount, bitsOf_eq, ← count]
    refine (State.fetchWords_eq s w ws [] (va + 8) fun i hi => ?_).trans (by rw [List.nil_append])
    rw [← rest i hi, BitVec.add_assoc]
    congr 2
    rw [show 8 * (i + 1) = 8 + 8 * i by omega, BitVec.ofNat_add]
    rfl
  unfold State.fetchClause
  simp only [head, pass, words]

/-- A header that fails a check makes a bad clause (R63). -/
theorem State.fetchClause_bad {s : State} {w : Nat} {va h : DWord} {r : BitVec 8} (head : s.fetchWord w va = .word h) (fails : headerFault h = some r) :
    s.fetchClause w va = .bad r := by
  unfold State.fetchClause
  simp only [head, fails]

/-- A thread that has not exited keeps its warp going. -/
theorem Warp.allExited_eq_false {x : Warp} (h : ∃ e ∈ x.regs.lpc, e.st ≠ .exited) : x.allExited = false := by
  obtain ⟨e, he, hne⟩ := h
  exact Bool.eq_false_iff.mpr fun all => hne (by simpa using List.all_eq_true.mp all e he)

/-- The clause that R16 chooses starts. -/
theorem clauses_start : Claims.ClausesStart := by
  intro s w x pc h ws hx hs hc hh hp hst hwb hah hlen l eligible va cls fetch h60 h56 h0 count rest runs clear free starts issue
  have b : Between s w x := ⟨hx, hs, hc, hh, hp, hst, hwb, hah⟩
  have pass : headerFault h = none := by rw [headerFault_eq, if_neg (not_not.mpr h60), if_neg (Nat.not_le.mpr h56), if_neg (not_not.mpr h0)]
  have class_ : headerClass h = cls := bitsOf_eq ..
  have begin_ : ∀ {m : Lpc → Bool} {new : Lpc → Lpc}, (∃ e ∈ l, e.st ≠ .exited) → Chooses l pc m new → starts m new := by
    intro m new some_ chosen
    have addr : wordAddress (selectThreads l).2.1 = va := by rw [chosen.pc, wordAddress_toNat]
    obtain ⟨y, hy, hcl, hpipe, hwcr, hregs, others⟩ := b.starts (by rw [addr]; exact State.fetchClause_ok fetch pass count rest) (by rw [class_]; exact runs)
      (waitMet_of_clear clear) (by rw [class_]; exact free)
    refine ⟨_, y, _, b.exec (Warp.allExited_eq_false some_), hy, hcl, by rw [hpipe, class_], addr, rfl, class_, rfl, rfl, rfl, hwcr, chosen.iset, ?_, others⟩
    rw [hregs, chosen.lpc]
  refine ⟨fun u e hu hdue hpc first => ?_, fun none_ some_ least => ?_, fun none_ some_ least => ?_⟩
  · have mem : e ∈ l := List.mem_of_getElem? hu
    refine begin_ ⟨e, mem, by rw [hdue]; exact fun h => nomatch h⟩ (Chooses.of_eligible ⟨e, mem, (Lpc.eligible_iff e).mpr (.inr hdue)⟩ ?_)
    rw [choosePc_due hu hdue first, hpc]
  · obtain ⟨e, mem, hrun, hpc⟩ := some_
    refine begin_ ⟨e, mem, by rw [hrun]; exact fun h => nomatch h⟩ (Chooses.of_eligible ⟨e, mem, (Lpc.eligible_iff e).mpr (.inl hrun)⟩ ?_)
    refine choosePc_least none_ ⟨e, mem, (Lpc.eligible_iff e).mpr (.inl hrun), hpc⟩ fun f hf hel => ?_
    exact least f hf (((Lpc.eligible_iff f).mp hel).resolve_right (none_ f hf))
  · obtain ⟨e, mem, hj, hpc⟩ := some_
    exact begin_ ⟨e, mem, by rw [hj]; exact fun h => nomatch h⟩ (Chooses.of_parked none_ ⟨e, mem, hj, hpc⟩ least)

/-- A clause that may not start traps at its head, or is waited for; a warp with no thread left ends. -/
theorem bad_clauses_trap : Claims.BadClausesTrap := by
  intro s w x hx hs hc hh hp hst hwb hah va traps
  have b : Between s w x := ⟨hx, hs, hc, hh, hp, hst, hwb, hah⟩
  have bad : (∃ e ∈ x.regs.lpc, e.st ≠ .exited) → ∀ {r : BitVec 8}, s.fetchClause w va = .bad r → traps r := by
    intro some_ r fetch
    obtain ⟨y, hy⟩ := b.traps fetch
    exact ⟨_, y, b.exec (Warp.allExited_eq_false some_), hy⟩
  refine ⟨fun all => ?_, fun some_ => ⟨fun h head => ⟨fun h60 => ?_, fun h60 h56 => ?_, fun h60 h56 h0 => ?_⟩, fun refused => ?_, fun p absent => ?_⟩⟩
  · have gone : x.allExited = true := List.all_eq_true.mpr fun e he => by simp [all e he]
    obtain ⟨y, hy, ended, regs⟩ := State.boundary_of_allExited hx gone hah
    have runs : execClauseStart w s = .next (s.boundary w) := by
      unfold execClauseStart
      simp [hx, hs, hc, hh, hp, hst, gone, when_]
    exact ⟨_, y, runs, hy, ended, regs⟩
  · exact bad some_ (State.fetchClause_bad head (by rw [headerFault_eq, if_pos h60]))
  · exact bad some_ (State.fetchClause_bad head (by rw [headerFault_eq, if_neg (not_not.mpr h60), if_pos h56]))
  · exact bad some_ (State.fetchClause_bad head (by rw [headerFault_eq, if_neg (not_not.mpr h60), if_neg (Nat.not_le.mpr h56), if_pos h0]))
  · refine bad some_ ?_
    unfold State.fetchClause
    simp only [va, refused]
  · have fetch : s.fetchClause w va = .absent p := by
      unfold State.fetchClause
      simp only [absent]
    rw [← b.waits fetch]
    exact b.exec (Warp.allExited_eq_false some_)

end Sys2Proof.Machine

open Sys2Proof.Machine in
/-- Settles O29: by `clauses_start` and `bad_clauses_trap`. -/
theorem clausesStart : Obligations.ClausesStart := by
  unfold Obligations.ClausesStart
  exact ⟨clauses_start, bad_clauses_trap⟩
end

section
/-! SUPPORT. What the scheduler reads of a context's counters and adds to them, and what an add and the end of a launch leave of the module. -/
namespace Sys2Proof.Machine
set_option Elab.async false

/-! ### Reading a counter (R29, R330) -/

/-- A leaf of the peer region is a peer page, or no leaf (R346). -/
theorem leafTrans_peer {va level : Nat} {e : DWord} {t : Trans} (ht : leafTrans va level e = .ok t) (hva : 2 ^ 56 ≤ va % 2 ^ 57) : t.attr = 3 := by
  unfold leafTrans at ht
  simp only [hva, decide_true] at ht
  split at ht
  · exact nomatch ht
  · next good =>
    cases ht
    simp only [Bool.or_eq_true, not_or] at good
    obtain ⟨⟨-, kind⟩, -⟩ := good
    simpa using kind

theorem walkFrom_peer {m : Memory} {va : Nat} {t : Trans} (hva : 2 ^ 56 ≤ va % 2 ^ 57) :
    ∀ {fuel level table}, walkFrom m va fuel level table = .ok t → t.attr = 3
  | 0, _, _, ht => nomatch ht
  | fuel + 1, level, table, ht => by
    unfold walkFrom at ht
    simp only at ht
    split at ht
    · exact nomatch ht
    · split at ht
      · split at ht
        · exact nomatch ht
        · exact leafTrans_peer ht hva
      · split at ht
        · exact nomatch ht
        · exact walkFrom_peer hva ht

/-- An address of the peer region that translates is a peer's (R292, R346). -/
theorem State.translate_peer {s : State} {ctx va : Nat} {t : Trans} (hr : regionOf va = .peer) (ht : s.translate ctx va = .ok t) : t.attr = 3 := by
  have inside : 0xFF00000000000000 ≤ va ∧ va < winBase := by
    unfold regionOf at hr
    grind
  have peer : 2 ^ 56 ≤ va % 2 ^ 57 := by unfold winBase at inside; omega
  unfold State.translate at ht
  split at ht
  · exact nomatch ht
  · simp only at ht
    rw [if_neg (by unfold shelfVa; omega)] at ht
    split at ht
    · exact leafTrans_peer ht (by omega)
    · exact walkFrom_peer (by omega) ht

/-- A counter that the control complex holds itself: not of a peer, nor of a window or LCM. -/
def AtHome (l : Loc) : Prop := l.place = .nc ∨ ∃ a, l.place = .glob a

theorem State.canonical_of_ctxLoc {s : State} {ctx : Nat} {a : DWord} {l : Loc} (hl : s.ctxLoc ctx a = some l) : canonical a = true := by
  unfold State.ctxLoc at hl
  split at hl
  · exact nomatch hl
  · next h => simpa using h

theorem State.not_peer_of_ctxLoc {s : State} {ctx : Nat} {a : DWord} {l : Loc} (hl : s.ctxLoc ctx a = some l) (hh : AtHome l) :
    regionOf a.toNat ≠ .peer := by
  intro hr
  unfold State.ctxLoc at hl
  rw [if_neg (by simp [State.canonical_of_ctxLoc (s := s) (ctx := ctx) (l := l) (by unfold State.ctxLoc; exact hl)])] at hl
  simp only [hr] at hl
  split at hl
  · next t ht =>
    simp only [State.translate_peer hr ht, Option.some.injEq] at hl
    subst hl
    rcases hh with h | ⟨a, h⟩ <;> exact nomatch h
  all_goals exact nomatch hl

/-- The scheduler spends no free value where it reads no peer. -/
theorem State.spendPeer_home {s : State} {ctx : Nat} {a : DWord} {l : Loc} (hl : s.ctxLoc ctx a = some l) (hh : AtHome l) : s.spendPeer a = s := by
  simp [State.spendPeer, State.not_peer_of_ctxLoc hl hh]

/-- A page that translates is waited for no more (R305). -/
theorem State.pageDue_of_ctxLoc {s : State} {ctx : Nat} {a : DWord} {l : Loc} (hl : s.ctxLoc ctx a = some l) : s.pageDue ctx a = false := by
  have found : ∀ {r}, regionOf a.toNat = r → (r = .global ∨ r = .peer) → s.translate ctx a.toNat ≠ .absent := by
    rintro r hr hgp habs
    unfold State.ctxLoc at hl
    rcases hgp with rfl | rfl <;> simp [hr, habs] at hl
  unfold State.pageDue
  split
  · next hr => simp [found hr (.inl rfl)]
  · next hr => simp [found hr (.inr rfl)]
  all_goals simp

/-- A counter on a page of the module that may be read and written, as the scheduler reads it. -/
theorem State.ccCounter_home {s : State} {ctx : Nat} {a : DWord} {l : Loc} {t : Trans} (h8 : a.toNat % 8 = 0) (ht : s.translate ctx a.toNat = .ok t)
    (hr : t.r = true) (hw : t.w = true) (hl : s.ctxLoc ctx a = some l) (hh : AtHome l) :
    s.ccCounter ctx a = if (s.ctrTag l).isNone then .untagged else .word (s.ctrWordAt l) := by
  unfold State.ccCounter
  simp only [h8, State.canonical_of_ctxLoc hl, State.pageDue_of_ctxLoc hl, ht, hl, hr, hw]
  rcases hh with h | ⟨a, h⟩ <;> simp [h]

/-! ### Adds to counters and the end of launches (R32, R366) -/

/-- What an add of the scheduler leaves: all but what memory and logs act on, and the adds that wait for a page. -/
def State.calm (s : State) : State := { s.quiet with dueAdds := [] }

theorem State.calm_of_quiet {s t : State} (h : t.quiet = s.quiet) : t.calm = s.calm := by unfold State.calm; rw [h]

@[simp] theorem State.calm_schedAdd (s : State) (ctx lix : Nat) (va inc : DWord) : (s.schedAdd ctx lix va inc).calm = s.calm := by
  unfold State.schedAdd
  simp only
  split
  · rfl
  · split
    · exact State.calm_of_quiet (State.quiet_lostAdd ..)
    · split
      · exact State.calm_of_quiet (State.quiet_ctrUpdate ..)
      · exact State.calm_of_quiet ((State.quiet_lostAdd ..).trans (State.quiet_ctrUpdate ..))

@[simp] theorem State.calm_signalDone (s : State) (ctx lix : Nat) (p : List Byte) (b : Bool) : (s.signalDone ctx lix p b).calm = s.calm := by
  unfold State.signalDone
  split
  · rfl
  · exact State.calm_schedAdd ..

@[simp] theorem State.quiet_queueEntry (s : State) (ctx q src why : Nat) (lix item : DWord) : (s.queueEntry ctx q src why lix item).quiet = s.quiet :=
  State.quiet_logEntry ..

theorem State.launches_of_calm {s t : State} (h : t.calm = s.calm) : t.launches = s.launches :=
  (congrArg State.launches h : t.calm.launches = s.calm.launches)

theorem State.launches_of_quiet {s t : State} (h : t.quiet = s.quiet) : t.launches = s.launches :=
  (congrArg State.launches h : t.quiet.launches = s.quiet.launches)

theorem State.launches_modLaunch {s : State} {l : Nat} {x : Launch} (hx : s.launches[l]? = some x) (f : Launch → Launch) :
    (s.modLaunch l f).launches[l]? = some (f x) := by
  rw [State.modLaunch_launches, upd_get, if_pos rfl, hx, Option.map_some]

/-- A launch that is checked ends where all its blocks have finished, and nothing else of the module changes but what its add changes (R32). -/
theorem State.calm_launchCheck {s : State} {l : Nat} {x : Launch} (hx : s.launches[l]? = some x) :
    (s.launchCheck l).calm = (s.modLaunch l (fun y => { y with finished := y.finished || x.allDone })).calm := by
  unfold State.launchCheck
  simp only [hx]
  split
  · next h => simp [State.calm_signalDone, h]
  · next h =>
    have same : s.modLaunch l (fun y => { y with finished := y.finished || x.allDone }) = s := by
      unfold State.modLaunch
      simp only [h, Bool.or_false]
      have : upd s.launches l (fun y => y) = s.launches := by
        refine List.ext_getElem? fun n => ?_
        rw [upd_get]; split <;> simp
      exact congrArg (fun ls => { s with launches := ls }) this
    rw [same]

theorem State.launch_launchCheck {s : State} {l : Nat} {x : Launch} (hx : s.launches[l]? = some x) :
    (s.launchCheck l).launches[l]? = some { x with finished := x.finished || x.allDone } :=
  (congrArg (·[l]?) (State.launches_of_calm (State.calm_launchCheck hx))).trans (State.launches_modLaunch hx _)

end Sys2Proof.Machine
end

section
/-! SUPPORT. The reading of records (R33, R34, R330). -/
namespace Sys2Proof.Machine
set_option Elab.async false

/-- The reading of a launch's records has ended, `failed` where that fails it. -/
def RecordsEnded (x : Launch) (l : Nat) (failed : Bool) (t : State) : Prop :=
  ∃ y, t.launches[l]? = some y ∧ y.recordsEnd = true ∧ y.failed = (x.failed || failed) ∧ y.recordsRead = x.recordsRead

theorem State.endRecords_ended {s : State} {l : Nat} {x : Launch} (hx : s.launches[l]? = some x) (b : Bool) : RecordsEnded x l b (s.endRecords l b) :=
  ⟨_, State.launch_launchCheck (State.launches_modLaunch hx _), rfl, rfl, rfl⟩

theorem State.noRecords_ended {s : State} {l : Nat} {x y : Launch} (hx : s.launches[l]? = some x) : RecordsEnded x l true (s.noRecords l y) :=
  State.endRecords_ended (by rw [State.launches_of_quiet (State.quiet_queueEntry ..), hx]) true

/-- Records beyond the maximum change nothing of what the reading goes on with. -/
theorem State.launch_noteExcess {s : State} {l : Nat} {x : Launch} (hx : s.launches[l]? = some x) (v : DWord) :
    ∃ y, (s.noteExcess l x v).launches[l]? = some y ∧ y.recordsRead = x.recordsRead := by
  unfold State.noteExcess
  split
  · exact ⟨_, State.launches_modLaunch (by rw [State.launches_of_quiet (State.quiet_queueEntry ..), hx]) _, rfl⟩
  · exact ⟨x, hx, rfl⟩

theorem State.noteExcess_none {s : State} {l : Nat} {x : Launch} {v : DWord} (h : ctrValue v ≤ pktBlocks x.pkt) : s.noteExcess l x v = s := by
  simp [State.noteExcess, Nat.not_lt.mpr h]

/-- What makes a record invalid (R34). -/
theorem recordFault_isSome (r : List Byte) : (recordFault r).isSome = true ↔
    (word64 r 0).extractLsb' 48 6 = 0 ∨ 32 < ((word64 r 0).extractLsb' 48 6).toNat ∨ (word64 r 0).extractLsb' 54 2 ≠ 0 ∨
      (word64 r 8).extractLsb' 32 32 ≠ 0 := by
  unfold recordFault
  simp only [bitsOf_eq, bne_iff_ne, Bool.or_eq_true, ne_eq]
  have zero : ∀ {n} (x : BitVec n), x = 0 ↔ x.toNat = 0 := fun x => by rw [← BitVec.toNat_inj]; simp
  rw [zero, zero, zero]
  generalize ((word64 r 0).extractLsb' 48 6).toNat = count
  generalize ((word64 r 0).extractLsb' 54 2).toNat = reserved
  generalize ((word64 r 8).extractLsb' 32 32).toNat = above
  split
  · next h => simp [h]
  · next h =>
    split
    · next big => simp [big]
    · next small =>
      split
      · next bad => simpa [h, small] using bad
      · next good => simpa [h, small] using good

theorem State.takeRecord_launch {s : State} {l : Nat} {x : Launch} (hx : s.launches[l]? = some x) (r : List Byte) :
    (s.takeRecord l x r).launches[l]? = some { x with
      records := x.records ++ [(r, x.recordsRead)], recordsRead := x.recordsRead + 1
      failed := x.failed || (recordFault r).isSome, blocksDone := x.blocksDone + if (recordFault r).isSome then 1 else 0 } := by
  unfold State.takeRecord
  simp only
  split
  · next h =>
    refine (State.launches_modLaunch hx _).trans ?_
    simp [h]
  · next h =>
    have logged : ∀ {s' : State} {y : Launch} {a b c d e f}, s'.launches[l]? = some y → (s'.queueEntry a b c d e f).launches[l]? = some y :=
      fun hy => (congrArg (·[l]?) (State.launches_of_quiet (State.quiet_queueEntry ..))).trans hy
    refine (State.launches_modLaunch (logged (State.launches_modLaunch hx _)) _).trans ?_
    simp [h]

theorem State.takeRecord_blocks {s : State} {l : Nat} {x : Launch} {r : List Byte} (h : (recordFault r).isSome = false) :
    (s.takeRecord l x r).blocks = s.blocks := by
  unfold State.takeRecord
  simp only [Option.not_isSome_iff_eq_none.mp (by simpa using h)]
  rfl

theorem State.spendPeer_keeps (s : State) (a : DWord) : (s.spendPeer a).launches = s.launches ∧ (s.spendPeer a).blocks = s.blocks := by
  unfold State.spendPeer
  split <;> exact ⟨rfl, rfl⟩

/-- A launch whose records are read: RECCTR is the address of a counter that the module holds. -/
structure RecordsOpen (s : State) (l : Nat) (x : Launch) (k : Loc) : Prop where
  launch : s.launches[l]? = some x
  started : x.started = true
  running : x.finished = false
  reading : x.recordsEnd = false
  ragged : pktRagged x.pkt = true
  kind : pktKind x.pkt = 1
  counter : s.ccCounter x.ctx (pktRecctr x.pkt) = if (s.ctrTag k).isNone then .untagged else .word (s.ctrWordAt k)
  spends : s.spendPeer (pktRecctr x.pkt) = s

section
variable {s : State} {l : Nat} {x : Launch} {k : Loc} (h : RecordsOpen s l x k)
include h

/-- Without a tag no record is read any more (R330). -/
theorem RecordsOpen.untagged (tag : s.ctrTag k = none) : execRecordRead l s = .next (s.noRecords l x) := by
  obtain ⟨launch, started, running, reading, ragged, kind, counter, spends⟩ := h
  simp [execRecordRead, launch, started, running, reading, ragged, kind, counter, spends, tag]

/-- With ERR none is read either, and records beyond the maximum are noted first. -/
theorem RecordsOpen.err (tag : (s.ctrTag k).isSome = true) (err : ctrErr (s.ctrWordAt k) = true) :
    execRecordRead l s = .next ((s.noteExcess l x (s.ctrWordAt k)).endRecords l true) := by
  obtain ⟨launch, started, running, reading, ragged, kind, counter, spends⟩ := h
  simp [execRecordRead, launch, started, running, reading, ragged, kind, counter, spends, Option.isNone_eq_false_iff.mpr tag, err]

variable (tag : (s.ctrTag k).isSome = true) (err : ctrErr (s.ctrWordAt k) = false) (most : ctrValue (s.ctrWordAt k) ≤ pktBlocks x.pkt)
include tag err most

/-- RETIRED ends the reading once every record below the value is read. -/
theorem RecordsOpen.retired (ret : ctrRetired (s.ctrWordAt k) = true) (done : ctrValue (s.ctrWordAt k) ≤ x.recordsRead) :
    execRecordRead l s = .next (s.endRecords l false) := by
  obtain ⟨launch, started, running, reading, ragged, kind, counter, spends⟩ := h
  simp [execRecordRead, launch, started, running, reading, ragged, kind, counter, spends, Option.isNone_eq_false_iff.mpr tag, err,
    State.noteExcess_none most, Nat.not_lt.mpr done, ret]

/-- The next record below the value is read, no more than 64 ahead. -/
theorem RecordsOpen.next (more : x.recordsRead < ctrValue (s.ctrWordAt k)) (near : x.recordsRead ≤ x.nextGang * pktGang x.pkt + 64) {r : List Byte}
    (hread : s.ccRead x.ctx (pktRecq x.pkt + BitVec.ofNat 64 (16 * x.recordsRead)) 16 = some r) :
    execRecordRead l s = .next ((s.spendPeer (pktRecq x.pkt + BitVec.ofNat 64 (16 * x.recordsRead))).takeRecord l x r) := by
  obtain ⟨launch, started, running, reading, ragged, kind, counter, spends⟩ := h
  simp [execRecordRead, launch, started, running, reading, ragged, kind, counter, spends, Option.isNone_eq_false_iff.mpr tag, err,
    State.noteExcess_none most, more, more.trans_le most, near, hread]

end

theorem Claims.recordsAreRead : Claims.RecordsAreRead := by
  intro s l x t k hx hs hf he hrag hkind ht hk h8 hr hw hh v n ends
  have open_ : RecordsOpen s l x k := ⟨hx, hs, hf, he, hrag, hkind, State.ccCounter_home h8 ht hr hw hk hh, State.spendPeer_home hk hh⟩
  have ended : ∀ {u b}, execRecordRead l s = .next u → RecordsEnded x l b u → ends b :=
    fun {u b} hu ⟨y, hy, hend, hfail, hread⟩ => ⟨u, y, hu, hy, hend, hfail, hread⟩
  refine ⟨fun tag => ?_, fun tag err => ?_, fun tag err ret most done => ?_, fun tag err most more near r hread => ?_⟩
  · exact ended (open_.untagged tag) (State.noRecords_ended hx)
  · obtain ⟨y, hy, same⟩ := State.launch_noteExcess hx v
    obtain ⟨z, hz, hend, hfail, hread⟩ := State.endRecords_ended hy true
    exact ⟨_, z, open_.err tag err, hz, hend, by simpa using hfail, hread.trans same⟩
  · exact ended (open_.retired tag err most ret done) (State.endRecords_ended hx false)
  · obtain ⟨launches, blocks⟩ := s.spendPeer_keeps (pktRecq x.pkt + BitVec.ofNat 64 (16 * x.recordsRead))
    refine ⟨_, _, open_.next tag err most more near hread, State.takeRecord_launch (launches ▸ hx) r, rfl, rfl, fun good => ?_, fun bad => ?_⟩
    · have fine : (recordFault r).isSome = false := by simpa only [Bool.not_eq_true] using mt (recordFault_isSome r).mp good
      exact ⟨by simp [fine], by simp [fine], (State.takeRecord_blocks fine).trans blocks⟩
    · have fault := (recordFault_isSome r).mpr bad
      exact ⟨by simp [fault], by simp [fault]⟩

end Sys2Proof.Machine
end

section
/-! SUPPORT. The placing of gangs (R11, R15, R272, R327 to R329): what is placed, and that nothing else of blocks and warps changes but the load. -/
namespace Sys2Proof.Machine
set_option Elab.async false

/-! ### What the placing of a gang leaves of the warps and blocks that stand -/

/-- A warp may have entered the load; its registers and its clause are as they were. -/
structure Warp.SameStart (x y : Warp) : Prop where
  regs : y.regs = x.regs
  role : y.role = x.role
  clause : y.clause = x.clause
  wcr : y.wcr = x.wcr
  state : y.state = x.state ∨ x.state = .ready ∧ y.state = .active

theorem Warp.SameStart.refl (x : Warp) : x.SameStart x := ⟨rfl, rfl, rfl, rfl, .inl rfl⟩

theorem Warp.SameStart.trans {x y z : Warp} (h : x.SameStart y) (k : y.SameStart z) : x.SameStart z where
  regs := k.regs.trans h.regs
  role := k.role.trans h.role
  clause := k.clause.trans h.clause
  wcr := k.wcr.trans h.wcr
  state := by rcases h.state with e | ⟨e, e'⟩ <;> rcases k.state with f | ⟨f, f'⟩ <;> simp_all

/-- No launch, gang or block has changed, and of the warps only who is in the load, and their lines. -/
structure Settled (s t : State) : Prop where
  launches : t.launches = s.launches
  gangs : t.gangs = s.gangs
  blocks : t.blocks = s.blocks
  count : t.warps.length = s.warps.length
  warps : ∀ w x, s.warp? w = some x → ∃ y, t.warp? w = some y ∧ x.SameStart y

theorem Settled.refl (s : State) : Settled s s := ⟨rfl, rfl, rfl, rfl, fun _ x h => ⟨x, h, .refl x⟩⟩

theorem Settled.trans {s t u : State} (h : Settled s t) (k : Settled t u) : Settled s u where
  launches := k.launches.trans h.launches
  gangs := k.gangs.trans h.gangs
  blocks := k.blocks.trans h.blocks
  count := k.count.trans h.count
  warps w x hx := by
    obtain ⟨y, hy, xy⟩ := h.warps w x hx
    obtain ⟨z, hz, yz⟩ := k.warps w y hy
    exact ⟨z, hz, xy.trans yz⟩

theorem Settled.of_calm {s t : State} (h : t.calm = s.calm) : Settled s t where
  launches := State.launches_of_calm h
  gangs := (congrArg State.gangs h : t.calm.gangs = s.calm.gangs)
  blocks := (congrArg State.blocks h : t.calm.blocks = s.calm.blocks)
  count := congrArg List.length (congrArg State.warps h : t.calm.warps = s.calm.warps)
  warps w x hx := ⟨x, by rw [← hx]; exact congrArg (·[w]?) (congrArg State.warps h : t.calm.warps = s.calm.warps), .refl x⟩

theorem Settled.of_quiet {s t : State} (h : t.quiet = s.quiet) : Settled s t := .of_calm (State.calm_of_quiet h)

theorem Settled.modWarp (s : State) (w : Nat) (f : Warp → Warp) (hf : ∀ x : Warp, x.SameStart (f x)) : Settled s (s.modWarp w f) where
  launches := rfl
  gangs := rfl
  blocks := rfl
  count := List.length_modify ..
  warps v x hx := by
    rw [State.warp?_modWarp, hx]
    split
    · exact ⟨f x, rfl, hf x⟩
    · exact ⟨x, rfl, .refl x⟩

theorem Settled.modWarpsOn (s : State) (cl core : Nat) (f : Warp → Warp) (hf : ∀ x : Warp, x.SameStart (f x)) : Settled s (s.modWarpsOn cl core f) where
  launches := rfl
  gangs := rfl
  blocks := rfl
  count := by simp [State.modWarpsOn]
  warps v x hx := by
    have at_ : (s.modWarpsOn cl core f).warp? v = some (if x.core == core && s.clusterOf v == cl then f x else x) := by
      simp only [State.modWarpsOn, State.warp?, List.getElem?_map, List.getElem?_zipIdx, show s.warps[v]? = some x from hx, Option.map_some, Nat.zero_add]
    refine ⟨_, at_, ?_⟩
    split
    · exact hf x
    · exact .refl x

theorem Settled.foldl {α : Type} (f : State → α → State) (h : ∀ s a, Settled s (f s a)) (l : List α) (s : State) : Settled s (l.foldl f s) := by
  induction l generalizing s with
  | nil => exact .refl s
  | cons a l ih => exact (h s a).trans (ih _)

/-! ### The load, the L1s and the stores of the cores -/

theorem Settled.fillLoad (s : State) (cl core : Nat) : Settled s (s.fillLoad cl core) := by
  unfold State.fillLoad
  refine Settled.foldl _ (fun s (p : Nat × Warp) => .modWarp s p.1 _ fun x => ?_) _ s
  split
  · next ready => exact ⟨rfl, rfl, rfl, rfl, .inr ⟨by simpa using ready, rfl⟩⟩
  · exact .refl x

theorem Settled.fillCores (s : State) (cl : Nat) (cores : List Nat) : Settled s (s.fillCores cl cores) :=
  .foldl _ (fun s c => .fillLoad s cl c) cores s

@[simp] theorem State.quiet_acquireL1 (s : State) (cl core asid : Nat) : (s.acquireL1 cl core asid).quiet = s.quiet :=
  (State.quiet_modCore ..).trans (foldl_quiet _ (fun _ _ => State.quiet_l1ToCC ..) _ _)

@[simp] theorem State.quiet_acquireCC (s : State) (cl asid : Nat) : (s.acquireCC cl asid).quiet = s.quiet :=
  (foldl_quiet _ (fun _ _ => State.quiet_refreshCC ..) _ _).trans (State.quiet_modCC ..)

@[simp] theorem State.quiet_gangAcquire (s : State) (cl asid : Nat) : (s.gangAcquire cl asid).quiet = s.quiet :=
  (State.quiet_acquireCC ..).trans (foldl_quiet _ (fun _ _ => State.quiet_acquireL1 ..) _ _)

theorem Settled.l1Put (s : State) (cl core : Nat) (l : Line) : Settled s (s.l1Put cl core l) := by
  unfold State.l1Put
  have core_ : ∀ (t : State) f, Settled t (t.modCore cl core f) := fun t f => .of_quiet (State.quiet_modCore ..)
  simp only
  split
  · exact core_ ..
  · refine (Settled.modWarpsOn s cl core _ ?_).trans (core_ ..)
    exact fun x => ⟨rfl, rfl, rfl, rfl, .inl rfl⟩

theorem Settled.grant (s : State) (cl core asid vline : Nat) (h : Hint) : Settled s (s.grant cl core asid vline h) := by
  have owned : ((s.clusterSync cl core asid vline).ccFill cl asid vline h).quiet = s.quiet := (State.quiet_ccFill ..).trans (State.quiet_takeL1s ..)
  unfold State.grant
  simp only
  generalize (s.clusterSync cl core asid vline).ccFill cl asid vline h = u at *
  have given : ∀ cores : List Core, Settled s { u with cores := cores } := fun _ => (Settled.of_quiet owned).trans (.of_quiet rfl)
  split
  · exact (given _).trans (.l1Put _ cl core _)
  · exact given _

/-- A change of the pool split leaves the warps but for their victim tags and lines. -/
theorem Settled.splitPool (s : State) (cl core : Nat) : Settled s (s.splitPool cl core) := by
  unfold State.splitPool
  simp only
  have grants : ∀ (v : State) (l : Line), Settled v (v.grant cl core l.asid l.vline .normal) := fun v l => .grant ..
  have granted := Settled.foldl (fun s (l : Line) => s.grant cl core l.asid l.vline .normal) grants ((s.core cl core).l1.filter Line.pending) s
  generalize ((s.core cl core).l1.filter Line.pending).foldl _ s = t at *
  have takes : ∀ (v : State) (l : Line), Settled v (v.l1ToCC cl core l.asid l.vline).1 := fun v l => Settled.of_quiet (State.quiet_l1ToCC ..)
  have written := Settled.foldl (fun s (l : Line) => (s.l1ToCC cl core l.asid l.vline).1) takes ((t.core cl core).l1.filter Line.dirty) t
  generalize ((t.core cl core).l1.filter Line.dirty).foldl _ t = u at *
  have victims : ∀ (v : State) (p : Nat × Warp), Settled v (v.modWarp p.1 (fun x => { x with victims := [] })) := fun v p =>
    .modWarp v p.1 _ fun x => ⟨rfl, rfl, rfl, rfl, .inl rfl⟩
  exact ((granted.trans written).trans (.of_quiet (State.quiet_modCore ..))).trans (.foldl _ victims _ _)

theorem Settled.splitPools (s : State) (b : Nat) : Settled s (s.splitPools b) := by
  unfold State.splitPools
  split
  · exact .refl s
  · exact .foldl _ (fun s c => .splitPool s _ c) _ s

theorem State.quiet_claimCores (s : State) (b cl : Nat) (cores : List Nat) : (s.claimCores b cl cores).quiet = s.quiet := by
  unfold State.claimCores
  refine foldl_quiet _ (fun s c => ?_) cores s
  rw [State.quiet_modCore]
  rfl

/-! ### Blocks and warps as they are placed -/

/-- The block that a specification places on cores. -/
def BlockSpec.block (z : BlockSpec) (l g : Nat) (seats : List Nat) : Block :=
  { launch := l, gang := g, ix := z.ix, cores := sortBy (fun c => [c]) seats.eraseDups, ragmask := z.ragmask, group := z.group, rowbase := z.rowbase
    rflags := z.rflags, paramptr := z.paramptr, slices := [], finished := false, failed := false }

/-- A warp stands at its start, READY or in the load, with the registers of its role (R15, R272). -/
def Warp.Starts (p : List Byte) (y : Warp) : Prop :=
  y.regs = .start (roleRegs p y.role) (roleEntry p y.role) ∧ y.clause = none ∧ (y.state = .ready ∨ y.state = .active) ∧ y.wcr = 0

theorem Warp.SameStart.starts {p : List Byte} {x y : Warp} (h : x.SameStart y) (hx : x.Starts p) : y.Starts p := by
  obtain ⟨regs, clause, state, wcr⟩ := hx
  refine ⟨by rw [h.regs, h.role, regs], h.clause.trans clause, ?_, h.wcr.trans wcr⟩
  rcases h.state with e | ⟨-, e⟩
  · rwa [e]
  · exact .inr e

/-- Blocks have been placed with their warps, each given by its specification and its cores, after those that stand. -/
structure Placed (p : List Byte) (l g : Nat) (ys : List (BlockSpec × List Nat)) (s t : State) : Prop where
  launches : t.launches = s.launches
  gangs : t.gangs = s.gangs
  blocks : t.blocks = s.blocks ++ ys.map (fun y => y.1.block l g y.2)
  count : t.warps.length = s.warps.length + ys.length * pktTotalWarps p
  old : ∀ w x, s.warp? w = some x → ∃ y, t.warp? w = some y ∧ x.SameStart y
  fresh : ∀ w y, s.warps.length ≤ w → t.warp? w = some y → y.Starts p

theorem Settled.placed {s t : State} (h : Settled s t) (p : List Byte) (l g : Nat) : Placed p l g [] s t where
  launches := h.launches
  gangs := h.gangs
  blocks := by simp [h.blocks]
  count := by simp [h.count]
  old := h.warps
  fresh w y hw hy := by
    have : t.warps[w]? = none := List.getElem?_eq_none (h.count ▸ hw)
    exact nomatch hy.symm.trans this

theorem Placed.trans {p : List Byte} {l g : Nat} {ys zs : List (BlockSpec × List Nat)} {s t u : State} (h : Placed p l g ys s t)
    (k : Placed p l g zs t u) : Placed p l g (ys ++ zs) s u where
  launches := k.launches.trans h.launches
  gangs := k.gangs.trans h.gangs
  blocks := by rw [k.blocks, h.blocks, List.map_append, List.append_assoc]
  count := by rw [k.count, h.count, List.length_append, Nat.add_mul, Nat.add_assoc]
  old w x hx := by
    obtain ⟨y, hy, xy⟩ := h.old w x hx
    obtain ⟨z, hz, yz⟩ := k.old w y hy
    exact ⟨z, hz, xy.trans yz⟩
  fresh w z hw hz := by
    cases hy : t.warp? w with
    | none => exact k.fresh w z (List.getElem?_eq_none_iff.mp hy) hz
    | some y =>
      obtain ⟨z', hz', same⟩ := k.old w y hy
      obtain rfl : z' = z := Option.some.inj (hz'.symm.trans hz)
      exact same.starts (h.fresh w y hw hy)

/-- As many warps as the roles have (R24). -/
theorem pktRoleWarps_length (p : List Byte) : (pktRoleWarps p).length = pktTotalWarps p := by
  simp [pktRoleWarps, pktTotalWarps, List.length_flatMap]

theorem Placed.placeBlock (s : State) (l g cl : Nat) (p : List Byte) (z : BlockSpec) {seats : List Nat} (hs : seats.length = pktTotalWarps p) :
    Placed p l g [(z, seats)] s (s.placeBlock l g cl p z seats) := by
  unfold State.placeBlock
  simp only
  generalize (((s.launches[l]?).bind (fun x => s.ctxs[x.ctx]?)).map (fun c => (c.loadF, c.lostMax))).getD (16, 64) = limits
  obtain ⟨lf, lm⟩ := limits
  generalize hws : ((pktRoleWarps p).zip seats).zipIdx.map
    (fun (x, bw) => Warp.start p s.blocks.length x.2 x.1.1 x.1.2 bw s.clk lf lm) = ws
  have len : ws.length = pktTotalWarps p := by subst hws; simp [pktRoleWarps_length, hs]
  have starts : ∀ y ∈ ws, y.Starts p := by
    subst hws
    intro y hy
    obtain ⟨⟨x, bw⟩, -, rfl⟩ := List.mem_map.mp hy
    exact ⟨rfl, rfl, .inl rfl, rfl⟩
  have added : Placed p l g [(z, seats)] s { s with blocks := s.blocks ++ [z.block l g seats], warps := s.warps ++ ws } :=
    { launches := rfl
      gangs := rfl
      blocks := rfl
      count := by simp [len]
      old := fun w x hx => ⟨x, by
        obtain ⟨lt, -⟩ := List.getElem?_eq_some_iff.mp hx
        exact (List.getElem?_append_left lt).trans hx, .refl x⟩
      fresh := fun w y hw hy => starts y (List.mem_of_getElem? ((List.getElem?_append_right hw).symm.trans hy)) }
  refine (added.trans (zs := []) (Settled.placed ?_ p l g) : _)
  split
  · exact (Settled.splitPools _ _).trans (.of_quiet (State.quiet_claimCores ..))
  · exact .splitPools _ _

theorem Placed.foldl (l g cl : Nat) (p : List Byte) {ys : List (BlockSpec × List Nat)} (hs : ∀ y ∈ ys, y.2.length = pktTotalWarps p) (s : State) :
    Placed p l g ys s (ys.foldl (fun s y => s.placeBlock l g cl p y.1 y.2) s) := by
  induction ys generalizing s with
  | nil => exact (Settled.refl s).placed p l g
  | cons y ys ih => exact (Placed.placeBlock s l g cl p y.1 (hs y (by simp))).trans (ih (fun z hz => hs z (by simp [hz])) _)

/-! ### The gang -/

/-- The gang that stands for a new one (R327). -/
def Gang.start (l ix cl : Nat) : Gang :=
  { launch := l, ix := ix, cluster := cl, placed := true, stopping := false, saved := false, damaged := false, killed := false, relaunches := 0 }

/-- A launch whose next gang has been placed. -/
def Launch.placedNext (x : Launch) (clk : Nat) : Launch :=
  { x with nextGang := x.nextGang + 1, records := x.records.drop (pktGang x.pkt), stalled := false, starvedAt := clk }

/-- The blocks of a gang are placed on a cluster, and its warps enter the loads of cores. -/
def State.placeBlocks (s : State) (l g cl asid : Nat) (p : List Byte) (specs : List BlockSpec) (seats : List (List Nat)) (cores : State → List Nat) :
    State :=
  let s := (specs.zip seats).foldl (fun s y => s.placeBlock l g cl p y.1 y.2) (if specs.isEmpty then s else s.gangAcquire cl asid)
  s.fillCores cl (cores s)

theorem Placed.placeBlocks (s : State) (l g cl asid : Nat) {p : List Byte} (specs : List BlockSpec) {seats : List (List Nat)}
    (cores : State → List Nat) (hs : ∀ q ∈ seats, q.length = pktTotalWarps p) :
    Placed p l g (specs.zip seats) s (s.placeBlocks l g cl asid p specs seats cores) := by
  have acquired : Settled s (if specs.isEmpty then s else s.gangAcquire cl asid) := by
    split
    · exact .refl s
    · exact .of_quiet (State.quiet_gangAcquire ..)
  have seated : ∀ y ∈ specs.zip seats, y.2.length = pktTotalWarps p := fun y hy => hs y.2 (List.of_mem_zip (a := y.1) (b := y.2) hy).2
  have placed := (acquired.placed p l g).trans (Placed.foldl l g cl p seated _)
  have all : Placed p l g (([] ++ specs.zip seats) ++ []) s (s.placeBlocks l g cl asid p specs seats cores) :=
    placed.trans ((Settled.fillCores _ cl _).placed p l g)
  rwa [List.nil_append, List.append_nil] at all

/-- How a new gang is placed. -/
theorem State.placeGang_new (s : State) (l cl ix : Nat) (x : Launch) (specs : List BlockSpec) (seats : List (List Nat)) :
    ∃ served clk, s.placeGang l x { again := none, ix := ix, specs := specs } cl seats =
      State.modLaunch { State.placeBlocks { s with gangs := s.gangs ++ [.start l ix cl] } l s.gangs.length cl (s.asid x.ctx) x.pkt specs seats
        (fun t => t.coresOf (t.blocksOf s.gangs.length)) with lastServed := served } l (fun y => y.placedNext clk) :=
  ⟨_, _, rfl⟩

/-- The gang that a started launch has due next, where it is none of a relaunch (R329). -/
theorem State.due_new {s : State} {l : Nat} {x : Launch} {d : Due} (hx : s.launches[l]? = some x) (hd : s.due l = some d) (hn : d.again = none) :
    d.ix = x.nextGang ∧ (pktRagged x.pkt = false → d.specs = (List.range (min (pktGang x.pkt) (pktBlocks x.pkt - x.nextGang * pktGang x.pkt))).map
      (fun i => plainSpec x.pkt (x.nextGang * pktGang x.pkt + i))) := by
  unfold State.due at hd
  simp only [hx] at hd
  split at hd
  · exact nomatch hd
  · split at hd
    · next g _ =>
      cases hg : s.gangs[g]? with
      | none => rw [hg] at hd; exact nomatch hd
      | some y => rw [hg] at hd; cases hd; exact nomatch hn
    · split at hd
      · next ragged =>
        split at hd
        · cases hd; exact ⟨rfl, fun h => nomatch ragged.symm.trans h⟩
        · exact nomatch hd
      · split at hd
        · cases hd; exact ⟨rfl, fun _ => rfl⟩
        · exact nomatch hd

/-- Seats that fit seat every block, and every warp of it. -/
theorem seats_of_fit {p : List Byte} {us : List Use} {n : Nat} {seats : List (List Nat)} (h : seatsFit p us n seats = true) :
    seats.length = n ∧ ∀ q ∈ seats, q.length = pktTotalWarps p := by
  unfold seatsFit at h
  simp only [Bool.and_eq_true, beq_iff_eq, List.all_eq_true] at h
  obtain ⟨⟨blocks, each⟩, -⟩ := h
  exact ⟨blocks, fun q hq => (each q hq).1⟩

/-- A launch whose turn it is, and whose blocks fit, places its next gang (R327). -/
theorem execGangPlace_fits {s : State} {l cl : Nat} {seats : List (List Nat)} {x : Launch} {d : Due} (hx : s.launches[l]? = some x)
    (hd : s.due l = some d) (turn : (s.candidates (s.saggarOfLaunch l)).contains l = true)
    (first : ∀ k ∈ s.candidates (s.saggarOfLaunch l), k = l ∨ lexLe (s.tryKey l) (s.tryKey k) = true ∨ s.roomFor k = none)
    (serves : s.clusterServes (s.saggarOfLaunch l) cl = true) (fit : seatsFit x.pkt (s.clusterUse cl) d.specs.length seats = true) :
    execGangPlace l cl seats s = .next ((s.placeGang l x d cl seats).launchCheck l) := by
  have before : ((s.candidates (s.saggarOfLaunch l)).all (fun k => k == l || lexLe (s.tryKey l) (s.tryKey k) || (s.roomFor k).isNone)) = true :=
    List.all_eq_true.mpr fun k hk => by simpa [or_assoc] using first k hk
  unfold execGangPlace
  simp only [hd, hx, turn, before, serves, fit]
  simp [when_]

theorem Claims.gangsArePlaced : Claims.GangsArePlaced := by
  intro s l cl seats x d hx hd hn sag hne turn first serves fit
  obtain ⟨blocks, each⟩ := seats_of_fit fit
  obtain ⟨ix, plain⟩ := State.due_new hx hd hn
  have run := execGangPlace_fits hx hd turn first serves fit
  obtain ⟨again, dix, specs⟩ := d
  obtain rfl : again = none := hn
  obtain ⟨served, clk, placing⟩ := s.placeGang_new l cl dix x specs seats
  generalize hu : State.placeBlocks { s with gangs := s.gangs ++ [.start l dix cl] } l s.gangs.length cl (s.asid x.ctx) x.pkt specs seats
    (fun t => t.coresOf (t.blocksOf s.gangs.length)) = u at placing
  have placed : Placed x.pkt l s.gangs.length (specs.zip seats) { s with gangs := s.gangs ++ [.start l dix cl] } u := hu ▸ .placeBlocks _ _ _ _ _ _ _ each
  obtain ⟨launches, gangs, blocksEq, count, old, fresh⟩ := placed
  have before : (s.placeGang l x { again := none, ix := dix, specs := specs } cl seats).launches[l]? = some (x.placedNext clk) := by
    rw [placing]
    exact State.launches_modLaunch (by rw [show u.launches = s.launches from launches, hx]) _
  have same := State.calm_launchCheck before
  generalize (s.placeGang l x { again := none, ix := dix, specs := specs } cl seats) = v at *
  have zipped : (specs.zip seats).length = specs.length := by rw [List.length_zip, show seats.length = specs.length from blocks, Nat.min_self]
  have tgangs : (v.launchCheck l).gangs = u.gangs := (congrArg State.gangs same).trans (by rw [placing]; rfl)
  have tblocks : (v.launchCheck l).blocks = u.blocks := (congrArg State.blocks same).trans (by rw [placing]; rfl)
  have twarps : (v.launchCheck l).warps = u.warps := (congrArg State.warps same).trans (by rw [placing]; rfl)
  have twarp : ∀ w, (v.launchCheck l).warp? w = u.warp? w := fun w => congrArg (·[w]?) twarps
  refine ⟨_, run, ⟨.start l dix cl, by rw [tgangs, gangs], rfl, ix, rfl, rfl⟩, ?_, ?_, ?_, fun w hw => ?_, fun k z hz => ?_, fun w y hw hy => ?_,
    fun ragged k z hz => ?_⟩
  · rw [State.launch_launchCheck before]; rfl
  · rw [tblocks, blocksEq, List.length_append, List.length_map, zipped]
  · rw [twarps, count, zipped]
  · obtain ⟨y, hy, kept⟩ := old w s.warps[w] (List.getElem?_eq_getElem hw)
    rw [State.regs_of_warp? ((twarp w).trans hy), kept.regs]
    exact (State.regs_of_warp? (List.getElem?_eq_getElem hw)).symm
  · have seat : (specs.zip seats)[k]? = some (z, seats.getD k []) := by
      obtain ⟨lt, -⟩ := List.getElem?_eq_some_iff.mp hz
      have : k < seats.length := blocks ▸ lt
      simp [List.getElem?_zip_eq_some, hz, this]
    refine ⟨z.block l s.gangs.length (seats.getD k []), ?_, rfl, rfl, rfl, rfl, rfl, rfl, rfl, rfl, rfl⟩
    rw [tblocks, blocksEq, List.getElem?_append_right (Nat.le_add_right ..), Nat.add_sub_cancel_left, List.getElem?_map, seat]
    rfl
  · exact fresh w y hw ((twarp w).symm.trans hy)
  · have spec : specs = _ := plain ragged
    rw [show ({ again := none, ix := dix, specs := specs } : Due).specs = specs from rfl, spec, List.getElem?_map] at hz
    obtain ⟨i, hi, rfl⟩ := Option.map_eq_some_iff.mp hz
    obtain ⟨lt, hget⟩ := List.getElem?_eq_some_iff.mp hi
    rw [List.getElem_range] at hget
    subst hget
    rw [List.length_range] at lt
    exact ⟨rfl, show x.nextGang * pktGang x.pkt + k < pktBlocks x.pkt by omega, rfl, rfl⟩

end Sys2Proof.Machine

open Sys2Proof.Machine in
/-- Settles O35: RECCTR's word decides how the reading goes on (R330); a gang is placed block by block, and what follows only fills the loads. -/
theorem gangsArePlaced : Obligations.GangsArePlaced := by
  unfold Obligations.GangsArePlaced
  exact ⟨Claims.recordsAreRead, Claims.gangsArePlaced⟩
end

section
/-! SUPPORT. What the memory system, the logs and adds to counters leave of contexts: the contexts but for their logs, and so their queues. -/
namespace Sys2Proof.Machine
set_option Elab.async false

/-! ### The memory system leaves the contexts -/

theorem foldl_ctxs {α : Type} (f : State → α → State) (h : ∀ s a, (f s a).ctxs = s.ctxs) (l : List α) (s : State) : (l.foldl f s).ctxs = s.ctxs := by
  induction l generalizing s with
  | nil => rfl
  | cons a l ih => rw [List.foldl_cons, ih, h]

@[simp] theorem State.ctxs_endMigration (s : State) (a v : Nat) : (s.endMigration a v).ctxs = s.ctxs := by
  unfold State.endMigration
  split
  · rfl
  · split
    · rfl
    · simp only
      split <;> rfl

@[simp] theorem State.ctxs_pull (s : State) (p : Nat) : (s.pull p).ctxs = s.ctxs := by
  unfold State.pull
  split
  · rfl
  · simp only
    split
    · rfl
    · rw [State.ctxs_endMigration]
      rfl

@[simp] theorem State.ctxs_stackTake (s : State) (l : Line) (p : Nat) : (s.stackTake l p).ctxs = s.ctxs := State.ctxs_pull s p

@[simp] theorem State.ctxs_llcClean (s : State) (a v : Nat) : (s.llcClean a v).1.ctxs = s.ctxs := by
  unfold State.llcClean
  split
  · rfl
  · split
    · rfl
    · split
      · rfl
      · simp

theorem makeRoom_ctxs (set : State → List Line) (ways : Nat) (evict : Line → State → State) (h : ∀ v s, (evict v s).ctxs = s.ctxs) (n : Nat)
    (s : State) : (makeRoom set ways evict n s).ctxs = s.ctxs := by
  induction n generalizing s with
  | zero => rfl
  | succ n ih =>
    unfold makeRoom
    split
    · rfl
    · split
      · rfl
      · rw [ih, h]

theorem State.ctxs_llcEvict (v : Line) (s : State) : (s.llcEvict v).ctxs = s.ctxs := State.ctxs_llcClean ..

@[simp] theorem State.ctxs_llcFill (s : State) (a v : Nat) (h : Hint) : (s.llcFill a v h).ctxs = s.ctxs := by
  have room : (s.llcRoom a v).ctxs = s.ctxs := makeRoom_ctxs _ _ _ State.ctxs_llcEvict _ _
  unfold State.llcFill
  split
  · rfl
  · split
    · rfl
    · simp only
      split
      · exact (State.ctxs_pull ..).trans room
      · exact room

@[simp] theorem State.ctxs_homeWrite (s : State) (a va : Nat) (v : Byte) : (s.homeWrite a va v).ctxs = s.ctxs := by
  unfold State.homeWrite
  simp only
  split
  · exact (State.ctxs_pull ..).trans (State.ctxs_llcFill ..)
  · exact State.ctxs_llcFill ..

@[simp] theorem State.ctxs_homeTake (s : State) (l : Line) : (s.homeTake l).1.ctxs = s.ctxs := by
  unfold State.homeTake
  split
  · rfl
  · simp only
    split
    · split <;> exact State.ctxs_llcFill ..
    · split
      · exact (State.ctxs_stackTake ..).trans (State.ctxs_llcFill ..)
      · exact State.ctxs_llcFill ..
    · exact State.ctxs_llcFill ..

@[simp] theorem State.ctxs_l1ToCC (s : State) (cl c a v : Nat) : (s.l1ToCC cl c a v).1.ctxs = s.ctxs := by
  unfold State.l1ToCC
  split
  · rfl
  · split
    · rfl
    · simp only
      split
      · split <;> simp
      · split <;> simp

@[simp] theorem State.ctxs_takeL1s (cl a v : Nat) (l : List Nat) (s : State) : (takeL1s cl a v l s).1.ctxs = s.ctxs := by
  induction l generalizing s with
  | nil => rfl
  | cons c l ih => exact (ih _).trans (State.ctxs_l1ToCC ..)

@[simp] theorem State.ctxs_flushLine (s : State) (cl a v : Nat) : (s.flushLine cl a v).1.ctxs = s.ctxs := by
  unfold State.flushLine
  simp only
  split
  · simp
  · split <;> simp

@[simp] theorem State.ctxs_invalLine (s : State) (cl a v : Nat) : (s.invalLine cl a v).ctxs = s.ctxs := by
  unfold State.invalLine
  simp only
  split
  · exact State.modCC_ctxs ..
  · exact State.modCC_ctxs ..

@[simp] theorem State.ctxs_pullAt (s : State) (l : Loc) : (s.pullAt l).ctxs = s.ctxs := by
  unfold State.pullAt
  split
  · exact State.ctxs_pull ..
  · split
    · exact State.ctxs_pull ..
    · rfl
  all_goals rfl

@[simp] theorem State.ctxs_homeReady (s : State) (cl : Option Nat) (l : Loc) : (s.homeReady cl l).ctxs = s.ctxs := by
  have recalled : ∀ a v, (s.recallOwners a v).ctxs = s.ctxs := fun a v => foldl_ctxs _ (fun _ _ => by simp) _ _
  unfold State.homeReady
  split
  · simp only
    split
    · exact (State.ctxs_invalLine ..).trans (recalled ..)
    · exact recalled ..
  all_goals exact State.ctxs_pullAt ..

@[simp] theorem State.ctxs_placeWrite (s : State) (l : Loc) (i : Nat) (v : Byte) : (s.placeWrite l i v).ctxs = s.ctxs := by
  unfold State.placeWrite
  split
  · exact State.ctxs_homeWrite ..
  · exact State.ctxs_pull ..
  all_goals rfl

@[simp] theorem State.ctxs_ctrUpdate (s : State) (l : Loc) (inc : DWord) : (s.ctrUpdate l inc).1.ctxs = s.ctxs := by
  unfold State.ctrUpdate
  split
  · split
    · rfl
    · split <;> rfl
  all_goals
    split
    · rfl
    · simp only
      split
      · exact State.ctxs_homeReady ..
      · exact (foldl_ctxs _ (fun s i => State.ctxs_placeWrite ..) _ _).trans (State.ctxs_homeReady ..)

@[simp] theorem State.ctxs_ccWrite (s : State) (c : Nat) (va : DWord) (bs : List Byte) : (s.ccWrite c va bs).ctxs = s.ctxs := by
  induction bs generalizing s va with
  | nil => rfl
  | cons b r ih =>
    unfold State.ccWrite
    simp only
    rw [ih]
    split <;> simp

@[simp] theorem State.ctxs_logWrite (s : State) (c : Nat) (k : LogKind) (va : DWord) (bs : List Byte) : (s.logWrite c k va bs).ctxs = s.ctxs := by
  unfold State.logWrite
  split
  · exact foldl_ctxs _ (fun s x => State.ctxs_placeWrite ..) _ _
  all_goals exact State.ctxs_ccWrite ..

/-! ### Logs and adds leave the queues -/

/-- The queues of every context. -/
def State.queues (s : State) : List (List Queue) := s.ctxs.map Ctx.queues

/-- A queue of a context. -/
theorem State.queue_of_queues (s : State) (ctx q : Nat) : (s.ctxs[ctx]?).bind (fun c => c.queues[q]?) = (s.queues[ctx]?).bind (·[q]?) := by
  rw [State.queues, List.getElem?_map]
  cases s.ctxs[ctx]? <;> rfl

theorem State.queues_of_ctxs {s t : State} (h : t.ctxs = s.ctxs) : t.queues = s.queues := by unfold State.queues; rw [h]

theorem map_upd {α β : Type} (f : α → α) (g : α → β) (h : ∀ x, g (f x) = g x) (l : List α) (i : Nat) : (upd l i f).map g = l.map g := by
  refine List.ext_getElem? fun n => ?_
  rw [List.getElem?_map, List.getElem?_map, upd_get]
  split
  · cases l[n]? <;> simp [h]
  · rfl

theorem State.queues_modCtx (s : State) (c : Nat) (f : Ctx → Ctx) (h : ∀ x, (f x).queues = x.queues) : (s.modCtx c f).queues = s.queues :=
  map_upd f Ctx.queues h ..

@[simp] theorem State.queues_modLog (s : State) (c : Nat) (k : LogKind) (f : Log → Log) : (s.modLog c k f).queues = s.queues := by
  unfold State.modLog
  cases k with
  | inbound => rfl
  | queue => exact State.queues_modCtx s c (fun c => { c with qlog := f c.qlog }) fun _ => rfl
  | copy => exact State.queues_modCtx s c (fun c => { c with clog := f c.clog }) fun _ => rfl
  | trap => exact State.queues_modCtx s c (fun c => { c with tlog := f c.tlog }) fun _ => rfl

@[simp] theorem State.queues_putEntry (s : State) (c : Nat) (k : LogKind) (w : Nat) (r : List DWord) : (s.putEntry c k w r).1.queues = s.queues := by
  unfold State.putEntry
  simp only
  split
  · rfl
  · split
    · simp
    · rw [State.queues_modLog]
      refine State.queues_of_ctxs ?_
      split <;> simp

@[simp] theorem State.queues_logEntry (s : State) (c : Nat) (k : LogKind) (w : Nat) (r : List DWord) : (s.logEntry c k w r).queues = s.queues := by
  unfold State.logEntry State.lostAdd
  simp only
  split <;> simp

@[simp] theorem State.queues_queueEntry (s : State) (ctx q src why : Nat) (lix item : DWord) :
    (s.queueEntry ctx q src why lix item).queues = s.queues := State.queues_logEntry ..

@[simp] theorem State.queues_schedAdd (s : State) (ctx lix : Nat) (va inc : DWord) : (s.schedAdd ctx lix va inc).queues = s.queues := by
  have updated : ∀ l, (s.ctrUpdate l inc).1.queues = s.queues := fun l => State.queues_of_ctxs (State.ctxs_ctrUpdate ..)
  have lost : ∀ (t : State) r n, (t.lostAdd ctx lix va r n).queues = t.queues := fun t r n => State.queues_putEntry ..
  unfold State.schedAdd
  simp only
  split
  · rfl
  · split
    · exact lost ..
    · split
      · exact updated _
      · exact (lost ..).trans (updated _)

@[simp] theorem State.queues_signalDone (s : State) (ctx lix : Nat) (p : List Byte) (b : Bool) : (s.signalDone ctx lix p b).queues = s.queues := by
  unfold State.signalDone
  split
  · rfl
  · exact State.queues_schedAdd ..

@[simp] theorem State.queues_launchCheck (s : State) (l : Nat) : (s.launchCheck l).queues = s.queues := by
  unfold State.launchCheck
  split
  · rfl
  · split
    · exact State.queues_signalDone ..
    · rfl

@[simp] theorem State.queues_launchFail (s : State) (l : Nat) : (s.launchFail l).queues = s.queues := by
  unfold State.launchFail
  split
  · rfl
  · split
    · rfl
    · exact State.queues_signalDone ..

end Sys2Proof.Machine
end

section
/-! SUPPORT. What translation rests on: memory, the tables of the module, and the contexts but for their queues. -/
namespace Sys2Proof.Machine
set_option Elab.async false

/-- A context but for its queues. -/
def Ctx.unqueued (c : Ctx) : Ctx := { c with queues := [] }

/-- Nothing that translation and the words of counters rest on has changed. -/
structure SamePages (s t : State) : Prop where
  mem : t.mem = s.mem
  tlb : t.tlb = s.tlb
  partition : t.partition = s.partition
  gangs : t.gangs = s.gangs
  pinned : t.pinned = s.pinned
  tags : t.tags = s.tags
  frames : t.frames = s.frames
  migrations : t.migrations = s.migrations
  ctxs : t.ctxs.map Ctx.unqueued = s.ctxs.map Ctx.unqueued
  launches : t.launches.map Launch.ctx = s.launches.map Launch.ctx

section
variable {s t : State} (h : SamePages s t)
include h

theorem SamePages.ctx {α : Type} (f : Ctx → α) (hf : ∀ c : Ctx, f c.unqueued = f c) (i : Nat) : (t.ctxs[i]?).map f = (s.ctxs[i]?).map f := by
  have same := congrArg (fun l => (l[i]?).map f) h.ctxs
  simpa only [List.getElem?_map, Option.map_map, Function.comp_def, hf] using same

theorem SamePages.asid (c : Nat) : t.asid c = s.asid c := by rw [State.asid, h.ctx Ctx.asid fun _ => rfl]; rfl

theorem SamePages.ctxOfAsid (a : Nat) : t.ctxOfAsid a = s.ctxOfAsid a := by
  have same := congrArg (List.findIdx? (fun c => c.live && c.asid == a)) h.ctxs
  rw [List.findIdx?_map, List.findIdx?_map] at same
  exact same

theorem SamePages.saggarOfAsid (a : Nat) : t.saggarOfAsid a = s.saggarOfAsid a := by
  unfold State.saggarOfAsid
  rw [h.ctxOfAsid]
  cases s.ctxOfAsid a with
  | none => rfl
  | some c => exact congrArg (·.getD 0) (h.ctx Ctx.saggar (fun _ => rfl) c)

theorem SamePages.launchAsid (l a : Nat) :
    ((t.launches[l]?).map (fun x => t.asid x.ctx) == some a) = ((s.launches[l]?).map (fun x => s.asid x.ctx) == some a) := by
  have same := congrArg (fun ls => (ls[l]?).map s.asid) h.launches
  simp only [List.getElem?_map, Option.map_map, Function.comp_def] at same
  simp only [h.asid, same]

theorem SamePages.homeOf (a vline : Nat) : t.homeOf a vline = s.homeOf a vline := by
  unfold State.homeOf State.liveSlices
  rw [h.saggarOfAsid, h.partition]

theorem SamePages.diesRunning (a : Nat) : t.diesRunning a = s.diesRunning a := by simp only [State.diesRunning, h.gangs, h.launchAsid]

theorem SamePages.stationsAt (a va : Nat) : t.stationsAt a va = s.stationsAt a va := by
  have line : t.lcmLine a va = s.lcmLine a va := by unfold State.lcmLine State.lcmWide; rw [h.pinned]
  have slice : ∀ g k, t.sliceAt g k = s.sliceAt g k := fun g k => by unfold State.sliceAt State.slices; rw [h.partition]
  unfold State.stationsAt
  rw [line, h.homeOf, h.diesRunning, h.partition]
  simp only [slice]

/-- Translation is the same. -/
theorem SamePages.translate (ctx va : Nat) : t.translate ctx va = s.translate ctx va := by
  have found := h.ctx (fun c => (c.asid, c.root)) (fun _ => rfl) ctx
  unfold State.translate
  cases hs : s.ctxs[ctx]? with
  | none =>
    have ht : t.ctxs[ctx]? = none := by simpa [hs] using found
    simp only [ht]
  | some c =>
    obtain ⟨d, ht, asid, root⟩ : ∃ d, t.ctxs[ctx]? = some d ∧ d.asid = c.asid ∧ d.root = c.root := by
      simpa [hs, Option.map_eq_some_iff, Prod.ext_iff] using found
    simp only [ht, asid, root, h.mem, h.tlb, h.stationsAt]

/-- An address lies where it lay. -/
theorem SamePages.ctxLoc (ctx : Nat) (va : DWord) : t.ctxLoc ctx va = s.ctxLoc ctx va := by
  simp only [State.ctxLoc, h.translate, h.asid]

end

theorem SamePages.trans {s t u : State} (h : SamePages s t) (k : SamePages t u) : SamePages s u :=
  ⟨k.mem.trans h.mem, k.tlb.trans h.tlb, k.partition.trans h.partition, k.gangs.trans h.gangs, k.pinned.trans h.pinned, k.tags.trans h.tags,
    k.frames.trans h.frames, k.migrations.trans h.migrations, k.ctxs.trans h.ctxs, k.launches.trans h.launches⟩

theorem SamePages.spendPeer (s : State) (va : DWord) : SamePages s (s.spendPeer va) := by
  unfold State.spendPeer
  split <;> exact ⟨rfl, rfl, rfl, rfl, rfl, rfl, rfl, rfl, rfl, rfl⟩

theorem SamePages.modQueue (s : State) (ctx q : Nat) (f : Queue → Queue) : SamePages s (s.modQueue ctx q f) where
  mem := rfl
  tlb := rfl
  partition := rfl
  gangs := rfl
  pinned := rfl
  tags := rfl
  frames := rfl
  migrations := rfl
  ctxs := map_upd (fun c : Ctx => { c with queues := c.queues.modify q f }) Ctx.unqueued (fun _ => rfl) s.ctxs ctx
  launches := rfl

theorem SamePages.modLaunch (s : State) (l : Nat) (f : Launch → Launch) (hf : ∀ x, (f x).ctx = x.ctx) : SamePages s (s.modLaunch l f) :=
  ⟨rfl, rfl, rfl, rfl, rfl, rfl, rfl, rfl, rfl, map_upd f Launch.ctx hf ..⟩

end Sys2Proof.Machine
end

section
/-! SUPPORT. The start of queue heads (R29, R32, R324 to R326): the dependence, the queue, the launch, and the add to DONECTR. -/
namespace Sys2Proof.Machine
set_option Elab.async false

/-! ### The dependence (R29) -/

theorem Claims.dependencesAreJudged : Claims.DependencesAreJudged := by
  refine fun s ctx p t l => ⟨fun h0 => by simp [State.judgeDep, h0], ?_⟩
  intro hne h8 _ ht hr hw hl hh v
  unfold State.judgeDep
  rw [if_neg (by simpa using hne), State.ccCounter_home h8 ht hr hw hl hh]
  by_cases tag : (s.ctrTag l).isNone
  · simp only [tag, if_true]
  · simp only [tag]
    rfl

/-! ### A queue of a context -/

/-- A queue of a context. -/
def State.queue? (s : State) (ctx q : Nat) : Option Queue := (s.queues[ctx]?).bind (·[q]?)

theorem State.queue?_eq (s : State) (ctx q : Nat) : s.queue? ctx q = (s.ctxs[ctx]?).bind (fun c => c.queues[q]?) :=
  (State.queue_of_queues ..).symm

theorem State.queue?_of_queues {s t : State} (h : t.queues = s.queues) (ctx q : Nat) : t.queue? ctx q = s.queue? ctx q := by
  unfold State.queue?; rw [h]

theorem State.queue?_map {α : Type} (s : State) (ctx q : Nat) (f : Queue → α) :
    (s.ctxs[ctx]?).bind (fun c => (c.queues[q]?).map f) = (s.queue? ctx q).map f := by
  rw [State.queue?_eq]
  cases s.ctxs[ctx]? <;> rfl

theorem State.queue?_modQueue (s : State) (ctx q : Nat) (f : Queue → Queue) : (s.modQueue ctx q f).queue? ctx q = (s.queue? ctx q).map f := by
  rw [State.queue?_eq, State.queue?_eq, State.modQueue, State.modCtx_ctxs, upd_get, if_pos rfl]
  cases s.ctxs[ctx]? with
  | none => rfl
  | some c => simp

theorem State.spendPeer_others (s : State) (a : DWord) : { s.spendPeer a with freeCtr := s.freeCtr } = s := by
  unfold State.spendPeer
  split <;> rfl

/-! ### The head of a queue -/

/-- The head of a queue that starts: it has left, and its launch has begun (R29, R324). -/
def State.beginHead (s : State) (ctx q l : Nat) (p : List Byte) : State :=
  ((s.spendPeer (pktDep p)).popHead ctx q true).modLaunch l
    (fun x => { x with started := true, startedAt := (s.spendPeer (pktDep p)).clk, starvedAt := (s.spendPeer (pktDep p)).clk })

section
variable {s : State} {ctx q l kind : Nat} {p : QPkt} (hst : s.startable ctx q kind = some (p, l)) (f : State → Nat → State)
include hst

theorem State.startHead_met (h : s.judgeDep ctx p.bytes = .met) : s.startHead ctx q kind f = f (s.beginHead ctx q l p.bytes) l := by
  simp only [State.startHead, hst, h]
  rfl

theorem State.startHead_waits (h : s.judgeDep ctx p.bytes = .waits) : s.startHead ctx q kind f = s.spendPeer (pktDep p.bytes) := by
  simp only [State.startHead, hst, h]

theorem State.startHead_failed {why : Nat} (h : s.judgeDep ctx p.bytes = .failed why) :
    ∃ lix, s.startHead ctx q kind f =
      (((s.spendPeer (pktDep p.bytes)).popHead ctx q false).queueEntry ctx q 2 why lix p.addr).launchFail l := by
  simp only [State.startHead, hst, h]
  exact ⟨_, rfl⟩

end

section
variable {s : State} {ctx q l : Nat} {x : Launch} {d : Queue} {p : List Byte}

theorem State.beginHead_launch (hx : s.launches[l]? = some x) :
    ∃ a b, (s.beginHead ctx q l p).launches[l]? = some { x with started := true, startedAt := a, starvedAt := b } :=
  ⟨_, _, State.launches_modLaunch ((congrArg (·[l]?) (s.spendPeer_keeps _).1).trans hx) _⟩

theorem State.popHead_queue (hd : s.queue? ctx q = some d) (a : DWord) (b : Bool) :
    ((s.spendPeer a).popHead ctx q b).queue? ctx q = some { d with pkts := d.pkts.drop 1, starts := if b then (d.starts + 1) % 2 ^ 32 else d.starts } := by
  have same : (s.spendPeer a).queue? ctx q = some d := by
    rw [← hd]
    exact State.queue?_of_queues (by unfold State.spendPeer; split <;> rfl) ctx q
  rw [State.popHead, State.queue?_modQueue, same, Option.map_some]

theorem State.beginHead_queue (hd : s.queue? ctx q = some d) :
    (s.beginHead ctx q l p).queue? ctx q = some { d with pkts := d.pkts.drop 1, starts := (d.starts + 1) % 2 ^ 32 } :=
  State.popHead_queue hd _ true

theorem SamePages.beginHead (s : State) (ctx q l : Nat) (p : List Byte) : SamePages s (s.beginHead ctx q l p) :=
  ((SamePages.spendPeer s _).trans (.modQueue _ ctx q _)).trans (.modLaunch _ l _ fun _ => rfl)

theorem State.launch_launchFail (hx : s.launches[l]? = some x) (hf : x.finished = false) :
    (s.launchFail l).launches[l]? = some { x with finished := true, failed := true, started := true } := by
  unfold State.launchFail
  simp only [hx, hf, Bool.false_eq_true, if_false]
  exact (congrArg (·[l]?) (State.launches_of_calm (State.calm_signalDone ..))).trans (State.launches_modLaunch hx _)

end

/-! ### The add to DONECTR (R32, R325) -/

/-- A counter on an NC page below the live-shelf table, its page mapped once, while no page migrates. -/
structure PlainCounter (s : State) (k : Loc) : Prop where
  place : k.place = .nc
  below : k.addr + 8 ≤ shelfTable
  alone : ∀ j < 8, s.aliased (k.addr + j) = false
  still : s.migrations = []

/-- The word of such a counter is what memory holds there. -/
theorem PlainCounter.word {s : State} {k : Loc} (h : PlainCounter s k) :
    s.ctrWordAt k = BitVec.ofNat 64 (leNat ((List.range 8).map (fun i => s.mem.read (k.addr + i)))) := by
  obtain ⟨place, below, alone, still⟩ := h
  refine congrArg (fun l => BitVec.ofNat 64 (leNat l)) (List.map_congr_left fun i hi => ?_)
  have small : i < 8 := by simpa using hi
  have outside : ¬shelfTable ≤ k.addr + i := by omega
  simp [State.placeRead, place, State.physRead, outside, alone i small, State.stackKey, still]

theorem PlainCounter.congr {s t : State} {k : Loc} (h : PlainCounter s k) (hf : t.frames = s.frames) (hm : t.migrations = []) : PlainCounter t k :=
  ⟨h.place, h.below, fun j hj => by unfold State.aliased; rw [hf]; exact h.alone j hj, hm⟩

/-- The scheduler's add to such a counter, tagged and not retired, is made (R366). -/
theorem PlainCounter.schedAdd {s : State} {k : Loc} {ctx : Nat} {va : DWord} (h : PlainCounter s k) (hk : s.ctxLoc ctx va = some k)
    (hw : s.mem.wf = true) (tag : (s.ctrTag k).isSome = true) (live : ctrRetired (s.ctrWordAt k) = false) (lix : Nat) (inc : DWord) :
    (s.schedAdd ctx lix va inc).ctrWordAt k = ctrPlus (s.ctrWordAt k) inc := by
  have ready : s.homeReady none k = s := by simp [State.homeReady, State.pullAt, h.place, State.pull_of_no_migrations h.still]
  obtain ⟨tagged, htag⟩ := Option.isSome_iff_exists.mp tag
  have made : s.ctrUpdate k inc = (s.placePut k 8 (ctrPlus (s.ctrWordAt k) inc), .made) := by
    simp [State.ctrUpdate, h.place, htag, ready, live]
  have run : s.schedAdd ctx lix va inc = s.placePut k 8 (ctrPlus (s.ctrWordAt k) inc) := by
    simp [State.schedAdd, State.pageDue_of_ctxLoc hk, hk, made, AddEnd.reason]
  have key : placeKey k = some k.addr := by simp [placeKey, h.place]
  have after : PlainCounter (s.placePut k 8 (ctrPlus (s.ctrWordAt k) inc)) k :=
    h.congr (congrArg State.frames (State.quiet_placePut ..) : _) (State.placePut_migrations key h.still)
  rw [run, after.word]
  refine BitVec.eq_of_getLsbD_eq fun i hi => ?_
  have h8 : i < 8 * 8 := hi
  rw [getLsbD_leNat_range _ hi, decide_eq_true h8, Bool.true_and, State.placePut_read key h.still hw (by omega), BitVec.getLsbD_extractLsb',
    show 8 * (i / 8) + i % 8 = i by omega]
  simp [Nat.mod_lt]

end Sys2Proof.Machine
end

section
/-! SUPPORT. The start of each kind of packet (R29, R325, R326). -/
namespace Sys2Proof.Machine
set_option Elab.async false

/-- The head of a queue that is accepted, not held, and whose time has come: it may start but for its dependence (R29, R326). -/
structure HeadReady (s : State) (ctx q l : Nat) (d : Queue) (p : QPkt) (r : List QPkt) (x : Launch) : Prop where
  queue : s.queue? ctx q = some d
  pkts : d.pkts = p :: r
  startable : s.startable ctx q (pktKind p.bytes) = some (p, l)
  launch : s.launches[l]? = some x
  packet : x.pkt = p.bytes
  running : x.finished = false

/-- What an instruction that starts a queue's head does, by what the dependence says, with what else it does once the head has started. -/
def StartsAs (s : State) (ctx q l : Nat) (d : Queue) (p : QPkt) (r : List QPkt) (i : Instr) (after : State → Prop) : Prop :=
  let queue := fun (t : State) => (t.ctxs[ctx]?).bind (fun c => (c.queues[q]?).map (fun d => (d.pkts, d.starts)))
  (s.judgeDep ctx p.bytes = .met →
    ∃ t, exec i s = .next t ∧ (t.launches[l]?).map Launch.started = some true ∧ queue t = some (r, (d.starts + 1) % 2 ^ 32) ∧ after t) ∧
  (s.judgeDep ctx p.bytes = .waits → ∃ t, exec i s = .next t ∧ { t with freeCtr := s.freeCtr } = s) ∧
  (∀ why, s.judgeDep ctx p.bytes = .failed why →
    ∃ t, exec i s = .next t ∧ (t.launches[l]?).map (fun x => (x.finished, x.failed)) = some (true, true) ∧ queue t = some (r, d.starts))

/-- An instruction that starts the head by a function does so where the function keeps the queues and leaves the launch started. -/
theorem HeadReady.startsAs {s : State} {ctx q l : Nat} {d : Queue} {p : QPkt} {r : List QPkt} {x : Launch} (h : HeadReady s ctx q l d p r x)
    {i : Instr} {f : State → Nat → State} (run : exec i s = .next (s.startHead ctx q (pktKind p.bytes) f)) {t : State}
    (ht : f (s.beginHead ctx q l p.bytes) l = t) (quiet : t.queues = (s.beginHead ctx q l p.bytes).queues)
    (started : (t.launches[l]?).map Launch.started = some true) {after : State → Prop} (ha : after t) : StartsAs s ctx q l d p r i after := by
  refine ⟨fun dep => ⟨t, ?_, started, ?_, ha⟩, fun dep => ⟨_, run, ?_⟩, fun why dep => ?_⟩
  · rw [run, State.startHead_met h.startable f dep, ht]
  · show (t.ctxs[ctx]?).bind (fun c => (c.queues[q]?).map (fun d => (d.pkts, d.starts))) = _
    rw [State.queue?_map, State.queue?_of_queues quiet, State.beginHead_queue h.queue, h.pkts]
    rfl
  · rw [State.startHead_waits h.startable f dep]
    exact State.spendPeer_others ..
  · obtain ⟨lix, failed⟩ := State.startHead_failed h.startable f dep
    refine ⟨_, run.trans (congrArg _ failed), ?_, ?_⟩
    · have kept : (((s.spendPeer (pktDep p.bytes)).popHead ctx q false).queueEntry ctx q 2 why lix p.addr).launches[l]? = some x := by
        rw [State.launches_of_quiet (State.quiet_queueEntry ..)]
        exact (congrArg (·[l]?) (s.spendPeer_keeps _).1).trans h.launch
      rw [State.launch_launchFail kept h.running]
      rfl
    · show (State.ctxs _)[ctx]?.bind (fun c => (c.queues[q]?).map (fun d => (d.pkts, d.starts))) = _
      rw [State.queue?_map, State.queue?_of_queues ((State.queues_launchFail ..).trans (State.queues_queueEntry ..)), State.popHead_queue h.queue,
        h.pkts]
      rfl

/-- PARAM as the increment of a SIGNAL: its value, and its bit 62 for ERR (R325). -/
theorem signalInc_eq (v : DWord) : BitVec.ofNat 64 (v.toNat % 2 ^ 62 + (if v.getLsbD 62 then 2 ^ 62 else 0)) = 0#1 ++ v.extractLsb' 0 63 := by
  refine BitVec.eq_of_toNat_eq ?_
  have bit : v.getLsbD 62 = decide (v.toNat / 2 ^ 62 % 2 = 1) := by rw [← BitVec.testBit_toNat, Nat.testBit_eq_decide_div_mod_eq]
  rw [bit, toNat_append_eq_add, BitVec.toNat_ofNat, BitVec.extractLsb'_toNat, Nat.shiftRight_zero]
  by_cases set : v.toNat / 2 ^ 62 % 2 = 1 <;> simp only [set, decide_true, decide_false, if_true, if_false, Bool.false_eq_true, BitVec.toNat_ofNat] <;> omega

/-- The scheduler's add to a plain counter, from a state that has the pages and counters of another (R366). -/
theorem SamePages.schedAdd {s u : State} {ctx : Nat} {k : Loc} {va : DWord} (hu : SamePages s u) (hk : s.ctxLoc ctx va = some k)
    (plain : PlainCounter s k) (hw : s.mem.wf = true) (tag : (s.ctrTag k).isSome = true) (live : ctrRetired (s.ctrWordAt k) = false) (lix : Nat)
    (inc : DWord) : (u.schedAdd ctx lix va inc).ctrWordAt k = ctrPlus (s.ctrWordAt k) inc := by
  have plain' : PlainCounter u k := plain.congr hu.frames (hu.migrations.trans plain.still)
  have word : u.ctrWordAt k = s.ctrWordAt k := by rw [plain'.word, plain.word, hu.mem]
  have tag' : (u.ctrTag k).isSome = true := by unfold State.ctrTag; rw [hu.tags]; exact tag
  rw [plain'.schedAdd ((hu.ctxLoc ..).trans hk) (by rw [hu.mem]; exact hw) tag' (by rw [word]; exact live), word]

theorem State.startable_head {s : State} {ctx q l : Nat} {c : Ctx} {d : Queue} {p : QPkt} {r : List QPkt} (hc : s.ctxs[ctx]? = some c)
    (hd : c.queues[q]? = some d) (hp : d.pkts = p :: r) (acc : p.accepted = true) (hold : d.hold = false) (live : c.live = true)
    (here : c.switchedOut = false) (due : (pktStart p.bytes).toNat ≤ s.time.toNat) (hl : p.launch = some l)
    (own : ¬(pktKind p.bytes = 1 ∧ pktFwd p.bytes = true)) : s.startable ctx q (pktKind p.bytes) = some (p, l) := by
  have kept : (pktKind p.bytes == 1 && pktFwd p.bytes) = false := by simpa using own
  simp [State.startable, hc, hd, hp, acc, hold, live, here, due, hl, kept]

/-- What SIGNAL does with a launch that has begun (R325). -/
def State.signalLaunch (s : State) (ctx l : Nat) : State :=
  match s.launches[l]? with
  | none => s
  | some x =>
    let v := pktParam x.pkt
    let inc := BitVec.ofNat 64 (v.toNat % 2 ^ 62 + (if v.getLsbD 62 then 2 ^ 62 else 0))
    (s.modLaunch l (fun x => { x with finished := true })).schedAdd ctx x.ix (pktDone x.pkt) inc

/-- What SEED does with a launch that has begun (R325). -/
def State.seedLaunch (s : State) (ctx l : Nat) : State :=
  match s.launches[l]? with
  | none => s
  | some x => (s.modLaunch l (fun x => { x with finished := true })).signalDone ctx x.ix x.pkt false

theorem execSignal_eq (s : State) (ctx q : Nat) : execSignal ctx q s = .next (s.startHead ctx q 2 (fun s l => s.signalLaunch ctx l)) := rfl

theorem execSeed_eq (s : State) (ctx q : Nat) : execSeed ctx q s = .next (s.startHead ctx q 3 (fun s l => s.seedLaunch ctx l)) := rfl

/-- A launch that its packet has ended. -/
def Launch.ended (x : Launch) : Launch := { x with finished := true }

theorem State.signalLaunch_eq {s : State} {l : Nat} {x : Launch} (hx : s.launches[l]? = some x) (ctx : Nat) :
    s.signalLaunch ctx l = (s.modLaunch l .ended).schedAdd ctx x.ix (pktDone x.pkt) (0#1 ++ (pktParam x.pkt).extractLsb' 0 63) := by
  unfold State.signalLaunch
  simp only [hx, signalInc_eq]
  rfl

theorem State.seedLaunch_eq {s : State} {l : Nat} {x : Launch} (hx : s.launches[l]? = some x) (ctx : Nat) :
    s.seedLaunch ctx l = (s.modLaunch l .ended).signalDone ctx x.ix x.pkt false := by
  unfold State.seedLaunch
  simp only [hx]
  rfl

theorem Claims.queueHeadsStart : Claims.QueueHeadsStart := by
  intro s ctx q l c d p r x hc hd hp acc hold live here due hl hx pkt running own start adds
  have head : HeadReady s ctx q l d p r x :=
    ⟨by rw [State.queue?_eq, hc]; exact hd, hp, State.startable_head hc hd hp acc hold live here due hl own, hx, pkt, running⟩
  obtain ⟨a, b, begun⟩ := State.beginHead_launch (p := p.bytes) (ctx := ctx) (q := q) hx
  have pages : SamePages s ((s.beginHead ctx q l p.bytes).modLaunch l .ended) :=
    (SamePages.beginHead s ctx q l p.bytes).trans (.modLaunch _ l _ fun _ => rfl)
  have ended := State.launches_modLaunch begun .ended
  have quiet : ((s.beginHead ctx q l p.bytes).modLaunch l .ended).queues = (s.beginHead ctx q l p.bytes).queues := rfl
  have signal := State.signalLaunch_eq begun ctx
  have seed := State.seedLaunch_eq begun ctx
  rw [show ({ x with started := true, startedAt := a, starvedAt := b } : Launch).pkt = p.bytes from pkt] at signal seed
  generalize (s.beginHead ctx q l p.bytes).modLaunch l .ended = v at *
  have added : ∀ lix inc, adds inc (v.schedAdd ctx lix (pktDone p.bytes) inc) := fun lix inc k hk place below alone wf still tag live =>
    pages.schedAdd hk ⟨place, below, alone, still⟩ wf tag live lix inc
  refine ⟨fun kind => ?_, fun kind => ?_, fun kind => ?_⟩
  · refine head.startsAs (f := fun s l => s.launchCheck l) (by rw [kind]; rfl) rfl (State.queues_launchCheck ..) ?_ ?_
    · rw [State.launch_launchCheck begun]; rfl
    · rw [State.launch_launchCheck begun]
      simp [Launch.allDone, running, pkt]
  · have done := (congrArg (·[l]?) (State.launches_of_calm (State.calm_schedAdd v ctx x.ix (pktDone p.bytes)
      (0#1 ++ (pktParam p.bytes).extractLsb' 0 63)))).trans ended
    refine head.startsAs (by rw [kind]; exact execSignal_eq s ctx q) signal ((State.queues_schedAdd ..).trans quiet) ?_ ⟨?_, added _ _⟩
    · exact congrArg (Option.map Launch.started) done
    · exact congrArg (Option.map Launch.finished) done
  · have done := (congrArg (·[l]?) (State.launches_of_calm (State.calm_signalDone v ctx x.ix p.bytes false))).trans ended
    refine head.startsAs (by rw [kind]; exact execSeed_eq s ctx q) seed ((State.queues_signalDone ..).trans quiet) ?_ ⟨?_, fun named => ?_⟩
    · exact congrArg (Option.map Launch.started) done
    · exact congrArg (Option.map Launch.finished) done
    · rw [State.signalDone, if_neg named]
      exact added _ _

end Sys2Proof.Machine
end

section
/-! SUPPORT. The forwarding of packets (R30): the head of a queue at its source, and the packet at its target. -/
namespace Sys2Proof.Machine
set_option Elab.async false

/-! ### At the source -/

section
variable {s : State} {ctx q : Nat} {c : Ctx} {d : Queue} {p : QPkt} {r : List QPkt} (hc : s.ctxs[ctx]? = some c) (hd : c.queues[q]? = some d)
  (hp : d.pkts = p :: r)
include hc hd hp

theorem execPacketForward_head (live : c.live = true) (acc : p.accepted = true) (hold : d.hold = false) (here : c.switchedOut = false)
    (kind : pktKind p.bytes = 1) (fwd : pktFwd p.bytes = true) (once : d.forwarding = false) :
    execPacketForward ctx q s =
      if s.routed (pktNode p.bytes) then
        .next (State.modQueue { s with reports := s.reports ++
            [{ kind := 3, fields := [pktNode p.bytes, c.asid, q] ++ p.bytes.map BitVec.toNat }] } ctx q (fun d => { d with forwarding := true }))
      else .next ((s.popHead ctx q false).queueEntry ctx q 7 2 noLaunch p.addr) := by
  cases reach : s.routed (pktNode p.bytes) <;> simp [execPacketForward, hc, hd, hp, live, acc, hold, here, kind, fwd, once, reach]

theorem execForwardAnswer_head (sent : d.forwarding = true) {held : Bool} {reason : Nat}
    (answer : held = true ∨ reason = 1 ∨ reason = 3 ∨ reason = 4) :
    execForwardAnswer ctx q held reason s =
      let t := (s.popHead ctx q false).modQueue ctx q (fun d => { d with forwarding := false })
      .next (if held then t else t.queueEntry ctx q 7 reason noLaunch p.addr) := by
  have given : (held || reason == 1 || reason == 3 || reason == 4) = true := by simpa [or_assoc] using answer
  simp [execForwardAnswer, hc, hd, hp, sent, given]

end

/-- The head of a queue with FWD set is sent once or leaves, and leaves when the target has answered (R30). -/
theorem heads_are_forwarded (s : State) (ctx q : Nat) (c : Ctx) (d : Queue) (p : QPkt) (r : List QPkt) (hc : s.ctxs[ctx]? = some c)
    (hd : c.queues[q]? = some d) (hp : d.pkts = p :: r) (live : c.live = true) :
    let queue := fun (t : State) => (t.ctxs[ctx]?).bind (fun c => (c.queues[q]?).map (fun d => (d.pkts, d.forwarding)))
    (p.accepted = true → d.hold = false → c.switchedOut = false → pktKind p.bytes = 1 → pktFwd p.bytes = true → d.forwarding = false →
      ∃ t, exec (.packetForward ctx q) s = .next t ∧ t.launches = s.launches ∧
        (s.routed (pktNode p.bytes) = true → queue t = some (d.pkts, true) ∧
          t.reports = s.reports ++ [{ kind := 3, fields := [pktNode p.bytes, c.asid, q] ++ p.bytes.map BitVec.toNat }]) ∧
        (s.routed (pktNode p.bytes) = false → queue t = some (r, false))) ∧
    (d.forwarding = true → ∀ held reason, (held = true ∨ reason = 1 ∨ reason = 3 ∨ reason = 4) →
      ∃ t, exec (.forwardAnswer ctx q held reason) s = .next t ∧ t.launches = s.launches ∧ queue t = some (r, false)) := by
  intro queue
  have here : s.queue? ctx q = some d := by rw [State.queue?_eq, hc]; exact hd
  have seen : ∀ {t : State} {e : Queue}, t.queue? ctx q = some e → queue t = some (e.pkts, e.forwarding) := fun {t e} he => by
    show (t.ctxs[ctx]?).bind (fun c => (c.queues[q]?).map (fun d => (d.pkts, d.forwarding))) = _
    rw [State.queue?_map, he]
    rfl
  have popped : (s.popHead ctx q false).queue? ctx q = some { d with pkts := r } := by
    rw [State.popHead, State.queue?_modQueue, here, Option.map_some, hp]
    rfl
  refine ⟨fun acc hold held kind fwd once => ?_, fun sent held reason answer => ?_⟩
  · have run := execPacketForward_head hc hd hp live acc hold held kind fwd once
    cases reach : s.routed (pktNode p.bytes) with
    | true =>
      rw [if_pos reach] at run
      refine ⟨_, run, rfl, fun _ => ⟨seen (e := { d with forwarding := true }) ?_, rfl⟩, fun h => nomatch h⟩
      exact (State.queue?_modQueue ..).trans (congrArg (Option.map _) here)
    | false =>
      rw [if_neg (by simp [reach])] at run
      refine ⟨_, run, State.launches_of_quiet (State.quiet_queueEntry ..), ⟨(nomatch ·), fun _ => ?_⟩⟩
      refine (seen ((State.queue?_of_queues (State.queues_queueEntry ..) ctx q).trans popped)).trans ?_
      rw [once]
  · have run := execForwardAnswer_head hc hd hp sent answer
    have left : ((s.popHead ctx q false).modQueue ctx q (fun d => { d with forwarding := false })).queue? ctx q =
        some { d with pkts := r, forwarding := false } := by rw [State.queue?_modQueue, popped]; rfl
    cases held with
    | true => exact ⟨_, run, rfl, seen left⟩
    | false =>
      exact ⟨_, run, State.launches_of_quiet (State.quiet_queueEntry ..), seen ((State.queue?_of_queues (State.queues_queueEntry ..) ctx q).trans left)⟩

/-! ### At the target -/

theorem leBytes_length (n x : Nat) : (leBytes n x).length = n := by
  induction n generalizing x with
  | zero => rfl
  | succ n ih => simp [leBytes, ih]

theorem leNat_leBytes (n x : Nat) : leNat (leBytes n x) = x % 256 ^ n := by
  induction n generalizing x with
  | zero => simp [leBytes, leNat, Nat.mod_one]
  | succ n ih =>
    rw [leBytes, leNat, ih, BitVec.toNat_ofNat, Nat.pow_succ' (n := n), Nat.mod_mul]

/-- The first word of a packet as its target holds it: bits 33 to 25 read as 0 (R30). -/
theorem word64_unforward (p : List Byte) : word64 (unforward p) 0 = word64 p 0 &&& ~~~0x3FE000000#64 := by
  have first : (unforward p).take 8 = leBytes 8 (word64 p 0 &&& ~~~0x3FE000000#64).toNat := by
    rw [unforward, List.take_append_of_le_length (by rw [leBytes_length]), List.take_of_length_le (by rw [leBytes_length])]
  refine BitVec.eq_of_toNat_eq ?_
  rw [word64, List.drop_zero, first, leNat_leBytes, BitVec.toNat_ofNat]
  omega

theorem unforward_drop (p : List Byte) : (unforward p).drop 8 = p.drop 8 := by
  rw [unforward, List.drop_append_of_le_length (by rw [leBytes_length]), List.drop_of_length_le (by rw [leBytes_length]), List.nil_append]

theorem pktFwd_unforward (p : List Byte) : pktFwd (unforward p) = false := by
  rw [pktFwd, word64_unforward, BitVec.getLsbD_and]
  simp

theorem pktNode_unforward (p : List Byte) : pktNode (unforward p) = 0 := by
  rw [pktNode, word64_unforward, bitsOf_eq, BitVec.extractLsb'_and, show (~~~0x3FE000000#64).extractLsb' 25 8 = 0#8 by decide, BitVec.and_zero]
  rfl

theorem pktKind_unforward (p : List Byte) : pktKind (unforward p) = pktKind p := by
  rw [pktKind, pktKind, word64_unforward, bitsOf_eq, bitsOf_eq, BitVec.extractLsb'_and,
    show (~~~0x3FE000000#64).extractLsb' 60 4 = BitVec.allOnes 4 by decide, BitVec.and_allOnes]

section
variable {s : State} {ctx q : Nat} {c : Ctx} {d : Queue} (hc : s.ctxs[ctx]? = some c) (hd : c.queues[q]? = some d)
include hc hd

/-- A packet that a queue takes stands at its end (R324). -/
theorem State.submit_taken (live : c.live = true) (valid : d.valid = true) (room : d.pkts.length < 2 ^ d.logDepth) (pkt : List Byte) (addr : DWord) :
    s.submit ctx q pkt addr = (0, s.modQueue ctx q (fun d =>
      { d with pkts := d.pkts ++ [{ bytes := pkt, addr := addr, accepted := false, launch := none }] })) := by
  have space : ¬2 ^ d.logDepth ≤ d.pkts.length := Nat.not_le.mpr room
  simp only [State.submit, hc, Option.filter_some, live, if_true, Option.bind_some, hd, valid, Bool.not_true, Bool.false_eq_true, if_false, space]
  rfl

/-- A queue that takes no packet leaves the state as it was. -/
theorem State.submit_refused (no : c.live = false ∨ d.valid = false ∨ 2 ^ d.logDepth ≤ d.pkts.length) (pkt : List Byte) (addr : DWord) :
    ∃ n, n ≠ 0 ∧ s.submit ctx q pkt addr = (n, s) := by
  unfold State.submit
  simp only [hc, Option.filter_some]
  rcases no with live | valid | full
  · exact ⟨2, by decide, by simp [live]⟩
  · cases live : c.live <;> exact ⟨2, by decide, by simp [hd, valid]⟩
  · cases live : c.live
    · exact ⟨2, by decide, by simp⟩
    · cases valid : d.valid
      · exact ⟨2, by decide, by simp [hd, valid]⟩
      · exact ⟨1, by decide, by simp [hd, valid, full]⟩

end

section
variable {s : State} {node asid q : Nat} {pkt : List Byte} {b : Binding} {c : Ctx} {d : Queue} (len : pkt.length = 160)
  (hb : (s.bindings.filterMap id).find? (fun b => b.node == node && b.asid == asid && b.q == q) = some b) (hc : s.ctxs[b.ctx]? = some c)
include len hb hc

/-- The packet stands in the queue, and the peer is told so. -/
theorem execForwardReceive_held {t : State} (serves : s.partition.serves c.saggar = true) (taken : s.submit b.ctx b.tq (unforward pkt) 0 = (0, t)) :
    ∃ u, execForwardReceive node asid q pkt s = .next u ∧ u.ctxs = t.ctxs := by
  unfold execForwardReceive
  simp only [len, hb, hc, taken]
  simp [serves]

/-- The peer is told why its packet is refused, and nothing else changes. -/
theorem execForwardReceive_refused (no : s.partition.serves c.saggar = false ∨ ∃ n, n ≠ 0 ∧ s.submit b.ctx b.tq (unforward pkt) 0 = (n, s)) :
    ∃ u, execForwardReceive node asid q pkt s = .next u ∧ u.ctxs = s.ctxs := by
  cases serves : s.partition.serves c.saggar with
  | false =>
    unfold execForwardReceive
    simp only [len, hb, hc]
    simp [serves]
  | true =>
    obtain ⟨n, hn, refused⟩ := no.resolve_left (by simp [serves])
    unfold execForwardReceive
    simp only [len, hb, hc, refused]
    match n, hn with
    | 1, _ => simp [serves]
    | n + 2, _ => simp [serves]

end

/-- A packet from a peer enters the queue it is bound to, if that queue takes it and its saggar is in service (R30). -/
theorem peers_packets_enter (s : State) (node asid q : Nat) (pkt : List Byte) (b : Binding) (c : Ctx) (d : Queue) (len : pkt.length = 160)
    (hb : (s.bindings.filterMap id).find? (fun b => b.node == node && b.asid == asid && b.q == q) = some b) (hc : s.ctxs[b.ctx]? = some c)
    (hd : c.queues[b.tq]? = some d) :
    (s.partition.serves c.saggar = true → c.live = true → d.valid = true → d.pkts.length < 2 ^ d.logDepth →
      ∃ t p, exec (.forwardReceive node asid q pkt) s = .next t ∧
        (t.ctxs[b.ctx]?).bind (fun c => (c.queues[b.tq]?).map Queue.pkts) = some (d.pkts ++ [p]) ∧ p.accepted = false ∧
        p.bytes.drop 8 = pkt.drop 8 ∧ pktFwd p.bytes = false ∧ pktNode p.bytes = 0 ∧ pktKind p.bytes = pktKind pkt) ∧
    (s.partition.serves c.saggar = false ∨ c.live = false ∨ d.valid = false ∨ 2 ^ d.logDepth ≤ d.pkts.length →
      ∃ t, exec (.forwardReceive node asid q pkt) s = .next t ∧ t.ctxs = s.ctxs) := by
  refine ⟨fun serves live valid room => ?_, fun no => ?_⟩
  · obtain ⟨u, run, same⟩ := execForwardReceive_held len hb hc serves (State.submit_taken hc hd live valid room (unforward pkt) 0)
    refine ⟨u, { bytes := unforward pkt, addr := 0, accepted := false, launch := none }, run, ?_, rfl, unforward_drop pkt, pktFwd_unforward pkt,
      pktNode_unforward pkt, pktKind_unforward pkt⟩
    have here : s.queue? b.ctx b.tq = some d := by rw [State.queue?_eq, hc]; exact hd
    rw [same, State.queue?_map, State.queue?_modQueue, here]
    rfl
  · exact execForwardReceive_refused len hb hc (no.imp_right fun no => State.submit_refused hc hd no (unforward pkt) 0)

theorem Claims.packetsAreForwarded : Claims.PacketsAreForwarded := ⟨heads_are_forwarded, peers_packets_enter⟩

end Sys2Proof.Machine

open Sys2Proof.Machine in
/-- Settles O34: the dependence as the counter's word gives it; what starts or leaves a queue changes that queue alone, since logs and adds keep queues;
and a packet that is received differs from the one sent in bits 33 to 25 alone. -/
theorem queueHeadsStart : Obligations.QueueHeadsStart := by
  unfold Obligations.QueueHeadsStart
  exact ⟨Claims.dependencesAreJudged, Claims.queueHeadsStart, Claims.packetsAreForwarded⟩
end

section
/-! SUPPORT. Tags and their patterns: the fields of a tag, the slot a pattern gives a thread inside its group, and the tag of a composition (R37 to R39, R44). -/
namespace Sys2Proof.Machine
set_option Elab.async false

/-! ### The fields of a tag (R37) -/

/-- The fields of a tag that is made of them. -/
theorem mkTag_fields {c g k x : Nat} (hc : c < 8) (hg : g < 8) (hk : k < 32) (hx : x < 32) :
    tagClass (mkTag c g k x) = c ∧ tagG (mkTag c g k x) = g ∧ tagK (mkTag c g k x) = k ∧ tagTix (mkTag c g k x) = x := by
  simp only [tagClass, tagG, tagK, tagTix, mkTag, BitVec.toNat_ofNat]
  omega

theorem bitLen5_le (k : Nat) : bitLen5 k ≤ 5 := by
  unfold bitLen5
  split_ifs <;> omega

theorem lt_two_pow_bitLen5 {k : Nat} (h : k < 32) : k < 2 ^ bitLen5 k := by
  unfold bitLen5
  split_ifs <;> omega

/-- A tag of a pattern class (R38): XOR, ROT, BCAST or REV, of groups of 2 to the power G, with K inside a group. -/
structure PatTag (p : BitVec 16) : Prop where
  pos : 1 ≤ tagClass p
  le : tagClass p ≤ 4
  groups : tagG p ≤ 5
  inside : tagK p < 2 ^ tagG p

/-- A tag that R38 allows is IDENT, of a pattern class, TABLE or VOID. -/
theorem tagOk_cases {m : BitVec 16} (h : tagOk m = true) : m = 0 ∨ PatTag m ∨ tagClass m = 5 ∨ tagClass m = 6 := by
  unfold tagOk at h
  have k32 : tagK m < 32 := Nat.mod_lt _ (by omega)
  split at h
  case h_1 => exact .inl (eq_of_beq h)
  case h_2 hc =>
    simp only [Bool.and_eq_true, beq_iff_eq, decide_eq_true_eq] at h
    obtain ⟨⟨-, hg⟩, -⟩ := h
    exact .inr (.inl ⟨by omega, by omega, hg ▸ bitLen5_le _, hg ▸ lt_two_pow_bitLen5 k32⟩)
  case h_3 hc =>
    simp only [Bool.and_eq_true, decide_eq_true_eq] at h
    obtain ⟨⟨⟨⟨-, hg⟩, -⟩, hk⟩, -⟩ := h
    exact .inr (.inl ⟨by omega, by omega, hg, hk⟩)
  case h_4 hc =>
    simp only [Bool.and_eq_true, decide_eq_true_eq] at h
    obtain ⟨⟨⟨-, hg⟩, hk⟩, -⟩ := h
    exact .inr (.inl ⟨by omega, by omega, hg, hk⟩)
  case h_5 hc =>
    simp only [Bool.and_eq_true, decide_eq_true_eq] at h
    obtain ⟨⟨⟨⟨-, hg⟩, hk⟩, -⟩, -⟩ := h
    exact .inr (.inl ⟨by omega, by omega, hg, hk⟩)
  case h_6 hc => exact .inr (.inr (.inl hc))
  case h_7 hc => exact .inr (.inr (.inr hc))
  case h_8 => cases h

/-! ### Patterns inside a group (R38) -/

/-- Where a pattern takes a position of a group of n threads. -/
def patLow (cls n k low : Nat) : Nat :=
  match cls with
  | 1 => low ^^^ k
  | 2 => (low + k) % n
  | 3 => k
  | 4 => (k + n - low) % n
  | _ => low

theorem patLow_lt {cls g k low : Nat} (hk : k < 2 ^ g) (hl : low < 2 ^ g) : patLow cls (2 ^ g) k low < 2 ^ g := by
  unfold patLow
  split
  · exact Nat.xor_lt_two_pow hl hk
  · exact Nat.mod_lt _ (by omega)
  · exact hk
  · exact Nat.mod_lt _ (by omega)
  · exact hl

/-- A number below a power of two changes the bits below it alone. -/
theorem xor_in_group {g k x : Nat} (b : Nat) (hx : x < 2 ^ g) (hk : k < 2 ^ g) : (2 ^ g * b + x) ^^^ k = 2 ^ g * b + (x ^^^ k) := by
  have low := Nat.xor_lt_two_pow hx hk
  have lowBits : ((2 ^ g * b + x) ^^^ k) % 2 ^ g = x ^^^ k := by
    rw [Nat.xor_mod_two_pow, Nat.mul_add_mod, Nat.mod_eq_of_lt hx, Nat.mod_eq_of_lt hk]
  have highBits : ((2 ^ g * b + x) ^^^ k) / 2 ^ g = b := by
    rw [Nat.xor_div_two_pow, Nat.div_eq_of_lt hk, Nat.mul_add_div (Nat.two_pow_pos g), Nat.div_eq_of_lt hx, Nat.add_zero, Nat.xor_zero]
  rw [← Nat.div_add_mod ((2 ^ g * b + x) ^^^ k) (2 ^ g), lowBits, highBits]

/-- A pattern moves threads inside their groups. -/
theorem patAt_group {cls g k x : Nat} (b : Nat) (hk : k < 2 ^ g) (hx : x < 2 ^ g) :
    patAt cls g k (2 ^ g * b + x) = 2 ^ g * b + patLow cls (2 ^ g) k x := by
  have low : (2 ^ g * b + x) % 2 ^ g = x := by rw [Nat.mul_add_mod, Nat.mod_eq_of_lt hx]
  match cls with
  | 0 => rfl
  | 1 => exact xor_in_group b hx hk
  | 2 => simp only [patAt, patLow, low, Nat.add_sub_cancel]
  | 3 => simp only [patAt, patLow, low, Nat.add_sub_cancel]
  | 4 => simp only [patAt, patLow, low, Nat.add_sub_cancel]
  | _ + 5 => rfl

/-- A pattern moves threads inside the groups of every larger size. -/
theorem patAt_coarse {cls g gp k y : Nat} (b : Nat) (hle : g ≤ gp) (hk : k < 2 ^ g) (hy : y < 2 ^ gp) :
    patAt cls g k (2 ^ gp * b + y) = 2 ^ gp * b + patAt cls g k y ∧ patAt cls g k y < 2 ^ gp := by
  obtain ⟨d, rfl⟩ := Nat.exists_eq_add_of_le hle
  have low : y % 2 ^ g < 2 ^ g := Nat.mod_lt _ (Nat.two_pow_pos g)
  have split_y := Nat.div_add_mod y (2 ^ g)
  have there : patAt cls g k y = 2 ^ g * (y / 2 ^ g) + patLow cls (2 ^ g) k (y % 2 ^ g) := by
    conv_lhs => rw [← split_y]
    exact patAt_group _ hk low
  constructor
  · rw [there, ← split_y, Nat.mul_add_div (Nat.two_pow_pos g), Nat.div_eq_of_lt low, Nat.mul_add_mod, Nat.mod_mod, Nat.add_zero, Nat.pow_add,
      Nat.mul_assoc, ← Nat.add_assoc, ← Nat.mul_add, patAt_group _ hk low, ← Nat.add_assoc, ← Nat.mul_add]
  · have group : y / 2 ^ g < 2 ^ d := Nat.div_lt_of_lt_mul (by rw [← Nat.pow_add]; exact hy)
    have moved := patLow_lt (cls := cls) hk low
    rw [there, Nat.pow_add]
    calc 2 ^ g * (y / 2 ^ g) + patLow cls (2 ^ g) k (y % 2 ^ g) < 2 ^ g * (y / 2 ^ g) + 2 ^ g := by omega
      _ = 2 ^ g * (y / 2 ^ g + 1) := by rw [Nat.mul_add, Nat.mul_one]
      _ ≤ 2 ^ g * 2 ^ d := Nat.mul_le_mul_left _ group

/-- A pattern keeps threads below 32. -/
theorem patAt_lt {cls g k t : Nat} (hg : g ≤ 5) (hk : k < 2 ^ g) (ht : t < 32) : patAt cls g k t < 32 :=
  (patAt_coarse (gp := 5) 0 hg hk ht).2

/-- The pattern of XOR does not depend on G. -/
theorem patAt_xor (g k t : Nat) : patAt 1 g k t = t ^^^ k := rfl

/-! ### The maps of tags (R38, R39) -/

theorem tagMap_pattern (mt : List MapTable) {q : BitVec 16} (hq : tagClass q ≤ 4) {t : Nat} (ht : t < 32) :
    (tagMap mt q).at t = some (Fin.ofNat 32 (patAt (tagClass q) (tagG q) (tagK q) t)) := by
  unfold tagMap
  split
  · omega
  · omega
  · exact ofFn_at _ ht

theorem tagMap_ident (mt : List MapTable) {t : Nat} (ht : t < 32) : (tagMap mt 0).at t = some (Fin.ofNat 32 t) :=
  canonTag_map (m := .ident) (by simp [canonTag]; rfl) mt ht |>.trans (ident_at ht)

theorem LMap.void_at (t : Nat) : LMap.void.at t = none := by
  by_cases ht : t < 32
  · exact ofFn_at _ ht
  · simp [LMap.at, LMap.void, LMap.ofFn, threads, List.getD, ht]

theorem tagMap_void (mt : List MapTable) {q : BitVec 16} (hq : tagClass q = 6) (t : Nat) : (tagMap mt q).at t = none := by
  simp [tagMap, hq, LMap.void_at]

/-- The parameters that a pattern edit encodes (R167). -/
structure Edit (cls g k : Nat) : Prop where
  pos : 1 ≤ cls
  le : cls ≤ 4
  groups : g ≤ 5
  inside : k < 2 ^ g

/-- The tag of a pattern edit is IDENT where the edit moves no thread, and else of the edit's own class with its G and K (R39). -/
theorem canonPat_cases {cls g k : Nat} (h : Edit cls g k) :
    canonPat cls g k = 0 ∧ (∀ t < 32, patAt cls g k t = t) ∨
    PatTag (canonPat cls g k) ∧ tagClass (canonPat cls g k) = cls ∧ tagK (canonPat cls g k) = k ∧ (cls = 1 ∨ tagG (canonPat cls g k) = g) := by
  obtain ⟨pos, le, groups, inside⟩ := h
  have k32 : k < 32 := lt_of_lt_of_le inside (Nat.pow_le_pow_right (by omega) groups)
  unfold canonPat
  split
  next still =>
    refine .inl ⟨rfl, fun t _ => ?_⟩
    simp only [Bool.or_eq_true, Bool.and_eq_true, decide_eq_true_eq] at still
    obtain ((rfl | ⟨rfl, rfl⟩) | ⟨rfl, rfl⟩) | ⟨⟨rfl, rfl⟩, rfl⟩ := still
    case inl.inl.inl =>
      obtain rfl : k = 0 := by simpa using inside
      have alone : patLow cls 1 0 0 = 0 := Nat.lt_one_iff.mp (patLow_lt (g := 0) inside inside)
      simpa [alone] using patAt_group (cls := cls) (g := 0) t inside inside
    case inl.inl.inr => exact Nat.xor_zero t
    case inl.inr =>
      have inGroup := Nat.mod_le t (2 ^ g)
      simp only [patAt, Nat.add_zero, Nat.mod_mod]
      omega
    case inr =>
      simp only [patAt]
      omega
  next moves =>
    refine .inr ?_
    have small : (if cls = 1 then bitLen5 k else g) ≤ 5 := by split_ifs; exacts [bitLen5_le k, groups]
    obtain ⟨hc, hg, hk, -⟩ := mkTag_fields (show cls < 8 by omega) (show (if cls = 1 then bitLen5 k else g) < 8 by omega) k32 (show 0 < 32 by omega)
    refine ⟨⟨by omega, by omega, by omega, ?_⟩, hc, hk, ?_⟩
    · rw [hk, hg]
      split_ifs
      exacts [lt_two_pow_bitLen5 k32, inside]
    · rw [hg]
      by_cases one : cls = 1
      · exact .inl one
      · exact .inr (if_neg one)

/-- The tag of a pattern edit describes the edit's pattern. -/
theorem canonPat_at {cls g k : Nat} (h : Edit cls g k) (mt : List MapTable) {t : Nat} (ht : t < 32) :
    (tagMap mt (canonPat cls g k)).at t = some (Fin.ofNat 32 (patAt cls g k t)) := by
  obtain ⟨ident, still⟩ | ⟨hp, hc, hk, hg⟩ := canonPat_cases h
  · rw [ident, tagMap_ident mt ht, still t ht]
  · rw [tagMap_pattern mt hp.le ht, hc, hk]
    obtain rfl | hg := hg
    · rw [patAt_xor, patAt_xor]
    · rw [hg]

/-- The tag of a pattern edit moves threads as the edit does. -/
theorem canonPat_patAt {cls g k : Nat} (h : Edit cls g k) {t : Nat} (ht : t < 32) :
    patAt (tagClass (canonPat cls g k)) (tagG (canonPat cls g k)) (tagK (canonPat cls g k)) t = patAt cls g k t := by
  obtain ⟨ident, still⟩ | ⟨-, hc, hk, hg⟩ := canonPat_cases h
  · rw [ident, still t ht]
    rfl
  · rw [hc, hk]
    obtain rfl | hg := hg
    · rw [patAt_xor, patAt_xor]
    · rw [hg]

/-! ### One pattern after another (R44) -/

/-- Patterns of one group size compose as their positions in a group do. -/
theorem patAt_patAt_of_low {c cm cp g k km kp : Nat} (hk : k < 2 ^ g) (hkm : km < 2 ^ g) (hkp : kp < 2 ^ g)
    (low : ∀ x < 2 ^ g, patLow c (2 ^ g) k x = patLow cm (2 ^ g) km (patLow cp (2 ^ g) kp x)) (t : Nat) :
    patAt c g k t = patAt cm g km (patAt cp g kp t) := by
  have inside : t % 2 ^ g < 2 ^ g := Nat.mod_lt _ (Nat.two_pow_pos g)
  rw [← Nat.div_add_mod t (2 ^ g), patAt_group _ hk inside, patAt_group _ hkp inside, patAt_group _ hkm (patLow_lt hkp inside), low _ inside]

/-- A broadcast after a pattern of its groups or smaller ones is a broadcast of the thread that the pattern names. -/
theorem patAt_bcast {cm gm gp km kp : Nat} (hle : gm ≤ gp) (hkm : km < 2 ^ gm) (hkp : kp < 2 ^ gp) (t : Nat) :
    patAt 3 gp (patAt cm gm km kp) t = patAt cm gm km (patAt 3 gp kp t) := by
  have inside : t % 2 ^ gp < 2 ^ gp := Nat.mod_lt _ (Nat.two_pow_pos gp)
  have kept := (patAt_coarse (cls := cm) 0 hle hkm hkp).2
  rw [← Nat.div_add_mod t (2 ^ gp), patAt_group _ kept inside, patAt_group _ hkp inside]
  exact (patAt_coarse _ hle hkm hkp).1.symm

/-- A pattern inside the groups of a broadcast changes nothing of it. -/
theorem bcast_patAt {cp gm gp km kp : Nat} (hle : gp ≤ gm) (hkm : km < 2 ^ gm) (hkp : kp < 2 ^ gp) (t : Nat) :
    patAt 3 gm km t = patAt 3 gm km (patAt cp gp kp t) := by
  have inside : t % 2 ^ gm < 2 ^ gm := Nat.mod_lt _ (Nat.two_pow_pos gm)
  have moved := patAt_coarse (cls := cp) (t / 2 ^ gm) hle hkp inside
  rw [← Nat.div_add_mod t (2 ^ gm), moved.1, patAt_group _ hkm inside, patAt_group _ hkm moved.2]
  rfl

section
variable {g km kp x : Nat} (hg : g ≤ 5) (hkm : km < 2 ^ g) (hkp : kp < 2 ^ g) (hx : x < 2 ^ g)
include hg hkm hkp hx

/-- Two rotations of a group add up, and so do the others of its turns (R44). -/
theorem patLow_rot_rot : patLow 2 (2 ^ g) ((km + kp) % 2 ^ g) x = patLow 2 (2 ^ g) km (patLow 2 (2 ^ g) kp x) := by
  simp only [patLow]
  interval_cases g <;> omega

theorem patLow_rev_rev : patLow 2 (2 ^ g) ((km + 2 ^ g - kp) % 2 ^ g) x = patLow 4 (2 ^ g) km (patLow 4 (2 ^ g) kp x) := by
  simp only [patLow]
  interval_cases g <;> omega

theorem patLow_rot_rev : patLow 4 (2 ^ g) ((km + kp) % 2 ^ g) x = patLow 2 (2 ^ g) km (patLow 4 (2 ^ g) kp x) := by
  simp only [patLow]
  interval_cases g <;> omega

theorem patLow_rev_rot : patLow 4 (2 ^ g) ((km + 2 ^ g - kp) % 2 ^ g) x = patLow 4 (2 ^ g) km (patLow 2 (2 ^ g) kp x) := by
  simp only [patLow]
  interval_cases g <;> omega

end

/-- An edit that does what a pattern p and then a source of tag m do. -/
structure EditAfter (m p : BitVec 16) (c g k : Nat) : Prop extends Edit c g k where
  after : ∀ t, patAt c g k t = patAt (tagClass m) (tagG m) (tagK m) (patAt (tagClass p) (tagG p) (tagK p) t)

/-- Turns of one group size make an edit of that size. -/
theorem EditAfter.turn {m p : BitVec 16} (hm : PatTag m) (hp : PatTag p) {c k : Nat} (pos : 1 ≤ c) (le : c ≤ 4) (same : tagG m = tagG p)
    (hk : k < 2 ^ tagG p) (low : ∀ x < 2 ^ tagG p,
      patLow c (2 ^ tagG p) k x = patLow (tagClass m) (2 ^ tagG p) (tagK m) (patLow (tagClass p) (2 ^ tagG p) (tagK p) x)) :
    EditAfter m p c (tagG p) k where
  pos := pos
  le := le
  groups := hp.groups
  inside := hk
  after t := by
    rw [same]
    exact patAt_patAt_of_low hk (same ▸ hm.inside) hp.inside low t

/-- The tag that two pattern classes compose to is that of an edit which does what the pattern and then the source do (R44). -/
theorem composeTag_patterns {m p q : BitVec 16} (hm : PatTag m) (hp : PatTag p) (h : composeTag m p = some q) :
    ∃ c g k, q = canonPat c g k ∧ EditAfter m p c g k := by
  have mine : 1 ≤ tagClass m ∧ tagClass m ≤ 4 := ⟨hm.pos, hm.le⟩
  have pattern : 1 ≤ tagClass p ∧ tagClass p ≤ 4 := ⟨hp.pos, hp.le⟩
  have turned : ∀ x, x % 2 ^ tagG p < 2 ^ tagG p := fun x => Nat.mod_lt _ (Nat.two_pow_pos _)
  have turn := fun {c k : Nat} => EditAfter.turn (c := c) (k := k) hm hp
  unfold composeTag at h
  simp only [Bool.and_eq_true, Bool.or_eq_true, decide_eq_true_eq] at h
  rw [if_neg (by omega), if_neg (by omega), if_neg (by omega)] at h
  split at h
  case isTrue xor =>
    have below := fun {y z : Nat} (hz : z ≤ 5) (hy : y < 2 ^ z) => lt_of_lt_of_le hy (Nat.pow_le_pow_right Nat.two_pos hz)
    refine ⟨1, 5, _, (Option.some.inj h).symm, ⟨by omega, by omega, by omega, ?_⟩, fun t => ?_⟩
    · exact Nat.xor_lt_two_pow (below hm.groups hm.inside) (below hp.groups hp.inside)
    · rw [xor.1, xor.2, patAt_xor, patAt_xor, patAt_xor, Nat.xor_assoc, Nat.xor_comm (tagK p)]
  split at h
  case isTrue rotRot =>
    obtain ⟨⟨cm, cp⟩, same⟩ := rotRot
    refine ⟨2, _, _, (Option.some.inj h).symm, turn (by omega) (by omega) same (turned _) ?_⟩
    rw [cm, cp]
    exact fun x hx => patLow_rot_rot hp.groups (same ▸ hm.inside) hp.inside hx
  split at h
  case isTrue revRev =>
    obtain ⟨⟨cm, cp⟩, same⟩ := revRev
    refine ⟨2, _, _, (Option.some.inj h).symm, turn (by omega) (by omega) same (turned _) ?_⟩
    rw [cm, cp]
    exact fun x hx => patLow_rev_rev hp.groups (same ▸ hm.inside) hp.inside hx
  split at h
  case isTrue rotRev =>
    obtain ⟨⟨cm, cp⟩, same⟩ := rotRev
    refine ⟨4, _, _, (Option.some.inj h).symm, turn (by omega) (by omega) same (turned _) ?_⟩
    rw [cm, cp]
    exact fun x hx => patLow_rot_rev hp.groups (same ▸ hm.inside) hp.inside hx
  split at h
  case isTrue revRot =>
    obtain ⟨⟨cm, cp⟩, same⟩ := revRot
    refine ⟨4, _, _, (Option.some.inj h).symm, turn (by omega) (by omega) same (turned _) ?_⟩
    rw [cm, cp]
    exact fun x hx => patLow_rev_rot hp.groups (same ▸ hm.inside) hp.inside hx
  split at h
  case isTrue bcast =>
    obtain ⟨⟨cp, -⟩, le⟩ := bcast
    refine ⟨3, _, _, (Option.some.inj h).symm, ⟨by omega, by omega, hp.groups, (patAt_coarse 0 le hm.inside hp.inside).2⟩, fun t => ?_⟩
    rw [cp]
    exact patAt_bcast le hm.inside hp.inside t
  split at h
  case isTrue ofBcast =>
    obtain ⟨⟨cm, -⟩, le⟩ := ofBcast
    refine ⟨3, _, _, (Option.some.inj h).symm, ⟨by omega, by omega, hm.groups, hm.inside⟩, fun t => ?_⟩
    rw [cm]
    exact bcast_patAt le hm.inside hp.inside t
  case isFalse => cases h

/-- The tag of a composition describes the map of the pattern followed by the map of the source (R44). -/
theorem composeTag_at {m p q : BitVec 16} (hm : tagOk m = true) (hp : p = 0 ∨ PatTag p) (h : composeTag m p = some q) (mt : List MapTable) {t : Nat}
    (ht : t < 32) : (tagMap mt q).at t = (tagMap mt m).at (patAt (tagClass p) (tagG p) (tagK p) t) := by
  obtain rfl | hp := hp
  · obtain rfl : m = q := Option.some.inj h
    rfl
  have pclass : tagClass p ≠ 0 ∧ tagClass p ≠ 6 := ⟨by have := hp.pos; omega, by have := hp.le; omega⟩
  obtain rfl | hm | table | void := tagOk_cases hm
  · obtain rfl : p = q := by
      have ident : tagClass (0 : BitVec 16) = 0 := rfl
      simp only [composeTag, ident, if_neg pclass.1, if_true] at h
      exact Option.some.inj h
    rw [tagMap_pattern mt hp.le ht, tagMap_ident mt (patAt_lt hp.groups hp.inside ht)]
  · obtain ⟨c, g, k, rfl, edit⟩ := composeTag_patterns hm hp h
    rw [canonPat_at edit.toEdit mt ht, edit.after t, tagMap_pattern mt hm.le (patAt_lt hp.groups hp.inside ht)]
  · simp [composeTag, table, pclass] at h
  · obtain rfl : mkTag 6 0 0 0 = q := by simpa [composeTag, pclass.1, void] using h
    rw [tagMap_void mt rfl, tagMap_void mt void]

theorem Claims.patternTagsCompose : Claims.PatternTagsCompose := by
  intro mt m cls g k q hm pos le hg hk h t ht
  have edit : Edit cls (if cls = 1 then 5 else g) k := by
    refine ⟨pos, le, ?_, ?_⟩
    · split_ifs <;> omega
    · split_ifs
      exacts [lt_of_lt_of_le hk (Nat.pow_le_pow_right (by omega) hg), hk]
  have pattern : canonPat cls (if cls = 1 then 5 else g) k = 0 ∨ PatTag (canonPat cls (if cls = 1 then 5 else g) k) :=
    (canonPat_cases edit).imp And.left And.left
  rw [composeTag_at hm pattern h mt ht, canonPat_patAt edit ht]

/-! ### Canonical tags (R39) -/

/-- Two maps of 32 entries are one where every thread has the same entry. -/
theorem LMap.ext_at {m n : LMap} (hm : m.length = 32) (hn : n.length = 32) (h : ∀ t < 32, m.at t = n.at t) : m = n := by
  refine List.ext_getElem (hm.trans hn.symm) fun t tm tn => ?_
  have same := h t (hm ▸ tm)
  simpa [LMap.at, List.getD, tm, tn] using same

theorem LMap.ofFn_length (f : Nat → Option (Fin 32)) : (LMap.ofFn f).length = 32 := by simp [LMap.ofFn, threads]

theorem eq_ident_iff {m : LMap} (hm : m.length = 32) : m = .ident ↔ ∀ t < 32, m.at t = some (Fin.ofNat 32 t) :=
  ⟨fun h _ ht => h ▸ ident_at ht, fun h => LMap.ext_at hm (LMap.ofFn_length _) fun t ht => (h t ht).trans (ident_at ht).symm⟩

/-- The maps whose tag needs no table. -/
theorem canonTag_ne_none_iff (m : LMap) : canonTag m ≠ none ↔ m = .ident ∨ ∀ t < 32, m.at t = none := by
  have void : threads.all (fun t => (m.at t).isNone) = true ↔ ∀ t < 32, m.at t = none := by
    simp [List.all_eq_true, mem_threads]
  unfold canonTag
  split
  next ident => exact iff_of_true (by simp) (.inl (eq_of_beq ident))
  next ident =>
    split
    next empty => exact iff_of_true (by simp) (.inr (void.mp empty))
    next empty => exact iff_of_false (by simp) (not_or_intro (fun h => ident (beq_iff_eq.mpr h)) (fun h => empty (void.mpr h)))

theorem Claims.canonicalTagsDescribe : Claims.CanonicalTagsDescribe := fun mt m hm =>
  ⟨fun _ h _ ht => canonTag_map h mt ht, (canonTag_ne_none_iff m).trans (or_congr_left (eq_ident_iff hm))⟩

end Sys2Proof.Machine

open Sys2Proof.Machine in
/-- Settles O8: two pattern classes that compose move a thread inside its group as the pattern and then the source do. -/
theorem laneMapTags : Obligations.LaneMapTags := by
  unfold Obligations.LaneMapTags
  exact ⟨Claims.patternTagsCompose, Claims.canonicalTagsDescribe⟩
end

section
/-! SUPPORT. What writing one register through the lane maps leaves: its elements, those of other registers, and the references and entries of the map
tables (R40, R41). -/
namespace Sys2Proof.Machine
set_option Elab.async false

/-! ### The references of tables (R40, R41) -/

/-- The references of a map table. -/
def Regs.refs (r : Regs) (k : Nat) : Nat := (r.mt.getD k .free).ref

theorem refTag_give_ref {mt : List MapTable} (t : BitVec 16) {k : Nat} (hk : k < mt.length) : ((refTag mt t (· + 1)).getD k .free).ref =
    (mt.getD k .free).ref + (if tagClass t == 5 && tagTix t == k then 1 else 0) := by
  unfold refTag
  split
  next h5 =>
    by_cases same : tagTix t = k
    · simp [List.getD, h5, same, hk]
    · simp [List.getD, h5, same]
  next h5 => simp [h5]

theorem Regs.usersOf_one (r : Regs) (d : Reg) (k : Nat) :
    r.usersOf [d] k = if tagClass (r.vreg d).tag == 5 && tagTix (r.vreg d).tag == k then 1 else 0 := by
  unfold Regs.usersOf
  rw [List.filter_singleton]
  cases tagClass (r.vreg d).tag == 5 && tagTix (r.vreg d).tag == k <;> rfl

/-- The users of a table among registers, and one of them by itself. -/
theorem Regs.usersOf_erase (r : Regs) {ds : List Reg} {d : Reg} (hd : d ∈ ds) (k : Nat) :
    r.usersOf ds k = r.usersOf [d] k + r.usersOf (ds.erase d) k := by
  have perm := (List.perm_cons_erase hd).filter (fun g => tagClass (r.vreg g).tag == 5 && tagTix (r.vreg g).tag == k)
  rw [← List.singleton_append, List.filter_append] at perm
  simpa [Regs.usersOf] using perm.length_eq

theorem Regs.usersOf_of_vreg {r q : Regs} {ds : List Reg} (h : ∀ e ∈ ds, q.vreg e = r.vreg e) (k : Nat) : q.usersOf ds k = r.usersOf ds k := by
  unfold Regs.usersOf
  rw [List.filter_congr fun e he => by rw [h e he]]

theorem Regs.counted_iff (r : Regs) (ds : List Reg) : r.counted ds = true ↔ ∀ k < 16, r.usersOf ds k ≤ r.refs k := by
  simp [Regs.counted, Regs.usersOf, Regs.refs]

/-! ### A register that is written -/

/-- One register has been given a tag: its old table has lost a reference and its new one gained one, no table that others use has lost its entries, and
every other register is as it was. -/
structure TagWrite (r q : Regs) (d : Reg) : Prop where
  others : ∀ e, e ≠ d → q.vreg e = r.vreg e
  rest : q.sameRest r
  has : ∀ e, q.has e ↔ r.has e
  length : q.mt.length = r.mt.length
  slots : (∀ e, (r.vreg e).slots.length = 32) → ∀ e, (q.vreg e).slots.length = 32
  refs : ∀ k < 16, q.refs k = r.refs k - r.usersOf [d] k + q.usersOf [d] k
  ents : ∀ k, 16 ≤ k ∨ r.usersOf [d] k < r.refs k → (q.mt.getD k .free).ents = (r.mt.getD k .free).ents

/-- The tags of a destination have been released, each table off one reference for each of them; what the destination's map needs is in place. -/
structure TagsReleased (r q : Regs) (ds : List Reg) : Prop where
  others : ∀ e, e ∉ ds → q.vreg e = r.vreg e
  rest : q.sameRest r
  has : ∀ e, q.has e ↔ r.has e
  length : q.mt.length = r.mt.length
  slots : (∀ e, (r.vreg e).slots.length = 32) → ∀ e, (q.vreg e).slots.length = 32
  refs : ∀ k, q.refs k = r.refs k - r.usersOf ds k
  ents : ∀ k, 16 ≤ k ∨ r.usersOf ds k < r.refs k → (q.mt.getD k .free).ents = (r.mt.getD k .free).ents

theorem TagsReleased.releaseTags (r : Regs) (ds : List Reg) : TagsReleased r (releaseTags r ds) ds :=
  ⟨fun e _ => releaseTags_vreg r ds e, releaseTags_sameRest r ds, releaseTags_has r ds, releaseTags_length r ds,
    fun h e => (congrArg (·.slots.length) (releaseTags_vreg r ds e)).trans (h e), releaseTags_ref r ds, fun k _ => releaseTags_ents r ds k⟩

/-- A free table is taken for a map: it had no reference, and has none yet. -/
theorem TagsReleased.takeTable (r : Regs) (ds : List Reg) {j : Nat} (hj : freeTable (Machine.releaseTags r ds).mt = some j) (m : LMap) (b : Bool) :
    TagsReleased r { Machine.releaseTags r ds with mt := (Machine.releaseTags r ds).mt.set j { ents := m, inj := b, ref := 0 } } ds := by
  have released := TagsReleased.releaseTags r ds
  have unused : (Machine.releaseTags r ds).refs j = 0 := freeTable_ref hj
  have elsewhere : ∀ k, k ≠ j →
      ((Machine.releaseTags r ds).mt.set j { ents := m, inj := b, ref := 0 }).getD k .free = (Machine.releaseTags r ds).mt.getD k .free :=
    fun k hk => by simp [List.getD, Ne.symm hk]
  have taken : (((Machine.releaseTags r ds).mt.set j { ents := m, inj := b, ref := 0 }).getD j .free).ref = 0 := by
    by_cases lt : j < (Machine.releaseTags r ds).mt.length <;> simp [List.getD, lt, MapTable.free]
  constructor
  case others => exact fun e he => by rw [← released.others e he]; cases e <;> rfl
  case rest => exact released.rest
  case has => exact fun e => by rw [← released.has e]; cases e <;> rfl
  case length => exact (List.length_set ..).trans released.length
  case slots => exact fun h e => by rw [← released.slots h e]; cases e <;> rfl
  case refs =>
    intro k
    rw [← released.refs k]
    by_cases same : k = j
    · rw [same, unused]
      exact taken
    · exact congrArg MapTable.ref (elsewhere k same)
  case ents =>
    intro k hk
    have other : k ≠ j := by
      rintro rfl
      have := released.refs k
      have := freeTable_lt hj
      omega
    exact (congrArg MapTable.ents (elsewhere k other)).trans (released.ents k hk)

/-- Firing a destination as its map is written (R46) moves its slots alone. -/
theorem TagsReleased.fire (r : Regs) {ds : List Reg} (m : LMap) (hn : ds.Nodup) (hv : ∀ d ∈ ds, d.isVec) (hd : ∀ d ∈ ds, r.has d) :
    TagsReleased r (ds.foldl (fun r d => r.setVreg d { r.vreg d with slots := fireSlots (r.vreg d).slots m }) (Machine.releaseTags r ds)) ds := by
  have released := TagsReleased.releaseTags r ds
  have mt := foldl_setVreg_mt ds (fun r d => { r.vreg d with slots := fireSlots (r.vreg d).slots m }) (Machine.releaseTags r ds)
  have vregs := foldl_setVreg_vreg ds (fun y => { y with slots := fireSlots y.slots m }) _ hn hv (fun d h => (released.has d).mpr (hd d h))
  constructor
  case others => exact fun e he => by rw [vregs, if_neg he, released.others e he]
  case slots =>
    intro h e
    rw [vregs]
    split
    exacts [by simp [fireSlots, threads], released.slots h e]
  case rest => exact (foldl_setVreg_sameRest ..).trans released.rest
  case has => exact fun e => (foldl_setVreg_has ..).trans (released.has e)
  case length => exact (congrArg List.length mt).trans released.length
  case refs => exact fun k => by rw [Regs.refs, mt]; exact released.refs k
  case ents => exact fun k hk => by rw [mt]; exact released.ents k hk

/-- Writing a map releases the tags of its destination, then gives it one (R41). -/
theorem writeMap_tags {r : Regs} {ds : List Reg} {m : LMap} {byRef : Option (BitVec 16)} {l : LaneRes} (h : writeMap r ds m byRef = .ok l)
    (hn : ds.Nodup) (hv : ∀ d ∈ ds, d.isVec) (hd : ∀ d ∈ ds, r.has d) : ∃ q t, l.regs = giveTag q ds t ∧ TagsReleased r q ds := by
  unfold writeMap at h
  simp only at h
  split at h
  · obtain rfl := Except.ok.inj h
    exact ⟨_, _, rfl, .releaseTags r ds⟩
  split at h
  · obtain rfl := Except.ok.inj h
    exact ⟨_, _, rfl, .releaseTags r ds⟩
  split at h
  · obtain rfl := Except.ok.inj h
    exact ⟨_, _, rfl, .takeTable r ds ‹_› _ _⟩
  split at h
  · cases h
  · obtain rfl := Except.ok.inj h
    exact ⟨_, _, rfl, .fire r m hn hv hd⟩

theorem giveTag_one_mt (r : Regs) (d : Reg) (t : BitVec 16) : (giveTag r [d] t).mt = refTag r.mt t (· + 1) := by simp [giveTag]

/-- Writing the map of one register is a write of its tag. -/
theorem TagWrite.of_writeMap {r : Regs} {d : Reg} {m : LMap} {byRef : Option (BitVec 16)} {l : LaneRes} (h : writeMap r [d] m byRef = .ok l)
    (hv : d.isVec) (hd : r.has d) (hmt : r.mt.length = 16) : TagWrite r l.regs d := by
  have one : [d].Nodup := List.nodup_singleton d
  have vec : ∀ e ∈ [d], e.isVec := by simpa using hv
  obtain ⟨q, t, hl, released⟩ := writeMap_tags h one vec (by simpa using hd)
  have vregs := giveTag_vreg q [d] t one vec (by simpa [released.has] using hd)
  rw [hl]
  constructor
  case others => exact fun e he => by rw [vregs, if_neg (by simpa using he), released.others e (by simpa using he)]
  case rest => exact (giveTag_sameRest q [d] t).trans released.rest
  case has => exact fun e => (giveTag_has q [d] t e).trans (released.has e)
  case length => rw [giveTag_one_mt, refTag_length, released.length]
  case slots =>
    intro h e
    rw [vregs]
    split
    exacts [released.slots h e, released.slots h e]
  case refs =>
    intro k hk
    rw [← released.refs, Regs.usersOf_one, vregs, if_pos (List.mem_singleton_self d), Regs.refs, giveTag_one_mt]
    exact refTag_give_ref t (by rw [released.length, hmt]; exact hk)
  case ents => exact fun k hk => (giveTag_ents q [d] t k).trans (released.ents k hk)

/-- A write of a tag after slots of the register have been written. -/
theorem TagWrite.after_slots {r q p : Regs} {d : Reg} (h : TagWrite q p d) (slots : SlotsOnly r q) (others : ∀ e, e ≠ d → q.vreg e = r.vreg e)
    (rest : q.sameRest r) (has : ∀ e, q.has e ↔ r.has e)
    (length : (∀ e, (r.vreg e).slots.length = 32) → ∀ e, (q.vreg e).slots.length = 32) : TagWrite r p d where
  others e he := (h.others e he).trans (others e he)
  rest := h.rest.trans rest
  has e := (h.has e).trans (has e)
  length := h.length.trans (congrArg List.length slots.mt)
  slots same := h.slots (length same)
  refs k hk := by
    rw [h.refs k hk, Regs.usersOf_congr slots, Regs.refs, slots.mt]
    rfl
  ents k hk := by
    rw [Regs.refs, ← slots.mt, ← Regs.usersOf_congr slots] at hk
    exact (h.ents k hk).trans (by rw [slots.mt])

section
variable {r q : Regs} {d : Reg} (h : TagWrite r q d)
include h

theorem TagWrite.users_rest {ds : List Reg} (hn : ds.Nodup) (k : Nat) : q.usersOf (ds.erase d) k = r.usersOf (ds.erase d) k :=
  Regs.usersOf_of_vreg (fun e he => h.others e fun same => (hn.mem_erase_iff.mp he).1 same) k

/-- A write of a tag keeps its tables counted (R40, R41). -/
theorem TagWrite.counted {ds : List Reg} (hn : ds.Nodup) (hd : d ∈ ds) (hc : r.counted ds = true) : q.counted ds = true := by
  rw [Regs.counted_iff] at hc ⊢
  intro k hk
  have before := hc k hk
  rw [r.usersOf_erase hd] at before
  rw [q.usersOf_erase hd, h.users_rest hn, h.refs k hk]
  omega

/-- A write of a tag takes at most one free table. -/
theorem TagWrite.freeTables : r.freeTables ≤ q.freeTables + 1 := by
  obtain ⟨j, hj⟩ : ∃ j, ∀ k, q.usersOf [d] k ≠ 0 → k = j := ⟨tagTix (q.vreg d).tag, fun k hk => by
    rw [Regs.usersOf_one] at hk
    by_contra other
    simp [Ne.symm other] at hk⟩
  have stays : ∀ k ∈ (List.range 16).filter (fun k => (r.mt.getD k .free).ref == 0),
      k ∈ j :: (List.range 16).filter (fun k => (q.mt.getD k .free).ref == 0) := by
    intro k hk
    simp only [List.mem_filter, List.mem_range, beq_iff_eq] at hk
    simp only [List.mem_cons, List.mem_filter, List.mem_range, beq_iff_eq]
    by_cases named : q.usersOf [d] k = 0
    · refine .inr ⟨hk.1, ?_⟩
      have refs := h.refs k hk.1
      simp only [Regs.refs] at refs
      omega
    · exact .inl (hj k named)
  exact ((List.nodup_range.filter _).subperm stays).length_le

/-- Another register keeps its elements where its table counts it beside the one that is written. -/
theorem TagWrite.elem_other {e : Reg} (he : e ≠ d) (hc : ∀ k < 16, r.usersOf [e] k + r.usersOf [d] k ≤ r.refs k) (u : Nat) : q.elem e u = r.elem e u := by
  have map : q.map e = r.map e := by
    rw [Regs.map, Regs.map, h.others e he]
    unfold tagMap
    split
    next h5 =>
      refine h.ents _ ?_
      by_cases beyond : 16 ≤ tagTix (r.vreg e).tag
      · exact .inl beyond
      · have count := hc _ (Nat.lt_of_not_le beyond)
        rw [r.usersOf_one e] at count
        simp only [h5, beq_self_eq_true, Bool.true_and, if_true] at count
        exact .inr (by omega)
    · rfl
    · rfl
  rw [Regs.elem, Regs.elem, map, h.others e he]

/-- Registers whose tables are counted keep their elements when another of them is written. -/
theorem TagWrite.elem_counted {ds : List Reg} (hn : ds.Nodup) (hd : d ∈ ds) (hc : r.counted ds = true) {e : Reg} (he : e ∈ ds) (ne : e ≠ d) (u : Nat) :
    q.elem e u = r.elem e u := by
  refine h.elem_other ne (fun k hk => ?_) u
  have count := (Regs.counted_iff r ds).mp hc k hk
  rw [r.usersOf_erase hd, r.usersOf_erase (hn.mem_erase_iff.mpr ⟨ne, he⟩)] at count
  omega

end

end Sys2Proof.Machine
end

section
/-! SUPPORT. Registers that are given elements: whole (R42, R169), or for the acting threads at an anchor (R50 to R53, R130). -/
namespace Sys2Proof.Machine
set_option Elab.async false

/-! ### A register that is given elements -/

/-- A register file has the shape that writing through the lane maps rests on. -/
structure Regs.Fit (r : Regs) : Prop where
  tables : r.mt.length = 16
  slots : ∀ e, (r.vreg e).slots.length = 32

/-- The threads of a mask receive elements of a register, the others keep theirs, and all else is as it was but the register's table. -/
structure RegGiven (r q : Regs) (d : Reg) (on : Mask) (out : Nat → Option Word) : Prop extends TagWrite r q d where
  active : ∀ u < 32, inMask on u = true → q.elem d u = out u
  idle : ∀ u < 32, inMask on u = false → q.elem d u = r.elem d u

theorem inMask_full {t : Nat} (h : t < 32) : inMask fullMask t = true := by
  unfold inMask fullMask
  rw [BitVec.getLsbD_allOnes]
  exact decide_eq_true h

/-- Writing a map over the slots of one register gives every thread the element that its entry names. -/
theorem RegGiven.writeMap {r : Regs} {d : Reg} {m : LMap} {byRef : Option (BitVec 16)} {l : LaneRes} (h : writeMap r [d] m byRef = .ok l)
    (hv : d.isVec) (hd : r.has d) (hmt : r.mt.length = 16) (hb : ∀ t, byRef = some t → ∀ i < 32, (tagMap r.mt t).at i = m.at i) :
    RegGiven r l.regs d fullMask (fun u => (m.at u).map (fun p => (r.vreg d).slots.getD p.val 0)) where
  toTagWrite := .of_writeMap h hv hd hmt
  active u hu _ := (writeMap_spec h (List.nodup_singleton d) (by simpa using hv) (by simpa using hd) hmt hb).1 d (List.mem_singleton_self d) u hu
  idle u hu off := by rw [inMask_full hu] at off; cases off

theorem setVreg_slots_only {r : Regs} {d : Reg} (sl : List Word) (hv : d.isVec) (hd : r.has d) :
    (r.setVreg d { r.vreg d with slots := sl }).vreg d = { r.vreg d with slots := sl } := Regs.vreg_setVreg_self r d _ hv hd

/-- Writing a whole register gives every thread the new slot that its entry names (R42, R169), where a table is free. -/
theorem wholeWrite_given {r : Regs} {d : Reg} (slots : List Word) (m : LMap) (byRef : Option (BitVec 16)) (hv : d.isVec) (hd : r.has d)
    (hmt : r.mt.length = 16) (room : 1 ≤ r.freeTables) (length : slots.length = 32)
    (hb : ∀ t, byRef = some t → ∀ i < 32, (tagMap r.mt t).at i = m.at i) :
    ∃ l, wholeWrite d slots m byRef r = .ok l ∧ RegGiven r l.regs d fullMask (fun u => (m.at u).map (fun p => slots.getD p.val 0)) := by
  have only := SlotsOnly.setVreg r d slots
  have fits : mapFits r [d] m = true := by simp [mapFits, freeTable_releaseTags [d] room]
  obtain ⟨l, hl⟩ := writeMap_ok byRef (mapFits_congr fits only.mt (fun e _ => only.tag e))
  have given := RegGiven.writeMap hl hv ((Regs.has_setVreg r d d _).mpr hd) (by rw [only.mt, hmt]) (by rw [only.mt]; exact hb)
  have lengths : (∀ e, (r.vreg e).slots.length = 32) → ∀ e, ((r.setVreg d { r.vreg d with slots := slots }).vreg e).slots.length = 32 := fun h e => by
    by_cases same : e = d
    · rw [same, setVreg_slots_only slots hv hd]
      exact length
    · rw [Regs.vreg_setVreg_ne _ _ same]
      exact h e
  refine ⟨l, hl, given.toTagWrite.after_slots only (fun e he => Regs.vreg_setVreg_ne _ _ he) (r.sameRest_setVreg d _) (fun e => Regs.has_setVreg ..)
    lengths, ?_, ?_⟩
  · intro u hu on
    rw [given.active u hu on, setVreg_slots_only slots hv hd]
  · intro u hu off
    rw [inMask_full hu] at off
    cases off

/-! ### Results at an anchor -/

/-- The slots that results of the acting threads are written into: each its own, and none that a thread which does not act reads its element from. -/
structure Anchor.Apart (an : Anchor) (r : Regs) (d : Reg) (act : Mask) (res : Nat → Option DWord) : Prop where
  tag : an.ok r.mt
  slot : ∀ t < 32, inMask act t = true → (res t).isSome = true → (an.slots.at t).isSome = true
  own : ∀ t < 32, ∀ u < 32, (res t).isSome = true → (res u).isSome = true → inMask act t = true → inMask act u = true → an.slots.at t = an.slots.at u → t = u
  keeps : ∀ u < 32, inMask act u = false →
    (an.keep.at u).map (fun p => (((if an.fire then fireDst r [d] else { regs := r } : LaneRes).regs.vreg d).slots.getD p.val 0)) = r.elem d u
  free : ∀ u < 32, inMask act u = false → ∀ p, an.keep.at u = some p → ∀ t < 32, inMask act t = true → an.slots.at t ≠ some p

/-- A thread in a slot of its own finds its own result there. -/
theorem lastThere_own {act : Mask} {slots : LMap} {res : Nat → Option DWord} {t : Nat}
    (own : ∀ u < 32, inMask act u = true → (res u).isSome = true → slots.at u = slots.at t → u = t) :
    lastThere act slots res t = t := by
  unfold lastThere
  cases found : threads.reverse.find? (fun u => inMask act u && (res u).isSome && slots.at u == slots.at t) with
  | none => rfl
  | some u =>
    have where_ := List.mem_of_find?_eq_some found
    have what := List.find?_some found
    simp only [Bool.and_eq_true, beq_iff_eq] at what
    obtain ⟨⟨uon, uhas⟩, same⟩ := what
    exact own u (mem_threads.mp (by simpa using where_)) uon uhas same

theorem placedResults_rest (r : Regs) (d : Reg) (act : Mask) (an : Anchor) (res : Nat → Option DWord) :
    (∀ e, e ≠ d → (placedResults r [d] act an res).vreg e = r.vreg e) ∧ (placedResults r [d] act an res).sameRest r ∧
    ∀ e, (placedResults r [d] act an res).has e ↔ r.has e := by
  have start : ∀ P : Regs → Prop, P r → P (fireDst r [d]).regs → P (if an.fire then fireDst r [d] else { regs := r } : LaneRes).regs := by
    intro P plain fired
    split
    exacts [fired, plain]
  obtain ⟨-, rest, has⟩ := fireDst_rest r [d]
  refine ⟨fun e he => ?_, ?_, fun e => ?_⟩
  · exact writeLoop_keeps (fun x => x.vreg e = r.vreg e) [d] act an.slots res (fun x p y hx => (writeSlot_vreg_ne (by simpa using he) x p y).trans hx)
      threads _ (start (fun x => x.vreg e = r.vreg e) rfl (fireDst_vreg_ne r [d] (by simpa using he)))
  · exact writeLoop_keeps (fun x => x.sameRest r) [d] act an.slots res (fun x p y hx => (writeSlot_sameRest x [d] p y).trans hx)
      threads _ (start (fun x => x.sameRest r) r.sameRest_refl rest)
  · exact writeLoop_keeps (fun x => x.has e ↔ r.has e) [d] act an.slots res (fun x p y hx => (writeSlot_has x [d] p y e).trans hx)
      threads _ (start (fun x => x.has e ↔ r.has e) Iff.rfl (has e))

/-- The slots of a register once results stand in them. -/
theorem placedResults_slots {r : Regs} {d : Reg} (hv : d.isVec) (hd : r.has d) (act : Mask) (an : Anchor) (res : Nat → Option DWord) :
    ((placedResults r [d] act an res).vreg d).slots =
      putSlots (slotWrite act an.slots res (·.setWidth 32)) threads ((if an.fire then fireDst r [d] else { regs := r } : LaneRes).regs.vreg d).slots := by
  have one : DstRegs false d [d] := rfl
  have here : ∀ e ∈ [d], (if an.fire then fireDst r [d] else { regs := r } : LaneRes).regs.has e := by
    intro e he
    obtain rfl := List.mem_singleton.mp he
    split
    exacts [((fireDst_rest r [e]).2.2 e).mpr hd, hd]
  have half : halfOf d d = fun x : DWord => x.setWidth 32 := funext fun x => if_pos rfl
  rw [placedResults, writeLoop_vreg (half := halfOf d d) act an.slots res
    (fun x hx p y => writeSlot_vreg one hv hx (List.mem_singleton_self d) p y) threads _ here, half]

/-- A slot that no acting thread writes holds what it held. -/
theorem putSlots_other {act : Mask} {slots : LMap} {res : Nat → Option DWord} {half : DWord → Word} {sl : List Word} (hl : sl.length = 32) {p : Fin 32}
    (other : ∀ t < 32, inMask act t = true → slots.at t ≠ some p) :
    (putSlots (slotWrite act slots res half) threads sl).getD p.val 0 = sl.getD p.val 0 := by
  have missing : threads.reverse.find? (fun u => (slotWrite act slots res half u).any (fun x => x.1 == p)) = none := by
    rw [List.find?_eq_none]
    intro u hu
    have lt : u < 32 := mem_threads.mp (by simpa using hu)
    unfold slotWrite
    cases on : inMask act u with
    | false => simp
    | true =>
      have ne := other u lt on
      cases res u with
      | none => simp
      | some x =>
        cases at_ : slots.at u with
        | none => simp
        | some j =>
          rw [at_] at ne
          simpa using ne
  rw [putSlots_get _ threads sl hl p, missing]

/-- Results written at an anchor of slots apart: each acting thread receives its own, and the others keep their elements (R50 to R53). -/
theorem writeAt_given {r : Regs} {d : Reg} {act : Mask} {an : Anchor} {res : Nat → Option DWord} {l : LaneRes} (h : writeAt r [d] act an res = .ok l)
    (hv : d.isVec) (hd : r.has d) (fit : r.Fit) (apart : an.Apart r d act res) :
    RegGiven r l.regs d act (fun u => (res u).map (·.setWidth 32)) := by
  have one : DstRegs false d [d] := rfl
  have mem : ∀ e ∈ [d], r.has e := by simpa using hd
  obtain ⟨given, -, -⟩ := writeAt_spec h one hv mem fit.tables fit.slots apart.tag apart.slot
  have only := SlotsOnly.placedResults r [d] act an res
  obtain ⟨others, rest, has⟩ := placedResults_rest r d act an res
  rw [writeAt_eq] at h
  obtain ⟨w, hw, rfl⟩ := map_eq_ok h
  have tagged : TagWrite _ w.regs d := .of_writeMap hw hv ((has d).mpr hd) (by rw [only.mt, fit.tables])
  have length : ((if an.fire then fireDst r [d] else { regs := r } : LaneRes).regs.vreg d).slots.length = 32 := by
    split
    exacts [fireDst_length r [d] fit.slots d, fit.slots d]
  have lengths : ∀ e, ((placedResults r [d] act an res).vreg e).slots.length = 32 := fun e => by
    by_cases same : e = d
    · rw [same, placedResults_slots hv hd, putSlots_length]
      exact length
    · rw [others e same]
      exact fit.slots e
  refine ⟨tagged.after_slots only others rest has (fun _ => lengths), fun u hu on => ?_, fun u hu off => ?_⟩
  · have mine := given u hu on
    cases hres : res u with
    | none =>
      rw [hres] at mine
      simpa [Regs.element] using mine
    | some x =>
      have some_ : (res u).isSome = true := by rw [hres]; rfl
      rw [lastThere_own fun v hv von vhas same => apart.own v hv u hu vhas some_ von on same, hres] at mine
      simp only [Regs.element, Bool.false_eq_true, if_false, Option.bind_some, Option.map_some, fitWidth] at mine
      obtain ⟨y, hy, same⟩ := Option.map_eq_some_iff.mp mine
      rw [hy, Option.map_some]
      exact congrArg some (by simpa using congrArg (BitVec.setWidth 32) same)
  · have read := (RegGiven.writeMap hw hv ((has d).mpr hd) (by rw [only.mt, fit.tables]) (by
      intro t ht i hi
      split at ht
      · rename_i keep
        rw [only.mt, apart.tag t ht i hi, eq_of_beq keep]
      · cases ht)).active u hu (inMask_full hu)
    have entry : (resultMap act an res).at u = an.keep.at u := by rw [resultMap, ofFn_at _ hu, off]; rfl
    rw [show ({ w with extra := _, autofire := _ } : LaneRes).regs = w.regs from rfl, read, entry, ← apart.keeps u hu off]
    cases hk : an.keep.at u with
    | none => rfl
    | some p =>
      rw [Option.map_some, Option.map_some, placedResults_slots hv hd,
        putSlots_other length (apart.free u hu off p hk)]

/-! ### Anchors with slots apart -/

theorem fireDst_slots {r : Regs} {d : Reg} (hv : d.isVec) (hd : r.has d) :
    ((fireDst r [d]).regs.vreg d).slots = fireSlots (r.vreg d).slots (r.map d) :=
  congrArg VReg.slots (Regs.vreg_setVreg_self r d { r.vreg d with slots := fireSlots (r.vreg d).slots (r.map d) } hv hd)

theorem ofNat_inj {t u : Nat} (ht : t < 32) (hu : u < 32) (h : Fin.ofNat 32 t = Fin.ofNat 32 u) : t = u := by
  have := congrArg Fin.val h
  simpa [Nat.mod_eq_of_lt ht, Nat.mod_eq_of_lt hu] using this

theorem pairMap_one (r : Regs) (d : Reg) {t : Nat} (ht : t < 32) : (pairMap r [d]).at t = (r.map d).at t := by
  rw [pairMap, ofFn_at _ ht]
  cases h : (r.map d).at t <;> simp [h]

/-- What a destination that is clean on the acting threads (R52) says of their slots. -/
theorem cleanOn_iff (m : LMap) (act : Mask) : cleanOn m act = true ↔
    ∀ t < 32, inMask act t = true → (m.at t).isSome = true ∧ ∀ u < 32, u ≠ t → m.at u ≠ m.at t := by
  simp only [cleanOn, List.all_eq_true, mem_threads, Bool.or_eq_true, Bool.not_eq_true', Bool.and_eq_true, beq_iff_eq, bne_iff_ne, ne_eq]
  refine forall₂_congr fun t _ => ?_
  rw [← Bool.not_eq_true, ← imp_iff_not_or]
  exact imp_congr_right fun _ => and_congr_right fun _ => forall₂_congr fun _ _ => or_iff_not_imp_left

/-- The destination's own slots, where it is clean, and else its slots once it is fired, are apart (R52). -/
theorem partAnchor_apart {r : Regs} {d : Reg} (act : Mask) (res : Nat → Option DWord) (hv : d.isVec) (hd : r.has d) :
    (partAnchor r [d] act).Apart r d act res := by
  have slotsAt : ∀ m : LMap, ∀ t < 32, (LMap.ofFn (fun t => some ((m.at t).getD (Fin.ofNat 32 t)))).at t = some ((m.at t).getD (Fin.ofNat 32 t)) :=
    fun m t ht => ofFn_at _ ht
  by_cases clean : cleanOn (r.map d) act = true
  · have anchor : partAnchor r [d] act = { slots := .ofFn (fun t => some (((r.map d).at t).getD (Fin.ofNat 32 t))), byRef := some (r.vreg d).tag
                                           fire := false, keep := r.map d } := by
      simp [partAnchor, clean]
    rw [anchor]
    have own : ∀ t < 32, inMask act t = true → some (((r.map d).at t).getD (Fin.ofNat 32 t)) = (r.map d).at t := fun t ht on => by
      obtain ⟨p, hp⟩ := Option.isSome_iff_exists.mp ((cleanOn_iff _ _).mp clean t ht on).1
      rw [hp]
      rfl
    constructor
    case tag =>
      rintro t ⟨⟩ i -
      rfl
    case slot => exact fun t ht _ _ => by rw [slotsAt _ t ht]; rfl
    case own =>
      intro t ht u hu _ _ ton uon same
      rw [slotsAt _ t ht, slotsAt _ u hu, own t ht ton, own u hu uon] at same
      by_contra ne
      exact ((cleanOn_iff _ _).mp clean u hu uon).2 t ht ne same
    case keeps => exact fun u _ _ => rfl
    case free =>
      intro u hu off p hp t ht on same
      rw [slotsAt _ t ht, own t ht on] at same
      have ne : u ≠ t := fun h => by rw [h, on] at off; cases off
      exact ((cleanOn_iff _ _).mp clean t ht on).2 u hu ne (hp.trans same.symm)
  · have anchor : partAnchor r [d] act = { slots := .ofFn (fun t => some (((fireMap (pairMap r [d])).at t).getD (Fin.ofNat 32 t))), byRef := none
                                           fire := true, keep := fireMap (pairMap r [d]) } := by
      simp [partAnchor, clean]
    rw [anchor]
    have home : ∀ t < 32, ((fireMap (pairMap r [d])).at t).getD (Fin.ofNat 32 t) = Fin.ofNat 32 t := fun t ht => by
      rw [fireMap_at _ ht]
      cases (pairMap r [d]).at t <;> rfl
    constructor
    case tag =>
      rintro t ⟨⟩
    case slot => exact fun t ht _ _ => by rw [slotsAt _ t ht]; rfl
    case own =>
      intro t ht u hu _ _ _ _ same
      rw [slotsAt _ t ht, slotsAt _ u hu, home t ht, home u hu] at same
      exact ofNat_inj ht hu (Option.some.inj same)
    case keeps =>
      intro u hu _
      rw [fireMap_at _ hu, pairMap_one r d hu, if_pos rfl, fireDst_slots hv hd, Regs.elem]
      cases hm : (r.map d).at u with
      | none => rfl
      | some p =>
        have slot : (Fin.ofNat 32 u).val = u := Nat.mod_eq_of_lt hu
        simp only [Option.map_some, slot, fireSlots_get _ _ hu hm]
    case free =>
      intro u hu off p hp t ht on same
      rw [slotsAt _ t ht, home t ht] at same
      rw [fireMap_at _ hu] at hp
      obtain ⟨-, -, rfl⟩ := Option.map_eq_some_iff.mp hp
      have threads_eq := ofNat_inj ht hu (Option.some.inj same)
      rw [threads_eq, off] at on
      cases on

/-- The slots of results with no mapped source (R50, R52, R130) are apart. -/
theorem anchorOf_plain_apart {r : Regs} {d : Reg} (act : Mask) (res : Nat → Option DWord) (hv : d.isVec) (hd : r.has d) :
    (anchorOf r [d] act []).Apart r d act res := by
  by_cases full : act = fullMask
  · have anchor : anchorOf r [d] act [] = { slots := .ident, byRef := some (mkTag 0 0 0 0), fire := false, keep := .ident } := by
      rw [anchorOf, if_pos (beq_iff_eq.mpr full)]
      rfl
    have on : ∀ u < 32, inMask act u ≠ false := fun u hu => by rw [full, inMask_full hu]; exact Bool.noConfusion
    have tag := anchorOf_plain_ok r [d] act
    rw [anchor] at tag ⊢
    constructor
    case tag => exact tag
    case slot => exact fun t ht _ _ => by rw [ident_at ht]; rfl
    case own =>
      intro t ht u hu _ _ _ _ same
      rw [ident_at ht, ident_at hu] at same
      exact ofNat_inj ht hu (Option.some.inj same)
    case keeps => exact fun u hu off => absurd off (on u hu)
    case free => exact fun u hu off => absurd off (on u hu)
  · have anchor : anchorOf r [d] act [] = partAnchor r [d] act := by
      rw [anchorOf, if_neg (by simpa using full)]
    rw [anchor]
    exact partAnchor_apart act res hv hd

/-- Results with no mapped source: each acting thread receives its own, and the others keep their elements (R52, R130), where a table is free. -/
theorem plainWrite_given {r : Regs} {d : Reg} (act : Mask) (res : Nat → Option DWord) (hv : d.isVec) (hd : r.has d) (fit : r.Fit)
    (room : 1 ≤ r.freeTables) :
    ∃ l, plainWrite [d] act res r = .ok l ∧ RegGiven r l.regs d act (fun u => (res u).map (·.setWidth 32)) := by
  obtain ⟨l, hl⟩ := writeAt_ok [d] act (anchorOf r [d] act []) res room
  exact ⟨l, hl, writeAt_given hl hv hd fit (anchorOf_plain_apart act res hv hd)⟩

end Sys2Proof.Machine
end

section
/-! SUPPORT. Instructions that give registers elements (R166): several writes one after another, what a ready instruction sees of its operands, and what it
leaves. -/
namespace Sys2Proof.Machine
set_option Elab.async false

/-! ### Several registers -/

/-- The threads of a mask receive elements of several registers, the others keep theirs, and all else is as it was but tables of these registers. -/
structure RegsGiven (r q : Regs) (on : Mask) (outs : List (Reg × (Nat → Option Word))) : Prop where
  active : ∀ o ∈ outs, ∀ u < 32, inMask on u = true → q.elem o.1 u = o.2 u
  idle : ∀ o ∈ outs, ∀ u < 32, inMask on u = false → q.elem o.1 u = r.elem o.1 u
  others : ∀ e, e ∉ outs.map Prod.fst → q.vreg e = r.vreg e
  rest : q.sameRest r
  tables : ∀ k, r.usersOf (outs.map Prod.fst) k < r.refs k → (q.mt.getD k .free).ents = (r.mt.getD k .free).ents

theorem RegGiven.toRegs {r q : Regs} {d : Reg} {on : Mask} {out : Nat → Option Word} (h : RegGiven r q d on out) : RegsGiven r q on [(d, out)] where
  active := by simpa using h.active
  idle := by simpa using h.idle
  others e he := h.others e (by simpa using he)
  rest := h.rest
  tables k hk := h.ents k (.inr hk)

theorem TagWrite.fit {r q : Regs} {d : Reg} (h : TagWrite r q d) (fit : r.Fit) : q.Fit := ⟨h.length.trans fit.tables, h.slots fit.slots⟩

/-- A write that gives a register elements wherever a table is free. -/
def Puts (on : Mask) (f : Regs → Except Mask LaneRes) (o : Reg × (Nat → Option Word)) : Prop :=
  ∀ r : Regs, r.Fit → r.has o.1 → 1 ≤ r.freeTables → ∃ l, f r = .ok l ∧ RegGiven r l.regs o.1 on o.2

/-- Writes of different registers whose tables are counted give each its elements, where a table is free for each. -/
theorem seqWrites_given {on : Mask} {fs : List (Regs → Except Mask LaneRes)} {outs : List (Reg × (Nat → Option Word))} (h : List.Forall₂ (Puts on) fs outs)
    {all : List Reg} (hn : all.Nodup) {r : Regs} (fit : r.Fit) (sub : ∀ o ∈ outs, o.1 ∈ all) (has : ∀ o ∈ outs, r.has o.1)
    (distinct : (outs.map Prod.fst).Nodup) (room : outs.length ≤ r.freeTables) (counted : r.counted all = true) :
    ∃ l, seqWrites fs r = .ok l ∧ RegsGiven r l.regs on outs ∧ ∀ e ∈ all, e ∉ outs.map Prod.fst → ∀ u, l.regs.elem e u = r.elem e u := by
  induction h generalizing r with
  | nil =>
    refine ⟨{ regs := r }, rfl, ?_, fun _ _ _ _ => rfl⟩
    constructor <;> simp [Regs.sameRest]
  | @cons f o fs outs put _ ih =>
    obtain ⟨out_mem, rest_mem⟩ := List.forall_mem_cons.mp sub
    obtain ⟨out_has, rest_has⟩ := List.forall_mem_cons.mp has
    obtain ⟨fresh, distinct⟩ := List.nodup_cons.mp distinct
    rw [List.length_cons] at room
    obtain ⟨a, ha, first⟩ := put r fit out_has (by omega)
    have left := first.freeTables
    obtain ⟨b, hb, given, kept⟩ := ih (first.toTagWrite.fit fit) rest_mem (fun p hp => (first.has p.1).mpr (rest_has p hp)) distinct (by omega)
      (first.toTagWrite.counted hn out_mem counted)
    have stays : ∀ e ∈ all, e ≠ o.1 → ∀ u, a.regs.elem e u = r.elem e u := fun e he ne => first.toTagWrite.elem_counted hn out_mem counted he ne
    have apart : ∀ p ∈ outs, p.1 ≠ o.1 := fun p hp same => fresh (same ▸ List.mem_map_of_mem hp)
    refine ⟨_, by rw [seqWrites, ha]; simp only [hb]; rfl, ?_, fun e he out u => ?_⟩
    · constructor
      case active =>
        refine List.forall_mem_cons.mpr ⟨fun u hu hon => ?_, given.active⟩
        rw [kept o.1 out_mem fresh, first.active u hu hon]
      case idle =>
        refine List.forall_mem_cons.mpr ⟨fun u hu off => ?_, fun p hp u hu off => ?_⟩
        · rw [kept o.1 out_mem fresh, first.idle u hu off]
        · rw [given.idle p hp u hu off, stays p.1 (rest_mem p hp) (apart p hp)]
      case others =>
        intro e he
        obtain ⟨ne, out⟩ := not_or.mp (List.mem_cons.not.mp he)
        rw [given.others e out, first.others e ne]
      case rest => exact given.rest.trans first.rest
      case tables =>
        intro k hk
        rw [List.map_cons, r.usersOf_erase List.mem_cons_self, List.erase_cons_head] at hk
        have users := first.toTagWrite.users_rest (ds := o.1 :: outs.map Prod.fst) (List.nodup_cons.mpr ⟨fresh, distinct⟩) k
        rw [List.erase_cons_head] at users
        have inFile : k < 16 := by
          by_contra beyond
          have none_ : r.refs k = 0 := by simp [Regs.refs, List.getD, fit.tables, Nat.le_of_not_lt beyond, MapTable.free]
          omega
        rw [given.tables k (by rw [users, first.refs k inFile]; omega), first.ents k (.inr (by omega))]
    · obtain ⟨ne, out⟩ := not_or.mp (List.mem_cons.not.mp out)
      rw [kept e he out, stays e he ne]

/-! ### What a ready instruction sees -/

theorem Regs.fit_of_shaped {r : Regs} (h : r.shaped = true) : r.Fit := ⟨Regs.shaped_tables h, Regs.shaped_slots h⟩

theorem ready?_fit {s : State} {d : Need} {e : Env} (hr : s.ready? d = some e) (hs : s.shaped = true) : e.regs.Fit := by
  obtain ⟨hx, -⟩ := ready?_spec hr
  rw [(ready?_env hr).2.2]
  exact Regs.fit_of_shaped (shaped_regs hs hx)

/-- The registers a ready instruction writes stand in the file (R75). -/
theorem ready?_has {s : State} {d : Need} {e : Env} (hr : s.ready? d = some e) (hs : s.shaped = true) {g : Reg} (hv : g.isVec) (hg : g ∈ d.writes) :
    e.regs.has g := by
  obtain ⟨hx, -, -, -, -, -, ht, -⟩ := ready?_spec hr
  rw [(ready?_env hr).2.2]
  cases g with
  | v n => exact ready?_writes_has hr hg
  | o n =>
    simp only [State.timely, Bool.and_eq_true, Bool.not_eq_true', illegalHere, Bool.or_eq_false_iff] at ht
    obtain ⟨⟨⟨⟨⟨⟨⟨-, inside⟩, -⟩, -⟩, -⟩, -⟩, -⟩, -⟩ := ht
    have small : n < 8 := by simpa [beyond] using List.any_eq_false.mp inside (.o n) (by simp [hg])
    have shape := shaped_regs hs hx
    simp only [Regs.shaped, Bool.and_eq_true, beq_iff_eq] at shape
    obtain ⟨⟨⟨⟨⟨⟨⟨⟨⟨-, ho⟩, -⟩, -⟩, -⟩, -⟩, -⟩, -⟩, -⟩, -⟩ := shape
    exact lt_of_lt_of_eq small ho.symm
  | s n => cases hv
  | p n => cases hv

theorem freeL_ok (n : Nat) : (freeL n).ok = true := by
  have ident : ∀ t < 32, (tagMap [] 0).at t = LMap.ident.at t := fun t ht => (tagMap_ident [] ht).trans (ident_at ht).symm
  simp only [LEntry.ok, freeL, Bool.false_or, Bool.and_eq_true, Bool.or_eq_true, List.all_eq_true, mem_threads, beq_iff_eq]
  exact ⟨by simp [threads], .inr ident⟩

/-- Every L entry that a ready instruction sees stands for a register (R40). -/
theorem ready?_lent_ok {s : State} {d : Need} {e : Env} (hr : s.ready? d = some e) (hs : s.shaped = true) (n : Fin 4) : (e.lent n).ok = true := by
  obtain ⟨hx, hc, -, -, -, -, -, -, he⟩ := ready?_spec hr
  have warp : e.x.shaped = true := List.all_eq_true.mp (Bool.and_eq_true_iff.mp hs).1 e.x (List.mem_of_getElem? hx)
  have file : ∀ l ∈ e.c.lfile, l.all LEntry.ok = true := by
    have := (Bool.and_eq_true_iff.mp warp).2
    rw [hc, Option.all_some] at this
    exact List.all_eq_true.mp this
  have seen : ∀ l ∈ e.l, l.all LEntry.ok = true := by
    rw [show e.l = e.c.seenL s.freeCtr by rw [he]]
    intro l hl
    have hl := List.mem_of_mem_take hl
    rw [List.mem_append, List.mem_map] at hl
    obtain ⟨v, hv, rfl⟩ | free := hl
    · cases v with
      | none => exact freeL_ok _
      | some v =>
        have := file _ hv
        simp only
        split
        exacts [this, freeL_ok _]
    · rw [List.eq_of_mem_replicate free]
      exact freeL_ok _
  unfold Env.lent
  rw [List.getD_eq_getElem?_getD]
  cases hn : e.l[n.val]? with
  | none => exact freeL_ok 0
  | some l =>
    have ok := seen l (List.mem_of_getElem? hn)
    cases l with
    | none => exact freeL_ok 0
    | some l => exact ok

/-- The tag that a result may take by reference describes the map of a view (R42, R77). -/
theorem view_tag {s : State} {d : Need} {e : Env} (hr : s.ready? d = some e) (hs : s.shaped = true) (a : Opnd) {t : BitVec 16}
    (ht : (e.view a).tag = some t) {i : Nat} (hi : i < 32) : (tagMap e.regs.mt t).at i = (e.view a).map.at i := by
  cases a with
  | l n =>
    have ok := ready?_lent_ok hr hs n
    simp only [LEntry.ok, Bool.or_eq_true, Bool.and_eq_true] at ok
    unfold Env.view at ht ⊢
    simp only at ht ⊢
    split at ht
    next scalar =>
      obtain rfl := Option.some.inj ht
      rw [if_pos scalar, tagMap_ident _ hi, ident_at hi]
    next scalar =>
      rw [if_neg scalar]
      obtain scalar' | ⟨-, map⟩ := ok
      · exact absurd scalar' scalar
      · simp only at ht
        split at ht
        · cases ht
        next table =>
          obtain rfl := Option.some.inj ht
          simp only [List.all_eq_true, mem_threads, beq_iff_eq, table, false_or] at map
          rw [← map i hi]
          unfold tagMap
          split
          · exact absurd ‹_› table
          · rfl
          · rfl
  | _ =>
    obtain rfl := Option.some.inj ht
    rfl

/-- A view has a slot for each thread. -/
theorem view_slots {s : State} {d : Need} {e : Env} (hr : s.ready? d = some e) (hs : s.shaped = true) (a : Opnd) : (e.view a).slots.length = 32 := by
  have reg := (ready?_fit hr hs).slots
  cases a with
  | l n =>
    have ok := ready?_lent_ok hr hs n
    simp only [LEntry.ok, Bool.or_eq_true, Bool.and_eq_true, beq_iff_eq] at ok
    unfold Env.view
    simp only
    split
    next scalar => exact List.length_replicate
    next scalar => exact (ok.resolve_left scalar).1
  | _ => exact reg _

/-! ### What a ready instruction leaves -/

/-- The registers an instruction leaves, as `Gives` says of them. -/
structure Leaving (e : Env) (n : Need) (outs : List (Reg × (Nat → Option Word))) (souts : List (Nat × DWord)) (keeps : Bool) (q : Regs) : Prop where
  elems : ∀ o ∈ outs, ∀ u < 32, keeps = false ∨ inMask e.act u = true → q.elem o.1 u = o.2 u
  idle : keeps = true → ∀ o ∈ outs, KeepsInactive e.regs q e.act o.1
  scalars : ∀ o ∈ souts, q.s[o.1]? = some o.2
  frame : RegsLeave e.regs q (n.writes ++ n.also.map Prod.fst)
  sb : q.sb = e.regs.sb
  draws : q.draws = e.regs.draws

/-- A ready instruction on registers that is done leaves the registers that its body gave. -/
theorem issue_lanes {s : State} {d d' : Need} {e : Env} (hr : s.ready? d = some e) {body : Env → Res} {l : LaneRes} {x : Nat}
    (hb : body e = e.lanes d' (.ok l) x) {ds : List Reg} (frame : RegsLeave e.regs l.regs ds) (sb : l.regs.sb = e.regs.sb)
    (draws : l.regs.draws = e.regs.draws) :
    ∃ t, issue d body s = .next t ∧ (t.regs s.cur).sameData l.regs ∧ (wcrStep e.x.wcr = false → Leaves s t ds d'.draws) := by
  obtain ⟨hx, hc, -⟩ := ready?_spec hr
  have regs := (ready?_env hr).2.2
  rw [regs] at frame sb draws
  have put := Touched.put hr l
  refine ⟨_, issue_done hr hb put hc, ?_, fun hs => put.leaves hx rfl hs frame sb draws rfl rfl⟩
  rw [put.regs]
  exact Warp.completed_sameData ..

/-- An instruction gives registers elements where its body does (R42, R166). -/
theorem Gives.of_lanes {i : Instr} {n d : Need} {pre : Env → Prop} {outs : Env → List (Reg × (Nat → Option Word))} {souts : Env → List (Nat × DWord)}
    {keeps : Bool} (body : Env → Res) (run : ∀ s, exec i s = issue d body s) (same : ∀ s : State, s.ready? d = s.ready? n)
    (result : ∀ (s : State) e, i.wf = true → s.shaped = true → s.ready? n = some e → pre e → (outs e).length ≤ e.regs.freeTables →
      ((outs e).length ≤ 1 ∨ e.regs.counted ((outs e).map Prod.fst) = true) →
      ∃ d' l x, body e = e.lanes d' (.ok l) x ∧ d'.draws = n.draws ∧ Leaving e n (outs e) (souts e) keeps l.regs) :
    Gives i n pre outs souts keeps := by
  intro s e wf shaped ready hpre room counted
  obtain ⟨d', l, x, hb, hd, left⟩ := result s e wf shaped ready hpre room counted
  obtain ⟨t, ht, data, leaves⟩ := issue_lanes ((same s).trans ready) hb left.frame left.sb left.draws
  have vreg := data.vreg
  obtain ⟨-, -, scalars, -, tables⟩ := data
  have elem : ∀ g u, (t.regs s.cur).elem g u = l.regs.elem g u := fun g u => by
    simp only [Regs.elem, Regs.map, vreg, tables]
  refine ⟨t, (run s).trans ht, fun o ho u hu on => ?_, fun hk o ho u hu off => ?_, fun o ho => ?_, fun hs => hd ▸ leaves hs⟩
  · rw [elem, left.elems o ho u hu on]
  · rw [elem, left.idle hk o ho u hu off]
  · rw [scalars, left.scalars o ho]

/-- The threads that an instruction gives elements: the acting ones where it keeps the elements of the others, else all. -/
def Env.given (e : Env) (keeps : Bool) : Mask := if keeps then e.act else fullMask

/-- Registers that are given elements as an instruction says are what it leaves. -/
theorem RegsGiven.leaving {e : Env} {n : Need} {outs : List (Reg × (Nat → Option Word))} {keeps : Bool} {q : Regs}
    (h : RegsGiven e.regs q (e.given keeps) outs) (listed : n.writes ++ n.also.map Prod.fst = outs.map Prod.fst) : Leaving e n outs [] keeps q := by
  obtain ⟨hs, hp, -, hsb, hdraws⟩ := h.rest
  refine ⟨fun o ho u hu on => h.active o ho u hu ?_, fun hk o ho u hu off => h.idle o ho u hu ?_, by simp, ?_, hsb, hdraws⟩
  · cases keeps
    exacts [inMask_full hu, on.resolve_left Bool.noConfusion]
  · rw [hk]
    exact off
  · rw [listed]
    exact ⟨h.others, fun n _ => by rw [hs], fun n _ => by rw [hp], h.tables⟩

/-- An instruction gives one register elements where its body does. -/
theorem Gives.of_one {i : Instr} {n d : Need} {pre : Env → Prop} {g : Reg} {out : Env → Nat → Option Word} {keeps : Bool} (body : Env → Res)
    (run : ∀ s, exec i s = issue d body s) (same : ∀ s : State, s.ready? d = s.ready? n) (writes : n.writes = [g]) (also : n.also = [])
    (vec : i.wf = true → g.isVec)
    (result : ∀ (s : State) e, i.wf = true → s.shaped = true → s.ready? n = some e → pre e → e.regs.Fit → e.regs.has g → 1 ≤ e.regs.freeTables →
      ∃ d' l x, body e = e.lanes d' (.ok l) x ∧ d'.draws = n.draws ∧ RegGiven e.regs l.regs g (e.given keeps) (out e)) :
    Gives i n pre (fun e => [(g, out e)]) (fun _ => []) keeps := by
  refine Gives.of_lanes body run same fun s e wf shaped ready hpre room _ => ?_
  obtain ⟨d', l, x, hb, hd, given⟩ := result s e wf shaped ready hpre (ready?_fit ready shaped)
    (ready?_has ready shaped (vec wf) (by rw [writes]; exact List.mem_singleton_self g)) room
  exact ⟨d', l, x, hb, hd, given.toRegs.leaving (by rw [writes, also]; rfl)⟩

/-- An instruction that rewrites all 32 threads of what it writes (R169, R173). -/
def Need.wholly (n : Need) : Need := { n with whole := true }

theorem ready?_wholly (s : State) (n : Need) : s.ready? n.wholly = s.ready? n := rfl

/-- The middle of three conditions on a word. -/
theorem and_middle {p q r : Bool} (h : (p && q && r) = true) : q = true := by
  simp only [Bool.and_eq_true] at h
  obtain ⟨⟨-, hq⟩, -⟩ := h
  exact hq

theorem isVec_of_isVO {d : Opnd} {wide : Bool} (h : d.isVO wide = true) : (regOf d).isVec := by
  cases d with
  | v n => trivial
  | o n => trivial
  | _ => cases h

end Sys2Proof.Machine
end

section
/-! SUPPORT. Edits of lane maps (R42 to R44, R166 to R168): each thread receives the element that a pattern or an index names. -/
namespace Sys2Proof.Machine
set_option Elab.async false

theorem RegGiven.congr {r q : Regs} {d : Reg} {on : Mask} {out out' : Nat → Option Word} (h : RegGiven r q d on out)
    (same : ∀ u < 32, out u = out' u) : RegGiven r q d on out' :=
  ⟨h.toTagWrite, fun u hu hon => (h.active u hu hon).trans (same u hu), h.idle⟩

/-- Where all threads act, giving each the element of the thread that p names writes the slots whole, with the map that p and the source make (R42). -/
theorem remap_full {e : Env} (full : e.act = fullMask) (n : Need) (d : Opnd) (v : View) (p : Nat → Option Nat) (pt : Option (BitVec 16)) :
    remap e n d v p pt = e.lanes n (wholeWrite (regOf d) v.slots (.ofFn (fun t => (p t).bind v.map.at))
      (pt.bind fun q => v.tag.bind fun t => composeTag t q) e.regs) := by
  unfold remap
  rw [if_pos (beq_iff_eq.mpr full)]
  cases pt
  · rfl
  · cases v.tag <;> rfl

/-- Where some threads do not act, it computes (R43). -/
theorem remap_part {e : Env} (part : e.act ≠ fullMask) (n : Need) (d : Opnd) (v : View) (p : Nat → Option Nat) (pt : Option (BitVec 16)) :
    remap e n d v p pt = e.lanes n ((plainWrite [regOf d] e.act (fun t => ((p t).bind v.elem).map (fun x => x.setWidth 64)) e.regs).map
      (fun l => { l with lanemove := l.lanemove + 1 })) 1 := by
  unfold remap
  rw [if_neg (by simpa using part)]

theorem setWidth_word (x : Option Word) : (x.map (fun x => x.setWidth 64)).map (fun x : DWord => x.setWidth 32) = x := by
  cases x <;> simp

/-- Giving each thread the element of the thread that p names does so for the acting threads (R42, R43), where the tag that the pattern composes to
describes the map it gives (R44). -/
theorem remap_given {e : Env} (n : Need) {d : Opnd} {v : View} {p : Nat → Option Nat} {pt : Option (BitVec 16)} (hv : (regOf d).isVec)
    (hd : e.regs.has (regOf d)) (fit : e.regs.Fit) (room : 1 ≤ e.regs.freeTables) (length : v.slots.length = 32)
    (composed : ∀ q t c, pt = some q → v.tag = some t → composeTag t q = some c → ∀ u < 32, (tagMap e.regs.mt c).at u = (p u).bind v.map.at) :
    ∃ l x, remap e n d v p pt = e.lanes n (.ok l) x ∧ RegGiven e.regs l.regs (regOf d) e.act (fun u => (p u).bind v.elem) := by
  by_cases full : e.act = fullMask
  · obtain ⟨l, hl, given⟩ := wholeWrite_given v.slots (.ofFn (fun t => (p t).bind v.map.at)) (pt.bind fun q => v.tag.bind fun t => composeTag t q)
      hv hd fit.tables room length (by
        intro c hc u hu
        obtain ⟨q, hq, hc⟩ := Option.bind_eq_some_iff.mp hc
        obtain ⟨t, ht, hc⟩ := Option.bind_eq_some_iff.mp hc
        rw [ofFn_at _ hu, composed q t c hq ht hc u hu])
    refine ⟨l, 0, (remap_full full ..).trans (congrArg (e.lanes n) hl), ?_⟩
    rw [full]
    refine given.congr fun u hu => ?_
    rw [ofFn_at _ hu]
    cases p u <;> rfl
  · obtain ⟨l, hl, given⟩ := plainWrite_given e.act (fun t => ((p t).bind v.elem).map (fun x => x.setWidth 64)) hv hd fit room
    exact ⟨{ l with lanemove := l.lanemove + 1 }, 1, (remap_part full ..).trans (by rw [hl]; rfl), given.congr fun u _ => setWidth_word _⟩

/-- A pattern edit gives each acting thread the element of the thread that its pattern names (R42, R43, R167). -/
theorem patEdit_gives {i : Instr} {h : Head} {cls g k : Nat} {d a : Opnd} (run : ∀ s, exec i s = patEdit h cls g k d a s)
    (wf : i.wf = true → Edit cls g k ∧ d.isVO false = true) :
    Gives i (laneNeed h 2 [regOf d] [(.n32, a)]) (fun e => ∀ q, (e.view a).tag = some q → tagOk q = true)
      (fun e => [(regOf d, fun t => (e.view a).elem (patAt cls g k t))]) (fun _ => []) true := by
  have issues : ∀ s, exec i s = issue (laneNeed h 2 [regOf d] [(.n32, a)])
      (fun e => remap e (laneNeed h 2 [regOf d] [(.n32, a)]) d (e.view a) (fun t => some (patAt cls g k t)) (some (canonPat cls g k))) s := run
  refine Gives.of_one _ issues (fun _ => rfl) rfl rfl (fun h => isVec_of_isVO (wf h).2) fun s e hwf shaped ready ok fit has room => ?_
  obtain ⟨edit, dst⟩ := wf hwf
  obtain ⟨l, x, hl, given⟩ := remap_given (laneNeed h 2 [regOf d] [(.n32, a)]) (p := fun t => some (patAt cls g k t)) (pt := some (canonPat cls g k))
    (isVec_of_isVO dst) has fit room (view_slots ready shaped a) (by
      rintro q t c ⟨⟩ ht hc u hu
      rw [composeTag_at (ok t ht) ((canonPat_cases edit).imp And.left And.left) hc _ hu, canonPat_patAt edit hu]
      exact view_tag ready shaped a ht (patAt_lt edit.groups edit.inside hu))
  exact ⟨_, l, x, hl, rfl, given⟩

/-! ### VSHUF (R168) -/

theorem setWidth64_lt (x : Word) : (x.setWidth 64).toNat < 2 ^ 32 := by
  rw [BitVec.toNat_setWidth_of_le (by omega)]
  exact x.isLt

/-- An element of a 32-bit operand is a 32-bit number. -/
theorem src_n32_lt {e : Env} {b : Opnd} {t : Nat} {v : DWord} (h : (e.src .n32 b).at t = some v) : v.toNat < 2 ^ 32 := by
  have each : ∀ f : Nat → Option DWord, (∀ u < 32, ∀ x, f u = some x → x.toNat < 2 ^ 32) → (threads.map f).getD t none = some v → v.toNat < 2 ^ 32 := by
    intro f small hf
    by_cases lt : t < 32
    · exact small t lt v (by simpa [threads, List.getD, lt] using hf)
    · simp [threads, List.getD, lt] at hf
  have mapped : ∀ f : Nat → Option Word, (threads.map fun t => (f t).map fun a => a.setWidth 64).getD t none = some v → v.toNat < 2 ^ 32 :=
    fun f => each _ fun u _ x hx => by
      obtain ⟨y, -, rfl⟩ := Option.map_eq_some_iff.mp hx
      exact setWidth64_lt y
  have same : ∀ x : DWord, x.toNat < 2 ^ 32 → (Src.bcast x).at t = some v → v.toNat < 2 ^ 32 :=
    fun x small => each _ fun _ _ y hy => Option.some.inj hy ▸ small
  have numbers : (threads.map fun t => some (BitVec.ofNat 64 t)).getD t none = some v → v.toNat < 2 ^ 32 :=
    each _ fun u hu x hx => by
      obtain rfl := Option.some.inj hx
      rw [BitVec.toNat_ofNat]
      omega
  cases b with
  | v n => exact mapped (e.regs.elem (.v n.val)) h
  | o n => exact mapped (e.regs.elem (.o n.val)) h
  | s n => exact same _ (setWidth64_lt _) h
  | c k => exact same _ (by rw [constVal, if_pos (show Ty.n32.isInt = true from rfl), BitVec.toNat_ofNat]; omega) h
  | vz => exact same 0 (by decide) h
  | vtid => exact numbers h
  | vlane => exact numbers h
  | l n =>
    simp only [Env.src, srcL] at h
    split at h
    · exact same _ (setWidth64_lt _) h
    · refine each (fun u => ((e.lent n).map.at u).map fun (p : Fin 32) => ((e.lent n).slots.getD p.val 0).setWidth 64) (fun u _ x hx => ?_) h
      obtain ⟨p, -, rfl⟩ := Option.map_eq_some_iff.mp hx
      exact setWidth64_lt _

theorem vshuf_gives (h : Head) (d a b : Opnd) : Gives (.vshuf h d a b) (laneNeed h 2 [regOf d] [(.n32, a), (.n32, b)]) (fun _ => True)
    (fun e => [(regOf d, fun t => ((e.src .n32 b).at t).bind (fun v => if v.toNat < 32 then (e.view a).elem v.toNat else none))])
    (fun _ => []) true := by
  have wf_d : (Instr.vshuf h d a b).wf = true → d.isVO false = true := fun wf => by
    have wf : (h.ok && d.isVO false && a.isVOL false && b.mappedOrBroadcast false) = true := wf
    exact and_middle (Bool.and_eq_true_iff.mp wf).1
  have issues : ∀ s, exec (.vshuf h d a b) s = issue (laneNeed h 2 [regOf d] [(.n32, a), (.n32, b)])
      (fun e => remap e (laneNeed h 2 [regOf d] [(.n32, a), (.n32, b)]) d (e.view a)
        (fun t => ((e.src .n32 b).at t).bind (fun v => let i := v.toNat % 2 ^ 32; if i < 32 then some i else none)) none) s := fun _ => rfl
  refine Gives.of_one _ issues (fun _ => rfl) rfl rfl (fun h => isVec_of_isVO (wf_d h)) fun s e wf shaped ready _ fit has room => ?_
  obtain ⟨l, x, hl, given⟩ := remap_given (v := e.view a) (laneNeed h 2 [regOf d] [(.n32, a), (.n32, b)])
    (p := fun t => ((e.src .n32 b).at t).bind (fun v => let i := v.toNat % 2 ^ 32; if i < 32 then some i else none)) (pt := none)
    (isVec_of_isVO (wf_d wf)) has fit room (view_slots ready shaped a) (fun q t c hq => by cases hq)
  refine ⟨_, l, x, hl, rfl, given.congr fun u _ => ?_⟩
  cases index : (e.src .n32 b).at u with
  | none => rfl
  | some v =>
    simp only [Option.bind_some, Nat.mod_eq_of_lt (src_n32_lt index)]
    split <;> rfl

theorem Claims.laneEditResults : Claims.LaneEditResults := by
  intro h d a b g k
  have groups : ∀ {i : Instr} {cls : Nat}, 1 ≤ cls → cls ≤ 4 → i.wf = (h.ok && g.val ≤ 5 && k.val < 2 ^ g.val && d.isVO false && a.isVOL false) →
      i.wf = true → Edit cls g.val k.val ∧ d.isVO false = true := by
    intro i cls pos le eq wf
    rw [eq] at wf
    simp only [Bool.and_eq_true, decide_eq_true_eq] at wf
    obtain ⟨⟨⟨⟨-, hg⟩, hk⟩, hd⟩, -⟩ := wf
    exact ⟨⟨pos, le, hg, hk⟩, hd⟩
  have all : (Instr.vxor h d a k).wf = true → Edit 1 5 k.val ∧ d.isVO false = true := fun wf => by
    have wf : (h.ok && d.isVO false && a.isVOL false) = true := wf
    exact ⟨⟨by omega, by omega, by omega, k.isLt⟩, and_middle wf⟩
  exact ⟨patEdit_gives (fun _ => rfl) all, patEdit_gives (cls := 2) (fun _ => rfl) (groups (by omega) (by omega) rfl),
    patEdit_gives (cls := 4) (fun _ => rfl) (groups (by omega) (by omega) rfl),
    patEdit_gives (cls := 3) (fun _ => rfl) (groups (by omega) (by omega) rfl), vshuf_gives h d a b⟩

end Sys2Proof.Machine
end

section
/-! SUPPORT. Selection, firing and reads of lane maps (R169, R170, R173, R174). -/
namespace Sys2Proof.Machine
set_option Elab.async false

/-! ### Selected threads (R169) -/

/-- The place of a number in an ascending list is the count of those before it. -/
theorem idxOf?_ascending {l : List Nat} (h : l.Pairwise (· < ·)) (t : Nat) :
    l.idxOf? t = if t ∈ l then some (l.filter (fun u => decide (u < t))).length else none := by
  induction h with
  | nil => rfl
  | @cons x l above _ ih =>
    rw [List.idxOf?_cons]
    by_cases same : x = t
    · subst same
      have before : l.filter (fun u => decide (u < x)) = [] := by
        rw [List.filter_eq_nil_iff]
        intro u hu
        have := above u hu
        simp only [decide_eq_true_eq]
        omega
      simp [before]
    · rw [if_neg (by simpa using same), ih]
      by_cases later : t ∈ l
      · simp [later, above t later]
      · simp [later, Ne.symm same]

theorem threads_ascending : threads.Pairwise (· < ·) := List.pairwise_lt_range

/-- The place of a thread among those that a test selects. -/
theorem selThreads_place (act : Mask) (p : Nat → Bool) {t : Nat} (ht : t < 32) : (selThreads act p).idxOf? t =
    if inMask act t && p t then some ((selThreads act p).filter (fun u => decide (u < t))).length else none := by
  unfold selThreads
  rw [idxOf?_ascending (threads_ascending.filter _)]
  simp [ List.mem_filter, mem_threads, ht]

theorem selMap_elem (v : View) (sel : List Nat) {t : Nat} (ht : t < 32) :
    ((selMap v.map sel).at t).map (fun p => v.slots.getD p.val 0) = (sel[t]?).bind v.elem := by
  rw [selMap, ofFn_at _ ht]
  cases sel[t]? <;> rfl

theorem View.elem_isSome (v : View) (t : Nat) : (v.elem t).isSome = (v.map.at t).isSome := Option.isSome_map

/-! ### VCOMPACT and VEXPAND (R170) -/

/-- The register file with VCOMPACT's count in its S register, where it has one. -/
def Regs.setCount (r : Regs) (sc : Option (Fin 64)) (n : DWord) : Regs :=
  match sc with
  | some k => { r with s := r.s.set k.val n }
  | none => r

section
variable (r : Regs) (sc : Option (Fin 64)) (n : DWord)

theorem Regs.setCount_vreg (g : Reg) : (r.setCount sc n).vreg g = r.vreg g := by cases sc <;> cases g <;> rfl

theorem Regs.setCount_elem (g : Reg) (u : Nat) : (r.setCount sc n).elem g u = r.elem g u := by cases sc <;> cases g <;> rfl

theorem Regs.setCount_rest : (r.setCount sc n).p = r.p ∧ (r.setCount sc n).mt = r.mt ∧ (r.setCount sc n).sb = r.sb ∧ (r.setCount sc n).draws = r.draws := by
  cases sc <;> exact ⟨rfl, rfl, rfl, rfl⟩

end

theorem Regs.shaped_scalars {r : Regs} (h : r.shaped = true) : r.s.length = 64 := by
  simp only [Regs.shaped, Bool.and_eq_true, beq_iff_eq] at h
  obtain ⟨⟨⟨⟨⟨⟨⟨-, hs⟩, -⟩, -⟩, -⟩, -⟩, -⟩, -⟩ := h
  exact hs

theorem ready?_scalars {s : State} {d : Need} {e : Env} (hr : s.ready? d = some e) (hs : s.shaped = true) : e.regs.s.length = 64 := by
  obtain ⟨hx, -⟩ := ready?_spec hr
  rw [(ready?_env hr).2.2]
  exact Regs.shaped_scalars (shaped_regs hs hx)

/-- More registers listed, less said. -/
theorem RegsLeave.append {r q : Regs} {ds : List Reg} (h : RegsLeave r q ds) (es : List Reg) : RegsLeave r q (ds ++ es) where
  vregs g hg := h.vregs g fun mem => hg (List.mem_append_left _ mem)
  sregs n hn := h.sregs n fun mem => hn (List.mem_append_left _ mem)
  pregs n hn := h.pregs n fun mem => hn (List.mem_append_left _ mem)
  tables k hk := h.tables k (by
    rw [List.filter_append, List.length_append] at hk
    omega)

/-- Setting an S register after other registers have been written. -/
theorem RegsLeave.setCount {r q : Regs} {ds : List Reg} (h : RegsLeave r q ds) (sc : Option (Fin 64)) (n : DWord) :
    RegsLeave r (q.setCount sc n) (ds ++ sc.toList.map fun k => .s k.val) := by
  obtain ⟨hp, hmt, -⟩ := q.setCount_rest sc n
  have more := h.append (sc.toList.map fun k => .s k.val)
  refine ⟨fun g hg => (q.setCount_vreg sc n g).trans (more.vregs g hg), fun m hm => ?_, fun m hm => hp ▸ more.pregs m hm, fun k hk => hmt ▸ more.tables k hk⟩
  rw [← more.sregs m hm]
  cases sc with
  | none => rfl
  | some k =>
    have ne : k.val ≠ m := fun same => hm (by simp [same])
    exact List.getElem?_set_ne ne

/-- The threads whose elements VCOMPACT moves to the front. -/
def compacted (e : Env) (a : Opnd) (ps : PredSpec) : List Nat := selThreads e.act (fun u => inMask (predSpec e.regs ps) u && ((e.view a).elem u).isSome)

theorem compacted_eq (e : Env) (a : Opnd) (ps : PredSpec) :
    compacted e a ps = selThreads e.act (fun u => inMask (predSpec e.regs ps) u && ((e.view a).map.at u).isSome) := by
  simp only [compacted, View.elem_isSome]

/-- What issue judges of VCOMPACT. -/
def compactNeed (h : Head) (d a : Opnd) (ps : PredSpec) (sc : Option (Fin 64)) : Need :=
  { laneNeed h 2 [regOf d] [(.n32, a)] (predReads ps) with also := match sc with | some n => [(Reg.s n.val, 3)] | none => [] }

/-- VCOMPACT writes its register, then its count. -/
theorem execVcompact_eq (h : Head) (d a : Opnd) (ps : PredSpec) (sc : Option (Fin 64)) (s : State) : execVcompact h d a ps sc s =
    issue (compactNeed h d a ps sc).wholly (fun e => e.lanes (compactNeed h d a ps sc).wholly (seqWrites
      [wholeWrite (regOf d) (e.view a).slots (selMap (e.view a).map (compacted e a ps)) none,
        fun r => .ok { regs := r.setCount sc (BitVec.ofNat 64 (compacted e a ps).length) }] e.regs)) s := by
  simp only [compacted_eq]
  rfl

/-- VCOMPACT (R170): the selected threads' elements stand first, in the order of the threads, and their count in the S register. -/
theorem vcompact_gives (h : Head) (d a : Opnd) (ps : PredSpec) (sc : Option (Fin 64)) : Gives (.vcompact h d a ps sc) (compactNeed h d a ps sc)
    (fun _ => True) (fun e => [(regOf d, fun t => ((compacted e a ps)[t]?).bind (e.view a).elem)])
    (fun e => match sc with | some n => [(n.val, BitVec.ofNat 64 (compacted e a ps).length)] | none => []) false := by
  have issues : ∀ s, exec (.vcompact h d a ps sc) s = _ := execVcompact_eq h d a ps sc
  refine Gives.of_lanes _ issues (ready?_wholly · _) fun s e wf shaped ready _ room _ => ?_
  have vec : (regOf d).isVec := isVec_of_isVO (and_middle (show (h.ok && d.isVO false && a.isVOL false) = true from wf))
  have has := ready?_has ready shaped vec (List.mem_singleton_self _)
  obtain ⟨l, hl, given⟩ := wholeWrite_given (e.view a).slots (selMap (e.view a).map (compacted e a ps)) none vec has (ready?_fit ready shaped).tables room
    (view_slots ready shaped a) (fun _ hc => by cases hc)
  have left : Leaving e (laneNeed h 2 [regOf d] [(.n32, a)] (predReads ps)) _ [] false l.regs := given.toRegs.leaving (keeps := false) rfl
  obtain ⟨-, -, sb, draws⟩ := l.regs.setCount_rest sc (BitVec.ofNat 64 (compacted e a ps).length)
  refine ⟨(compactNeed h d a ps sc).wholly, { l with regs := l.regs.setCount sc (BitVec.ofNat 64 (compacted e a ps).length) }, 0, ?_, rfl, ?_⟩
  · simp only [seqWrites, hl]
    rfl
  constructor
  case elems =>
    rintro o ho u hu -
    obtain rfl := List.mem_singleton.mp ho
    rw [Regs.setCount_elem, left.elems _ (List.mem_singleton_self _) u hu (.inl rfl)]
    exact selMap_elem _ _ hu
  case idle => exact Bool.noConfusion
  case scalars =>
    cases sc with
    | none => simp
    | some k =>
      have inFile : k.val < l.regs.s.length := by
        rw [given.rest.1, ready?_scalars ready shaped]
        exact k.isLt
      intro o ho
      obtain rfl := List.mem_singleton.mp ho
      exact List.getElem?_set_self inFile
  case frame =>
    have frame : RegsLeave e.regs l.regs [regOf d] := left.frame
    have counted := frame.setCount sc (BitVec.ofNat 64 (compacted e a ps).length)
    cases sc
    exacts [counted, counted]
  case sb => exact sb.trans left.sb
  case draws => exact draws.trans left.draws

/-- VEXPAND (R170): the threads that the predicate selects receive the first elements, in their order. -/
theorem vexpand_gives (h : Head) (d a : Opnd) (ps : PredSpec) : Gives (.vexpand h d a ps) (laneNeed h 2 [regOf d] [(.n32, a)] (predReads ps))
    (fun _ => True)
    (fun e => [(regOf d, fun t =>
      if inMask e.act t && inMask (predSpec e.regs ps) t then
        (e.view a).elem ((selThreads e.act (inMask (predSpec e.regs ps))).filter (fun u => decide (u < t))).length
      else none)])
    (fun _ => []) false := by
  have issues : ∀ s, exec (.vexpand h d a ps) s = issue (laneNeed h 2 [regOf d] [(.n32, a)] (predReads ps)).wholly (fun e =>
      e.lanes (laneNeed h 2 [regOf d] [(.n32, a)] (predReads ps)).wholly (wholeWrite (regOf d) (e.view a).slots
        (.ofFn (fun t => ((selThreads e.act (inMask (predSpec e.regs ps))).idxOf? t).bind (e.view a).map.at)) none e.regs)) s := fun _ => rfl
  have vec : (Instr.vexpand h d a ps).wf = true → (regOf d).isVec := fun wf =>
    isVec_of_isVO (and_middle (show (h.ok && d.isVO false && a.isVOL false) = true from wf))
  refine Gives.of_one _ issues (ready?_wholly · _) rfl rfl vec fun s e wf shaped ready _ fit has room => ?_
  obtain ⟨l, hl, given⟩ := wholeWrite_given (e.view a).slots
    (.ofFn (fun t => ((selThreads e.act (inMask (predSpec e.regs ps))).idxOf? t).bind (e.view a).map.at)) none (vec wf) has fit.tables room
    (view_slots ready shaped a) (fun _ hc => by cases hc)
  refine ⟨_, l, 0, congrArg (e.lanes _) hl, rfl, given.congr fun u hu => ?_⟩
  rw [ofFn_at _ hu, selThreads_place _ _ hu]
  split <;> rfl

/-! ### VFIRE and VMAPRD (R173, R174) -/

/-- Firing into a register leaves each thread its element, in its own slot (R45, R173). -/
theorem fireInto_given {r : Regs} {d : Reg} (v : View) (hv : d.isVec) (hd : r.has d) (fit : r.Fit) (room : 1 ≤ r.freeTables) :
    ∃ l, fireInto d v.slots v.map r = .ok l ∧ RegGiven r l.regs d fullMask v.elem := by
  obtain ⟨l, hl, given⟩ := wholeWrite_given (fireSlots v.slots v.map) (fireMap v.map) none hv hd fit.tables room (by simp [fireSlots, threads])
    (fun _ hc => by cases hc)
  refine ⟨{ l with extra := l.extra + fireCost v.map, lanemove := l.lanemove + (if fireMoves v.map = 0 then 0 else 1), autofire := 0 },
    by rw [fireInto, hl]; rfl, given.congr fun u hu => ?_⟩
  rw [fireMap_at _ hu, View.elem]
  cases entry : v.map.at u with
  | none => rfl
  | some p =>
    have slot : (Fin.ofNat 32 u).val = u := Nat.mod_eq_of_lt hu
    simp only [Option.map_some, slot, fireSlots_get _ _ hu entry]

theorem vfire_gives (h : Head) (d a : Opnd) :
    Gives (.vfire h d a) (laneNeed h 6 [regOf d] [(.n32, a)]) (fun _ => True) (fun e => [(regOf d, (e.view a).elem)]) (fun _ => []) false := by
  have issues : ∀ s, exec (.vfire h d a) s = issue (laneNeed h 6 [regOf d] [(.n32, a)]).wholly (fun e =>
      e.lanes (laneNeed h 6 [regOf d] [(.n32, a)]).wholly (fireInto (regOf d) (e.view a).slots (e.view a).map e.regs)) s := fun _ => rfl
  have vec : (Instr.vfire h d a).wf = true → (regOf d).isVec := fun wf =>
    isVec_of_isVO (and_middle (show (h.ok && d.isVO false && a.isVO false) = true from wf))
  refine Gives.of_one _ issues (ready?_wholly · _) rfl rfl vec fun s e wf shaped ready _ fit has room => ?_
  obtain ⟨l, hl, given⟩ := fireInto_given (e.view a) (vec wf) has fit room
  exact ⟨_, l, 0, congrArg (e.lanes _) hl, rfl, given⟩

/-- VMAPRD into a V or O register (R174): each acting thread receives its map entry, 32 for VOID. -/
theorem vmaprd_gives (h : Head) (d a : Opnd) : Gives (.vmaprd h false d a) (laneNeed h 2 [regOf d] [(.n32, a)]) (fun _ => True)
    (fun e => [(regOf d, fun t => some (match (e.view a).map.at t with | some p => BitVec.ofNat 32 p.val | none => 32))]) (fun _ => []) true := by
  have issues : ∀ s, exec (.vmaprd h false d a) s = issue (laneNeed h 2 [regOf d] [(.n32, a)]) (fun e =>
      e.lanes (laneNeed h 2 [regOf d] [(.n32, a)]) (plainWrite [regOf d] e.act (fun t => some (match (e.view a).map.at t with
        | some p => BitVec.ofNat 64 p.val
        | none => 32)) e.regs)) s := fun _ => rfl
  have vec : (Instr.vmaprd h false d a).wf = true → (regOf d).isVec := fun wf => by
    have operands := (Bool.and_eq_true_iff.mp (show (h.ok && (d.isVO false && a.isVOL false)) = true from wf)).2
    exact isVec_of_isVO (Bool.and_eq_true_iff.mp operands).1
  refine Gives.of_one _ issues (fun _ => rfl) rfl rfl vec fun s e wf shaped ready _ fit has room => ?_
  obtain ⟨l, hl, given⟩ := plainWrite_given e.act (fun t => some (match (e.view a).map.at t with | some p => BitVec.ofNat 64 p.val | none => 32))
    (vec wf) has fit room
  refine ⟨_, l, 0, congrArg (e.lanes _) hl, rfl, given.congr fun u _ => ?_⟩
  cases (e.view a).map.at u with
  | none => rfl
  | some p => exact congrArg some (by simp)

/-- A ready instruction that puts a value into an S register does so and leaves all else. -/
theorem putS_writes {i : Instr} {n : Need} {k : Fin 64} {pre : Env → Prop} {v : Env → DWord} {body : Env → Res} (run : ∀ s, exec i s = issue n body s)
    (result : ∀ (s : State) e, i.wf = true → s.ready? n = some e → pre e → body e = e.putS n k.val (v e)) : WritesS i n (.s k) pre v := by
  intro s e wf shaped ready hpre
  obtain ⟨t, ht, data, leaves⟩ := issue_lanes ready (result s e wf ready hpre) (ds := [.s k.val])
    (RegsLeave.setCount (.refl e.regs []) (some k) (v e)) rfl rfl
  refine ⟨t, (run s).trans ht, ?_, leaves⟩
  have inFile : k.val < e.regs.s.length := by
    rw [ready?_scalars ready shaped]
    exact k.isLt
  obtain ⟨-, -, scalars, -, -⟩ := data
  rw [scalars]
  simp [sNumOf, List.getD, inFile]

/-- VMAPRD into an S register (R174): the tag. -/
theorem vmaprd_writes (h : Head) (d a : Opnd) : WritesS (.vmaprd h true d a) (laneNeed h 3 [regOf d] [(.n32, a)]) d (fun _ => True)
    (fun e => (e.regs.vreg (regOf a)).tag.setWidth 64) := by
  have wfs : (Instr.vmaprd h true d a).wf = true → d.isS = true ∧ a.isVO false = true := fun wf => by
    have wf : (h.ok && (d.isS && a.isVO false)) = true := wf
    simpa only [Bool.and_eq_true] using (Bool.and_eq_true_iff.mp wf).2
  cases d with
  | s k =>
    have issues : ∀ s, exec (.vmaprd h true (.s k) a) s = issue (laneNeed h 3 [.s k.val] [(.n32, a)])
        (fun e => e.putS (laneNeed h 3 [.s k.val] [(.n32, a)]) k.val ((e.view a).cls.setWidth 64)) s := fun _ => rfl
    refine putS_writes issues fun s e wf _ _ => ?_
    cases a with
    | l n => cases (wfs wf).2
    | _ => rfl
  | _ => exact fun s e wf => by cases (wfs wf).1

end Sys2Proof.Machine
end

section
/-! SUPPORT. VTRN (R172): several registers whose rows are exchanged with their columns, each written in turn. -/
namespace Sys2Proof.Machine
set_option Elab.async false

/-! ### A register written through a map that is its own (R172) -/

/-- The word of a thread written to the slot that a map gives the thread. -/
def ownStep (d : Reg) (m : LMap) (val : Nat → Fin 32 → DWord) (r : Regs) (t : Nat) : Regs :=
  match m.at t with
  | some p => writeSlot r [d] p.val (val t p)
  | none => r

/-- Words written to the slots of a map, then the map itself, are results at an anchor of these slots. -/
theorem writeAt_own_map (r : Regs) (d : Reg) {m : LMap} (hm : m.length = 32) (byRef : Option (BitVec 16)) (val : Nat → Fin 32 → DWord) :
    writeAt r [d] fullMask { slots := m, byRef := byRef, fire := false, keep := m } (fun t => (m.at t).map (val t)) =
      writeMap (threads.foldl (ownStep d m val) r) [d] m byRef := by
  have loop : placedResults r [d] fullMask { slots := m, byRef := byRef, fire := false, keep := m } (fun t => (m.at t).map (val t)) =
      threads.foldl (ownStep d m val) r := by
    refine List.foldl_ext _ _ _ fun q t ht => ?_
    rw [writeStep, if_pos (inMask_full (mem_threads.mp ht)), ownStep]
    cases m.at t <;> rfl
  have map : resultMap fullMask { slots := m, byRef := byRef, fire := false, keep := m } (fun t => (m.at t).map (val t)) = m := by
    refine LMap.ext_at (LMap.ofFn_length _) hm fun t ht => ?_
    rw [resultMap, ofFn_at _ ht, if_pos (inMask_full ht)]
    cases m.at t <;> rfl
  rw [writeAt_eq, loop, map, if_pos (beq_self_eq_true m)]
  cases writeMap (threads.foldl (ownStep d m val) r) [d] m byRef <;> rfl

theorem nodup_filterMap_inj {f : Nat → Option (Fin 32)} (h : (threads.filterMap f).Nodup) {t u : Nat} (ht : t < 32) (hu : u < 32)
    (some_ : (f t).isSome = true) (same : f t = f u) : t = u := by
  by_contra ne
  obtain ⟨p, hp⟩ := Option.isSome_iff_exists.mp some_
  have symm : Std.Symm fun x y => ∀ b, f x = some b → ∀ c, f y = some c → b ≠ c := ⟨fun _ _ apart b hb c hc => (apart c hc b hb).symm⟩
  exact (List.pairwise_filterMap.mp h).forall (mem_threads.mpr ht) (mem_threads.mpr hu) ne p hp p (same ▸ hp) rfl

/-- A register written through a map whose slots are distinct gives each thread of the map its word. -/
theorem writeOwnMap_given {r : Regs} {d : Reg} {m : LMap} (hm : m.length = 32) (byRef : Option (BitVec 16)) (val : Nat → Fin 32 → DWord) (hv : d.isVec)
    (hd : r.has d) (fit : r.Fit) (room : 1 ≤ r.freeTables) (distinct : (threads.filterMap m.at).Nodup)
    (tag : ∀ t, byRef = some t → ∀ i < 32, (tagMap r.mt t).at i = m.at i) :
    ∃ l, writeMap (threads.foldl (ownStep d m val) r) [d] m byRef = .ok l ∧
      RegGiven r l.regs d fullMask (fun u => (m.at u).map fun p => (val u p).setWidth 32) := by
  have apart : Anchor.Apart { slots := m, byRef := byRef, fire := false, keep := m } r d fullMask (fun t => (m.at t).map (val t)) := by
    have on : ∀ u < 32, inMask fullMask u ≠ false := fun u hu => by rw [inMask_full hu]; exact Bool.noConfusion
    constructor
    case tag => exact tag
    case slot => exact fun t _ _ some_ => by simpa using some_
    case own => exact fun t ht u hu some_ _ _ _ same => nodup_filterMap_inj distinct ht hu (by simpa using some_) same
    case keeps => exact fun u hu off => absurd off (on u hu)
    case free => exact fun u hu off => absurd off (on u hu)
  obtain ⟨l, hl⟩ := writeAt_ok [d] fullMask { slots := m, byRef := byRef, fire := false, keep := m } (fun t => (m.at t).map (val t)) room
  have given := writeAt_given hl hv hd fit apart
  rw [writeAt_own_map r d hm] at hl
  exact ⟨l, hl, given.congr fun u _ => by rw [Option.map_map]; rfl⟩

/-! ### Rows and columns (R172) -/

theorem vRun_getD {α : Type} (x : Opnd) (n : Nat) (f : Reg → α) (z : α) {j : Nat} (hj : j < n) : ((vRun x n).map f).getD j z = f (.v (x.vnum + j)) := by
  simp [vRun, List.getD, hj]

theorem vRun_zipIdx (x : Opnd) (n : Nat) : (vRun x n).zipIdx = (List.range n).map fun i => (Reg.v (x.vnum + i), i) := by
  refine List.ext_getElem (by simp [vRun]) fun i _ _ => ?_
  simp [vRun]

/-- The map that a register of a transposition receives where its rows are local to lanes. -/
def trnMap (r : Regs) (a : Opnd) (n i : Nat) : LMap := .ofFn fun t => (r.map (.v (a.vnum + t % n))).at (t - t % n + i)

/-- The element that thread t of register i of a transposition receives. -/
def trnElem (r : Regs) (a : Opnd) (n i t : Nat) : Option Word := r.elem (.v (a.vnum + t % n)) (t - t % n + i)

/-- Where each source register is rotated by its number, each destination register is too. -/
theorem trnMap_skew {r : Regs} {a : Opnd} {g : Nat} (hg : g ≤ 3) (skew : ∀ j < 2 ^ g, (r.vreg (.v (a.vnum + j))).tag = canonPat 2 g j) {i : Nat}
    (hi : i < 2 ^ g) (mt : List MapTable) {t : Nat} (ht : t < 32) : (tagMap mt (canonPat 2 g i)).at t = (trnMap r a (2 ^ g) i).at t := by
  have col : t % 2 ^ g < 2 ^ g := Nat.mod_lt _ (Nat.two_pow_pos g)
  have base : t - t % 2 ^ g = 2 ^ g * (t / 2 ^ g) := by have := Nat.div_add_mod t (2 ^ g); omega
  have row : 2 ^ g * (t / 2 ^ g) + i < 32 := by interval_cases g <;> omega
  rw [trnMap, ofFn_at _ ht, Regs.map, skew _ col, base, canonPat_at ⟨by omega, by omega, by omega, col⟩ r.mt row,
    canonPat_at ⟨by omega, by omega, by omega, hi⟩ mt ht, patAt_group _ col hi]
  conv_lhs => rw [← Nat.div_add_mod t (2 ^ g), patAt_group _ hi col]
  rw [patLow, patLow, Nat.add_comm i]

/-- The tags of VTRN's sources are rotations by their numbers. -/
def trnSkew (e : Env) (a : Opnd) (g : Nat) : Bool := ((vRun a (2 ^ g)).map fun x => (e.regs.vreg x).tag).zipIdx.all (fun (t, j) => t == canonPat 2 g j)

/-- The word that thread t of a transposition finds in a slot of its column. -/
def trnWord (e : Env) (a : Opnd) (g t : Nat) (p : Fin 32) : DWord := ((e.regs.vreg (.v (a.vnum + t % 2 ^ g))).slots.getD p.val 0).setWidth 64

/-- VTRN with rows local to lanes (R172): each register is written through the map that its columns make, by reference where they are rotations. -/
def trnWrite (e : Env) (d a : Opnd) (g i : Nat) (r : Regs) : Except Mask LaneRes :=
  writeMap (threads.foldl (ownStep (.v (d.vnum + i)) (trnMap e.regs a (2 ^ g) i) (trnWord e a g)) r) [.v (d.vnum + i)] (trnMap e.regs a (2 ^ g) i)
    (if trnSkew e a g then some (canonPat 2 g i) else none)

theorem trnWrite_puts {e : Env} {d a : Opnd} {g i : Nat} (hg : g ≤ 3) (hi : i < 2 ^ g)
    (distinct : (threads.filterMap fun t => (e.regs.map (.v (a.vnum + t % 2 ^ g))).at (t - t % 2 ^ g + i)).Nodup) :
    Puts fullMask (trnWrite e d a g i) (.v (d.vnum + i), trnElem e.regs a (2 ^ g) i) := by
  intro r fit has room
  have length : (trnMap e.regs a (2 ^ g) i).length = 32 := LMap.ofFn_length _
  have entry : ∀ t < 32, (trnMap e.regs a (2 ^ g) i).at t = (e.regs.map (.v (a.vnum + t % 2 ^ g))).at (t - t % 2 ^ g + i) := fun t ht => ofFn_at _ ht
  have own : (threads.filterMap (trnMap e.regs a (2 ^ g) i).at).Nodup := by
    rw [List.filterMap_congr fun t ht => entry t (mem_threads.mp ht)]
    exact distinct
  obtain ⟨l, hl, given⟩ := writeOwnMap_given length
    (if trnSkew e a g then some (canonPat 2 g i) else none) (trnWord e a g) (d := .v (d.vnum + i)) trivial has fit room own (by
      intro t ht u hu
      split at ht
      next skew =>
        obtain rfl := Option.some.inj ht
        refine trnMap_skew hg (fun j hj => ?_) hi r.mt hu
        have tags := List.all_eq_true.mp skew ((e.regs.vreg (.v (a.vnum + j))).tag, j) (List.mem_zipIdx_iff_getElem?.mpr (by simp [vRun, hj]))
        exact eq_of_beq tags
      next => cases ht)
  refine ⟨l, hl, given.congr fun u hu => ?_⟩
  rw [entry u hu]
  show _ = ((e.regs.map (.v (a.vnum + u % 2 ^ g))).at (u - u % 2 ^ g + i)).map _
  cases (e.regs.map (.v (a.vnum + u % 2 ^ g))).at (u - u % 2 ^ g + i) <;> simp [trnWord]

/-- VTRN otherwise (R172): each register is computed from the elements of its columns. -/
def trnPlain (e : Env) (d a : Opnd) (g i : Nat) : Regs → Except Mask LaneRes :=
  plainWrite [.v (d.vnum + i)] e.act fun t => (trnElem e.regs a (2 ^ g) i t).map fun x => x.setWidth 64

theorem trnPlain_puts (e : Env) (d a : Opnd) (g i : Nat) : Puts e.act (trnPlain e d a g i) (.v (d.vnum + i), trnElem e.regs a (2 ^ g) i) := by
  intro r fit has room
  obtain ⟨l, hl, given⟩ := plainWrite_given e.act (fun t => (trnElem e.regs a (2 ^ g) i t).map fun x => x.setWidth 64) (d := .v (d.vnum + i)) trivial has
    fit room
  exact ⟨l, hl, given.congr fun u _ => setWidth_word _⟩

/-- What issue judges of VTRN. -/
def trnNeed (h : Head) (g : Nat) (d a : Opnd) : Need := { head := h, cls := some 0, reads := vRun a (2 ^ g), writes := vRun d (2 ^ g), lat := some 2 }

/-- VTRN's rows are local to lanes: all threads act and the slots of each lane are distinct over the registers. -/
def trnLocal (e : Env) (a : Opnd) (g : Nat) : Bool := e.act == fullMask && laneLocal ((vRun a (2 ^ g)).map e.regs.map) (2 ^ g)

/-- VTRN writes its registers one after another. -/
def trnBody (h : Head) (g : Nat) (d a : Opnd) (e : Env) : Res :=
  if trnLocal e a g then e.lanes (trnNeed h g d a) (seqWrites ((List.range (2 ^ g)).map (trnWrite e d a g)) e.regs)
  else e.lanes { trnNeed h g d a with lat := some 6 } ((seqWrites ((List.range (2 ^ g)).map (trnPlain e d a g)) e.regs).map
    (fun l => { l with lanemove := l.lanemove + 2 ^ g })) (2 ^ g)

theorem execVtrn_eq (h : Head) (g : Fin 8) (d a : Opnd) (s : State) : execVtrn h g d a s = issue (trnNeed h g.val d a) (trnBody h g.val d a) s := by
  unfold execVtrn trnNeed
  dsimp only
  congr 1
  funext e
  have col : ∀ t, t % 2 ^ g.val < 2 ^ g.val := fun t => Nat.mod_lt _ (Nat.two_pow_pos _)
  have maps : ∀ t, ((vRun a (2 ^ g.val)).map e.regs.map).getD (t % 2 ^ g.val) .void = e.regs.map (.v (a.vnum + t % 2 ^ g.val)) :=
    fun t => vRun_getD a _ _ _ (col t)
  have slots : ∀ t, ((vRun a (2 ^ g.val)).map fun x => (e.regs.vreg x).slots).getD (t % 2 ^ g.val) [] = (e.regs.vreg (.v (a.vnum + t % 2 ^ g.val))).slots :=
    fun t => vRun_getD a _ _ _ (col t)
  simp only [vRun_zipIdx d, List.map_map, maps, slots]
  rfl

/-- The slots of each lane are distinct over the registers of VTRN where its rows are local to lanes. -/
theorem trnLocal_spec {e : Env} {a : Opnd} {g : Nat} (h : trnLocal e a g = true) : e.act = fullMask ∧
    ∀ u < 32, ((List.range (2 ^ g)).filterMap (fun j => (e.regs.map (.v (a.vnum + j))).at u)).Nodup := by
  obtain ⟨full, lanes⟩ := Bool.and_eq_true_iff.mp h
  refine ⟨eq_of_beq full, fun u hu => ?_⟩
  have lane := List.all_eq_true.mp lanes u (mem_threads.mpr hu)
  simp only [Bool.and_eq_true, decide_eq_true_eq, vRun, List.filterMap_map] at lane
  exact lane.1

/-- The registers that VTRN gives elements. -/
def trnOuts (e : Env) (d a : Opnd) (g : Nat) : List (Reg × (Nat → Option Word)) :=
  (List.range (2 ^ g)).map fun i => (.v (d.vnum + i), trnElem e.regs a (2 ^ g) i)

theorem trnOuts_regs (e : Env) (d a : Opnd) (g : Nat) : (trnOuts e d a g).map Prod.fst = vRun d (2 ^ g) := by
  rw [trnOuts, List.map_map]
  rfl

theorem vRun_nodup (x : Opnd) (n : Nat) : (vRun x n).Nodup :=
  List.nodup_range.map fun i j same => by
    injection same with same
    omega

/-- Writes that each give a register of VTRN its elements leave what VTRN says. -/
theorem trn_leaves {s : State} {e : Env} {h : Head} {d a : Opnd} {g : Nat} (shaped : s.shaped = true) (ready : s.ready? (trnNeed h g d a) = some e)
    (room : (trnOuts e d a g).length ≤ e.regs.freeTables) (counted : e.regs.counted (vRun d (2 ^ g)) = true) {f : Nat → Regs → Except Mask LaneRes}
    (puts : ∀ i < 2 ^ g, Puts e.act (f i) (.v (d.vnum + i), trnElem e.regs a (2 ^ g) i)) :
    ∃ l, seqWrites ((List.range (2 ^ g)).map f) e.regs = .ok l ∧ Leaving e (trnNeed h g d a) (trnOuts e d a g) [] true l.regs := by
  have each : List.Forall₂ (Puts e.act) ((List.range (2 ^ g)).map f) (trnOuts e d a g) := by
    rw [trnOuts, List.forall₂_map_left_iff, List.forall₂_map_right_iff, List.forall₂_same]
    exact fun i hi => puts i (List.mem_range.mp hi)
  have listed : ∀ o ∈ trnOuts e d a g, o.1 ∈ vRun d (2 ^ g) := fun o ho => trnOuts_regs e d a g ▸ List.mem_map_of_mem ho
  have vec : ∀ x ∈ vRun d (2 ^ g), x.isVec := fun x hx => by
    obtain ⟨i, -, rfl⟩ := List.mem_map.mp hx
    trivial
  obtain ⟨l, hl, given, -⟩ := seqWrites_given each (vRun_nodup d (2 ^ g)) (ready?_fit ready shaped) listed
    (fun o ho => ready?_has ready shaped (vec _ (listed o ho)) (listed o ho)) (trnOuts_regs e d a g ▸ vRun_nodup d (2 ^ g)) room counted
  exact ⟨l, hl, given.leaving (keeps := true) (by rw [trnOuts_regs]; exact List.append_nil _)⟩

/-- VTRN (R172): thread t of register i receives the element that thread i of t's group held of the register that t's place in the group names. -/
theorem vtrn_gives (h : Head) (d a : Opnd) (g : Fin 8) : Gives (.vtrn h g d a)
    { head := h, cls := some 0, reads := vRun a (2 ^ g.val), writes := vRun d (2 ^ g.val), lat := some 2 }
    (fun e => e.act ≠ fullMask ∨
      (∃ u < 32, ¬((List.range (2 ^ g.val)).filterMap (fun j => (e.regs.map (.v (a.vnum + j))).at u)).Nodup) ∨
      ∀ i < 2 ^ g.val, (threads.filterMap (fun t => (e.regs.map (.v (a.vnum + t % 2 ^ g.val))).at (t - t % 2 ^ g.val + i))).Nodup)
    (fun e => (List.range (2 ^ g.val)).map (fun i =>
      (Reg.v (d.vnum + i), fun t => e.regs.elem (.v (a.vnum + t % 2 ^ g.val)) (t - t % 2 ^ g.val + i))))
    (fun _ => []) true := by
  have issues : ∀ s, exec (.vtrn h g d a) s = issue (trnNeed h g.val d a) (trnBody h g.val d a) s := execVtrn_eq h g d a
  refine Gives.of_lanes _ issues (fun _ => rfl) fun s e wf shaped ready apart room counted => ?_
  obtain ⟨pos, le⟩ : 1 ≤ g.val ∧ g.val ≤ 3 := by
    have wf : (h.ok && 1 ≤ g.val && g.val ≤ 3 && vSpan d (2 ^ g.val - 1) && vSpan a (2 ^ g.val - 1) &&
      (d == a || d.vnum + 2 ^ g.val ≤ a.vnum || a.vnum + 2 ^ g.val ≤ d.vnum)) = true := wf
    simp only [Bool.and_eq_true, decide_eq_true_eq] at wf
    obtain ⟨⟨⟨⟨⟨-, pos⟩, le⟩, -⟩, -⟩, -⟩ := wf
    exact ⟨pos, le⟩
  have several : ¬(trnOuts e d a g.val).length ≤ 1 := by
    have two : 2 ^ 1 ≤ 2 ^ g.val := Nat.pow_le_pow_right (by omega) pos
    rw [trnOuts, List.length_map, List.length_range]
    omega
  have counted : e.regs.counted (vRun d (2 ^ g.val)) = true := trnOuts_regs e d a g.val ▸ counted.resolve_left several
  cases rows : trnLocal e a g.val with
  | true =>
    obtain ⟨full, lanes⟩ := trnLocal_spec rows
    have distinct := (apart.resolve_left (absurd full)).resolve_left fun ⟨u, hu, repeats⟩ => repeats (lanes u hu)
    obtain ⟨l, hl, left⟩ := trn_leaves shaped ready room counted (f := trnWrite e d a g.val) fun i hi => full ▸ trnWrite_puts le hi (distinct i hi)
    exact ⟨trnNeed h g.val d a, l, 0, by rw [trnBody, rows, hl]; rfl, rfl, left⟩
  | false =>
    obtain ⟨l, hl, left⟩ := trn_leaves shaped ready room counted (f := trnPlain e d a g.val) fun i _ => trnPlain_puts e d a g.val i
    exact ⟨{ trnNeed h g.val d a with lat := some 6 }, { l with lanemove := l.lanemove + 2 ^ g.val }, 2 ^ g.val, by rw [trnBody, rows, hl]; rfl, rfl, left⟩

theorem Claims.laneMoveResults : Claims.LaneMoveResults := fun h d a g ps sc =>
  ⟨vtrn_gives h d a g, vcompact_gives h d a ps sc, vexpand_gives h d a ps, vfire_gives h d a, vmaprd_gives h d a, vmaprd_writes h d a⟩

end Sys2Proof.Machine

open Sys2Proof.Machine in
/-- Settles O9: a register written through the lane maps takes at most one free table and no table that a counted tag names, so several written one after
another keep each other's elements. -/
theorem laneResults : Obligations.LaneResults := by
  unfold Obligations.LaneResults
  exact ⟨Claims.laneEditResults, Claims.laneMoveResults⟩
end

section
/-! SUPPORT. Words as fields: what each format of R68 gives back where it is read, and that each field's code is that of one value (R66 to R74, R92, R101). -/
namespace Sys2Proof.Laws
set_option Elab.async false

/-! ### Fields laid one above another -/

/-- The bits that fields fill. -/
@[simp] def widthOf : List (Nat × Nat) → Nat
  | [] => 0
  | (n, _) :: r => n + widthOf r

theorem testBit_pack_cons (m v : Nat) (r : List (Nat × Nat)) (i : Nat) :
    (pack ((m, v) :: r)).testBit i = if i < m then v.testBit i else (pack r).testBit (i - m) := by
  rw [pack, Nat.add_comm, Nat.testBit_two_pow_mul_add _ (Nat.mod_lt _ (Nat.two_pow_pos m))]
  split
  next inside => simp [inside]
  next => rfl

theorem testBit_fld (w lo n i : Nat) : (fld w lo n).testBit i = (decide (i < n) && w.testBit (lo + i)) := by
  simp [fld, Nat.testBit_mod_two_pow, Nat.testBit_div_two_pow, Nat.add_comm]

/-- A read inside the lowest field reads that field's value. -/
theorem fld_pack_within {m lo n : Nat} (v : Nat) (r : List (Nat × Nat)) (h : lo + n ≤ m) : fld (pack ((m, v) :: r)) lo n = fld v lo n := by
  apply Nat.eq_of_testBit_eq
  intro i
  rw [testBit_fld, testBit_fld, testBit_pack_cons]
  by_cases hi : i < n
  · rw [if_pos (by omega)]
  · simp [hi]

@[simp] theorem fld_pack_low (n v : Nat) (r : List (Nat × Nat)) : fld (pack ((n, v) :: r)) 0 n = v % 2 ^ n := by
  rw [fld_pack_within v r (by omega)]
  simp [fld]

/-- A read above the lowest field reads the fields above it. -/
@[simp] theorem fld_pack_tail {m lo n : Nat} (v : Nat) (r : List (Nat × Nat)) (h : m ≤ lo) :
    fld (pack ((m, v) :: r)) lo n = fld (pack r) (lo - m) n := by
  apply Nat.eq_of_testBit_eq
  intro i
  rw [testBit_fld, testBit_fld, testBit_pack_cons, if_neg (by omega), Nat.sub_add_comm h]

theorem widthOf_append (a b : List (Nat × Nat)) : widthOf (a ++ b) = widthOf a + widthOf b := by
  induction a with
  | nil => simp
  | cons f a ih => rw [List.cons_append, widthOf, widthOf, ih, Nat.add_assoc]

theorem testBit_pack_append (a b : List (Nat × Nat)) (i : Nat) :
    (pack (a ++ b)).testBit i = if i < widthOf a then (pack a).testBit i else (pack b).testBit (i - widthOf a) := by
  induction a generalizing i with
  | nil => rfl
  | cons f a ih =>
    obtain ⟨m, v⟩ := f
    rw [List.cons_append, testBit_pack_cons, testBit_pack_cons, ih, widthOf]
    by_cases low : i < m
    · rw [if_pos low, if_pos low, if_pos (by omega)]
    · rw [if_neg low, if_neg low, Nat.sub_add_eq]
      exact ite_congr (by simp; omega) (fun _ => rfl) (fun _ => rfl)

theorem fld_pack_right {a : List (Nat × Nat)} {k : Nat} (b : List (Nat × Nat)) (lo n : Nat) (h : widthOf a = k) :
    fld (pack (a ++ b)) (k + lo) n = fld (pack b) lo n := by
  apply Nat.eq_of_testBit_eq
  intro i
  rw [testBit_fld, testBit_fld, testBit_pack_append, if_neg (by omega), h]
  congr 2
  omega

theorem widthOf_eq_sum (fs : List (Nat × Nat)) : widthOf fs = (fs.map Prod.fst).sum := by
  induction fs with
  | nil => rfl
  | cons f r ih => rw [widthOf, ih, List.map_cons, List.sum_cons]

/-- Fields are a number of the bits that they fill. -/
theorem pack_lt (fs : List (Nat × Nat)) : pack fs < 2 ^ widthOf fs := by
  induction fs with
  | nil => decide
  | cons f r ih =>
    obtain ⟨n, v⟩ := f
    rw [pack, widthOf, Nat.pow_add]
    have low := Nat.mod_lt v (Nat.two_pow_pos n)
    calc v % 2 ^ n + 2 ^ n * pack r < 2 ^ n + 2 ^ n * pack r := Nat.add_lt_add_right low _
      _ = 2 ^ n * (pack r + 1) := by rw [Nat.mul_add, Nat.mul_one, Nat.add_comm]
      _ ≤ 2 ^ n * 2 ^ widthOf r := Nat.mul_le_mul_left _ ih

/-- The fields of a list may stand as one. -/
theorem pack_as_one {a : List (Nat × Nat)} {k : Nat} (b : List (Nat × Nat)) (h : widthOf a = k) : pack (a ++ b) = pack ((k, pack a) :: b) := by
  apply Nat.eq_of_testBit_eq
  intro i
  rw [testBit_pack_append, testBit_pack_cons, h]

/-! ### The codes of fields (R70 to R74, R92, R100, R101) -/

@[simp] theorem ty_ofCode_code (x : Ty) : Ty.ofCode (x.code % 16) = x := by cases x <;> rfl
@[simp] theorem rm_ofCode_code (x : Rm) : Rm.ofCode (x.code % 8) = x := by cases x <;> rfl
@[simp] theorem icond_ofCode_code (x : ICond) : ICond.ofCode (x.code % 16) = x := by cases x <;> rfl
@[simp] theorem fcond_ofCode_code (x : FCond) : FCond.ofCode (x.code % 16) = x := by cases x <;> rfl
@[simp] theorem redop_ofCode_code (x : RedOp) : RedOp.ofCode (x.code % 16) = x := by cases x <;> rfl
@[simp] theorem scope_ofCode_code (x : Scope) : Scope.ofCode (x.code % 8) = x := by cases x <;> rfl
@[simp] theorem hint_ofCode_code (x : Hint) : Hint.ofCode (x.code % 4) = x := by cases x <;> rfl
@[simp] theorem sem_ofCode_code (x : Sem) : Sem.ofCode (x.code % 4) = x := by cases x <;> rfl
@[simp] theorem fenceMode_ofCode_code (x : FenceMode) : FenceMode.ofCode (x.code % 4) = x := by cases x <;> rfl
@[simp] theorem bfmt_ofCode_code (x : Bfmt) : Bfmt.ofCode (x.code % 4) = x := by cases x <;> rfl
@[simp] theorem idxTy_ofCode_code (x : IdxTy) : IdxTy.ofCode (x.code % 4) = x := by cases x <;> rfl
@[simp] theorem drainMem_ofCode_code (x : DrainMem) : DrainMem.ofCode (x.code % 8) = x := by cases x <;> rfl
@[simp] theorem brKind_ofCode_code (x : BrKind) : BrKind.ofCode (x.code % 4) = x := by cases x <;> rfl

/-- A rounding mode that stands in the C field (R92). -/
@[simp] theorem rm_ofCode_code_wide (x : Rm) : Rm.ofCode (x.code % 512) = x := by cases x <;> rfl

@[simp] theorem fin_ofNat_mod {n m : Nat} [NeZero n] (x : Fin n) (h : n ≤ m) : Fin.ofNat n (x.val % m) = x := by
  rw [Nat.mod_eq_of_lt (x.isLt.trans_le h)]
  exact Fin.ofNat_val_eq_self x

@[simp] theorem bool_toNat_mod_two (x : Bool) : (x.toNat % 2 == 1) = x := by cases x <;> rfl

@[simp] theorem bitVec_ofNat_mod {n m : Nat} (x : BitVec n) (h : 2 ^ n ≤ m) : BitVec.ofNat n (x.toNat % m) = x := by
  rw [Nat.mod_eq_of_lt (x.isLt.trans_le h), BitVec.ofNat_toNat, BitVec.setWidth_eq]

@[simp] theorem opnd_ofCode_code (x : Opnd) : Opnd.ofCode (x.code % 512) = x := by
  rw [Nat.mod_eq_of_lt (opnd_code_lt x)]
  unfold Opnd.ofCode
  cases x with
  | v n => rw [Opnd.code, if_pos (by omega), Fin.ofNat_val_eq_self]
  | s n => rw [Opnd.code, if_neg (by omega), if_pos (by omega), Nat.add_sub_cancel_left, Fin.ofNat_val_eq_self]
  | c k => rw [Opnd.code, if_neg (by omega), if_neg (by omega), if_pos (by omega), Nat.add_sub_cancel_left, Fin.ofNat_val_eq_self]
  | o n =>
    rw [Opnd.code, if_neg (by omega), if_neg (by omega), if_neg (by omega), if_pos (by omega), Nat.add_sub_cancel_left, Fin.ofNat_val_eq_self]
  | l n =>
    rw [Opnd.code, if_neg (by omega), if_neg (by omega), if_neg (by omega), if_neg (by omega), if_pos (by omega), Nat.add_sub_cancel_left,
      Fin.ofNat_val_eq_self]
  | vz | vtid | vlane => rfl

@[simp] theorem predSpec_ofCode_code (x : PredSpec) : PredSpec.ofCode (x.code % 512) = x := by
  obtain ⟨p, neg⟩ := x
  revert p neg
  decide

@[simp] theorem sNum_code (x : Fin 64) : sNum ((320 + x.val) % 512) = x := by
  rw [Nat.mod_eq_of_lt (by omega), sNum, Nat.add_sub_cancel_left, Fin.ofNat_val_eq_self]

@[simp] theorem optSNum_optS (x : Option (Fin 64)) : optSNum (optS x % 512) = x := by
  cases x with
  | none => rfl
  | some n => rw [optS, optSNum, if_neg (by omega), sNum_code]

/-- The index register of VSORT, where its selector says that there is one (R177). -/
@[simp] theorem optV_some (x : Option (Fin 320)) : (if x.isSome = true then some (Fin.ofNat 320 (optV x % 512)) else none) = x := by
  cases x with
  | none => rfl
  | some n => simp [optV, -Fin.ofNat_eq_cast]

/-- The D of a CTRADD that does not name V0 (R227). -/
theorem optOpnd_optO {x : Option Opnd} (h : x ≠ some (.v 0)) : optOpnd (optO x % 512) = x := by
  cases x with
  | none => rfl
  | some d =>
    have read := opnd_ofCode_code d
    have named : d.code % 512 ≠ 0 := fun zero => h (by rw [← read, zero]; rfl)
    rw [optO, optOpnd, if_neg named, read]

/-- The two parts of the immediate of VROT, VREV and VBCAST (R94). -/
@[simp] theorem pattern_low (k : Fin 32) (g : Fin 8) : Fin.ofNat 32 ((k.val + 32 * g.val) % 32) = k := by
  rw [Nat.add_mul_mod_self_left]
  exact fin_ofNat_mod k le_rfl

@[simp] theorem pattern_high (k : Fin 32) (g : Fin 8) : Fin.ofNat 8 (fld (k.val + 32 * g.val) 5 3) = g := by
  have high : (k.val + 32 * g.val) / 2 ^ 5 = g.val := by omega
  rw [fld, high]
  exact fin_ofNat_mod g le_rfl

/-! ### The formats (R66, R68) -/

/-- The head that a word's top 19 bits spell (R66). -/
theorem headOf_word (h : Head) (op : Nat) {a : List (Nat × Nat)} (ha : widthOf a = 45) : headOf (pack (a ++ headFields h op)) = h := by
  have read := fld_pack_right (headFields h op) (h := ha)
  have pneg : fld (pack (a ++ headFields h op)) 45 1 = h.pneg.toNat % 2 := (read 0 1).trans (by simp [headFields])
  have pred : fld (pack (a ++ headFields h op)) 46 3 = h.pred.val % 8 := (read 1 3).trans (by simp [headFields])
  have sbw : fld (pack (a ++ headFields h op)) 49 3 = h.sbw.val % 8 := (read 4 3).trans (by simp [headFields])
  have stall : fld (pack (a ++ headFields h op)) 52 4 = h.stall.val % 16 := (read 7 4).trans (by simp [headFields])
  obtain ⟨s, b, p, n⟩ := h
  simp only [headOf, bit, pneg, pred, sbw, stall]
  simp [-Fin.ofNat_eq_cast]

theorem opcode_word (h : Head) (op : Nat) {a : List (Nat × Nat)} (ha : widthOf a = 45) : fld (pack (a ++ headFields h op)) 56 8 = op % 256 :=
  (fld_pack_right (headFields h op) 11 8 ha).trans (by simp [headFields])

section
variable (h : Head) (op d a b c imm sh disp u k off : Nat) (q : PredSpec) {m : List (Nat × Nat)} {lo n : Nat}

/-- A word of format FA whose MOD is k. -/
def faWord : Nat := pack ([(9, k), (9, c), (9, b), (9, a), (9, d)] ++ headFields h op)

@[simp] theorem pack_fa (hm : widthOf m = 9) : pack (fa h op d a b c m) = faWord h op d a b c (pack m) := by
  rw [fa, List.append_assoc, pack_as_one _ hm]
  rfl

@[simp] theorem reads_fa :
    headOf (faWord h op d a b c k) = h ∧ fld (faWord h op d a b c k) 56 8 = op % 256 ∧
    fld (faWord h op d a b c k) 36 9 = d % 512 ∧
    fld (faWord h op d a b c k) 27 9 = a % 512 ∧
    fld (faWord h op d a b c k) 18 9 = b % 512 ∧
    fld (faWord h op d a b c k) 9 9 = c % 512 := by
  refine ⟨headOf_word h op rfl, opcode_word h op rfl, ?_⟩
  simp [faWord]

@[simp] theorem reads_fa_mod (low : lo + n ≤ 9) : fld (faWord h op d a b c k) lo n = fld k lo n := fld_pack_within _ _ low

/-- A word of format FB or FM whose MOD is k. -/
def fbWord : Nat := pack ([(9, k), (18, imm), (9, a), (9, d)] ++ headFields h op)

@[simp] theorem pack_fb (hm : widthOf m = 9) : pack (fb h op d a imm m) = fbWord h op d a imm (pack m) := by
  rw [fb, List.append_assoc, pack_as_one _ hm]
  rfl

@[simp] theorem reads_fb :
    headOf (fbWord h op d a imm k) = h ∧ fld (fbWord h op d a imm k) 56 8 = op % 256 ∧
    fld (fbWord h op d a imm k) 36 9 = d % 512 ∧
    fld (fbWord h op d a imm k) 27 9 = a % 512 ∧
    fld (fbWord h op d a imm k) 9 18 = imm % 2 ^ 18 := by
  refine ⟨headOf_word h op rfl, opcode_word h op rfl, ?_⟩
  simp [fbWord]

@[simp] theorem reads_fb_mod (low : lo + n ≤ 9) : fld (fbWord h op d a imm k) lo n = fld k lo n := fld_pack_within _ _ low

/-- The two parts of the immediate of VROT, VREV and VBCAST (R94). -/
@[simp] theorem reads_fb_pattern : fld (fbWord h op d a imm k) 9 5 = imm % 32 ∧ fld (fbWord h op d a imm k) 14 3 = fld imm 5 3 := by
  simp only [fbWord, List.cons_append, fld_pack_tail, Nat.reduceLeDiff, Nat.reduceSub]
  exact ⟨(fld_pack_within _ _ (by decide)).trans (by simp [fld]), fld_pack_within _ _ (by decide)⟩

/-- A word of format FMX whose MOD is k. -/
def fmxWord : Nat := pack ([(9, k), (7, disp), (2, sh), (9, b), (9, a), (9, d)] ++ headFields h op)

@[simp] theorem pack_fmx (hm : widthOf m = 9) : pack (fmx h op d a b sh disp m) = fmxWord h op d a b sh disp (pack m) := by
  rw [fmx, List.append_assoc, pack_as_one _ hm]
  rfl

@[simp] theorem reads_fmx :
    headOf (fmxWord h op d a b sh disp k) = h ∧ fld (fmxWord h op d a b sh disp k) 56 8 = op % 256 ∧
    fld (fmxWord h op d a b sh disp k) 36 9 = d % 512 ∧
    fld (fmxWord h op d a b sh disp k) 27 9 = a % 512 ∧
    fld (fmxWord h op d a b sh disp k) 18 9 = b % 512 ∧
    fld (fmxWord h op d a b sh disp k) 16 2 = sh % 4 ∧
    fld (fmxWord h op d a b sh disp k) 9 7 = disp % 128 := by
  refine ⟨headOf_word h op rfl, opcode_word h op rfl, ?_⟩
  simp [fmxWord]

@[simp] theorem reads_fmx_mod (low : lo + n ≤ 9) : fld (fmxWord h op d a b sh disp k) lo n = fld k lo n := fld_pack_within _ _ low

/-- A word of format FX whose SYS is k. -/
def fxWord : Nat := pack ([(27, k), (9, a), (9, d)] ++ headFields h op)

@[simp] theorem pack_fx (hm : widthOf m = 27) : pack (fx h op d a m) = fxWord h op d a (pack m) := by
  rw [fx, List.append_assoc, pack_as_one _ hm]
  rfl

@[simp] theorem reads_fx :
    headOf (fxWord h op d a k) = h ∧ fld (fxWord h op d a k) 56 8 = op % 256 ∧
    fld (fxWord h op d a k) 36 9 = d % 512 ∧
    fld (fxWord h op d a k) 27 9 = a % 512 := by
  refine ⟨headOf_word h op rfl, opcode_word h op rfl, ?_⟩
  simp [fxWord]

@[simp] theorem reads_fx_mod (low : lo + n ≤ 27) : fld (fxWord h op d a k) lo n = fld k lo n := fld_pack_within _ _ low

/-- A word of format FC. -/
@[simp] theorem reads_fc :
    headOf (pack (fc h op d imm k)) = h ∧ fld (pack (fc h op d imm k)) 56 8 = op % 256 ∧
    fld (pack (fc h op d imm k)) 36 9 = d % 512 ∧
    fld (pack (fc h op d imm k)) 4 32 = imm % 2 ^ 32 ∧
    fld (pack (fc h op d imm k)) 0 4 = k % 16 := by
  refine ⟨headOf_word h op (a := [(4, k), (32, imm), (9, d)]) rfl, opcode_word h op (a := [(4, k), (32, imm), (9, d)]) rfl, ?_⟩
  simp [fc, headFields]

/-- A word of format FJ. -/
@[simp] theorem reads_fj :
    headOf (pack (fj h op u k q off)) = h ∧ fld (pack (fj h op u k q off)) 56 8 = op % 256 ∧
    fld (pack (fj h op u k q off)) 44 1 = u % 2 ∧
    fld (pack (fj h op u k q off)) 42 2 = k % 4 ∧
    fld (pack (fj h op u k q off)) 39 3 = q.p.val % 8 ∧
    fld (pack (fj h op u k q off)) 38 1 = q.neg.toNat % 2 ∧
    fld (pack (fj h op u k q off)) 0 32 = off % 2 ^ 32 := by
  refine ⟨headOf_word h op (a := [(32, off), (6, 0), (1, q.neg.toNat), (3, q.p.val), (2, k), (1, u)]) rfl,
    opcode_word h op (a := [(32, off), (6, 0), (1, q.neg.toNat), (3, q.p.val), (2, k), (1, u)]) rfl, ?_⟩
  simp [fj, headFields]

end

end Sys2Proof.Laws
end

section
/-! SUPPORT. Reading a word's fields gives back the instruction they were laid out for (R66 to R102). -/
namespace Sys2Proof.Laws
set_option Elab.async false

/-! ### The parts of the opcode map (R91) -/

section
variable {w : Nat}

theorem parse_int (h : fld w 56 8 < 0x20) : parse w = parseInt (fld w 56 8) w := if_pos h

theorem parse_float (low : 0x20 ≤ fld w 56 8) (h : fld w 56 8 < 0x50) : parse w = parseFloat (fld w 56 8) w := by
  simp only [parse]
  rw [if_neg (by omega), if_pos h]

theorem parse_lane (low : 0x50 ≤ fld w 56 8) (h : fld w 56 8 < 0x70) : parse w = parseLane (fld w 56 8) w := by
  simp only [parse]
  rw [if_neg (by omega), if_neg (by omega), if_pos h]

theorem parse_mem (low : 0x70 ≤ fld w 56 8) (h : fld w 56 8 < 0xA0) : parse w = parseMem (fld w 56 8) w := by
  simp only [parse]
  rw [if_neg (by omega), if_neg (by omega), if_neg (by omega), if_pos h]

theorem parse_sync (low : 0xA0 ≤ fld w 56 8) (h : fld w 56 8 < 0xD0) : parse w = parseSync (fld w 56 8) w := by
  simp only [parse]
  rw [if_neg (by omega), if_neg (by omega), if_neg (by omega), if_neg (by omega), if_pos h]

theorem parse_ctl (low : 0xD0 ≤ fld w 56 8) : parse w = parseCtl (fld w 56 8) w := by
  simp only [parse]
  rw [if_neg (by omega), if_neg (by omega), if_neg (by omega), if_neg (by omega), if_neg (by omega)]

end

/-- Every row is laid out by one of the six formats, and its parser reads back what the format holds; optOpnd_optO asks for the operand check of wf (R234). -/
theorem parse_fields (i : Instr) (wf : i.wf = true) (word : i.isWord = true) : parse (pack i.fields) = some i := by
  cases i with
  | iadd | iaddImm | isub | isubImm | imul | imulImm | imulhi | imad | imadw | imin | imax | iabs | ineg | iclamp | lea | and | andImm | or | orImm
  | xor | xorImm | andn | andnImm | not | shl | shlImm | shr | shrImm | sar | sarImm | rotl | rotlImm | bfx | bfxImm | bfi | bfiImm | clz | popc
  | brev | icmp | icmpImm | sel | mov | movi | movh | i2i =>
    simp only [Instr.fields, parse_int, parseInt, widthOf, pack_fa, pack_fb, reads_fa, reads_fb, reads_fc, reads_fa_mod, reads_fb_mod, fld_pack_low,
      fld_pack_tail, bit, ty_ofCode_code, icond_ofCode_code, opnd_ofCode_code, predSpec_ofCode_code, fin_ofNat_mod, bitVec_ofNat_mod,
      bool_toNat_mod_two, Nat.reduceAdd, Nat.reduceSub, Nat.reduceMod, Nat.reducePow, Nat.reduceLeDiff, Nat.ofNat_pos, Nat.zero_mod, Nat.one_mod,
      add_zero, zero_add, Std.le_refl, tsub_self, pow_one, Nat.reduceLT]
  | fadd | faddImm | fsub | fmul | fmulImm | ffma | fmin | fminImm | fmax | fmaxImm | fcmp | fcmpImm | fclass | frcp | frsq | fsqrt | fexp2 | flog2
  | fsin | fcos | fdiv | frnd | f2f | f2i | i2f | fdot2 | bcvt | bdot | bunp | rand =>
    simp only [Instr.fields, parse_float, parseFloat, widthOf, pack_fa, pack_fb, reads_fa, reads_fb, reads_fa_mod, reads_fb_mod, fld_pack_low,
      fld_pack_tail, bit, ty_ofCode_code, rm_ofCode_code, rm_ofCode_code_wide, fcond_ofCode_code, bfmt_ofCode_code, opnd_ofCode_code, fin_ofNat_mod,
      bitVec_ofNat_mod, bool_toNat_mod_two, Nat.reduceAdd, Nat.reduceSub, Nat.reduceMod, Nat.reducePow, Nat.reduceLeDiff, Nat.zero_mod, Nat.one_mod,
      add_zero, zero_add, Std.le_refl, tsub_self, pow_one, Nat.reduceLT]
  | vxor | vrot | vrev | vbcast | vshuf | vtrn | vcompact | vexpand | vfire | vmaprd | vfirst | vballot | vany | vall | vmatch | vactive | vred
  | vscan | vsegred | vsort | vtopk | vtopkMulti | vbin =>
    simp only [Instr.fields, parse_lane, parseLane, widthOf, pack_fa, pack_fb, reads_fa, reads_fb, reads_fa_mod, reads_fb_pattern, fld_pack_low,
      fld_pack_tail, bit, pattern_low, pattern_high, ty_ofCode_code, redop_ofCode_code, opnd_ofCode_code, predSpec_ofCode_code, fin_ofNat_mod,
      bool_toNat_mod_two, optSNum_optS, optV_some, Nat.reduceAdd, Nat.reduceSub, Nat.reduceMod, Nat.reducePow, Nat.reduceLeDiff, Nat.zero_mod,
      Nat.one_mod, add_zero, zero_add, Std.le_refl, tsub_self, pow_one, Nat.reduceLT]
  | ld | ldIdx | st | stIdx | ldx | stx | ldrec | ststash | prefetch | prefetchIdx | cflush | cinv | cdemote | atomAdd | atomMin | atomMax | atomAnd
  | atomOr | atomXor | atomExch | atomcas | redAdd | redMin | redMax | redAnd | redOr | redXor | scadd | lcadd | lcrd | lcrdRaw | lcmrg | lcinit =>
    simp only [Instr.fields, parse_mem, parseMem, widthOf, pack_fa, pack_fb, pack_fmx, pack_fx, reads_fa, reads_fb, reads_fmx, reads_fx,
      reads_fa_mod, reads_fb_mod, reads_fmx_mod, reads_fx_mod, fld_pack_low, fld_pack_tail, ty_ofCode_code, scope_ofCode_code, hint_ofCode_code,
      bfmt_ofCode_code, opnd_ofCode_code, fin_ofNat_mod, bitVec_ofNat_mod, optSNum_optS, Nat.reduceAdd, Nat.reduceSub, Nat.reduceMod, Nat.reducePow,
      Nat.reduceLeDiff, add_zero, zero_add, Std.le_refl, tsub_self, Nat.reduceLT]
  | fence | fenceop | drain | ctrinit | ctrwait | ctrwaitImm | ctrarv | ctrrd | ctrkill | ctrkillFree | copy | bcopy | gather | scatter | unpack
  | mma | maccrd | maccwr | maccz =>
    simp only [Instr.fields, parse_sync, parseSync, widthOf, pack_fa, pack_fb, pack_fx, reads_fa, reads_fb, reads_fx, reads_fa_mod, reads_fb_mod,
      reads_fx_mod, fld_pack_low, fld_pack_tail, bit, ty_ofCode_code, scope_ofCode_code, hint_ofCode_code, sem_ofCode_code, fenceMode_ofCode_code,
      bfmt_ofCode_code, idxTy_ofCode_code, drainMem_ofCode_code, opnd_ofCode_code, fin_ofNat_mod, bitVec_ofNat_mod, bool_toNat_mod_two, sNum_code,
      optSNum_optS, Nat.reduceAdd, Nat.reduceSub, Nat.reduceMod, Nat.reducePow, Nat.reduceLeDiff, Nat.zero_mod, add_zero, zero_add, Std.le_refl,
      tsub_self, pow_one, Nat.reduceLT]
  | leaseDecl | leaseMeas | bra | call | brx | ret | exit | join | yield | nop | launch | trap | brk | rdsr | wrsr | rdtime =>
    simp only [Instr.fields, parse_ctl, parseCtl, widthOf, pack_fx, reads_fx, reads_fc, reads_fj, reads_fx_mod, fld_pack_low, fld_pack_tail, bit,
      brKind_ofCode_code, opnd_ofCode_code, fin_ofNat_mod, bitVec_ofNat_mod, bool_toNat_mod_two, sNum_code, Nat.reduceAdd, Nat.reduceSub,
      Nat.reduceMod, Nat.reducePow, Nat.reduceLeDiff, Nat.zero_mod, Nat.one_mod, add_zero, zero_add, Std.le_refl, tsub_self, pow_one]
  | ctradd h sc sem d a b cb | ctraddImm h sc sem d a imm =>
    have named : d ≠ some (.v 0) := by
      rintro rfl
      simp [Instr.wf] at wf
    simp only [Instr.fields, parse_sync, parseSync, optOpnd_optO named, widthOf, pack_fa, pack_fb, reads_fa, reads_fb, reads_fa_mod, reads_fb_mod,
      fld_pack_low, fld_pack_tail, scope_ofCode_code, sem_ofCode_code, opnd_ofCode_code, bitVec_ofNat_mod, optSNum_optS, Nat.reduceAdd,
      Nat.reduceSub, Nat.reduceMod, Nat.reducePow, Nat.reduceLeDiff, add_zero, Std.le_refl, tsub_self, Nat.reduceLT]
  -- What is left are the events.
  | _ => cases word

end Sys2Proof.Laws
end

section
/-! THEOREM. The decoder and the encoder are each other's inverse (R66 to R103). -/
namespace Sys2Proof.Laws
set_option Elab.async false

theorem fc_sum (h : Head) (op d imm k : Nat) : ((fc h op d imm k).map Prod.fst).sum = 64 := rfl
theorem fj_sum (h : Head) (op u k : Nat) (q : PredSpec) (off : Nat) : ((fj h op u k q off).map Prod.fst).sum = 64 := rfl

/-- Each of the six formats fills a word (R68). -/
theorem widthOf_fields (i : Instr) : widthOf i.fields = if i.isWord then 64 else 0 := by
  rw [widthOf_eq_sum]
  cases i <;>
    simp only [Instr.isWord, Instr.head?, Option.isSome_some, Option.isSome_none, if_true, Bool.false_eq_true, if_false, Instr.fields, fa_sum, fb_sum,
      fmx_sum, fx_sum, fc_sum, fj_sum, List.map_cons, List.sum_cons, List.map_nil, List.sum_nil, Nat.reduceAdd]

/-- Encoding cuts nothing off a row's fields: they fill 64 bits. -/
theorem encode_toNat {i : Instr} (word : i.isWord = true) : (encode i).toNat = pack i.fields := by
  have fit : pack i.fields < 2 ^ 64 := by simpa [widthOf_fields, word] using pack_lt i.fields
  rw [encode, BitVec.toNat_ofNat, Nat.mod_eq_of_lt fit]

theorem decodeWord_eq_some_iff {w : DWord} {i : Instr} : decodeWord w = some i ↔ parse w.toNat = some i ∧ encode i = w ∧ i.wf = true := by
  unfold decodeWord decode
  cases parse w.toNat with
  | none => simp
  | some j =>
    simp only [Option.some.injEq, bne_iff_ne]
    grind

theorem decodeWord_encode {i : Instr} (wf : i.wf = true) (word : i.isWord = true) : decodeWord (encode i) = some i :=
  decodeWord_eq_some_iff.mpr ⟨encode_toNat word ▸ parse_fields i wf word, rfl, wf⟩

theorem encode_event {i : Instr} (event : i.isWord = false) : encode i = 0 := by
  have low : pack i.fields < 1 := by simpa [widthOf_fields, event] using pack_lt i.fields
  rw [encode, Nat.lt_one_iff.mp low]
  rfl

/-- What a word decodes to is a row of a table: an event would be encoded as 0, and the word 0 is an IADD. -/
theorem isWord_of_decodeWord {w : DWord} {i : Instr} (h : decodeWord w = some i) : i.isWord = true := by
  obtain ⟨read, same, -⟩ := decodeWord_eq_some_iff.mp h
  have zero : parse 0 = some (.iadd ⟨0, 0, 0, false⟩ .n8 false (.v 0) (.v 0) (.v 0)) := by decide
  by_contra event
  rw [Bool.not_eq_true] at event
  obtain rfl := same.symm.trans (encode_event event)
  cases zero.symm.trans read
  cases event

end Sys2Proof.Laws

open Sys2Proof.Laws in
/-- Settles O53: each row's parser reads back the fields its format lays out, which fill 64 bits; the other direction is the check of reserved bits that
decode itself makes. -/
theorem decodeIsInverseOfEncode : Obligations.DecodeIsInverseOfEncode := by
  unfold Obligations.DecodeIsInverseOfEncode
  refine ⟨fun i wf word => decodeWord_encode wf word, fun w i h => ?_⟩
  obtain ⟨-, same, wf⟩ := decodeWord_eq_some_iff.mp h
  exact ⟨wf, isWord_of_decodeWord h, same⟩
end

section
/-! THEOREM. The words of the spec (R88, R93 to R99). -/

/-- Settles O54: the decoder, run on each word. -/
theorem specWordsDecode : Obligations.SpecWordsDecode := by
  unfold Obligations.SpecWordsDecode
  decide +kernel
end

section
/-! SUPPORT. What a turn that ends a hold does to its warp: the hold alone is cleared, and a warp that enters the load changes its place alone. -/
namespace Sys2Proof.Machine
set_option Elab.async false

/-- A warp changed in place is the list with the changed warp put there. -/
theorem State.modWarp_eq_set {s : State} {w : Nat} {x : Warp} (h : s.warp? w = some x) (f : Warp → Warp) :
    s.modWarp w f = { s with warps := s.warps.set w (f x) } := by
  have same : upd s.warps w f = s.warps.set w (f x) := by
    refine List.ext_getElem? fun i => ?_
    rw [upd_get, List.getElem?_set]
    by_cases hi : w = i
    · subst hi
      obtain ⟨inside, rfl⟩ := List.getElem?_eq_some_iff.mp h
      simp [inside]
    · rw [if_neg hi, if_neg hi]
  rw [State.modWarp, same]

/-- A page is known exactly where its walk ends in an entry or its fault cannot be resolved (R64, R310). -/
theorem State.pageKnown_iff (s : State) (ctx page : Nat) :
    s.pageKnown ctx page = true ↔ s.translate ctx (page * 2 ^ 16) ≠ .absent ∨ s.resolvable ctx (page * 2 ^ 16) = false := by
  unfold State.pageKnown
  cases s.translate ctx (page * 2 ^ 16) <;> simp

/-! ### The turns -/

theorem execClauseFetchResolved_known {s : State} {w p : Nat} {x : Warp} (hx : s.warp? w = some x) (hold : x.hold = .fetch p)
    (known : s.pageKnown (s.ctxIx w) p = true) : execClauseFetchResolved w s = .next (s.modWarp w (fun x => { x with hold := .none })) := by
  simp [execClauseFetchResolved, hx, hold, known, when_]

/-- What an instruction waits for before its first clk is there (R80, R246, R261, R287, R353). -/
def State.issueFree (s : State) (w : Nat) (x : Warp) : IssueWait → Bool
  | .sb i => decide (x.regs.sb.getD i.val 0 < 63)
  | .copies => decide (s.portEntries w < 64)
  | .mmas => decide ((s.core (s.clusterOf w) x.core).mmaq.length < 8)
  | .stage => s.direct x.block
  | .count k => !s.mayCount w k

theorem execIssueWaitEnd_free {s : State} {w : Nat} {x : Warp} {why : IssueWait} (hx : s.warp? w = some x) (hold : x.hold = .issue why)
    (free : s.issueFree w x why = true) : execIssueWaitEnd w s = .next (s.modWarp w (fun x => { x with hold := .none })) := by
  cases why <;> simp_all [execIssueWaitEnd, State.issueFree, when_]

theorem execYieldExpire_over {s : State} {w u : Nat} {x : Warp} (hx : s.warp? w = some x) (hold : x.hold = .yield u) (passed : u ≤ s.clk)
    (here : s.savedWarp w = false) : execYieldExpire w s = .next (s.modWarp w (fun x => { x with hold := .none })) := by
  simp [execYieldExpire, hx, hold, passed, here, when_]

/-! ### Run-ahead -/

/-- A warp after some have entered the load: as it was, or in it. -/
def Warp.Entered (x y : Warp) : Prop := y = x ∨ y = { x with state := .active }

theorem Warp.Entered.trans {x y z : Warp} (h : x.Entered y) (k : y.Entered z) : x.Entered z := by
  obtain rfl | rfl := h
  · exact k
  · obtain rfl | rfl := k <;> exact .inr rfl

theorem Warp.entered_ite (x : Warp) (p : Prop) [Decidable p] : x.Entered (if p then { x with state := .active } else x) := by
  split
  · exact .inr rfl
  · exact .inl rfl

theorem entered_of_fillLoad {s : State} {v : Nat} {x : Warp} (cl core : Nat) (hx : s.warp? v = some x) :
    ∃ y, (s.fillLoad cl core).warp? v = some y ∧ x.Entered y := by
  unfold State.fillLoad
  generalize takeFitting _ _ _ = entering
  induction entering generalizing s x with
  | nil => exact ⟨x, hx, .inl rfl⟩
  | cons p ps ih =>
    by_cases here : p.1 = v
    · obtain ⟨y, hy, entered⟩ := ih ((State.warp?_modWarp ..).trans ((if_pos here).trans (congrArg _ hx)))
      exact ⟨y, hy, (x.entered_ite _).trans entered⟩
    · exact ih ((State.warp?_modWarp ..).trans ((if_neg here).trans hx))

theorem entered_of_fillLoadAt {s : State} {v : Nat} {x : Warp} (w : Nat) (hx : s.warp? v = some x) :
    ∃ y, (s.fillLoadAt w).warp? v = some y ∧ x.Entered y := by
  unfold State.fillLoadAt
  split
  · exact ⟨x, hx, .inl rfl⟩
  · exact entered_of_fillLoad _ _ hx

/-- The warp of a batch whose pages are known is READY, and may enter the load at once (R310, R335, R339). -/
theorem execPageBatchResolved_known {s : State} {w : Nat} {x : Warp} (hx : s.warp? w = some x) (hold : x.hold = .batch) (here : s.savedWarp w = false)
    (known : ∀ p ∈ x.batch, s.pageKnown (s.ctxIx w) p = true) :
    ∃ t y, execPageBatchResolved w s = .next t ∧ t.warp? w = some y ∧
      ({ x with hold := .none, batch := [], state := .ready, readyAt := s.clk } : Warp).Entered y := by
  have all : x.batch.all (s.pageKnown (s.ctxIx w)) = true := List.all_eq_true.mpr known
  have readied : ((s.modWarp w (fun x => { x with hold := .none, batch := [] })).modWarp w (fun x => { x with state := .ready, readyAt := s.clk })).warp? w =
      some { x with hold := .none, batch := [], state := .ready, readyAt := s.clk } := by
    simp [State.warp?_modWarp, hx]
  obtain ⟨y, hy, entered⟩ := entered_of_fillLoadAt w readied
  exact ⟨_, y, by simp [execPageBatchResolved, hx, hold, here, all, when_]; rfl, hy, entered⟩

/-- A warp as its checkpoint has it, waiting for its batch (R309). -/
def Warp.rolledBack (x : Warp) (k : Checkpoint) : Warp :=
  { x with
    regs := k.regs
    pipe := none
    clause := k.clause
    outst := k.outst
    pending := none
    ahead := false
    aheadCount := 0
    poisoned := []
    hold := .batch
    state := .waiting }

/-- Rolling back changes that warp, and of the others at most their places in the load. -/
theorem execRunaheadStop_rollsBack {s : State} {w : Nat} {x : Warp} {k : Checkpoint} (hx : s.warp? w = some x) (ahead : x.ahead = true)
    (hold : x.hold = .stop) (found : s.checkpoints.find? (fun k => k.warp == w) = some k) :
    ∃ t, execRunaheadStop w s = .next t ∧ t.warp? w = some (x.rolledBack k) ∧ ∀ v, v ≠ w → t.regs v = s.regs v := by
  let dropped : State := { s with checkpoints := s.checkpoints.filter (fun c => c.warp != w) }
  have rolls : execRunaheadStop w s = .next ((dropped.modWarp w (·.rolledBack k)).fillLoadAt w) := by
    simp [execRunaheadStop, hx, ahead, hold, when_, State.rollBack, found]
    rfl
  have back : (dropped.modWarp w (·.rolledBack k)).warp? w = some (x.rolledBack k) := by
    rw [State.warp?_modWarp, if_pos rfl]
    exact congrArg (Option.map _) hx
  refine ⟨_, rolls, (Filled.fillLoadAt _ w).keeps w _ back (by simp [Warp.rolledBack]), fun v hv => ?_⟩
  rw [(SameRegs.fillLoadAt ..).regs, State.regs_modWarp_ne _ hv]
  rfl

end Sys2Proof.Machine
end

section
/-! THEOREM. What holds a warp ends (R64, R80, R221, R287, R309, R310, R353). -/
open Sys2Proof.Machine

/-- Settles O30: each turn that ends a hold clears it alone; a warp that becomes READY changes its place in the load alone. -/
theorem holdsEnd : Obligations.HoldsEnd := by
  unfold Obligations.HoldsEnd
  intro s w x hx free known
  have frees : ∀ {i : Sys2Proof.Instr}, exec i s = .next (s.modWarp w (fun x => { x with hold := .none })) → exec i s = .next free := fun h =>
    h.trans (congrArg _ (State.modWarp_eq_set hx _))
  have isKnown : ∀ p, known p → s.pageKnown (s.ctxIx w) p = true := fun p => (s.pageKnown_iff (s.ctxIx w) p).mpr
  have issues : ∀ why, x.hold = .issue why → s.issueFree w x why = true → exec (.issueWaitEnd w) s = .next free := fun _ hold h =>
    frees (execIssueWaitEnd_free hx hold h)
  refine ⟨fun p hold h => frees (execClauseFetchResolved_known hx hold (isKnown p h)), fun i hold h => issues _ hold (decide_eq_true h),
    fun hold h => issues _ hold (decide_eq_true h), fun hold h => issues _ hold (decide_eq_true h), fun hold h => issues _ hold h,
    fun k hold h => issues _ hold (by simp [State.issueFree, h]), fun u hold passed here => frees (execYieldExpire_over hx hold passed here),
    fun k ahead hold found => ?_, fun hold here h => ?_⟩
  · obtain ⟨t, runs, back, others⟩ := execRunaheadStop_rollsBack hx ahead hold found
    exact ⟨t, _, runs, back, rfl, rfl, rfl, rfl, rfl, rfl, others⟩
  · obtain ⟨t, y, runs, hy, rfl | rfl⟩ := execPageBatchResolved_known hx hold here (fun p hp => isKnown p (h p hp))
    · exact ⟨t, _, runs, hy, rfl, rfl, rfl, rfl, .inl rfl⟩
    · exact ⟨t, _, runs, hy, rfl, rfl, rfl, rfl, .inr rfl⟩
end

section
/-! SUPPORT. What an access's result leaves in registers, and what its writeback leaves of the rest of the module (R82, R84, R131, R186, R197, R220). -/
namespace Sys2Proof.Machine
set_option Elab.async false

/-! ### Results in registers -/

/-- Results of an access take their slots as results of a computation do. -/
theorem putGroup_eq_writeLoop (r : Regs) (ds : List Reg) (slots : LMap) (act : Mask) (val : Nat → DWord) :
    putGroup r ds slots act val = writeLoop ds act slots (fun t => some (val t)) threads r := by
  refine congrArg (fun step => List.foldl step r threads) (funext fun q => funext fun t => ?_)
  unfold writeStep
  cases inMask act t <;> cases slots.at t <;> rfl

theorem putGroup_sameRest (r : Regs) (ds : List Reg) (slots : LMap) (act : Mask) (val : Nat → DWord) : (putGroup r ds slots act val).sameRest r := by
  rw [putGroup_eq_writeLoop]
  exact writeLoop_keeps (fun x => x.sameRest r) ds act slots _ (fun x p y hx => (writeSlot_sameRest x ds p y).trans hx) threads r r.sameRest_refl

/-- Results count no scoreboard. -/
theorem putGroups_sb (r : Regs) (act : Mask) (slots : List LMap) (val : Nat → Nat → DWord) (gs : List (List Reg)) (k : Nat) :
    (putGroups r act slots val gs k).sb = r.sb := by
  induction gs generalizing r k with
  | nil => rfl
  | cons g gs ih =>
    unfold putGroups
    simp only [ih]
    split
    · rfl
    · obtain ⟨-, -, -, sb, -⟩ := putGroup_sameRest r g (slots.getD k .ident) act (val k)
      exact sb

/-- A register of one word holds its results in their slots, under the tag it had. -/
theorem putGroup_vreg {r : Regs} {d : Reg} (hv : d.isVec) (hd : r.has d) (slots : LMap) (act : Mask) (val : Nat → DWord) :
    (putGroup r [d] slots act val).vreg d =
      { r.vreg d with slots := putSlots (slotWrite act slots (fun t => some (val t)) (·.setWidth 32)) threads (r.vreg d).slots } := by
  have one : DstRegs false d [d] := rfl
  have half : halfOf d d = fun x : DWord => x.setWidth 32 := funext fun x => if_pos rfl
  rw [putGroup_eq_writeLoop, writeLoop_vreg (half := halfOf d d) act slots _
    (fun x hx p y => writeSlot_vreg one hv hx (List.mem_singleton_self d) p y) threads r (by simpa using hd), half]

theorem putGroup_tag {r : Regs} {d : Reg} (hv : d.isVec) (hd : r.has d) (slots : LMap) (act : Mask) (val : Nat → DWord) :
    ((putGroup r [d] slots act val).vreg d).tag = (r.vreg d).tag := by rw [putGroup_vreg hv hd]

/-- A slot holds what the one thread that writes it wrote. -/
theorem putSlots_placed {g : Nat → Option (Fin 32 × Word)} {sl : List Word} (hl : sl.length = 32) {u : Nat} {p : Fin 32} {x : Word} (hu : u < 32)
    (writes : g u = some (p, x)) (alone : ∀ v < 32, ∀ y, g v = some (p, y) → v = u) : (putSlots g threads sl)[p.val]? = some x := by
  have inside : p.val < (putSlots g threads sl).length := by rw [putSlots_length, hl]; exact p.isLt
  have last : threads.reverse.find? (fun v => (g v).any (fun y => y.1 == p)) = some u := by
    have found : (threads.reverse.find? (fun v => (g v).any (fun y => y.1 == p))).isSome := by
      rw [List.find?_isSome]
      exact ⟨u, by simpa using mem_threads.mpr hu, by simp [writes]⟩
    obtain ⟨v, hv⟩ := Option.isSome_iff_exists.mp found
    have lt : v < 32 := mem_threads.mp (by simpa using List.mem_of_find?_eq_some hv)
    have here := List.find?_some hv
    rw [Option.any_eq_true] at here
    obtain ⟨⟨q, y⟩, hy, same⟩ := here
    obtain rfl : q = p := by simpa using same
    rw [hv, alone v lt y hy]
  have value := putSlots_get g threads sl hl p
  rw [last] at value
  simp only [writes, Option.map_some, Option.getD_some] at value
  rw [← value, List.getD_eq_getElem?_getD, List.getElem?_eq_getElem inside, Option.getD_some]

/-- Threads whose slots lie apart each find their result in their own. -/
theorem putGroup_slot {r : Regs} {d : Reg} (hv : d.isVec) (hd : r.has d) (len : (r.vreg d).slots.length = 32) {slots : LMap} {act : Mask}
    (val : Nat → DWord) (apart : ∀ u < 32, ∀ v < 32, inMask act u = true → inMask act v = true → slots.at u = slots.at v → u = v)
    {u : Nat} (hu : u < 32) (on : inMask act u = true) {p : Fin 32} (hp : slots.at u = some p) :
    ((putGroup r [d] slots act val).vreg d).slots[p.val]? = some ((val u).setWidth 32) := by
  rw [putGroup_vreg hv hd]
  refine putSlots_placed len hu (by simp [slotWrite, on, hp]) fun v lt y writes => ?_
  have whose : inMask act v = true ∧ slots.at v = some p := by
    unfold slotWrite at writes
    cases onv : inMask act v <;> cases held : slots.at v <;> simp_all
  exact apart v lt u hu whose.1 on (whose.2.trans hp.symm)

/-! ### Writeback -/

/-- The access's scoreboard counts down (R82). -/
def Access.down (a : Access) (r : Regs) : Regs :=
  match a.sb with
  | none => r
  | some b => { r with sb := r.sb.modify b.val (· - 1) }

theorem Access.down_data (a : Access) (r : Regs) :
    (a.down r).v = r.v ∧ (a.down r).o = r.o ∧ (a.down r).s = r.s ∧ ∀ d, (a.down r).vreg d = r.vreg d := by
  unfold Access.down
  cases a.sb with
  | none => exact ⟨rfl, rfl, rfl, fun _ => rfl⟩
  | some b => exact ⟨rfl, rfl, rfl, fun d => by cases d <;> rfl⟩

/-- An access's results in the registers of its destination. -/
def Access.put (a : Access) (r : Regs) : Regs := putGroups r a.mask a.slots a.value a.groups 0

theorem Access.down_put_sb (a : Access) (r : Regs) :
    (a.down (a.put r)).sb = match a.sb with | some b => r.sb.modify b.val (· - 1) | none => r.sb := by
  unfold Access.down Access.put
  cases a.sb <;> simp only [putGroups_sb]

theorem Access.put_none {a : Access} (r : Regs) (h : a.dregs = []) : a.put r = r := by
  simp [Access.put, Access.groups, h, pairUp, putGroups]

/-- An S register stands alone and is written once (R186). -/
theorem Access.put_sreg {a : Access} {k : Nat} (r : Regs) (h : a.dregs = [.s k]) :
    a.put r = { r with s := r.s.set k (a.value 0 (lowestOf a.mask)) } := by
  simp [Access.put, Access.groups, h, pairUp, putGroups]

theorem Access.put_vreg {a : Access} {g : Nat} {m : LMap} (r : Regs) (h : a.dregs = [.v g]) (hm : a.slots = [m]) :
    a.put r = putGroup r [.v g] m a.mask (a.value 0) := by
  simp [Access.put, Access.groups, h, hm, pairUp, putGroups]

theorem State.keepClobbered_accs (s : State) (old : Regs) (a : Access) (r : Regs) : (s.keepClobbered old a r).1.accs = s.accs := by
  unfold State.keepClobbered; split <;> rfl

theorem State.keepClobbered_warps (s : State) (old : Regs) (a : Access) (r : Regs) : (s.keepClobbered old a r).1.warps = s.warps := by
  unfold State.keepClobbered; split <;> rfl

theorem State.keepClobbered_nil (s : State) (old : Regs) {a : Access} (r : Regs) (h : a.clob = []) : s.keepClobbered old a r = (s, r) := by
  simp [State.keepClobbered, h]

/-- Accesses that read what is overwritten have been written as before. -/
theorem State.reread_wb (s : State) (w : Nat) (gs : List Reg) (n i : Nat) :
    ((s.reread w gs n).accs[i]?).map Access.wb = (s.accs[i]?).map Access.wb := by
  unfold State.reread
  split
  · rfl
  · simp only
    split
    · rfl
    · simp only [State.fresh, List.getElem?_map, List.getElem?_zipIdx, Option.map_map, Function.comp_def, apply_ite Access.wb, ite_self]

/-- The access of which the result is written: it reads no register any more. -/
def Access.marked (a : Access) : Access := { a with wb := true, srcs := [] }

/-- The result is written in the checkpoint of its warp too, if it was issued before it (R307). -/
def State.writeCheckpoint (s : State) (a : Access) (n : Nat) : State :=
  match s.checkpoints.find? (fun c => c.warp == a.warp && n < c.accs) with
  | none => s
  | some c =>
    let k := s.keepClobbered c.regs a (a.put c.regs)
    { k.1 with checkpoints := k.1.checkpoints.map (fun c => if c.warp == a.warp then { c with regs := a.down k.2 } else c) }

theorem State.writeCheckpoint_accs (s : State) (a : Access) (n : Nat) : (s.writeCheckpoint a n).accs = s.accs := by
  unfold State.writeCheckpoint
  split
  · rfl
  · exact State.keepClobbered_accs ..

theorem SameRegs.writeCheckpoint (s : State) (a : Access) (n : Nat) : SameRegs s (s.writeCheckpoint a n) := by
  unfold State.writeCheckpoint
  split
  · exact .refl s
  · exact .of_warps (State.keepClobbered_warps ..)

section
variable {s : State} {n : Nat} {a : Access} {x : Warp} (ha : s.accs[n]? = some a) (hx : s.warp? a.warp = some x)
include ha hx

theorem State.writeBack_ended (ended : x.state = .ended) : s.writeBack n = s.modAcc n Access.marked := by
  have here : (s.modAcc n Access.marked).warp? a.warp = some x := hx
  unfold State.writeBack
  simp only [ha]
  change (match (s.modAcc n Access.marked).warp? a.warp with | none => _ | some x => _) = _
  rw [here]
  exact if_pos (by simp [ended])

theorem State.writeBack_live (live : x.state ≠ .ended) : s.writeBack n =
    let k := (s.modAcc n Access.marked).keepClobbered x.regs a (a.put x.regs)
    ((k.1.modWarp a.warp (fun x => { x with regs := a.down k.2 })).reread a.warp a.dregs n).writeCheckpoint a n := by
  have here : (s.modAcc n Access.marked).warp? a.warp = some x := hx
  unfold State.writeBack
  simp only [ha]
  change (match (s.modAcc n Access.marked).warp? a.warp with | none => _ | some x => _) = _
  rw [here]
  exact if_neg (by simp [live])

omit hx in
theorem State.marked_wb : ((s.modAcc n Access.marked).accs[n]?).map Access.wb = some true := by
  rw [State.modAcc_accs, upd_get, if_pos rfl, ha]
  rfl

theorem State.writeBack_wb : ((s.writeBack n).accs[n]?).map Access.wb = some true := by
  by_cases ended : x.state = .ended
  · rw [State.writeBack_ended ha hx ended]
    exact State.marked_wb ha
  · rw [State.writeBack_live ha hx ended]
    simp only [State.writeCheckpoint_accs, State.reread_wb, State.modWarp_accs, State.keepClobbered_accs]
    exact State.marked_wb ha

/-- What follows the write of a warp's registers leaves the registers of warps. -/
theorem State.writeBack_regs (live : x.state ≠ .ended) (v : Nat) : (s.writeBack n).regs v =
    if v = a.warp then a.down ((s.modAcc n Access.marked).keepClobbered x.regs a (a.put x.regs)).2 else s.regs v := by
  rw [State.writeBack_live ha hx live, (SameRegs.writeCheckpoint ..).regs, (SameRegs.reread ..).regs]
  have kept : ∀ u, ((s.modAcc n Access.marked).keepClobbered x.regs a (a.put x.regs)).1.warp? u = s.warp? u := fun u => by
    rw [State.warp?, State.keepClobbered_warps]
    rfl
  split
  next same =>
    rw [State.regs, State.warp?_modWarp, if_pos same.symm, kept, same, hx]
    rfl
  next other => rw [State.regs_modWarp_ne _ other, State.regs, State.regs, kept]

theorem State.writeBack_other {v : Nat} (other : v ≠ a.warp) : (s.writeBack n).regs v = s.regs v := by
  by_cases ended : x.state = .ended
  · rw [State.writeBack_ended ha hx ended]
    rfl
  · rw [State.writeBack_regs ha hx ended, if_neg other]

/-- Where nothing it writes has been overwritten since, the registers are those with the result in them (R84). -/
theorem State.writeBack_put (live : x.state ≠ .ended) (clear : a.clob = []) : (s.writeBack n).regs a.warp = a.down (a.put x.regs) := by
  rw [State.writeBack_regs ha hx live, if_pos rfl, State.keepClobbered_nil _ _ _ clear]

end

theorem execResultWriteback_performed {s : State} {n : Nat} {a : Access} {x : Warp} (ha : s.accs[n]? = some a) (fresh : a.wb = false)
    (plain : a.op ≠ .fenceop) (performed : a.dregs = [] ∨ ∀ r ∈ a.reqs, r.done = true) (hx : s.warp? a.warp = some x) (free : x.hold ≠ .accept n) :
    execResultWriteback n s = .next (s.writeBack n) := by
  have ready : (a.dregs.isEmpty || a.reqs.all Req.done) = true := by simpa using performed
  simp [execResultWriteback, ha, hx, fresh, plain, free, ready, when_]

end Sys2Proof.Machine
end

section
/-! THEOREM. The writeback of an access's result (R82, R84, R131, R186, R197, R220). -/
open Sys2Proof.Machine

/-- Settles O28: an access's results take their slots one thread after another, as those of a computation do; slots that lie apart keep each thread's own. -/
theorem resultWriteback : Obligations.ResultWriteback := by
  unfold Obligations.ResultWriteback
  intro s n a x ha fresh plain performed hx free
  refine ⟨s.writeBack n, execResultWriteback_performed ha fresh plain performed hx free, State.writeBack_wb ha hx, State.writeBack_mem ..,
    fun w other => State.writeBack_other ha hx other, fun ended => ?_, fun live clear => ?_⟩
  · rw [State.writeBack_ended ha hx ended]
    rfl
  · rw [State.writeBack_put ha hx live clear]
    obtain ⟨v, o, sregs, vreg⟩ := a.down_data (a.put x.regs)
    rw [v, o, sregs]
    refine ⟨a.down_put_sb x.regs, fun none => ?_, fun k one inside => ?_, fun g m one slots narrow apart q hq len => ?_⟩
    · rw [Access.put_none _ none]
      exact ⟨rfl, rfl, rfl⟩
    · rw [Access.put_sreg _ one, List.getElem?_set_self inside]
    · have vec : (Reg.v g).isVec := trivial
      have there : x.regs.has (.v g) := (List.getElem?_eq_some_iff.mp hq).1
      have old : x.regs.vreg (.v g) = q := by simp [Regs.vreg, hq]
      obtain ⟨same, -⟩ := putGroup_sameRest x.regs [.v g] m a.mask (a.value 0)
      rw [vreg, Access.put_vreg _ one slots]
      refine ⟨same, old ▸ putGroup_tag vec there .., fun u hu on p hp => ?_⟩
      exact putGroup_slot vec there (old ▸ len) (a.value 0) apart hu on hp
end

section
/-! SUPPORT. Every instruction, event and turn leads to a next state: an issue has a fault only where no warp stands at a word, where no turn issues, and
an event none at all. -/
namespace Sys2Proof.Machine
-- One proof after another: side by side they need more threads than a compile is given memory for.
set_option Elab.async false

/-- An outcome with a next state. -/
def GoesOn (o : Host.Outcome State Fault Refusal) : Prop := ∃ t, o = .next t

theorem GoesOn.next {t : State} : GoesOn (.next t) := ⟨t, rfl⟩

theorem GoesOn.when {b : Bool} {t s : State} : GoesOn (when_ b t s) := ⟨_, rfl⟩

theorem GoesOn.ite {p : Prop} [Decidable p] {a b : Host.Outcome State Fault Refusal} (ha : GoesOn a) (hb : GoesOn b) : GoesOn (if p then a else b) := by
  split
  · exact ha
  · exact hb

/-! ### Issues -/

/-- The warp that a turn issues for stands at a word of its clause. -/
theorem State.canIssue_stands {s : State} {w : Nat} (h : s.canIssue w = true) :
    ∃ x c, s.warp? w = some x ∧ x.clause = some c ∧ (!x.runs || decide (c.words.length ≤ c.idx)) = false := by
  unfold State.canIssue at h
  obtain ⟨x, hx, stands⟩ := (Option.any_eq_true _ _).mp h
  simp only [Bool.and_eq_true, Option.any_eq_true, decide_eq_true_eq] at stands
  obtain ⟨⟨runs, -⟩, c, hc, before⟩ := stands
  exact ⟨x, c, hx, hc, by simp [runs, before]⟩

section
variable {s : State} (hs : s.canIssue s.cur = true)
include hs

theorem GoesOn.issue {d : Need} {body : Env → Res} : GoesOn (issue d body s) := by
  obtain ⟨x, c, hx, hc, stands⟩ := State.canIssue_stands hs
  unfold Machine.issue
  simp only [hx, hc, stands, Bool.false_eq_true, if_false]
  refine .ite .next (.ite .next (.ite .next (.ite (.ite .next .next) (.ite .next ?_))))
  split
  · exact .next
  · exact .ite .next .next

theorem GoesOn.illegalWord : GoesOn (illegalWord s) := by
  obtain ⟨x, c, hx, hc, stands⟩ := State.canIssue_stands hs
  unfold Machine.illegalWord
  simp only [hx, hc, stands, Bool.false_eq_true, if_false]
  exact .ite .next .next

section
variable {h : Head} {lat g k n : Nat} {wide b u : Bool} {ty : Ty} {rm : Rm} {d a : Opnd} {f : AddrForm} {op : AccOp} {sc : Scope} {hint : Hint} {sem : Sem}
  {pd : Fin 7} {bo r o : Option Opnd} {imm : List Src} {xs : List Opnd} {x : DWord}

theorem GoesOn.alu {ys : List (Ty × Opnd)} {r : Env → Nat → List DWord → DWord} : GoesOn (alu h lat wide d ys imm r s b) := by
  unfold Machine.alu
  exact .issue hs

theorem GoesOn.intAlu {r : List DWord → DWord} : GoesOn (intAlu h ty d xs imm r s) := .alu hs

theorem GoesOn.cmpAlu {r : List DWord → Bool} : GoesOn (cmpAlu h lat ty pd xs imm r s) := by
  unfold Machine.cmpAlu
  exact .issue hs

theorem GoesOn.floatAlu {r : Rnd → List Nat → Nat} : GoesOn (floatAlu h lat ty rm d xs imm r s) := .alu hs

theorem GoesOn.funAlu {r : FVal → FVal} : GoesOn (funAlu h ty d a r s) := .floatAlu hs

theorem GoesOn.patEdit : GoesOn (patEdit h n g k d a s) := by
  unfold Machine.patEdit
  exact .issue hs

theorem GoesOn.voteAlu {ps : PredSpec} {r : Mask → Mask → Bool} : GoesOn (voteAlu h pd ps r s) := by
  unfold Machine.voteAlu
  exact .issue hs

theorem GoesOn.loadInstr : GoesOn (loadInstr h ty sc hint d f s) := by
  unfold Machine.loadInstr
  exact .issue hs

theorem GoesOn.storeInstr : GoesOn (storeInstr h ty sc hint d f s) := by
  unfold Machine.storeInstr
  exact .issue hs

theorem GoesOn.lineInstr : GoesOn (lineInstr h op sc hint b f s) := by
  unfold Machine.lineInstr
  exact .issue hs

theorem GoesOn.atomInstr : GoesOn (atomInstr h op ty sc hint r f d o s) := by
  unfold Machine.atomInstr
  exact .issue hs

theorem GoesOn.lcAddInstr : GoesOn (lcAddInstr h op ty sc b f d s) := by
  unfold Machine.lcAddInstr
  exact .issue hs

theorem GoesOn.lcReadInstr : GoesOn (lcReadInstr h op d f s) := by
  unfold Machine.lcReadInstr
  exact .issue hs

theorem GoesOn.leaseInstr {v : BitVec 9} : GoesOn (leaseInstr h v s) := by
  unfold Machine.leaseInstr
  exact .issue hs

theorem GoesOn.ctrInstr {cb : Option (Fin 64)} : GoesOn (ctrInstr h n op sc sem o a cb bo x s) := by
  unfold Machine.ctrInstr
  exact .issue hs

theorem GoesOn.waitInstr : GoesOn (waitInstr h sc sem pd a bo x s) := by
  unfold Machine.waitInstr
  exact .issue hs

theorem GoesOn.copyInstr {kind : CopyKind} {bk : Byte} {i : Fin 64} : GoesOn (copyInstr h kind sc b bk hint i s) := by
  unfold Machine.copyInstr
  exact .issue hs

theorem GoesOn.indirect : GoesOn (indirect h u a s) := by
  unfold Machine.indirect
  exact .issue hs

theorem GoesOn.readSr : GoesOn (readSr h d n s) := by
  unfold Machine.readSr
  exact .issue hs

end

end

/-! ### Events -/

section
variable {s : State} {w n i l b c g k q cl core asid vline va ctx lvl frame node : Nat} {x : DWord} {pkt : List Byte} {seats : List (List Nat)}

theorem GoesOn.execClauseStart : GoesOn (execClauseStart w s) := by
  unfold Machine.execClauseStart
  split
  · exact .next
  · exact .when

theorem GoesOn.execResultWriteback : GoesOn (execResultWriteback n s) := by
  unfold Machine.execResultWriteback
  split
  · exact .next
  · exact .when

theorem GoesOn.execRunaheadStop : GoesOn (execRunaheadStop w s) := by
  unfold Machine.execRunaheadStop
  split
  · exact .next
  · exact .when

theorem GoesOn.execPageBatchResolved : GoesOn (execPageBatchResolved w s) := by
  unfold Machine.execPageBatchResolved
  split
  · exact .next
  · exact .when

theorem GoesOn.execMapPage : GoesOn (execMapPage asid va lvl x s) := by
  unfold Machine.execMapPage
  split
  · exact .next
  · exact .when

theorem GoesOn.execPlacementStarve : GoesOn (execPlacementStarve l s) := by
  unfold Machine.execPlacementStarve
  split
  · exact .next
  · exact .when

theorem GoesOn.execCopySourceReadDone : GoesOn (execCopySourceReadDone i s) := by
  unfold Machine.execCopySourceReadDone
  split
  · exact .next
  · exact .when

theorem GoesOn.execCopyComplete : GoesOn (execCopyComplete i s) := by
  unfold Machine.execCopyComplete
  split
  · exact .next
  · exact .when

theorem GoesOn.execMmaRestart : GoesOn (execMmaRestart cl core s) := by
  unfold Machine.execMmaRestart
  split
  · exact .next
  · exact .when

theorem GoesOn.execRtimeout : GoesOn (execRtimeout n s) := by
  unfold Machine.execRtimeout
  split
  · exact .next
  · exact .when

theorem GoesOn.execRestackSwitch : GoesOn (execRestackSwitch s) := by
  unfold Machine.execRestackSwitch
  split
  · exact .next
  · exact .when

theorem GoesOn.execClauseFetchResolved : GoesOn (execClauseFetchResolved w s) := by
  unfold Machine.execClauseFetchResolved
  split
  · exact .when
  · exact .next

theorem GoesOn.execGangPlace : GoesOn (execGangPlace l cl seats s) := by
  unfold Machine.execGangPlace
  split
  · exact .when
  · exact .next

theorem GoesOn.execYieldExpire : GoesOn (execYieldExpire w s) := by
  unfold Machine.execYieldExpire
  split
  · exact .when
  · exact .next

theorem GoesOn.execCounterPoll : GoesOn (execCounterPoll w s) := by
  unfold Machine.execCounterPoll
  split <;> exact .next

theorem GoesOn.execAccessPerformed {r : AccRef} : GoesOn (execAccessPerformed r s) := by
  unfold Machine.execAccessPerformed
  split <;> exact .next

theorem GoesOn.execCopyStart : GoesOn (execCopyStart cl core s) := by
  unfold Machine.execCopyStart
  dsimp only
  split
  · exact .next
  · exact .when

theorem GoesOn.execOwnershipGrant : GoesOn (execOwnershipGrant cl core asid vline s) := by
  unfold Machine.execOwnershipGrant
  exact .ite (.ite .next .next) .next

theorem GoesOn.execLineFill {level : CacheLevel} {victim : Option (Nat × Nat)} : GoesOn (execLineFill level cl core asid vline victim s) := by
  unfold Machine.execLineFill
  split
  · exact .next
  · cases level <;> exact .when

theorem GoesOn.execFenceComplete : GoesOn (execFenceComplete w s) := by
  unfold Machine.execFenceComplete
  split
  · exact .next
  · split
    · refine .ite .next ?_
      dsimp only
      split <;> exact .next
    · split
      · exact .next
      · exact .when

theorem GoesOn.execBlockFinish : GoesOn (execBlockFinish b s) := by
  unfold Machine.execBlockFinish
  split
  · exact .next
  · exact .ite .next (.ite .next .next)

theorem GoesOn.execTicketRelease : GoesOn (execTicketRelease l s) := by
  unfold Machine.execTicketRelease
  split
  · exact .next
  · refine .ite .next ?_
    dsimp only
    split
    · exact .next
    · exact .ite .when (.ite .next (.ite .next (.ite .next .next)))

theorem GoesOn.execCopyFail : GoesOn (execCopyFail i s) := by
  unfold Machine.execCopyFail
  split
  · exact .next
  · refine .ite .next ?_
    split
    · exact .when
    · refine .ite .next ?_
      dsimp only
      split
      · exact .next
      · exact .ite .next .next

theorem GoesOn.execCopyPageResolved : GoesOn (execCopyPageResolved i s) := by
  unfold Machine.execCopyPageResolved
  split
  · exact .next
  · split
    · exact .next
    · exact .when

theorem GoesOn.execMmaStart : GoesOn (execMmaStart cl core s) := by
  unfold Machine.execMmaStart
  split
  · exact .next
  · refine .ite .next ?_
    split
    · exact .when
    · exact .next

theorem GoesOn.execMmaBandCommit : GoesOn (execMmaBandCommit cl core s) := by
  unfold Machine.execMmaBandCommit
  split
  · exact .next
  · exact .ite .next (.ite (.ite .next (.ite .next (.ite .next .next))) .next)

theorem GoesOn.execMmaFail : GoesOn (execMmaFail cl core s) := by
  unfold Machine.execMmaFail
  split
  · exact .next
  · refine .ite .next (.ite ?_ (.ite .next ?_))
    · split <;> exact .next
    · split
      · exact .next
      · exact .ite .next (.ite .next .next)

theorem GoesOn.execIssueWaitEnd : GoesOn (execIssueWaitEnd w s) := by
  unfold Machine.execIssueWaitEnd
  split
  · exact .next
  · split
    · exact .when
    all_goals exact .next

theorem GoesOn.execRequestPerform : GoesOn (execRequestPerform n i s) := by
  unfold Machine.execRequestPerform
  split
  · exact .ite .next .when
  · exact .next

theorem GoesOn.execPacketAccept : GoesOn (execPacketAccept ctx q s) := by
  unfold Machine.execPacketAccept
  split
  · split
    · exact .next
    · refine .ite .next ?_
      dsimp only
      split
      · exact .next
      · exact .ite .next .next
  · exact .next

theorem GoesOn.execPacketForward : GoesOn (execPacketForward ctx q s) := by
  unfold Machine.execPacketForward
  split
  · split
    · exact .next
    · exact .ite .next (.ite .next .next)
  · exact .next

theorem GoesOn.execForwardAnswer {held : Bool} {reason : Nat} : GoesOn (execForwardAnswer ctx q held reason s) := by
  unfold Machine.execForwardAnswer
  split
  · exact .next
  · split
    · exact .next
    · exact .ite .next .next

theorem GoesOn.execForwardReceive : GoesOn (execForwardReceive node asid q pkt s) := by
  unfold Machine.execForwardReceive
  refine .ite .next ?_
  split
  · exact .next
  · refine .ite .next ?_
    split <;> exact .next

theorem GoesOn.execRecordRead : GoesOn (execRecordRead l s) := by
  unfold Machine.execRecordRead
  split
  · exact .next
  · refine .ite .next ?_
    dsimp only
    split
    · exact .next
    · exact .next
    · exact .next
    · refine .ite .next (.ite (.ite ?_ .next) (.ite .next .next))
      split <;> exact .next

theorem GoesOn.execContextSwitch : GoesOn (execContextSwitch c s) := by
  unfold Machine.execContextSwitch
  split
  · exact .next
  · exact .ite .next (.ite .next .next)

theorem GoesOn.execRestore : GoesOn (execRestore g cl seats s) := by
  unfold Machine.execRestore
  split
  · exact .next
  · exact .ite .next .when

theorem GoesOn.execPeerAnswer {vals : List DWord} : GoesOn (execPeerAnswer n vals s) := by
  unfold Machine.execPeerAnswer
  split
  · exact .next
  · exact .ite .next .next

theorem GoesOn.execRemote {reason : Nat} : GoesOn (execRemote n reason s) := by
  unfold Machine.execRemote
  split
  · exact .next
  · dsimp only
    split
    · exact .next
    · exact .when

theorem GoesOn.execInboundRequest {r : InReq} : GoesOn (execInboundRequest r s) := by
  unfold Machine.execInboundRequest
  refine .ite .next ?_
  split
  · exact .next
  · exact .next
  · exact .ite .next .when

theorem GoesOn.execFlowbroken {f : FlowRef} : GoesOn (execFlowbroken f s) := by
  unfold Machine.execFlowbroken
  split
  · split
    · exact .next
    · exact .when
  · exact .when

theorem GoesOn.execFlowSkip {f : FlowRef} : GoesOn (execFlowSkip f s) := by
  unfold Machine.execFlowSkip
  split
  · split
    · exact .next
    · dsimp only
      split <;> exact .next
  · dsimp only
    split <;> exact .next

theorem GoesOn.execWindowRecall : GoesOn (execWindowRecall n s) := by
  unfold Machine.execWindowRecall
  dsimp only
  split
  · exact .next
  · split
    · exact .next
    · exact .when
    · exact .next

theorem GoesOn.execMailboxMessage {m : HostMsg} : GoesOn (execMailboxMessage m s) := by
  unfold Machine.execMailboxMessage
  split
  · exact .ite .next .next
  all_goals exact .next

theorem GoesOn.execPageWalk : GoesOn (execPageWalk asid va s) := by
  unfold Machine.execPageWalk
  split
  · exact .next
  · dsimp only
    split
    · exact .next
    · refine .ite .next ?_
      split <;> exact .next

theorem GoesOn.execMigrationStart : GoesOn (execMigrationStart asid va frame s) := by
  unfold Machine.execMigrationStart
  split
  · dsimp only
    split
    · exact .next
    · exact .ite .next .next
  · exact .next

theorem GoesOn.execMigrationPull : GoesOn (execMigrationPull asid va s) := by
  unfold Machine.execMigrationPull
  dsimp only
  split
  · exact .next
  · exact .when

theorem GoesOn.execLcbaseWrite : GoesOn (execLcbaseWrite ctx n x s) := by
  unfold Machine.execLcbaseWrite
  split
  · exact .next
  · exact .ite .next .next

theorem GoesOn.execEccError {site : EccSite} : GoesOn (execEccError site s) := by
  unfold Machine.execEccError
  split
  case h_1 => exact .ite .next .next
  case h_3 | h_4 | h_10 => exact .when
  case h_9 =>
    split
    · exact .ite .next (.ite .next .next)
    · exact .next
  all_goals exact .next

theorem GoesOn.execRestackOverrun : GoesOn (execRestackOverrun s) := by
  unfold Machine.execRestackOverrun
  split
  · exact .next
  · exact .ite .next .next

theorem GoesOn.execControlWrite {w : CtlWrite} : GoesOn (execControlWrite w s) := by
  unfold Machine.execControlWrite
  cases w with
  | newContext | ctxEntry | queueDesc | word | node | powerLimit | bar2 => exact .when
  | cxctl | inWindow =>
    dsimp only
    split
    · exact .next
    · exact .when
  | _ => exact .next

/-- Each instruction issues for the warp that stands at its word, and each event is taken or leaves the state as it was (R65, R85, R276, R305). -/
theorem GoesOn.exec {i : Instr} (may : i.isWord = true → s.canIssue s.cur = true) : GoesOn (exec i s) := by
  unfold Machine.exec
  cases i with
  | iadd | iaddImm | isub | isubImm | imul | imulImm | imulhi | imad | imin | imax | iabs | ineg | iclamp | and | andImm | or | orImm
  | xor | xorImm | andn | andnImm | not | shl | shlImm | shr | shrImm | sar | sarImm | rotl | rotlImm | bfx | bfxImm | bfi | bfiImm
  | clz | popc | brev | mov | movi | movh => exact .intAlu (may rfl)
  | imadw | lea | i2i | fclass | f2f | f2i | i2f | fdot2 => exact .alu (may rfl)
  | icmp | icmpImm | fcmp | fcmpImm => exact .cmpAlu (may rfl)
  | fadd | faddImm | fsub | fmul | fmulImm | ffma | fmin | fminImm | fmax | fmaxImm | fdiv | frnd => exact .floatAlu (may rfl)
  | frcp | frsq | fsqrt | fexp2 | flog2 | fsin | fcos => exact .funAlu (may rfl)
  | ld | ldIdx => exact .loadInstr (may rfl)
  | st | stIdx => exact .storeInstr (may rfl)
  | prefetch | prefetchIdx | cflush | cinv | cdemote => exact .lineInstr (may rfl)
  | atomAdd | atomMin | atomMax | atomAnd | atomOr | atomXor | atomExch | atomcas | redAdd | redMin | redMax | redAnd | redOr
  | redXor => exact .atomInstr (may rfl)
  | lcadd | lcmrg => exact .lcAddInstr (may rfl)
  | lcrd | lcrdRaw => exact .lcReadInstr (may rfl)
  | leaseDecl | leaseMeas => exact .leaseInstr (may rfl)
  | ctrinit | ctradd | ctraddImm | ctrrd | ctrkill | ctrkillFree => exact .ctrInstr (may rfl)
  | ctrwait | ctrwaitImm => exact .waitInstr (may rfl)
  | vxor | vrot | vrev | vbcast => exact .patEdit (may rfl)
  | vany | vall => exact .voteAlu (may rfl)
  | copy | gather | scatter | unpack => exact .copyInstr (may rfl)
  | brx | ret => exact .indirect (may rfl)
  | rdsr | rdtime => exact .readSr (may rfl)
  | rand => unfold execRand; exact .alu (may rfl)
  | sel | bcvt | bdot | bunp | vshuf | vtrn | vcompact | vexpand | vfire | vmaprd | vfirst | vballot | vmatch | vactive | vred | vscan
  | vsegred | vsort | vtopk | vtopkMulti | vbin | ldx | stx | ldrec | ststash | scadd | lcinit | fence | fenceop | drain | ctrarv | bcopy
  | mma | maccrd | maccwr | maccz | bra | call | exit | join | yield | nop | launch | trap | brk | wrsr =>
    dsimp -zeta only [execSel, execBcvt, execBdot, execBunp, execVshuf, execVtrn, execVcompact, execVexpand, execVfire, execVmaprd, execVfirst,
      execVballot, execVmatch, execVactive, execVred, execVscan, execVsegred, execVsort, execVtopk, execVtopkMulti, execVbin, execLdx, execStx,
      execLdrec, execStstash, execScadd, execLcinit, execFence, execFenceop, execDrain, execCtrarv, execBcopy, execMma, execMaccrd, execMaccwr,
      execMaccz, execBra, execCall, execExit, execJoin, execYield, execNop, execLaunch, execTrap, execBrk, execWrsr]
    exact .issue (may rfl)
  | launchStart | signal | seed | resumeRetry | resumeSkip | resumeDiverge | resumeKill | preempt | shelfHeartbeatTimeout | thermalThrottle
  | counterWake | thermalTrip => exact .next
  | packetSubmit | sliceBoundary | leaseWindowEnd | cone | saggarReset | routeChange | ptpLock | boundsEntryWrite | partitionWrite | restack
  | throttleStep | throttleRaise | firmwareUpdate | attestationReport | boundsHitClear => exact .when
  | clauseStart => exact .execClauseStart
  | clauseFetchResolved => exact .execClauseFetchResolved
  | issueWaitEnd => exact .execIssueWaitEnd
  | resultWriteback => exact .execResultWriteback
  | ownershipGrant => exact .execOwnershipGrant
  | lineFill => exact .execLineFill
  | pageWalk => exact .execPageWalk
  | runaheadStop => exact .execRunaheadStop
  | pageBatchResolved => exact .execPageBatchResolved
  | mapPage => exact .execMapPage
  | migrationStart => exact .execMigrationStart
  | migrationPull => exact .execMigrationPull
  | packetAccept => exact .execPacketAccept
  | packetForward => exact .execPacketForward
  | forwardReceive => exact .execForwardReceive
  | forwardAnswer => exact .execForwardAnswer
  | gangPlace => exact .execGangPlace
  | placementStarve => exact .execPlacementStarve
  | recordRead => exact .execRecordRead
  | blockFinish => exact .execBlockFinish
  | yieldExpire => exact .execYieldExpire
  | counterPoll => exact .execCounterPoll
  | requestPerform => exact .execRequestPerform
  | fenceComplete => exact .execFenceComplete
  | copyStart => exact .execCopyStart
  | copySourceReadDone => exact .execCopySourceReadDone
  | copyComplete => exact .execCopyComplete
  | copyFail => exact .execCopyFail
  | copyPageResolved => exact .execCopyPageResolved
  | mmaStart => exact .execMmaStart
  | mmaBandCommit => exact .execMmaBandCommit
  | mmaRestart => exact .execMmaRestart
  | mmaFail => exact .execMmaFail
  | ticketRelease => exact .execTicketRelease
  | restore => exact .execRestore
  | contextSwitch => exact .execContextSwitch
  | eccError => exact .execEccError
  | inboundRequest => exact .execInboundRequest
  | remote => exact .execRemote
  | peerAnswer => exact .execPeerAnswer
  | rtimeout => exact .execRtimeout
  | flowbroken => exact .execFlowbroken
  | flowSkip => exact .execFlowSkip
  | windowRecall => exact .execWindowRecall
  | mailboxMessage => exact .execMailboxMessage
  | lcbaseWrite => exact .execLcbaseWrite
  | controlWrite => exact .execControlWrite
  | accessPerformed => exact .execAccessPerformed
  | restackSwitch => exact .execRestackSwitch
  | restackOverrun => exact .execRestackOverrun
  | flitReplay => exact .ite .next (.ite .next .next)
  | flr | moduleReset | fullService => exact .ite .next .next
  -- What is left is the recall of a page, whose constructor's name Mathlib reads as a command.
  | _ => exact .ite .next .next

end

/-! ### Turns -/

/-- A turn issues only for a warp that stands at a word. -/
theorem GoesOn.issueWord {s : State} {w : Nat} (h : s.canIssue w = true) : GoesOn (s.issueWord w) := by
  have there : ({ s.coneReset w with cur := w } : State).canIssue w = true := h
  unfold State.issueWord
  dsimp only
  split
  · exact .exec fun _ => there
  · exact .illegalWord there

theorem GoesOn.turn {s : State} {t : Turn} : GoesOn (s.turn t) := by
  cases t with
  | event i =>
    cases kind : i.isWord with
    | true => exact ⟨s, if_pos kind⟩
    | false => exact (State.turn_event kind).symm ▸ .exec (by simp [kind])
  | issue w =>
    show GoesOn (if (s.takePipe w).canIssue w then (s.takePipe w).issueWord w else .next s)
    split
    next can => exact .issueWord can
    · exact .next
  | tick n ns => exact .next

theorem GoesOn.step {s : State} : GoesOn (step s) := by
  unfold Machine.step
  split
  · exact .next
  · exact .turn

end Sys2Proof.Machine
end

section
/-! THEOREM. The machine never stops (R65, R85, R276, R305). -/

/-- Settles O56: the first turn of a plan is an event, which has no fault; the issue of a warp, which has one only where the warp stands at no word, and
then the turn does not issue; or time that passes. -/
theorem everyStepGoesOn : Obligations.EveryStepGoesOn := by
  unfold Obligations.EveryStepGoesOn
  exact fun _ => Sys2Proof.Machine.GoesOn.step
end

section
/-! SUPPORT. Sources and the anchors they give: the tag of a source describes its map, a thread without a slot has a VOID source, and results written at such an
anchor reach their threads (R48 to R53, R55). -/
namespace Sys2Proof.Machine
set_option Elab.async false

/-! ### Sources (R48) -/

/-- A source that has a map: its tag describes the map, and a thread that the map gives no slot has no value. -/
structure Src.Sound (x : Src) (mt : List MapTable) : Prop where
  tag : x.mapped = true → ∀ t, x.tag = some t → ∀ i < 32, (tagMap mt t).at i = x.map.at i
  slot : x.mapped = true → ∀ i < 32, (x.at i).isSome = true → (x.map.at i).isSome = true

theorem Src.Sound.of_unmapped {x : Src} (h : x.mapped = false) (mt : List MapTable) : x.Sound mt where
  tag on := by rw [h] at on; cases on
  slot on := by rw [h] at on; cases on

theorem threads_map_getD {α : Type} (f : Nat → Option α) {t : Nat} (ht : t < 32) : (threads.map f).getD t none = f t := by simp [threads, ht]

theorem Src.bcast_at (v : DWord) {t : Nat} (ht : t < 32) : (Src.bcast v).at t = some v := threads_map_getD (fun _ => some v) ht

/-- A register or pair gives a thread its element (R36, R48, R76). -/
theorem srcReg_at (r : Regs) (g : Reg) (wide : Bool) {t : Nat} (ht : t < 32) : (srcReg r g wide).at t = r.element wide g t :=
  threads_map_getD (fun t => r.element wide g t) ht

theorem srcReg_sound (r : Regs) (g : Reg) (wide : Bool) : (srcReg r g wide).Sound r.mt := by
  have map : (srcReg r g wide).map = r.map g := by cases wide <;> rfl
  refine ⟨fun _ t ht i _ => ?_, fun _ i hi some_ => ?_⟩
  · obtain rfl := Option.some.inj ht
    rw [map]
    rfl
  · rw [srcReg_at r g wide hi, Regs.element] at some_
    rw [map]
    cases slot : (r.map g).at i with
    | some p => rfl
    | none =>
      have void : r.elem g i = none := by rw [Regs.elem, slot]; rfl
      rw [void] at some_
      cases wide <;> cases some_

/-- An L entry that stands for a register is a source like one (R40, R77). -/
theorem srcL_sound {e : LEntry} (ok : e.ok = true) (mt : List MapTable) : (srcL e).Sound mt := by
  unfold srcL
  split
  next => exact .of_unmapped rfl mt
  next scalar =>
    simp only [LEntry.ok, scalar, Bool.false_or, Bool.and_eq_true, Bool.or_eq_true, List.all_eq_true, mem_threads, beq_iff_eq] at ok
    obtain ⟨-, described⟩ := ok
    refine ⟨fun _ t ht i hi => ?_, fun _ i hi some_ => ?_⟩
    · simp only at ht
      split at ht
      next => cases ht
      next table =>
        obtain rfl := Option.some.inj ht
        have here := described.resolve_left table i hi
        refine Eq.trans ?_ here
        unfold tagMap
        split
        · exact absurd ‹_› table
        · rfl
        · rfl
    · simp only [Src.at, threads_map_getD _ hi, Option.isSome_map] at some_
      exact some_

/-- Every operand of a ready instruction is a sound source. -/
theorem ready?_src_sound {s : State} {d : Need} {e : Env} (hr : s.ready? d = some e) (hs : s.shaped = true) (ty : Ty) (x : Opnd) :
    (e.src ty x).Sound e.regs.mt := by
  cases x with
  | v n => exact srcReg_sound ..
  | o n => exact srcReg_sound ..
  | l n => exact srcL_sound (ready?_lent_ok hr hs n) _
  | s n => exact .of_unmapped rfl _
  | c k => exact .of_unmapped rfl _
  | vz => exact .of_unmapped rfl _
  | vtid => exact .of_unmapped rfl _
  | vlane => exact .of_unmapped rfl _

/-! ### Anchors of sources (R50 to R52) -/

/-- The anchor that IDENT gives. -/
def identAnchor : Anchor := { slots := .ident, byRef := some (mkTag 0 0 0 0), fire := false, keep := .ident }

/-- The anchor that a mapped source gives. -/
def Src.anchor (x : Src) : Anchor := { slots := x.map, byRef := x.tag, fire := false, keep := x.map }

theorem pickAnchor_cases (srcs : List Src) (ok : Src → Bool) : pickAnchor srcs ok = (.ident, some (mkTag 0 0 0 0)) ∨
    ∃ x ∈ srcs, x.mapped = true ∧ pickAnchor srcs ok = (x.map, x.tag) := by
  unfold pickAnchor
  split
  next x found =>
    have what := List.find?_some found
    rw [Bool.and_eq_true] at what
    exact .inr ⟨x, List.mem_of_find?_eq_some found, what.1, rfl⟩
  next => exact .inl rfl

/-- On a full warp IDENT anchors a result, or one of its mapped sources. -/
theorem fullAnchor_cases (srcs : List Src) : fullAnchor srcs = identAnchor ∨ ∃ x ∈ srcs, x.mapped = true ∧ fullAnchor srcs = x.anchor := by
  have sub : ∀ x ∈ srcs.filter (fun x => x.mapped || x.gen), x ∈ srcs := fun x hx => List.mem_of_mem_filter hx
  unfold fullAnchor
  simp only
  generalize srcs.filter (fun x => x.mapped || x.gen) = vec at sub ⊢
  split
  next x =>
    cases mapped : x.mapped with
    | true => exact .inr ⟨x, sub x (List.mem_singleton_self x), mapped, rfl⟩
    | false => exact .inl rfl
  next =>
    obtain ident | ⟨x, mem, mapped, source⟩ := pickAnchor_cases srcs Src.inj
    · rw [ident]
      exact .inl rfl
    · rw [source]
      exact .inr ⟨x, mem, mapped, rfl⟩

theorem identAnchor_ok (mt : List MapTable) : identAnchor.ok mt := by
  intro t ht i hi
  obtain rfl : mkTag 0 0 0 0 = t := Option.some.inj ht
  exact canonTag_map (m := .ident) (by simp [canonTag]) mt hi

theorem anchorOf_part (r : Regs) (ds : List Reg) {act : Mask} (part : act ≠ fullMask) (srcs : List Src) :
    anchorOf r ds act srcs = partAnchor r ds act := if_neg (by simpa using part)

/-- The tag of an anchor describes the map that its destination keeps. -/
theorem anchorOf_ok {r : Regs} (ds : List Reg) (act : Mask) {srcs : List Src} (sound : ∀ x ∈ srcs, x.Sound r.mt) : (anchorOf r ds act srcs).ok r.mt := by
  by_cases full : act = fullMask
  · rw [anchorOf, if_pos (beq_iff_eq.mpr full)]
    obtain ident | ⟨x, mem, mapped, source⟩ := fullAnchor_cases srcs
    · rw [ident]
      exact identAnchor_ok r.mt
    · rw [source]
      exact (sound x mem).tag mapped
  · rw [anchorOf_part r ds full, ← anchorOf_part r ds full []]
    exact anchorOf_plain_ok r ds act

/-- A thread none of whose sources is VOID has a slot at the anchor. -/
theorem anchorOf_slot {r : Regs} (ds : List Reg) (act : Mask) {srcs : List Src} (sound : ∀ x ∈ srcs, x.Sound r.mt) {t : Nat} (ht : t < 32)
    (valued : srcVoid srcs t = false) : ((anchorOf r ds act srcs).slots.at t).isSome = true := by
  by_cases full : act = fullMask
  · rw [anchorOf, if_pos (beq_iff_eq.mpr full)]
    obtain ident | ⟨x, mem, mapped, source⟩ := fullAnchor_cases srcs
    · rw [ident, show identAnchor.slots = .ident from rfl, ident_at ht]
      rfl
    · rw [source]
      refine (sound x mem).slot mapped t ht ?_
      simpa [mapped, Option.isSome_iff_ne_none] using List.any_eq_false.mp valued x mem
  · rw [anchorOf_part r ds full, ← anchorOf_part r ds full []]
    exact anchorOf_plain_slot r ds act ht

/-! ### Results at the anchor of their sources -/

/-- Writing results rests on the results of the 32 threads alone. -/
theorem writeAt_congr {r : Regs} {ds : List Reg} {act : Mask} {an : Anchor} {res res' : Nat → Option DWord} (h : ∀ t < 32, res t = res' t) :
    writeAt r ds act an res = writeAt r ds act an res' := by
  have placed : placedResults r ds act an res = placedResults r ds act an res' :=
    List.foldl_ext _ _ _ fun q t ht => by rw [writeStep, writeStep, h t (mem_threads.mp ht)]
  have map : resultMap act an res = resultMap act an res' := by
    unfold resultMap LMap.ofFn
    exact List.map_congr_left fun t ht => by rw [h t (mem_threads.mp ht)]
  rw [writeAt_eq, writeAt_eq, placed, map]

/-- Registers hold the results of a computation (R50 to R53): the destination each active thread's, inactive threads their elements, and other registers what
they held. -/
structure Computed (r q : Regs) (wide : Bool) (d : Reg) (ds : List Reg) (act : Mask) (slots : LMap) (res : Nat → Option DWord) : Prop where
  active : ∀ t < 32, inMask act t = true →
    q.element wide d t = (res t).bind (fun _ => (res (lastThere act slots res t)).map (fitWidth wide))
  idle : wide = false → KeepsInactive r q act d
  frame : RegsLeave r q ds
  rest : q.sameRest r

/-- Inactive threads keep their elements where a destination of 32 bits is written (R52). -/
theorem writeAt_idle {r : Regs} {d : Reg} {act : Mask} {srcs : List Src} {res : Nat → Option DWord} {l : LaneRes}
    (h : writeAt r [d] act (anchorOf r [d] act srcs) res = .ok l) (hv : d.isVec) (hd : r.has d) (fit : r.Fit) : KeepsInactive r l.regs act d := by
  by_cases full : act = fullMask
  · intro u hu off
    rw [full, inMask_full hu] at off
    cases off
  · rw [anchorOf_part r [d] full] at h
    exact (writeAt_given h hv hd fit (partAnchor_apart act res hv hd)).idle

/-- Results are computed into a V or O destination where their map fits. -/
theorem laneCompute_spec {r : Regs} {wide : Bool} {d : Reg} {ds : List Reg} {act : Mask} {srcs : List Src} (f : Nat → List DWord → DWord)
    (hds : DstRegs wide d ds) (hv : d.isVec) (has : ∀ e ∈ ds, r.has e) (fit : r.Fit) (sound : ∀ x ∈ srcs, x.Sound r.mt)
    (room : mapFits r ds (resultMap act (anchorOf r ds act srcs) (resultOf srcs (anchorOf r ds act srcs).slots f)) = true) :
    ∃ l, laneCompute r ds act srcs f = .ok l ∧
      Computed r l.regs wide d ds act (anchorOf r ds act srcs).slots (resultOf srcs (anchorOf r ds act srcs).slots f) := by
  have slot := fun t ht => anchorOf_slot (r := r) ds act sound (t := t) ht
  have ok := anchorOf_ok (r := r) ds act sound
  have idle : ∀ res l, wide = false → writeAt r ds act (anchorOf r ds act srcs) res = .ok l → KeepsInactive r l.regs act d := by
    intro res l narrow h
    obtain rfl : ds = [d] := hds.trans (by rw [narrow]; rfl)
    exact writeAt_idle h hv (has d (List.mem_singleton_self d)) fit
  have unfolded : laneCompute r ds act srcs f = (writeAt r ds act (anchorOf r ds act srcs) (fun t =>
      if srcVoid srcs t || ((anchorOf r ds act srcs).slots.at t).isNone then none
      else some (f t (argsAt srcs (anchorOf r ds act srcs).slots t)))).map (fun w =>
        { w with extra := w.extra + sourceMoves srcs (anchorOf r ds act srcs).slots act
                 lanemove := w.lanemove + sourceMoves srcs (anchorOf r ds act srcs).slots act }) := by
    subst hds
    cases wide <;> rfl
  generalize anchorOf r ds act srcs = an at *
  have same : ∀ t < 32, (if srcVoid srcs t || (an.slots.at t).isNone then none else some (f t (argsAt srcs an.slots t))) = resultOf srcs an.slots f t := by
    intro t ht
    unfold resultOf
    cases void : srcVoid srcs t with
    | true => rfl
    | false => simp [Option.isSome_iff_ne_none.mp (slot t ht void)]
  rw [writeAt_congr same] at unfolded
  have placed := SlotsOnly.placedResults r ds act an (resultOf srcs an.slots f)
  obtain ⟨w, hw⟩ := writeMap_ok (if resultMap act an (resultOf srcs an.slots f) == an.keep then an.byRef else none)
    (mapFits_congr room placed.mt (fun e _ => placed.tag e))
  obtain ⟨l, hl⟩ : ∃ l, writeAt r ds act an (resultOf srcs an.slots f) = .ok l := ⟨_, by rw [writeAt_eq, hw]; rfl⟩
  obtain ⟨active, others, rest⟩ := writeAt_spec hl hds hv has fit.tables fit.slots ok (fun t ht _ has_ => slot t ht (by
    unfold resultOf at has_
    cases void : srcVoid srcs t with
    | true => simp [void] at has_
    | false => rfl))
  refine ⟨{ l with extra := l.extra + sourceMoves srcs an.slots act, lanemove := l.lanemove + sourceMoves srcs an.slots act },
    by rw [unfolded, hl]; rfl, active, fun narrow => idle _ l narrow hl, ⟨others, fun n _ => ?_, fun n _ => ?_, fun k hk => writeAt_ents hl hk⟩, rest⟩
  · obtain ⟨hs, -⟩ := rest
    rw [← hs]
  · obtain ⟨-, hp, -⟩ := rest
    rw [← hp]

end Sys2Proof.Machine
end

section
/-! SUPPORT. Instructions that compute a V, O or S destination from sources, or decide a predicate: each yields what its body says of a thread's elements
(R130 to R133). -/
namespace Sys2Proof.Machine
set_option Elab.async false

/-! ### One body for another -/

theorem lowestOf_lt (m : Mask) : lowestOf m < 32 := by
  unfold lowestOf
  cases found : threads.find? (inMask m) with
  | none => exact Nat.zero_lt_succ _
  | some t => exact mem_threads.mp (List.mem_of_find?_eq_some found)

theorem laneCompute_congr (r : Regs) (ds : List Reg) (act : Mask) (srcs : List Src) {f g : Nat → List DWord → DWord}
    (h : ∀ t < 32, ∀ l, f t l = g t l) : laneCompute r ds act srcs f = laneCompute r ds act srcs g := by
  cases ds with
  | nil => rfl
  | cons d ds =>
    unfold laneCompute
    simp only
    rw [writeAt_congr fun t ht => by rw [h t ht]]

/-- A computation is what it gives each of the 32 threads. -/
theorem Env.compute_congr (e : Env) (n : Need) (d : Opnd) (wide : Bool) (srcs : List Src) {f g : Nat → List DWord → DWord}
    (h : ∀ t < 32, ∀ l, f t l = g t l) : e.compute n d wide srcs f = e.compute n d wide srcs g := by
  unfold Env.compute
  split
  next k => rw [h _ (lowestOf_lt _)]
  all_goals rw [laneCompute_congr _ _ _ _ h]

/-! ### S destinations (R131) -/

/-- Broadcast sources have one list of values for every thread. -/
theorem argsAt_of_bcast {srcs : List Src} (h : ∀ x ∈ srcs, ∃ v, x = .bcast v) (slots : LMap) {t : Nat} (ht : t < 32) :
    argsAt srcs slots t = srcs.map (fun x => (x.at 0).getD 0) := by
  refine List.map_congr_left fun x hx => ?_
  obtain ⟨v, rfl⟩ := h x hx
  rw [Src.bcast_at v ht, Src.bcast_at v (Nat.zero_lt_succ 31)]
  rfl

theorem srcVoid_of_bcast {srcs : List Src} (h : ∀ x ∈ srcs, ∃ v, x = .bcast v) (t : Nat) : srcVoid srcs t = false := by
  refine List.any_eq_false.mpr fun x hx => ?_
  obtain ⟨v, rfl⟩ := h x hx
  exact Bool.false_ne_true

/-- An S register or a short constant is one value for every thread. -/
theorem src_bcast_of_isSC (e : Env) (ty : Ty) {x : Opnd} (h : x.isSC = true) : ∃ v, e.src ty x = .bcast v := by
  cases x with
  | s n => exact ⟨_, rfl⟩
  | c k => exact ⟨_, rfl⟩
  | _ => cases h

/-! ### V and O destinations (R130) -/

theorem dstRegs_of_isVO {d : Opnd} {wide : Bool} (h : d.isVO wide = true) : DstRegs wide (regOf d) (opndRegs wide d) := by
  cases d with
  | v n => rfl
  | o n => rfl
  | _ => cases h

theorem compute_of_isVO (e : Env) (n : Need) {d : Opnd} {wide : Bool} (h : d.isVO wide = true) (srcs : List Src) (f : Nat → List DWord → DWord) :
    e.compute n d wide srcs f = e.lanes n (laneCompute e.regs (opndRegs wide d) e.act srcs f) := by
  cases d with
  | s n => cases h
  | _ => rfl

theorem Delivered.of_isVO {r : Regs} {d : Opnd} {wide : Bool} (h : d.isVO wide = true) {act : Mask} {slots : LMap} {res : Nat → Option DWord}
    (active : ∀ t < 32, inMask act t = true →
      r.element wide (regOf d) t = (res t).bind (fun _ => (res (lastThere act slots res t)).map (fitWidth wide))) : Delivered r wide d act slots res := by
  cases d with
  | s n => cases h
  | _ => exact active

theorem isS_of_isVO {d : Opnd} {wide : Bool} (h : d.isVO wide = true) : d.isS = false := by
  cases d with
  | s n => cases h
  | _ => rfl

theorem Regs.sameData.elem {r q : Regs} (h : r.sameData q) (x : Reg) (t : Nat) : r.elem x t = q.elem x t := by
  obtain ⟨-, -, -, -, tables⟩ := id h
  rw [Regs.elem, Regs.elem, Regs.map, Regs.map, h.vreg, tables]

/-! ### Instructions that compute -/

/-- An instruction whose body computes from sound sources yields what the body gives each thread; an S destination admits broadcast sources alone (R75). -/
theorem Computes.of_body {i : Instr} {n : Need} {d : Opnd} {wide : Bool} {srcs : Env → List Src} {f g : Env → Nat → List DWord → DWord}
    (run : ∀ s, exec i s = issue n (fun e => e.compute n d wide (srcs e) (g e)) s) (writes : n.writes = opndRegs wide d)
    (dst : i.wf = true → d.dst wide = true) (scalar : i.wf = true → d.isS = true → ∀ e, ∀ x ∈ srcs e, ∃ v, x = .bcast v)
    (sound : ∀ (s : State) e, s.shaped = true → s.ready? n = some e → ∀ x ∈ srcs e, x.Sound e.regs.mt)
    (same : i.wf = true → ∀ e, ∀ t < 32, ∀ l, g e t l = f e t l) : Computes i n d wide srcs f := by
  intro s e wf shaped ready room
  have body : e.compute n d wide (srcs e) (g e) = e.compute n d wide (srcs e) (f e) := e.compute_congr n d wide (srcs e) (same wf e)
  obtain vo | isS : d.isVO wide = true ∨ d.isS = true := by simpa [Opnd.dst] using dst wf
  · have hv := isVec_of_isVO vo
    have hds := dstRegs_of_isVO vo
    obtain ⟨l, hl, computed⟩ := laneCompute_spec (f e) hds hv (fun g hg => ready?_has ready shaped (hds.isVec hv g hg) (by rwa [writes]))
      (ready?_fit ready shaped) (sound s e shaped ready) (room.resolve_left (by simp [isS_of_isVO vo]))
    obtain ⟨-, -, -, sb, draws⟩ := computed.rest
    have put : e.compute n d wide (srcs e) (g e) = e.lanes n (.ok l) := by rw [body, compute_of_isVO e n vo, hl]
    obtain ⟨t, ht, data, leaves⟩ := issue_lanes ready (body := fun e => e.compute n d wide (srcs e) (g e)) put computed.frame sb draws
    refine ⟨t, (run s).trans ht, .of_isVO vo fun u hu on => ?_, fun narrow _ u hu off => ?_, leaves⟩
    · rw [data.element, computed.active u hu on]
    · rw [data.elem, computed.idle narrow u hu off]
  · cases d with
    | s k =>
      have bcast := scalar wf rfl e
      have put : e.compute n (.s k) wide (srcs e) (g e) =
          e.lanes n (.ok { regs := e.regs.setCount (some k) (f e (lowestOf e.act) ((srcs e).map (fun x => (x.at 0).getD 0))) }) := body
      obtain ⟨t, ht, data, leaves⟩ := issue_lanes ready (body := fun e => e.compute n (.s k) wide (srcs e) (g e)) put
        (RegsLeave.setCount (.refl e.regs []) (some k) _) rfl rfl
      refine ⟨t, (run s).trans ht, ?_, fun _ notS => Bool.noConfusion notS, leaves⟩
      have inFile : k.val < e.regs.s.length := by
        rw [ready?_scalars ready shaped]
        exact k.isLt
      obtain ⟨-, -, scalars, -, -⟩ := data
      simp only [Delivered, resultOf, srcVoid_of_bcast bcast, argsAt_of_bcast bcast _ (lowestOf_lt _), scalars]
      simp [Regs.setCount, List.getD, inFile]
    | _ => cases isS

theorem dstOk_iff {wide : Bool} {d : Opnd} {xs : List Opnd} :
    dstOk wide d xs = true ↔ d.dst wide = true ∧ (d.isS = true → ∀ x ∈ xs, x.isSC = true) := by
  rw [dstOk, Bool.and_eq_true, Bool.or_eq_true, Bool.not_eq_true', ← Bool.not_eq_true, ← imp_iff_not_or, List.all_eq_true]

theorem isSC_of_isS {d : Opnd} (h : d.isS = true) : d.isSC = true := by
  cases d with
  | s n => rfl
  | _ => cases h

/-- An instruction of the arithmetic groups computes what its body gives each thread. -/
theorem ComputesOn.of_alu {i : Instr} {h : Head} {lat : Nat} {wide : Bool} {d : Opnd} {xs : List (Ty × Opnd)} {imm : List Src}
    {f g : Env → Nat → List DWord → DWord} {draws : Bool} (run : ∀ s, exec i s = alu h lat wide d xs imm g s draws)
    (dst : i.wf = true → dstOk wide d (xs.map Prod.snd) = true) (imms : ∀ x ∈ imm, ∃ v, x = .bcast v)
    (same : i.wf = true → ∀ e, ∀ t < 32, ∀ l, g e t l = f e t l) : ComputesOn i h lat wide d xs imm f draws := by
  have both := fun wf => dstOk_iff.mp (dst wf)
  refine Computes.of_body run rfl (fun wf => (both wf).1) (fun wf isS e x hx => ?_) (fun s e shaped ready x hx => ?_) same
  · rw [List.mem_append, List.mem_map] at hx
    obtain ⟨y, hy, rfl⟩ | hx := hx
    · exact src_bcast_of_isSC e y.1 ((both wf).2 isS y.2 (List.mem_map_of_mem hy))
    · exact imms x hx
  · rw [List.mem_append, List.mem_map] at hx
    obtain ⟨y, -, rfl⟩ | hx := hx
    · exact ready?_src_sound ready shaped y.1 y.2
    · obtain ⟨v, rfl⟩ := imms x hx
      exact .of_unmapped rfl _

/-- An instruction whose body is the function a claim names. -/
theorem ComputesOn.of_alu_exact {i : Instr} {h : Head} {lat : Nat} {wide : Bool} {d : Opnd} {xs : List (Ty × Opnd)} {imm : List Src}
    {f : Env → Nat → List DWord → DWord} {draws : Bool} (run : ∀ s, exec i s = alu h lat wide d xs imm f s draws)
    (dst : i.wf = true → dstOk wide d (xs.map Prod.snd) = true) (imms : ∀ x ∈ imm, ∃ v, x = .bcast v) : ComputesOn i h lat wide d xs imm f draws :=
  .of_alu run dst imms fun _ _ _ _ _ => rfl

theorem no_imms : ∀ x ∈ ([] : List Src), ∃ v, x = .bcast v := List.forall_mem_nil _

theorem immInt_bcast (imm : BitVec 18) : ∀ x ∈ [immInt imm], ∃ v, x = .bcast v := List.forall_mem_singleton.mpr ⟨_, rfl⟩

theorem immFloat_bcast (ty : Ty) (imm : BitVec 18) : ∀ x ∈ [immFloat ty imm], ∃ v, x = .bcast v := List.forall_mem_singleton.mpr ⟨_, rfl⟩

/-- The last of the conditions on a word. -/
theorem wf_last {i : Instr} {p q : Bool} (conditions : i.wf = (p && q)) (wf : i.wf = true) : q = true :=
  (Bool.and_eq_true_iff.mp (conditions.symm.trans wf)).2

/-- The last but one of the conditions on a word. -/
theorem wf_middle {i : Instr} {p q r : Bool} (conditions : i.wf = (p && q && r)) (wf : i.wf = true) : q = true :=
  and_middle (conditions.symm.trans wf)

/-! ### Integer instructions

What a body gives is compared with what a claim says; that `exec` runs that body, and that the word's last condition is on its destination, is read off the
instruction, so that most claims need not say it. -/

section
variable {i : Instr} {h : Head} {ty : Ty} {d a b c : Opnd} {imm : BitVec 18}

theorem Int1.of_intAlu {f g : DWord → DWord} (same : ∀ x, g x = f x)
    (run : ∀ s, exec i s = intAlu h ty d [a] [] (fun l => g (arg l 0)) s := by exact fun _ => rfl)
    (dst : i.wf = true → dstOk ty.wide d [a] = true := by exact wf_last (by rw [Sys2Proof.Instr.wf])) : Int1 i h ty d a f :=
  .of_alu run dst no_imms fun _ _ _ _ _ => same _

theorem Int2.of_intAlu {f g : DWord → DWord → DWord} (same : ∀ x y, g x y = f x y)
    (run : ∀ s, exec i s = intAlu h ty d [a, b] [] (fun l => g (arg l 0) (arg l 1)) s := by exact fun _ => rfl)
    (dst : i.wf = true → dstOk ty.wide d [a, b] = true := by exact wf_last (by rw [Sys2Proof.Instr.wf])) : Int2 i h ty d a b f :=
  .of_alu run dst no_imms fun _ _ _ _ _ => same _ _

theorem Int3.of_intAlu {f g : DWord → DWord → DWord → DWord} (same : ∀ x y z, g x y z = f x y z)
    (run : ∀ s, exec i s = intAlu h ty d [a, b, c] [] (fun l => g (arg l 0) (arg l 1) (arg l 2)) s := by exact fun _ => rfl)
    (dst : i.wf = true → dstOk ty.wide d [a, b, c] = true := by exact wf_last (by rw [Sys2Proof.Instr.wf])) : Int3 i h ty d a b c f :=
  .of_alu run dst no_imms fun _ _ _ _ _ => same _ _ _

theorem IntImm.of_intAlu {f g : DWord → DWord → DWord} (same : ∀ x y, g x y = f x y)
    (run : ∀ s, exec i s = intAlu h ty d [a] [immInt imm] (fun l => g (arg l 0) (arg l 1)) s := by exact fun _ => rfl)
    (dst : i.wf = true → dstOk ty.wide d [a] = true := by exact wf_last (by rw [Sys2Proof.Instr.wf])) : IntImm i h ty d a imm f :=
  .of_alu run dst (immInt_bcast imm) fun _ _ _ _ _ => same _ _

end

end Sys2Proof.Machine
end

section
/-! SUPPORT. Numbers at the width of a type (R105, R134, R135): the bits of a number, a word's number, and the pattern that a register holds of them. -/
namespace Sys2Proof.Machine
set_option Elab.async false

/-! ### Bits of numbers -/

theorem testBit_natCast (n i : Nat) : (n : Int).testBit i = n.testBit i := rfl

theorem testBit_negSucc (n i : Nat) : (Int.negSucc n).testBit i = !n.testBit i := rfl

theorem testBit_eq_decide (z : Int) (i : Nat) : z.testBit i = decide (z / 2 ^ i % 2 = 1) := by
  cases z with
  | ofNat n =>
    rw [Int.ofNat_eq_natCast, testBit_natCast, Nat.testBit_eq_decide_div_mod_eq]
    exact decide_eq_decide.mpr (by norm_cast)
  | negSucc n =>
    have div : Int.negSucc n / 2 ^ i = -((n / 2 ^ i : Nat) + 1) := by
      rw [Int.negSucc_ediv _ (by positivity)]
      push_cast
      rfl
    rw [testBit_negSucc, Nat.testBit_eq_decide_div_mod_eq, ← decide_not, div]
    exact decide_eq_decide.mpr (by omega)

theorem testBit_ediv_two_pow (z : Int) (k i : Nat) : (z / 2 ^ k).testBit i = z.testBit (k + i) := by
  rw [testBit_eq_decide, testBit_eq_decide, Int.ediv_ediv_of_nonneg (by positivity), ← pow_add]

/-- The low bits of a number are those of its residue. -/
theorem testBit_of_modEq {y z : Int} {w : Nat} (h : y ≡ z [ZMOD 2 ^ w]) {i : Nat} (hi : i < w) : y.testBit i = z.testBit i := by
  obtain ⟨q, hq⟩ := h.symm.dvd
  obtain ⟨k, rfl⟩ := Nat.exists_eq_add_of_lt hi
  have apart : y = z + 2 ^ i * (2 * (2 ^ k * q)) := by
    rw [show (2 : Int) ^ i * (2 * (2 ^ k * q)) = 2 ^ (i + k + 1) * q by ring]
    omega
  rw [testBit_eq_decide, testBit_eq_decide, apart, Int.add_mul_ediv_left _ _ (by positivity)]
  exact decide_eq_decide.mpr (by omega)

theorem toNat_emod_natCast (z : Int) (w : Nat) : (((z % 2 ^ w).toNat : Nat) : Int) = z % 2 ^ w :=
  Int.toNat_of_nonneg (Int.emod_nonneg _ (by positivity))

theorem toNat_emod_lt (z : Int) (w : Nat) : (z % 2 ^ w).toNat < 2 ^ w := by
  have := Int.emod_lt_of_pos z (show (0 : Int) < 2 ^ w by positivity)
  rw [← toNat_emod_natCast] at this
  exact_mod_cast this

theorem testBit_toNat_emod (z : Int) {w i : Nat} (hi : i < w) : (z % 2 ^ w).toNat.testBit i = z.testBit i := by
  rw [← testBit_natCast, toNat_emod_natCast]
  exact testBit_of_modEq (Int.mod_modEq ..) hi

/-- The highest of w bits. -/
theorem testBit_top {w n : Nat} (hw : 0 < w) (hn : n < 2 ^ w) : n.testBit (w - 1) = decide (2 ^ (w - 1) ≤ n) := by
  have double : 2 ^ w = 2 * 2 ^ (w - 1) := by rw [← pow_succ', Nat.sub_add_cancel hw]
  have pos : 0 < 2 ^ (w - 1) := by positivity
  rw [Nat.testBit_eq_decide_div_mod_eq]
  by_cases big : 2 ^ (w - 1) ≤ n
  · have one : n / 2 ^ (w - 1) = 1 := by
      rw [Nat.div_eq_iff pos]
      omega
    simp [one, big]
  · simp [Nat.div_eq_of_lt (Nat.lt_of_not_le big), big]

/-- The bits of a number of w bits read as signed: above them stands its sign. -/
theorem testBit_signed {w n : Nat} (hw : 0 < w) (hn : n < 2 ^ w) (i : Nat) :
    (if 2 ^ (w - 1) ≤ n then (n : Int) - 2 ^ w else n).testBit i = if i < w then n.testBit i else n.testBit (w - 1) := by
  rw [testBit_top hw hn]
  split
  next big =>
    have neg : (n : Int) - 2 ^ w = Int.negSucc (2 ^ w - (n + 1)) := by
      rw [Int.negSucc_eq]
      push_cast [Nat.cast_sub (Nat.succ_le_of_lt hn)]
      ring
    rw [neg, testBit_negSucc, Nat.testBit_two_pow_sub_succ hn]
    by_cases hi : i < w <;> simp [hi, big]
  next small =>
    rw [testBit_natCast]
    split
    next => rfl
    next hi =>
      rw [Nat.testBit_lt_two_pow (lt_of_lt_of_le hn (Nat.pow_le_pow_right two_pos (Nat.le_of_not_lt hi)))]
      simp [small]

/-! ### The number of a word (R105) -/

theorem width_cases (ty : Ty) : ty.width = 8 ∨ ty.width = 16 ∨ ty.width = 32 ∨ ty.width = 64 := by cases ty <;> decide

theorem width_pos (ty : Ty) : 0 < ty.width := by cases ty <;> decide

theorem width_le (ty : Ty) : ty.width ≤ 64 := by cases ty <;> decide

theorem ubits_lt (ty : Ty) (x : DWord) : ubits ty x < 2 ^ ty.width := Nat.mod_lt _ (by positivity)

theorem ubits_testBit (ty : Ty) (x : DWord) (i : Nat) : (ubits ty x).testBit i = (decide (i < ty.width) && x.getLsbD i) := by
  rw [ubits, Nat.testBit_mod_two_pow, BitVec.testBit_toNat]

/-- A word's number is that of its low bits, signed where the type is. -/
theorem ival_eq (ty : Ty) (x : DWord) :
    ival ty x = if ty.signed then (if 2 ^ (ty.width - 1) ≤ ubits ty x then (ubits ty x : Int) - 2 ^ ty.width else ubits ty x) else ubits ty x := by
  unfold ival ubits
  cases ty.signed <;> simp

/-- The bits of a word's number: those of the word within the width, and above it the sign of a signed type. -/
theorem ival_testBit (ty : Ty) (x : DWord) (i : Nat) :
    (ival ty x).testBit i = if i < ty.width then x.getLsbD i else ty.signed && x.getLsbD (ty.width - 1) := by
  rw [ival_eq]
  cases ty.signed with
  | true =>
    rw [if_pos rfl, testBit_signed (width_pos ty) (ubits_lt ty x), ubits_testBit, ubits_testBit]
    simp only [Nat.sub_lt (width_pos ty) one_pos, decide_true, Bool.true_and]
    split <;> simp [*]
  | false =>
    rw [if_neg Bool.false_ne_true, testBit_natCast, ubits_testBit]
    split <;> simp [*]

/-- A word and its number agree modulo the width. -/
theorem ival_modEq (ty : Ty) (x : DWord) : (x.toNat : Int) ≡ ival ty x [ZMOD 2 ^ ty.width] := by
  have low : (x.toNat : Int) ≡ (ubits ty x : Int) [ZMOD 2 ^ ty.width] := by
    unfold ubits
    push_cast
    exact (Int.mod_modEq ..).symm
  rw [ival_eq]
  split
  · split
    · exact low.trans (by simp [Int.ModEq])
    · exact low
  · exact low

/-! ### Patterns (R105, R131) -/

theorem pattern_getLsbD (ty : Ty) (f : Nat → Bool) {i : Nat} (hi : i < 64) :
    (pattern ty f).getLsbD i = if i < ty.width then f i else decide (i < 32) && ty.signed && f (ty.width - 1) := by
  rw [pattern, BitVec.getLsbD_ofFnLE, dif_pos hi]

/-- A pattern is its bits within the width. -/
theorem pattern_congr {ty : Ty} {f g : Nat → Bool} (h : ∀ i < ty.width, f i = g i) : pattern ty f = pattern ty g := by
  refine BitVec.eq_of_getLsbD_eq fun i hi => ?_
  rw [pattern_getLsbD ty f hi, pattern_getLsbD ty g hi, h (ty.width - 1) (Nat.sub_lt (width_pos ty) one_pos)]
  split
  · exact h i ‹_›
  · rfl

theorem ofNat_getLsbD {n i : Nat} (hi : i < 64) : (BitVec.ofNat 64 n).getLsbD i = n.testBit i := by
  rw [BitVec.getLsbD_ofNat, decide_eq_true hi, Bool.true_and]

/-- A number written at a type's width is the pattern of its bits. -/
theorem iput_eq_pattern (ty : Ty) (z : Int) : iput ty z = pattern ty z.testBit := by
  rw [← pattern_congr fun i hi => testBit_toNat_emod z (w := ty.width) hi]
  unfold iput
  simp only
  have bound := toNat_emod_lt z ty.width
  generalize (z % 2 ^ ty.width).toNat = n at bound
  have sign := testBit_top (width_pos ty) bound
  have above : ∀ i, ¬i < ty.width → n.testBit i = false := fun i hi =>
    Nat.testBit_lt_two_pow (lt_of_lt_of_le bound (Nat.pow_le_pow_right two_pos (Nat.le_of_not_lt hi)))
  refine BitVec.eq_of_getLsbD_eq fun i hi => ?_
  rw [pattern_getLsbD ty _ hi, sign]
  split
  next extended =>
    simp only [Bool.and_eq_true, decide_eq_true_eq, ge_iff_le] at extended
    obtain ⟨⟨narrow, signed⟩, big⟩ := extended
    have ones : n + 2 ^ 32 - 2 ^ ty.width = 2 ^ ty.width * (2 ^ (32 - ty.width) - 1) + n := by
      rw [Nat.mul_sub_one, ← pow_add, Nat.add_sub_cancel' narrow.le]
      have := Nat.pow_le_pow_right two_pos narrow.le
      omega
    rw [ones, ofNat_getLsbD hi, Nat.testBit_two_pow_mul_add _ bound, Nat.testBit_two_pow_sub_one]
    simp only [signed, big, decide_true, Bool.and_true]
    split
    · rfl
    · exact decide_eq_decide.mpr (by omega)
  next plain =>
    rw [ofNat_getLsbD hi]
    split
    next => rfl
    next out =>
      rw [above i out]
      cases signed : ty.signed with
      | false => simp
      | true =>
        simp only [signed, Bool.and_true, Bool.and_eq_true, decide_eq_true_eq, ge_iff_le, not_and] at plain
        by_cases low : i < 32
        · simpa [low] using plain (by omega)
        · simp [low]

theorem iput_natCast (ty : Ty) (n : Nat) : iput ty n = pattern ty n.testBit := iput_eq_pattern ty n

theorem uput_eq_pattern (ty : Ty) (n : Nat) : uput ty n = pattern ty n.testBit := iput_eq_pattern ty n

theorem iput_of_modEq {ty : Ty} {y z : Int} (h : y ≡ z [ZMOD 2 ^ ty.width]) : iput ty y = iput ty z := by
  rw [iput_eq_pattern, iput_eq_pattern]
  exact pattern_congr fun i hi => testBit_of_modEq h hi

theorem lowBits_eq_iput_toNat (ty : Ty) (x : DWord) : lowBits ty x = iput ty x.toNat := by
  rw [iput_natCast]
  exact pattern_congr fun i _ => (BitVec.testBit_toNat ..).symm

/-- A word's low bits are its number, written at the type's width. -/
theorem lowBits_eq_iput (ty : Ty) (x : DWord) : lowBits ty x = iput ty (ival ty x) :=
  (lowBits_eq_iput_toNat ty x).trans (iput_of_modEq (ival_modEq ty x))

/-- A word's low bits have its number. -/
theorem ival_lowBits (ty : Ty) (x : DWord) : ival ty (lowBits ty x) = ival ty x := by
  have low : ubits ty (lowBits ty x) = ubits ty x := Nat.eq_of_testBit_eq fun i => by
    rw [ubits_testBit, ubits_testBit]
    by_cases hi : i < ty.width
    · rw [lowBits, pattern_getLsbD ty _ (lt_of_lt_of_le hi (width_le ty)), if_pos hi]
    · simp [hi]
  rw [ival_eq, ival_eq, low]

end Sys2Proof.Machine
end

section
/-! SUPPORT. Integer results (R134 to R137, R145): sums, products and clamped results as words hold them. -/
namespace Sys2Proof.Machine
set_option Elab.async false

/-! ### Words that hold a number modulo the width -/

/-- A word agrees with a number modulo a type's width. -/
def HoldsAt (ty : Ty) (x : DWord) (z : Int) : Prop := (x.toNat : Int) ≡ z [ZMOD 2 ^ ty.width]

theorem HoldsAt.ival (ty : Ty) (x : DWord) : HoldsAt ty x (ival ty x) := ival_modEq ty x

theorem emod_word_modEq (ty : Ty) (z : Int) : z % 2 ^ 64 ≡ z [ZMOD 2 ^ ty.width] :=
  (Int.mod_modEq z (2 ^ 64)).of_dvd (pow_dvd_pow 2 (width_le ty))

theorem HoldsAt.ofInt (ty : Ty) (z : Int) : HoldsAt ty (BitVec.ofInt 64 z) z := by
  unfold HoldsAt
  rw [BitVec.toNat_ofInt, show ((2 ^ 64 : Nat) : Int) = 2 ^ 64 from rfl, toNat_emod_natCast]
  exact emod_word_modEq ty z

section
variable {ty : Ty} {x y : DWord} {a b : Int}

theorem HoldsAt.add (hx : HoldsAt ty x a) (hy : HoldsAt ty y b) : HoldsAt ty (x + y) (a + b) := by
  unfold HoldsAt
  rw [BitVec.toNat_add]
  push_cast
  exact (emod_word_modEq ty _).trans (Int.ModEq.add hx hy)

theorem HoldsAt.mul (hx : HoldsAt ty x a) (hy : HoldsAt ty y b) : HoldsAt ty (x * y) (a * b) := by
  unfold HoldsAt
  rw [BitVec.toNat_mul]
  push_cast
  exact (emod_word_modEq ty _).trans (Int.ModEq.mul hx hy)

theorem HoldsAt.neg (hx : HoldsAt ty x a) : HoldsAt ty (-x) (-a) := by
  have word : ((2 ^ 64 - x.toNat : Nat) : Int) = 2 ^ 64 - x.toNat := by
    rw [Nat.cast_sub x.isLt.le]
    rfl
  have whole : (2 ^ 64 : Int) ≡ 0 [ZMOD 2 ^ ty.width] := (Int.modEq_zero_iff_dvd).mpr (pow_dvd_pow 2 (width_le ty))
  unfold HoldsAt
  rw [BitVec.toNat_neg, Int.natCast_emod, word]
  exact (emod_word_modEq ty _).trans (by simpa using whole.sub hx)

theorem HoldsAt.sub (hx : HoldsAt ty x a) (hy : HoldsAt ty y b) : HoldsAt ty (x - y) (a - b) := by
  rw [BitVec.sub_eq_add_neg, Int.sub_eq_add_neg]
  exact hx.add hy.neg

/-- The low bits of a word are those of any number it holds. -/
theorem HoldsAt.lowBits (h : HoldsAt ty x a) : lowBits ty x = iput ty a := (lowBits_eq_iput_toNat ty x).trans (iput_of_modEq h)

end

theorem lowBits_ofInt (ty : Ty) (z : Int) : lowBits ty (BitVec.ofInt 64 z) = iput ty z := (HoldsAt.ofInt ty z).lowBits

/-! ### Ranges (R105, R135) -/

theorem rangeOf_eq (ty : Ty) : rangeOf ty = (imin ty, imax ty) := by
  unfold rangeOf imin imax
  split <;> rfl

/-- A word's number is in the range of the type. -/
theorem ival_range (ty : Ty) (x : DWord) : imin ty ≤ ival ty x ∧ ival ty x ≤ imax ty := by
  have double : (2 : Int) ^ ty.width = 2 * 2 ^ (ty.width - 1) := by rw [← pow_succ', Nat.sub_add_cancel (width_pos ty)]
  have pos : (0 : Int) < 2 ^ (ty.width - 1) := by positivity
  have bound : (ubits ty x : Int) < 2 ^ ty.width := by exact_mod_cast ubits_lt ty x
  rw [ival_eq]
  unfold imin imax
  cases ty.signed with
  | false =>
    simp only [Bool.false_eq_true, if_false]
    omega
  | true =>
    simp only [if_true]
    split
    next big =>
      have : (2 ^ (ty.width - 1) : Int) ≤ ubits ty x := by exact_mod_cast big
      omega
    next small =>
      have : (ubits ty x : Int) < 2 ^ (ty.width - 1) := by exact_mod_cast Nat.lt_of_not_le small
      omega

theorem iclampTo_eq (ty : Ty) (z : Int) : iclampTo ty z = clampTo (rangeOf ty).1 (rangeOf ty).2 z := by
  have nonempty : imin ty ≤ imax ty := (ival_range ty 0).1.trans (ival_range ty 0).2
  rw [rangeOf_eq]
  unfold iclampTo clampTo
  split
  · omega
  · split <;> omega

theorem iclampTo_ival (ty : Ty) (x : DWord) : iclampTo ty (ival ty x) = ival ty x := by
  obtain ⟨lo, hi⟩ := ival_range ty x
  rw [iclampTo, if_neg (not_lt.mpr lo), if_neg (not_lt.mpr hi)]

/-- A result is the word it wraps to, or with SAT the exact number clamped. -/
theorem ires_eq_sumOf {ty : Ty} {wrapped : DWord} {z : Int} (h : HoldsAt ty wrapped z) (sat : Bool) : ires ty sat z = sumOf ty sat wrapped z := by
  cases sat with
  | false => exact h.lowBits.symm
  | true =>
    rw [sumOf, if_pos rfl, lowBits_ofInt, ← iclampTo_eq]
    rfl

/-! ### Minima, maxima and magnitudes (R136) -/

/-- The element that is picked is one of the two, with the smaller or the larger number. -/
theorem pick_eq_lowBits (ty : Ty) (less : Bool) (x y : DWord) : ∃ z, pick ty less x y = lowBits ty z ∧
    ival ty z = if less then min (ival ty x) (ival ty y) else max (ival ty x) (ival ty y) := by
  unfold pick
  by_cases le : ival ty x ≤ ival ty y
  · cases less
    · exact ⟨y, by simp [le], by simp [le]⟩
    · exact ⟨x, by simp [le], by simp [le]⟩
  · have ge := (lt_of_not_ge le).le
    cases less
    · exact ⟨x, by simp [le], by simp [ge]⟩
    · exact ⟨y, by simp [le], by simp [ge]⟩

theorem pick_eq_iput (ty : Ty) (less : Bool) (x y : DWord) :
    pick ty less x y = iput ty (if less then min (ival ty x) (ival ty y) else max (ival ty x) (ival ty y)) := by
  obtain ⟨z, picked, number⟩ := pick_eq_lowBits ty less x y
  rw [picked, lowBits_eq_iput, number]

theorem ival_pick (ty : Ty) (less : Bool) (x y : DWord) :
    ival ty (pick ty less x y) = if less then min (ival ty x) (ival ty y) else max (ival ty x) (ival ty y) := by
  obtain ⟨z, picked, number⟩ := pick_eq_lowBits ty less x y
  rw [picked, ival_lowBits, number]

theorem clamp_eq_pick (ty : Ty) (x y z : DWord) : iput ty (min (max (ival ty x) (ival ty y)) (ival ty z)) = pick ty true (pick ty false x y) z := by
  rw [pick_eq_iput ty true, ival_pick]
  rfl

theorem iabs_eq (ty : Ty) (sat : Bool) (x : DWord) :
    iabs ty sat x = if ival ty x < 0 then sumOf ty sat (-x) (-(ival ty x)) else lowBits ty x := by
  unfold iabs
  split
  · exact ires_eq_sumOf (HoldsAt.ival ty x).neg sat
  · rw [lowBits_eq_iput, ires, iclampTo_ival, ite_self]

/-! ### Products and addresses (R134, R137) -/

theorem mulhi_eq (ty : Ty) (x y : DWord) : mulhi ty x y = pattern ty (fun i => (ival ty x * ival ty y).testBit (ty.width + i)) := by
  rw [mulhi, iput_eq_pattern]
  exact pattern_congr fun i _ => testBit_ediv_two_pow ..

theorem ofInt_getLsbD (z : Int) {i : Nat} (hi : i < 64) : (BitVec.ofInt 64 z).getLsbD i = z.testBit i := by
  rw [← BitVec.testBit_toNat, BitVec.toNat_ofInt]
  exact testBit_toNat_emod z hi

/-- The number of a word of 32 or 64 bits, written as one of 64. -/
theorem ofInt_ival {ty : Ty} (h : ty.width = 32 ∨ ty.width = 64) (x : DWord) : BitVec.ofInt 64 (ival ty x) = widen ty x := by
  refine BitVec.eq_of_getLsbD_eq fun i hi => ?_
  rw [ofInt_getLsbD _ hi, ival_testBit, widen]
  obtain w | w := h
  · rw [if_neg (show ¬(ty.width == 64) = true by rw [w]; decide), w]
    cases ty.signed with
    | true =>
      rw [if_pos rfl, BitVec.getLsbD_signExtend, decide_eq_true hi, Bool.true_and, BitVec.msb_eq_getLsbD_last]
      simp only [BitVec.getLsbD_setWidth]
      split <;> simp [*]
    | false =>
      rw [if_neg Bool.false_ne_true]
      simp only [BitVec.getLsbD_setWidth]
      split <;> simp [*]
  · rw [if_pos (beq_iff_eq.mpr w), if_pos (lt_of_lt_of_eq hi w.symm)]

theorem width_of_int32or64 {ty : Ty} (h : ty.int32or64 = true) : ty.width = 32 ∨ ty.width = 64 := by cases ty <;> simp_all [Ty.int32or64, Ty.width]

theorem ofInt_two_pow (k : Nat) : BitVec.ofInt 64 (2 ^ k) = BitVec.twoPow 64 k := by
  refine BitVec.eq_of_toNat_eq ?_
  rw [BitVec.toNat_ofInt, BitVec.toNat_twoPow]
  exact_mod_cast rfl

theorem lea_eq {ty : Ty} (h : ty.width = 32 ∨ ty.width = 64) (sh : Nat) (a b : DWord) : lea ty sh a b = a + widen ty b <<< sh := by
  rw [lea, BitVec.ofInt_mul, ofInt_ival h, ofInt_two_pow, BitVec.mul_twoPow_eq_shiftLeft]

end Sys2Proof.Machine
end

section
/-! THEOREM. Integer arithmetic, minima, maxima and addresses (R134 to R137), and the clamp of SAT (R135). -/
namespace Sys2Proof.Machine
set_option Elab.async false

/-! ### Sums, products and addresses -/

theorem imadw_computes (h : Head) (ty : Ty) (d a b c : Opnd) : ComputesOn (.imadw h ty d a b c) h 4 true d [(ty, a), (ty, b), (.n64, c)] []
    (fun _ _ l => widen ty (arg l 0) * widen ty (arg l 1) + arg l 2) := by
  refine .of_alu (g := fun _ _ l => BitVec.ofInt 64 (ival ty (arg l 0) * ival ty (arg l 1)) + arg l 2) (fun _ => rfl)
    (wf_last (q := dstOk true d [a, b, c]) (by rw [Instr.wf])) no_imms fun wf _ _ _ l => ?_
  have factors : ty.width = 32 ∨ ty.width = 64 := .inl (by
    rw [Instr.wf] at wf
    simp only [Bool.and_eq_true, Bool.or_eq_true, beq_iff_eq] at wf
    obtain ⟨⟨⟨⟨⟨-, rfl | rfl⟩, -⟩, -⟩, -⟩, -⟩ := wf <;> rfl)
  rw [BitVec.ofInt_mul, ofInt_ival factors, ofInt_ival factors]

theorem lea_computes (h : Head) (ty : Ty) (sh : Fin 8) (d a b : Opnd) : ComputesOn (.lea h ty sh d a b) h 4 true d [(.n64, a), (ty, b)] []
    (fun _ _ l => arg l 0 + widen ty (arg l 1) <<< sh.val) := by
  refine .of_alu (g := fun _ _ l => lea ty sh.val (arg l 0) (arg l 1)) (fun _ => rfl) (wf_last (q := dstOk true d [a, b]) (by rw [Instr.wf])) no_imms
    fun wf _ _ _ l => lea_eq (width_of_int32or64 ?_) ..
  rw [Instr.wf] at wf
  simp only [Bool.and_eq_true] at wf
  obtain ⟨⟨⟨⟨-, wide⟩, -⟩, -⟩, -⟩ := wf
  exact wide

theorem Claims.integerArithmeticResults : Claims.IntegerArithmeticResults := fun h ty sat d a b c _ =>
  have number := HoldsAt.ival ty
  have sum : ∀ x y, ires ty sat (ival ty x + ival ty y) = sumOf ty sat (x + y) (ival ty x + ival ty y) :=
    fun x y => ires_eq_sumOf ((number x).add (number y)) sat
  have difference : ∀ x y, ires ty sat (ival ty x - ival ty y) = sumOf ty sat (x - y) (ival ty x - ival ty y) :=
    fun x y => ires_eq_sumOf ((number x).sub (number y)) sat
  have product : ∀ x y, iput ty (ival ty x * ival ty y) = lowBits ty (x * y) := fun x y => ((number x).mul (number y)).lowBits.symm
  have sum_of_product : ∀ x y z, iput ty (ival ty x * ival ty y + ival ty z) = lowBits ty (x * y + z) :=
    fun x y z => (((number x).mul (number y)).add (number z)).lowBits.symm
  ⟨.of_intAlu sum, .of_intAlu sum, .of_intAlu difference, .of_intAlu difference, .of_intAlu product, .of_intAlu product, .of_intAlu (mulhi_eq ty),
    .of_intAlu sum_of_product, imadw_computes h ty d a b c⟩

theorem Claims.minMaxAndAddressResults : Claims.MinMaxAndAddressResults := fun h ty sat sh d a b _ =>
  have negated : ∀ x, ires ty sat (-(ival ty x)) = sumOf ty sat (-x) (-(ival ty x)) := fun x => ires_eq_sumOf (HoldsAt.ival ty x).neg sat
  ⟨.of_intAlu (fun x y => (pick_eq_iput ty true x y).symm), .of_intAlu (fun x y => (pick_eq_iput ty false x y).symm), .of_intAlu (iabs_eq ty sat),
    .of_intAlu negated, .of_intAlu (clamp_eq_pick ty), lea_computes h ty sh d a b⟩

/-! ### The clamp of SAT (R135) -/

/-- With SAT a result is its exact number, clamped to the range of the type and written at its width. -/
theorem ires_sat (ty : Ty) (z : Int) : ires ty true z = lowBits ty (BitVec.ofInt 64 (iclampTo ty z)) := (lowBits_ofInt ..).symm

end Sys2Proof.Machine

open Sys2Proof.Machine in
/-- Settles O1: a word and the number it is read as agree modulo the width, sums and products of words with those of their numbers, and a result is written as
the low bits of its number. -/
theorem integerResults : Obligations.IntegerResults := by
  unfold Obligations.IntegerResults
  exact ⟨Claims.integerArithmeticResults, Claims.minMaxAndAddressResults⟩

open Sys2Proof.Machine in
/-- Settles O2: with SAT the model writes the clamped exact number at the type's width. -/
theorem saturationClamps : Obligations.SaturationClamps := by
  unfold Obligations.SaturationClamps
  intro h ty d a b imm
  have clamped := ires_sat ty
  exact ⟨.of_intAlu (fun x y => clamped (ival ty x + ival ty y)), .of_intAlu (fun x y => clamped (ival ty x + ival ty y)),
    .of_intAlu (fun x y => clamped (ival ty x - ival ty y)), .of_intAlu (fun x y => clamped (ival ty x - ival ty y)),
    .of_intAlu (fun x => clamped (if ival ty x < 0 then -(ival ty x) else ival ty x)),
    .of_intAlu (fun x => clamped (-(ival ty x)))⟩
end

section
/-! SUPPORT. Bits at the width of a type (R138 to R141): logic, shifts, fields, and counts. -/
namespace Sys2Proof.Machine
set_option Elab.async false

/-! ### Logic (R138) -/

/-- A bit pattern is written as its bits within the width. -/
theorem uput_eq_of_bits {ty : Ty} {n : Nat} {f : Nat → Bool} (h : ∀ i < ty.width, n.testBit i = f i) : uput ty n = pattern ty f :=
  (uput_eq_pattern ty n).trans (pattern_congr h)

theorem ubits_testBit_lt {ty : Ty} {i : Nat} (hi : i < ty.width) (x : DWord) : (ubits ty x).testBit i = x.getLsbD i := by
  rw [ubits_testBit, decide_eq_true hi, Bool.true_and]

/-- The bits that the complement of a word at the width has. -/
theorem complement_testBit {ty : Ty} {i : Nat} (hi : i < ty.width) (x : DWord) : (2 ^ ty.width - 1 - ubits ty x).testBit i = !x.getLsbD i := by
  rw [Nat.sub_sub, Nat.add_comm 1, Nat.testBit_two_pow_sub_succ (ubits_lt ty x), ubits_testBit_lt hi, decide_eq_true hi, Bool.true_and]

theorem and_bits (ty : Ty) (x y : DWord) : uput ty (ubits ty x &&& ubits ty y) = pattern ty (fun i => x.getLsbD i && y.getLsbD i) :=
  uput_eq_of_bits fun i hi => by rw [Nat.testBit_and, ubits_testBit_lt hi, ubits_testBit_lt hi]

theorem or_bits (ty : Ty) (x y : DWord) : uput ty (ubits ty x ||| ubits ty y) = pattern ty (fun i => x.getLsbD i || y.getLsbD i) :=
  uput_eq_of_bits fun i hi => by rw [Nat.testBit_or, ubits_testBit_lt hi, ubits_testBit_lt hi]

theorem xor_bits (ty : Ty) (x y : DWord) : uput ty (ubits ty x ^^^ ubits ty y) = pattern ty (fun i => x.getLsbD i ^^ y.getLsbD i) :=
  uput_eq_of_bits fun i hi => by rw [Nat.testBit_xor, ubits_testBit_lt hi, ubits_testBit_lt hi]

theorem andn_bits (ty : Ty) (x y : DWord) :
    uput ty (ubits ty x &&& (2 ^ ty.width - 1 - ubits ty y)) = pattern ty (fun i => x.getLsbD i && !y.getLsbD i) :=
  uput_eq_of_bits fun i hi => by rw [Nat.testBit_and, ubits_testBit_lt hi, complement_testBit hi]

theorem not_bits (ty : Ty) (x : DWord) : uput ty (2 ^ ty.width - 1 - ubits ty x) = pattern ty (fun i => !x.getLsbD i) :=
  uput_eq_of_bits fun _ hi => complement_testBit hi x

/-! ### Shifts (R139) -/

theorem pattern_eq_zero {ty : Ty} {f : Nat → Bool} (h : ∀ i < ty.width, f i = false) : pattern ty f = 0 := by
  rw [pattern_congr h]
  refine BitVec.eq_of_getLsbD_eq fun i hi => ?_
  rw [pattern_getLsbD ty _ hi]
  simp

theorem shl_bits (ty : Ty) (x y : DWord) : shl ty x y = pattern ty (fun i => decide (shiftOf ty y ≤ i) && x.getLsbD (i - shiftOf ty y)) := by
  rw [shl, show shamt ty y = shiftOf ty y from rfl]
  split
  next out => exact (pattern_eq_zero fun i hi => by rw [decide_eq_false (by omega), Bool.false_and]).symm
  next => exact uput_eq_of_bits fun i hi => by rw [Nat.testBit_shiftLeft, ubits_testBit_lt (by omega)]

theorem shr_bits (ty : Ty) (x y : DWord) :
    shr ty x y = pattern ty (fun i => decide (i + shiftOf ty y < ty.width) && x.getLsbD (i + shiftOf ty y)) := by
  rw [shr, show shamt ty y = shiftOf ty y from rfl]
  split
  next out => exact (pattern_eq_zero fun i hi => by rw [decide_eq_false (by omega), Bool.false_and]).symm
  next => exact uput_eq_of_bits fun i hi => by rw [Nat.testBit_shiftRight, ubits_testBit, Nat.add_comm]

/-- An arithmetic shift repeats the highest bit of the width. -/
theorem sar_bits (ty : Ty) (x y : DWord) : sar ty x y = pattern ty (fun i => x.getLsbD (min (i + shiftOf ty y) (ty.width - 1))) := by
  have top := Nat.sub_lt (width_pos ty) one_pos
  rw [sar, iput_eq_pattern]
  refine pattern_congr fun i hi => ?_
  rw [testBit_ediv_two_pow, testBit_signed (width_pos ty) (ubits_lt ty x), show shamt ty y = shiftOf ty y from rfl]
  split
  next inside => rw [ubits_testBit_lt inside, show min (shiftOf ty y) ty.width + i = min (i + shiftOf ty y) (ty.width - 1) by omega]
  next outside => rw [ubits_testBit_lt top, min_eq_right (by omega)]

theorem rotl_bits (ty : Ty) (x y : DWord) :
    rotl ty x y = pattern ty (fun i => x.getLsbD ((i + (ty.width - shiftOf ty y % ty.width)) % ty.width)) := by
  rw [rotl, show shamt ty y = shiftOf ty y from rfl]
  have turn := Nat.mod_lt (shiftOf ty y) (width_pos ty)
  generalize shiftOf ty y % ty.width = k at turn
  refine uput_eq_of_bits fun i hi => ?_
  rw [Nat.testBit_or, Nat.testBit_shiftLeft, Nat.testBit_shiftRight, ubits_testBit, ubits_testBit]
  by_cases low : i < k
  · rw [decide_eq_false (by omega), decide_eq_true (by omega : ty.width - k + i < ty.width), Nat.mod_eq_of_lt (by omega), Nat.add_comm i]
    simp
  · have wraps : (i + (ty.width - k)) % ty.width = i - k := by
      rw [show i + (ty.width - k) = i - k + ty.width by omega, Nat.add_mod_right, Nat.mod_eq_of_lt (by omega)]
    rw [decide_eq_true (by omega : k ≤ i), decide_eq_true (by omega : i - k < ty.width), decide_eq_false (by omega), wraps]
    simp

/-! ### Bit fields (R140) -/

/-- A bit field is cut at the width of its type, and extended by its highest bit where the type is signed. -/
theorem bfx_eq (ty : Ty) (x : DWord) (pos len : Nat) : bfx ty x pos len = fieldOf ty x pos len := by
  unfold bfx fieldOf
  simp only
  by_cases none_ : len = 0
  · simp [none_]
  have some_ : 0 < min len ty.width := lt_min (Nat.pos_of_ne_zero none_) (width_pos ty)
  have cut : min len ty.width ≤ ty.width := min_le_right ..
  rw [if_neg none_, if_neg some_.ne', iput_eq_pattern]
  generalize min len ty.width = n at some_ cut
  refine pattern_congr fun i hi => ?_
  have bit : ∀ j < n, (ival ty x / 2 ^ pos % 2 ^ n).toNat.testBit j =
      if pos + j < ty.width then x.getLsbD (pos + j) else ty.signed && x.getLsbD (ty.width - 1) := fun j hj => by
    rw [testBit_toNat_emod _ hj, testBit_ediv_two_pow, ival_testBit]
  have bound := toNat_emod_lt (ival ty x / 2 ^ pos) n
  rw [← toNat_emod_natCast]
  generalize (ival ty x / 2 ^ pos % 2 ^ n).toNat = m at bit bound
  rw [← bit (n - 1) (Nat.sub_lt some_ one_pos)]
  generalize ty.signed = signed at bit ⊢
  cases signed with
  | true =>
    have sign : ((m : Int) ≥ 2 ^ (n - 1)) = (2 ^ (n - 1) ≤ m) := propext (by rw [ge_iff_le]; exact_mod_cast Iff.rfl)
    simp only [Bool.true_and, sign, decide_eq_true_eq]
    rw [testBit_signed some_ bound]
    split
    · exact bit i ‹_›
    · rfl
  | false =>
    simp only [Bool.false_and, Bool.false_eq_true, if_false]
    rw [testBit_natCast]
    split
    · exact bit i ‹_›
    · exact Nat.testBit_lt_two_pow (lt_of_lt_of_le bound (Nat.pow_le_pow_right two_pos (by omega)))

/-- The bits of an insertion at a position within the width: the field's from the source, the others the base's. -/
theorem bfi_eq (ty : Ty) (x base : DWord) (pos len : Nat) : bfi ty x base pos len = insertOf ty x base pos len := by
  unfold bfi insertOf
  split
  next out =>
    refine uput_eq_of_bits fun i hi => ?_
    rw [if_neg (by omega), ubits_testBit_lt hi]
  next inside =>
    have mask : ∀ i < ty.width, ((2 ^ min len (ty.width - pos) - 1) <<< pos).testBit i = decide (pos ≤ i ∧ i < pos + len) := fun i hi => by
      rw [Nat.testBit_shiftLeft, Nat.testBit_two_pow_sub_one, ← Bool.decide_and]
      exact decide_eq_decide.mpr (by omega)
    have fits : (2 ^ min len (ty.width - pos) - 1) <<< pos < 2 ^ ty.width := by
      rw [Nat.shiftLeft_eq]
      calc (2 ^ min len (ty.width - pos) - 1) * 2 ^ pos < 2 ^ min len (ty.width - pos) * 2 ^ pos :=
            Nat.mul_lt_mul_of_pos_right (Nat.sub_lt (by positivity) one_pos) (by positivity)
        _ ≤ 2 ^ ty.width := by
            rw [← pow_add]
            exact Nat.pow_le_pow_right two_pos (by omega)
    refine uput_eq_of_bits fun i hi => ?_
    rw [Nat.testBit_or, Nat.testBit_and, Nat.testBit_and, Nat.sub_sub, Nat.add_comm 1, Nat.testBit_two_pow_sub_succ fits, mask i hi,
      Nat.testBit_shiftLeft, ubits_testBit_lt hi, decide_eq_true hi]
    by_cases field : pos ≤ i ∧ i < pos + len
    · rw [if_pos field, ubits_testBit_lt (by omega)]
      simp [field]
    · rw [if_neg field]
      simp [field]

/-! ### Counts (R141) -/

/-- A count of bits is written as it is. -/
theorem uput_count (ty : Ty) {n : Nat} (h : n ≤ ty.width) : uput ty n = BitVec.ofNat 64 n := by
  have small : n < 2 ^ (ty.width - 1) := lt_of_le_of_lt h (by obtain w | w | w | w := width_cases ty <;> rw [w] <;> decide)
  have whole : n % 2 ^ ty.width = n := Nat.mod_eq_of_lt (small.trans_le (Nat.pow_le_pow_right two_pos (Nat.sub_le ..)))
  have value : ((n : Int) % 2 ^ ty.width).toNat = n := by
    rw [← Nat.cast_ofNat, ← Nat.cast_pow, ← Int.natCast_mod, Int.toNat_natCast, whole]
  rw [uput, iput]
  simp only [value]
  rw [if_neg (by simp [Nat.not_le_of_lt small])]

theorem popc_eq (ty : Ty) (x : DWord) : popc ty x = BitVec.ofNat 64 (oneBits ty x) := by
  have same : (List.range ty.width).filter (fun i => (ubits ty x).testBit i) = (List.range ty.width).filter x.getLsbD :=
    List.filter_congr fun i hi => ubits_testBit_lt (List.mem_range.mp hi) x
  rw [popc, same]
  exact uput_count ty ((List.length_filter_le ..).trans_eq List.length_range)

/-- How many numbers below w reach a bound. -/
theorem length_filter_le_range (k w : Nat) : ((List.range w).filter (fun i => decide (k ≤ i))).length = w - k := by
  induction w with
  | zero => simp
  | succ w ih =>
    rw [List.range_succ, List.filter_append, List.length_append, ih, List.filter_singleton]
    by_cases reach : k ≤ w
    · simp [reach]
      omega
    · simp [reach]
      omega

/-- The bits of a word from i on are zero where i reaches the size of its low bits. -/
theorem zero_above_iff {ty : Ty} {i : Nat} (x : DWord) :
    (List.range ty.width).all (fun j => decide (j < i) || !x.getLsbD j) = decide ((ubits ty x).size ≤ i) := by
  rw [Bool.eq_iff_iff, decide_eq_true_eq, Nat.size_le, List.all_eq_true]
  simp only [List.mem_range, Bool.or_eq_true, decide_eq_true_eq, Bool.not_eq_true']
  constructor
  · intro zero
    refine Nat.lt_pow_two_of_testBit _ fun j hj => ?_
    rw [ubits_testBit]
    by_cases inside : j < ty.width
    · simp [(zero j inside).resolve_left (by omega)]
    · simp [inside]
  · intro small j hj
    refine or_iff_not_imp_left.mpr fun above => ?_
    rw [← ubits_testBit_lt hj]
    exact Nat.testBit_lt_two_pow (small.trans_le (Nat.pow_le_pow_right two_pos (by omega)))

theorem size_eq_log2_succ {n : Nat} (h : n ≠ 0) : n.size = Nat.log2 n + 1 :=
  le_antisymm (Nat.size_le.mpr Nat.lt_log2_self) (Nat.lt_size.mpr (Nat.log2_self_le h))

theorem clz_eq (ty : Ty) (x : DWord) : clz ty x = BitVec.ofNat 64 (leadingZeros ty x) := by
  have zeros : leadingZeros ty x = ty.width - (ubits ty x).size := by
    unfold leadingZeros
    simp only [zero_above_iff]
    exact length_filter_le_range ..
  have value : (if ubits ty x = 0 then ty.width else ty.width - 1 - Nat.log2 (ubits ty x)) = leadingZeros ty x := by
    rw [zeros]
    split
    next zero => simp [zero]
    next some_ =>
      rw [size_eq_log2_succ some_]
      omega
  rw [clz]
  simp only [value]
  exact uput_count ty (zeros.trans_le (Nat.sub_le ..))

/-- Bits taken one after another stand in reverse order. -/
theorem foldl_bits_testBit (b : Nat → Bool) (w i : Nat) :
    ((List.range w).foldl (fun r j => 2 * r + (if b j then 1 else 0)) 0).testBit i = (decide (i < w) && b (w - 1 - i)) := by
  induction w generalizing i with
  | zero => simp
  | succ w ih =>
    rw [List.range_succ, List.foldl_append, List.foldl_cons, List.foldl_nil]
    generalize (List.range w).foldl (fun r j => 2 * r + (if b j then 1 else 0)) 0 = r at ih
    cases i with
    | zero => cases hb : b w <;> simp [hb]
    | succ i =>
      rw [Nat.testBit_succ, show (2 * r + if b w then 1 else 0) / 2 = r by split <;> omega, ih, show w + 1 - 1 - (i + 1) = w - 1 - i by omega]
      simp

theorem brev_bits (ty : Ty) (x : DWord) : brev ty x = pattern ty (fun i => x.getLsbD (ty.width - 1 - i)) :=
  uput_eq_of_bits fun i hi => by
    rw [foldl_bits_testBit, decide_eq_true hi, Bool.true_and, ubits_testBit_lt (by omega)]

end Sys2Proof.Machine
end

section
/-! THEOREM. Logic, shifts, bit fields and bit counts (R138 to R141). -/
namespace Sys2Proof.Machine
set_option Elab.async false

theorem Claims.logicResults : Claims.LogicResults := fun _ ty _ _ _ _ =>
  ⟨.of_intAlu (and_bits ty), .of_intAlu (and_bits ty), .of_intAlu (or_bits ty), .of_intAlu (or_bits ty), .of_intAlu (xor_bits ty),
    .of_intAlu (xor_bits ty), .of_intAlu (andn_bits ty), .of_intAlu (andn_bits ty), .of_intAlu (not_bits ty)⟩

theorem Claims.shiftResults : Claims.ShiftResults := fun _ ty _ _ _ _ =>
  ⟨.of_intAlu (shl_bits ty), .of_intAlu (shl_bits ty), .of_intAlu (shr_bits ty), .of_intAlu (shr_bits ty), .of_intAlu (sar_bits ty),
    .of_intAlu (sar_bits ty), .of_intAlu (rotl_bits ty), .of_intAlu (rotl_bits ty)⟩

/-- BFI of the immediate form reads its destination as the base (R140). -/
theorem bfiImm_computes (h : Head) (ty : Ty) (d a : Opnd) (imm : BitVec 18) :
    ComputesOn (.bfiImm h ty d a imm) h 4 ty.wide d [(ty, a), (ty, d)] [immInt imm]
      (fun _ _ l => insertOf ty (arg l 0) (arg l 1) ((arg l 2).extractLsb' 0 8).toNat ((arg l 2).extractLsb' 8 8).toNat) := by
  refine .of_alu (g := fun _ _ l => bfi ty (arg l 0) (arg l 1) (bitsOf (arg l 2) 0 8) (bitsOf (arg l 2) 8 8)) (fun _ => rfl) (fun wf => ?_)
    (immInt_bcast imm) fun _ _ _ _ l => ?_
  · have operands : dstOk ty.wide d [a] = true := wf_middle (by rw [Instr.wf]) wf
    obtain ⟨stands, scalars⟩ := dstOk_iff.mp operands
    exact dstOk_iff.mpr ⟨stands, fun isS => List.forall_mem_cons.mpr ⟨scalars isS a (List.mem_singleton_self a),
      List.forall_mem_singleton.mpr (isSC_of_isS isS)⟩⟩
  · rw [bfi_eq, bitsOf_eq, bitsOf_eq]

theorem Claims.bitFieldResults : Claims.BitFieldResults := fun h ty d a _ _ imm =>
  have extracted : ∀ x y, bfx ty x (bitsOf y 0 8) (bitsOf y 8 8) = fieldOf ty x (y.extractLsb' 0 8).toNat (y.extractLsb' 8 8).toNat :=
    fun x y => by rw [bfx_eq, bitsOf_eq, bitsOf_eq]
  have inserted : ∀ x y z, bfi ty x z (bitsOf y 0 8) (bitsOf y 8 8) = insertOf ty x z (y.extractLsb' 0 8).toNat (y.extractLsb' 8 8).toNat :=
    fun x y z => by rw [bfi_eq, bitsOf_eq, bitsOf_eq]
  ⟨.of_intAlu extracted, .of_intAlu extracted (dst := wf_middle (by rw [Instr.wf])), .of_intAlu inserted, bfiImm_computes h ty d a imm,
    .of_intAlu (clz_eq ty), .of_intAlu (popc_eq ty), .of_intAlu (brev_bits ty)⟩

end Sys2Proof.Machine

open Sys2Proof.Machine in
/-- Settles O3: each bit of what the model writes within the width is the bit that the rules name. -/
theorem bitResults : Obligations.BitResults := by
  unfold Obligations.BitResults
  exact ⟨Claims.logicResults, Claims.shiftResults, Claims.bitFieldResults⟩
end

section
/-! SUPPORT. Predicates (R132, R175): what an instruction that decides leaves, compares, and votes. -/
namespace Sys2Proof.Machine
set_option Elab.async false

/-! ### Predicate registers (R132, R274) -/

theorem Regs.shaped_predicates {r : Regs} (h : r.shaped = true) : r.p.length = 7 := by
  simp only [Regs.shaped, Bool.and_eq_true, beq_iff_eq] at h
  obtain ⟨⟨⟨⟨⟨⟨-, hp⟩, -⟩, -⟩, -⟩, -⟩, -⟩ := h
  exact hp

/-- A predicate that is written holds the outcomes of the threads that act, and its old bits for the others. -/
theorem writePred_bit {r : Regs} {p : Nat} (inFile : p < r.p.length) (act : Mask) (f : Nat → Bool) {u : Nat} (hu : u < 32) :
    inMask ((writePred r p act f).p.getD p 0) u = if inMask act u then f u else inMask (r.p.getD p 0) u := by
  rw [← inMask_maskOf (fun t => if inMask act t then f t else inMask (r.p.getD p 0) t) hu]
  simp [writePred, List.getD, inFile]

theorem RegsLeave.writePred (r : Regs) (p : Nat) (act : Mask) (f : Nat → Bool) : RegsLeave r (writePred r p act f) [.p p] where
  vregs g _ := by cases g <;> rfl
  sregs _ _ := rfl
  pregs n hn := List.getElem?_set_ne fun same => hn (by rw [same]; exact List.mem_singleton_self _)
  tables _ _ := rfl

/-- An instruction decides where its body writes the outcomes of the acting threads to the predicate. -/
theorem Decides.of_lanes {i : Instr} {n : Need} {pd : Fin 7} {srcs : Env → List Src} {f : Env → Nat → List DWord → Bool} {body : Env → Res}
    (run : ∀ s, exec i s = issue n body s)
    (result : ∀ e, (∀ t < 32, inMask e.act t = true → srcVoid (srcs e) t = false) → ∃ l g, body e = e.lanes n (.ok l) ∧
      l.regs = writePred e.regs pd.val e.act g ∧ ∀ u < 32, g u = f e u (argsAt (srcs e) (predAnchor e.act (srcs e)) u)) :
    Decides i n pd srcs f := by
  intro s e _ shaped ready valued
  obtain ⟨l, g, hb, regs, outcome⟩ := result e valued
  obtain ⟨t, ht, data, leaves⟩ := issue_lanes ready hb (ds := [.p pd.val]) (by rw [regs]; exact .writePred ..) (by rw [regs]; rfl) (by rw [regs]; rfl)
  have inFile : pd.val < e.regs.p.length := by
    obtain ⟨hx, -⟩ := ready?_spec ready
    rw [(ready?_env ready).2.2, Regs.shaped_predicates (shaped_regs shaped hx)]
    exact pd.isLt
  obtain ⟨-, -, -, predicates, -⟩ := data
  refine ⟨t, (run s).trans ht, fun u hu => ?_, leaves⟩
  rw [predicates, regs, writePred_bit inFile e.act g hu, outcome u hu]

/-! ### Compares (R132, R142, R148) -/

/-- A compare whose sources are nowhere VOID decides for each thread by its arguments at the anchor. -/
theorem Decides.of_compare {i : Instr} {n : Need} {pd : Fin 7} {srcs : Env → List Src} {f : List DWord → Bool}
    (run : ∀ s, exec i s = issue n (fun e => e.compare n pd.val (srcs e) f) s) : Decides i n pd srcs (fun _ _ l => f l) := by
  refine Decides.of_lanes run fun e valued => ?_
  have clear : maskOf (fun t => inMask e.act t && srcVoid (srcs e) t) = 0 := maskOf_eq_zero fun t ht => by
    cases on : inMask e.act t with
    | false => rfl
    | true => exact valued t ht on
  simp only [Env.compare, clear]
  exact ⟨_, _, rfl, rfl, fun _ _ => rfl⟩

theorem Compares.of_cmpAlu {i : Instr} {h : Head} {lat : Nat} {ty : Ty} {pd : Fin 7} {xs : List Opnd} {imm : List Src} {f : DWord → DWord → Bool}
    (run : ∀ s, exec i s = cmpAlu h lat ty pd xs imm (fun l => f (arg l 0) (arg l 1)) s) : Compares i h lat ty pd xs imm f := by
  refine Decides.of_compare (f := fun l => f (arg l 0) (arg l 1)) fun s => (run s).trans ?_
  simp only [cmpAlu, List.map_map]
  rfl

/-! ### Votes (R175) -/

theorem and_ne_zero (a b : Mask) : (a &&& b != 0) = threads.any (fun t => inMask a t && inMask b t) := by
  rw [Bool.eq_iff_iff, bne_iff_ne, Ne, mask_eq_zero_iff, List.any_eq_true]
  push Not
  simp only [mem_threads, inMask_and, ne_eq, Bool.not_eq_false]

theorem and_eq_left (a b : Mask) : (a &&& b == a) = threads.all (fun t => !inMask a t || inMask b t) := by
  rw [Bool.eq_iff_iff, beq_iff_eq, List.all_eq_true]
  constructor
  · intro same t _
    have bit := inMask_and a b t
    rw [same] at bit
    revert bit
    cases inMask a t <;> simp
  · intro within
    refine BitVec.eq_of_getLsbD_eq fun t ht => ?_
    have here := within t (mem_threads.mpr ht)
    show inMask (a &&& b) t = inMask a t
    rw [inMask_and]
    revert here
    cases inMask a t <;> simp

/-- A vote gives every acting thread one outcome. -/
theorem Decides.of_vote {i : Instr} {h : Head} {pd : Fin 7} {ps : PredSpec} {hit : Mask → Mask → Bool} {f : Env → Bool}
    (run : ∀ s, exec i s = voteAlu h pd ps hit s) (same : ∀ e, hit (e.act &&& predSpec e.regs ps) e.act = f e) :
    Decides i (laneNeed h 2 [.p pd.val] [] (predReads ps)) pd (fun _ => []) (fun e _ _ => f e) :=
  Decides.of_lanes (body := fun e => e.lanes (laneNeed h 2 [.p pd.val] [] (predReads ps))
    (.ok { regs := writePred e.regs pd.val e.act (fun _ => hit (e.act &&& predSpec e.regs ps) e.act) })) run fun e _ => ⟨_, _, rfl, rfl, fun _ _ => same e⟩

end Sys2Proof.Machine
end

section
/-! THEOREM. Moves, selects and compares (R132, R142 to R145, R148, R175). -/
namespace Sys2Proof.Machine
set_option Elab.async false

/-! ### Moves and SEL (R143 to R145) -/

/-- A predicate spec names a thread by its predicate, PT for 7, or by its complement (R143). -/
theorem inMask_predSpec (r : Regs) (ps : PredSpec) {t : Nat} (ht : t < 32) :
    inMask (predSpec r ps) t = ((decide (ps.p.val = 7) || inMask (r.p.getD ps.p.val 0) t) != ps.neg) := by
  have mask : inMask (predMask r ps.p.val) t = (decide (ps.p.val = 7) || inMask (r.p.getD ps.p.val 0) t) := by
    unfold predMask
    split
    next pt => rw [inMask_full ht, decide_eq_true pt, Bool.true_or]
    next other => rw [decide_eq_false other, Bool.false_or]
  have flip : inMask (if ps.neg then fullMask else 0) t = ps.neg := by
    cases ps.neg
    · exact BitVec.getLsbD_zero
    · exact inMask_full ht
  rw [← mask, predSpec, inMask, BitVec.getLsbD_xor, ← inMask, ← inMask, flip]

theorem sel_computes (h : Head) (ty : Ty) (d a b : Opnd) (ps : PredSpec) : Computes (.sel h ty d a b ps)
    { aluNeed h 4 ty.wide d [(ty, a), (ty, b)] with reads := readRegs [(ty, a), (ty, b)] ++ predReads ps } d ty.wide
    (fun e => [e.src ty a, e.src ty b])
    (fun e t l => if (decide (ps.p.val = 7) || inMask (e.regs.p.getD ps.p.val 0) t) != ps.neg then arg l 0 else arg l 1) := by
  have operands : (Instr.sel h ty d a b ps).wf = true → dstOk ty.wide d [a, b] = true := wf_last (by rw [Instr.wf])
  refine Computes.of_body (g := fun e t l => if inMask (predSpec e.regs ps) t then arg l 0 else arg l 1) (fun _ => rfl) rfl
    (fun wf => (dstOk_iff.mp (operands wf)).1) (fun wf isS e => ?_) (fun s e shaped ready => ?_) (fun _ e t ht l => by rw [inMask_predSpec _ _ ht])
  · have scalars := (dstOk_iff.mp (operands wf)).2 isS
    exact List.forall_mem_cons.mpr ⟨src_bcast_of_isSC e ty (scalars a (by simp)),
      List.forall_mem_singleton.mpr (src_bcast_of_isSC e ty (scalars b (by simp)))⟩
  · exact List.forall_mem_cons.mpr ⟨ready?_src_sound ready shaped ty a, List.forall_mem_singleton.mpr (ready?_src_sound ready shaped ty b)⟩

theorem movi_computes (h : Head) (ty : Ty) (d : Opnd) (imm : BitVec 32) : ComputesOn (.movi h ty d imm) h 4 ty.wide d [] []
    (fun _ _ _ => if ty = .i64 then imm.signExtend 64 else imm.setWidth 64) := by
  refine .of_alu (g := fun _ _ _ => if ty == .i64 then imm.signExtend 64 else imm.setWidth 64) (fun _ => rfl)
    (fun wf => dstOk_iff.mpr ⟨wf_last (by rw [Instr.wf]) wf, fun _ => List.forall_mem_nil _⟩) no_imms fun _ _ _ _ _ => ?_
  simp only [beq_iff_eq]

/-- MOVH reads its destination, which where it is an S register is a broadcast source. -/
theorem movh_computes (h : Head) (d : Opnd) (imm : BitVec 32) : ComputesOn (.movh h d imm) h 4 true d [(.n64, d)] []
    (fun _ _ l => imm ++ (arg l 0).extractLsb' 0 32) := by
  refine .of_alu (g := fun _ _ l => imm ++ (arg l 0).setWidth 32) (fun _ => rfl)
    (fun wf => dstOk_iff.mpr ⟨wf_last (by rw [Instr.wf]) wf, fun isS => List.forall_mem_singleton.mpr (isSC_of_isS isS)⟩) no_imms fun _ _ _ _ l => ?_
  rw [BitVec.setWidth_eq_extractLsb' (by decide)]

theorem i2i_computes (h : Head) (dty ty : Ty) (sat : Bool) (d a : Opnd) : ComputesOn (.i2i h dty ty sat d a) h 4 dty.wide d [(ty, a)] []
    (fun _ _ l => sumOf dty sat (BitVec.ofInt 64 (ival ty (arg l 0))) (ival ty (arg l 0))) :=
  .of_alu (g := fun _ _ l => i2i dty ty sat (arg l 0)) (fun _ => rfl) (wf_last (q := dstOk dty.wide d [a]) (by rw [Instr.wf])) no_imms
    fun _ _ _ _ _ => ires_eq_sumOf (HoldsAt.ofInt ..) sat

theorem Claims.selectAndMoveResults : Claims.SelectAndMoveResults := fun h ty dty sat d a b ps imm =>
  ⟨sel_computes h ty d a b ps, .of_intAlu (fun _ => rfl), movi_computes h ty d imm, movh_computes h d imm, i2i_computes h dty ty sat d a⟩

/-! ### Compares and votes -/

theorem Claims.predicateResults : Claims.PredicateResults := fun _ _ _ _ _ _ _ _ ps =>
  ⟨.of_cmpAlu fun _ => rfl, .of_cmpAlu fun _ => rfl, .of_cmpAlu fun _ => rfl, .of_cmpAlu fun _ => rfl,
    .of_vote (hit := fun sel _ => sel != 0) (fun _ => rfl) fun e => and_ne_zero e.act (predSpec e.regs ps),
    .of_vote (hit := fun sel act => sel == act) (fun _ => rfl) fun e => and_eq_left e.act (predSpec e.regs ps)⟩

end Sys2Proof.Machine

open Sys2Proof.Machine in
/-- Settles O4: a move or SEL computes from its operands at their anchor; a compare or a vote writes the predicate's bits of the threads that act. -/
theorem choiceResults : Obligations.ChoiceResults := by
  unfold Obligations.ChoiceResults
  exact ⟨Claims.selectAndMoveResults, Claims.predicateResults⟩
end

section
/-! THEOREM. Floating-point instructions (R117, R119, R120, R146 to R153). -/
namespace Sys2Proof.Machine
set_option Elab.async false

/-! ### Instructions of one floating-point type (R112, R115, R133) -/

theorem floatLat_one (ty : Ty) : floatLat [ty] = if ty = .f64 then 8 else 5 := by cases ty <;> rfl

/-- An instruction that runs an operation on encodings yields it for each half of each thread's element. -/
theorem FloatOn.of_floatAlu {i : Instr} {h : Head} {lat lat' : Nat} {ty : Ty} {rm : Rm} {d : Opnd} {xs : List Opnd} {imm : List Src} {g : Rnd → List Nat → Nat}
    (latency : lat' = lat) (imms : ∀ x ∈ imm, ∃ v, x = .bcast v)
    (dst : i.wf = true → dstOk ty.wide d xs = true := by exact wf_last (by rw [Sys2Proof.Instr.wf]))
    (run : ∀ s, exec i s = floatAlu h lat' ty rm d xs imm g s := by exact fun _ => rfl) : FloatOn i h lat ty rm d xs imm g := by
  subst latency
  have operands : (xs.map (fun x => (ty, x))).map Prod.snd = xs := by
    rw [List.map_map]
    exact List.map_id xs
  exact ComputesOn.of_alu_exact run (fun wf => by rw [operands]; exact dst wf) imms

theorem Claims.floatArithmeticResults : Claims.FloatArithmeticResults := fun _ ty _ _ _ _ _ imm =>
  have lat := floatLat_one ty
  have float := immFloat_bcast ty imm
  ⟨.of_floatAlu lat no_imms, .of_floatAlu lat float, .of_floatAlu lat no_imms, .of_floatAlu lat no_imms, .of_floatAlu lat float, .of_floatAlu lat no_imms,
    .of_floatAlu rfl no_imms, .of_floatAlu lat no_imms, .of_floatAlu lat float, .of_floatAlu lat no_imms, .of_floatAlu lat float, .of_floatAlu lat no_imms⟩

/-! ### Functions of one value (R120, R149, R150) -/

/-- FEXP2, FLOG2, FSIN and FCOS have a type of at most 32 bits. -/
theorem elementary_dst {i : Instr} {h : Head} {ty : Ty} {d a : Opnd}
    (conditions : i.wf = (h.ok && (ty == .f32 || ty == .f16 || ty == .bf16) && a.src false && dstOk false d [a])) (wf : i.wf = true) :
    dstOk ty.wide d [a] = true := by
  rw [conditions] at wf
  simp only [Bool.and_eq_true, Bool.or_eq_true, beq_iff_eq] at wf
  obtain ⟨⟨⟨-, (rfl | rfl) | rfl⟩, -⟩, operands⟩ := wf <;> exact operands

theorem fclass_computes (h : Head) (ty : Ty) (d a : Opnd) : ComputesOn (.fclass h ty d a) h (if ty = .f64 then 8 else 5) false d [(ty, a)] []
    (fun _ _ l => 1#64 <<< fclass ty (arg l 0).toNat) := by
  rw [← floatLat_one]
  refine .of_alu (g := fun _ _ l => BitVec.ofNat 64 (2 ^ fclass ty (arg l 0).toNat)) (fun _ => rfl) (wf_last (q := dstOk false d [a]) (by rw [Instr.wf]))
    no_imms fun _ _ _ _ l => ?_
  rw [← BitVec.twoPow_eq]
  exact BitVec.eq_of_toNat_eq (by rw [BitVec.toNat_ofNat, BitVec.toNat_twoPow])

theorem Claims.floatFunctionResults : Claims.FloatFunctionResults := fun h ty d a =>
  ⟨.of_floatAlu rfl no_imms, .of_floatAlu rfl no_imms, .of_floatAlu rfl no_imms, .of_floatAlu rfl no_imms (elementary_dst (h := h) (by rw [Instr.wf])),
    .of_floatAlu rfl no_imms (elementary_dst (h := h) (by rw [Instr.wf])), .of_floatAlu rfl no_imms (elementary_dst (h := h) (by rw [Instr.wf])),
    .of_floatAlu rfl no_imms (elementary_dst (h := h) (by rw [Instr.wf])), fclass_computes h ty d a⟩

/-! ### Conversions and FDOT2 (R117, R119, R152, R153) -/

theorem Claims.floatConversionResults : Claims.FloatConversionResults := fun _ dty _ _ _ d a b c =>
  ⟨.of_alu_exact (fun _ => rfl) (wf_last (q := dstOk dty.wide d [a]) (by rw [Instr.wf])) no_imms,
    .of_alu_exact (fun _ => rfl) (wf_last (q := dstOk dty.wide d [a]) (by rw [Instr.wf])) no_imms,
    .of_alu_exact (fun _ => rfl) (wf_last (q := dstOk false d [a, b, c]) (by rw [Instr.wf])) no_imms⟩

end Sys2Proof.Machine

open Sys2Proof.Machine in
/-- Settles O5: the operations on encodings are those the rules name; each thread's result stands at the anchor of its sources. -/
theorem floatResults : Obligations.FloatResults := by
  unfold Obligations.FloatResults
  exact ⟨Claims.floatArithmeticResults, Claims.floatFunctionResults, Claims.floatConversionResults⟩
end

section
/-! THEOREM. Block formats and RAND (R154 to R157, R160, R161). -/
namespace Sys2Proof.Machine
set_option Elab.async false

/-! ### Block formats (R155 to R157) -/

theorem isVO_dst {d : Opnd} {wide : Bool} (h : d.isVO wide = true) : d.dst wide = true := by rw [Opnd.dst, h, Bool.true_or]

/-- A block-format instruction yields what its body gives each thread; its destination is a V or O register. -/
theorem Computes.of_block {i : Instr} {h : Head} {d : Opnd} {xs : List Opnd} {draws : Bool} {srcs : Env → List Src} {f : Env → Nat → List DWord → DWord}
    (run : ∀ s, exec i s = issue (blockNeed h d xs draws) (fun e => e.compute (blockNeed h d xs draws) d false (srcs e) (f e)) s)
    (vo : i.wf = true → d.isVO false = true)
    (sound : ∀ (s : State) e, s.shaped = true → s.ready? (blockNeed h d xs draws) = some e → ∀ x ∈ srcs e, x.Sound e.regs.mt) :
    Computes i (blockNeed h d xs draws) d false srcs f :=
  .of_body run rfl (fun wf => isVO_dst (vo wf)) (fun wf isS => absurd isS (by simp [isS_of_isVO (vo wf)])) sound fun _ _ _ _ _ => rfl

theorem bcvt_computes (h : Head) (fmt : Bfmt) (rm : Rm) (d a : Opnd) : Computes (.bcvt h fmt rm d a) (blockNeed h d [a] (rm == .rs)) d false (fun _ => [])
    (fun e t _ => imageWord (bfpEncode fmt (fun i => e.rnd rm i 0) (threads.map (fun u =>
      if inMask e.act u then fdec .f32 ((((e.src .f32 a).at u).getD 0).toNat) else .fin false 0 0 false))) t) :=
  .of_block (fun _ => rfl) (wf_middle (by rw [Instr.wf])) fun _ _ _ _ => List.forall_mem_nil _

theorem bunp_computes (h : Head) (fmt : Bfmt) (d a : Opnd) : Computes (.bunp h fmt d a) (blockNeed h d [a] false) d false (fun _ => [])
    (fun e t _ => BitVec.ofNat 64 (fenc .f32 {} (bfpElem fmt (bfpBits fmt) (recordOf fmt (e.src .f32 a)) t))) :=
  .of_block (fun _ => rfl) (wf_middle (by rw [Instr.wf])) fun _ _ _ _ => List.forall_mem_nil _

theorem bdot_computes (h : Head) (fmt : Bfmt) (d a b c : Opnd) :
    Computes (.bdot h fmt d a b c) (blockNeed h d [a, b, c] false) d false (fun e => [e.src .f32 c])
      (fun e _ l =>
        let elem := fun (x : Opnd) (i : Nat) => bfpElem fmt (bfpBits fmt) (recordOf fmt (e.src .f32 x)) i
        let sum := faddv .rn ((List.range 32).map (fun i => fmulv (elem a i) (elem b i)))
        let zeroed := match sum with
          | .fin neg m x st => .fin (neg && m != 0) m x st
          | .nan | .inf _ => sum
        BitVec.ofNat 64 (fenc .f32 {} (faddv .rn [zeroed, fdec .f32 (arg l 0).toNat]))) := by
  refine .of_block (fun _ => rfl) (fun wf => ?_) fun s e shaped ready => List.forall_mem_singleton.mpr (ready?_src_sound ready shaped .f32 c)
  rw [Instr.wf, Bool.and_assoc, Bool.and_assoc] at wf
  exact and_middle wf

/-! ### RAND (R160, R161) -/

/-- RAND takes its draw whole, or its highest 24 bits as a fraction, or its low word. -/
theorem rand_computes (h : Head) (ty : Ty) (d : Opnd) : ComputesOn (.rand h ty d) h 4 ty.wide d [] []
    (fun e t _ =>
      if ty = .n64 then e.draw t
      else if ty = .f32 then BitVec.ofNat 64 (fenc .f32 {} (.fin false ((e.draw t).extractLsb' 40 24).toNat (-24) false))
      else ((e.draw t).extractLsb' 0 32).setWidth 64) true := by
  have low : ∀ z : DWord, (z.extractLsb' 0 32).setWidth 64 = (z.setWidth 32).setWidth 64 := fun _ =>
    congrArg (BitVec.setWidth 64) (BitVec.setWidth_eq_extractLsb' (show 32 ≤ 64 by decide)).symm
  have high : ∀ z : DWord, (z.extractLsb' 40 24).toNat = z.toNat / 2 ^ 40 := fun z => by
    rw [BitVec.extractLsb'_toNat, Nat.shiftRight_eq_div_pow, Nat.mod_eq_of_lt]
    have := z.isLt
    omega
  refine .of_alu_exact (fun s => ?_) (fun wf => ?_) no_imms
  · show execRand h ty d s = _
    unfold execRand
    congr 1
    funext e t _
    cases ty with
    | n64 => rfl
    | f32 => simp only [high, reduceCtorEq, if_false, if_true]
    | _ => simp only [low, reduceCtorEq, if_false]
  · have vo : d.isVO ty.wide = true := wf_last (by rw [Instr.wf]) wf
    exact dstOk_iff.mpr ⟨isVO_dst vo, fun isS => absurd isS (by simp [isS_of_isVO vo])⟩

end Sys2Proof.Machine

open Sys2Proof.Machine in
/-- Settles O7: BCVT and BUNP compute from no mapped source, BDOT from its addend alone, and RAND from each thread's draw. -/
theorem blockAndRandomResults : Obligations.BlockAndRandomResults := by
  unfold Obligations.BlockAndRandomResults
  exact fun h fmt rm ty d a b c => ⟨bcvt_computes h fmt rm d a, bunp_computes h fmt d a, bdot_computes h fmt d a b c, rand_computes h ty d⟩
end

section
/-! THEOREM. Warp queries (R175): the ones that write an S register, and VMATCH. -/
namespace Sys2Proof.Machine
set_option Elab.async false

/-! ### Masks as the queries name them -/

theorem maskOf_inMask (m : Mask) : maskOf (inMask m) = m :=
  BitVec.eq_of_getLsbD_eq fun _ ht => inMask_maskOf (inMask m) ht

theorem maskOf_and (a b : Mask) : maskOf (fun t => inMask a t && inMask b t) = a &&& b := by
  rw [← maskOf_inMask (a &&& b)]
  exact congrArg maskOf (funext fun t => (inMask_and a b t).symm)

/-! ### L positions (R77, R163) -/

/-- An L entry of an S result has a value for every thread, and the map IDENT that its tag describes. -/
theorem lsrc_scalar_sound {e : Env} {n : Fin 4} (scalar : (e.lent n).scalar = true) (ty : Ty) : (e.lsrc ty (.l n)).Sound e.regs.mt := by
  rw [show e.lsrc ty (.l n) = _ from if_pos scalar]
  refine ⟨fun _ t ht i hi => ?_, fun _ i hi _ => ?_⟩
  · obtain rfl : 0 = t := Option.some.inj ht
    exact (tagMap_ident _ hi).trans (ident_at hi).symm
  · exact Option.isSome_iff_exists.mpr ⟨_, ident_at hi⟩

/-- Every operand of a ready instruction that stands in an L position is a sound source. -/
theorem ready?_lsrc_sound {s : State} {d : Need} {e : Env} (hr : s.ready? d = some e) (hs : s.shaped = true) (ty : Ty) (x : Opnd) :
    (e.lsrc ty x).Sound e.regs.mt := by
  have source := ready?_src_sound hr hs ty x
  cases x with
  | l n =>
    cases scalar : (e.lent n).scalar with
    | true => exact lsrc_scalar_sound scalar ty
    | false =>
      rw [show e.lsrc ty (.l n) = _ from if_neg (Bool.eq_false_iff.mp scalar)]
      exact source
  | _ => exact source

/-! ### The queries -/

/-- An instruction whose destination is an S register writes it where, for every S register, it does. -/
theorem WritesS.of_isS {i : Opnd → Instr} {n : Opnd → Need} {d : Opnd} {pre : Env → Prop} {v : Env → DWord} (isS : (i d).wf = true → d.isS = true)
    (writes : ∀ k, WritesS (i (.s k)) (n (.s k)) (.s k) pre v) : WritesS (i d) (n d) d pre v := by
  cases d with
  | s k => exact writes k
  | _ => exact fun _ _ wf => by cases isS wf

/-- VFIRST: the element of the lowest active thread, which is not VOID. -/
theorem vfirst_writes (h : Head) (ty : Ty) (d a : Opnd) : WritesS (.vfirst h ty d a) (laneNeed h 3 [regOf d] [(ty, a)]) d
    (fun e => ((e.lsrc ty a).at (lowestOf e.act)).isSome = true) (fun e => ((e.lsrc ty a).at (lowestOf e.act)).getD 0) := by
  refine .of_isS (i := fun d => .vfirst h ty d a) (n := fun d => laneNeed h 3 [regOf d] [(ty, a)]) (wf_middle (by rw [Instr.wf])) fun k => ?_
  have issues : ∀ s, exec (.vfirst h ty (.s k) a) s = issue (laneNeed h 3 [.s k.val] [(ty, a)]) (fun e =>
      match (e.lsrc ty a).at (lowestOf e.act) with
      | some v => e.putS (laneNeed h 3 [.s k.val] [(ty, a)]) k.val v
      | none => .trap { code := codeVoidop, mask := maskOf (· == lowestOf e.act) }) s := fun _ => rfl
  refine putS_writes issues fun s e _ _ valued => ?_
  obtain ⟨v, hv⟩ := Option.isSome_iff_exists.mp valued
  simp only [hv]
  rfl

/-- VBALLOT: the active threads that the predicate names. -/
theorem vballot_writes (h : Head) (d : Opnd) (ps : PredSpec) : WritesS (.vballot h d ps) (laneNeed h 3 [regOf d] [] (predReads ps)) d (fun _ => True)
    (fun e => (maskOf (fun t => inMask e.act t && inMask (predSpec e.regs ps) t)).setWidth 64) := by
  refine .of_isS (i := fun d => .vballot h d ps) (n := fun d => laneNeed h 3 [regOf d] [] (predReads ps)) (wf_last (by rw [Instr.wf])) fun k => ?_
  have issues : ∀ s, exec (.vballot h (.s k) ps) s = issue (laneNeed h 3 [.s k.val] [] (predReads ps)) (fun e =>
      e.putS (laneNeed h 3 [.s k.val] [] (predReads ps)) k.val ((e.act &&& predSpec e.regs ps).setWidth 64)) s := fun _ => rfl
  refine putS_writes issues fun s e _ _ _ => ?_
  rw [maskOf_and]
  rfl

/-- VACTIVE: the active threads. -/
theorem vactive_writes (h : Head) (d : Opnd) : WritesS (.vactive h d) (laneNeed h 3 [regOf d] []) d (fun _ => True)
    (fun e => (maskOf (inMask e.act)).setWidth 64) := by
  refine .of_isS (i := fun d => .vactive h d) (n := fun d => laneNeed h 3 [regOf d] []) (wf_last (by rw [Instr.wf])) fun k => ?_
  have issues : ∀ s, exec (.vactive h (.s k)) s =
      issue (laneNeed h 3 [.s k.val] []) (fun e => e.putS (laneNeed h 3 [.s k.val] []) k.val (e.act.setWidth 64)) s := fun _ => rfl
  refine putS_writes issues fun s e _ _ _ => ?_
  rw [maskOf_inMask]
  rfl

/-- VMATCH: for each thread the active threads whose elements equal its own. -/
theorem vmatch_computes (h : Head) (ty : Ty) (d a : Opnd) : Computes (.vmatch h ty d a) (laneNeed h 6 [regOf d] [(ty, a)]) d false
    (fun e => [e.lsrc ty a])
    (fun e t _ => (maskOf (fun u => inMask e.act u && ((e.lsrc ty a).at u).isSome && (e.lsrc ty a).at u == (e.lsrc ty a).at t)).setWidth 64) := by
  have vo : (Instr.vmatch h ty d a).wf = true → d.isVO false = true := wf_middle (by rw [Instr.wf])
  have computes : (∀ s, exec (.vmatch h ty d a) s = issue (laneNeed h 6 [regOf d] [(ty, a)]) (fun e =>
        e.compute (laneNeed h 6 [regOf d] [(ty, a)]) d false [e.lsrc ty a] (fun t _ =>
          (maskOf (fun u => inMask e.act u && ((e.lsrc ty a).at u).isSome && (e.lsrc ty a).at u == (e.lsrc ty a).at t)).setWidth 64)) s) →
      [regOf d] = opndRegs false d → Computes (.vmatch h ty d a) (laneNeed h 6 [regOf d] [(ty, a)]) d false (fun e => [e.lsrc ty a]) _ :=
    fun run writes => .of_body run writes (fun wf => isVO_dst (vo wf)) (fun wf isS => absurd isS (by simp [isS_of_isVO (vo wf)]))
      (fun s e shaped ready => List.forall_mem_singleton.mpr (ready?_lsrc_sound ready shaped ty a)) fun _ _ _ _ _ => rfl
  cases d with
  | v n => exact computes (fun _ => rfl) rfl
  | o n => exact computes (fun _ => rfl) rfl
  | _ => exact fun _ _ wf => by cases vo wf

end Sys2Proof.Machine

open Sys2Proof.Machine in
/-- Settles O10: a query that finds its operands puts one value into its S register; VMATCH computes a mask for each thread at the anchor of its source. -/
theorem warpQueryResults : Obligations.WarpQueryResults := by
  unfold Obligations.WarpQueryResults
  exact fun h ty d a ps => ⟨vfirst_writes h ty d a, vballot_writes h d ps, vactive_writes h d, vmatch_computes h ty d a⟩
end

section
/-! SUPPORT. Ranks (R111, R171): the order of keys is one of numbers, with the infinities about them and NaN above all; and the stable order by rank of a
list of candidates. -/
namespace Sys2Proof.Machine
set_option Elab.async false

/-! ### The rank of a key (R171) -/

/-- Where a value stands among all: its class, from −infinity to NaN, and its number where it is finite. -/
def FVal.rank : FVal → ℕ ×ₗ ℚ
  | .nan => toLex (3, 0)
  | .inf neg => toLex (if neg then 0 else 2, 0)
  | .fin neg m e _ => toLex (1, (signed neg m : ℚ) * 2 ^ e)

/-- Where a key of a type stands among all. -/
def keyRank (ty : Ty) (a : DWord) : ℕ ×ₗ ℚ := if ty.isInt then toLex (1, (ival ty a : ℚ)) else (fdec ty a.toNat).rank

/-- A magnitude moved to a lower exponent stands for the same number. -/
theorem signed_shift (neg : Bool) (m : Nat) {e q : Int} (h : m ≠ 0 → q ≤ e) :
    ((if m = 0 then 0 else signed neg (m <<< (e - q).toNat) : Int) : ℚ) * 2 ^ q = (signed neg m : ℚ) * 2 ^ e := by
  by_cases zero : m = 0
  · simp [zero, signed]
  · have shift : (2 : ℚ) ^ e = 2 ^ (e - q).toNat * 2 ^ q := by
      rw [← zpow_natCast, Int.toNat_of_nonneg (Int.sub_nonneg_of_le (h zero)), ← zpow_add₀ two_ne_zero, Int.sub_add_cancel]
    rw [if_neg zero, shift, Nat.shiftLeft_eq]
    cases neg <;> simp [signed, mul_assoc]

/-- Finite values are compared as the numbers they are. -/
theorem fcmpv_fin_lt {a b s s' : Bool} {m n : Nat} {e g : Int} :
    fcmpv (.fin a m e s) (.fin b n g s') = some .lt ↔ (signed a m : ℚ) * 2 ^ e < (signed b n : ℚ) * 2 ^ g := by
  have below : (if m = 0 then g else if n = 0 then e else min e g) ≤ g ∨ n = 0 := by
    by_cases m = 0 <;> by_cases n = 0 <;> simp_all
  have below' : m = 0 ∨ (if m = 0 then g else if n = 0 then e else min e g) ≤ e := by
    by_cases m = 0 <;> by_cases n = 0 <;> simp_all
  rw [← signed_shift a m (e := e) below'.resolve_left, ← signed_shift b n (e := g) below.resolve_right]
  simp only [fcmpv, Option.some.injEq, compare_lt_iff_lt]
  rw [mul_lt_mul_iff_left₀ (by positivity), Int.cast_lt]

/-- A value that is no NaN is below another where it stands below it; NaN stands above. -/
theorem fval_rank_lt (x y : FVal) : (if x == .nan then false else if y == .nan then true else fcmpv x y == some .lt) = true ↔ x.rank < y.rank := by
  cases x with
  | nan => cases y with
    | nan => simp
    | inf b => cases b <;> simp [FVal.rank, Prod.Lex.toLex_lt_toLex]
    | fin => simp [FVal.rank, Prod.Lex.toLex_lt_toLex]
  | inf a => cases y with
    | nan => cases a <;> simp [FVal.rank, Prod.Lex.toLex_lt_toLex]
    | inf b => cases a <;> cases b <;> simp [FVal.rank, Prod.Lex.toLex_lt_toLex, fcmpv]
    | fin => cases a <;> simp [FVal.rank, Prod.Lex.toLex_lt_toLex, fcmpv]
  | fin a m e s => cases y with
    | nan => simp [FVal.rank, Prod.Lex.toLex_lt_toLex]
    | inf b => cases b <;> simp [FVal.rank, Prod.Lex.toLex_lt_toLex, fcmpv]
    | fin b n g s' =>
      have finite := fcmpv_fin_lt (a := a) (b := b) (s := s) (s' := s') (m := m) (n := n) (e := e) (g := g)
      simpa [FVal.rank, Prod.Lex.toLex_lt_toLex] using finite

theorem rankLt_iff (ty : Ty) (a b : DWord) : rankLt ty a b = true ↔ keyRank ty a < keyRank ty b := by
  unfold rankLt keyRank
  split
  · simp [Prod.Lex.toLex_lt_toLex]
  · exact fval_rank_lt _ _

/-! ### Stable insertion -/

theorem rankInsert_perm (before : Nat → Nat → Bool) (x : Nat) (l : List Nat) : (rankInsert before x l).Perm (x :: l) := by
  induction l with
  | nil => exact .refl _
  | cons y l ih =>
    unfold rankInsert
    split
    · exact .refl _
    · exact (ih.cons y).trans (.swap x y l)

/-- One candidate comes before another: it ranks first, or it ties and has the lower index. -/
def Outranks {β : Type} [LinearOrder β] (rank : Nat → β) (x y : Nat) : Prop := rank x < rank y ∨ rank x = rank y ∧ x < y

section
variable {β : Type} [LinearOrder β] {rank : Nat → β} {before : Nat → Nat → Bool} (by_ : ∀ x y, before x y = true ↔ rank x < rank y)
include by_

/-- A candidate of a higher index takes its place among those in order. -/
theorem rankInsert_pairwise {x : Nat} {l : List Nat} (above : ∀ y ∈ l, y < x) (sorted : l.Pairwise (Outranks rank)) :
    (rankInsert before x l).Pairwise (Outranks rank) := by
  induction l with
  | nil => exact List.pairwise_singleton ..
  | cons y l ih =>
    obtain ⟨first, rest⟩ := List.pairwise_cons.mp sorted
    obtain ⟨hy, hl⟩ := List.forall_mem_cons.mp above
    unfold rankInsert
    split
    next lt =>
      have lt := (by_ x y).mp lt
      refine List.pairwise_cons.mpr ⟨List.forall_mem_cons.mpr ⟨.inl lt, fun z hz => .inl ?_⟩, sorted⟩
      obtain less | ⟨tie, -⟩ := first z hz
      exacts [lt.trans less, lt.trans_eq tie]
    next ge =>
      have le : rank y ≤ rank x := not_lt.mp fun lt => ge ((by_ x y).mpr lt)
      refine List.pairwise_cons.mpr ⟨fun z hz => ?_, ih hl rest⟩
      obtain rfl | hz := List.mem_cons.mp ((rankInsert_perm before x l).mem_iff.mp hz)
      · exact le.lt_or_eq.imp_right fun tie => ⟨tie, hy⟩
      · exact first z hz

/-- Candidates in ascending index, inserted after others in order, come in order. -/
theorem foldl_rankInsert_ordered {cand : List Nat} (ascending : cand.Pairwise (· < ·)) {l : List Nat} (below : ∀ y ∈ l, ∀ x ∈ cand, y < x)
    (sorted : l.Pairwise (Outranks rank)) :
    (cand.foldl (fun l x => rankInsert before x l) l).Perm (l ++ cand) ∧ (cand.foldl (fun l x => rankInsert before x l) l).Pairwise (Outranks rank) := by
  induction ascending generalizing l with
  | nil => exact ⟨by simp, sorted⟩
  | @cons x cand first _ ih =>
    have perm := rankInsert_perm before x l
    have below_rest : ∀ y ∈ rankInsert before x l, ∀ z ∈ cand, y < z := fun y hy z hz => by
      obtain rfl | hy := List.mem_cons.mp (perm.mem_iff.mp hy)
      exacts [first z hz, below y hy z (List.mem_cons_of_mem _ hz)]
    obtain ⟨all, ordered⟩ := ih below_rest (rankInsert_pairwise by_ (fun y hy => below y hy x List.mem_cons_self) sorted)
    exact ⟨all.trans ((perm.append_right cand).trans List.perm_middle.symm), ordered⟩

end

/-! ### The order of a selection (R171) -/

/-- A candidate outranks another in the order of a selection. -/
def outranks (ty : Ty) (asc : Bool) (key : Nat → DWord) (x y : Nat) : Bool := if asc then rankLt ty (key x) (key y) else rankLt ty (key y) (key x)

theorem rankOrder_perm_pairwise (ty : Ty) (asc : Bool) (key : Nat → DWord) {cand : List Nat} (ascending : cand.Pairwise (· < ·)) :
    (rankOrder ty asc key cand).Perm cand ∧
    (rankOrder ty asc key cand).Pairwise (fun x y => outranks ty asc key y x = false ∧ (outranks ty asc key x y = true ∨ x < y)) := by
  have ordered : ∀ {β : Type} [LinearOrder β] (rank : Nat → β), (∀ x y, outranks ty asc key x y = true ↔ rank x < rank y) →
      (rankOrder ty asc key cand).Perm cand ∧
      (rankOrder ty asc key cand).Pairwise (fun x y => outranks ty asc key y x = false ∧ (outranks ty asc key x y = true ∨ x < y)) := by
    intro β _ rank by_
    obtain ⟨perm, pairwise⟩ := foldl_rankInsert_ordered by_ ascending (l := []) (by simp) .nil
    refine ⟨perm, pairwise.imp fun {x y} first => ?_⟩
    rw [← Bool.not_eq_true, by_, by_, not_lt]
    exact first.elim (fun less => ⟨less.le, .inl less⟩) fun ⟨tie, less⟩ => ⟨tie.le, .inr less⟩
  cases asc with
  | true => exact ordered (fun x => keyRank ty (key x)) fun x y => rankLt_iff ty (key x) (key y)
  | false => exact ordered (fun x => OrderDual.toDual (keyRank ty (key x))) fun x y => rankLt_iff ty (key y) (key x)

theorem Claims.rankOrderIsStable : Claims.RankOrderIsStable := fun ty asc key _ ascending =>
  rankOrder_perm_pairwise ty asc key ascending

theorem rankOrder_mem {ty : Ty} {asc : Bool} {key : Nat → DWord} {cand : List Nat} (ascending : cand.Pairwise (· < ·)) {x : Nat} :
    x ∈ rankOrder ty asc key cand ↔ x ∈ cand := (rankOrder_perm_pairwise ty asc key ascending).1.mem_iff

theorem rankInsert_congr {before before' : Nat → Nat → Bool} {x : Nat} {l : List Nat} (h : ∀ y ∈ l, before x y = before' x y) :
    rankInsert before x l = rankInsert before' x l := by
  induction l with
  | nil => rfl
  | cons y l ih =>
    obtain ⟨first, rest⟩ := List.forall_mem_cons.mp h
    rw [rankInsert, rankInsert, first, ih rest]

/-- The order of a selection rests on the keys of its candidates alone. -/
theorem rankOrder_congr (ty : Ty) (asc : Bool) {key key' : Nat → DWord} {cand : List Nat} (same : ∀ x ∈ cand, key x = key' x) :
    rankOrder ty asc key cand = rankOrder ty asc key' cand := by
  have insert : ∀ l : List Nat, (∀ y ∈ l, key y = key' y) →
      cand.foldl (fun l x => rankInsert (outranks ty asc key) x l) l = cand.foldl (fun l x => rankInsert (outranks ty asc key') x l) l := by
    induction cand with
    | nil => exact fun _ _ => rfl
    | cons x cand ih =>
      intro l hl
      obtain ⟨first, rest⟩ := List.forall_mem_cons.mp same
      have agree : ∀ y ∈ l, outranks ty asc key x y = outranks ty asc key' x y := fun y hy => by rw [outranks, outranks, first, hl y hy]
      rw [List.foldl_cons, List.foldl_cons, rankInsert_congr agree]
      refine ih rest _ fun y hy => ?_
      obtain rfl | hy := List.mem_cons.mp ((rankInsert_perm _ x l).mem_iff.mp hy)
      exacts [first, hl y hy]
  exact insert [] (List.forall_mem_nil _)

end Sys2Proof.Machine
end

section
/-! SUPPORT. Instructions that write whole registers one after another (R166, R169): what such writes leave, and the writes of selections (R177 to R180). -/
namespace Sys2Proof.Machine
set_option Elab.async false

/-! ### Several whole registers -/

theorem Puts.congr {on : Mask} {f : Regs → Except Mask LaneRes} {d : Reg} {out out' : Nat → Option Word} (h : Puts on f (d, out))
    (same : ∀ u < 32, out u = out' u) : Puts on f (d, out') := fun r fit has room =>
  let ⟨l, hl, given⟩ := h r fit has room
  ⟨l, hl, given.congr same⟩

/-- Writes of no more than one register, or of registers whose tables are counted, give each its elements. -/
theorem seqWrites_given_of_few {on : Mask} {fs : List (Regs → Except Mask LaneRes)} {outs : List (Reg × (Nat → Option Word))}
    (h : List.Forall₂ (Puts on) fs outs) {r : Regs} (fit : r.Fit) (has : ∀ o ∈ outs, r.has o.1) (distinct : (outs.map Prod.fst).Nodup)
    (room : outs.length ≤ r.freeTables) (counted : outs.length ≤ 1 ∨ r.counted (outs.map Prod.fst) = true) :
    ∃ l, seqWrites fs r = .ok l ∧ RegsGiven r l.regs on outs := by
  obtain few | counted := counted
  · cases h with
    | nil => exact ⟨{ regs := r }, rfl, by constructor <;> simp [Regs.sameRest]⟩
    | @cons f o fs outs put rest =>
      obtain rfl : outs = [] := List.eq_nil_of_length_eq_zero (by simpa using few)
      obtain rfl := List.forall₂_nil_right_iff.mp rest
      obtain ⟨l, hl, given⟩ := put r fit (has o List.mem_cons_self) room
      exact ⟨{ l with extra := l.extra + 0, lanemove := l.lanemove + 0, autofire := l.autofire + 0 }, by simp only [seqWrites, hl], given.toRegs⟩
  · obtain ⟨l, hl, given, -⟩ := seqWrites_given h distinct fit (fun o ho => List.mem_map_of_mem ho) has distinct room counted
    exact ⟨l, hl, given⟩

/-- Writes and then a change of the registers that costs nothing. -/
theorem seqWrites_concat {fs : List (Regs → Except Mask LaneRes)} {r : Regs} {l : LaneRes} (h : seqWrites fs r = .ok l) (g : Regs → Regs) :
    seqWrites (fs ++ [fun r => .ok { regs := g r }]) r = .ok { l with regs := g l.regs } := by
  induction fs generalizing r l with
  | nil =>
    obtain rfl := Except.ok.inj h
    rfl
  | cons f fs ih =>
    rw [seqWrites] at h
    rw [List.cons_append, seqWrites]
    split at h
    · cases h
    split at h
    · cases h
    next b hb =>
      obtain rfl := Except.ok.inj h
      simp only [ih hb]

theorem Regs.counted_perm (r : Regs) {ds es : List Reg} (h : ds.Perm es) : r.counted ds = r.counted es := by
  rw [Bool.eq_iff_iff, Regs.counted_iff, Regs.counted_iff]
  exact forall₂_congr fun k _ => by rw [Regs.usersOf, (h.filter _).length_eq]; rfl

theorem Leaving.perm {e : Env} {n : Need} {outs outs' : List (Reg × (Nat → Option Word))} {souts : List (Nat × DWord)} {keeps : Bool} {q : Regs}
    (h : Leaving e n outs souts keeps q) (order : outs.Perm outs') : Leaving e n outs' souts keeps q :=
  { h with elems := fun o ho => h.elems o (order.mem_iff.mpr ho), idle := fun hk o ho => h.idle hk o (order.mem_iff.mpr ho) }

/-- A ready instruction that writes its destinations whole, in whatever order, leaves them with their elements. -/
theorem wholeWrites_leave {s : State} {n : Need} {e : Env} (shaped : s.shaped = true) (ready : s.ready? n = some e)
    {fs : List (Regs → Except Mask LaneRes)} {written outs : List (Reg × (Nat → Option Word))} (puts : List.Forall₂ (Puts fullMask) fs written)
    (order : written.Perm outs) (writes : n.writes = written.map Prod.fst) (distinct : n.writes.Nodup) (vec : ∀ g ∈ n.writes, g.isVec)
    (room : outs.length ≤ e.regs.freeTables) (counted : outs.length ≤ 1 ∨ e.regs.counted (outs.map Prod.fst) = true) :
    ∃ l, seqWrites fs e.regs = .ok l ∧ Leaving e { n with also := [] } outs [] false l.regs ∧ l.regs.s = e.regs.s := by
  have listed : ∀ o ∈ written, o.1 ∈ n.writes := fun o ho => writes ▸ List.mem_map_of_mem ho
  rw [← e.regs.counted_perm (order.map _), ← order.length_eq] at counted
  obtain ⟨l, hl, given⟩ := seqWrites_given_of_few puts (ready?_fit ready shaped)
    (fun o ho => ready?_has ready shaped (vec _ (listed o ho)) (listed o ho)) (writes ▸ distinct) (order.length_eq ▸ room) counted
  have left : Leaving e { n with also := [] } written [] false l.regs := given.leaving (keeps := false) ((List.append_nil _).trans writes)
  exact ⟨l, hl, left.perm order, given.rest.1⟩

/-! ### Writes of selections -/

/-- A register written with the slots of a view and the map of a selection gives each place the element of the thread selected there (R169). -/
theorem selWrite_puts {v : View} (length : v.slots.length = 32) (sel : List Nat) {d : Reg} (hv : d.isVec) :
    Puts fullMask (wholeWrite d v.slots (selMap v.map sel) none) (d, fun i => (sel[i]?).bind v.elem) := fun _ fit has room =>
  let ⟨l, hl, given⟩ := wholeWrite_given v.slots (selMap v.map sel) none hv has fit.tables room length fun _ none_ => by cases none_
  ⟨l, hl, given.congr fun _ hu => selMap_elem v sel hu⟩

/-- Fired, the register gives the same elements (R173). -/
theorem selFire_puts (v : View) (sel : List Nat) {d : Reg} (hv : d.isVec) :
    Puts fullMask (fireInto d v.slots (selMap v.map sel)) (d, fun i => (sel[i]?).bind v.elem) := fun _ fit has room =>
  let ⟨l, hl, given⟩ := fireInto_given { v with map := selMap v.map sel } hv has fit room
  ⟨l, hl, given.congr fun _ hu => selMap_elem v sel hu⟩

/-- Words written under IDENT are the elements of the threads. -/
theorem identWrite_puts (f : Nat → Word) {d : Reg} (hv : d.isVec) : Puts fullMask (identWrite d f) (d, fun i => some (f i)) := fun _ fit has room =>
  let ⟨l, hl, given⟩ := wholeWrite_given (threads.map f) .ident (some 0) hv has fit.tables room (by simp [threads]) fun t zero i hi => by
    obtain rfl : 0 = t := Option.some.inj zero
    exact (tagMap_ident _ hi).trans (ident_at hi).symm
  ⟨l, hl, given.congr fun u hu => by
    have slot : (Fin.ofNat 32 u).val = u := Nat.mod_eq_of_lt hu
    rw [ident_at hu, Option.map_some, slot]
    simp [threads, List.getD, hu]⟩

theorem vRun_isVec (x : Opnd) (n : Nat) : ∀ g ∈ vRun x n, g.isVec := fun g hg => by
  obtain ⟨i, -, rfl⟩ := List.mem_map.mp hg
  trivial

theorem regOf_ne {d : Opnd} {c : Fin 320} (ne : (d != .v c) = true) (vo : d.isVO false = true) : regOf d ≠ .v c.val := by
  cases d with
  | v n =>
    intro same
    obtain rfl : n = c := Fin.ext (Reg.v.inj same)
    simp at ne
  | o n => exact Reg.noConfusion
  | _ => cases vo

/-! ### VSORT and VTOPK from one register (R177, R178) -/

/-- The key of a thread's element. -/
def View.key (v : View) (t : Nat) : DWord := ((v.elem t).getD 0).setWidth 64

/-- The active threads whose elements are not VOID, in the order of a selection. -/
def ranked (e : Env) (ty : Ty) (asc : Bool) (a : Opnd) : List Nat :=
  rankOrder ty asc (e.view a).key (selThreads e.act (fun t => ((e.view a).elem t).isSome))

theorem ranked_eq (e : Env) (ty : Ty) (asc : Bool) (a : Opnd) :
    ranked e ty asc a = rankOrder ty asc (fun t => (((e.view a).elem t).getD 0).setWidth 64) (selThreads e.act (fun t => ((e.view a).map.at t).isSome)) := by
  simp only [ranked, View.elem_isSome]
  rfl

/-- What issue judges of VSORT. -/
def sortNeed (h : Head) (move : Bool) (d a : Opnd) (co : Option (Fin 320)) : Need :=
  laneNeed h (if move then 6 else 2) (match co with | some c => [regOf d, Reg.v c.val] | none => [regOf d]) [(.n32, a)]

/-- VSORT's write of the elements, fired with .MOVE. -/
def sortWrite (move : Bool) (d : Reg) (v : View) (sel : List Nat) : Regs → Except Mask LaneRes :=
  if move then fireInto d v.slots (selMap v.map sel) else wholeWrite d v.slots (selMap v.map sel) none

theorem sortWrite_puts (move : Bool) {d : Reg} {v : View} (hv : d.isVec) (length : v.slots.length = 32) (sel : List Nat) :
    Puts fullMask (sortWrite move d v sel) (d, fun i => (sel[i]?).bind v.elem) := by
  cases move
  exacts [selWrite_puts length sel hv, selFire_puts v sel hv]

theorem execVsort_eq (h : Head) (ty : Ty) (asc move : Bool) (d a : Opnd) (co : Option (Fin 320)) (s : State) : execVsort h ty asc move d a co s =
    issue (sortNeed h move d a co).wholly (fun e => e.lanes (sortNeed h move d a co).wholly
      (seqWrites [sortWrite move (regOf d) (e.view a) (ranked e ty asc a), match co with
        | some c => identWrite (.v c.val) (placeWord (ranked e ty asc a))
        | none => fun r => .ok { regs := r }] e.regs)) s := by
  simp only [ranked_eq]
  rfl

/-- The destinations of VSORT: a V or O register, and another register for the threads where there is one. -/
theorem vsort_dst {h : Head} {ty : Ty} {asc move : Bool} {d a : Opnd} {co : Option (Fin 320)} (wf : (Instr.vsort h ty asc move d a co).wf = true) :
    d.isVO false = true ∧ ∀ c, co = some c → (d != .v c) = true := by
  simp only [Instr.wf, Bool.and_eq_true] at wf
  obtain ⟨⟨⟨-, vo⟩, -⟩, apart⟩ := wf
  exact ⟨vo, by rintro c rfl; exact apart⟩

/-- VSORT (R177): the elements in order from thread 0 on, and the threads that held them. -/
theorem vsort_gives (h : Head) (ty : Ty) (asc move : Bool) (d a : Opnd) (co : Option (Fin 320)) : Gives (.vsort h ty asc move d a co)
    (sortNeed h move d a co) (fun _ => True)
    (fun e => (regOf d, fun i => ((ranked e ty asc a)[i]?).bind (e.view a).elem) :: (match co with
      | some c => [(Reg.v c.val, fun i => some (placeWord (ranked e ty asc a) i))]
      | none => [])) (fun _ => []) false := by
  have issues : ∀ s, exec (.vsort h ty asc move d a co) s = _ := execVsort_eq h ty asc move d a co
  refine Gives.of_lanes _ issues (ready?_wholly · _) fun s e wf shaped ready _ room counted => ?_
  obtain ⟨vo, apart⟩ := vsort_dst wf
  have vec := isVec_of_isVO vo
  have put := sortWrite_puts move vec (view_slots ready shaped a) (ranked e ty asc a)
  cases co with
  | none =>
    obtain ⟨l, hl, left, -⟩ := wholeWrites_leave shaped ready (.cons put .nil) (.refl _) rfl (List.nodup_singleton _)
      (List.forall_mem_singleton.mpr vec) room counted
    exact ⟨_, l, 0, congrArg (e.lanes _) (seqWrites_concat hl id), rfl, left⟩
  | some c =>
    have distinct : [regOf d, Reg.v c.val].Nodup := by simpa using regOf_ne (apart c rfl) vo
    obtain ⟨l, hl, left, -⟩ := wholeWrites_leave shaped ready (.cons put (.cons (identWrite_puts _ (d := .v c.val) trivial) .nil)) (.refl _) rfl distinct
      (List.forall_mem_cons.mpr ⟨vec, List.forall_mem_singleton.mpr trivial⟩) room counted
    exact ⟨_, l, 0, congrArg (e.lanes _) hl, rfl, left⟩

/-- What issue judges of VTOPK from one register. -/
def topkNeed (h : Head) (d a k : Opnd) (ci : Fin 320) : Need := laneNeed h 2 [regOf d, .v ci.val] [(.n32, a), (.n64, k)]

theorem execVtopk_eq (h : Head) (ty : Ty) (asc : Bool) (d a k : Opnd) (ci : Fin 320) (s : State) : execVtopk h ty asc d a k ci s =
    issue (topkNeed h d a k ci).wholly (fun e => e.lanes (topkNeed h d a k ci).wholly
      (seqWrites [wholeWrite (regOf d) (e.view a).slots (selMap (e.view a).map ((ranked e ty asc a).take (countVal e 32 k))) none,
        identWrite (.v ci.val) (placeWord ((ranked e ty asc a).take (countVal e 32 k)))] e.regs)) s := by
  simp only [ranked_eq]
  rfl

/-- VTOPK from one register (R178): VSORT's order cut at the count. -/
theorem vtopk_gives (h : Head) (ty : Ty) (asc : Bool) (d a k : Opnd) (ci : Fin 320) : Gives (.vtopk h ty asc d a k ci) (topkNeed h d a k ci)
    (fun _ => True)
    (fun e => [(regOf d, fun i => (((ranked e ty asc a).take (countVal e 32 k))[i]?).bind (e.view a).elem),
      (.v ci.val, fun i => some (placeWord ((ranked e ty asc a).take (countVal e 32 k)) i))]) (fun _ => []) false := by
  have issues : ∀ s, exec (.vtopk h ty asc d a k ci) s = _ := execVtopk_eq h ty asc d a k ci
  refine Gives.of_lanes _ issues (ready?_wholly · _) fun s e wf shaped ready _ room counted => ?_
  have wf : (h.ok && ty.sortKey && d.isVO false && a.isVOL false && k.countArg 1 32 && d != .v ci) = true := wf
  simp only [Bool.and_eq_true] at wf
  obtain ⟨⟨⟨⟨-, vo⟩, -⟩, -⟩, apart⟩ := wf
  have vec := isVec_of_isVO vo
  have distinct : [regOf d, Reg.v ci.val].Nodup := by simpa using regOf_ne apart vo
  obtain ⟨l, hl, left, -⟩ := wholeWrites_leave shaped ready
    (.cons (selWrite_puts (view_slots ready shaped a) ((ranked e ty asc a).take (countVal e 32 k)) vec)
      (.cons (identWrite_puts _ (d := .v ci.val) trivial) .nil))
    (.refl _) rfl distinct (List.forall_mem_cons.mpr ⟨vec, List.forall_mem_singleton.mpr trivial⟩) room counted
  exact ⟨_, l, 0, congrArg (e.lanes _) hl, rfl, left⟩

end Sys2Proof.Machine
end

section
/-! SUPPORT. VTOPK from several registers (R179): the candidates of all registers in one order, and the two halves that its destinations take. -/
namespace Sys2Proof.Machine
set_option Elab.async false

/-! ### Candidates -/

/-- The first n candidates whose threads are active and whose elements are not VOID. -/
def candidates (act : Mask) (n : Nat) (elem : Nat → Option Word) : List Nat :=
  (List.range n).filter (fun i => inMask act (i % 32) && (elem i).isSome)

/-- The candidates that a selection of cnt takes. -/
def winners (ty : Ty) (asc : Bool) (act : Mask) (n cnt : Nat) (elem : Nat → Option Word) : List Nat :=
  (rankOrder ty asc (fun i => ((elem i).getD 0).setWidth 64) (candidates act n elem)).take cnt

theorem candidates_ascending (act : Mask) (n : Nat) (elem : Nat → Option Word) : (candidates act n elem).Pairwise (· < ·) :=
  List.pairwise_lt_range.filter _

theorem mem_candidates {act : Mask} {n : Nat} {elem : Nat → Option Word} {i : Nat} (h : i ∈ candidates act n elem) : i < n ∧ (elem i).isSome = true := by
  simp only [candidates, List.mem_filter, List.mem_range, Bool.and_eq_true] at h
  obtain ⟨lt, -, some_⟩ := h
  exact ⟨lt, some_⟩

theorem mem_winners {ty : Ty} {asc : Bool} {act : Mask} {n cnt : Nat} {elem : Nat → Option Word} {i : Nat} (h : i ∈ winners ty asc act n cnt elem) :
    i < n ∧ (elem i).isSome = true :=
  mem_candidates ((rankOrder_mem (candidates_ascending act n elem)).mp (List.mem_of_mem_take h))

/-- A selection rests on the elements of its candidates alone. -/
theorem winners_congr (ty : Ty) (asc : Bool) (act : Mask) {n : Nat} (cnt : Nat) {elem elem' : Nat → Option Word} (same : ∀ i < n, elem i = elem' i) :
    winners ty asc act n cnt elem = winners ty asc act n cnt elem' := by
  have cand : candidates act n elem = candidates act n elem' := List.filter_congr fun i hi => by rw [same i (List.mem_range.mp hi)]
  unfold winners
  rw [cand, rankOrder_congr ty asc fun i hi => by rw [same i (mem_candidates hi).1]]

/-- The elements of those that a selection takes. -/
theorem winners_bind {ty : Ty} {asc : Bool} {act : Mask} {n cnt : Nat} {elem elem' : Nat → Option Word} (same : ∀ i < n, elem i = elem' i) (i : Nat) :
    ((winners ty asc act n cnt elem)[i]?).bind elem = ((winners ty asc act n cnt elem)[i]?).bind elem' :=
  Option.bind_congr fun c hc => same c (mem_winners (List.mem_of_getElem? hc)).1

/-! ### Writes of a half -/

/-- The slots of a half of the selection: the elements in order, and beyond them what the register held. -/
def halfSlots (elem : Nat → Option Word) (half : List Nat) (old : List Word) : List Word :=
  threads.map (fun i => match half[i]? with
    | some c => (elem c).getD 0
    | none => old.getD i 0)

theorem halfSlots_get {elem : Nat → Option Word} {half : List Nat} (old : List Word) {i : Nat} (hi : i < 32) {c : Nat} (hc : half[i]? = some c) :
    (halfSlots elem half old).getD i 0 = (elem c).getD 0 := by simp [halfSlots, threads, List.getD, hi, hc]

/-- The elements of a half of the selection, under a map that is IDENT as far as it goes. -/
def halfValues (elem : Nat → Option Word) (half : List Nat) (g : Reg) (r : Regs) : Except Mask LaneRes :=
  wholeWrite g (halfSlots elem half (r.vreg g).slots) (.ofFn (fun i => if i < half.length then some (Fin.ofNat 32 i) else none)) none r

theorem halfValues_puts {elem : Nat → Option Word} {half : List Nat} {g : Reg} (hv : g.isVec) (valued : ∀ c ∈ half, (elem c).isSome = true) :
    Puts fullMask (halfValues elem half g) (g, fun i => (half[i]?).bind elem) := by
  intro r fit has room
  obtain ⟨l, hl, given⟩ := wholeWrite_given (halfSlots elem half (r.vreg g).slots)
    (.ofFn (fun i => if i < half.length then some (Fin.ofNat 32 i) else none)) none hv has fit.tables room (by simp [halfSlots, threads])
    (fun _ none_ => by cases none_)
  refine ⟨l, hl, given.congr fun u hu => ?_⟩
  show _ = (half[u]?).bind elem
  rw [ofFn_at _ hu]
  by_cases inside : u < half.length
  · have there : half[u]? = some half[u] := List.getElem?_eq_getElem inside
    obtain ⟨x, hx⟩ := Option.isSome_iff_exists.mp (valued half[u] (List.getElem_mem inside))
    have slot : (Fin.ofNat 32 u).val = u := Nat.mod_eq_of_lt hu
    rw [if_pos inside, Option.map_some, slot, halfSlots_get _ hu there, there, Option.bind_some, hx, Option.getD_some]
  · rw [if_neg inside, List.getElem?_eq_none (Nat.le_of_not_lt inside)]
    rfl

/-- The candidates of a half of the selection; a count of 0 leaves VOID. -/
def halfPlaces (nothing : Bool) (half : List Nat) (g : Reg) (r : Regs) : Except Mask LaneRes :=
  if nothing then wholeWrite g (r.vreg g).slots .void none r else identWrite g (placeWord half) r

theorem halfPlaces_puts (nothing : Bool) (half : List Nat) {g : Reg} (hv : g.isVec) :
    Puts fullMask (halfPlaces nothing half g) (g, fun i => if nothing then none else some (placeWord half i)) := by
  intro r fit has room
  cases nothing with
  | false => exact identWrite_puts (placeWord half) hv r fit has room
  | true =>
    obtain ⟨l, hl, given⟩ := wholeWrite_given (r.vreg g).slots .void none hv has fit.tables room (fit.slots g) (fun _ none_ => by cases none_)
    exact ⟨l, hl, given.congr fun u _ => by rw [LMap.void_at]; rfl⟩

theorem placeWord_take (l : List Nat) {i : Nat} (hi : i < 32) : placeWord (l.take 32) i = placeWord l i := by
  rw [placeWord, placeWord, List.getElem?_take_of_lt hi]

/-! ### The instruction -/

/-- Candidate i of the registers from A on (R179). -/
def topElem (e : Env) (a : Opnd) (i : Nat) : Option Word := e.regs.elem (.v (a.vnum + i / 32)) (i % 32)

/-- The candidate as the model reads it, from a list of the registers. -/
def topRead (e : Env) (a : Opnd) (cnt i : Nat) : Option Word := e.regs.elem ((vRun a cnt).getD (i / 32) (.v 0)) (i % 32)

theorem topRead_eq (e : Env) (a : Opnd) {cnt i : Nat} (hi : i < 32 * cnt) : topRead e a cnt i = topElem e a i := by
  have reg : (vRun a cnt).getD (i / 32) (.v 0) = .v (a.vnum + i / 32) := by
    have := vRun_getD a cnt id (.v 0) (Nat.div_lt_of_lt_mul hi)
    rwa [List.map_id] at this
  rw [topRead, reg, topElem]

/-- What issue judges of VTOPK from several registers. -/
def topNeed (h : Head) (m : Fin 8) (d a k : Opnd) (ci : Fin 320) : Need :=
  laneNeed h 6 (vRun d 2 ++ [Reg.v ci.val, Reg.v (ci.val + 1)]) [(.n64, k)] (vRun a (m.val + 2))

/-- The candidates that VTOPK from several registers takes. -/
def topSel (e : Env) (ty : Ty) (asc : Bool) (m : Fin 8) (a k : Opnd) : List Nat :=
  winners ty asc e.act (32 * (m.val + 2)) (countVal e 64 k) (topElem e a)

/-- VTOPK's writes: D, D + 1, Ci, Ci + 1. -/
def topWrites (e : Env) (m : Fin 8) (d a : Opnd) (ci : Fin 320) (nothing : Bool) (sel : List Nat) : List (Regs → Except Mask LaneRes) :=
  [halfValues (topRead e a (m.val + 2)) (sel.take 32) (.v d.vnum), halfValues (topRead e a (m.val + 2)) ((sel.drop 32).take 32) (.v (d.vnum + 1)),
    halfPlaces nothing (sel.take 32) (.v ci.val), halfPlaces nothing ((sel.drop 32).take 32) (.v (ci.val + 1))]

theorem execVtopkMulti_eq (h : Head) (ty : Ty) (asc : Bool) (m : Fin 8) (d a k : Opnd) (ci : Fin 320) (s : State) : execVtopkMulti h ty asc m d a k ci s =
    issue (topNeed h m d a k ci).wholly (fun e => e.lanes (topNeed h m d a k ci).wholly
      ((seqWrites (topWrites e m d a ci (countVal e 64 k == 0) (topSel e ty asc m a k)) e.regs).map
        (fun l => { l with lanemove := l.lanemove + (m.val + 2) })) (m.val + 2)) s := by
  have sel : ∀ e, topSel e ty asc m a k = winners ty asc e.act (32 * (m.val + 2)) (countVal e 64 k) (topRead e a (m.val + 2)) := fun e =>
    winners_congr ty asc e.act _ fun i hi => (topRead_eq e a hi).symm
  simp only [sel]
  rfl

/-- What VTOPK from several registers gives its destinations, in the order in which it writes them. -/
def topOuts (e : Env) (d k : Opnd) (ci : Fin 320) (elem : Nat → Option Word) (sel : List Nat) : List (Reg × (Nat → Option Word)) :=
  [(.v d.vnum, fun i => (sel[i]?).bind elem), (.v (d.vnum + 1), fun i => (sel[32 + i]?).bind elem),
    (.v ci.val, fun i => if (e.scalar .n64 k).toNat = 0 then none else some (placeWord (sel.take 32) i)),
    (.v (ci.val + 1), fun i => if (e.scalar .n64 k).toNat = 0 then none else some (placeWord (sel.drop 32) i))]

theorem countVal_eq_zero (e : Env) {cap : Nat} (pos : cap ≠ 0) (k : Opnd) : (countVal e cap k == 0) = decide ((e.scalar .n64 k).toNat = 0) := by
  rw [Bool.eq_iff_iff, beq_iff_eq, decide_eq_true_iff, countVal]
  omega

theorem topWrites_puts (e : Env) (ty : Ty) (asc : Bool) (m : Fin 8) (d a k : Opnd) (ci : Fin 320) :
    List.Forall₂ (Puts fullMask) (topWrites e m d a ci (countVal e 64 k == 0) (topSel e ty asc m a k))
      (topOuts e d k ci (topElem e a) (topSel e ty asc m a k)) := by
  have read : ∀ i, i ∈ topSel e ty asc m a k → topRead e a (m.val + 2) i = topElem e a i := fun i hi => topRead_eq e a (mem_winners hi).1
  have valued : ∀ i, i ∈ topSel e ty asc m a k → (topRead e a (m.val + 2) i).isSome = true := fun i hi => by
    rw [read i hi]
    exact (mem_winners hi).2
  have places : ∀ half half' : List Nat, (∀ u < 32, placeWord half u = placeWord half' u) → ∀ g : Nat, Puts fullMask
      (halfPlaces (countVal e 64 k == 0) half (.v g)) (.v g, fun i => if (e.scalar .n64 k).toNat = 0 then none else some (placeWord half' i)) :=
    fun half half' same g => (halfPlaces_puts _ half (g := .v g) trivial).congr fun u hu => by
      simp only [countVal_eq_zero e (show 64 ≠ 0 by decide) k, decide_eq_true_eq, same u hu]
  refine .cons ?_ (.cons ?_ (.cons (places _ _ (fun _ _ => rfl) _) (.cons (places _ _ (fun _ hu => placeWord_take _ hu) _) .nil)))
  · refine (halfValues_puts (g := .v d.vnum) trivial fun c hc => valued c (List.mem_of_mem_take hc)).congr fun u hu => ?_
    rw [List.getElem?_take_of_lt hu]
    exact Option.bind_congr fun c hc => read c (List.mem_of_getElem? hc)
  · refine (halfValues_puts (g := .v (d.vnum + 1)) trivial fun c hc => valued c (List.mem_of_mem_drop (List.mem_of_mem_take hc))).congr fun u hu => ?_
    rw [List.getElem?_take_of_lt hu, List.getElem?_drop]
    exact Option.bind_congr fun c hc => read c (List.mem_of_getElem? hc)

/-- The four destinations are different registers: both pairs begin at even ones. -/
theorem topNeed_distinct {h : Head} {ty : Ty} {asc : Bool} {m : Fin 8} {d a k : Opnd} {ci : Fin 320}
    (wf : (Instr.vtopkMulti h ty asc m d a k ci).wf = true) : (topNeed h m d a k ci).writes.Nodup := by
  simp only [Instr.wf, Bool.and_eq_true] at wf
  obtain ⟨⟨⟨⟨⟨⟨-, isV⟩, pair⟩, even⟩, apart⟩, -⟩, -⟩ := wf
  cases d with
  | v n =>
    have ne : n.val ≠ ci.val := fun same => by
      obtain rfl := Fin.ext same
      simp at apart
    have pair : n.val % 2 = 0 := by simpa [Opnd.isVO] using pair
    have even : ci.val % 2 = 0 := by simpa using even
    show [Reg.v (n.val + 0), .v (n.val + 1), .v ci.val, .v (ci.val + 1)].Nodup
    simp only [List.nodup_cons, List.mem_cons, List.not_mem_nil, Reg.v.injEq, or_false, not_false_eq_true, List.nodup_nil, and_true]
    omega
  | _ => cases isV

/-- VTOPK from several registers (R179): the elements taken, in order over D and D + 1, and their candidates in Ci and Ci + 1. -/
theorem vtopkMulti_gives (h : Head) (ty : Ty) (asc : Bool) (m : Fin 8) (d a k : Opnd) (ci : Fin 320) : Gives (.vtopkMulti h ty asc m d a k ci)
    (topNeed h m d a k ci) (fun _ => True)
    (fun e =>
      let sel := topSel e ty asc m a k
      [(.v d.vnum, fun i => (sel[i]?).bind (topElem e a)),
        (.v ci.val, fun i => if (e.scalar .n64 k).toNat = 0 then none else some (placeWord (sel.take 32) i)),
        (.v (d.vnum + 1), fun i => (sel[32 + i]?).bind (topElem e a)),
        (.v (ci.val + 1), fun i => if (e.scalar .n64 k).toNat = 0 then none else some (placeWord (sel.drop 32) i))]) (fun _ => []) false := by
  have issues : ∀ s, exec (.vtopkMulti h ty asc m d a k ci) s = _ := execVtopkMulti_eq h ty asc m d a k ci
  refine Gives.of_lanes _ issues (ready?_wholly · _) fun s e wf shaped ready _ room counted => ?_
  have vec : ∀ g ∈ (topNeed h m d a k ci).writes, g.isVec := fun g hg => by
    obtain hg | hg := List.mem_append.mp hg
    · exact vRun_isVec d 2 g hg
    · simp only [List.mem_cons, List.not_mem_nil, or_false] at hg
      obtain rfl | rfl := hg <;> trivial
  obtain ⟨l, hl, left, -⟩ := wholeWrites_leave shaped ready (topWrites_puts e ty asc m d a k ci) ((List.Perm.swap _ _ _).cons _) rfl
    (topNeed_distinct wf) vec room counted
  exact ⟨_, { l with lanemove := l.lanemove + (m.val + 2) }, m.val + 2, by rw [hl]; rfl, rfl, left⟩

end Sys2Proof.Machine
end

section
/-! SUPPORT. Bins (R180): where the bin of a key starts in a list in order, and the set and the count of the bins that hold keys. -/
namespace Sys2Proof.Machine
set_option Elab.async false

/-! ### The start of a bin -/

/-- In a list in order of a number, those below a bound stand first. -/
theorem lt_iff_lt_filter_length {num : Nat → Nat} {l : List Nat} (sorted : l.Pairwise (fun x y => num x ≤ num y)) (bound : Nat) {j : Nat} (hj : j < l.length) :
    num l[j] < bound ↔ j < (l.filter (fun u => decide (num u < bound))).length := by
  induction sorted generalizing j with
  | nil => cases hj
  | @cons x l first _ ih =>
    by_cases less : num x < bound
    · have keep : (x :: l).filter (fun u => decide (num u < bound)) = x :: l.filter (fun u => decide (num u < bound)) :=
        List.filter_cons_of_pos (decide_eq_true less)
      rw [keep, List.length_cons]
      cases j with
      | zero => simpa using less
      | succ j => simpa using ih (Nat.lt_of_succ_lt_succ hj)
    · have none_ : (x :: l).filter (fun u => decide (num u < bound)) = [] := List.filter_eq_nil_iff.mpr (List.forall_mem_cons.mpr
        ⟨by simpa using less, fun u hu => by have := first u hu; simp only [decide_eq_true_eq]; omega⟩)
      have least : ∀ u ∈ x :: l, num x ≤ num u := List.forall_mem_cons.mpr ⟨Nat.le_refl _, first⟩
      have := least _ (List.getElem_mem hj)
      rw [none_, List.length_nil]
      omega

/-- The first place that holds the number of place i. -/
def binStart (num : Nat → Nat) (l : List Nat) (i : Nat) : Nat :=
  ((List.range 32).find? (fun j => (l[j]?).map num == (l[i]?).map num)).getD 0

theorem binStart_eq {num : Nat → Nat} {l : List Nat} (sorted : l.Pairwise (fun x y => num x ≤ num y)) (short : l.length ≤ 32) {i t : Nat}
    (hi : l[i]? = some t) : binStart num l i = (l.filter (fun u => decide (num u < num t))).length := by
  obtain ⟨inside, rfl⟩ := List.getElem?_eq_some_iff.mp hi
  have below := fun {j : Nat} => lt_iff_lt_filter_length sorted (num l[i]) (j := j)
  generalize (l.filter (fun u => decide (num u < num l[i]))).length = c at below ⊢
  have le : c ≤ i := Nat.le_of_not_lt fun lt => absurd ((below inside).mpr lt) (Nat.lt_irrefl _)
  have there : c < l.length := Nat.lt_of_le_of_lt le inside
  have same : num l[c] = num l[i] := by
    refine Nat.le_antisymm ?_ (Nat.le_of_not_lt fun less => absurd ((below there).mp less) (Nat.lt_irrefl _))
    obtain rfl | lt := Nat.eq_or_lt_of_le le
    exacts [Nat.le_refl _, List.pairwise_iff_getElem.mp sorted c i there inside lt]
  have found : (List.range 32).find? (fun j => (l[j]?).map num == (l[i]?).map num) = some c := by
    rw [List.find?_range_eq_some]
    refine ⟨by simp [there, inside, same], List.mem_range.mpr (by omega), fun j hj => ?_⟩
    have less := (below (Nat.lt_trans hj there)).mpr hj
    have jn : j < l.length := Nat.lt_trans hj there
    simpa [jn, inside] using Nat.ne_of_lt less
  rw [binStart, found, Option.getD_some]

/-! ### The bins that hold keys -/

/-- The bins that the numbers of a list fall in. -/
def usedBins (num : Nat → Nat) (l : List Nat) : List Nat := (List.range 64).filter (fun b => l.any (fun t => num t == b))

theorem nodup_eraseDups {α : Type} [BEq α] [LawfulBEq α] (l : List α) : l.eraseDups.Nodup := by
  induction n : l.length using Nat.strong_induction_on generalizing l with
  | _ n ih =>
    subst n
    cases l with
    | nil => exact List.nodup_nil
    | cons x l =>
      rw [List.eraseDups_cons, List.nodup_cons, List.mem_eraseDups]
      exact ⟨by simp, ih _ (Nat.lt_succ_of_le (List.length_filter_le ..)) _ rfl⟩

/-- There are as many bins as different numbers, where each number is that of a bin. -/
theorem eraseDups_length_eq_usedBins {num : Nat → Nat} {l : List Nat} (inside : ∀ t ∈ l, num t < 64) :
    (l.map num).eraseDups.length = (usedBins num l).length := by
  refine ((List.perm_ext_iff_of_nodup (nodup_eraseDups _) (List.nodup_range.filter _)).mpr fun b => ?_).length_eq
  simp only [List.mem_eraseDups, List.mem_map, List.mem_filter, List.mem_range, List.any_eq_true, beq_iff_eq]
  exact ⟨fun ⟨t, ht, same⟩ => ⟨same ▸ inside t ht, t, ht, same⟩, fun ⟨_, held⟩ => held⟩

/-- The bits of a sum of different powers of two. -/
theorem sum_two_pow_testBit (p : Nat → Bool) (n : Nat) : (((List.range n).filter p).map (2 ^ ·)).sum < 2 ^ n ∧
    ∀ i, (((List.range n).filter p).map (2 ^ ·)).sum.testBit i = (decide (i < n) && p i) := by
  induction n with
  | zero => simp
  | succ n ih =>
    obtain ⟨lt, bits⟩ := ih
    rw [List.range_succ, List.filter_append, List.map_append, List.sum_append]
    generalize (((List.range n).filter p).map (2 ^ ·)).sum = m at lt bits ⊢
    have below : ∀ i, i ≠ n → decide (i < n + 1) = decide (i < n) := fun i ne => decide_eq_decide.mpr (by omega)
    cases hp : p n with
    | false =>
      have last : (([n].filter p).map (2 ^ ·)).sum = 0 := by simp [hp]
      rw [last, Nat.add_zero]
      refine ⟨by omega, fun i => ?_⟩
      rw [bits]
      by_cases same : i = n
      · simp [same, hp]
      · rw [below i same]
    | true =>
      have last : (([n].filter p).map (2 ^ ·)).sum = 2 ^ n := by simp [hp]
      have join : m + 2 ^ n = 2 ^ n ||| m := by
        have := Nat.two_pow_add_eq_or_of_lt lt 1
        rwa [Nat.mul_one, Nat.add_comm] at this
      rw [last]
      refine ⟨by omega, fun i => ?_⟩
      rw [join, Nat.testBit_or, bits, Nat.testBit_two_pow]
      by_cases same : i = n
      · simp [same, hp]
      · rw [below i same, decide_eq_false (Ne.symm same), Bool.false_or]

theorem foldl_or_shift_getLsbD (num : Nat → Nat) (l : List Nat) (x : DWord) {b : Nat} (hb : b < 64) :
    (l.foldl (fun (x : DWord) t => x ||| (1#64 <<< num t)) x).getLsbD b = (x.getLsbD b || l.any (fun t => num t == b)) := by
  induction l generalizing x with
  | nil => simp
  | cons t l ih =>
    have bit : (1#64 <<< num t).getLsbD b = (num t == b) := by
      rw [← BitVec.twoPow_eq, BitVec.getLsbD_twoPow]
      by_cases same : num t = b <;> simp [same, hb]
    rw [List.foldl_cons, ih, BitVec.getLsbD_or, bit, List.any_cons, Bool.or_assoc]

/-- The set of bins that hold keys, as a word with a bit for each. -/
theorem occupied_eq (num : Nat → Nat) (l : List Nat) :
    l.foldl (fun (x : DWord) t => x ||| (1#64 <<< num t)) 0 = BitVec.ofNat 64 ((usedBins num l).map (2 ^ ·)).sum := by
  refine BitVec.eq_of_getLsbD_eq fun b hb => ?_
  rw [foldl_or_shift_getLsbD num l 0 hb, ofNat_getLsbD hb, usedBins, (sum_two_pow_testBit _ 64).2]
  simp [hb]

theorem usedBins_perm (num : Nat → Nat) {l l' : List Nat} (h : l.Perm l') : usedBins num l = usedBins num l' :=
  List.filter_congr fun _ _ => h.any_eq

/-! ### VBIN -/

theorem View.key_toNat (v : View) (t : Nat) : (v.key t).toNat = ((v.elem t).getD 0).toNat := BitVec.toNat_setWidth_of_le (by decide)

/-- A key of 32 bits ranks by its number. -/
theorem rankLt_key (v : View) (x y : Nat) : rankLt .n32 (v.key x) (v.key y) = decide ((v.key x).toNat < (v.key y).toNat) := by
  have number : ∀ t, ival .n32 (v.key t) = ((v.key t).toNat : Int) := fun t => by
    have small : (v.key t).toNat % 2 ^ 32 = (v.key t).toNat := Nat.mod_eq_of_lt (setWidth64_lt _)
    rw [ival_eq, if_neg (by simp [Ty.signed])]
    exact congrArg Nat.cast small
  rw [rankLt, if_pos (show Ty.n32.isInt = true from rfl), number, number]
  exact decide_eq_decide.mpr Int.ofNat_lt

theorem selThreads_ascending (act : Mask) (p : Nat → Bool) : (selThreads act p).Pairwise (· < ·) := threads_ascending.filter _

/-- The threads that VBIN looks at: active, selected, and not VOID. -/
def binSel (e : Env) (a : Opnd) (ps : PredSpec) : List Nat :=
  selThreads e.act (fun t => inMask (predSpec e.regs ps) t && ((e.view a).elem t).isSome)

/-- Those of them whose keys are bins. -/
def binKept (e : Env) (a : Opnd) (ps : PredSpec) (nb : Opnd) : List Nat :=
  (binSel e a ps).filter (fun t => decide (((e.view a).key t).toNat < countVal e 64 nb))

/-- They, in the order of their keys. -/
def binned (e : Env) (a : Opnd) (ps : PredSpec) (nb : Opnd) : List Nat := rankOrder .n32 true (e.view a).key (binKept e a ps nb)

theorem binned_order (e : Env) (a : Opnd) (ps : PredSpec) (nb : Opnd) : (binned e a ps nb).Perm (binKept e a ps nb) ∧
    (binned e a ps nb).Pairwise (fun x y => ((e.view a).key x).toNat ≤ ((e.view a).key y).toNat) := by
  obtain ⟨perm, pairwise⟩ := rankOrder_perm_pairwise .n32 true (e.view a).key ((selThreads_ascending e.act _).filter _ : (binKept e a ps nb).Pairwise (· < ·))
  refine ⟨perm, pairwise.imp fun {x y} first => ?_⟩
  have back : rankLt .n32 ((e.view a).key y) ((e.view a).key x) = false := first.1
  rw [rankLt_key, decide_eq_false_iff_not] at back
  omega

theorem binKept_lt (e : Env) (a : Opnd) (ps : PredSpec) (nb : Opnd) : ∀ t ∈ binKept e a ps nb, ((e.view a).key t).toNat < 64 := fun t ht => by
  have less := of_decide_eq_true (List.mem_filter.mp ht).2
  exact Nat.lt_of_lt_of_le less (Nat.min_le_left ..)

theorem binned_short (e : Env) (a : Opnd) (ps : PredSpec) (nb : Opnd) : (binned e a ps nb).length ≤ 32 := by
  rw [(binned_order e a ps nb).1.length_eq]
  calc (binKept e a ps nb).length ≤ (binSel e a ps).length := List.length_filter_le ..
    _ ≤ threads.length := List.length_filter_le ..
    _ = 32 := by simp [threads]

/-- What issue judges of VBIN. -/
def binNeed (h : Head) (sn : Fin 64) (d a : Opnd) (ps : PredSpec) (nb : Opnd) : Need :=
  { laneNeed h 2 (vRun d 3) [(.n32, a), (.n64, nb)] (predReads ps) with also := [(Reg.s sn.val, 3), (Reg.s (sn.val + 1), 3)] }

/-- The registers that VBIN writes: the elements in order, their threads, and where their bins start. -/
def binWrites (d : Opnd) (v : View) (bin : List Nat) : List (Regs → Except Mask LaneRes) :=
  [wholeWrite (.v d.vnum) v.slots (selMap v.map bin) none, identWrite (.v (d.vnum + 1)) (placeWord bin),
    identWrite (.v (d.vnum + 2)) (fun i => if i < bin.length then BitVec.ofNat 32 (binStart (fun t => (v.key t).toNat) bin i) else 0xFFFFFFFF)]

/-- The word that lists the occupied bins, and the one that counts bins, threads in bins, and threads dropped. -/
def binWords (v : View) (bin : List Nat) (sel : Nat) : DWord × DWord :=
  (bin.foldl (fun (x : DWord) t => x ||| (1#64 <<< (v.key t).toNat)) 0,
    BitVec.ofNat 64 ((bin.map (fun t => (v.key t).toNat)).eraseDups.length + bin.length * 2 ^ 16 + (sel - bin.length) * 2 ^ 32))

/-- A register file with two words in an S register and the next. -/
def Regs.setWords (r : Regs) (n : Nat) (w : DWord × DWord) : Regs := { r with s := (r.s.set n w.1).set (n + 1) w.2 }

theorem Regs.setWords_scalars {r : Regs} {n : Nat} (inFile : n + 1 < r.s.length) (w : DWord × DWord) :
    (r.setWords n w).s[n]? = some w.1 ∧ (r.setWords n w).s[n + 1]? = some w.2 := by
  refine ⟨?_, List.getElem?_set_self (by rwa [List.length_set])⟩
  show ((r.s.set n w.1).set (n + 1) w.2)[n]? = some w.1
  rw [List.getElem?_set_ne (Nat.succ_ne_self n), List.getElem?_set_self (Nat.lt_of_succ_lt inFile)]

theorem execVbin_eq (h : Head) (sn : Fin 64) (d a : Opnd) (ps : PredSpec) (nb : Opnd) (s : State) : execVbin h sn d a ps nb s =
    issue (binNeed h sn d a ps nb).wholly (fun e => e.lanes (binNeed h sn d a ps nb).wholly
      (seqWrites (binWrites d (e.view a) (binned e a ps nb) ++
        [fun r => .ok { regs := r.setWords sn.val (binWords (e.view a) (binned e a ps nb) (binSel e a ps).length) }]) e.regs)) s := by
  simp only [binWrites, binWords, binned, binKept, binSel, View.key_toNat, View.elem_isSome]
  rfl

/-- The bins that hold keys of VBIN. -/
def binUsed (e : Env) (a : Opnd) (ps : PredSpec) (nb : Opnd) : List Nat := usedBins (fun t => ((e.view a).key t).toNat) (binKept e a ps nb)

theorem binWords_eq (e : Env) (a : Opnd) (ps : PredSpec) (nb : Opnd) : binWords (e.view a) (binned e a ps nb) (binSel e a ps).length =
    (BitVec.ofNat 64 ((binUsed e a ps nb).map (2 ^ ·)).sum,
      BitVec.ofNat 64 ((binUsed e a ps nb).length + 2 ^ 16 * (binKept e a ps nb).length + 2 ^ 32 * ((binSel e a ps).length - (binKept e a ps nb).length))) := by
  obtain ⟨perm, -⟩ := binned_order e a ps nb
  have used : usedBins (fun t => ((e.view a).key t).toNat) (binned e a ps nb) = binUsed e a ps nb := usedBins_perm _ perm
  rw [binWords, occupied_eq (fun t => ((e.view a).key t).toNat),
    eraseDups_length_eq_usedBins (num := fun t => ((e.view a).key t).toNat) fun t ht => binKept_lt e a ps nb t (perm.mem_iff.mp ht),
    used, perm.length_eq, Nat.mul_comm _ (2 ^ 16), Nat.mul_comm _ (2 ^ 32)]

/-- What VBIN gives its registers. -/
def binOuts (d : Opnd) (v : View) (bin : List Nat) : List (Reg × (Nat → Option Word)) :=
  [(.v d.vnum, fun i => (bin[i]?).bind v.elem), (.v (d.vnum + 1), fun i => some (placeWord bin i)),
    (.v (d.vnum + 2), fun i => some (match bin[i]? with
      | some t => BitVec.ofNat 32 ((bin.filter (fun u => decide ((v.key u).toNat < (v.key t).toNat))).length)
      | none => 0xFFFFFFFF#32))]

theorem binWrites_puts (d : Opnd) {v : View} (length : v.slots.length = 32) {bin : List Nat}
    (sorted : bin.Pairwise (fun x y => (v.key x).toNat ≤ (v.key y).toNat)) (short : bin.length ≤ 32) :
    List.Forall₂ (Puts fullMask) (binWrites d v bin) (binOuts d v bin) := by
  refine .cons (selWrite_puts length bin (d := .v d.vnum) trivial) (.cons (identWrite_puts _ (d := .v (d.vnum + 1)) trivial)
    (.cons ((identWrite_puts _ (d := .v (d.vnum + 2)) trivial).congr fun u _ => ?_) .nil))
  cases at_ : bin[u]? with
  | none => exact congrArg some (if_neg (Nat.not_lt.mpr (List.getElem?_eq_none_iff.mp at_)))
  | some t => rw [if_pos (List.getElem?_eq_some_iff.mp at_).1, binStart_eq sorted short at_]

/-- VBIN (R180): the elements in the order of their bins, their threads and where their bins start; the occupied bins, and the counts. -/
theorem vbin_gives (h : Head) (sn : Fin 64) (d a : Opnd) (ps : PredSpec) (nb : Opnd) : Gives (.vbin h sn d a ps nb) (binNeed h sn d a ps nb) (fun _ => True)
    (fun e => binOuts d (e.view a) (binned e a ps nb))
    (fun e =>
      [(sn.val, BitVec.ofNat 64 ((binUsed e a ps nb).map (2 ^ ·)).sum),
        (sn.val + 1, BitVec.ofNat 64
          ((binUsed e a ps nb).length + 2 ^ 16 * (binKept e a ps nb).length + 2 ^ 32 * ((binSel e a ps).length - (binKept e a ps nb).length)))]) false := by
  have issues : ∀ s, exec (.vbin h sn d a ps nb) s = _ := execVbin_eq h sn d a ps nb
  refine Gives.of_lanes _ issues (ready?_wholly · _) fun s e wf shaped ready _ room counted => ?_
  have next : sn.val + 1 < 64 := by
    simp only [Instr.wf, Bool.and_eq_true, beq_iff_eq] at wf
    obtain ⟨⟨⟨⟨-, even⟩, -⟩, -⟩, -⟩ := wf
    omega
  obtain ⟨l, hl, left, scalars⟩ := wholeWrites_leave shaped ready
    (binWrites_puts d (view_slots ready shaped a) (binned_order e a ps nb).2 (binned_short e a ps nb)) (.refl _) rfl (vRun_nodup d 3) (vRun_isVec d 3)
    room counted
  have words := seqWrites_concat hl fun r => r.setWords sn.val (binWords (e.view a) (binned e a ps nb) (binSel e a ps).length)
  refine ⟨_, _, 0, congrArg (e.lanes _) words, rfl, ?_⟩
  rw [binWords_eq]
  have inFile : sn.val + 1 < l.regs.s.length := by
    rw [scalars, ready?_scalars ready shaped]
    exact next
  constructor
  case elems => exact left.elems
  case idle => exact Bool.noConfusion
  case scalars =>
    obtain ⟨first, second⟩ := Regs.setWords_scalars inFile _
    exact List.forall_mem_cons.mpr ⟨first, List.forall_mem_singleton.mpr second⟩
  case frame => exact (left.frame.setCount (some sn) _).setCount (some ⟨sn.val + 1, next⟩) _
  case sb => exact left.sb
  case draws => exact left.draws

end Sys2Proof.Machine
end

section
/-! THEOREM. Sorting, selection and binning (R169, R171, R177 to R180). -/
namespace Sys2Proof.Machine
set_option Elab.async false

theorem Claims.selectionResults : Claims.SelectionResults := fun h ty asc move d a k ci co m sn ps nb =>
  ⟨vsort_gives h ty asc move d a co, vtopk_gives h ty asc d a k ci, vtopkMulti_gives h ty asc m d a k ci, vbin_gives h sn d a ps nb⟩

end Sys2Proof.Machine

open Sys2Proof.Machine in
/-- Settles O12: a selection inserts each candidate behind those that it does not outrank; its destinations are written whole one after another, each over one
free table at most. -/
theorem selectionResults : Obligations.SelectionResults := by
  unfold Obligations.SelectionResults
  exact ⟨Claims.selectionResults, Claims.rankOrderIsStable⟩
end
